-- ==== Sys2Proof/Word.lean ====
section
/-! DEFINITION. The plain word types of the model: bytes, 64-bit words, and the sparse table that stands for a
register file or any other collection of like things kept by number. -/

namespace Sys2Proof

/-- One byte. -/
abbrev Byte := BitVec 8

/-- A 64-bit word: the width of the scalar registers (00_scope.md, R5, R6 fix byte and bit order). -/
abbrev Word := BitVec 64

/-- A string of bytes, the lowest address first. -/
abbrev Bytes := List Byte

/-- A sparse table: number and value, numbers strictly rising. What an unlisted number reads as is said by the
operation that reads it (`Machine.tblGet`). -/
abbrev Tbl (α : Type) := List (Nat × α)

end Sys2Proof
end

