-- ==== Sys2Proof/Names.lean ====
section
/-! DEFINITION. The small vocabularies that the commands' operands and the state share: values of columns, agents,
outcomes of host accesses, units, and other sets of names the spec lists. -/

namespace Sys2Proof

/-! ## Columns -/

/-- One value of a column (02_column_blocks.md): NULL (R57), a fixed-size value as its bit pattern (R40; BOOL as 0
or 1), a byte string held in line (R53), or a long value by its reference (R54). -/
inductive Value where
  | null
  | num (n : Nat)
  | str (b : Bytes)
  | long (addr len prefx : Nat)
  deriving DecidableEq, Repr

/-- One entry of a column directory (R76). -/
structure DirEntry where
  address : Nat
  firstRow : Nat
  rowCount : Nat
  footprint : Nat
  subchannel : Nat
  deriving DecidableEq, Repr

/-- A column directory as a snapshot holds it (R78). -/
structure Directory where
  addr : Nat
  type : Nat
  scale : Nat
  entries : List DirEntry
  totalRows : Nat
  deriving DecidableEq, Repr

/-- A digest under way: the chaining value as big-endian bytes, the bytes of the block not yet full, and the bytes
absorbed so far. -/
structure ShaState where
  chain : Bytes
  part : Bytes
  count : Nat
  deriving DecidableEq, Repr

/-! ## The host side -/

/-- How a host read can fail (R452, R552): Unsupported Request, Completer Abort, Completion Timeout. -/
inductive HostFaultKind where
  | unsupported
  | abort
  | timeout
  deriving DecidableEq, Repr

/-- A range of host memory whose reads do not complete with data. `key` is 0 for requests without a PASID and PASID
plus 1 otherwise. `times` is how many attempts in a row time out, for `timeout` only. -/
structure HostFault where
  key : Nat
  lo : Nat
  hi : Nat
  kind : HostFaultKind
  times : Nat
  deriving DecidableEq, Repr

/-- What the host has done to its own memory by the time a command reads it: bytes written, and the ranges whose
reads fail. A command that reads host memory carries one; the empty view changes nothing. -/
structure HostView where
  writes : List (Nat × Nat × Bytes)
  faults : List HostFault
  deriving DecidableEq, Repr

/-! ## Registers and units -/

/-- The two access paths that own a high-word latch (R20). -/
inductive AccessPath where
  | pcie
  | harbourmaster
  deriving DecidableEq, Repr

/-- The counter blocks of the module: R143, R287, R390, R530, R579, and the control block of queue Q, where 4,096
stands for the manager queue (R409, R443). -/
inductive CounterBlock where
  | quay (q : Fin 32)
  | canopy (b : Fin 16)
  | pilot
  | memory (s : Fin 32)
  | cranes
  | compression (e : Fin 4)
  | digest
  | queue (q : Fin 4097)
  deriving DecidableEq, Repr

/-- The registers whose low word has access RSL: the 64-bit and 48-bit counters, by their bit number in the block's
overflow register, and DEVICE_TIME (R19, R400). -/
inductive RslRegister where
  | counter (b : CounterBlock) (n : Fin 32)
  | deviceTime
  deriving DecidableEq, Repr

/-- Register spaces that a REGISTER_WRITE names (R399, R414, R494). -/
inductive RegSpace where
  | bar0
  | bar2
  | device
  deriving DecidableEq, Repr

/-- Units that can be retired or returned (R668): a test partition P0 to P77, a core, a crane channel, a
subchannel. -/
inductive UnitName where
  | part (p : Fin 78)
  | core (c : Fin 128)
  | channel (c : Fin 64)
  | subchannel (s : Fin 32)
  deriving DecidableEq, Repr

/-- The untolerated faults of R665 that a unit reports. The lockstep mismatch and the ROM's own causes have their
own steps. -/
inductive FatalFault where
  | tisumException
  | mesh (quadrant : Fin 4)
  | subchannelLost (s : Fin 32)
  | ownershipTable (addr : Nat)
  | unitFailed (part : Fin 78)
  | lastCore
  | lastChannels
  deriving DecidableEq, Repr

/-- How the training of one subchannel came out at boot (R516, R517): from the stored record; by full retraining,
with the reason of record 0x2040 (0 where no record was rejected); or not at all. -/
inductive TrainOutcome where
  | stored
  | retrained (reason : Fin 5)
  | failed
  deriving DecidableEq, Repr

/-- What the patrol scrub finds in a line (R520, R522): nothing, an error in one package, or one that spans two. -/
inductive ScrubFinding where
  | clean
  | correctable (package : Fin 5)
  | uncorrectable
  deriving DecidableEq, Repr

/-- Paths of a dictionary request (R584). -/
inductive DictPath where
  | mailbox
  | doe
  | usdo
  deriving DecidableEq, Repr

/-- Registers of the function's configuration space that the spec gives content (R392, R397, R447); every other
offset is the base specification's. -/
inductive ConfigRegister where
  | vendorId
  | deviceId
  | classCode
  | headerType
  | command
  | bar (n : Fin 6)
  | barSize
  | msixControl
  | deviceControl
  | aerUncorrectable
  | aerCorrectable
  | other (offset : Fin 4096)
  deriving DecidableEq, Repr

/-- A PCIe configuration request (R27, R394). -/
inductive ConfigRequest where
  | read (r : ConfigRegister)
  | write (r : ConfigRegister) (v : BitVec 32)
  deriving DecidableEq, Repr

/-- Outcome of one segment's run in a self-test session (R655): the signatures agree; they differ once; they differ
twice; the session is abandoned because the unit's sibling failed (R656). -/
inductive SegmentOutcome where
  | pass
  | failOnce
  | failTwice
  | abandoned
  deriving DecidableEq, Repr

/-- Causes of a core failure (R660, record 0x3001). -/
inductive CoreFault where
  | watchdog
  | exception
  | cache
  deriving DecidableEq, Repr

/-- Causes of a grove failure (R660, record 0x3002). -/
inductive GroveFault where
  | store
  | fixedUnit
  | port
  deriving DecidableEq, Repr

/-! ## Row batches (04_pipelines.md) -/

/-- One column of a row batch: TYPE, SCALE and a value for each array row (R159, R160). -/
structure BatchColumn where
  type : Nat
  scale : Nat
  values : List Value
  deriving DecidableEq, Repr

/-- A row batch (R159 to R161): SOURCE as stage and instance, SEQUENCE, LAST, FIRST_ROW, ROW_COUNT, the column row
numbers when POSITIONS is 1, the selection bitmap when SELECTION is 1, and the columns; and the buffer it has in the
run's scratch region, once it has one: device address and length (R167). -/
structure Batch where
  stage : Nat
  inst : Nat
  seq : Nat
  last : Bool
  firstRow : Nat
  rows : Nat
  positions : Option (List Nat)
  selection : Option (List Bool)
  columns : List BatchColumn
  buffer : Option (Nat × Nat) := none
  deriving DecidableEq, Repr

/-- One batch that EXPR code has built for an output port (R154): its rows and the values of each column. -/
structure ExprOut where
  port : Fin 4
  rows : Fin 4097
  positions : Option (List Nat)
  selection : Option (List Bool)
  columns : List (List Value)
  deriving DecidableEq, Repr

/-- What the runtime does for an EXPR instance (R154 to R156; 07, R290): call its entry; enter a user function of its
body for a row; come back from it; take the return of the entry, with the batches built. -/
inductive ExprStep where
  | enter
  | call (function : Fin 64) (row : BitVec 64)
  | back
  | returned (outs : List ExprOut)
  deriving DecidableEq, Repr

/-- Who sends a batch into the mesh: a scan task, or an instance of a stage of a job (R126, R164). -/
inductive Sender where
  | scan (task : Nat)
  | unit (job : Nat) (stage : Fin 256) (inst : Fin 16)
  deriving DecidableEq, Repr

/-! ## Vunal instructions (07_vunal_cores.md) -/

/-- A scalar register. -/
inductive Reg where
  | g (n : Fin 32)
  | f (n : Fin 32)
  deriving DecidableEq, Repr

/-- The second operand of an integer instruction: a register, or a 12-bit immediate as its form extends it (R292). -/
inductive Src where
  | reg (n : Fin 32)
  | imm (v : BitVec 64)
  deriving DecidableEq, Repr

/-- Relations of compares and compare-and-branch (R292, R305). -/
inductive Rel where
  | eq
  | ne
  | lt
  | le
  | ltu
  | leu
  | gt
  | ge
  | gtu
  | geu
  deriving DecidableEq, Repr

/-- Operations of the integer ALU class (R292, R293). -/
inductive AluOp where
  | add
  | sub
  | and
  | or
  | xor
  | shl
  | shr
  | sar
  | set (r : Rel)
  deriving DecidableEq, Repr

/-- Operations of the multiply and divide class (R292, R293). -/
inductive MulOp where
  | low
  | highSigned
  | highUnsigned
  | quotSigned
  | quotUnsigned
  | remSigned
  | remUnsigned
  deriving DecidableEq, Repr

/-- Sizes of scalar accesses (R292). -/
inductive MemSize where
  | b1
  | b2
  | b4
  | b8
  deriving DecidableEq, Repr

/-- Branches and jumps (R292): compare-and-branch within 4 MiB, jump and link, register jump. -/
inductive Jump where
  | cond (r : Rel) (a b : Fin 32) (offset : BitVec 23)
  | link (d : Fin 32) (offset : BitVec 23)
  | register (d a : Fin 32) (offset : BitVec 64)
  deriving DecidableEq, Repr

/-- The two float formats (R294). -/
inductive FFmt where
  | b32
  | b64
  deriving DecidableEq, Repr

/-- Float relations (R305). -/
inductive FRel where
  | eq
  | lt
  | le
  deriving DecidableEq, Repr

/-- Float arithmetic of two operands. -/
inductive FArith where
  | add
  | sub
  | mul
  | div
  deriving DecidableEq, Repr

/-- Scalar floating-point instructions (R292, R294). Register numbers name f registers but for the integer side of
compares, conversions and moves. -/
inductive FpInstr where
  | arith (op : FArith) (fmt : FFmt) (d a b : Fin 32)
  | fma (fmt : FFmt) (d a b c : Fin 32)
  | sqrt (fmt : FFmt) (d a : Fin 32)
  | compare (r : FRel) (quiet : Bool) (fmt : FFmt) (gd a b : Fin 32)
  | convert (src dst : FFmt) (d a : Fin 32)
  | toInt (fmt : FFmt) (isSigned wide : Bool) (gd a : Fin 32)
  | ofInt (fmt : FFmt) (isSigned wide : Bool) (d gs : Fin 32)
  | moveToF (fmt : FFmt) (d gs : Fin 32)
  | moveToG (fmt : FFmt) (gd a : Fin 32)
  deriving DecidableEq, Repr

/-- The forms of long vector instructions (R304). -/
inductive VForm where
  | r
  | x
  | i
  deriving DecidableEq, Repr

/-- The fields of a VR, VX or VI word beside MAJOR and FUNCT (R304): VD, VS1, bits 15:11 (VS2, GS or IMM5), PG. -/
structure VArgs where
  form : VForm
  vd : Fin 32
  vs1 : Fin 32
  src : Fin 32
  pg : Fin 8
  deriving DecidableEq, Repr

/-- The fields of a VM word beside MAJOR and NF (R312). -/
structure VMem where
  vd : Fin 32
  gs : Fin 32
  gi : Fin 32
  pg : Fin 8
  adv : Bool
  deriving DecidableEq, Repr

/-- Lane operations that long and short vectors share (R305, R323). -/
inductive LaneOp where
  | add
  | sub
  | min
  | max
  | minu
  | maxu
  | mul
  | mulh
  | macc
  | and
  | or
  | xor
  | sll
  | srl
  | sra
  | fadd
  | fsub
  | fmul
  | fdiv
  | fma
  | fmin
  | fmax
  | mv
  deriving DecidableEq, Repr

end Sys2Proof
end

