-- ==== Sys2Proof/Syntax.lean ====
section
/-! DEFINITION. The commands of the module: one constructor per row of spec/opcode_table.json, in the table's order.
A command is one of the spec's steps, whole and indivisible (95_what_each_step_holds.md); its operands carry what the
step's actor or circumstance decides. -/

namespace Sys2Proof

/-- The commands. The docstring of each names the table's row and its governing rule. -/
inductive Instr where
  /-- POWER_INPUT_RISE (R616). -/
  | powerInputRise
  /-- INPUT_BELOW_RESET (R691). -/
  | inputBelowReset
  /-- PERST_N_LOW (R617). -/
  | perstNLow
  /-- PERST_N_HIGH (R616). -/
  | perstNHigh
  /-- INPUT_BELOW_WARNING (R686). -/
  | inputBelowWarning (mv : BitVec 32)
  /-- WARNING_EPISODE_END (R686). -/
  | warningEpisodeEnd (lowestMv belowUs : BitVec 32)
  /-- ROM_BANK_SELECT (R623). -/
  | romBankSelect (selfCheckOk pcieTestOk : Bool)
  /-- TISUM_START (R624). -/
  | tisumStart
  /-- BOOT_WATCHDOG_EXPIRY (R629). -/
  | bootWatchdogExpiry
  /-- DRAM_TRAINING_COMPLETE (R516). -/
  | dramTrainingComplete (outcomes : List TrainOutcome)
  /-- SERVICE_READY (R618). -/
  | serviceReady (failedParts : BitVec 78) (failedCores : BitVec 128) (bootMs : BitVec 32)
  /-- HARBOURMASTER_LOCKSTEP_MISMATCH (R667). -/
  | harbourmasterLockstepMismatch
  /-- UNTOLERATED_FAULT (R666). -/
  | untoleratedFault (f : FatalFault)
  /-- UNIT_RETIREMENT (R668). -/
  | unitRetirement (u : UnitName) (cause : BitVec 16)
  /-- THERMAL_LEVEL_CHANGE (R710). -/
  | thermalLevelChange (celsius : BitVec 32) (level : Fin 4) (sensor : BitVec 32)
  /-- JTAG_ATTACH (R707). -/
  | jtagAttach (record : BitVec 128)
  /-- LINK_DOWN (R396). -/
  | linkDown
  /-- LINK_WIDTH_CHANGE (R663). -/
  | linkWidthChange (width : BitVec 8)
  /-- D3HOT_ENTRY (R395). -/
  | d3hotEntry
  /-- D0_RETURN (R395). -/
  | d0Return
  /-- CONFIGURATION_REQUEST (R27). -/
  | configurationRequest (r : ConfigRequest)
  /-- BAR4_ACCESS (R401). -/
  | bar4Access (offset : BitVec 36) (length : Fin 4097) (wdata : Option Bytes)
  /-- REGISTER_WRITE (R4). -/
  | registerWrite (space : RegSpace) (offset : Nat) (value : BitVec 32) (enables : BitVec 4)
  /-- RSL_LOW_READ (R20). -/
  | rslLowRead (path : AccessPath) (r : RslRegister)
  /-- LATCHED_HIGH_READ (R20). -/
  | latchedHighRead (path : AccessPath) (r : RslRegister)
  /-- CLEAR_STATS (R143). -/
  | clearStats (block : CounterBlock) (counted : Option (Fin 32))
  /-- CLEAR_PERF (R143). -/
  | clearPerf (block : CounterBlock) (counted : Option (Fin 32))
  /-- ES_PENDING_CLEAR (R450). -/
  | esPendingClear (word : Fin 64) (mask raised : BitVec 32)
  /-- ES_STEER_WRITE (R450). -/
  | esSteerWrite (source : Fin 2048) (value : BitVec 32)
  /-- MSIX_UNMASK (R447). -/
  | msixUnmask (vector : Fin 2048)
  /-- TASK_SEL (R390). -/
  | taskSel (value : BitVec 32)
  /-- DOORBELL (R416). -/
  | doorbell (q : Fin 4097)
  /-- PUSH_INDEX (R418). -/
  | pushIndex (q : Fin 4097) (index : BitVec 32)
  /-- PUSH_DATA (R418). -/
  | pushData (q : Fin 4097) (offset : Fin 256) (data : Bytes)
  /-- ENABLE (R412). -/
  | enable (q : Fin 4097)
  /-- DISABLE (R441). -/
  | disable (q : Fin 4097)
  /-- RESTART (R412). -/
  | restart (q : Fin 4097)
  /-- QUEUE_CLEAR_STATS (R410). -/
  | queueClearStats (q : Fin 4097) (counted : Option (Fin 7))
  /-- CLEAR_TAGS (R410). -/
  | clearTags (q : Fin 4097)
  /-- INDEX_READ_COMPLETE (R417). -/
  | indexReadComplete (q : Fin 4097) (host : HostView)
  /-- INDEX_POLL_EXPIRY (R417). -/
  | indexPollExpiry (q : Fin 4097)
  /-- HOLD_POLL_EXPIRY (R417). -/
  | holdPollExpiry (q : Fin 4097)
  /-- ENTRY_TAKE (R422). -/
  | entryTake (q : Fin 4097) (h : HostView)
  /-- ENTRY_START (R429). -/
  | entryStart (q : Fin 4097)
  /-- JOB_FINAL (R438). -/
  | jobFinal (job : Nat)
  /-- INT_HOLDOFF_EXPIRY (R451). -/
  | intHoldoffExpiry (q : Fin 4097)
  /-- PROGRESS_WRITE (R433). -/
  | progressWrite (job : Nat)
  /-- NOP (R444). -/
  | nop (job : Nat)
  /-- QUEUE_FENCE (R445). -/
  | queueFence (job : Nat)
  /-- FENCE_RELEASE (R445). -/
  | fenceRelease (job : Nat)
  /-- LOAD_IMAGE (R174). -/
  | loadImage (job : Nat) (h : HostView)
  /-- UNLOAD_IMAGE (R176). -/
  | unloadImage (job : Nat)
  /-- SLOT_UNLOAD_COMPLETE (R171). -/
  | slotUnloadComplete (b : Fin 512) (slot : Fin 64)
  /-- RUN (R178). -/
  | run (job : Nat) (h : HostView)
  /-- RUN_PLACEMENT (R180). -/
  | runPlacement (job : Nat)
  /-- CANCEL (R184). -/
  | cancel (job : Nat)
  /-- TIME_LIMIT_EXPIRY (R183). -/
  | timeLimitExpiry (job : Nat)
  /-- PUT_BLOCKS (R82). -/
  | putBlocks (job : Nat) (h : HostView)
  /-- GET_BLOCKS (R89). -/
  | getBlocks (job : Nat)
  /-- MOVE (R555). -/
  | move (job : Nat) (h : HostView)
  /-- FILL (R556). -/
  | fill (job : Nat)
  /-- COMPRESS (R559). -/
  | compress (job : Nat)
  /-- DECOMPRESS (R562). -/
  | decompress (job : Nat) (h : HostView)
  /-- FRAME_COMPLETE (R557). -/
  | frameComplete (job : Nat) (frame : Nat) (engine : Fin 4) (busy : BitVec 32) (h : HostView)
  /-- DIGEST_START (R566). -/
  | digestStart (job : Nat) (h : HostView)
  /-- DIGEST_CONTINUE (R569). -/
  | digestContinue (job : Nat) (h : HostView)
  /-- DIGEST_FINISH (R571). -/
  | digestFinish (job : Nat) (h : HostView)
  /-- DIGEST_ONESHOT (R571). -/
  | digestOneshot (job : Nat) (h : HostView)
  /-- DIGEST_ABORT (R570). -/
  | digestAbort (job : Nat)
  /-- DIGEST_VERIFY (R572). -/
  | digestVerify (job : Nat) (h : HostView) (agree : Bool)
  /-- FRAGMENT_COMPLETE (R567). -/
  | fragmentComplete (lane : Fin 16) (busy : BitVec 32) (h : HostView)
  /-- SET_KEY_LOAD (R575). -/
  | setKeyLoad (job : Nat) (h : HostView)
  /-- SET_KEY_ERASE (R576). -/
  | setKeyErase (job : Nat)
  /-- CANOPY_LOAD_CREATE (R267). -/
  | canopyLoadCreate (job : Nat) (h : HostView)
  /-- CANOPY_LOAD_REPLACE (R268). -/
  | canopyLoadReplace (job : Nat) (h : HostView)
  /-- CANOPY_LOAD_DROP (R246). -/
  | canopyLoadDrop (job : Nat)
  /-- TABLE_DROP_COMPLETE (R246). -/
  | tableDropComplete (b : Fin 512) (id : Fin 256)
  /-- CANOPY_UPDATE (R270). -/
  | canopyUpdate (job : Nat) (h : HostView)
  /-- PATTERN_LOAD_CREATE (R280). -/
  | patternLoadCreate (job : Nat) (h : HostView)
  /-- PATTERN_LOAD_REPLACE (R280). -/
  | patternLoadReplace (job : Nat) (h : HostView)
  /-- BERTH_FREEZE (R471). -/
  | berthFreeze (job : Nat)
  /-- FREEZE_COMPLETE (R471). -/
  | freezeComplete (b : Fin 512)
  /-- FREEZE_TIMEOUT (R472). -/
  | freezeTimeout (b : Fin 512)
  /-- BERTH_SAVE_STATE (R478). -/
  | berthSaveState (job : Nat)
  /-- BERTH_SAVE_GRANULES (R478). -/
  | berthSaveGranules (job : Nat) (h : HostView)
  /-- BERTH_RESTORE_STATE (R479). -/
  | berthRestoreState (job : Nat) (h : HostView)
  /-- BERTH_RESTORE_GRANULES (R479). -/
  | berthRestoreGranules (job : Nat) (h : HostView)
  /-- BERTH_THAW (R474). -/
  | berthThaw (job : Nat)
  /-- DIRTY_LOG_START (R485). -/
  | dirtyLogStart (job : Nat)
  /-- DIRTY_LOG_STOP (R485). -/
  | dirtyLogStop (job : Nat)
  /-- DIRTY_LOG_SYNC (R483). -/
  | dirtyLogSync (job : Nat) (h : HostView)
  /-- FETCH_BITMAP (R485). -/
  | fetchBitmap (job : Nat)
  /-- DIRTY_RING_REREAD (R484). -/
  | dirtyRingReread (b : Fin 512) (h : HostView)
  /-- BERTH_FAULT (R466). -/
  | berthFault (sameCycle : Bool)
  /-- CREATE (R459). -/
  | create (b : Fin 512)
  /-- DESTROY (R461). -/
  | destroy (b : Fin 512)
  /-- CLEAR_FAULT (R468). -/
  | clearFault (b : Fin 512)
  /-- GRANULE_EXTENTS_WRITE (R456). -/
  | granuleExtentsWrite (b : Fin 512) (offset : BitVec 32) (data : Bytes)
  /-- SCAN_TASK_HANDOFF (R95). -/
  | scanTaskHandoff (s : Fin 32)
  /-- BLOCK_READ (R97). -/
  | blockRead (q : Fin 32) (wait : BitVec 32)
  /-- HEADER_READ (R99). -/
  | headerRead (t : Nat)
  /-- BLOCK_EVALUATE (R67). -/
  | blockEvaluate (t : Nat) (busy : BitVec 32)
  /-- INFLATE_COMPLETE (R120). -/
  | inflateComplete (t : Nat) (busy : BitVec 32)
  /-- LONG_VALUE_READ (R117). -/
  | longValueRead (t : Nat)
  /-- BATCH_EGRESS (R126). -/
  | batchEgress (sender : Sender) (stall : BitVec 32)
  /-- GATHER_GROUP (R130). -/
  | gatherGroup (job : Nat) (stage : Fin 256) (inst : Fin 16)
  /-- QUAY_FAILURE (R140). -/
  | quayFailure (q : Fin 32) (cause : BitVec 16)
  /-- BUDDY_TAKEOVER (R139). -/
  | buddyTakeover (q : Fin 32)
  /-- EDGE_CREDIT_RETURN (R164). -/
  | edgeCreditReturn (job : Nat) (stage : Fin 256) (inst : Fin 16)
  /-- BATCH_ARRIVAL (R165). -/
  | batchArrival (job : Nat) (edge : Fin 1024) (inst : Fin 16) (producer : Fin 32)
  /-- EXPR_CALL (R154). -/
  | exprCall (job : Nat) (stage : Fin 256) (inst : Fin 16) (port : Fin 4) (r : ExprStep)
  /-- EXCHANGE_BATCH (R169). -/
  | exchangeBatch (job : Nat) (stage : Fin 256) (inst : Fin 16)
  /-- FIXED_UNIT_BATCH (R198). -/
  | fixedUnitBatch (job : Nat) (stage : Fin 256) (inst : Fin 16) (orders : List (List Nat))
  /-- EMIT_BATCH (R192). -/
  | emitBatch (job : Nat) (stage : Fin 256)
  /-- SEARCH (R248). -/
  | search (b : Fin 16) (parityOk : Bool)
  /-- SEARCH_COMPLETE (R250). -/
  | searchComplete (b : Fin 16)
  /-- PATTERN_STEP (R282). -/
  | patternStep (b : Fin 16) (parityOk : Bool)
  /-- UPDATE_SLOT_WRITE (R257). -/
  | updateSlotWrite (b : Fin 16) (searchWaits : Bool)
  /-- PARITY_SCAN_READ (R273). -/
  | parityScanRead (b : Fin 16) (parityOk searchWaits : Bool)
  /-- PARITY_ERROR_RELOAD (R274). -/
  | parityErrorReload (b : Fin 16)
  /-- BANK_RELOAD (R276). -/
  | bankReload (b : Fin 16)
  /-- GETW (R381). -/
  | getw (c : Fin 129) (gd : Fin 32) (held readyWait : BitVec 32)
  /-- DONEW (R360). -/
  | donew (c : Fin 129) (gs1 : Fin 32) (cycles : BitVec 32)
  /-- SETEV (R369). -/
  | setev (c : Fin 129) (gs1 gs2 : Fin 32)
  /-- WAITC_ALL (R364). -/
  | waitcAll (c : Fin 129) (gs1 : Fin 32)
  /-- WAITC_ANY (R364). -/
  | waitcAny (c : Fin 129) (gs1 : Fin 32)
  /-- EVENT_PULSE (R368). -/
  | eventPulse (task : BitVec 16) (flag : Fin 32) (source : Option (Fin 512))
  /-- DELAY_EXPIRY (R377). -/
  | delayExpiry (task : BitVec 16)
  /-- PREFETCH_FILL (R381). -/
  | prefetchFill (c : Fin 128)
  /-- DISPATCH_MODE_SWITCH (R382). -/
  | dispatchModeSwitch (g : Fin 16) (standing : BitVec 64)
  /-- CORE_FAILURE (R389). -/
  | coreFailure (c : Fin 128) (cause : CoreFault)
  /-- GROVE_FAILURE (R235). -/
  | groveFailure (g : Fin 16) (cause : GroveFault)
  /-- RUNTIME_TICK (R660). -/
  | runtimeTick (c : Fin 129)
  /-- INTERRUPT (R332). -/
  | interrupt (c : Fin 129) (chosen : Bool)
  /-- INTEGER_ALU (R293). -/
  | integerAlu (c : Fin 129) (op : AluOp) (word : Bool) (gd gs1 : Fin 32) (src : Src)
  /-- MULTIPLY_DIVIDE (R293). -/
  | multiplyDivide (c : Fin 129) (op : MulOp) (gd gs1 gs2 : Fin 32)
  /-- SCALAR_LOAD (R340). -/
  | scalarLoad (c : Fin 129) (d : Reg) (size : MemSize) (isSigned : Bool) (base : Fin 32) (offset : BitVec 64) (seen : Nat)
  /-- SCALAR_STORE (R339). -/
  | scalarStore (c : Fin 129) (r : Reg) (size : MemSize) (base : Fin 32) (offset : BitVec 64)
  /-- STORE_VISIBLE (R339). -/
  | storeVisible (c : Fin 129)
  /-- ACCESS_TIMEOUT (R350). -/
  | accessTimeout (c : Fin 129) (load : Option (BitVec 64))
  /-- BRANCH (R292). -/
  | branch (c : Fin 129) (j : Jump)
  /-- FLOATING_POINT (R294). -/
  | floatingPoint (c : Fin 129) (i : FpInstr)
  /-- LDX (R345). -/
  | ldx (c : Fin 129) (gd gs1 : Fin 32) (wide : Bool)
  /-- STX (R345). -/
  | stx (c : Fin 129) (gd gs1 gs2 : Fin 32) (wide : Bool)
  /-- FENCE (R348). -/
  | fence (c : Fin 129)
  /-- ECALL (R329). -/
  | ecall (c : Fin 129)
  /-- EBREAK (R328). -/
  | ebreak (c : Fin 129)
  /-- ERET (R327). -/
  | eret (c : Fin 129)
  /-- CSRR (R296). -/
  | csrr (c : Fin 129) (gd : Fin 32) (number : BitVec 12)
  /-- CSRW (R299). -/
  | csrw (c : Fin 129) (number : BitVec 12) (gs : Fin 32)
  /-- IFLUSH (R295). -/
  | iflush (c : Fin 129)
  /-- WFI (R292). -/
  | wfi (c : Fin 129)
  /-- SETVL (R300). -/
  | setvl (c : Fin 129) (gd gs : Fin 32) (ew : Fin 8) (vg : Fin 4)
  /-- VADD (R305). -/
  | vadd (c : Fin 129) (a : VArgs)
  /-- VSUB (R305). -/
  | vsub (c : Fin 129) (a : VArgs)
  /-- VMIN (R305). -/
  | vmin (c : Fin 129) (a : VArgs)
  /-- VMAX (R305). -/
  | vmax (c : Fin 129) (a : VArgs)
  /-- VMINU (R305). -/
  | vminu (c : Fin 129) (a : VArgs)
  /-- VMAXU (R305). -/
  | vmaxu (c : Fin 129) (a : VArgs)
  /-- VMUL (R305). -/
  | vmul (c : Fin 129) (a : VArgs)
  /-- VMULH (R305). -/
  | vmulh (c : Fin 129) (a : VArgs)
  /-- VMACC (R305). -/
  | vmacc (c : Fin 129) (a : VArgs)
  /-- VAND (R305). -/
  | vand (c : Fin 129) (a : VArgs)
  /-- VOR (R305). -/
  | vor (c : Fin 129) (a : VArgs)
  /-- VXOR (R305). -/
  | vxor (c : Fin 129) (a : VArgs)
  /-- VSLL (R305). -/
  | vsll (c : Fin 129) (a : VArgs)
  /-- VSRL (R305). -/
  | vsrl (c : Fin 129) (a : VArgs)
  /-- VSRA (R305). -/
  | vsra (c : Fin 129) (a : VArgs)
  /-- VWMUL (R306). -/
  | vwmul (c : Fin 129) (a : VArgs)
  /-- VWMULU (R306). -/
  | vwmulu (c : Fin 129) (a : VArgs)
  /-- VWMACC (R306). -/
  | vwmacc (c : Fin 129) (a : VArgs)
  /-- VWMACCU (R306). -/
  | vwmaccu (c : Fin 129) (a : VArgs)
  /-- VWACC (R306). -/
  | vwacc (c : Fin 129) (a : VArgs)
  /-- DOT4 (R307). -/
  | dot4 (c : Fin 129) (a : VArgs)
  /-- DOT2 (R308). -/
  | dot2 (c : Fin 129) (a : VArgs)
  /-- DOTD (R309). -/
  | dotd (c : Fin 129) (a : VArgs)
  /-- VCMPEQ (R305). -/
  | vcmpeq (c : Fin 129) (a : VArgs)
  /-- VCMPNE (R305). -/
  | vcmpne (c : Fin 129) (a : VArgs)
  /-- VCMPLT (R305). -/
  | vcmplt (c : Fin 129) (a : VArgs)
  /-- VCMPLE (R305). -/
  | vcmple (c : Fin 129) (a : VArgs)
  /-- VCMPLTU (R305). -/
  | vcmpltu (c : Fin 129) (a : VArgs)
  /-- VCMPLEU (R305). -/
  | vcmpleu (c : Fin 129) (a : VArgs)
  /-- VCMPGT (R305). -/
  | vcmpgt (c : Fin 129) (a : VArgs)
  /-- VCMPGE (R305). -/
  | vcmpge (c : Fin 129) (a : VArgs)
  /-- VCMPGTU (R305). -/
  | vcmpgtu (c : Fin 129) (a : VArgs)
  /-- VCMPGEU (R305). -/
  | vcmpgeu (c : Fin 129) (a : VArgs)
  /-- VFADD (R305). -/
  | vfadd (c : Fin 129) (a : VArgs)
  /-- VFSUB (R305). -/
  | vfsub (c : Fin 129) (a : VArgs)
  /-- VFMUL (R305). -/
  | vfmul (c : Fin 129) (a : VArgs)
  /-- VFDIV (R305). -/
  | vfdiv (c : Fin 129) (a : VArgs)
  /-- VFMA (R305). -/
  | vfma (c : Fin 129) (a : VArgs)
  /-- VFMIN (R305). -/
  | vfmin (c : Fin 129) (a : VArgs)
  /-- VFMAX (R305). -/
  | vfmax (c : Fin 129) (a : VArgs)
  /-- VFCMPEQ (R305). -/
  | vfcmpeq (c : Fin 129) (a : VArgs)
  /-- VFCMPLT (R305). -/
  | vfcmplt (c : Fin 129) (a : VArgs)
  /-- VFCMPLE (R305). -/
  | vfcmple (c : Fin 129) (a : VArgs)
  /-- VFCVTFI (R305). -/
  | vfcvtfi (c : Fin 129) (a : VArgs)
  /-- VFCVTIF (R305). -/
  | vfcvtif (c : Fin 129) (a : VArgs)
  /-- VMV (R305). -/
  | vmv (c : Fin 129) (a : VArgs)
  /-- VMERGE (R305). -/
  | vmerge (c : Fin 129) (a : VArgs)
  /-- VSLIDEDN (R305). -/
  | vslidedn (c : Fin 129) (a : VArgs)
  /-- VSLIDEUP (R305). -/
  | vslideup (c : Fin 129) (a : VArgs)
  /-- VCOMPRESS (R305). -/
  | vcompress (c : Fin 129) (a : VArgs)
  /-- VEXT (R305). -/
  | vext (c : Fin 129) (a : VArgs)
  /-- VREDSUM (R305). -/
  | vredsum (c : Fin 129) (a : VArgs)
  /-- VREDMIN (R305). -/
  | vredmin (c : Fin 129) (a : VArgs)
  /-- VREDMAX (R305). -/
  | vredmax (c : Fin 129) (a : VArgs)
  /-- VREDMINU (R305). -/
  | vredminu (c : Fin 129) (a : VArgs)
  /-- VREDMAXU (R305). -/
  | vredmaxu (c : Fin 129) (a : VArgs)
  /-- VFREDOSUM (R305). -/
  | vfredosum (c : Fin 129) (a : VArgs)
  /-- VLD (R313). -/
  | vld (c : Fin 129) (a : VMem) (seen : Nat)
  /-- VST (R313). -/
  | vst (c : Fin 129) (a : VMem) (nf : Fin 4)
  /-- VDEAL2 (R314). -/
  | vdeal2 (c : Fin 129) (a : VMem) (seen : Nat)
  /-- VDEAL3 (R314). -/
  | vdeal3 (c : Fin 129) (a : VMem) (seen : Nat)
  /-- VDEAL4 (R314). -/
  | vdeal4 (c : Fin 129) (a : VMem) (seen : Nat)
  /-- PAND (R321). -/
  | pand (c : Fin 129) (pd ps1 ps2 : Fin 8)
  /-- POR (R321). -/
  | por (c : Fin 129) (pd ps1 ps2 : Fin 8)
  /-- PXOR (R321). -/
  | pxor (c : Fin 129) (pd ps1 ps2 : Fin 8)
  /-- PANDN (R321). -/
  | pandn (c : Fin 129) (pd ps1 ps2 : Fin 8)
  /-- PNOT (R321). -/
  | pnot (c : Fin 129) (pd ps1 : Fin 8)
  /-- PCNT (R321). -/
  | pcnt (c : Fin 129) (gs : Fin 32) (ps1 : Fin 8)
  /-- PFIRST (R321). -/
  | pfirst (c : Fin 129) (gs : Fin 32) (ps1 : Fin 8)
  /-- PWHILE (R321). -/
  | pwhile (c : Fin 129) (pd : Fin 8) (gs : Fin 32)
  /-- PLD (R321). -/
  | pld (c : Fin 129) (pd : Fin 8) (gs : Fin 32) (seen : Nat)
  /-- PLD_ADV (R321). -/
  | pldAdv (c : Fin 129) (pd : Fin 8) (gs : Fin 32) (seen : Nat)
  /-- PST (R321). -/
  | pst (c : Fin 129) (pd : Fin 8) (gs : Fin 32)
  /-- PST_ADV (R321). -/
  | pstAdv (c : Fin 129) (pd : Fin 8) (gs : Fin 32)
  /-- SV_OPERATION (R323). -/
  | svOperation (c : Fin 129) (op : LaneOp) (sew : Fin 4) (sd ss1 ss2 : Fin 16)
  /-- SCMP (R323). -/
  | scmp (c : Fin 129) (r : Rel) (sew : Fin 4) (sd ss1 ss2 : Fin 16)
  /-- SFCMP (R323). -/
  | sfcmp (c : Fin 129) (r : FRel) (sew : Fin 4) (sd ss1 ss2 : Fin 16)
  /-- SSHUF (R323). -/
  | sshuf (c : Fin 129) (sew : Fin 4) (sd ss1 ss2 : Fin 16)
  /-- SSEL (R323). -/
  | ssel (c : Fin 129) (sew : Fin 4) (sd ss1 ss2 : Fin 16)
  /-- SLD (R324). -/
  | sld (c : Fin 129) (sd : Fin 16) (gs : Fin 32) (offset : BitVec 12) (seen : Nat)
  /-- SST (R324). -/
  | sst (c : Fin 129) (sd : Fin 16) (gs : Fin 32) (offset : BitVec 12)
  /-- CORE_MODE_WRITE (R318). -/
  | coreModeWrite (writer : Fin 129) (c : Fin 129) (value : BitVec 64)
  /-- CH_START (R545). -/
  | chStart (writer : Fin 129) (c : Fin 64) (addr : BitVec 64)
  /-- STOP (R545). -/
  | stop (writer : Fin 129) (c : Fin 64)
  /-- DESCRIPTOR_FETCH (R540). -/
  | descriptorFetch (c : Fin 64)
  /-- BURST (R535). -/
  | burst (readBusy writeBusy slotWait : BitVec 32) (h : HostView)
  /-- LINE_REQUEST (R547). -/
  | lineRequest (c : Fin 64) (data : Bytes) (h : HostView)
  /-- LAST (R548). -/
  | last (c : Fin 64) (data : Bytes)
  /-- DESCRIPTOR_COMPLETE (R550). -/
  | descriptorComplete (c : Fin 64)
  /-- GRANULE_FIRST_TOUCH (R504). -/
  | granuleFirstTouch (g : Fin 524288) (tag : Option (Fin 512)) (write : Bool)
  /-- ZERO_FILL_COMPLETE (R505). -/
  | zeroFillComplete (g : Fin 524288)
  /-- BACKGROUND_INITIALISATION (R506). -/
  | backgroundInitialisation (s : Fin 32)
  /-- OWNERSHIP_CHANGE (R503). -/
  | ownershipChange (g : Fin 524288) (owner : Option (Fin 512)) (image : Bool)
  /-- REFRESH (R513). -/
  | refresh (s : Fin 32) (bank : Fin 32)
  /-- REFRESH_RATE_READ (R513). -/
  | refreshRateRead (s : Fin 32) (hot : Bool)
  /-- TEMPERATURE_LIMIT (R514). -/
  | temperatureLimit (s : Fin 32) (celsius : BitVec 32)
  /-- ROW_CLOSE (R510). -/
  | rowClose (s : Fin 32) (bank : Fin 32)
  /-- WRITE_QUEUE_DRAIN (R511). -/
  | writeQueueDrain (s : Fin 32)
  /-- PATROL_SCRUB (R522). -/
  | patrolScrub (s : Fin 32) (finding : ScrubFinding)
  /-- CA_PARITY_ALERT (R523). -/
  | caParityAlert (s : Fin 32) (replayed : Bool)
  /-- CA_RETRAINING (R524). -/
  | caRetraining (s : Fin 32) (ok : Bool)
  /-- DQS_TRACKING (R519). -/
  | dqsTracking (s : Fin 32)
  /-- ZQ_CALIBRATION (R519). -/
  | zqCalibration (s : Fin 32)
  /-- MB_READ (R599). -/
  | mbRead (seq : BitVec 16)
  /-- MB_WRITE (R599). -/
  | mbWrite (seq : BitVec 16)
  /-- DOE_DICTIONARY_REQUEST (R600). -/
  | doeDictionaryRequest (request : Bytes)
  /-- USDO_READ (R603). -/
  | usdoRead (client : BitVec 8) (broadcast : Bool) (index : BitVec 16) (sub : BitVec 8)
  /-- USDO_WRITE (R603). -/
  | usdoWrite (client : BitVec 8) (broadcast : Bool) (index : BitVec 16) (sub : BitVec 8) (data : Bytes)
  /-- SAVE_ALL (R593). -/
  | saveAll (path : DictPath) (value : BitVec 32)
  /-- RESTORE_ALL (R595). -/
  | restoreAll (path : DictPath) (value : BitVec 32)
  /-- SETTINGS_SAVE_COMPLETE (R593). -/
  | settingsSaveComplete (verified : Bool)
  /-- ERROR_COUNT_CLEAR (R587). -/
  | errorCountClear (path : DictPath) (value : BitVec 8)
  /-- CALENDAR_TIME_WRITE (R607). -/
  | calendarTimeWrite (path : DictPath) (value : BitVec 64)
  /-- CHECKPOINT_ID_WRITE (R614). -/
  | checkpointIdWrite (path : DictPath) (value : BitVec 32)
  /-- MODE_REQUEST_MAINTENANCE (R29). -/
  | modeRequestMaintenance (path : DictPath)
  /-- MAINTENANCE_ENTRY (R639). -/
  | maintenanceEntry
  /-- MODE_REQUEST_LEAVE (R639). -/
  | modeRequestLeave (path : DictPath)
  /-- PASS_REQUEST_FULL (R657). -/
  | passRequestFull (path : DictPath) (failed : BitVec 77) (failedCores : BitVec 128) (failedPatterns : BitVec 32)
  /-- PASS_REQUEST_START (R658). -/
  | passRequestStart (path : DictPath)
  /-- PASS_REQUEST_ABORT (R658). -/
  | passRequestAbort (path : DictPath)
  /-- SELF_TEST_SESSION (R647). -/
  | selfTestSession (p : Fin 78) (segment segments : Fin 64) (outcome : SegmentOutcome)
  /-- SESSION_RETRY (R651). -/
  | sessionRetry (p : Fin 78)
  /-- PASS_LATE (R651). -/
  | passLate
  /-- PACKAGE (R626). -/
  | package (path : DictPath) (offset : BitVec 32) (data : Bytes) (readBack : Bool)
  /-- COMMIT (R627). -/
  | commit (path : DictPath) (readBack : Bool)
  /-- ABORT (R628). -/
  | abort (path : DictPath)
  /-- CLEAR (R681). -/
  | clear (path : DictPath) (value : BitVec 32)
  /-- HEARTWOOD_APPEND (R676). -/
  | heartwoodAppend
  /-- NMT_START (R601). -/
  | nmtStart
  /-- NMT_STOP (R601). -/
  | nmtStop
  /-- NMT_ENTER_PRE_OPERATIONAL (R601). -/
  | nmtEnterPreOperational
  /-- NMT_RESET_COMMUNICATION (R601). -/
  | nmtResetCommunication
  /-- NMT_RESET_NODE (R601). -/
  | nmtResetNode
  /-- INITIALISATION_DONE (R601). -/
  | initialisationDone
  /-- HEARTBEAT (R604). -/
  | heartbeat
  /-- TIME_RECEIVED (R608). -/
  | timeReceived (ms : BitVec 32) (days : BitVec 16)
  /-- TIME_PRODUCE (R608). -/
  | timeProduce
  /-- SYNC_RECEIVED (R614). -/
  | syncReceived (counter : Option (BitVec 8))
  /-- GROUP_TPDO_RECEIVED (R611). -/
  | groupTpdoReceived (nodeId : BitVec 8) (data : Bytes)
  /-- PEER_TIMEOUT (R611). -/
  | peerTimeout (slot : Fin 8)
  /-- BUS_OFF_RECOVERY (R605). -/
  | busOffRecovery
  /-- SWITCH_STATE_GLOBAL (R606). -/
  | switchStateGlobal (configuration : Bool)
  /-- SWITCH_STATE_SELECTIVE (R606). -/
  | switchStateSelective (vendor product revision serial : BitVec 32)
  /-- CONFIGURE_NODE_ID (R606). -/
  | configureNodeId (id : BitVec 8)
  /-- CONFIGURE_BIT_TIMING (R606). -/
  | configureBitTiming (selector index : BitVec 8)
  /-- ACTIVATE_BIT_TIMING (R606). -/
  | activateBitTiming (delayMs : BitVec 16)
  /-- STORE_CONFIGURATION (R606). -/
  | storeConfiguration
  /-- INQUIRE_IDENTITY (R606). -/
  | inquireIdentity (service : BitVec 8)
  /-- GET_VERSION (R634). -/
  | getVersion
  /-- GET_CAPABILITIES (R634). -/
  | getCapabilities
  /-- NEGOTIATE_ALGORITHMS (R634). -/
  | negotiateAlgorithms (p384 sha384 : Bool)
  /-- GET_DIGESTS (R634). -/
  | getDigests
  /-- GET_CERTIFICATE (R634). -/
  | getCertificate (slot : Fin 16) (offset length : BitVec 16)
  /-- CHALLENGE (R634). -/
  | challenge (slot : Fin 16) (summary : BitVec 8) (nonce : BitVec 256)
  /-- GET_MEASUREMENTS (R636). -/
  | getMeasurements (index : BitVec 8) (signed : Bool) (nonce : BitVec 256)
  /-- UNSUPPORTED_SPDM_REQUEST (R634). -/
  | unsupportedSpdmRequest (code : BitVec 8)
  /-- LINK_UP (R396). -/
  | linkUp (speed : Fin 8) (flit : Bool)
  /-- CAN_ERROR_PASSIVE (R605). -/
  | canErrorPassive (entered : Bool)
  /-- CAN_RECEIVE_OVERRUN (R605). -/
  | canReceiveOverrun
  /-- CAN_BUS_OFF (R605). -/
  | canBusOff
  /-- EMCY_INHIBIT_EXPIRY (R605). -/
  | emcyInhibitExpiry
  deriving DecidableEq, Repr

end Sys2Proof
end

