-- ==== Sys2Proof/Config.lean ====
section
/-! DEFINITION. What one module fixes and the spec leaves open: identity strings and numbers, the compressor's
output, signatures, and the free values. Every constant here is opaque: nothing can be proved of its value. -/

namespace Sys2Proof.Config

/-- PCI vendor ID of the function's configuration header: not stated (10, R392). -/
opaque pciVendorId : BitVec 16

/-- Contents of configuration registers whose layout the base specification gives and the spec does not repeat. -/
opaque configOther : Nat → BitVec 32

/-- Orolon's CiA vendor-ID, entry 0x1018:01 (14, R587). -/
opaque vendorId : BitVec 32

/-- Module serial number, entry 0x1018:04 (14, R587). -/
opaque serial : BitVec 32

/-- The 12 characters of MODULE_SERIAL, entry 0x2000:02 (14, R588). -/
opaque moduleSerial : Fin 12 → Byte

/-- Length of HARDWARE_VERSION, entry 0x1009:00, less one (14, R587: the engine die revision). -/
opaque hardwareVersionLength : Fin 255

/-- Characters of HARDWARE_VERSION. -/
opaque hardwareVersion : Nat → Byte

/-- COMPRESS_REVISION, entry 0x2310:03 (13, R537). -/
opaque compressRevision : BitVec 16

/-- The DEFLATE output of the compression engines. R559: it depends only on the raw bytes, FRAME_KIB, PACKING and
COMPRESS_REVISION; the bytes themselves are not stated. -/
opaque deflate : (revision : BitVec 16) → (frameKib packing : Nat) → Bytes → Bytes

/-- Bytes of the SHA-384 of the ROM image (15, R635 index 0x11). -/
opaque romDigest : Fin 48 → Byte

/-- X and Y of the identity key's public half, entry 0x5180:02 (15). -/
opaque identityKey : Fin 96 → Byte

/-- The ECDSA P-384 signature over a message, as R and S (15, R634; FIPS 186-5). The private key never leaves CD69,
so the value is open; the second argument counts signatures, because each may differ. -/
opaque signature : Bytes → Nat → Fin 96 → Byte

/-- CTExponent, DataTransferSize and MaxSPDMmsgSize of the SPDM CAPABILITIES response: not stated (15, R634). -/
opaque spdmLimits : BitVec 8 × BitVec 32 × BitVec 32

/-- The measurement indices that belong to the trusted computing base of a CHALLENGE summary: not stated (15, R634). -/
opaque tcbIndex : Nat → Bool

/-- CODE of the boot event records of M1 to M4, for which the spec names no Heartwood code (15, R633). -/
opaque bootEventCode : Nat → BitVec 16

/-- Nonces of SPDM responses. -/
opaque nonce : Nat → Fin 32 → Byte

/-- A fresh open 512-bit value for each number: contents of a register that the spec calls undefined. -/
opaque freeVec : Nat → BitVec 512

/-- A fresh open 64-bit value for each number. -/
opaque freeWord : Nat → Word

/-- A fresh open byte for each number and place. -/
opaque freeByte : Nat → Nat → Byte

/-- The scalar instruction that a word of MAJOR 0x00 to 0x13 or 0x16 to 0x1F stands for, on a core: the formats of these
classes beside MAJOR are not stated (07, R292). -/
opaque scalarWord : Fin 129 → BitVec 32 → Option Instr

/-- The order of the five IEEE 754 exception flags in FCSR[4:0] (07, R294, R296: not stated): which of the places left
each of invalid, division by zero, overflow and underflow takes; inexact takes the last. -/
opaque flagOrder : Fin 5 × Fin 4 × Fin 3 × Fin 2

/-- Tininess is detected after rounding: IEEE 754-2019 leaves the choice to the implementation. -/
opaque tinyAfterRounding : Bool

/-- Invalid is signalled for 0 × ∞ + quiet NaN: left to the implementation by IEEE 754-2019. -/
opaque fmaInvalidNan : Bool

/-- Sign and payload of a NaN result, by operation and operands: left open by IEEE 754-2019. -/
opaque nanBits : (operation : Nat) → List Nat → Nat

/-- Result of a scalar conversion to integer of a NaN or of a value out of range: not stated (07, R294). -/
opaque convertInvalid : (width value : Nat) → Nat

/-- The rounding in effect for a reserved code 4 to 7 of FCSR[7:5]: not stated (07, R296). -/
opaque reservedRounding : Nat → Fin 4

/-- Result of a scalar shift by the width or more, by operation, operand and amount: not stated (07, R292). -/
opaque shiftBeyond : (operation : Nat) → (value amount : Word) → Word

/-- Where a register jump to an address that is not a multiple of 4 goes: not stated (07, R292). -/
opaque misalignedJump : Word → Word

/-- Bits 63:32 of a g register after a 32-bit move from an f register: not stated (07, R292). -/
opaque moveHigh : BitVec 32 → BitVec 32

/-- Address at which a core goes on after taking an exception or interrupt (07, R328: "continues at runtime
level"). -/
opaque runtimeEntry : Word

/-- The memory image that the ROM and Tisum give the Harbourmaster's own region table: base and limit words by entry
(08, R337: the contents are not stated). -/
opaque harbourmasterRegion : Fin 16 → Word × Word

/-- CODE and parameters of the Heartwood record of a data error, by fault code and position (02, R75: not stated). -/
opaque dataErrorCode : BitVec 16
opaque dataErrorParam : (fault position index : Nat) → BitVec 32

/-- Bytes that a unit's row store, group records or runs take for a record, by its values: they have no stated layout
(05, R204, R221, R228). -/
opaque recordBytes : List Value → Nat

/-- Addresses of an instance's grove store area and of the area in which EXPR code builds batches, by grove, job, stage
and instance (04, R154: not stated). -/
opaque storeArea : (grove job stage inst : Nat) → Word
opaque buildArea : (grove job stage inst : Nat) → Word

/-- CODE of the Heartwood record of a Canopy table loaded again (06, R246: not stated). -/
opaque tableReloadCode : BitVec 16

/-- CODE and parameters of the Heartwood record of a comparator disagreement (13, R573: not stated). -/
opaque compareDisagreeCode : BitVec 16
opaque compareDisagreeParam : Nat → BitVec 32

/-- Wait mask and mode that the loader gives a new task, by the KIND of its stage (09, R358: not stated). -/
opaque initialWait : (kind : Nat) → BitVec 32 × Bool

end Sys2Proof.Config
end

