-- ==== Sys2Proof/Machine/Bits.lean ====
section
/-! DEFINITION. Bit fields, byte order, sparse tables and other small helpers that the meanings share. Byte order
is little-endian (00_scope.md, R5) and bit 0 is the least significant bit (R6). -/

namespace Sys2Proof.Machine

/-! ## Sparse tables -/

/-- Read a sparse table: the value listed for `k`, or `d` where none is. -/
def tblGet {α : Type} (d : α) : Tbl α → Nat → α
  | [], _ => d
  | (j, v) :: t, k => if k = j then v else tblGet d t k

/-- Read a sparse table: the value listed for `k`, if one is. -/
def tblFind {α : Type} : Tbl α → Nat → Option α
  | [], _ => none
  | (j, v) :: t, k => if k = j then some v else tblFind t k

/-- Write a sparse table at `k`, keeping its numbers rising. -/
def tblSet {α : Type} : Tbl α → Nat → α → Tbl α
  | [], k, v => [(k, v)]
  | (j, w) :: t, k, v =>
    if k = j then (k, v) :: t
    else if k < j then (k, v) :: (j, w) :: t
    else (j, w) :: tblSet t k v

/-- Remove what a sparse table lists at `k`. -/
def tblErase {α : Type} (t : Tbl α) (k : Nat) : Tbl α := t.filter (fun e => !decide (e.1 = k))

/-- Change the value at `k` (its default where nothing is listed) by a function. -/
def tblMod {α : Type} (d : α) (t : Tbl α) (k : Nat) (f : α → α) : Tbl α := tblSet t k (f (tblGet d t k))

/-! ## Byte order and bit fields -/

/-- The number a string of bytes spells, little-endian (R5). -/
def leNat : Bytes → Nat
  | [] => 0
  | b :: t => b.toNat + 256 * leNat t

/-- The `n` bytes of a number, little-endian (R5). -/
def natLe : Nat → Nat → Bytes
  | 0, _ => []
  | n + 1, v => BitVec.ofNat 8 v :: natLe n (v / 256)

/-- The number a string of bytes spells, big-endian (formats of a named standard, R5). -/
def beNat (b : Bytes) : Nat := b.foldl (fun a x => a * 256 + x.toNat) 0

/-- The `n` bytes of a number, big-endian. -/
def natBe (n v : Nat) : Bytes := (natLe n v).reverse

/-- Bits `lo + w - 1 .. lo` of a number. -/
def bitsOf (v lo w : Nat) : Nat := (v >>> lo) % 2 ^ w

/-- One bit of a number. -/
def bitOf (v i : Nat) : Bool := v.testBit i

/-- A Boolean as a number. -/
def b2n (b : Bool) : Nat := if b then 1 else 0

/-- The number `n` read as a two's complement number of `w` bits. -/
def signed (w n : Nat) : Int :=
  let m := n % 2 ^ w
  if 2 * m < 2 ^ w then (m : Int) else (m : Int) - 2 ^ w

/-- The `w`-bit two's complement pattern of an integer. -/
def unsigned (w : Nat) (z : Int) : Nat := (z % (2 ^ w : Int)).toNat

/-- Round up to a multiple of `k` (`k` positive). -/
def roundUp (v k : Nat) : Nat := (v + k - 1) / k * k

/-- Division rounded up. -/
def ceilDiv (a b : Nat) : Nat := (a + b - 1) / b

/-- `n` bytes of a string from offset `o`; bytes beyond its end read as nothing. -/
def slice (b : Bytes) (o n : Nat) : Bytes := (b.drop o).take n

/-- The little-endian field of `n` bytes at offset `o` of a structure. -/
def field (b : Bytes) (o n : Nat) : Nat := leNat (slice b o n)

/-- Every byte of a field is zero (a reserved field, R7, R8). -/
def allZero (b : Bytes) : Bool := b.all (fun x => x == 0)

/-- A string of bytes made exactly `n` long: cut, or filled with zero bytes at its end. -/
def padTo (n : Nat) (b : Bytes) : Bytes := (b ++ List.replicate n 0).take n

/-- The bytes of an ASCII text. -/
def asciiBytes (t : String) : Bytes := t.toList.map (fun c => BitVec.ofNat 8 c.toNat)

/-- Replace the elements of a list from offset `o` by `r`, the list's length kept. -/
def overlay {α : Type} (l : List α) (o : Nat) (r : List α) : List α :=
  l.take o ++ r.take (l.length - o) ++ l.drop (o + r.length)

/-- Change the element at place `i`, if there is one. -/
def modAt {α : Type} (l : List α) (i : Nat) (f : α → α) : List α := l.modify i f

/-- Comparison of two values of an `n`-bit WRAP counter (R14): `a` is later than `b`. -/
def wrapLater (n a b : Nat) : Bool :=
  let d := (a + (2 ^ n - b % 2 ^ n)) % 2 ^ n
  decide (0 < d) && decide (d < 2 ^ (n - 1))

/-- The distance from `b` up to `a` of two `n`-bit WRAP counters (R14). -/
def wrapDist (n a b : Nat) : Nat := (a + (2 ^ n - b % 2 ^ n)) % 2 ^ n

/-- Keep the first entry that a test accepts. -/
def findMin {α : Type} (key : α → Nat) (l : List α) : Option α :=
  l.foldl (fun best x => match best with
    | none => some x
    | some b => if key x < key b then some x else some b) none

/-- A list with one element put in by rising key, after those of equal key. -/
def insertBy {α : Type} (key : α → Nat) (x : α) : List α → List α
  | [] => [x]
  | y :: t => if key x < key y then x :: y :: t else y :: insertBy key x t

/-- Stable insertion sort by a natural key. -/
def sortByKey {α : Type} (key : α → Nat) : List α → List α
  | [] => []
  | x :: t =>
    let rec put (x : α) : List α → List α
      | [] => [x]
      | y :: u => if key y < key x then y :: put x u else x :: y :: u
    put x (sortByKey key t)

/-- Numbers `0 … n-1` that a test accepts. -/
def whichBelow (n : Nat) (p : Nat → Bool) : List Nat := (List.range n).filter p

/-- The lowest of `0 … n-1` that a test accepts. -/
def lowestBelow (n : Nat) (p : Nat → Bool) : Option Nat := (List.range n).find? p

/-- Fit an overlong list of bytes to pieces of `n` bytes each. -/
def chunks (n : Nat) : Nat → Bytes → List Bytes
  | 0, _ => []
  | _ + 1, [] => []
  | k + 1, b => b.take n :: chunks n k (b.drop n)

end Sys2Proof.Machine
end

