-- ==== Sys2Proof/Machine/Checksum.lean ====
section
/-! DEFINITION. The check codes and digests the spec names: CRC-32C (00_scope.md, Standards), SHA-256, SHA-384 and
SHA-512 of FIPS 180-4 (13, digest engine), and HMAC over them. -/

namespace Sys2Proof.Machine

/-! ## CRC-32C -/

/-- One bit of a reflected CRC with polynomial `poly`. -/
def crcBit (w : Nat) (poly : BitVec w) (c : BitVec w) : BitVec w :=
  if c.getLsbD 0 then (c >>> 1) ^^^ poly else c >>> 1

/-- One byte of a reflected CRC. -/
def crcByte (w : Nat) (poly : BitVec w) (c : BitVec w) (b : Byte) : BitVec w :=
  Nat.repeat (crcBit w poly) 8 (c ^^^ b.setWidth w)

/-- CRC-32C: Castagnoli 0x1EDC_6F41 reflected, initial value and final exclusive-OR 0xFFFF_FFFF (00_scope.md). -/
def crc32c (b : Bytes) : BitVec 32 :=
  b.foldl (crcByte 32 0x82F63B78) 0xFFFFFFFF ^^^ 0xFFFFFFFF

/-! ## SHA-2 (FIPS 180-4) -/

/-- The `k`-th root of `v` in whole numbers, bit by bit from bit `n - 1` down. -/
def rootBelow (k v : Nat) : Nat → Nat → Nat
  | 0, x => x
  | n + 1, x => rootBelow k v n (bif Nat.ble ((x + 2 ^ n) ^ k) v then x + 2 ^ n else x)

/-- The first `w` bits of the fraction of the `k`-th root of a number below 512: what FIPS 180-4 makes its constants
of. -/
def rootFraction (w k p : Nat) : BitVec w := BitVec.ofNat w (rootBelow k (p * 2 ^ (k * w)) (w + 5) 0)

/-- The first 80 prime numbers. -/
def smallPrimes : List Nat :=
  (List.range 410).filter (fun n => Nat.ble 2 n && [2, 3, 5, 7, 11, 13, 17, 19].all (fun d => Nat.beq n d || !(Nat.beq (n % d) 0)))

/-- Round constants: cube roots of the first `n` primes. -/
def shaRounds (w n : Nat) : List (BitVec w) := (smallPrimes.take n).map (rootFraction w 3)

/-- Initial values: square roots of eight primes, after the first `o`. -/
def shaStart (w o : Nat) : List (BitVec w) := ((smallPrimes.drop o).take 8).map (rootFraction w 2)

/-- What sets one SHA-2 word size apart: rotation amounts of the four functions and the constants. -/
structure ShaParams (w : Nat) where
  S0 : Nat × Nat × Nat
  S1 : Nat × Nat × Nat
  s0 : Nat × Nat × Nat
  s1 : Nat × Nat × Nat
  k : List (BitVec w)

/-- The 32-bit word size. -/
def sha32 : ShaParams 32 := ⟨(2, 13, 22), (6, 11, 25), (7, 18, 3), (17, 19, 10), shaRounds 32 64⟩

/-- The 64-bit word size. -/
def sha64 : ShaParams 64 := ⟨(28, 34, 39), (14, 18, 41), (1, 8, 7), (19, 61, 6), shaRounds 64 80⟩

/-- A function of three rotations. -/
def shaBig {w : Nat} (r : Nat × Nat × Nat) (x : BitVec w) : BitVec w :=
  x.rotateRight r.1 ^^^ x.rotateRight r.2.1 ^^^ x.rotateRight r.2.2

/-- A function of two rotations and a shift. -/
def shaSmall {w : Nat} (r : Nat × Nat × Nat) (x : BitVec w) : BitVec w :=
  x.rotateRight r.1 ^^^ x.rotateRight r.2.1 ^^^ (x >>> r.2.2)

/-- The big-endian words of a block. -/
def shaWords (w : Nat) : Nat → Bytes → List (BitVec w)
  | 0, _ => []
  | n + 1, b => BitVec.ofNat w (beNat (b.take (w / 8))) :: shaWords w n (b.drop (w / 8))

/-- `n` further words of the message schedule; the list holds the newest word first. -/
def shaExtend {w : Nat} (p : ShaParams w) : Nat → List (BitVec w) → List (BitVec w)
  | 0, l => l
  | n + 1, l =>
    shaExtend p n ((shaSmall p.s1 (l.getD 1 0) + l.getD 6 0 + shaSmall p.s0 (l.getD 14 0) + l.getD 15 0) :: l)

/-- One round over the eight working variables. -/
def shaRound {w : Nat} (p : ShaParams w) (v : List (BitVec w)) (kw : BitVec w × BitVec w) : List (BitVec w) :=
  let a := v.getD 0 0
  let b := v.getD 1 0
  let c := v.getD 2 0
  let e := v.getD 4 0
  let f := v.getD 5 0
  let g := v.getD 6 0
  let t1 := v.getD 7 0 + shaBig p.S1 e + ((e &&& f) ^^^ (~~~e &&& g)) + kw.1 + kw.2
  let t2 := shaBig p.S0 a + ((a &&& b) ^^^ (a &&& c) ^^^ (b &&& c))
  [t1 + t2, a, b, c, v.getD 3 0 + t1, e, f, g]

/-- The compression function: one block into a chaining value. -/
def shaBlock {w : Nat} (p : ShaParams w) (h : List (BitVec w)) (block : Bytes) : List (BitVec w) :=
  let sched := (shaExtend p (p.k.length - 16) (shaWords w 16 block).reverse).reverse
  List.zipWith (· + ·) h ((p.k.zip sched).foldl (shaRound p) h)

/-- Absorb `n` whole blocks of `bs` bytes. -/
def shaBlocks {w : Nat} (p : ShaParams w) (bs : Nat) : Nat → List (BitVec w) → Bytes → List (BitVec w)
  | 0, h, _ => h
  | n + 1, h, b => shaBlocks p bs n (shaBlock p h (b.take bs)) (b.drop bs)

/-- The big-endian bytes of a chaining value. -/
def shaOut {w : Nat} (h : List (BitVec w)) : Bytes := h.flatMap (fun x => natBe (w / 8) x.toNat)

/-- The padding of a message of `len` bytes for blocks of `bs` bytes with a length field of `lf` bytes. -/
def shaPad (bs lf len : Nat) : Bytes :=
  let z := (bs - (len + 1 + lf) % bs) % bs
  0x80 :: List.replicate z 0 ++ natBe lf (len * 8)

/-- The digest algorithms of the digest engine. -/
inductive ShaAlg where
  | sha256
  | sha384
  | sha512
  deriving DecidableEq, Repr

/-- Bytes of a block. -/
def ShaAlg.blockSize : ShaAlg → Nat
  | .sha256 => 64
  | .sha384 => 128
  | .sha512 => 128

/-- Bytes of a digest. -/
def ShaAlg.digestSize : ShaAlg → Nat
  | .sha256 => 32
  | .sha384 => 48
  | .sha512 => 64

/-- The start of a message. -/
def shaInit : ShaAlg → ShaState
  | .sha256 => ⟨shaOut (shaStart 32 0), [], 0⟩
  | .sha384 => ⟨shaOut (shaStart 64 8), [], 0⟩
  | .sha512 => ⟨shaOut (shaStart 64 0), [], 0⟩

/-- Absorb whole blocks of an algorithm into a chaining value held as bytes. -/
def shaAbsorb (a : ShaAlg) (chain data : Bytes) : Bytes :=
  match a with
  | .sha256 => shaOut (shaBlocks sha32 64 (data.length / 64) (shaWords 32 8 chain) data)
  | .sha384 => shaOut (shaBlocks sha64 128 (data.length / 128) (shaWords 64 8 chain) data)
  | .sha512 => shaOut (shaBlocks sha64 128 (data.length / 128) (shaWords 64 8 chain) data)

/-- Add bytes to a message. -/
def shaUpdate (a : ShaAlg) (s : ShaState) (data : Bytes) : ShaState :=
  let all := s.part ++ data
  let whole := all.length / a.blockSize * a.blockSize
  ⟨shaAbsorb a s.chain (all.take whole), all.drop whole, s.count + data.length⟩

/-- Finish a message: the digest. -/
def shaFinal (a : ShaAlg) (s : ShaState) : Bytes :=
  let lf := if a.blockSize = 64 then 8 else 16
  (shaAbsorb a s.chain (s.part ++ shaPad a.blockSize lf s.count)).take a.digestSize

/-- The digest of a whole message. -/
def sha (a : ShaAlg) (m : Bytes) : Bytes := shaFinal a (shaUpdate a (shaInit a) m)

/-- SHA-384 of a whole message, used by the measurements. -/
def sha384 (m : Bytes) : Bytes := sha .sha384 m

/-! ## HMAC -/

/-- The key block of HMAC: a key longer than a block is hashed first, then zero-filled. -/
def hmacKeyBlock (a : ShaAlg) (key : Bytes) : Bytes :=
  padTo a.blockSize (if key.length > a.blockSize then sha a key else key)

/-- The inner state of HMAC after its key block. -/
def hmacInner (a : ShaAlg) (key : Bytes) : ShaState :=
  shaUpdate a (shaInit a) ((hmacKeyBlock a key).map (fun b => b ^^^ 0x36))

/-- The outer state of HMAC after its key block. -/
def hmacOuter (a : ShaAlg) (key : Bytes) : ShaState :=
  shaUpdate a (shaInit a) ((hmacKeyBlock a key).map (fun b => b ^^^ 0x5C))

/-- The HMAC from its outer state and the finished inner digest. -/
def hmacFinish (a : ShaAlg) (outer : ShaState) (inner : Bytes) : Bytes := shaFinal a (shaUpdate a outer inner)

end Sys2Proof.Machine
end

