-- ==== Sys2Proof/Machine/Mem.lean ====
section
/-! DEFINITION. Byte memory as plain data: a list of (address, byte) pairs, addresses strictly rising, with no pair
equal to what an unlisted address reads as. The operations take that default byte `d` as an argument: device DRAM
reads zero (12_dram.md, R497, R504), other memories say theirs where they are declared. -/

namespace Sys2Proof.Machine

/-- The canonical form: addresses strictly rising, no pair that spells the default. -/
abbrev memWf (d : Byte) (m : List Host.Cell) : Prop :=
  m.Pairwise (fun x y => x.1 < y.1) ∧ ∀ c ∈ m, c.2 ≠ d

/-- One byte of memory. -/
def memGet (d : Byte) (m : List Host.Cell) (a : Nat) : Byte := tblGet d m a

/-- Write one byte, keeping the canonical form. -/
def memSet (d : Byte) (m : List Host.Cell) (a : Nat) (v : Byte) : List Host.Cell :=
  if v = d then tblErase m a else tblSet m a v

/-- `n` bytes from address `a`. -/
def memRead (d : Byte) (m : List Host.Cell) (a : Nat) : Nat → Bytes
  | 0 => []
  | n + 1 => memGet d m a :: memRead d m (a + 1) n

/-- Write a string of bytes from address `a`. -/
def memWrite (d : Byte) (m : List Host.Cell) (a : Nat) : Bytes → List Host.Cell
  | [] => m
  | b :: t => memWrite d (memSet d m a b) (a + 1) t

/-- Make `n` bytes from address `a` read as the default: drop every listed byte of the range. -/
def memClear (m : List Host.Cell) (a n : Nat) : List Host.Cell :=
  m.filter (fun c => !(decide (a ≤ c.1) && decide (c.1 < a + n)))

/-- The little-endian number of `n` bytes at `a` (R5). -/
def memNat (d : Byte) (m : List Host.Cell) (a n : Nat) : Nat := leNat (memRead d m a n)

end Sys2Proof.Machine
end

