-- ==== Sys2Proof/Machine/State.lean ====
section
/-! DEFINITION. The state of the module as plain data: every register, store, queue, buffer, mode and land the spec
gives it, the queue of commands that wait, and the state right after reset. -/

namespace Sys2Proof.Machine

/-! ## Modes, supply, pins -/

/-- The six operating modes (01_engine_at_a_glance.md, R26, R27). -/
inductive Mode where
  | reset
  | boot
  | maintenance
  | service
  | degraded
  | hold
  deriving DecidableEq, Repr

/-- The level of a land (17_physical.md, R703). -/
inductive PinLevel where
  | highZ
  | released
  | low
  | high
  | idle
  | busNeutral
  | recessive
  | active
  deriving DecidableEq, Repr

/-- The lands that the module drives (R701 to R703). -/
structure Pins where
  tx : PinLevel := .idle
  clkreqN : PinLevel := .released
  wakeN : PinLevel := .released
  pgOut : PinLevel := .highZ
  thermN : PinLevel := .released
  can : PinLevel := .recessive
  tapUsable : Bool := false
  vrefJtag : PinLevel := .high
  deriving DecidableEq, Repr

/-- A supply episode under way: input below warning, or above it for less than 10 ms (16, R686). -/
structure Episode where
  lowestMv : Nat
  falls : Nat
  deriving DecidableEq, Repr

/-- Mode, time, supply and thermal state of the always-on block and of Tisum. -/
structure Sys where
  mode : Mode := .reset
  /-- The three forms of HOLD (R27): served by Tisum, served by the ROM (R630), or dead (R667). -/
  holdRom : Bool := false
  holdDead : Bool := false
  /-- Lockstep mismatches since RESET (R667). -/
  mismatches : Nat := 0
  holdCause : BitVec 16 := 0
  resetCause : BitVec 8 := 1
  bootTimeMs : BitVec 32 := 0
  /-- MODE_REQUEST_STATUS and whether the drain of R29 is under way (R640). -/
  modeStatus : BitVec 16 := 0
  draining : Bool := false
  /-- DEVICE_TIME: µs since the last RESET, WRAP 64 (R400). -/
  time : BitVec 64 := 0
  /-- CYCLE of every core: CK_CORE cycles since RESET (07, R296). -/
  cycle : BitVec 64 := 0
  /-- µs since power-up, for unsynchronised TIME (R607). -/
  upUs : Nat := 0
  /-- Calendar time in µs since 1984-01-01, once set (R607). -/
  calendar : Option Nat := none
  timeSource : BitVec 8 := 0
  /-- Tisum runs; the boot watchdog is armed (R624, R629). -/
  tisum : Bool := false
  watchdog : Bool := false
  /-- Memory is trained and laid out in this boot (R516, R491). -/
  laidOut : Bool := false
  inputInRange : Bool := true
  railsUp : Bool := true
  perstHigh : Bool := true
  episode : Option Episode := none
  thermal : Fin 4 := 0
  attaches : Nat := 0
  pins : Pins := {}
  /-- Gated clock domains (R699). -/
  gated : BitVec 72 := 0
  /-- Answer of the last bus or configuration read. -/
  readAnswer : BitVec 64 := 0
  readRefused : Bool := false
  retryStatus : Bool := false
  /-- Next free value. -/
  fresh : Nat := 0
  deriving DecidableEq, Repr

/-- Free values other than numbers: what the last completed request answered. -/
structure LastAnswer where
  data : Bytes := []
  abort : BitVec 32 := 0
  deriving DecidableEq, Repr

/-! ## Units present and retired -/

/-- The units present: index 0x2200 (14, R589). -/
structure Present where
  subchannels : BitVec 32 := 0xFFFFFFFF
  quays : BitVec 32 := 0xFFFFFFFF
  groves : BitVec 16 := 0xFFFF
  cores : BitVec 128 := 0xFFFFFFFFFFFFFFFFFFFFFFFFFFFFFFFF
  banks : BitVec 16 := 0xFFFF
  compression : BitVec 4 := 0xF
  channels : BitVec 64 := 0xFFFFFFFFFFFFFFFF
  digest : Bool := true
  linkWidth : BitVec 8 := 16
  deriving DecidableEq, Repr

/-- The retirement entries: index 0x4200 and entry 0x2300:04 (16, R670; 12, R496). -/
structure Retired where
  parts : BitVec 80 := 0
  cores : BitVec 128 := 0
  channels : BitVec 64 := 0
  subchannels : BitVec 32 := 0
  deriving DecidableEq, Repr

/-- What a full pass in MAINTENANCE has found good and will return (16, R657). -/
structure Passed where
  parts : BitVec 80 := 0
  cores : BitVec 128 := 0
  deriving DecidableEq, Repr

/-! ## Non-volatile stores -/

/-- A Heartwood record before it has its place in the log (16, R672). -/
structure HwRecord where
  time : BitVec 64
  code : BitVec 16
  source : BitVec 16
  p0 : BitVec 32
  p1 : BitVec 32
  p2 : BitVec 32
  deriving DecidableEq, Repr

/-- The MRAM (CD66): settings banks as bytes (R591), retirement entries with whether their check holds (R670),
BOOT_FAILS of bank A and B (R625), and the Heartwood log (R672). -/
structure Mram where
  bankA : Bytes := []
  bankB : Bytes := []
  retired : Retired := {}
  retiredOk : Bool := true
  bootFailsA : BitVec 8 := 0
  bootFailsB : BitVec 8 := 0
  slots : Tbl Bytes := []
  baseSequence : BitVec 32 := 0
  dropped : BitVec 32 := 0
  logFull : Bool := false
  deriving DecidableEq, Repr

/-- The NOR flash (CD67): banks A and B as bytes, an unlisted byte reading 0xFF, the retirement copy in the training
store (R670), the subchannels with a valid training record (R516), and the certificate chain. -/
structure Flash where
  bankA : List Host.Cell := []
  bankB : List Host.Cell := []
  retired : Retired := {}
  retiredOk : Bool := true
  trained : BitVec 32 := 0
  certChain : Bytes := []
  deriving DecidableEq, Repr

/-- Tisum's side of the Heartwood log: the records that await writing, those lost since the queue last emptied, the
slot at which appending goes on, and CLEAR_STATUS (R676, R677, R683). -/
structure LogQueue where
  queue : List HwRecord := []
  lost : Nat := 0
  next : Nat := 0
  clearStatus : BitVec 16 := 0
  deriving DecidableEq, Repr

/-! ## Firmware and measurements -/

/-- Firmware entries (15, R625 to R628) and boot state of the ROM and Tisum. -/
structure Firmware where
  booted : Fin 2 := 0
  version : BitVec 32 := 0
  sequence : BitVec 32 := 0
  runtimeVersion : BitVec 16 := 0
  inactiveState : BitVec 8 := 0
  inactiveVersion : BitVec 32 := 0
  status : BitVec 16 := 0
  /-- First 4 KiB of the package being written, and how many package bytes came since offset 0. -/
  held : Bytes := []
  bytesWritten : BitVec 32 := 0
  started : Bool := false
  /-- A COMMIT that waits for the supply, with whether its programming will read back (R628). -/
  commitWaits : Option Bool := none
  /-- The ROM has chosen a bank in this boot (R623). -/
  selected : Bool := false
  deriving DecidableEq, Repr

/-- Manifest registers and boot event log (R631 to R633). -/
structure Manifest where
  regs : Tbl Bytes := []
  eventCount : BitVec 32 := 0
  events : List Bytes := []
  deriving DecidableEq, Repr

/-- The SPDM responder (R634 to R636): how far the requester has negotiated, and the last response. -/
structure Spdm where
  version : Bool := false
  capabilities : Bool := false
  algorithms : Bool := false
  transcript : Bytes := []
  response : Bytes := []
  signatures : Nat := 0
  deriving DecidableEq, Repr

/-! ## PCIe function and host memory -/

/-- One MSI-X table entry (R447). -/
structure MsixEntry where
  addr : BitVec 64 := 0
  data : BitVec 32 := 0
  masked : Bool := true
  deriving DecidableEq, Repr

/-- A host write that the function has not issued: in D3hot (R395) or behind a full dirty ring (R484). One without
data is a message of the vector `addr` that follows such writes (R438). -/
structure HeldWrite where
  key : Nat
  addr : Nat
  data : Bytes
  deriving DecidableEq, Repr

/-- The PCIe function (10_host_queues.md). -/
structure Pcie where
  linkUp : Bool := false
  speed : Fin 8 := 6
  flit : Bool := true
  d3hot : Bool := false
  refclkSris : Bool := false
  maxPayload : Nat := 128
  maxRead : Nat := 512
  /-- Relaxed Ordering is enabled in Device Control (R392), and the AER status registers (R392, R402). -/
  relaxedOrder : Bool := true
  aerUncorrectable : BitVec 32 := 0
  aerCorrectable : BitVec 32 := 0
  apertureBase : BitVec 64 := 0
  apertureRefused : Bool := false
  bar4Size : Nat := 0x10000000
  config : Tbl (BitVec 32) := []
  msixEnable : Bool := false
  functionMask : Bool := false
  msix : Tbl MsixEntry := []
  msixPending : Tbl Bool := []
  /-- Messages that wait for D0 (R395), and those sent, newest first. -/
  msixHeld : List Nat := []
  msixSent : List Nat := []
  esPending : Tbl Bool := []
  esSteer : Tbl (BitVec 16) := []
  /-- High-word latches of the two paths (R20): which register, and the latched value. -/
  latchPcie : Option (RslRegister × BitVec 32) := none
  latchHarbour : Option (RslRegister × BitVec 32) := none
  held : List HeldWrite := []
  deriving DecidableEq, Repr

/-- Host memory as the module's requests see it: bytes by PASID key and address (key × 2^64 + address), and the
ranges whose reads fail. -/
structure HostSide where
  mem : List Host.Cell := []
  faults : List HostFault := []
  deriving DecidableEq, Repr

/-! ## Counters -/

/-- One counter block: values by bit number of its overflow register, and that register (R13). -/
structure Counters where
  vals : Tbl Nat := []
  ovf : BitVec 32 := 0
  deriving DecidableEq, Repr

/-! ## Dictionary, mailbox, CAN node -/

/-- A settings save or restore of defaults under way (14, R593 to R595). -/
structure Save where
  kind : Fin 2
  body : Bytes
  fingerprint : Bytes
  writing : Bool
  lss : Bool
  deriving DecidableEq, Repr

/-- The mailbox registers (R598). -/
structure Mailbox where
  state : BitVec 8 := 0
  seq : BitVec 16 := 0
  index : BitVec 16 := 0
  sub : BitVec 8 := 0
  length : BitVec 32 := 0
  offset : BitVec 32 := 0
  abort : BitVec 32 := 0
  data : Tbl Byte := []
  deriving DecidableEq, Repr

/-- A peer of the module group as last heard (R611). -/
structure Peer where
  mode : BitVec 8
  version : BitVec 32
  fingerprint : Bytes
  /-- Calendar time it carried less the member's own, where neither is unsynchronised (R613). -/
  spread : Option Int
  deriving DecidableEq, Repr

/-- What Tisum serves at the dictionary beside the registers held elsewhere. -/
structure Dict where
  /-- Stored entries as last written: value by index × 256 + subindex; unlisted, the default. -/
  settings : Tbl Nat := []
  /-- Stored entries in effect that take effect at the next RESET only (R590). -/
  effective : Tbl Nat := []
  /-- Stored entries as last saved or loaded. -/
  saved : Tbl Nat := []
  storeStatus : BitVec 16 := 0
  save : Option Save := none
  activeBank : BitVec 8 := 0xFF
  storeSequence : BitVec 32 := 0
  defaultsPending : Bool := false
  errors : List (BitVec 32) := []
  mailbox : Mailbox := {}
  doeResponse : Bytes := []
  /-- Migration progress, index 0x4060. -/
  migBerth : BitVec 16 := 0
  migOpcode : BitVec 8 := 0
  migDone : BitVec 32 := 0
  migTotal : BitVec 32 := 0
  groupStatus : BitVec 8 := 0
  peers : Tbl Peer := []
  checkpoint : BitVec 32 := 0
  answer : LastAnswer := {}
  deriving DecidableEq, Repr

/-- NMT states of the CAN node (R601). -/
inductive Nmt where
  | off
  | initialisation
  | preOperational
  | operational
  | stopped
  deriving DecidableEq, Repr

/-- A CAN frame or service answer the node has sent. -/
structure CanFrame where
  cobId : Nat
  data : Bytes
  deriving DecidableEq, Repr

/-- The CANopen FD node (R601 to R606). -/
structure CanNode where
  nmt : Nmt := .off
  nodeId : BitVec 8 := 0x40
  dataRate : BitVec 8 := 0
  errorRegister : BitVec 8 := 0
  /-- EMCY codes whose condition lasts. -/
  conditions : List (BitVec 16) := []
  /-- The inhibit time of 0x1015 runs; messages held behind it. -/
  inhibited : Bool := false
  emcyHeld : List CanFrame := []
  /-- Frames sent, newest first. -/
  sent : List CanFrame := []
  passive : Bool := false
  busOff : Bool := false
  /-- Clients of the USDO sessions in progress. -/
  sessions : List (BitVec 8) := []
  lssConfiguring : Bool := false
  deriving DecidableEq, Repr

/-! ## Self-test -/

/-- Self-test entries and the pass in hand (16, R658). -/
structure SelfTest where
  status : BitVec 16 := 0
  progress : BitVec 8 := 0
  lastPassEnd : BitVec 64 := 0
  sessions : Nat := 0
  mismatches : Nat := 0
  /-- RESULT of each partition: code, segments run, mismatches. -/
  results : Tbl (Nat × Nat × Nat) := []
  /-- The pass in hand: 0 none, 1 full, 2 in-service; its interval is over (R651); it was asked for through the
  dictionary. -/
  pass : Fin 3 := 0
  late : Bool := false
  asked : Bool := false
  retiredInPass : Bool := false
  passMismatches : Nat := 0
  passed : Passed := {}
  /-- Partitions whose session could not start and waits 1 s for its retry (R651). -/
  waiting : List Nat := []
  deriving DecidableEq, Repr

/-! ## On-module memory -/

/-- Owner of a granule (12, R499). -/
inductive Owner where
  | free
  | device
  | berth (b : Fin 512)
  deriving DecidableEq, Repr

/-- One ownership table entry (R499). -/
structure OwnEntry where
  owner : Owner := .free
  init : Bool := false
  image : Bool := false
  filling : Bool := false
  deriving DecidableEq, Repr

/-- Controller of one subchannel (R508 to R530). -/
structure Subchannel where
  state : BitVec 3 := 0
  tempBand : BitVec 2 := 0
  failedPackage : BitVec 3 := 0
  /-- Lines in the write queue (R511). -/
  writeQueue : List Nat := []
  /-- Open row of each bank (R510). -/
  openRows : Tbl Nat := []
  /-- Next line of the patrol scrub (R522). -/
  scrubLine : Nat := 0
  /-- Next granule of the background initialiser (R506), and the interleaved granules whose part it has written. -/
  initNext : Nat := 0
  /-- CA parity alerts in a row, failed CA retrainings in a row (R524). -/
  alerts : Nat := 0
  failedRetrains : Nat := 0
  /-- Corrections of the last 24 h, newest first: package, line and time in µs (R525). -/
  corrected : List (Nat × Nat × Nat) := []
  refreshes : Nat := 0
  /-- DQS drift and ZQ calibrations made (R519). -/
  tracked : Nat := 0
  calibrated : Nat := 0
  deriving DecidableEq, Repr

/-- Device memory: contents, ownership, poison, and the physical faults of the cells. -/
structure DevMem where
  mem : List Host.Cell := []
  own : Tbl OwnEntry := []
  /-- Parts of interleaved granules written by the background initialiser: subchannels done (R506). -/
  parts : Tbl (BitVec 32) := []
  /-- 64-byte lines that read as uncorrectable (R521). -/
  poison : List Nat := []
  /-- Lines whose cells hold an error not yet met: `some p` in package p alone, `none` in two packages. -/
  flaws : Tbl (Option (Fin 5)) := []
  subs : Tbl Subchannel := []
  /-- Layout: N in effect (R491). -/
  shareGib : Nat := 8
  /-- Subchannels retrained at this boot whose new record is not yet written (R516). -/
  retrained : BitVec 32 := 0
  /-- Every visible write: its instant, the byte's address and its value before; newest first. It lets a load of a
  core be satisfied with an older value (08, R338, R341). -/
  history : List (Nat × Nat × Byte) := []
  now : Nat := 0
  /-- Subchannels that the mesh has marked failed after a time-out (08, R350). -/
  failed : BitVec 32 := 0
  /-- Other targets so marked: control blocks in the device register space, by 4 KiB page. -/
  failedPages : List Nat := []
  deriving DecidableEq, Repr

/-- An ownership violation not yet handled (R466): the berth, the address, and the job that made the access. -/
structure Violation where
  berth : Fin 512
  addr : Nat
  job : Option Nat
  deriving DecidableEq, Repr

/-! ## Queues and jobs -/

/-- States of a queue (10, R411). -/
inductive QState where
  | absent
  | disabled
  | active
  | draining
  | error
  deriving DecidableEq, Repr

/-- A completion entry before it has its index (R436). -/
structure Completion where
  tag : Nat
  statusAddr : Nat
  state : Nat
  opcode : Nat
  origState : Nat
  fault : Nat
  sqIndex : BitVec 32
  notify : Bool
  deriving DecidableEq, Repr

/-- One entry of the tag window (R426). -/
structure TagEntry where
  tag : Nat
  statusAddr : Nat
  state : Nat
  fault : Nat
  deriving DecidableEq, Repr

/-- An entry fetched or pushed and not yet started (R422). -/
structure Taken where
  bytes : Bytes
  index : BitVec 32
  deriving DecidableEq, Repr

/-- One queue with its control block (R409) and engine state. -/
structure Queue where
  state : QState := .absent
  sqBase : BitVec 64 := 0
  cqBase : BitVec 64 := 0
  indexAddr : BitVec 64 := 0
  sqOrder : BitVec 8 := 0
  cqOrder : BitVec 8 := 0
  vector : BitVec 16 := 0
  holdoff : BitVec 16 := 0
  poll : BitVec 16 := 0
  sqHead : BitVec 32 := 0
  cqProd : BitVec 32 := 0
  fetchIndex : BitVec 32 := 0
  cqConsSeen : BitVec 32 := 0
  sqProd : BitVec 32 := 0
  errIndex : BitVec 32 := 0
  errCause : BitVec 4 := 0
  cfgCause : BitVec 4 := 0
  stall : Bool := false
  /-- The first read after ENABLE or RESTART has not returned (R412). -/
  unread : Bool := false
  /-- No CQ_CONS is known since ENABLE. -/
  consUnknown : Bool := false
  reading : Bool := false
  readAgain : Bool := false
  pushBase : BitVec 32 := 0
  pushed : Tbl Byte := []
  pushValid : Bool := false
  taken : Option Taken := none
  tags : List TagEntry := []
  hold : List Completion := []
  /-- A fence that holds the queue (R445). -/
  fence : Option Nat := none
  /-- Time of the last completion signal, and whether one waits for the holdoff (R451). -/
  lastSignal : Option (BitVec 64) := none
  signalWaits : Bool := false
  /-- A doorbell or push kept while the queue may not fetch (R28, R465). -/
  kept : Bool := false
  /-- Jobs of the queue that ended FAILED or CANCELLED since it became present: number and JOB_TAG (R445). -/
  bad : List (Nat × Nat) := []
  deriving DecidableEq, Repr

/-- How a job ends: final STATE, FAULT_CODE, FAULT_POSITION. -/
structure JobEnd where
  state : Nat
  fault : Nat := 0
  position : Nat := 0
  deriving DecidableEq, Repr

/-- A job that is not final (R431, R432). -/
structure Job where
  queue : Nat
  berth : Option (Fin 512)
  tag : Nat
  statusAddr : Nat
  entry : Bytes
  opcode : Nat
  sqIndex : BitVec 32
  notify : Bool
  state : Nat := 1
  rows : Nat := 0
  bytes : Nat := 0
  progress : Nat := 0
  progressWritten : Nat := 0
  tAccepted : BitVec 64 := 0
  result : Option JobEnd := none
  /-- The engine has begun; a CANCEL has asked it to stop; DESTROY ends it without a word to the host (R461). -/
  begun : Bool := false
  cancelled : Bool := false
  silent : Bool := false
  /-- The crane channel of its transfer stream (13, R533). -/
  channel : Option Nat := none
  /-- µs of TIME_LIMIT used before the last freeze (R474). -/
  timeUsed : Nat := 0
  deriving DecidableEq, Repr

/-! ## Berths -/

/-- States of a berth (11, R464). -/
inductive BState where
  | absent
  | active
  | faulted
  | freezing
  | frozen
  | destroying
  deriving DecidableEq, Repr

/-- States of an image slot (04, R171). -/
inductive SlotState where
  | empty
  | loading
  | loaded
  | unloading
  deriving DecidableEq, Repr

/-- One image slot (R171 to R176). -/
structure Slot where
  state : SlotState := .empty
  addr : Nat := 0
  length : Nat := 0
  imageId : Nat := 0
  measurement : Bytes := []
  granules : List Nat := []
  /-- RUN jobs that use it, the UNLOAD_IMAGE job that waits, and the LOAD_IMAGE job that loads it. -/
  users : List Nat := []
  unloadJob : Option Nat := none
  loadJob : Option Nat := none
  /-- The instant at which the image stood loaded (07, R295). -/
  loadedAt : Nat := 0
  deriving DecidableEq, Repr

/-- Dirty logging of one berth (11, R480 to R485). -/
structure DirtyLog where
  running : Bool := false
  ringAddr : Nat := 0
  ringOrder : Nat := 0
  indexAddr : Nat := 0
  cons : BitVec 32 := 0
  prod : BitVec 32 := 0
  bitmap : Tbl Bool := []
  filter : List Nat := []
  held : List HeldWrite := []
  deriving DecidableEq, Repr

/-- A freeze under way (R471): its job, its deadline and when it was accepted. -/
structure Freeze where
  job : Nat
  deadline : Nat
  accepted : Nat
  deriving DecidableEq, Repr

/-- One berth (R457, R469, R414). -/
structure Berth where
  state : BState := .absent
  commandStatus : BitVec 16 := 0
  pasid : BitVec 32 := 0
  queueCount : BitVec 8 := 1
  extents : Bytes := []
  canopyEntries : BitVec 32 := 0
  patternStates : BitVec 32 := 0
  digestContexts : BitVec 8 := 0
  keySlots : BitVec 16 := 0
  taskQuota : BitVec 16 := 64
  shareWeight : BitVec 16 := 100
  vectorBase : BitVec 16 := 0
  vectorCount : BitVec 16 := 1
  migrationMode : BitVec 8 := 0
  faultCode : BitVec 16 := 0
  faultAddress : BitVec 64 := 0
  faultCount : BitVec 32 := 0
  measurementCount : BitVec 32 := 0
  measurements : List Bytes := []
  digest : Bytes := List.replicate 48 0
  queueErrors : BitVec 8 := 0
  slots : Tbl Slot := []
  dirty : DirtyLog := {}
  freeze : Option Freeze := none
  deriving DecidableEq, Repr

/-! ## Cranes, compression, digest -/

/-- A crane descriptor as its fields (13, R538). -/
structure Descriptor where
  op : Nat := 0
  flags : Nat := 0
  srcKind : Nat := 0
  dstKind : Nat := 0
  srcLine : Nat := 0
  dstLine : Nat := 0
  burst : Nat := 0
  priority : Nat := 0
  src : Nat := 0
  dst : Nat := 0
  length : Nat := 0
  berth : Nat := 0
  fill : Nat := 0
  pulseTask : Nat := 0
  pulseFlag : Nat := 0
  next : Nat := 0
  deriving DecidableEq, Repr

/-- States of a crane channel (R545). -/
inductive ChState where
  | idle
  | running
  | stopping
  | halted
  deriving DecidableEq, Repr

/-- One crane channel. -/
structure Channel where
  state : ChState := .idle
  lastCode : BitVec 8 := 0
  lastSurplus : Bool := false
  current : BitVec 64 := 0
  done : BitVec 64 := 0
  desc : Option Descriptor := none
  /-- The descriptor is to be read and checked (R540); it has ended with this CODE and awaits its write-back. -/
  fetch : Bool := false
  ending : Option (Nat × Bool) := none
  /-- When the channel began to wait for a burst. -/
  waitSince : Nat := 0
  /-- Where the last failed access lay (R553). -/
  failAddr : Nat := 0
  deriving DecidableEq, Repr

/-- What one finished frame gives (R557): header and stored bytes for COMPRESS, raw bytes for DECOMPRESS, and
whether the frame was stored; or a fault. -/
structure FrameDone where
  bytes : Bytes
  raw : Nat
  stored : Bool
  fault : Option (Nat × Nat)
  deriving DecidableEq, Repr

/-- A COMPRESS or DECOMPRESS job under way. -/
structure FrameJob where
  compress : Bool
  /-- Frames cut from the input: offset and length of raw bytes (COMPRESS), or of the frame in the stream
  (DECOMPRESS). -/
  frames : List (Nat × Nat) := []
  done : Tbl FrameDone := []
  /-- Next frame to commit, stream or output bytes committed, raw bytes committed. -/
  next : Nat := 0
  out : Nat := 0
  raw : Nat := 0
  /-- Raw bytes to discard at the start (R563), and the fault that ends the job after the frames listed. -/
  skip : Nat := 0
  tail : Option (Nat × Nat) := none
  /-- Number of the first frame listed (R563). -/
  base : Nat := 0
  deriving DecidableEq, Repr

/-- A digest context (R566): ALG, the state of the message, and for HMAC the outer state taken at START (R576). -/
structure Context where
  alg : Nat
  state : ShaState
  outer : Option ShaState := none
  job : Option Nat := none
  deriving DecidableEq, Repr

/-- A key slot (R575). -/
structure KeySlot where
  alg : Nat
  inner : ShaState
  outer : ShaState
  deriving DecidableEq, Repr

/-- A DIGEST or DIGEST_VERIFY job under way: its place and what remains of its fragments. -/
structure DigestJob where
  place : Nat
  /-- What is left of the fragment list: address, length, list index. -/
  fragments : List (Nat × Nat × Nat) := []
  /-- A reserved field met at this list index ends the job once the fragments before it are in (R569). -/
  badIndex : Option Nat := none
  waitSince : Nat := 0
  /-- The job waits for its place (R566). -/
  waits : Bool := false
  deriving DecidableEq, Repr

/-- Compression engines, digest engine and cranes. -/
structure Engines where
  channels : Tbl Channel := []
  /-- Deficit round robin of the cranes (R535): balance by berth (512 the device), and the berth served last. -/
  craneBalance : Tbl Nat := []
  craneLast : Nat := 0
  compState : Tbl (BitVec 3) := []
  frameJobs : Tbl FrameJob := []
  digestState : BitVec 2 := 0
  contexts : Tbl Context := []
  keys : Tbl KeySlot := []
  digestJobs : Tbl DigestJob := []
  digestBalance : Tbl Nat := []
  digestLast : Nat := 0
  craneGh7 : Bool := false
  deriving DecidableEq, Repr

/-! ## Vunal cores -/

/-- A store in a core's buffer (08, R339): its address, its bytes, and the tag it was issued with (R500). An entry
whose bytes have a gap (08, R342, a vector store with inactive elements) stands as several, all but the last joined to
the next. -/
structure BufferedStore where
  addr : Nat
  data : Bytes
  tag : Option (Fin 512)
  joined : Bool := false
  deriving DecidableEq, Repr

/-- One region table entry as its two words (R335). -/
structure Region where
  base : BitVec 64 := 0
  limit : BitVec 64 := 0
  deriving DecidableEq, Repr

/-- A work item a core or a prefetch slot holds (09, R381). -/
structure Item where
  task : BitVec 16
  handle : BitVec 64
  deriving DecidableEq, Repr

/-- What a core waits for: nothing, a GETW held at the dispatcher (R381), an interrupt (WFI). -/
inductive CoreWait where
  | none
  | getw
  | wfi
  deriving DecidableEq, Repr

/-- A wait mask committed by WAITC (R364, R365). -/
structure WaitCommit where
  mask : BitVec 32
  any : Bool
  delay : BitVec 24
  deriving DecidableEq, Repr

/-- A user function under way (07, R290; 04, R155): its caller's g and f registers and the address at which the caller
goes on, and the row in hand. -/
structure UserCall where
  g : Tbl (BitVec 64)
  f : Tbl (BitVec 64)
  pc : BitVec 64
  row : Nat
  deriving DecidableEq, Repr

/-- One Vunal core (07, 08). -/
structure Core where
  pc : BitVec 64 := 0
  level : BitVec 2 := 2
  g : Tbl (BitVec 64) := []
  f : Tbl (BitVec 64) := []
  v : Tbl (BitVec 512) := []
  p : Tbl (BitVec 512) := []
  fcsr : BitVec 8 := 0
  ew : BitVec 3 := 0
  vg : BitVec 2 := 0
  vl : BitVec 10 := 0
  sov : Bool := false
  excCause : BitVec 8 := 0
  excLevel : BitVec 2 := 0
  excElement : BitVec 10 := 0
  excPc : BitVec 64 := 0
  excAddr : BitVec 64 := 0
  structEn : Bool := false
  regions : Tbl Region := []
  buffer : List BufferedStore := []
  /-- The reserved 64-byte granule (R345). -/
  reservation : Option Nat := none
  /-- Address of the oldest store that retired with error and is not yet raised (R351). -/
  pendingError : Option (BitVec 64) := none
  /-- Loads may be satisfied with memory as it was at this instant or later (R338, R341), and by address where a
  load or store of the core itself says later. -/
  floor : Nat := 0
  bounds : Tbl Nat := []
  /-- Instant up to which stored code is visible to fetch (R295). -/
  codeSeen : Nat := 0
  interrupt : Bool := false
  waiting : CoreWait := .none
  item : Option Item := none
  slot : Option Item := none
  commit : Option WaitCommit := none
  /-- DEVICE_TIME when the runtime tick last restarted the watchdog (R660). -/
  watchdog : BitVec 64 := 0
  isolated : Bool := false
  /-- The user function under way (R290). -/
  user : Option UserCall := none
  deriving DecidableEq, Repr

/-! ## Pilot -/

/-- States of a task (09, R360). -/
inductive TState where
  | free
  | waiting
  | ready
  | prefetched
  | running
  deriving DecidableEq, Repr

/-- A task record (R358). -/
structure Task where
  state : TState := .free
  berth : Option (Fin 512) := none
  grove : Fin 16 := 0
  priority : Fin 8 := 0
  flow : Option (Fin 4096) := none
  flags : BitVec 32 := 0
  mask : BitVec 32 := 0
  any : Bool := false
  /-- Expiry of its delay place; ticks of a delay that waits for a place (R377, R380). -/
  expiry : Option (BitVec 32) := none
  delayWaits : Option (BitVec 24) := none
  /-- Remaining ticks of its delay while its berth is FROZEN (R388). -/
  frozenDelay : Option (BitVec 32) := none
  lastCore : BitVec 8 := 0xFF
  /-- Time at which it became READY, and its order among those that did. -/
  readyAt : BitVec 64 := 0
  readyOrder : Nat := 0
  job : Option Nat := none
  stage : Nat := 0
  inst : Nat := 0
  /-- Destroyed while RUNNING: FREE at the DONEW (R360). -/
  doomed : Bool := false
  deriving DecidableEq, Repr

/-- Pilot (R371 to R391). -/
structure Pilot where
  tasks : Tbl Task := []
  tick : BitVec 32 := 0
  order : Nat := 0
  /-- Balance of each berth on each grove, by grove × 1,024 + berth (R372), and the berth chosen last. -/
  balance : Tbl Int := []
  last : Tbl Nat := []
  /-- Groves in PREFETCH mode, and each grove's dispatches since its last window ended, oldest first: the task, and the
  CK_CORE cycles for which its item was held once it has been released (R382). -/
  prefetch : BitVec 16 := 0
  windows : Tbl (List (Nat × Option Nat)) := []
  force : BitVec 2 := 0
  tune : BitVec 32 := 0x0020100A
  select : BitVec 16 := 0
  record : Bytes := List.replicate 16 0
  /-- How often a batch has been handed to a fixed unit (05, R198). -/
  handed : Nat := 0
  /-- Flows allocated, with the job that holds each (R376). -/
  flows : Tbl Nat := []
  deriving DecidableEq, Repr
/-! ## Pipeline images and their runs -/

/-- A schema: TYPE and SCALE of each column (04, R148). -/
abbrev Schema := List (Nat × Nat)

/-- A row: one value for each column. -/
abbrev Row := List Value

/-- One column of a SCAN body (R152). `dirParam` is PARAM: 0 for none, or an index plus 1. -/
structure ScanColumn where
  dirAddr : Nat
  dirParam : Nat
  deliver : Bool
  longInline : Bool
  type : Nat
  scale : Nat
  deriving DecidableEq, Repr

/-- A predicate slot (03, R104); `unknown` when a literal it uses is bound to a NULL parameter (R179). -/
structure SlotPred where
  column : Nat
  op : Nat
  group : Nat
  negate : Bool
  lenA : Nat
  lenB : Nat
  litA : Bytes
  litB : Bytes
  unknown : Bool := false
  deriving DecidableEq, Repr

/-- One key of a SORT or MERGE body (R152). -/
structure SortKey where
  column : Nat
  desc : Bool
  nullsLast : Bool
  maxBytes : Nat
  deriving DecidableEq, Repr

/-- Stage bodies (R152). -/
inductive StageBody where
  | scan (columns : List ScanColumn) (slots : List SlotPred) (positions selection : Bool) (dest first stop : Nat)
      (bindings : List Nat)
  | fetch (dirAddr dirParam posColumn type scale : Nat) (longInline : Bool)
  | expr (users : List Nat)
  | exchange (broadcast : Bool) (keys : List Nat)
  | hashBuild (keys : List Nat) (ref expected : Nat)
  | hashProbe (keys : List Nat) (ref kind : Nat)
  | aggregate (keys : List Nat) (expected : Nat) (aggs : List (Nat × Nat))
  | sort (keys : List SortKey)
  | merge (keys : List SortKey) (limit : Nat)
  | lookup (binding : Nat) (keys : List Nat) (dropMiss : Bool)
  | pattern (binding column : Nat) (mark : Bool)
  | limit (offset count : Nat)
  | emit (set : Nat)
  deriving DecidableEq, Repr

/-- One stage (R150): header fields, the schemas of its output ports, its body and the body's place in the image. -/
structure Stage where
  kind : Nat
  instances : Nat
  priority : Nat
  inPorts : Nat
  outPorts : Nat
  schemas : List Schema
  entry : Nat
  groveStore : Nat
  bodyAt : Nat
  body : StageBody
  deriving DecidableEq, Repr

/-- One edge (R157) with the columns of its schema. -/
structure Edge where
  src : Nat
  port : Nat
  dst : Nat
  dstPort : Nat
  depth : Nat
  schema : Schema
  deriving DecidableEq, Repr

/-- An automata binding (R149) and its offset in the image. -/
structure AutoBind where
  kind : Nat
  tableId : Nat
  expected : Nat
  at_ : Nat
  deriving DecidableEq, Repr

/-- A parameter declaration (R147). -/
structure ParamDecl where
  type : Nat
  maxLength : Nat
  constPos : Nat
  deriving DecidableEq, Repr

/-- What an image holds (R145). -/
structure Image where
  length : Nat
  stages : List Stage
  edges : List Edge
  autos : List AutoBind
  params : List ParamDecl
  constAt : Nat
  constLength : Nat
  codeAt : Nat
  codeLength : Nat
  runtimeMin : Nat
  imageId : Nat
  deriving DecidableEq, Repr

/-- A batch in an edge queue of a consumer instance: its edge, and the producer instance it came from. -/
structure Arrived where
  edge : Nat
  producer : Nat
  batch : Batch
  deriving DecidableEq, Repr

/-- A finished batch with the consumer instances it goes to, as pairs of edge and instance (R164, R166). -/
structure Outgoing where
  targets : List (Nat × Nat)
  batch : Batch
  deriving DecidableEq, Repr

/-- A batch on its way through the mesh. -/
structure Flight where
  edge : Nat
  inst : Nat
  producer : Nat
  batch : Batch
  deriving DecidableEq, Repr

/-- State of one aggregate in a group record (05, R215): a count; an exact sum, if any value came; a float sum; a
value kept by MIN, MAX or ANY. -/
inductive AggState where
  | count (n : Nat)
  | sum (v : Option Int)
  | fsum (v : Option Nat)
  | keep (v : Option Value)
  deriving DecidableEq, Repr

/-- A group record: key values and one state for each aggregate. -/
structure Group where
  key : Row
  states : List AggState
  deriving DecidableEq, Repr

/-- One bucket of a table (05, R204): TAG and REF of each slot in use, at most 8 of them, and NEXT. -/
structure Bucket where
  slots : List (Nat × Nat) := []
  next : Nat := 0
  deriving DecidableEq, Repr

/-- A hash table (05, R204 to R206, R221): its B; its buckets, the array's and after them the overflow buckets, with
how many these are; the bytes of the records that it holds; and whether it lies in scratch. -/
structure HashTable where
  bits : Nat
  buckets : Tbl Bucket := []
  overflow : Nat := 0
  stored : Nat := 0
  scratch : Bool := false
  deriving DecidableEq, Repr

/-- A row of a join table's row store (05, R204, R210): its key values, the row, and its MATCHED bit. -/
structure BuildRow where
  key : Row
  row : Row
  matched : Bool := false
  deriving DecidableEq, Repr

/-- A row in a sort: its copy with the key values in line, and the row. -/
abbrev KeyedRow := Row × Row

/-- What an instance's unit holds between batches (05): a join table; a group table, its spill partitions, and whether
it has been full; a run of rows, and the runs written to scratch; the inputs of a merge by producer, and rows emitted;
rows LIMIT has still to skip and to pass; a batch in hand whose searches, texts, gathers or EXPR call are under way,
with the outcome of each row. -/
inductive Work where
  | idle
  | build (rows : List BuildRow) (table : HashTable) (done : Bool)
  | groups (groups : List Group) (table : HashTable) (spill : Tbl (List Row)) (full : Bool)
  | run (rows : List KeyedRow) (written : List (List KeyedRow))
  | merge (inputs : Tbl (List KeyedRow)) (emitted : Nat)
  | limit (skip pass : Nat)
  | inHand (batch : Arrived) (outcomes : List (Option Value))
  deriving DecidableEq, Repr

/-- What an instance goes back to when the core that ran its work item fails before DONEW (16, R662). -/
structure InstSave where
  lasts : List (Nat × Nat)
  seqs : Tbl Nat
  work : Work
  ended : Bool
  deriving DecidableEq, Repr

/-- A LOOKUP search waiting for its slot (R248). -/
structure Search where
  job : Nat
  stage : Nat
  inst : Nat
  row : Nat
  key : Nat
  tag : Nat
  deriving DecidableEq, Repr

/-- A text in a pattern engine (R282): what is left of it, the automaton's state, and whether that accepts. -/
structure Text where
  job : Nat
  stage : Nat
  inst : Nat
  row : Nat
  tag : Nat
  rest : Bytes
  state : Nat
  accept : Bool
  deriving DecidableEq, Repr

/-- One stage instance of a placed job (R180): its Pilot task and grove, its edge queue, the producers whose LAST it
has received, its finished batches, the SEQUENCE of each output port, the batches whose credit it will return, its
unit's state, and the extents of the scratch region that its unit holds (R167). -/
structure Inst where
  task : Nat := 0
  grove : Nat := 0
  queue : List Arrived := []
  lasts : List (Nat × Nat) := []
  out : List Outgoing := []
  seqs : Tbl Nat := []
  finished : List Nat := []
  work : Work := .idle
  ended : Bool := false
  /-- Batches finished with whose outputs wait for buffers (R167). -/
  owed : List Arrived := []
  areas : List (Nat × Nat) := []
  /-- Its place in the order in which Pilot has handed batches to the fixed units (05, R198). -/
  turn : Option Nat := none
  /-- While a work item of a stage that runs on cores is held: what to go back to, the batches taken, and how many of
  the last batches of `out` and of `finished` await DONEW (16, R662). Outside an item, the batch in the unit. -/
  before : Option InstSave := none
  taken : List Arrived := []
  heldOut : Nat := 0
  heldFin : Nat := 0
  /-- Searches and texts of the batch in hand beyond the 256 in flight (06, R250). -/
  searches : List Search := []
  texts : List Text := []
  deriving DecidableEq, Repr

/-- One column of a result set (R188): buffer addresses, data capacity and bytes used, and the bits of the last
validity and BOOL bytes that rows below ROWS_COMMITTED hold (R194). -/
structure EmitCol where
  validityAddr : Nat
  valuesAddr : Nat
  dataAddr : Nat
  dataCap : Nat
  dataUsed : Nat := 0
  vbits : Nat := 0
  bbits : Nat := 0
  deriving DecidableEq, Repr

/-- One result set of a run (R188, R190): its set record's host address, capacity, columns, rows committed, and
whether its EMIT has stopped or ended. -/
structure EmitSet where
  record : Nat
  capacity : Nat
  columns : List EmitCol
  rows : Nat := 0
  stopped : Bool := false
  /-- Edge, producer and SEQUENCE of the last batch committed (16, R662). -/
  recorded : Option (Nat × Nat × Nat) := none
  deriving DecidableEq, Repr

/-- A dictionary object as read (02, R50): its address, TYPE, DICT_COUNT, CHECK and entries. -/
structure DictObject where
  addr : Nat
  type : Nat
  count : Nat
  check : Nat
  entries : List Value
  deriving DecidableEq, Repr

/-- A RUN job from its start (R178) to its end. -/
structure Run where
  slot : Nat
  image : Image
  codeBase : Nat
  resultAddr : Nat
  scratchAddr : Nat
  scratchLength : Nat
  rowLimit : Nat
  timeLimit : Nat
  /-- Directory snapshots of each SCAN and FETCH stage, by stage number (R178 step 3). -/
  dirs : Tbl (List Directory) := []
  /-- Internal table tags of the automata bindings (R243). -/
  tags : List Nat := []
  sets : Tbl EmitSet := []
  /-- Placed, with the number of instances of each stage; a SCAN counts its scan tasks. -/
  placed : Bool := false
  counts : List Nat := []
  flow : Option Nat := none
  insts : Tbl Inst := []
  /-- Batches of credit used, by edge × 32 + consumer instance (R164). -/
  used : Tbl Nat := []
  mesh : List Flight := []
  /-- DEVICE_TIME when RUNNING began, or when the berth was last thawed (R183; 11, R474). -/
  started : BitVec 64 := 0
  /-- Dictionary objects verified in this job (02, R51). -/
  dicts : List DictObject := []
  deriving DecidableEq, Repr

/-! ## Quays -/

/-- One block of a scan group under way (03): read and perhaps still packed; `again` on the second pass over a large
VARLEN block (02, R73). -/
structure Hand where
  column : Nat
  index : Nat
  stored : Bytes
  inflating : Bool
  again : Bool := false
  deriving DecidableEq, Repr

/-- A decoded block that a task keeps: its header, the run ends of an RLE payload, the rows decoded so far where a block
is decoded from a row onward, the stripes decoded (R103), and its values. -/
structure KeptBlock where
  column : Nat
  index : Nat
  header : Bytes
  ends : List Nat := []
  upTo : Nat := 0
  decoded : List Nat := []
  values : List Value
  deriving DecidableEq, Repr

/-- A group of stripes covered by one anchor block (R99): the stripes that the task has opened, the headers read, the
stripes still candidates, the decoded blocks, the block in hand, the long values read, and the stripe that was finished
while the job was stopping (R135, R137). -/
structure ScanGroup where
  stripes : List Nat
  cands : List Nat
  headers : List (Nat × Nat × Bytes) := []
  values : List KeptBlock := []
  hand : Option Hand := none
  longs : List (Nat × Nat × Bytes) := []
  spent : Option Nat := none
  deriving DecidableEq, Repr

/-- A scan task (R94 to R97): one subchannel's share of a SCAN stage. -/
structure ScanTask where
  job : Nat
  stage : Nat
  sub : Nat
  /-- Handed to a quay (R95). -/
  active : Bool := false
  /-- Stripes not yet in a finished batch; batches finished and not yet sent, the last of a stripe with its number;
  delivery watermark (R139). -/
  stripes : List Nat := []
  group : Option ScanGroup := none
  ready : List (Option Nat × Outgoing) := []
  watermark : Nat := 0
  /-- SEQUENCE of the next batch sent. -/
  seq : Nat := 0
  lastBuilt : Bool := false
  balance : Nat := 0
  deriving DecidableEq, Repr

/-- One quay: STATE (R143), and the subchannel whose turn it is while it serves a pair (R138). -/
structure Quay where
  state : BitVec 3 := 0
  turn : Nat := 0
  /-- It has failed, or left for self-test, and its buddy has not yet taken over its scan tasks (R140). -/
  handing : Bool := false
  /-- Tasks whose packed blocks wait for a lane or are in one, oldest first (R120). -/
  lanes : List Nat := []
  deriving DecidableEq, Repr

/-! ## Canopy -/

/-- One entry position (06, R237, R272): VALUE and MASK as 160-bit numbers whose most significant bit is that of K0,
RESULT, internal table tag (0xFFFF for none) and the valid mark. -/
structure CEntry where
  value : Nat := 0
  mask : Nat := 0
  result : Nat := 0
  tag : Nat := 0xFFFF
  valid : Bool := false
  deriving DecidableEq, Repr

/-- States of a table (R246). -/
inductive CState where
  | loading
  | ready
  | dropping
  | unavailable
  deriving DecidableEq, Repr

/-- One slot's work on a copy of a table (R255, R257), places counted from the start of its range: copy an entry,
write an entry, clear a valid mark, rewrite RESULT. -/
inductive MicroOp where
  | copy (src dst : Nat)
  | write (pos : Nat) (e : CEntry)
  | delete (pos : Nat)
  | setResult (pos result : Nat)
  deriving DecidableEq, Repr

/-- One logical table (R242 to R246). `home` and `mirror` are the first positions of its copies, each bank × 32,768 +
place. -/
structure CTable where
  berth : Fin 512
  id : Nat
  pattern : Bool
  state : CState := .ready
  capacity : Nat
  fields : List (Nat × Nat) := []
  mirrorAsked : Bool := false
  home : Nat := 0
  mirror : Option Nat := none
  startState : Nat := 0
  startAccepts : Bool := false
  states : Nat := 0
  measurement : Bytes := []
  /-- PATTERN_ID of a pattern image. -/
  patternId : Nat := 0
  /-- RUN jobs bound to it, and the DROP job that waits for them. -/
  users : List Nat := []
  dropJob : Option Nat := none
  /-- The CANOPY_UPDATE jobs in order of acceptance with the index of their next record and the records from it on
  (R259), and the slots still to come of the record in hand, marked where they concern the mirror (R258). -/
  updates : List (Nat × Nat × List Bytes) := []
  ops : List (Bool × MicroOp) := []
  /-- The place excluded from searches of one copy during a shift (R256). -/
  excluded : Option (Bool × Nat) := none
  deriving DecidableEq, Repr

/-- A search that has had its slot: HIT, MULTI_MATCH and RESULT (R241). -/
structure Flying where
  search : Search
  hit : Bool
  multi : Bool
  result : Nat
  deriving DecidableEq, Repr

/-- One Canopy bank: STATE (R287), the parity scan's next position, an entry found in parity error (R274), searches
waiting and in flight, texts, and the deficit round robin of R248. -/
structure Bank where
  state : BitVec 3 := 0
  scan : Nat := 0
  bad : Option Nat := none
  waiting : List Search := []
  flying : List Flying := []
  texts : List Text := []
  balance : Tbl Nat := []
  lastTag : Nat := 0
  /-- DEVICE_TIME of the parity errors of the last second (16, R684). -/
  errorTimes : List Nat := []
  deriving DecidableEq, Repr

/-- Canopy: entries as the banks hold them, by bank × 32,768 + place, tables by internal tag, banks. The shadow of the
entries lies in device memory (R272). -/
structure Canopy where
  entries : Tbl CEntry := []
  tables : Tbl CTable := []
  banks : Tbl Bank := []
  nextTag : Nat := 1
  deriving DecidableEq, Repr


/-! ## The machine -/

/-- Why a step can stop with a fault. No command of this model raises one: every error the spec describes is an
effect on the state. -/
inductive Fault where
  /-- Raised by nothing: the block has no stop of its own. Safe. -/
  | noFault
  deriving DecidableEq, Repr

/-- Why a command can be refused. -/
inductive Refusal where
  /-- The command has no meaning in this model. Raised by an arm of exec that is not modelled. Safe. -/
  | notModelled (mnemonic : String)
  deriving DecidableEq, Repr

/-- The state of the module. -/
structure State where
  /-- Commands that wait, first in, first out. -/
  pending : List Instr := []
  sys : Sys := {}
  present : Present := {}
  mram : Mram := {}
  flash : Flash := {}
  log : LogQueue := {}
  fw : Firmware := {}
  manifest : Manifest := {}
  spdm : Spdm := {}
  pcie : Pcie := {}
  host : HostSide := {}
  counters : Tbl Counters := []
  dict : Dict := {}
  can : CanNode := {}
  bist : SelfTest := {}
  dev : DevMem := {}
  violations : List Violation := []
  /-- Queues by number; the manager queue is 4096, always present, and DISABLED at RESET (10, R443). -/
  queues : Tbl Queue := [(4096, { state := .disabled })]
  jobs : Tbl Job := []
  nextJob : Nat := 1
  berths : Tbl Berth := []
  eng : Engines := {}
  /-- Grove cores 0 to 127; the Harbourmaster is 128. -/
  cores : Tbl Core := []
  pilot : Pilot := {}
  /-- RUN jobs from their start on, by job number. -/
  runs : Tbl Run := []
  scans : Tbl ScanTask := []
  nextScan : Nat := 0
  quays : Tbl Quay := []
  canopy : Canopy := {}
  deriving DecidableEq, Repr

/-- The machine right after reset. -/
def State.reset : State := {}

end Sys2Proof.Machine
end

