-- ==== Sys2Proof/Machine/Ops.lean ====
section
/-! DEFINITION. The named operations that every family of commands shares: records of the Heartwood log, event
sources and MSI-X, counters, EMCY messages, the Manifest registers, changes of mode, and host memory. -/

namespace Sys2Proof.Machine

/-! ## Updates of one part of the state -/

def onSys (f : Sys → Sys) (s : State) : State := { s with sys := f s.sys }
def onPresent (f : Present → Present) (s : State) : State := { s with present := f s.present }
def onMram (f : Mram → Mram) (s : State) : State := { s with mram := f s.mram }
def onFlash (f : Flash → Flash) (s : State) : State := { s with flash := f s.flash }
def onLog (f : LogQueue → LogQueue) (s : State) : State := { s with log := f s.log }
def onFw (f : Firmware → Firmware) (s : State) : State := { s with fw := f s.fw }
def onManifest (f : Manifest → Manifest) (s : State) : State := { s with manifest := f s.manifest }
def onSpdm (f : Spdm → Spdm) (s : State) : State := { s with spdm := f s.spdm }
def onPcie (f : Pcie → Pcie) (s : State) : State := { s with pcie := f s.pcie }
def onHost (f : HostSide → HostSide) (s : State) : State := { s with host := f s.host }
def onDict (f : Dict → Dict) (s : State) : State := { s with dict := f s.dict }
def onCan (f : CanNode → CanNode) (s : State) : State := { s with can := f s.can }
def onBist (f : SelfTest → SelfTest) (s : State) : State := { s with bist := f s.bist }
def onDev (f : DevMem → DevMem) (s : State) : State := { s with dev := f s.dev }
def onEng (f : Engines → Engines) (s : State) : State := { s with eng := f s.eng }

/-- The queue of that number; 4,096 is the manager queue (R443). -/
def getQ (s : State) (q : Nat) : Queue := tblGet {} s.queues q
def onQ (q : Nat) (f : Queue → Queue) (s : State) : State := { s with queues := tblMod {} s.queues q f }
def getCore (s : State) (c : Nat) : Core := tblGet {} s.cores c
def onCore (c : Nat) (f : Core → Core) (s : State) : State := { s with cores := tblMod {} s.cores c f }
/-- The berth of that number. -/
def getB (s : State) (b : Nat) : Berth := tblGet {} s.berths b
def onB (b : Nat) (f : Berth → Berth) (s : State) : State := { s with berths := tblMod {} s.berths b f }
/-- The job of that number, while it is not final. -/
def getJ (s : State) (j : Nat) : Option Job := tblFind s.jobs j
def onJ (j : Nat) (f : Job → Job) (s : State) : State :=
  match tblFind s.jobs j with
  | none => s
  | some x => { s with jobs := tblSet s.jobs j (f x) }

/-- Number of the next free value, and the state that has used it. -/
def takeFresh (s : State) : Nat × State := (s.sys.fresh, onSys (fun y => { y with fresh := y.fresh + 1 }) s)

/-! ## Modes and time -/

/-- Mode codes (R27); RESET has none and reads as 0. -/
def Mode.code : Mode → Nat
  | .reset => 0
  | .boot => 1
  | .maintenance => 2
  | .service => 3
  | .degraded => 4
  | .hold => 5

/-- SERVICE or DEGRADED: berth queues are fetched (R27). -/
def serving (s : State) : Bool := s.sys.mode == .service || s.sys.mode == .degraded

/-- The module makes host writes and sends messages: not in RESET or HOLD (R30). -/
def hostActive (s : State) : Bool := !(s.sys.mode == .reset || s.sys.mode == .hold)

/-- Calendar time as entry 0x2050:01 and every Heartwood TIME carry it (R607). -/
def calendarNow (s : State) : BitVec 64 :=
  match s.sys.calendar with
  | some us => BitVec.ofNat 64 (us / 1000)
  | none => BitVec.ofNat 64 (2 ^ 63 + s.sys.upUs / 1000)

/-! ## Counters (R13 to R17) -/

/-- How many counters of each class a block has, in the order of its overflow register: SATURATE 64, SATURATE 32,
EVENT 48. -/
def blockShape : CounterBlock → Nat × Nat × Nat
  | .quay _ => (10, 7, 4)
  | .canopy _ => (6, 2, 2)
  | .pilot => (6, 3, 3)
  | .memory _ => (4, 7, 3)
  | .cranes => (5, 4, 3)
  | .compression _ => (5, 1, 1)
  | .digest => (3, 4, 1)
  | .queue _ => (5, 2, 0)

/-- Place of a block's counters in the state. -/
def blockKey : CounterBlock → Nat
  | .quay q => q.val
  | .canopy b => 32 + b.val
  | .pilot => 48
  | .memory s => 64 + s.val
  | .cranes => 96
  | .compression e => 97 + e.val
  | .digest => 101
  | .queue q => 128 + q.val

/-- Event source that a wrap of an EVENT counter raises (R448, R531, R580). -/
def blockSource : CounterBlock → Option Nat
  | .quay q => some (1536 + q.val)
  | .canopy b => some (1568 + b.val)
  | .pilot => some 1584
  | .memory s => some (1608 + s.val)
  | .cranes => some 1640
  | .compression e => some (1641 + e.val)
  | .digest => some 1645
  | .queue _ => none

/-- Number of counters of a block. -/
def blockSize (b : CounterBlock) : Nat := (blockShape b).1 + (blockShape b).2.1 + (blockShape b).2.2

/-- Set a bit of a word. -/
def setBit {w : Nat} (v : BitVec w) (i : Nat) (b : Bool) : BitVec w :=
  if b then v ||| (1#w <<< i) else v &&& ~~~(1#w <<< i)

/-- Largest value of counter `i` of a block (R13). -/
def counterMax (b : CounterBlock) (i : Nat) : Nat :=
  if i < (blockShape b).1 then 2 ^ 64 - 1
  else if i < (blockShape b).1 + (blockShape b).2.1 then 2 ^ 32 - 1
  else 2 ^ 48 - 1

/-- Counter `i` of a block is an EVENT counter. -/
def isEvent (b : CounterBlock) (i : Nat) : Bool := decide ((blockShape b).1 + (blockShape b).2.1 ≤ i)

/-- A counter's value. -/
def counterVal (s : State) (b : CounterBlock) (i : Nat) : Nat := tblGet 0 (tblGet {} s.counters (blockKey b)).vals i

/-- `n` counts of counter `i`: the block after them, and whether an EVENT counter wrapped (R13). -/
def countIn (b : CounterBlock) (i n : Nat) (c : Counters) : Counters × Bool :=
  let v := tblGet 0 c.vals i + n
  let m := counterMax b i
  if v ≤ m then ({ c with vals := tblSet c.vals i v }, false)
  else if isEvent b i then
    ({ vals := tblSet c.vals i (v % (m + 1)), ovf := setBit c.ovf i true }, true)
  else ({ vals := tblSet c.vals i m, ovf := setBit c.ovf i true }, false)

/-! ## Event sources and MSI-X -/

/-- Send the message of a vector, or hold it by its mask (R447); while the link is down it is discarded (R396). -/
def sendMsix (v : Nat) (s : State) : State :=
  let e := tblGet {} s.pcie.msix v
  if e.masked || s.pcie.functionMask || !s.pcie.msixEnable then
    onPcie (fun p => { p with msixPending := tblSet p.msixPending v true }) s
  else if s.pcie.linkUp then onPcie (fun p => { p with msixSent := v :: p.msixSent }) s
  else s

/-- Signal a vector: never in HOLD (R30); in D3hot the message waits (R395). -/
def signalVector (v : Nat) (s : State) : State :=
  if !(hostActive s) then s
  else if s.pcie.d3hot then onPcie (fun p => { p with msixHeld := p.msixHeld ++ [v] }) s
  else sendMsix v s

/-- Raise an event source (R450). -/
def raiseSource (n : Nat) (s : State) : State :=
  let was := tblGet false s.pcie.esPending n
  let s1 := onPcie (fun p => { p with esPending := tblSet p.esPending n true }) s
  let st := tblGet 0 s.pcie.esSteer n
  if !was && st.getLsbD 15 then signalVector (st.toNat % 2048) s1 else s1

/-- `n` counts of a counter, with the source its wrap raises. -/
def count (b : CounterBlock) (i n : Nat) (s : State) : State :=
  if n = 0 then s
  else
    let r := countIn b i n (tblGet {} s.counters (blockKey b))
    let s1 := { s with counters := tblSet s.counters (blockKey b) r.1 }
    if r.2 then
      match blockSource b with
      | some e => raiseSource e s1
      | none => s1
    else s1

/-! ## Heartwood log -/

/-- CRC-16 with polynomial 0x1021, initial value 0xFFFF, no reflection (R673). -/
def crc16 (b : Bytes) : BitVec 16 :=
  b.foldl (fun c x =>
    Nat.repeat (fun (c : BitVec 16) => if c.getLsbD 15 then (c <<< 1) ^^^ 0x1021 else c <<< 1) 8
      (c ^^^ (BitVec.ofNat 16 (x.toNat * 256)))) 0xFFFF

/-- The first 31 bytes of a record as it stands in a slot (R672). -/
def recordBody (seq : BitVec 32) (r : HwRecord) : Bytes :=
  let b := natLe 4 seq.toNat ++ natLe 8 r.time.toNat ++ natLe 2 r.code.toNat ++ natLe 2 r.source.toNat ++
    natLe 4 r.p0.toNat ++ natLe 4 r.p1.toNat ++ natLe 4 r.p2.toNat
  b ++ natLe 2 (crc16 b).toNat ++ [0x01]

/-- The 32 bytes of a valid record. -/
def recordBytes (seq : BitVec 32) (r : HwRecord) : Bytes := recordBody seq r ++ [0x5A]

/-- Number of slots of the log. -/
def logSlots : Nat := 131072

/-- One count more in DROPPED, SATURATE 32. -/
def dropRecord (m : Mram) : Mram :=
  { m with dropped := if m.dropped = 0xFFFFFFFF then m.dropped else m.dropped + 1 }

/-- The SEQUENCE that a record raised now will carry (R676). -/
def nextSequence (s : State) : BitVec 32 :=
  s.mram.baseSequence + BitVec.ofNat 32 (s.log.next + s.log.queue.length)

/-- The record of an event with the time of the event (R677). -/
def makeRecord (code source p0 p1 p2 : Nat) (s : State) : HwRecord :=
  { time := calendarNow s, code := BitVec.ofNat 16 code, source := BitVec.ofNat 16 source, p0 := BitVec.ofNat 32 p0,
    p1 := BitVec.ofNat 32 p1, p2 := BitVec.ofNat 32 p2 }

/-- Queue a record for the log (R677), or count it dropped when the log is full (R680) or the queue is. -/
def queueRecord (r : HwRecord) (s : State) : State :=
  if s.mram.logFull then onMram dropRecord s
  else if 1024 ≤ s.log.queue.length then onLog (fun l => { l with lost := l.lost + 1 }) (onMram dropRecord s)
  else onLog (fun l => { l with queue := l.queue ++ [r] }) s

/-- Raise a Heartwood record. -/
def logRecord (code source p0 p1 p2 : Nat) (s : State) : State := queueRecord (makeRecord code source p0 p1 p2 s) s

/-! ## EMCY -/

/-- Bit of the error register that an EMCY code sets (R605). -/
def emcyBit (code : Nat) : Nat :=
  match code with
  | 0x3100 => 2
  | 0x4200 => 3
  | 0x6100 => 0
  | 0x8110 => 4
  | 0x8120 => 4
  | 0x8140 => 4
  | _ => 7

/-- A frame leaves the node. -/
def canSend (f : CanFrame) (s : State) : State := onCan (fun c => { c with sent := f :: c.sent }) s

/-- INHIBIT_EMCY as written; its default is 100 (R587). -/
def inhibitTime (s : State) : Nat := tblGet 100 s.dict.settings (0x1015 * 256)

/-- The node sends an EMCY frame: at once, or behind the inhibit time, after INITIALISATION or after bus-off; in STOPPED
and before Tisum it is lost (R602, R605). -/
def emcyFrame (f : CanFrame) (s : State) : State :=
  if s.can.nmt = .preOperational ∨ s.can.nmt = .operational then
    if s.can.inhibited ∨ s.can.busOff then onCan (fun c => { c with emcyHeld := c.emcyHeld ++ [f] }) s
    else onCan (fun c => { c with inhibited := decide (inhibitTime s ≠ 0) }) (canSend f s)
  else if s.can.nmt = .initialisation then onCan (fun c => { c with emcyHeld := c.emcyHeld ++ [f] }) s
  else s

/-- The eight bytes of an EMCY message (R605). -/
def emcyBytes (s : State) (code hwCode source : Nat) : Bytes :=
  natLe 2 code ++ natLe 1 s.can.errorRegister.toNat ++ natLe 2 hwCode ++ natLe 2 source ++ natLe 1 s.sys.mode.code

/-- Send an EMCY code and enter it in the predefined error field (R587, R605). -/
def emcySend (code hwCode source : Nat) (s : State) : State :=
  let s1 := if code = 0 then s
    else onDict (fun d => { d with errors := (BitVec.ofNat 32 (code + hwCode * 65536) :: d.errors).take 8 }) s
  emcyFrame ⟨0x80 + s.can.nodeId.toNat, emcyBytes s code hwCode source⟩ s1

/-- An event of R605 whose condition lasts. -/
def emcyRaise (code hwCode source : Nat) (s : State) : State :=
  emcySend code hwCode source (onCan (fun c =>
    { c with errorRegister := setBit c.errorRegister (emcyBit code) true,
             conditions := if c.conditions.contains (BitVec.ofNat 16 code) then c.conditions
               else BitVec.ofNat 16 code :: c.conditions }) s)

/-- An event of R605 that is over as soon as it is reported. -/
def emcyOnce (code hwCode source : Nat) (s : State) : State :=
  let old := s.can.errorRegister
  onCan (fun c => { c with errorRegister := old })
    (emcySend code hwCode source (onCan (fun c =>
      { c with errorRegister := setBit c.errorRegister (emcyBit code) true }) s))

/-- The condition of a code ends: code 0x0000 once no condition of the same register bit remains (R605). -/
def emcyClear (code hwCode source : Nat) (s : State) : State :=
  if s.can.conditions.contains (BitVec.ofNat 16 code) then
    let rest := s.can.conditions.filter (fun c => !(c == BitVec.ofNat 16 code))
    let s1 := onCan (fun c => { c with conditions := rest }) s
    if rest.any (fun c => emcyBit c.toNat == emcyBit code) then s1
    else emcySend 0 hwCode source
      (onCan (fun c => { c with errorRegister := setBit c.errorRegister (emcyBit code) false }) s1)
  else s

/-! ## Manifest registers -/

/-- A Manifest register's 48 bytes; zero at RESET (R631). -/
def manifestReg (s : State) (k : Nat) : Bytes := tblGet (List.replicate 48 0) s.manifest.regs k

/-- Extend Mk with a digest (R632), and for M1 to M12 append to the boot event log (R633). -/
def extend (k : Nat) (d : Bytes) (code : BitVec 16) (s : State) : State :=
  onManifest (fun m =>
    let regs := tblSet m.regs k (sha384 (manifestReg s k ++ d))
    if k = 0 then { m with regs := regs }
    else
      let r : Bytes := natLe 1 k ++ [0, 0, 0] ++ natLe 4 m.eventCount.toNat ++ natLe 2 code.toNat ++
        List.replicate 6 0 ++ padTo 48 d
      { regs := regs, eventCount := m.eventCount + 1,
        events := if m.events.length < 256 then m.events ++ [r] else m.events }) s

/-! ## Lands and changes of mode -/

/-- The states of the lands (R703). -/
def syncPins (s : State) : State :=
  onSys (fun y =>
    let run := decide (y.mode ≠ .reset)
    { y with pins :=
      { tx := if run && s.pcie.linkUp then .active else .idle
        clkreqN := if run && !s.pcie.refclkSris then .low else .released
        wakeN := .released
        pgOut := if run then .high else .highZ
        thermN := if run && decide (y.thermal ≠ 0) then .low else .released
        can := if !y.railsUp then .busNeutral else if run && y.tisum then .active else .recessive
        tapUsable := run
        vrefJtag := if y.railsUp then .high else .low } }) s

/-- Enter a mode from BOOT onward: record 0x0001 with the cause, event source 1651 (R642). -/
def setMode (m : Mode) (cause : Nat) (s : State) : State :=
  raiseSource 1651 (syncPins (onSys (fun y => { y with mode := m })
    (logRecord 0x0001 0 s.sys.mode.code m.code cause s)))

/-! ## Host memory -/

/-- The PASID key of a berth's host requests; requests of the manager context carry none (R392, R393). -/
def hostKey (s : State) : Option (Fin 512) → Nat
  | none => 0
  | some b => (getB s b.val).pasid.toNat + 1

/-- Place of a host byte: addresses are 64 bits wide and never leave their PASID. -/
def hostCell (key addr : Nat) : Nat := 2 ^ 64 * key + addr % 2 ^ 64

/-- One host byte. What the host has never written reads zero. -/
def hostByte (s : State) (key addr : Nat) : Byte := memGet 0 s.host.mem (hostCell key addr)

/-- `n` host bytes. -/
def hostBytes (s : State) (key addr n : Nat) : Bytes := (List.range n).map (fun i => hostByte s key (addr + i))

/-- Store bytes in host memory. -/
def storeHost (key : Nat) : Nat → Bytes → List Host.Cell → List Host.Cell
  | _, [], m => m
  | addr, b :: t, m => storeHost key (addr + 1) t (memSet 0 m (hostCell key addr) b)

/-- The host's own doings up to now: what it wrote, and which reads will fail. -/
def hostSync (h : HostView) (s : State) : State :=
  onHost (fun x => { mem := h.writes.foldl (fun m w => storeHost w.1 w.2.1 w.2.2 m) x.mem,
                     faults := x.faults ++ h.faults }) s

/-- A host write as it reaches the host's memory. -/
def putHost (key addr : Nat) (data : Bytes) (s : State) : State :=
  onHost (fun x => { x with mem := storeHost key addr data x.mem }) s

/-- The 4 KiB pages a write touches. -/
def pagesOf (addr n : Nat) : List Nat :=
  (List.range ((addr + n - 1) / 4096 - addr / 4096 + 1)).map (fun i => addr / 4096 + i)

/-- Size of the dirty-log ring (R482). -/
def DirtyLog.size (d : DirtyLog) : Nat := 2 ^ d.ringOrder

/-- Records the ring has room for. -/
def DirtyLog.space (d : DirtyLog) : Nat := d.size - (d.prod - d.cons).toNat

/-- One dirty record: written after the host write it covers, then PROD (R481, R482). -/
def dirtyRecord (b : Nat) (page : Nat) (s : State) : State :=
  let d := (getB s b).dirty
  let i := d.prod.toNat
  let phase := if bitOf i d.ringOrder then 0 else 1
  let s1 := putHost 0 (d.ringAddr + 8 * (i % d.size)) (natLe 8 (page * 4096 + phase)) s
  let s2 := putHost 0 (d.indexAddr + 0x40) (natLe 4 (i + 1)) s1
  onB b (fun x => { x with dirty := { x.dirty with
    prod := x.dirty.prod + 1,
    filter := (x.dirty.filter ++ [page]).drop (x.dirty.filter.length + 1 - 1024) } }) s2

/-- A host write made on a berth's PASID, with its dirty records (R481); with the ring full it waits and source
3b + 2 is raised (R484). -/
def berthWrite (b : Nat) (addr : Nat) (data : Bytes) (s : State) : State :=
  let d := (getB s b).dirty
  let key := (getB s b).pasid.toNat + 1
  if !d.running ∧ d.held = [] then putHost key addr data s
  else
    let pages := (pagesOf addr data.length).filter (fun p => !(d.filter.contains p))
    let wait : State := onB b (fun x => { x with dirty := { x.dirty with held := x.dirty.held ++ [⟨key, addr, data⟩] } }) s
    if !d.running then wait
    else if d.held ≠ [] ∨ d.space = 0 ∨ d.space < pages.length then raiseSource (3 * b + 2) wait
    else pages.foldl (fun s p => dirtyRecord b p s) (putHost key addr data s)

/-- A host write of the module: none in HOLD (R30); discarded while the link is down (R396); held in D3hot
(R395). -/
def hostWrite (b : Option (Fin 512)) (addr : Nat) (data : Bytes) (s : State) : State :=
  if !(hostActive s) || !s.pcie.linkUp || data.isEmpty then s
  else if s.pcie.d3hot then
    onPcie (fun p => { p with held := p.held ++ [⟨hostKey s b, addr, data⟩] }) s
  else match b with
    | none => putHost 0 addr data s
    | some b => berthWrite b.val addr data s

/-- The first byte needed from a range whose read fails. -/
def faultAt (key addr n : Nat) (f : HostFault) : Option Nat :=
  if f.key = key ∧ f.lo < addr + n ∧ addr < f.hi ∧ 0 < n then some (max f.lo addr) else none

/-- Attempts made on a range whose reads time out: three at most (R452). -/
def retriesOf (f : HostFault) : Nat := if f.kind = .timeout then min f.times 2 else 0

/-- The range fails for good: no retry helps, or all three attempts time out. -/
def failsFor (f : HostFault) : Bool := if f.kind = .timeout then decide (3 ≤ f.times) else true

/-- A read of host memory: its bytes, or the host address of the first byte needed from the failing request (R452).
Time-outs are used up by the attempts, and each retry is counted in RETRIES, whatever unit reads (R552, DEDUCED). -/
def hostRead (b : Option (Fin 512)) (addr n : Nat) (s : State) : Except Nat Bytes × State :=
  let key := hostKey s b
  let hit := s.host.faults.filter (fun f => (faultAt key addr n f).isSome)
  let bad := hit.filter failsFor
  let first := findMin (fun f => (faultAt key addr n f).getD 0) bad
  let keep := s.host.faults.filter (fun f => !((faultAt key addr n f).isSome) || !(f.kind == .timeout))
  let left := (hit.filter (fun f => f.kind == .timeout && decide (3 < f.times))).map
    (fun f => { f with times := f.times - 3 })
  let s1 := onHost (fun x => { x with faults := keep ++ left }) s
  let s2 := count .cranes 7 ((hit.map retriesOf).sum) s1
  match first with
  | some f => (.error ((faultAt key addr n f).getD addr), s2)
  | none => (.ok (hostBytes s key addr n), s2)

/-- Host reads wait: D3hot (R395), or the link is down. -/
def hostBlocked (s : State) : Bool := s.pcie.d3hot || !s.pcie.linkUp || !(hostActive s)

end Sys2Proof.Machine
end

