-- ==== Sys2Proof/Machine/DevMemory.lean ====
section
/-! DEFINITION. On-module memory (12_dram.md): the address map, the interleave, granule ownership, zero-fill on first
touch, error correction and poison, and the two operations through which every agent reads and writes it. -/

namespace Sys2Proof.Machine

/-! ## Canonical form -/

/-- Device memory in canonical form, and no recorded write later than the present instant. -/
abbrev devWf (d : DevMem) : Prop := memWf 0 d.mem ∧ ∀ e ∈ d.history, e.1 ≤ d.now

/-- The memories of the module and of the host are in canonical form: device memory and host memory with 0 as what an
unlisted byte reads as, the two firmware banks with 0xFF. -/
abbrev memoriesWf (s : State) : Prop :=
  devWf s.dev ∧ memWf 0 s.host.mem ∧ memWf 0xFF s.flash.bankA ∧ memWf 0xFF s.flash.bankB

/-! ## The address map (R491, R498) -/

def gib : Nat := 2 ^ 30

/-- Numbers of the set bits of a word, rising. -/
def bitList {w : Nat} (v : BitVec w) : List Nat := (List.range w).filter v.getLsbD

/-- Number of set bits. -/
def popCount {w : Nat} (v : BitVec w) : Nat := (bitList v).length

/-- The present subchannels in ascending order. -/
def presentSubs (s : State) : List Nat := bitList s.present.subchannels

/-- Size of the interleaved window. -/
def interBytes (s : State) : Nat := gib * ((presentSubs s).length * s.dev.shareGib)

/-- Size of one quay-local window. -/
def localBytes (s : State) : Nat := gib * (32 - s.dev.shareGib)

/-- Size of installed memory. -/
def installedBytes (s : State) : Nat := gib * ((presentSubs s).length * 32)

/-- Base of the device register space, and its end (R491). -/
def regBase : Nat := 0x20000000000
def regEnd : Nat := 0x20100000000

/-- Base of the device reserve: the last 1 GiB of the interleaved window (R491, R495). -/
def reserveBase (s : State) : Nat := gib * ((presentSubs s).length * s.dev.shareGib - 1)

/-- What lies at a device physical address (R491). -/
inductive Window where
  | interleaved
  | quayLocal (sub : Nat)
  | registers
  | none
  deriving DecidableEq, Repr

/-- The window an address lies in. -/
def windowOf (s : State) (a : Nat) : Window :=
  if a < interBytes s then .interleaved
  else if a < installedBytes s then
    .quayLocal ((presentSubs s).getD ((a - interBytes s) / localBytes s) 0)
  else if regBase ≤ a ∧ a < regEnd then .registers
  else .none

/-- Base of the quay-local window of a present subchannel (R491). -/
def localBase (s : State) (sub : Nat) : Nat :=
  interBytes s + (presentSubs s).idxOf sub * localBytes s

/-- Exclusive-or of the 5-bit fields of a chunk row (R498). -/
def rotation (r : Nat) : Nat := (List.range 13).foldl (fun x i => x ^^^ (r >>> (5 * i)) % 32) 0

/-- The subchannel and the local address of a memory address (R492, R498). -/
def locate (s : State) (a : Nat) : Nat × Nat :=
  let n := (presentSubs s).length
  if a < interBytes s then
    let c := a / 256
    let r := c / n
    ((presentSubs s).getD ((c % n + rotation r) % n) 0, r * 256 + a % 256)
  else
    let x := a - interBytes s
    ((presentSubs s).getD (x / localBytes s) 0, gib * s.dev.shareGib + x % localBytes s)

/-- Pieces of an access that stay within one 256-byte chunk. -/
def chunkPieces : Nat → Nat → Nat → List (Nat × Nat)
  | 0, _, _ => []
  | fuel + 1, a, n =>
    if n = 0 then []
    else
      let k := min n (256 - a % 256)
      (a, k) :: chunkPieces fuel (a + k) (n - k)

/-- The pieces of an access of `n` bytes at `a`. -/
def piecesOf (a n : Nat) : List (Nat × Nat) := chunkPieces (n / 256 + 2) a n

/-- Numbers of the `size`-byte units that `n` bytes at `a` touch. -/
def unitsOf (size a n : Nat) : List Nat :=
  if n = 0 then [] else (List.range ((a + n - 1) / size - a / size + 1)).map (fun i => a / size + i)

/-- Granules of 2 MiB and lines of 64 bytes. -/
def granuleBytes : Nat := 0x200000
def granulesOf (a n : Nat) : List Nat := unitsOf granuleBytes a n
def linesOf (a n : Nat) : List Nat := unitsOf 64 a n

/-! ## Ownership (R499 to R503) -/

/-- The ownership entry of a granule; the granules of the device reserve are device-owned and filled (R495,
R507). -/
def ownOf (s : State) (g : Nat) : OwnEntry :=
  if reserveBase s ≤ granuleBytes * g ∧ granuleBytes * g < interBytes s then ⟨.device, true, false, false⟩
  else tblGet {} s.dev.own g

def setOwn (g : Nat) (e : OwnEntry) (s : State) : State := onDev (fun d => { d with own := tblSet d.own g e }) s

/-- An access with that tag passes (R501). -/
def tagPasses (tag : Option (Fin 512)) (write : Bool) (e : OwnEntry) : Bool :=
  match tag with
  | none => true
  | some b => decide (e.owner = .berth b) && (!e.image || !write)

/-- Outcome of an access to device memory. -/
inductive DevResult where
  | ok (data : Bytes)
  | violation (addr : Nat)
  | noMemory (addr : Nat)
  | poisoned (line : Nat)
  | noAnswer (addr : Nat)
  deriving DecidableEq, Repr

/-- The first byte of an access at which it does not pass: by ownership (R501), or outside memory (R493). -/
def firstRefused (s : State) (tag : Option (Fin 512)) (write : Bool) (a n : Nat) : Option Nat :=
  match (granulesOf a (min n (installedBytes s - a))).find? (fun g => !(tagPasses tag write (ownOf s g))) with
  | some g => some (max a (granuleBytes * g))
  | none => if installedBytes s < a + n then some (max a (installedBytes s)) else none

/-- The answer to an access that does not pass: a berth's is a violation, the device's an error answer (R493). -/
def refusal (s : State) (tag : Option (Fin 512)) (write : Bool) (a n : Nat) : Option DevResult :=
  match firstRefused s tag write a n with
  | none => none
  | some x => some (match tag with
    | some _ => .violation x
    | none => .noMemory x)

/-! ## Zero-fill (R504, R505) -/

/-- Subchannels that hold a granule. -/
def granuleSubs (s : State) (g : Nat) : List Nat :=
  if granuleBytes * g < interBytes s then presentSubs s else [(locate s (granuleBytes * g)).1]

/-- One count for a subchannel's counter. -/
def countMem (sub i n : Nat) (s : State) : State := count (.memory (Fin.ofNat 32 sub)) i n s

/-- A granule's zero-fill ends: INIT is set, every line reads zero with valid check bytes (R505). -/
def fillGranule (g : Nat) (s : State) : State :=
  let e := ownOf s g
  let s1 := setOwn g { e with init := true, filling := false } s
  let s2 := onDev (fun d => { d with
    poison := d.poison.filter (fun l => !(decide (l / 32768 = g))),
    parts := tblErase d.parts g }) s1
  (granuleSubs s g).foldl (fun s x => countMem x 3 1 s) s2

/-- The zero-fills that an access starts or waits for (R504). -/
def touchGranules (a n : Nat) (s : State) : State :=
  (granulesOf a n).foldl (fun s g => if (ownOf s g).init then s else fillGranule g s) s

/-! ## Error correction (R520, R521, R525) -/

def getSub (s : State) (x : Nat) : Subchannel := tblGet {} s.dev.subs x
def onSub (x : Nat) (f : Subchannel → Subchannel) (s : State) : State :=
  onDev (fun d => { d with subs := tblMod {} d.subs x f }) s

/-- The copy of the retirement entries in the training store is written, unless the supply holds it off (16, R670;
R518). -/
def copyRetired (s : State) : State :=
  if s.sys.episode.isSome then s else onFlash (fun f => { f with retired := s.mram.retired, retiredOk := true }) s

/-- A subchannel's bit in RETIRED_SUBCHANNELS is set: it goes at the next boot (R525). -/
def markRetired (x : Nat) (s : State) : State :=
  copyRetired (onMram (fun m => { m with retired :=
    { m.retired with subchannels := setBit m.retired.subchannels x true } }) s)

/-- Mark a subchannel for retirement because of a package (R525). -/
def markSub (x package : Nat) (s : State) : State :=
  if (getSub s x).state = 2 ∨ (getSub s x).state = 3 then s
  else
    let s1 := onSub x (fun c => { c with state := 2, failedPackage := BitVec.ofNat 3 (package + 1) }) s
    logRecord 0x2011 (0x0100 + x) x package 0 (markRetired x s1)

/-- µs in 24 hours. -/
def dayUs : Nat := 86400000000

/-- A correction attributed to a package: counted, written back, and held against the thresholds of R525. -/
def noteCorrection (package line : Nat) (isRead : Bool) (s : State) : State :=
  let x := (locate s (line * 64)).1
  let now := s.sys.time.toNat
  let kept := (getSub s x).corrected.filter (fun c => decide (now < c.2.2 + dayUs))
  let all := (package, line, now) :: kept
  let s1 := onSub x (fun c => { c with corrected := all }) (countMem x 4 1 s)
  let lines := ((all.filter (fun c => c.1 == package)).map (fun c => c.2.1)).eraseDups
  let recent := all.filter (fun c => c.1 == package && decide (now < c.2.2 + 1000))
  if 256 ≤ lines.length ∨ (isRead ∧ 16 ≤ recent.length) then markSub x package s1 else s1

/-- Make a line read as uncorrectable (R521). -/
def poisonLine (line : Nat) (s : State) : State :=
  onDev (fun d => { d with poison := if d.poison.contains line then d.poison else line :: d.poison }) s

/-- What a read meets in one line: nothing, a correctable error, or an uncorrectable one. -/
def readLine (line : Nat) (s : State) : Bool × State :=
  let x := (locate s (line * 64)).1
  if s.dev.poison.contains line then (false, countMem x 6 1 s)
  else match tblFind s.dev.flaws line with
    | none => (true, s)
    | some f =>
      let s1 := onDev (fun d => { d with flaws := tblErase d.flaws line }) s
      match f with
      | some p => (true, noteCorrection p.val line true s1)
      | none => (false, poisonLine line (countMem x 5 1 s1))

/-- Read lines in order up to the first that is in error. -/
def readLines : List Nat → State → Option Nat × State
  | [], s => (none, s)
  | l :: t, s =>
    match readLine l s with
    | (true, s1) => readLines t s1
    | (false, s1) => (some l, s1)

/-! ## Rows and bandwidth counters (R490, R510, R511, R530) -/

/-- One piece of an access at its subchannel: a row hit or miss, and what the page-policy hint leaves open. -/
def touchRow (openHint : Bool) (a : Nat) (s : State) : State :=
  let x := (locate s a).1
  let bank := (locate s a).2 / 4096 % 32
  let row := (locate s a).2 / 4096 / 32
  let hit := decide (tblFind (getSub s x).openRows bank = some row)
  let s1 := countMem x (if hit then 11 else 12) 1 s
  onSub x (fun c =>
    { c with openRows := if openHint then tblSet c.openRows bank row else tblErase c.openRows bank }) s1

/-- The write queue of a controller takes a line, and drains at 48 lines (R511). -/
def queueLine (line : Nat) (s : State) : State :=
  let x := (locate s (line * 64)).1
  onSub x (fun c =>
    let q := if c.writeQueue.contains line then c.writeQueue else line :: c.writeQueue
    { c with writeQueue := if 48 ≤ q.length then [] else q }) s

/-- Traffic of an access: bytes by subchannel, and rows. -/
def traffic (write openHint : Bool) (a n : Nat) (s : State) : State :=
  (piecesOf a n).foldl (fun s p =>
    touchRow openHint p.1 (countMem (locate s p.1).1 (if write then 1 else 0) p.2 s)) s

/-- The first subchannel of an access that no longer answers (08, R350). -/
def deadAt (s : State) (a n : Nat) : Option Nat :=
  if s.dev.failed = 0 then none
  else ((piecesOf a n).find? (fun p => s.dev.failed.getLsbD (locate s p.1).1)).map (·.1)

/-! ## The two operations -/

/-- Bytes of device memory as they stand. Unwritten bytes of a granule read zero (R497, R504). -/
def devBytes (s : State) (a n : Nat) : Bytes := memRead 0 s.dev.mem a n

/-- Read `n` bytes for a tag: ownership first (R68), then a zero-fill, then the lines. -/
def devRead (tag : Option (Fin 512)) (openHint : Bool) (a n : Nat) (s : State) : DevResult × State :=
  match refusal s tag false a n with
  | some r => (r, s)
  | none =>
    match deadAt s a n with
    | some x => (.noAnswer x, s)
    | none =>
      let s1 := traffic false openHint a n (touchGranules a n s)
      match readLines (linesOf a n) s1 with
      | (some l, s2) => (.poisoned l, s2)
      | (none, s2) => (.ok (devBytes s2 a n), s2)

/-- A core loses its reservation on a granule that another agent stores to (08, R346). `core` is the core that
stores, if one does. -/
def dropReservations (core : Option Nat) (lines : List Nat) (s : State) : State :=
  { s with cores := s.cores.map (fun e =>
    match e.2.reservation with
    | none => e
    | some g => if lines.contains g && !(core == some e.1) then (e.1, { e.2 with reservation := none }) else e) }

/-- Set dirty bits of the granules a berth's write touches, while dirty logging runs (11, R480). -/
def markDirty (tag : Option (Fin 512)) (gs : List Nat) (s : State) : State :=
  match tag with
  | none => s
  | some b =>
    if (getB s b.val).dirty.running then
      onB b.val (fun x => { x with dirty := { x.dirty with
        bitmap := gs.foldl (fun m g => tblSet m g true) x.dirty.bitmap } }) s
    else s

/-- Bytes as they reach the memory: contents, the history of values, and the reservations they end. -/
def storeDev (core : Option Nat) (a : Nat) (data : Bytes) (s : State) : State :=
  let t := s.dev.now + 1
  let old := devBytes s a data.length
  let s1 := onDev (fun d => { d with
    mem := memWrite 0 d.mem a data,
    history := (List.zipWith (fun i v => (t, a + i, v)) (List.range data.length) old).reverse ++ d.history,
    now := t }) s
  dropReservations core (linesOf a data.length) s1

/-- A write covers the whole of a line. -/
def coversLine (a n line : Nat) : Bool := decide (a ≤ line * 64) && decide (line * 64 + 64 ≤ a + n)

/-- Store the bytes of a write but those in the lines left out. -/
def storeExcept (core : Option Nat) (skip : List Nat) (a : Nat) (data : Bytes) (s : State) : State :=
  if skip.isEmpty then storeDev core a data s
  else (linesOf a data.length).foldl (fun s l =>
    if skip.contains l then s
    else
      let lo := max a (l * 64)
      storeDev core lo (slice data (lo - a) (min (a + data.length) (l * 64 + 64) - lo)) s) s

/-- Write bytes for a tag. A full line clears poison; a partial write to a poisoned line is discarded and answered
with an error (R521). -/
def devWriteBy (core : Option Nat) (tag : Option (Fin 512)) (openHint : Bool) (a : Nat) (data : Bytes) (s : State) :
    DevResult × State :=
  let n := data.length
  match refusal s tag true a n with
  | some r => (r, s)
  | none =>
    match deadAt s a n with
    | some x => (.noAnswer x, s)
    | none =>
      let s1 := traffic true openHint a n (touchGranules a n s)
      let ls := linesOf a n
      let skip := ls.filter (fun l => s1.dev.poison.contains l && !(coversLine a n l))
      let s2 := onDev (fun d => { d with
        poison := d.poison.filter (fun l => !(ls.contains l && coversLine a n l)),
        flaws := d.flaws.filter (fun e => !(ls.contains e.1 && coversLine a n e.1)) }) s1
      let s3 := ls.foldl (fun s l => queueLine l s) (storeExcept core skip a data s2)
      let s4 := markDirty tag (granulesOf a n) s3
      match skip.head? with
      | some l => (.poisoned l, s4)
      | none => (.ok [], s4)

/-- A write of an agent that is no core. -/
def devWrite (tag : Option (Fin 512)) (openHint : Bool) (a : Nat) (data : Bytes) (s : State) : DevResult × State :=
  devWriteBy none tag openHint a data s

/-- A write of the device itself to memory of its own, with no answer to look at. -/
def devPut (a : Nat) (data : Bytes) (s : State) : State := (devWrite none true a data s).2

/-- An ownership violation awaits its handling (R466): the access has had no effect. -/
def noteViolation (b : Fin 512) (addr : Nat) (job : Option Nat) (s : State) : State :=
  { s with violations := s.violations ++ [⟨b, addr, job⟩] }

/-- Free a granule: no owner, uninitialised, its contents gone (R461, R497). -/
def freeGranule (g : Nat) (s : State) : State :=
  onDev (fun d => { d with
    own := tblErase d.own g, mem := memClear d.mem (granuleBytes * g) granuleBytes,
    parts := tblErase d.parts g,
    poison := d.poison.filter (fun l => !(decide (l / 32768 = g))) }) s

/-- Give a granule an owner, its INIT kept. -/
def ownGranule (g : Nat) (o : Owner) (image : Bool) (s : State) : State :=
  setOwn g { ownOf s g with owner := o, image := image } s

end Sys2Proof.Machine
end

