-- ==== Sys2Proof/Machine/Settings.lean ====
section
/-! DEFINITION. Stored settings (14_object_dictionary.md, R587 to R595): which entries are stored, their ranges, the two
banks of MRAM as bytes, the settings fingerprint, and saves. -/

namespace Sys2Proof.Machine

/-! ## Stored entries -/

/-- One stored entry: its place, its size in bytes, its default, its range, whether it is local (R590), and whether it
takes effect only later: at the next RESET, or for the node-ID and data rate at the next INITIALISATION. -/
structure Setting where
  index : Nat
  sub : Nat
  size : Nat
  default : Nat
  lo : Nat
  hi : Nat
  isLocal : Bool
  later : Bool
  deriving DecidableEq, Repr

/-- Number of an entry in the tables of settings. -/
def entryKey (index sub : Nat) : Nat := index * 256 + sub

/-- The entries of the identity, network and group chapters (R587, R588, R609). -/
def settingsLow : List Setting :=
  [⟨0x1005, 0, 4, 0x80, 0, 2 ^ 32 - 1, false, false⟩, ⟨0x1012, 0, 4, 0x80000100, 0, 2 ^ 32 - 1, true, false⟩,
   ⟨0x1015, 0, 2, 100, 0, 65535, false, false⟩, ⟨0x1017, 0, 2, 1000, 0, 65535, false, false⟩,
   ⟨0x2010, 0, 1, 0, 0, 1, false, false⟩, ⟨0x2011, 0, 1, 0, 0, 255, false, false⟩,
   ⟨0x2020, 3, 1, 0x40, 1, 127, true, true⟩, ⟨0x2020, 4, 1, 0, 0, 1, true, true⟩,
   ⟨0x2100, 1, 1, 0, 0, 255, false, false⟩, ⟨0x2100, 2, 1, 0, 0, 7, true, false⟩] ++
  (List.range 8).map (fun i => (⟨0x2101, i + 1, 1, 0, 0, 127, false, false⟩ : Setting))

/-- The entries of the memory, crane, clock, self-test and mode chapters (R496, R537, R588, R658, R637). -/
def settingsHigh : List Setting :=
  [⟨0x2300, 1, 1, 8, 1, 31, false, true⟩, ⟨0x2300, 2, 2, 24, 1, 720, false, true⟩, ⟨0x2300, 3, 1, 0, 0, 1, false, true⟩,
   ⟨0x2310, 1, 1, 0, 0, 1, false, true⟩, ⟨0x2320, 1, 1, 0, 0, 1, false, true⟩,
   ⟨0x4100, 3, 2, 24, 1, 720, false, false⟩, ⟨0x4100, 4, 1, 1, 0, 1, false, false⟩,
   ⟨0x5280, 3, 1, 0, 0, 255, false, false⟩]

/-- Every stored entry, in ascending index and subindex order. -/
def settingList : List Setting := settingsLow ++ settingsHigh

/-- The stored entry at a place, if it is one. -/
def settingAt (index sub : Nat) : Option Setting :=
  settingList.find? (fun e => decide (e.index = index) && decide (e.sub = sub))

/-- Both bits of COB_ID_TIME set are refused (R608). -/
def timeBitsOk (v : Nat) : Bool := !(bitOf v 31 && bitOf v 30)

/-- A value lies in the entry's range. -/
def settingOk (e : Setting) (v : Nat) : Bool :=
  decide (e.lo ≤ v) && decide (v ≤ e.hi) && (decide (e.index ≠ 0x1012) || timeBitsOk v)

/-- The value of a table of settings at an entry. -/
def settingIn (t : Tbl Nat) (e : Setting) : Nat := tblGet e.default t (entryKey e.index e.sub)

/-- A setting as last written. -/
def settingVal (s : State) (index sub : Nat) : Nat :=
  match settingAt index sub with
  | some e => settingIn s.dict.settings e
  | none => 0

/-- A setting in effect (R590). -/
def settingActive (s : State) (index sub : Nat) : Nat :=
  match settingAt index sub with
  | some e => settingIn (if e.later then s.dict.effective else s.dict.settings) e
  | none => 0

/-! ## The settings fingerprint (R609) -/

/-- What one entry adds: INDEX, SUB, LENGTH, value. -/
def settingBytes (e : Setting) (v : Nat) : Bytes := natLe 2 e.index ++ natLe 1 e.sub ++ natLe 1 e.size ++ natLe e.size v

/-- The fingerprint of values given entry by entry; local entries are left out. -/
def fingerprintOf (value : Setting → Nat) : Bytes :=
  sha384 ((settingList.filter (fun e => !e.isLocal)).flatMap (fun e => settingBytes e (value e)))

/-- The fingerprint of the values in effect. -/
def fingerprint (s : State) : Bytes :=
  fingerprintOf (fun e => settingIn (if e.later then s.dict.effective else s.dict.settings) e)

/-! ## Banks (R591) -/

/-- The body of a save: a record for every stored entry, padded to a multiple of 4 bytes. -/
def settingsBody (t : Tbl Nat) : Bytes :=
  settingList.flatMap (fun e =>
    let r := settingBytes e (settingIn t e)
    padTo (roundUp r.length 4) r)

/-- A header with VALID. -/
def bankHeader (kind seq : Nat) (body : Bytes) : Bytes :=
  let h : Bytes := [0x20] ++ natLe 1 kind ++ [0, 0] ++ natLe 4 seq ++ natLe 4 body.length
  h ++ natLe 4 (crc32c (h ++ body)).toNat ++ List.replicate 15 0 ++ [0x5A]

/-- A settings bank: header and body. -/
def bankBytes (kind seq : Nat) (body : Bytes) : Bytes := bankHeader kind seq body ++ body

/-- A bank is valid when FORMAT, VALID and CHECK agree (R592). -/
def bankValid (b : Bytes) : Bool :=
  let n := field b 8 4
  decide (32 ≤ b.length) && decide (field b 0 1 = 0x20) && decide (field b 0x1F 1 = 0x5A) && decide (n ≤ 65504) &&
  decide (32 + n ≤ b.length) && decide (field b 0xC 4 = (crc32c (slice b 0 12 ++ slice b 32 n)).toNat)

/-- A bank's SEQUENCE. -/
def bankSequence (b : Bytes) : Nat := field b 4 4

/-- The active bank at BOOT: the valid one whose SEQUENCE is later (R592); A where they are equal. -/
def pickBank (m : Mram) : Option (Fin 2) :=
  match bankValid m.bankA, bankValid m.bankB with
  | true, true => some (if wrapLater 32 (bankSequence m.bankB) (bankSequence m.bankA) then 1 else 0)
  | true, false => some 0
  | false, true => some 1
  | false, false => none

/-- The bytes of a bank. -/
def bankOfMram (m : Mram) (k : Fin 2) : Bytes := if k = 0 then m.bankA else m.bankB

/-- The records of a body: index, subindex and value bytes. -/
def bodyRecords : Nat → Bytes → List (Nat × Nat × Bytes)
  | 0, _ => []
  | fuel + 1, b =>
    if b.length < 4 then []
    else
      let n := field b 3 1
      (field b 0 2, field b 2 1, slice b 4 n) :: bodyRecords fuel (b.drop (roundUp (4 + n) 4))

/-- One record is taken into a table of settings, or named as out of range; one for an absent entry is ignored. -/
def takeRecord (x : Tbl Nat × List (Nat × Nat)) (r : Nat × Nat × Bytes) : Tbl Nat × List (Nat × Nat) :=
  match settingAt r.1 r.2.1 with
  | none => x
  | some e =>
    if r.2.2.length = e.size ∧ settingOk e (leNat r.2.2) then (tblSet x.1 (entryKey r.1 r.2.1) (leNat r.2.2), x.2)
    else (tblErase x.1 (entryKey r.1 r.2.1), x.2 ++ [(r.1, r.2.1)])

/-- What a body holds: its settings, and the entries whose record is out of range. -/
def readBody (b : Bytes) : Tbl Nat × List (Nat × Nat) := (bodyRecords (b.length / 4 + 1) b).foldl takeRecord ([], [])

/-- What a valid bank holds: KIND 1 gives every entry its default. -/
def readBank (b : Bytes) : Tbl Nat × List (Nat × Nat) :=
  if field b 1 1 = 0 then readBody (slice b 32 (field b 8 4)) else ([], [])

/-- The settings that a boot takes. -/
def bootSettings (m : Mram) : Tbl Nat × List (Nat × Nat) :=
  match pickBank m with
  | some k => readBank (bankOfMram m k)
  | none => ([], [])

/-- The settings load of Tisum (R592). -/
def loadSettings (s : State) : State :=
  let (t, bad) := bootSettings s.mram
  let s1 := onDict (fun d => { d with settings := t, effective := t, saved := t, defaultsPending := false }) s
  let s2 := match pickBank s.mram with
    | some k => onDict (fun d => { d with
        activeBank := BitVec.ofNat 8 k.val,
        storeSequence := BitVec.ofNat 32 (bankSequence (bankOfMram s.mram k)) }) s1
    | none => emcyRaise 0x6100 0x0231 0 (logRecord 0x0231 0 0 0 0
        (onDict (fun d => { d with activeBank := 0xFF, storeSequence := 0 }) s1))
  bad.foldl (fun s e => logRecord 0x0232 0 e.1 e.2 0 s) s2

/-! ## Saves (R593 to R597) -/

/-- A save or a restore of defaults starts: its content is fixed now, and its writing waits for the supply. -/
def startSave (kind : Fin 2) (lss : Bool) (s : State) : State :=
  let t := s.dict.settings
  let v : Save := {
    kind := kind
    body := if kind = 0 then settingsBody t else []
    fingerprint := fingerprintOf (settingIn t)
    writing := s.sys.episode.isNone
    lss := lss }
  onDict (fun d => { d with storeStatus := 1, save := some v }) s

/-- The bank that a save writes, and its SEQUENCE. -/
def saveTarget (s : State) : Fin 2 × BitVec 32 :=
  if s.dict.activeBank = 0xFF then (0, 1)
  else (if s.dict.activeBank = 0 then 1 else 0, s.dict.storeSequence + 1)

/-- A bank's bytes change. -/
def setBank (k : Fin 2) (b : Bytes) (m : Mram) : Mram := if k = 0 then { m with bankA := b } else { m with bankB := b }

/-- The save is complete: header with VALID, active bank, record, M9 (15, R631). -/
def bankCommitted (v : Save) (s : State) : State :=
  let (k, q) := saveTarget s
  let header := bankHeader v.kind.val q.toNat v.body
  let s1 := onMram (setBank k (header ++ v.body)) s
  let s2 := onDict (fun d => { d with
    storeStatus := 2, save := none, activeBank := BitVec.ofNat 8 k.val, storeSequence := q,
    defaultsPending := decide (v.kind = 1),
    saved := if v.kind = 0 then (readBody v.body).1 else d.saved }) s1
  extend 9 (if v.kind = 0 then v.fingerprint else sha384 header) 0x0230
    (logRecord 0x0230 0 k.val q.toNat v.body.length s2)

/-- The bytes did not verify: the bank stays invalid (R596). -/
def bankFailed (s : State) : State :=
  onDict (fun d => { d with storeStatus := 0x8001, save := none }) (onMram (setBank (saveTarget s).1 []) s)

/-- The answer of LSS store configuration, sent at completion (R606). -/
def lssStored (ok : Bool) (s : State) : State :=
  canSend ⟨0x7E4, [0x17, if ok then 0 else 2, 0, 0, 0, 0, 0, 0]⟩ s

/-- SETTINGS_SAVE_COMPLETE: `verified` says that the MRAM write verified. -/
def execSettingsSaveComplete (verified : Bool) (s : State) : Host.Outcome State Fault Refusal :=
  .next (match s.dict.save with
    | some v =>
      if !v.writing then s
      else
        let s1 := if verified then bankCommitted v s else bankFailed s
        if v.lss then lssStored verified s1 else raiseSource 1650 s1
    | none => s)

/-- A save that waited for the supply begins to write (R594). -/
def releaseSave (s : State) : State :=
  onDict (fun d => { d with save := d.save.map (fun v => { v with writing := true }) }) s

end Sys2Proof.Machine
end

