-- ==== Sys2Proof/Machine/Group.lean ====
section
/-! DEFINITION. The module group (14_object_dictionary.md, R609 to R614): who is heard, the reference fingerprint, the bits
of GROUP_STATUS. -/

namespace Sys2Proof.Machine

def groupId (s : State) : Nat := settingVal s 0x2100 1
def memberSlot (s : State) : Nat := settingVal s 0x2100 2
def heartbeatTime (s : State) : Nat := settingVal s 0x1017 0

/-- The 8 bytes of the settings fingerprint that a TPDO carries (R610). -/
def ownFingerprint (s : State) : Bytes := (fingerprint s).take 8

/-- What the members carry: slot and fingerprint of this module and of every slot heard. -/
def carriers (s : State) : List (Nat × Bytes) :=
  (memberSlot s, ownFingerprint s) :: s.dict.peers.map (fun e => (e.1, e.2.fingerprint))

/-- How many members carry a fingerprint. -/
def carriedBy (l : List (Nat × Bytes)) (f : Bytes) : Nat := (l.filter (fun c => c.2 == f)).length

/-- The reference: the fingerprint of most members, and on a tie the one of the lowest slot; with the slot that carries
it (R612). -/
def reference (s : State) : Nat × Bytes :=
  let l := carriers s
  (findMin (fun c => (l.length - carriedBy l c.2) * 256 + c.1) l).getD (memberSlot s, ownFingerprint s)

/-- The largest less the smallest of the differences in calendar time, of which this module's own is 0 (R613). -/
def timeSpread (s : State) : Nat :=
  let d : List Int := s.dict.peers.filterMap (fun e => e.2.spread)
  (d.foldl max 0 - d.foldl min 0).toNat

/-- The bits of GROUP_STATUS: GROUP_MISMATCH, VERSION_DIFF, TIME_SPREAD, MODE_DIFF (R609). With no slot heard every
member agrees with itself. -/
def groupBits (s : State) : BitVec 8 :=
  if s.dict.peers.isEmpty then 0
  else
    let bit (i : Nat) (b : Bool) : Nat := b2n b * 2 ^ i
    BitVec.ofNat 8 (bit 0 ((reference s).2 != ownFingerprint s) +
      bit 1 (s.dict.peers.any (fun e => e.2.version != s.fw.version)) + bit 2 (decide (10 < timeSpread s)) +
      bit 3 (s.dict.peers.any (fun e => decide (e.2.mode.toNat ≠ s.sys.mode.code))))

/-- A change of GROUP_MISMATCH (R612). -/
def mismatchChanged (s : State) : State :=
  let (slot, r) := reference s
  let (p1, p2) := (field r 0 4, field (ownFingerprint s) 0 4)
  if s.dict.groupStatus.getLsbD 0 then emcyRaise 0xFF02 0x0210 0 (logRecord 0x0210 0 slot p1 p2 s)
  else emcyClear 0xFF02 0x0211 0 (logRecord 0x0211 0 slot p1 p2 s)

/-- GROUP_STATUS follows what is heard and what is in effect; each change raises event source 1649 (R612, R613). -/
def groupUpdate (s : State) : State :=
  let new := groupBits s
  let old := s.dict.groupStatus
  if new = old then s
  else
    let s1 := onDict (fun d => { d with groupStatus := new }) s
    raiseSource 1649 (if new.getLsbD 0 = old.getLsbD 0 then s1 else mismatchChanged s1)

end Sys2Proof.Machine
end

