-- ==== Sys2Proof/Machine/ModeOps.lean ====
section
/-! DEFINITION. Changes of operating mode, HOLD and retirement as operations that several families share
(15_startup_and_trust.md, R639, R642; 16_selftest_faults_recorder.md, R665 to R670). -/

namespace Sys2Proof.Machine

/-! ## Modes -/

/-- A change of mode with what it always brings: its record and event source, the EMCY of DEGRADED, and MODE_DIFF (R639,
R642; 14, R613). -/
def changeMode (m : Mode) (cause : Nat) (s : State) : State :=
  let s1 := groupUpdate (setMode m cause s)
  if m = .degraded then emcyRaise 0xFF01 0x0001 0 s1 else emcyClear 0xFF01 0x0001 0 s1

/-- A MODE_REQUEST in progress ends (R640, R597). -/
def endModeRequest (code : BitVec 16) (s : State) : State :=
  if s.sys.modeStatus = 1 then
    raiseSource 1650 (onSys (fun y => { y with modeStatus := code, draining := false }) s)
  else s

/-- Modes in which an untolerated fault leads to HOLD (R639). -/
def faultable (s : State) : Bool := !(s.sys.mode == .reset) && !(s.sys.mode == .hold)

/-- STRUCT_EN of every core (07, R317). -/
def setStruct (b : Bool) (s : State) : State :=
  (List.range 129).foldl (fun s c => onCore c (fun k => { k with structEn := b }) s) s

/-- HOLD is entered for a fault: its record, HOLD_CAUSE, EMCY 0x5000, the mode (R639, R640, R666). Where MAINTENANCE is
left, STRUCT_EN is cleared on every core before (07, R317). -/
def enterHold (cause source p0 p1 p2 : Nat) (s : State) : State :=
  if !(faultable s) then s
  else
    let s0 := if s.sys.mode = .maintenance then setStruct false s else s
    let s1 := logRecord cause source p0 p1 p2 s0
    let s2 := emcyRaise 0x5000 cause source (onSys (fun y => { y with holdCause := BitVec.ofNat 16 cause }) s1)
    let s3 := groupUpdate (setMode .hold 3 s2)
    endModeRequest 0x8001 (onSys (fun y => { y with watchdog := false }) s3)

/-- A subchannel is lost (R524, R142, R666). -/
def subchannelLost (x : Nat) (s : State) : State := if faultable s then enterHold 0x2021 (0x0100 + x) x 0 0 (markRetired x s) else s

/-- A unit on which all service depends has failed: its partition, or 0 (R665). -/
def vitalFailed (source part detail : Nat) (s : State) : State := enterHold 0x3012 source part detail 0 s

/-! ## Units -/

/-- SOURCE of a test partition's unit (R645, R674). -/
def partSource (p : Nat) : Nat :=
  if p < 32 then 0x0100 + p
  else if p < 48 then 0x0200 + (p - 32)
  else if p < 64 then 0x0400 + (p - 48)
  else if p < 68 then 0x0500 + (p - 64)
  else if p = 68 then 0x0600
  else if p = 69 then 0x0700
  else if p = 70 then 0x0701
  else if p = 71 then 0x0800
  else if p < 76 then 0x0900 + (p - 72)
  else if p = 76 then 0x0A00
  else 0x0B00

/-- SOURCE of a unit. -/
def unitSource : UnitName → Nat
  | .part p => partSource p.val
  | .core c => 0x0300 + c.val
  | .channel c => 0x0740 + c.val
  | .subchannel x => 0x0100 + x.val

/-- First parameter of records 0x3020 and 0x3021 (R684). -/
def unitParam : UnitName → Nat
  | .part p => p.val
  | .core c => 0x100 + c.val
  | .channel c => 0x200 + c.val
  | .subchannel x => x.val

/-- Set or clear the retirement entry of a unit. -/
def retiredSet (u : UnitName) (b : Bool) (r : Retired) : Retired :=
  match u with
  | .part p => { r with parts := setBit r.parts p.val b }
  | .core c => { r with cores := setBit r.cores c.val b }
  | .channel c => { r with channels := setBit r.channels c.val b }
  | .subchannel x => { r with subchannels := setBit r.subchannels x.val b }

/-- A unit that is retired again is no longer one that the full pass found good. -/
def unpassed (u : UnitName) (y : Passed) : Passed :=
  match u with
  | .part p => { y with parts := setBit y.parts p.val false }
  | .core c => { y with cores := setBit y.cores c.val false }
  | _ => y

/-- The retirement entry of a unit. -/
def isRetired (r : Retired) : UnitName → Bool
  | .part p => r.parts.getLsbD p.val
  | .core c => r.cores.getLsbD c.val
  | .channel c => r.channels.getLsbD c.val
  | .subchannel x => r.subchannels.getLsbD x.val

/-- Set or clear the presence of a unit (14, R589, index 0x2200). -/
def presentSet (u : UnitName) (b : Bool) (y : Present) : Present :=
  match u with
  | .part p =>
    if p.val < 32 then { y with quays := setBit y.quays p.val b }
    else if p.val < 48 then { y with groves := setBit y.groves (p.val - 32) b }
    else if p.val < 64 then { y with banks := setBit y.banks (p.val - 48) b }
    else if p.val < 68 then { y with compression := setBit y.compression (p.val - 64) b }
    else y
  | .core c => { y with cores := setBit y.cores c.val b }
  | .channel c => { y with channels := setBit y.channels c.val b }
  | .subchannel x => { y with subchannels := setBit y.subchannels x.val b }

/-- Some unit is retired (R639). A subchannel that is MARKED serves on and is not retired yet (12, R525); one that a full
self-test has passed, and its quay, count as retired until the next boot (12, R527; 15, R641). -/
def someRetired (s : State) : Bool :=
  !(s.mram.retired.parts == 0) || !(s.mram.retired.cores == 0) || !(s.mram.retired.channels == 0) ||
  !(s.present.subchannels == 0xFFFFFFFF) || !(s.present.quays == 0xFFFFFFFF)

/-- What every retirement writes (R669, R670): the entries and their copy, record 0x3020 measured into M12, event source
1653, index 0x2200, and DEGRADED where the mode was SERVICE. What an earlier full pass found good no longer returns by it
(R649). -/
def retire (u : UnitName) (cause : Nat) (s : State) : State :=
  let s0 := onBist (fun b => { b with passed := unpassed u b.passed }) s
  let s1 := onPresent (presentSet u false) (onMram (fun m => { m with retired := retiredSet u true m.retired }) s0)
  let r := makeRecord 0x3020 (unitSource u) (unitParam u) cause 0 s1
  let s2 := extend 12 (sha384 (recordBytes (nextSequence s1) r)) 0x3020 (queueRecord r s1)
  let s3 := copyRetired (raiseSource 1653 s2)
  if s3.sys.mode = .service then changeMode .degraded 2 s3 else s3

/-- A unit returns to use (R669, R670). -/
def returnUnit (u : UnitName) (s : State) : State :=
  let s1 := onPresent (presentSet u true) (onMram (fun m => { m with retired := retiredSet u false m.retired }) s)
  copyRetired (logRecord 0x3021 (unitSource u) (unitParam u) 0 0 s1)

end Sys2Proof.Machine
end

