-- ==== Sys2Proof/Machine/Dram.lean ====
section
/-! DEFINITION. What the memory controllers do of themselves (12_dram.md, R503 to R525): zero-fill, ownership changes,
refresh, temperature, rows and write queues, scrub, command/address alerts. -/

namespace Sys2Proof.Machine

/-- Memory is laid out and its controllers run. -/
def memoryUp (s : State) : Bool := s.sys.laidOut && !(s.sys.mode == .reset)

/-- A subchannel's controller runs. -/
def subUp (s : State) (x : Nat) : Bool := memoryUp s && s.present.subchannels.getLsbD x && decide ((getSub s x).state ≠ 3)

/-- A granule of installed memory. -/
def granuleExists (s : State) (g : Nat) : Bool := decide (g < 512 * (32 * (presentSubs s).length))

/-! ## Zero-fill (R504 to R506) -/

/-- GRANULE_FIRST_TOUCH: an access that passes R501 starts the fill of a granule not yet initialised. -/
def execGranuleFirstTouch (g : Fin 524288) (tag : Option (Fin 512)) (write : Bool) (s : State) :
    Host.Outcome State Fault Refusal :=
  let e := ownOf s g.val
  .next (
    if memoryUp s ∧ granuleExists s g.val ∧ tagPasses tag write e ∧ !e.init ∧ !e.filling then
      setOwn g.val { e with filling := true } s
    else s)

/-- ZERO_FILL_COMPLETE: lines written meanwhile by a whole-granule fill read zero, and INIT is set. -/
def execZeroFillComplete (g : Fin 524288) (s : State) : Host.Outcome State Fault Refusal :=
  .next (if memoryUp s ∧ (ownOf s g.val).filling ∧ !(ownOf s g.val).init then fillGranule g.val s else s)

/-- The next granule that touches a subchannel and whose part the initialiser has still to write, from `n` on. -/
def nextUninit (s : State) (x : Nat) : Nat → Nat → Option Nat
  | 0, _ => none
  | fuel + 1, g =>
    let mine := granuleExists s g && (granuleSubs s g).contains x && !(ownOf s g).init &&
      !((tblGet 0 s.dev.parts g : BitVec 32).getLsbD x)
    if mine then some g else nextUninit s x fuel (g + 1)

/-- A subchannel's part of a granule is written; with the last part the granule is initialised. -/
def writePart (x g : Nat) (s : State) : State :=
  let done := setBit (tblGet 0 s.dev.parts g : BitVec 32) x true
  if (granuleSubs s g).all (fun y => done.getLsbD y) then fillGranule g s
  else onDev (fun d => { d with parts := tblSet d.parts g done }) s

/-- Granules of installed memory. -/
def granuleCount (s : State) : Nat := installedBytes s / granuleBytes

/-- BACKGROUND_INITIALISATION (R506): in ascending order from where the initialiser stands, then from granule 0 for those
freed since. -/
def execBackgroundInitialisation (s : Fin 32) (x : State) : Host.Outcome State Fault Refusal :=
  let n := granuleCount x
  let at_ := (getSub x s.val).initNext
  .next (
    if !(subUp x s.val) then x
    else match (nextUninit x s.val (n - at_) at_).orElse (fun _ => nextUninit x s.val at_ 0) with
    | none => x
    | some g => onSub s.val (fun c => { c with initNext := g + 1 }) (writePart s.val g x))

/-! ## Ownership (R503) -/

/-- OWNERSHIP_CHANGE: Tisum gives a granule an owner, or frees it; INIT is kept (R499). -/
def execOwnershipChange (g : Fin 524288) (owner : Option (Fin 512)) (image : Bool) (s : State) :
    Host.Outcome State Fault Refusal :=
  let reserve := decide (reserveBase s ≤ granuleBytes * g.val) && decide (granuleBytes * g.val < interBytes s)
  .next (
    if !(memoryUp s) ∨ !(granuleExists s g.val) ∨ reserve then s
    else match owner with
    | some b => ownGranule g.val (.berth b) image s
    | none => freeGranule g.val s)

/-! ## Refresh, temperature, rows, write queue (R510 to R514) -/

/-- REFRESH: a same-bank refresh closes the bank's row (R510). -/
def execRefresh (s : Fin 32) (bank : Fin 32) (x : State) : Host.Outcome State Fault Refusal :=
  .next (if subUp x s.val then
      onSub s.val (fun c => { c with openRows := tblErase c.openRows bank.val, refreshes := c.refreshes + 1 }) x
    else x)

/-- REFRESH_RATE_READ: TEMP_BAND follows the rate reported, under the limit of R514. -/
def execRefreshRateRead (s : Fin 32) (hot : Bool) (x : State) : Host.Outcome State Fault Refusal :=
  .next (if subUp x s.val then
      onSub s.val (fun c => { c with tempBand := if c.tempBand = 2 then 2 else if hot then 1 else 0 }) x
    else x)

/-- TEMPERATURE_LIMIT: the hottest package of the subchannel reads `celsius`. -/
def execTemperatureLimit (s : Fin 32) (celsius : BitVec 32) (x : State) : Host.Outcome State Fault Refusal :=
  let limited := decide ((getSub x s.val).tempBand = 2)
  .next (
    if !(subUp x s.val) then x
    else if !limited ∧ 95 ≤ celsius.toInt then
      logRecord 0x2030 (0x0100 + s.val) s.val celsius.toNat 0
        (countMem s.val 10 1 (onSub s.val (fun c => { c with tempBand := 2 }) x))
    else if limited ∧ celsius.toInt < 90 then
      logRecord 0x2031 (0x0100 + s.val) s.val celsius.toNat 0
        (onSub s.val (fun c => { c with tempBand := if 85 ≤ celsius.toInt then 1 else 0 }) x)
    else x)

/-- ROW_CLOSE. -/
def execRowClose (s : Fin 32) (bank : Fin 32) (x : State) : Host.Outcome State Fault Refusal :=
  .next (if subUp x s.val then onSub s.val (fun c => { c with openRows := tblErase c.openRows bank.val }) x else x)

/-- WRITE_QUEUE_DRAIN. -/
def execWriteQueueDrain (s : Fin 32) (x : State) : Host.Outcome State Fault Refusal :=
  .next (if subUp x s.val then onSub s.val (fun c => { c with writeQueue := [] }) x else x)

/-! ## Scrub (R522) -/

/-- Size of a subchannel in lines. -/
def subLines : Nat := 32 * gib / 64

/-- The device line at a place of a subchannel: the inverse of the interleave (R492, R498). -/
def lineAt (s : State) (x k : Nat) : Nat :=
  let loc := k * 64
  let inter := gib * s.dev.shareGib
  if loc < inter then
    let n := (presentSubs s).length
    let r := loc / 256
    let i := (presentSubs s).idxOf x
    let col := (i + n * 32 - rotation r % n) % n
    ((r * n + col) * 256 + loc % 256) / 64
  else (localBase s x + (loc - inter)) / 64

/-- What the scrub finds in a line: what the cells are known to hold, or a new finding. -/
def scrubLine (x line : Nat) (finding : ScrubFinding) (s : State) : State :=
  let bad (s : State) : State :=
    logRecord 0x2010 (0x0100 + x) x (line * 64 % 2 ^ 32) (line * 64 / 2 ^ 32) (poisonLine line (countMem x 5 1 s))
  let clear (s : State) : State := onDev (fun d => { d with flaws := tblErase d.flaws line }) s
  if s.dev.poison.contains line then s
  else match tblFind s.dev.flaws line, finding with
  | some none, _ => bad (clear s)
  | some (some p), .correctable q => if p = q then noteCorrection p.val line false (clear s) else bad (clear s)
  | some (some _), .uncorrectable => bad (clear s)
  | some (some p), .clean => noteCorrection p.val line false (clear s)
  | none, .clean => s
  | none, .correctable p => noteCorrection p.val line false s
  | none, .uncorrectable => bad s

/-- PATROL_SCRUB. Lines of a granule not yet initialised hold nothing to check. -/
def execPatrolScrub (s : Fin 32) (finding : ScrubFinding) (x : State) : Host.Outcome State Fault Refusal :=
  let k := (getSub x s.val).scrubLine
  let line := lineAt x s.val k
  .next (
    if !(subUp x s.val) then x
    else
      let x1 := countMem s.val 2 1 (onSub s.val (fun c => { c with scrubLine := (k + 1) % subLines }) x)
      if (ownOf x1 (line / 32768)).init then scrubLine s.val line finding x1 else x1)

/-! ## Command/address alerts (R523, R524) -/

/-- CA_PARITY_ALERT: a replay; `replayed` says that a command then completes. The fourth alert in a row with none
starts a retraining. -/
def execCaParityAlert (s : Fin 32) (replayed : Bool) (x : State) : Host.Outcome State Fault Refusal :=
  .next (
    if !(subUp x s.val) ∨ (getSub x s.val).failedRetrains ≠ 0 then x
    else
      let n := (getSub x s.val).alerts + 1
      let x1 := countMem s.val 7 1 (countMem s.val 8 1 x)
      if 4 ≤ n then
        logRecord 0x2020 (0x0100 + s.val) s.val n 0 (countMem s.val 9 1
          (onSub s.val (fun c => { c with alerts := n, state := if c.state = 0 then 1 else c.state }) x1))
      else onSub s.val (fun c => { c with alerts := if replayed then 0 else n }) x1)

/-- A retraining is under way: four alerts came in a row. -/
def retraining (c : Subchannel) : Bool := decide (4 ≤ c.alerts)

/-- CA_RETRAINING: an attempt ends; after the third failure the subchannel is lost. -/
def execCaRetraining (s : Fin 32) (ok : Bool) (x : State) : Host.Outcome State Fault Refusal :=
  let c := getSub x s.val
  .next (
    if !(subUp x s.val) ∨ !(retraining c) then x
    else if ok then
      onSub s.val (fun c => { c with alerts := 0, failedRetrains := 0, state := if c.state = 1 then 0 else c.state }) x
    else if c.failedRetrains + 1 < 3 then
      countMem s.val 9 1 (onSub s.val (fun c => { c with failedRetrains := c.failedRetrains + 1 }) x)
    else subchannelLost s.val (onSub s.val (fun c => { c with failedRetrains := 3 }) x))

/-! ## Tracking (R519) -/

/-- DQS_TRACKING. -/
def execDqsTracking (s : Fin 32) (x : State) : Host.Outcome State Fault Refusal :=
  .next (if subUp x s.val then onSub s.val (fun c => { c with tracked := c.tracked + 1 }) x else x)

/-- ZQ_CALIBRATION. -/
def execZqCalibration (s : Fin 32) (x : State) : Host.Outcome State Fault Refusal :=
  .next (if subUp x s.val then onSub s.val (fun c => { c with calibrated := c.calibrated + 1 }) x else x)

end Sys2Proof.Machine
end

