-- ==== Sys2Proof/Machine/Jobs.lean ====
section
/-! DEFINITION. Jobs and their status blocks (10_host_queues.md, R431 to R433): how an engine begins a job, advances
its counters and ends it. The writes of a final state and the release of what the job held follow in JOB_FINAL. -/

namespace Sys2Proof.Machine

/-- QUEUE field of a status block: k, or 0xFF for the manager queue (R431). -/
def queueField (q : Nat) : Nat := if q = 4096 then 0xFF else q % 8

/-- The first 8 bytes of a status block. -/
def statusWord (x : Job) (state fault : Nat) : Bytes :=
  natLe 1 state ++ natLe 1 x.opcode ++ natLe 1 (queueField x.queue) ++ [0] ++ natLe 2 fault ++ [0, 0]

/-- Bytes +0x10 to +0x3F of a status block. -/
def statusRest (x : Job) (position : Nat) (tEnd : Nat) : Bytes :=
  natLe 8 x.rows ++ natLe 8 x.bytes ++ natLe 8 position ++ natLe 4 x.progress ++ [0, 0, 0, 0] ++
    natLe 8 x.tAccepted.toNat ++ natLe 8 tEnd

/-- A write to a job's status block, unless DESTROY has silenced the job (11, R461). -/
def statusWrite (x : Job) (off : Nat) (data : Bytes) (s : State) : State :=
  if x.silent then s else hostWrite x.berth (x.statusAddr + off) data s

/-- A job moves down the states of R432, never up. -/
def setJobState (j st : Nat) (s : State) : State :=
  match getJ s j with
  | none => s
  | some x =>
    if x.state < st then onJ j (fun x => { x with state := st }) (statusWrite x 0 (statusWord x st 0) s) else s

/-! ## Crane channels (13, R533) -/

/-- Jobs whose engine moves bytes over a crane channel: LOAD_IMAGE, the block jobs, MOVE and FILL, the compression and
digest jobs, BERTH_SAVE and BERTH_RESTORE. -/
def streamOpcodes : List Nat := [0x10, 0x20, 0x21, 0x22, 0x23, 0x30, 0x31, 0x32, 0x33, 0x34, 0x41, 0x42]

/-- Channels that Tisum gives out: 0 to 7 for itself and manager-queue jobs, 8 to 63 to the grove runtime. -/
def channelsFor (manager : Bool) : List Nat := if manager then List.range 8 else (List.range 56).map (· + 8)

/-- The lowest channel of those that is present, idle and not taken for a stream. -/
def freeChannel (s : State) (manager : Bool) : Option Nat :=
  (channelsFor manager).find? (fun c => s.present.channels.getLsbD c &&
    ((tblGet {} s.eng.channels c).state == .idle || (tblGet {} s.eng.channels c).state == .halted) &&
    s.jobs.all (fun e => decide (e.2.channel ≠ some c)))

/-- The channel that a job's stream takes, unless it has one or needs none. -/
def takeStream (s : State) (x : Job) : Option Nat :=
  if streamOpcodes.contains x.opcode ∧ x.channel.isNone then freeChannel s x.berth.isNone else x.channel

/-- A job that has still to take a channel finds one; until then it waits. -/
def streamReady (s : State) (x : Job) : Bool :=
  x.begun || !(streamOpcodes.contains x.opcode) || (takeStream s x).isSome

/-- The engine begins the work (R432), on the channel of its stream. -/
def beginJob (j : Nat) (s : State) : State :=
  match getJ s j with
  | none => s
  | some x =>
    if x.begun then s else setJobState j 2 (onJ j (fun x => { x with begun := true, channel := takeStream s x }) s)

/-- An advance of the counters, after the data it covers (R433), with PARTIAL at the first one (R432). -/
def advanceJob (j rows bytes : Nat) (s : State) : State :=
  if rows = 0 ∧ bytes = 0 then s
  else
    let s1 := onJ j (fun x => { x with rows := x.rows + rows, bytes := x.bytes + bytes }) s
    match getJ s1 j with
    | none => s1
    | some x => setJobState j 3 (statusWrite x 0x10 (natLe 8 x.rows ++ natLe 8 x.bytes) s1)

/-- Set the counters to new totals, as one advance. -/
def advanceTo (j rows bytes : Nat) (s : State) : State :=
  match getJ s j with
  | none => s
  | some x => advanceJob j (rows - x.rows) (bytes - x.bytes) s

/-- PROGRESS grows (R431). -/
def addProgress (j n : Nat) (s : State) : State := onJ j (fun x => { x with progress := x.progress + n }) s

/-- The outcome of a job is settled; the first outcome stands (R197, R186). -/
def settle (j : Nat) (e : JobEnd) (s : State) : State :=
  onJ j (fun x => if x.result.isSome then x else { x with result := some e }) s

/-- A job ends DONE. -/
def endDone (j : Nat) (s : State) : State := settle j ⟨4, 0, 0⟩ s
/-- A job ends FAILED with a fault code and position. -/
def endFailed (j code position : Nat) (s : State) : State := settle j ⟨5, code, position⟩ s
/-- A job ends CANCELLED. -/
def endCancelled (j : Nat) (s : State) : State := settle j ⟨6, 0, 0⟩ s

/-- The little-endian field of `n` bytes at offset `o` of a job's entry. -/
def bodyField (x : Job) (o n : Nat) : Nat := field x.entry o n

/-- The bytes of a range of the entry are zero; the offset of the first that is not. -/
def bodyZero (x : Job) (o n : Nat) : Option Nat :=
  ((List.range n).find? (fun i => x.entry.getD (o + i) 0 != 0)).map (fun i => o + i)

/-- LEN_GRANULES of the entry. -/
def lenGranules (x : Job) : Nat := bodyField x 1 1

/-- A job may be worked on: it is not final, its berth is not frozen (11, R471), the engine gates are open, which HOLD
closes (16, R666), and its stream has a channel or finds one (13, R533). -/
def workable (s : State) (x : Job) : Bool :=
  x.result.isNone && hostActive s && streamReady s x &&
  match x.berth with
  | none => true
  | some b => !((getB s b.val).state == .frozen) && !((getB s b.val).state == .destroying)

/-- Run a meaning on a job of an opcode that may be worked on; any other job is left as it is. -/
def withJob (op j : Nat) (s : State) (f : Job → State) : State :=
  match getJ s j with
  | none => s
  | some x => if x.opcode = op ∧ workable s x then f x else s

/-- First field at fault in a list of checks: whether each holds, and its offset. -/
def firstBad (checks : List (Bool × Nat)) : Option Nat := (checks.find? (fun c => !c.1)).map (·.2)

/-- Berths by number in ascending order that exist. -/
def berthsPresent (s : State) : List Nat := (s.berths.filter (fun e => e.2.state != .absent)).map (·.1)

/-- Jobs of a berth that are not final, oldest first. -/
def jobsOf (s : State) (b : Fin 512) : List (Nat × Job) := s.jobs.filter (fun e => e.2.berth == some b)

/-- Fault codes that a device access of a job can end in (13, R553; 03, R134): poison, or no answer. -/
def deviceFault : DevResult → Nat
  | .poisoned l => l * 64
  | .noAnswer a => a
  | .violation a => a
  | .noMemory a => a
  | .ok _ => 0

end Sys2Proof.Machine
end

