-- ==== Sys2Proof/Machine/PilotOps.lean ====
section
/-! DEFINITION. Pilot (09_pilot_scheduler.md): task records, event pulses, wait conditions, delays, the dispatch choice
and the hand-over of work items. -/

namespace Sys2Proof.Machine

def onPilot (f : Pilot → Pilot) (s : State) : State := { s with pilot := f s.pilot }
def getT (s : State) (t : Nat) : Task := tblGet {} s.pilot.tasks t
def onT (t : Nat) (f : Task → Task) (s : State) : State := onPilot (fun p => { p with tasks := tblMod {} p.tasks t f }) s
def countP (i n : Nat) (s : State) : State := count .pilot i n s

/-- The wait condition (R362). -/
def waitHolds (x : Task) : Bool :=
  if x.any then decide (x.flags &&& x.mask ≠ 0) else decide (x.flags &&& x.mask = x.mask)

/-- A WAITING task whose condition holds, or whose flag 30 is set, becomes READY with age 0 (R360, R366). -/
def wake (t : Nat) (s : State) : State :=
  let x := getT s t
  if x.state = .waiting ∧ (waitHolds x ∨ x.flags.getLsbD 30) then
    onPilot (fun p => { p with order := p.order + 1 })
      (onT t (fun x => { x with state := .ready, readyAt := s.sys.time, readyOrder := s.pilot.order }) s)
  else s

/-- A pulse of a source for a task's flag (R361, R368); `none` is the device. -/
def pulse (t : Nat) (flag : Nat) (source : Option (Fin 512)) (s : State) : State :=
  let x := getT s t
  if x.state = .free ∨ (source.isSome ∧ source ≠ x.berth) then countP 6 1 s
  else if x.flags.getLsbD flag then countP 2 1 s
  else wake t (onT t (fun x => { x with flags := setBit x.flags flag true }) (countP 1 1 s))

/-! ## Delays (R377 to R380, R386) -/

/-- Delay places a berth's tasks, or the device's, may hold. -/
def delayAllowance (s : State) : Option (Fin 512) → Nat
  | none => 256
  | some b => ceilDiv (getB s b.val).taskQuota.toNat 4

/-- A task holds a delay place; it keeps the place while its berth is FROZEN. -/
def holdsPlace (x : Task) : Bool := x.expiry.isSome || x.frozenDelay.isSome

/-- Delay places held. -/
def delaysHeld (s : State) (b : Option (Fin 512)) : Nat :=
  (s.pilot.tasks.filter (fun e => decide (e.2.berth = b) && holdsPlace e.2)).length

/-- A release with a DELAY (R377, R380). -/
def enterDelay (t : Nat) (d : BitVec 24) (s : State) : State :=
  if d = 0 then s
  else if delaysHeld s (getT s t).berth < delayAllowance s (getT s t).berth then
    countP 4 1 (onT t (fun x => { x with expiry := some (s.pilot.tick + d.zeroExtend 32) }) s)
  else countP 7 1 (onT t (fun x => { x with delayWaits := some d }) s)

/-- A place of a berth has freed: the lowest task that waits for one takes it, its expiry counted from now (R380). -/
def grantDelay (b : Option (Fin 512)) (s : State) : State :=
  match s.pilot.tasks.find? (fun e => decide (e.2.berth = b) && e.2.delayWaits.isSome) with
  | none => s
  | some e => enterDelay e.1 (e.2.delayWaits.getD 0) (onT e.1 (fun x => { x with delayWaits := none }) s)

/-- Remove a task's delay, held or waited for (R379). -/
def dropDelay (t : Nat) (s : State) : State :=
  let x := getT s t
  let s1 := onT t (fun x => { x with expiry := none, delayWaits := none, frozenDelay := none }) s
  if holdsPlace x then grantDelay x.berth s1 else s1

/-! ## The dispatch choice (R371 to R376) -/

/-- A flow is held by a task that is RUNNING or PREFETCHED (R375). -/
def flowHeld (s : State) (f : Fin 4096) : Bool :=
  s.pilot.tasks.any (fun e => decide (e.2.flow = some f) && (e.2.state == .running || e.2.state == .prefetched))

/-- A task's berth is not FROZEN: a FROZEN berth's tasks are dispatched nowhere (11, R471). -/
def mayDispatch (s : State) (x : Task) : Bool := x.berth.all (fun b => (getB s b.val).state != .frozen)

/-- READY tasks of a grove. -/
def readyTasks (s : State) (g : Nat) : List (Nat × Task) :=
  s.pilot.tasks.filter (fun e => e.2.state == .ready && decide (e.2.grove.val = g) && mayDispatch s e.2)

/-- The flow of a task is absent or free (R371, R374). -/
def flowOpen (s : State) (e : Nat × Task) : Bool :=
  match e.2.flow with
  | none => true
  | some f => !(flowHeld s f)

/-- Among the tasks between which a choice is made, the flow goes to the oldest (R374). -/
def flowFirst (among : List (Nat × Task)) (e : Nat × Task) : Bool :=
  e.2.flow.isNone || among.all (fun o => decide (o.2.flow ≠ e.2.flow) || decide (e.2.readyOrder ≤ o.2.readyOrder))

/-- The oldest of some tasks. -/
def oldest (l : List (Nat × Task)) : Option (Nat × Task) := findMin (fun e => e.2.readyOrder) l

/-- Those of highest priority. -/
def topPriority (l : List (Nat × Task)) : List (Nat × Task) :=
  let p := l.foldl (fun m e => max m e.2.priority.val) 0
  l.filter (fun e => decide (e.2.priority.val = p))

/-- AGE_LIMIT, ENTER and EXIT of PTUNE (R390). -/
def ageLimit (s : State) : Nat := s.pilot.tune.toNat % 256
def tuneEnter (s : State) : Nat := s.pilot.tune.toNat / 256 % 256
def tuneExit (s : State) : Nat :=
  let x := s.pilot.tune.toNat / 65536 % 256
  if x ≤ tuneEnter s then tuneEnter s + 1 else x

/-- The choice within one berth's tasks of highest priority whose flows allow it (R371). -/
def chooseIn (s : State) (core : Nat) (set : List (Nat × Task)) : Option (Nat × Task) :=
  if set.any (fun e => decide (ageLimit s ≤ (s.sys.time - e.2.readyAt).toNat)) then oldest set
  else match oldest (set.filter (fun e => decide (e.2.lastCore.toNat = core))) with
  | some e => some e
  | none => oldest set

def balanceKey (g b : Nat) : Nat := g * 1024 + b
def balanceOf (s : State) (g b : Nat) : Int := tblGet 0 s.pilot.balance (balanceKey g b)

/-- Grove share weight of a berth. -/
def weightOf (s : State) (b : Nat) : Nat := (getB s b).shareWeight.toNat

/-- Berths with ready tasks on a grove, in cyclic order after the one chosen last. -/
def berthOrder (s : State) (g : Nat) : List Nat :=
  let bs := (List.range 512).filter (fun b => (readyTasks s g).any (fun e => decide ((e.2.berth.map Fin.val) = some b)))
  let last := tblGet 511 s.pilot.last g
  bs.filter (fun b => decide (last < b)) ++ bs.filter (fun b => decide (b ≤ last))

/-- Rounds of R372 needed before a berth's balance is positive. -/
def roundsFor (s : State) (g b : Nat) : Nat :=
  let v := balanceOf s g b
  let w := 1024 * max 1 (weightOf s b)
  if 0 < v then 0 else ((-v).toNat + 1 + w - 1) / w

/-- `k` rounds: every berth with a ready task gains its quantum, the others lose their balance (R372). -/
def addRounds (k g : Nat) (order : List Nat) (s : State) : State :=
  if k = 0 then s
  else
    let kept := s.pilot.balance.filter (fun e => !(decide (e.1 / 1024 = g)) || order.contains (e.1 % 1024))
    let next := order.foldl (fun t b => tblMod (0 : Int) t (balanceKey g b) (fun v => v + ((k * 1024 * weightOf s b : Nat) : Int))) kept
    onPilot (fun p => { p with balance := next }) s

/-- Ready tasks of a berth at its highest priority with one (R371). -/
def berthTop (s : State) (g b : Nat) : List (Nat × Task) :=
  topPriority ((readyTasks s g).filter (fun e => decide ((e.2.berth.map Fin.val) = some b)))

/-- The set of R371 for one berth: those whose flow is free or absent, and goes to them. -/
def berthSet (s : State) (g b : Nat) : List (Nat × Task) :=
  (berthTop s g b).filter (fun e => flowOpen s e && flowFirst (berthTop s g b) e)

/-- Ready device tasks of a grove. -/
def deviceReady (s : State) (g : Nat) : List (Nat × Task) := (readyTasks s g).filter (fun e => e.2.berth.isNone)

/-- FLOW_WAITS counts a choice that passed over a task whose flow is held: of the device, of the berth chosen, or of a
berth before it (R374, R390). -/
def countPassed (l : List (Nat × Task)) (s : State) : State :=
  if l.all (flowOpen s) then s else countP 3 1 s

/-- The task that a dispatcher chooses for a core of its grove (R371), and the balances after it. None is dispatched
at thermal level 3 (17, R710) and in HOLD (16, R666). -/
def choose (g core : Nat) (s : State) : Option Nat × State :=
  if s.sys.thermal = 3 ∨ !(hostActive s) then (none, s) else
  let dev := deviceReady s g
  match oldest (topPriority (dev.filter (flowOpen s))) with
  | some e => (some e.1, countPassed dev s)
  | none =>
    let order := berthOrder s g
    let able := order.filter (fun b => !(berthSet s g b).isEmpty)
    match findMin (fun b => roundsFor s g b) able with
    | none => (none, s)
    | some b0 =>
      let s1 := addRounds (roundsFor s g b0) g order s
      match able.find? (fun b => decide (0 < balanceOf s1 g b)) with
      | none => (none, s1)
      | some b =>
        let before := (order.takeWhile (fun n => decide (n ≠ b))).filter (fun n => !(able.contains n)) ++ [b]
        let s2 := onPilot (fun p => { p with last := tblSet p.last g b }) s1
        ((chooseIn s2 core (berthSet s1 g b)).map (·.1), countPassed (dev ++ before.flatMap (berthTop s1 g)) s2)

/-! ## Work items (R363, R381) -/

/-- The work handle of a task with the flags it fires (R381). -/
def handleOf (t : Nat) (x : Task) (fired : BitVec 32) : BitVec 64 :=
  let flow := match x.flow with
    | some f => f.val * 65536 + 2 ^ 28
    | none => 0
  BitVec.ofNat 64 (t + flow + x.priority.val * 2 ^ 29 + fired.toNat * 2 ^ 32)

/-- Flags consumed at a dispatch (R363): those of the mask, and flag 30. -/
def firedOf (x : Task) : BitVec 32 := x.flags &&& (x.mask ||| 0x40000000)

/-- The entry of a window that stands for the item a task has in hand. -/
def openEntry (t : Nat) (e : Nat × Option Nat) : Bool := decide (e.1 = t) && e.2.isNone

/-- A task is dispatched or prefetched: flags consumed, flow taken, delay removed. -/
def dispatch (t : Nat) (st : TState) (s : State) : Item × State :=
  let x := getT s t
  let fired := firedOf x
  let s1 := countP 0 1 (onT t (fun x => { x with state := st, flags := x.flags &&& ~~~fired }) s)
  let s2 := onPilot (fun p => { p with windows := tblMod [] p.windows x.grove.val (fun w => w ++ [(t, none)]) }) s1
  (⟨BitVec.ofNat 16 t, handleOf t x fired⟩, dropDelay t s2)

/-- A core runs a task: the last core that ran it (R358). -/
def ranOn (t core : Nat) (s : State) : State := onT t (fun x => { x with lastCore := BitVec.ofNat 8 core }) s

/-- An item goes back: READY with its consumed flags set again and its age kept (R360); it counts in no window. -/
def takeBack (i : Item) (failed : Bool) (s : State) : State :=
  let t := i.task.toNat
  let fired : BitVec 32 := i.handle.extractLsb' 32 32
  let s0 := onPilot (fun p => { p with
    windows := tblMod [] p.windows (getT s t).grove.val (fun w => w.filter (fun e => !(openEntry t e))) }) s
  if (getT s t).doomed then onT t (fun _ => {}) s0
  else
    let s1 := onT t (fun x => { x with state := .ready, flags := x.flags ||| fired }) s0
    if failed then countP 8 1 s1 else s1

/-- The grove of a core. -/
def groveOf (c : Nat) : Nat := c / 8

/-- PREFETCH mode of a grove, with FORCE_MODE (R382). -/
def prefetchMode (s : State) (g : Nat) : Bool :=
  if s.pilot.force = 1 then false
  else if s.pilot.force = 2 then true
  else s.pilot.prefetch.getLsbD g

/-- A release of a task at its DONEW (R360, R364): mask and mode as committed, a delay where the condition does not
hold, then READY where it does or flag 30 is set. -/
def release (t : Nat) (commit : Option WaitCommit) (s : State) : State :=
  if (getT s t).doomed then onT t (fun _ => {}) s
  else
    let s1 := onT t (fun x =>
      match commit with
      | some w => { x with state := .waiting, mask := w.mask, any := w.any }
      | none => { x with state := .waiting }) s
    if waitHolds (getT s1 t) then wake t s1
    else wake t (enterDelay t ((commit.map (·.delay)).getD 0) s1)

/-- The item a core holds is released: charge and window (R372, R382). -/
def finishItem (c : Nat) (i : Item) (cycles : Nat) (s : State) : State :=
  let x := getT s i.task.toNat
  let g := x.grove.val
  let charged := match x.berth with
    | some b => tblMod 0 s.pilot.balance (balanceKey g b.val) (fun v => v - (cycles : Int))
    | none => s.pilot.balance
  let s1 := onPilot (fun p => { p with
    windows := tblMod [] p.windows g (fun w => w.map (fun e =>
      if openEntry i.task.toNat e then (e.1, some cycles) else e)), balance := charged }) s
  let commit := (getCore s c).commit
  release i.task.toNat commit (onCore c (fun k => { k with item := none, commit := none, user := none }) s1)

/-- The loader destroys a task (R360). -/
def destroyTask (t : Nat) (s : State) : State :=
  let x := getT s t
  match x.state with
  | .free => s
  | .running => onT t (fun x => { x with doomed := true, job := none }) s
  | .prefetched =>
    onT t (fun _ => {}) { s with cores := s.cores.map (fun e =>
      match e.2.slot with
      | some i => if i.task.toNat = t then (e.1, { e.2 with slot := none }) else e
      | none => e) }
  | _ => onT t (fun _ => {}) (dropDelay t s)

/-- STOP is set on every task of a job (R387). -/
def stopTasks (j : Nat) (s : State) : State :=
  (s.pilot.tasks.filter (fun e => decide (e.2.job = some j))).foldl (fun s e => pulse e.1 30 none s) s

/-- Destroy every task of a job. -/
def destroyTasks (j : Nat) (s : State) : State :=
  let s1 := (s.pilot.tasks.filter (fun e => decide (e.2.job = some j))).foldl (fun s e => destroyTask e.1 s) s
  onPilot (fun p => { p with flows := p.flows.filter (fun e => !(decide (e.2 = j))) }) s1

/-- Tasks that count against a berth's quota (R385). -/
def tasksHeld (s : State) (b : Fin 512) : Nat :=
  (s.pilot.tasks.filter (fun e => decide (e.2.berth = some b) && e.2.state != .free)).length

/-- A core leaves dispatch: the item of its prefetch slot goes back (R360, R383). -/
def recallSlot (c : Nat) (s : State) : State :=
  match (getCore s c).slot with
  | some i => onCore c (fun k => { k with slot := none }) (takeBack i false s)
  | none => s

/-- A core stops being dispatched: its item and its slot go back (R360, R389). -/
def recallCore (c : Nat) (failed : Bool) (s : State) : State :=
  let k := getCore s c
  let s1 := match k.item with
    | some i => takeBack i failed s
    | none => s
  let s2 := match k.slot with
    | some i => takeBack i false s1
    | none => s1
  onCore c (fun k => { k with item := none, slot := none, commit := none, waiting := .none, user := none }) s2

end Sys2Proof.Machine
end

