-- ==== Sys2Proof/Machine/CoreOps.lean ====
section
/-! DEFINITION. What every instruction of a Vunal core shares (07_vunal_cores.md, 08_memory_ordering.md): registers,
the region table, exceptions, the store buffer, loads and stores, and the device register space. -/

namespace Sys2Proof.Machine

/-! ## Registers -/

/-- A g register; g0 reads as zero (07, R293). -/
def getG (k : Core) (n : Fin 32) : Word := if n = 0 then 0 else tblGet 0 k.g n.val
/-- Write a g register; writes to g0 are discarded (R293). -/
def setG (n : Fin 32) (v : Word) (k : Core) : Core := if n = 0 then k else { k with g := tblSet k.g n.val v }
def getF (k : Core) (n : Nat) : Word := tblGet 0 k.f n
def setF (n : Nat) (v : Word) (k : Core) : Core := { k with f := tblSet k.f n v }
/-- A short vector register: the pair (f2k, f2k+1) (R322). -/
def getS (k : Core) (n : Fin 16) : Nat := (getF k (2 * n.val)).toNat + 2 ^ 64 * (getF k (2 * n.val + 1)).toNat
def setS (n : Fin 16) (v : Nat) (k : Core) : Core :=
  setF (2 * n.val + 1) (BitVec.ofNat 64 (v / 2 ^ 64)) (setF (2 * n.val) (BitVec.ofNat 64 v) k)
/-- A predicate register; p0 reads as all ones (R302). -/
def getP (k : Core) (n : Fin 8) : BitVec 512 := if n = 0 then BitVec.allOnes 512 else tblGet 0 k.p n.val
def setP (n : Fin 8) (v : BitVec 512) (k : Core) : Core := { k with p := tblSet k.p n.val v }

/-- The pc after an instruction. -/
def next (k : Core) : Core := { k with pc := k.pc + 4 }

/-- A core instruction's whole register effect, with the pc's advance. -/
def finish (c : Fin 129) (f : Core → Core) (s : State) : State := onCore c.val (fun k => next (f k)) s

/-! ## Regions (08, R334 to R337) -/

/-- One region table entry in use, with the bits of R335. -/
def regionValid (r : Region) : Bool := r.base.getLsbD 0
def regionDevice (r : Region) : Bool := r.base.getLsbD 1
def regionRead (r : Region) (level : Nat) : Bool := r.base.getLsbD (2 + level)
def regionWrite (r : Region) (level : Nat) : Bool := r.base.getLsbD (5 + level)
def regionExec (r : Region) (level : Nat) : Bool := r.base.getLsbD (8 + level)

/-- The entry covers every byte of an access of `n` bytes (R335, R336). -/
def regionCovers (r : Region) (a n : Nat) : Bool :=
  decide (r.base.toNat / 4096 ≤ a / 4096) && decide ((a + n - 1) / 4096 ≤ r.limit.toNat / 4096)

/-- The lowest-numbered valid entry that covers an access (R336). -/
def regionFor (k : Core) (a n : Nat) : Option Region :=
  ((List.range 16).map (fun i => tblGet {} k.regions i)).find? (fun r => regionValid r && regionCovers r a n)

/-! ## The store buffer (R338, R339, R351) -/

/-- The tag of an access by a core (12, R500). -/
def coreTag (s : State) (c : Nat) (a : Nat) : Option (Fin 512) :=
  let k := getCore s c
  match k.item with
  | none => none
  | some i =>
    if k.level = 2 ∧ reserveBase s ≤ a ∧ a < interBytes s then none else (getT s i.task.toNat).berth

/-- The job of the work item a core holds. -/
def coreJob (s : State) (c : Nat) : Option Nat :=
  match (getCore s c).item with
  | none => none
  | some i => (getT s i.task.toNat).job

/-- A core's later loads of these bytes see memory as it is now, at the least. -/
def boundNow (c a n : Nat) (s : State) : State :=
  let t := s.dev.now
  onCore c (fun k => { k with bounds := (List.range n).foldl (fun m i => tblSet m (a + i) t) k.bounds }) s

/-- The first part of the buffer leaves it: it becomes visible, or it retires with error (R339, R351), or it is an
ownership violation (R354). -/
def partLeaves (c : Nat) (s : State) : State :=
  match (getCore s c).buffer with
  | [] => s
  | b :: rest =>
    let s1 := onCore c (fun k => { k with buffer := rest }) s
    match devWriteBy (some c) b.tag false b.addr b.data s1 with
    | (.ok _, s2) => boundNow c b.addr b.data.length s2
    | (.violation x, s2) =>
      match b.tag with
      | some t => noteViolation t x (coreJob s c) s2
      | none => s2
    | (_, s2) =>
      onCore c (fun k => { k with pendingError := k.pendingError.orElse (fun _ => some (BitVec.ofNat 64 b.addr)) }) s2

/-- Parts that make up the oldest entry of a buffer. -/
def headParts : List BufferedStore → Nat
  | [] => 0
  | b :: t => if b.joined then 1 + headParts t else 1

/-- Entries of a buffer. -/
def entryCount (l : List BufferedStore) : Nat := (l.filter (fun b => !b.joined)).length

/-- The oldest store leaves the buffer, as one. -/
def storeLeaves (c : Nat) (s : State) : State := Nat.repeat (partLeaves c) (headParts (getCore s c).buffer) s

/-- Stores leave the buffer until at most `n` parts are left. -/
def drainTo (c n : Nat) (s : State) : State :=
  Nat.repeat (fun s => if n < (getCore s c).buffer.length then storeLeaves c s else s) (getCore s c).buffer.length s

/-- The buffer drains: every store leaves in order. -/
def drain (c : Nat) (s : State) : State := Nat.repeat (partLeaves c) (getCore s c).buffer.length s

/-- A store enters the buffer; with 32 entries held it waits until one leaves (R339). -/
def bufferStore (c : Nat) (b : BufferedStore) (s : State) : State :=
  let s1 := if 32 ≤ entryCount (getCore s c).buffer then storeLeaves c s else s
  onCore c (fun k => { k with buffer := k.buffer ++ [b] }) s1

/-! ## Exceptions (07, R328 to R331) -/

/-- Fault code of a job whose pipeline-level code raised an exception (R330). -/
def coreFaultCode (cause : Nat) : Option Nat :=
  match cause with
  | 1 => some 0x0601
  | 2 => some 0x0602
  | 3 => some 0x0603
  | 4 => some 0x0604
  | 5 => some 0x0605
  | _ => none

/-- The core records an exception and goes on at runtime level. One of pipeline-level code ends the job (R330), and so
does one at user level, at the row in hand (04, R155). -/
def enter (c cause element : Nat) (addr : Word) (s : State) : State :=
  let k := getCore s c
  let s1 := onCore c (fun k => { k with
    excCause := BitVec.ofNat 8 cause, excLevel := k.level, excElement := BitVec.ofNat 10 element, excPc := k.pc,
    excAddr := addr, level := 2, pc := Config.runtimeEntry, reservation := none, waiting := .none }) s
  match coreJob s c, coreFaultCode cause with
  | some j, some code =>
    if k.level = 1 then
      match tblFind s.runs j with
      | some r => endFailed j code ((k.pc - BitVec.ofNat 64 r.codeBase).toNat) s1
      | none => s1
    else if k.level = 0 then endFailed j 0x0311 ((k.user.map (·.row)).getD 0) s1
    else s1
  | _, _ => s1

/-- The pending store error, when there is one, is raised here as BUS_ERROR; otherwise the work goes on (R351,
R352). -/
def pendingOr (c : Nat) (s : State) (go : State → State) : State :=
  match (getCore s c).pendingError with
  | some a => enter c 4 0 a (onCore c (fun k => { k with pendingError := none }) s)
  | none => go s

/-- Take an exception: the buffer drains, a pending store error comes first (R351). -/
def raise (c : Fin 129) (cause element : Nat) (addr : Word) (s : State) : State :=
  pendingOr c.val (drain c.val s) (enter c.val cause element addr)

/-- ILLEGAL_INSTRUCTION. -/
def illegal (c : Fin 129) (s : State) : State := raise c 1 0 0 s

/-! ## Running an instruction -/

/-- A core executes instructions: a grove core that is present, not isolated and not behind a gate that RESET or HOLD
closes (16, R666); the Harbourmaster outside RESET unless it is dead (R667). -/
def coreRuns (s : State) (c : Fin 129) : Bool :=
  let k := getCore s c.val
  !k.isolated &&
  (if c.val < 128 then hostActive s && s.present.cores.getLsbD c.val && s.present.groves.getLsbD (c.val / 8)
   else decide (s.sys.mode ≠ .reset) && !s.sys.holdDead)

/-- The target of a fetch answers with an error: it no longer answers, or its line reads as uncorrectable (R350; 12,
R521). -/
def fetchFails (s : State) (a : Nat) : Bool :=
  (deadAt s a 4).isSome || (linesOf a 4).any (fun l => s.dev.poison.contains l)

/-- Fetch of the instruction at the pc (08, R334, R336, R350; 12, R493, R501), then its meaning. -/
def fetched (c : Fin 129) (s : State) (body : Core → State) : State :=
  let k := getCore s c.val
  let a := k.pc.toNat
  match regionFor k a 4 with
  | none => raise c 3 0 0 s
  | some r =>
    if regionDevice r || !(regionExec r k.level.toNat) then raise c 3 0 0 s
    else match refusal s (coreTag s c.val a) false a 4 with
    | none => if fetchFails s a then raise c 4 0 0 s else body k
    | some (.violation x) =>
      match coreTag s c.val a with
      | some b => noteViolation b x (coreJob s c.val) s
      | none => s
    | some _ => raise c 4 0 0 s

/-- A core that does not wait executes one instruction. -/
def coreStep (c : Fin 129) (s : State) (body : Core → State) : State :=
  if coreRuns s c ∧ (getCore s c.val).waiting = .none then fetched c s body else s

/-- An instruction of a level (R289): below it, ILLEGAL_INSTRUCTION. -/
def atLevel (least : Nat) (c : Fin 129) (s : State) (body : Core → State) : State :=
  coreStep c s (fun k => if k.level.toNat < least then illegal c s else body k)

/-! ## The device register space (12, R494; 07, R318; 08, R335) -/

/-- A register of a core's control block: the core, and CORE_MODE, or a word of the region table. -/
inductive CoreReg where
  | mode (c : Nat)
  | base (c i : Nat)
  | limit (c i : Nat)
  | channel (c word : Nat)
  deriving DecidableEq, Repr

/-- A register page that the mesh has marked failed (R350). -/
def pageFailed (s : State) (a : Nat) : Bool := s.dev.failedPages.contains (a / 0x1000)

/-- Base of the core control blocks (R494). -/
def coreBlocks : Nat := 0x20000100000

/-- Base of the crane channels' control blocks (13, R544). -/
def channelBlocks : Nat := 0x20000200000

/-- The register whose 8 bytes hold an address. -/
def coreRegAt (a : Nat) : Option CoreReg :=
  if a < coreBlocks then none
  else if channelBlocks ≤ a then
    if a < channelBlocks + 0x40 * 64 ∧ a % 0x40 < 0x20 then
      some (.channel (a % 0x1000 / 0x40) (a % 0x40 / 8))
    else none
  else
    let c := a % 0x100000 / 0x1000
    let o := a % 0x1000
    if 129 ≤ c then none
    else if o < 8 then some (.mode c)
    else if o < 0x100 ∨ 0x200 ≤ o then none
    else if o % 16 < 8 then some (.base c ((o - 0x100) / 16))
    else some (.limit c ((o - 0x100) / 16))

/-- A crane channel. -/
def getCh (s : State) (c : Nat) : Channel := tblGet {} s.eng.channels c
def onCh (c : Nat) (f : Channel → Channel) (s : State) : State :=
  onEng (fun e => { e with channels := tblMod {} e.channels c f }) s

/-- Code of a channel state (13, R545). -/
def ChState.code : ChState → Nat
  | .idle => 0
  | .running => 1
  | .stopping => 2
  | .halted => 3

/-- A write to CH_START: without effect in RUNNING and STOPPING, and on a channel retired (13, R545; 16, R668). -/
def startChannel (c : Nat) (addr : BitVec 64) (s : State) : State :=
  let k := getCh s c
  if (k.state = .idle ∨ k.state = .halted) ∧ s.present.channels.getLsbD c then
    onCh c (fun k => { k with state := .running, current := addr, done := 0, desc := none, fetch := true, ending := none }) s
  else s

/-- A STOP: without effect outside RUNNING. The burst in flight is over, since a burst is one step; the descriptor ends
STOPPED, or, where it is not yet read, once it has been (13, R545). -/
def stopChannel (c : Nat) (s : State) : State :=
  let k := getCh s c
  if k.state = .running then
    onCh c (fun k => { k with
      state := .stopping, ending := if k.fetch || k.ending.isSome then k.ending else some (3, false) }) s
  else s

/-- Value of a register. -/
def coreRegRead (s : State) : CoreReg → BitVec 64
  | .channel c w =>
    let k := getCh s c
    match w with
    | 1 => BitVec.ofNat 64 (k.state.code + k.lastCode.toNat * 256 + b2n k.lastSurplus * 65536)
    | 2 => k.current
    | 3 => k.done
    | _ => 0
  | .mode c => if (getCore s c).structEn then 1 else 0
  | .base c i => (tblGet {} (getCore s c).regions i).base
  | .limit c i => (tblGet {} (getCore s c).regions i).limit

/-- Tisum may set STRUCT_EN: in BOOT and MAINTENANCE only (R317). -/
def structAllowed (s : State) : Bool := s.sys.mode == .boot || s.sys.mode == .maintenance

/-- Write an entry of a core's region table: not while the core holds a work item (R337). -/
def writeRegion (c i : Nat) (f : Region → Region) (s : State) : State :=
  if (getCore s c).item.isSome then s else onCore c (fun k => { k with regions := tblMod {} k.regions i f }) s

/-- Write a register: reserved bits keep reading zero (R318, R335). -/
def coreRegWrite (v : BitVec 64) (s : State) : CoreReg → State
  | .channel c w =>
    if w = 0 then startChannel c v s else if w = 1 ∧ v.getLsbD 32 then stopChannel c s else s
  | .mode c => if v.getLsbD 0 && !(structAllowed s) then s else onCore c (fun k => { k with structEn := v.getLsbD 0 }) s
  | .base c i => writeRegion c i (fun r => { r with base := v &&& 0xFFFFFFFFFFFFF7FF }) s
  | .limit c i => writeRegion c i (fun r => { r with limit := v &&& 0xFFFFFFFFFFFFF000 }) s

/-- A core's gate is open: it is present, not isolated, and HOLD has not closed it (R350; 16, R666). -/
def coreOpen (s : State) (c : Nat) : Bool :=
  decide (c = 128) ||
  (hostActive s && s.present.cores.getLsbD c && s.present.groves.getLsbD (c / 8) && !(getCore s c).isolated)

/-- The unit that holds a register answers: its page is not marked failed, its gate is open, and a channel is in use
(R350; 16, R666, R668). -/
def regAnswers (s : State) (a : Nat) (r : CoreReg) : Bool :=
  !(pageFailed s a) &&
  (match r with
   | .channel c _ => hostActive s && s.present.channels.getLsbD c
   | .mode c => coreOpen s c
   | .base c _ => coreOpen s c
   | .limit c _ => coreOpen s c)

/-- Put `n` bytes of a value into a word at byte `o`. -/
def mergeWord (old : BitVec 64) (o : Nat) (data : Bytes) : BitVec 64 :=
  BitVec.ofNat 64 (leNat (overlay (natLe 8 old.toNat) o data))

/-- A device-region load of a core: the value, or an error answer. -/
def deviceLoad (c : Fin 129) (a n : Nat) (s : State) : DevResult × State :=
  if regBase ≤ a ∧ a < regEnd then
    match coreTag s c.val a with
    | some _ => (.violation a, s)
    | none =>
      match coreRegAt a with
      | some r => if regAnswers s a r then (.ok (slice (natLe 8 (coreRegRead s r).toNat) (a % 8) n), s) else (.noAnswer a, s)
      | none => (if pageFailed s a then .noAnswer a else .noMemory a, s)
  else devRead (coreTag s c.val a) false a n s

/-- Who writes a register: the Harbourmaster the cores' blocks, every core's runtime the channels (R318, R494). -/
def writesReg (c : Fin 129) : CoreReg → Bool
  | .channel _ _ => true
  | _ => decide (c.val = 128)

/-- A device-region store of a core. The Harbourmaster alone writes core registers, at runtime level (R318, R337). -/
def deviceStore (c : Fin 129) (a : Nat) (data : Bytes) (s : State) : DevResult × State :=
  if regBase ≤ a ∧ a < regEnd then
    match coreTag s c.val a with
    | some _ => (.violation a, s)
    | none =>
      match coreRegAt a with
      | some r =>
        if !(regAnswers s a r) then (.noAnswer a, s)
        else if writesReg c r ∧ (getCore s c.val).level = 2 then
          (.ok [], coreRegWrite (mergeWord (coreRegRead s r) (a % 8) data) s r)
        else (.noMemory a, s)
      | none => (if pageFailed s a then .noAnswer a else .noMemory a, s)
  else devWriteBy (some c.val) (coreTag s c.val a) false a data s

/-! ## Loads and stores -/

/-- Why an access does not complete: an exception, or an ownership violation (R354). -/
inductive AccessFault where
  | cause (n : Nat)
  | violation (addr : Nat)
  deriving DecidableEq, Repr

/-- Natural alignment of an access of `n` bytes; a predicate of a size that is no element's has none. -/
def naturalUnit (n : Nat) : Nat := if [2, 4, 8, 16].contains n then n else 1

/-- The type of an access, or the exception it raises, MISALIGNED before REGION (R329, R334, R336). `vector` accesses
may not touch a device region (07, R313, R324). -/
def accessType (k : Core) (write vector : Bool) (a n : Nat) : Except Nat Bool :=
  match regionFor k a n with
  | none => .error 3
  | some r =>
    let allowed := if write then regionWrite r k.level.toNat else regionRead r k.level.toNat
    if regionDevice r then
      if a % naturalUnit n ≠ 0 then .error 2
      else if vector then .error 3
      else if allowed then .ok true else .error 3
    else if allowed then .ok false else .error 3

/-- One byte as it was at an instant: the value before the first later write of it (R338, R341). The history is newest
first. -/
def byteAt (s : State) (t a : Nat) : Byte :=
  match (s.dev.history.filter (fun e => decide (e.2.1 = a) && decide (t < e.1))).getLast? with
  | some e => e.2.2
  | none => memGet 0 s.dev.mem a

/-- The instant at which a load of a core is satisfied: as asked, but never older than R338 allows. -/
def loadInstant (s : State) (k : Core) (seen a n : Nat) : Nat :=
  min s.dev.now ((List.range n).foldl (fun m i => max m (tblGet 0 k.bounds (a + i))) (max seen k.floor))

/-- Stores of the buffer that overlap an access, youngest last, with their places. -/
def overlapping (k : Core) (a n : Nat) : List (Nat × BufferedStore) :=
  ((List.range k.buffer.length).zip k.buffer).filter (fun e =>
    decide (e.2.addr < a + n) && decide (a < e.2.addr + e.2.data.length))

/-- A load from normal memory as it is satisfied at an instant (R338, R341). -/
def memoryLoad (c : Fin 129) (a n seen : Nat) (s : State) : Except AccessFault Bytes × State :=
  let tag := coreTag s c.val a
  match devRead tag false a n s with
  | (.ok _, s1) =>
    let t := loadInstant s1 (getCore s1 c.val) seen a n
    let data := (List.range n).map (fun i => byteAt s1 t (a + i))
    (.ok data, onCore c.val (fun k => { k with bounds := (List.range n).foldl (fun m i => tblSet m (a + i) t) k.bounds }) s1)
  | (.violation x, s1) => (.error (.violation x), s1)
  | (_, s1) => (.error (.cause 4), s1)

/-- A load from normal memory: from the youngest buffered store that covers it; where stores cover it in part, once
they have left; otherwise from memory (R340). -/
def normalLoad (c : Fin 129) (a n seen : Nat) (s : State) : Except AccessFault Bytes × State :=
  match (overlapping (getCore s c.val) a n).getLast? with
  | some (i, b) =>
    if b.addr ≤ a ∧ a + n ≤ b.addr + b.data.length then (.ok (slice b.data (a - b.addr) n), s)
    else memoryLoad c a n seen (drainTo c.val ((getCore s c.val).buffer.length - (i + 1)) s)
  | none => memoryLoad c a n seen s

/-- A violation awaits its handling; the instruction has no effect. -/
def violate (c : Fin 129) (a x : Nat) (s : State) : State :=
  match coreTag s c.val a with
  | some b => noteViolation b x (coreJob s c.val) s
  | none => s

/-- A scalar load of `n` bytes at `a`, and what follows with its value. -/
def loadThen (c : Fin 129) (a n seen : Nat) (vector : Bool) (s : State) (go : Bytes → State → State) : State :=
  match accessType (getCore s c.val) false vector a n with
  | .error cause => raise c cause 0 (BitVec.ofNat 64 a) s
  | .ok true =>
    pendingOr c.val (drain c.val s) (fun s1 =>
      match deviceLoad c a n s1 with
      | (.ok d, s2) => go d (onCore c.val (fun k => { k with floor := s2.dev.now }) s2)
      | (.violation x, s2) => violate c a x s2
      | (_, s2) => raise c 4 0 (BitVec.ofNat 64 a) s2)
  | .ok false =>
    match normalLoad c a n seen s with
    | (.ok d, s1) => go d s1
    | (.error (.violation x), s1) => violate c a x s1
    | (.error (.cause e), s1) => raise c e 0 (BitVec.ofNat 64 a) s1

/-- The pieces of a store that lie within aligned 8-byte pieces, in ascending order (R342). -/
def storePieces : Nat → Nat → Bytes → List (Nat × Bytes)
  | 0, _, _ => []
  | fuel + 1, a, data =>
    if data.isEmpty then []
    else
      let k := min data.length (8 - a % 8)
      (a, data.take k) :: storePieces fuel (a + k) (data.drop k)

/-- A store of normal memory enters the buffer, a wide or misaligned one as its pieces. -/
def bufferPieces (c : Fin 129) (a : Nat) (data : Bytes) (s : State) : State :=
  (storePieces (data.length + 1) a data).foldl
    (fun s p => bufferStore c.val ⟨p.1, p.2, coreTag s c.val p.1, false⟩ s) s

/-- A scalar or short vector store, and what follows it. -/
def storeThen (c : Fin 129) (a : Nat) (data : Bytes) (vector : Bool) (s : State) (go : State → State) : State :=
  match accessType (getCore s c.val) true vector a data.length with
  | .error cause => raise c cause 0 (BitVec.ofNat 64 a) s
  | .ok true =>
    pendingOr c.val (drain c.val s) (fun s1 =>
      match deviceStore c a data s1 with
      | (.ok _, s2) => go (onCore c.val (fun k => { k with floor := s2.dev.now }) s2)
      | (.violation x, s2) => violate c a x s2
      | (_, s2) => raise c 4 0 (BitVec.ofNat 64 a) s2)
  | .ok false => go (bufferPieces c a data s)

end Sys2Proof.Machine
end

