-- ==== Sys2Proof/Machine/Inflate.lean ====
section
/-! DEFINITION. The RFC 1951 decoder that quays and compression engines apply to packed payloads (02_column_blocks.md,
R63 to R66, R69, R70). Bits are read from each byte's least significant bit upward. -/

namespace Sys2Proof.Machine

/-- The bits of a string of bytes, bit 0 of byte 0 first (R6, R42). -/
def bitsLe (b : Bytes) : List Bool := b.flatMap (fun x => (List.range 8).map x.getLsbD)

/-- The number a string of bits spells, least significant bit first. -/
def bitsNat : List Bool → Nat
  | [] => 0
  | b :: t => b2n b + 2 * bitsNat t

/-- Why an inflate stops early: a stream that breaks RFC 1951 (DATA_ERROR(STREAM)) or a length that differs from
the one stated (DATA_ERROR(LENGTH), R69). -/
inductive InflateError where
  | stream
  | length
  deriving DecidableEq, Repr

/-- Take `n` bits as a number; input that runs out is a length failure (R69). -/
def takeBits (n : Nat) (b : List Bool) : Except InflateError (Nat × List Bool) :=
  let t := b.take n
  if t.length < n then .error .length else .ok (bitsNat t, b.drop n)

/-- A canonical Huffman code: how many codes each length 1 to 15 has, and the symbols in code order. -/
structure Huff where
  counts : List Nat
  syms : List Nat
  deriving DecidableEq, Repr

/-- The canonical code of a list of code lengths. -/
def mkHuff (lens : List Nat) : Huff :=
  let ls := (List.range 15).map (· + 1)
  ⟨ls.map (fun l => lens.countP (· == l)),
   ls.flatMap (fun l => (List.range lens.length).filter (fun s => lens.getD s 0 == l))⟩

/-- Codes left unused by a code (none where it is over-subscribed). -/
def huffLeft (counts : List Nat) : Option Nat :=
  counts.foldl (fun acc c => acc.bind (fun l => if c ≤ 2 * l then some (2 * l - c) else none)) (some 1)

/-- A code is usable: complete, or a code of at most one symbol of length 1, as RFC 1951 allows. -/
def huffUsable (h : Huff) : Bool :=
  match huffLeft h.counts with
  | none => false
  | some 0 => true
  | some _ => h.syms.length == 0 || (h.syms.length == 1 && h.counts.headD 0 == 1)

/-- How many prefixes of one bit less the codes of these lengths begin with. -/
def huffPrefixes : List Nat → Nat
  | [] => 0
  | c :: cs => ceilDiv (c + huffPrefixes cs) 2

/-- Read one symbol, code bits most significant first. Bits that no code begins with are an invalid code whether or not
input follows them (R74). -/
def huffSymbol (syms : List Nat) : List Nat → Nat → Nat → Nat → List Bool → Except InflateError (Nat × List Bool)
  | [], _, _, _, _ => .error .stream
  | c :: cs, code, first, index, b =>
    if first / 2 + huffPrefixes (c :: cs) ≤ code then .error .stream
    else match b with
    | [] => .error .length
    | b :: t =>
    let code' := 2 * code + b2n b
    if code' < first + c then .ok (syms.getD (index + (code' - first)) 0, t)
    else huffSymbol syms cs code' (2 * (first + c)) (index + c) t

/-- Read one symbol of a code. -/
def huffRead (h : Huff) (b : List Bool) : Except InflateError (Nat × List Bool) := huffSymbol h.syms h.counts 0 0 0 b

/-- Base and extra bits of the length codes 257 to 285. -/
def lengthCodes : List (Nat × Nat) :=
  [(3, 0), (4, 0), (5, 0), (6, 0), (7, 0), (8, 0), (9, 0), (10, 0), (11, 1), (13, 1), (15, 1), (17, 1), (19, 2),
   (23, 2), (27, 2), (31, 2), (35, 3), (43, 3), (51, 3), (59, 3), (67, 4), (83, 4), (99, 4), (115, 4), (131, 5),
   (163, 5), (195, 5), (227, 5), (258, 0)]

/-- Base and extra bits of the distance codes 0 to 29. -/
def distanceCodes : List (Nat × Nat) :=
  [(1, 0), (2, 0), (3, 0), (4, 0), (5, 1), (7, 1), (9, 2), (13, 2), (17, 3), (25, 3), (33, 4), (49, 4), (65, 5),
   (97, 5), (129, 6), (193, 6), (257, 7), (385, 7), (513, 8), (769, 8), (1025, 9), (1537, 9), (2049, 10), (3073, 10),
   (4097, 11), (6145, 11), (8193, 12), (12289, 12), (16385, 13), (24577, 13)]

/-- The order in which a dynamic block lists its code length code lengths. -/
def clOrder : List Nat := [16, 17, 18, 0, 8, 7, 9, 6, 10, 5, 11, 4, 12, 3, 13, 2, 14, 1, 15]

/-- Output under way: bytes newest first, and how many there are. -/
structure InflOut where
  rev : Bytes
  count : Nat

/-- One output byte; a byte past the stated length is a length failure (R69). -/
def outByte (limit : Nat) (o : InflOut) (b : Byte) : Except InflateError InflOut :=
  if o.count < limit then .ok ⟨b :: o.rev, o.count + 1⟩ else .error .length

/-- Copy `n` bytes from `dist` back, byte by byte. -/
def outCopy (limit dist : Nat) : Nat → InflOut → Except InflateError InflOut
  | 0, o => .ok o
  | n + 1, o => match outByte limit o (o.rev.getD (dist - 1) 0) with
    | .error e => .error e
    | .ok o' => outCopy limit dist n o'

/-- The bytes of a stored block. -/
def outStored (limit : Nat) : Nat → InflOut → List Bool → Except InflateError (InflOut × List Bool)
  | 0, o, b => .ok (o, b)
  | n + 1, o, b => do
    let (v, b) ← takeBits 8 b
    let o ← outByte limit o (BitVec.ofNat 8 v)
    outStored limit n o b

/-- The symbols of a Huffman block up to its end-of-block code. -/
def outCodes (limit : Nat) (lit dist : Huff) : Nat → InflOut → List Bool → Except InflateError (InflOut × List Bool)
  | 0, _, _ => .error .length
  | fuel + 1, o, b => do
    let (sy, b) ← huffRead lit b
    if sy < 256 then
      let o ← outByte limit o (BitVec.ofNat 8 sy)
      outCodes limit lit dist fuel o b
    else if sy = 256 then return (o, b)
    else
      match lengthCodes[sy - 257]? with
      | none => .error .stream
      | some (lb, lx) =>
        let (le, b) ← takeBits lx b
        let (ds, b) ← huffRead dist b
        match distanceCodes[ds]? with
        | none => .error .stream
        | some (db, dx) =>
          let (de, b) ← takeBits dx b
          let d := db + de
          if o.count < d then .error .stream
          else
            let o ← outCopy limit d (lb + le) o
            outCodes limit lit dist fuel o b

/-- The code lengths of a dynamic block, run-length coded. -/
def readLengths (cl : Huff) (want : Nat) : Nat → List Nat → List Bool → Except InflateError (List Nat × List Bool)
  | 0, _, _ => .error .stream
  | fuel + 1, acc, b =>
    if acc.length = want then .ok (acc.reverse, b)
    else do
      let (sy, b) ← huffRead cl b
      if sy < 16 then readLengths cl want fuel (sy :: acc) b
      else
        let (base, nb, v) := if sy = 16 then (3, 2, acc.headD 0) else if sy = 17 then (3, 3, 0) else (11, 7, 0)
        if sy = 16 ∧ acc = [] then .error .stream
        else
          let (x, b) ← takeBits nb b
          if acc.length + base + x > want then .error .stream
          else readLengths cl want fuel (List.replicate (base + x) v ++ acc) b

/-- The fixed literal and length code. -/
def fixedLit : Huff :=
  mkHuff (List.replicate 144 8 ++ List.replicate 112 9 ++ List.replicate 24 7 ++ List.replicate 8 8)

/-- The fixed distance code. -/
def fixedDist : Huff := mkHuff (List.replicate 30 5)

/-- The header of a dynamic block: its two codes. -/
def readDynamic (b : List Bool) : Except InflateError (Huff × Huff × List Bool) := do
  let (hlit, b) ← takeBits 5 b
  let (hdist, b) ← takeBits 5 b
  let (hclen, b) ← takeBits 4 b
  if hlit > 29 then .error .stream
  else
    let rec cls : Nat → List Bool → Except InflateError (List Nat × List Bool)
      | 0, b => .ok ([], b)
      | n + 1, b => do
        let (v, b) ← takeBits 3 b
        let (t, b) ← cls n b
        return (v :: t, b)
    let (ls, b) ← cls (hclen + 4) b
    let lens := (List.range 19).map (fun s =>
      match clOrder.idxOf? s with
      | some i => ls.getD i 0
      | none => 0)
    let cl := mkHuff lens
    if !(huffUsable cl) then .error .stream
    else
      let want := hlit + 257 + hdist + 1
      let (all, b) ← readLengths cl want (want + 1) [] b
      let lit := mkHuff (all.take (hlit + 257))
      let dist := mkHuff (all.drop (hlit + 257))
      if all.getD 256 0 = 0 ∨ !(huffUsable lit) ∨ !(huffUsable dist) then .error .stream
      else return (lit, dist, b)

/-- Blocks up to the one marked final. `total` is the bits of the whole input, from which a stored block finds the
next byte boundary. -/
def inflateBlocks (limit total : Nat) : Nat → InflOut → List Bool → Except InflateError (InflOut × List Bool)
  | 0, _, _ => .error .length
  | fuel + 1, o, b => do
    let (fin, b) ← takeBits 1 b
    let (ty, b) ← takeBits 2 b
    let (o, b) ←
      if ty = 0 then do
        let used := total - b.length
        let b := b.drop ((8 - used % 8) % 8)
        let (len, b) ← takeBits 16 b
        let (nlen, b) ← takeBits 16 b
        if len + nlen ≠ 65535 then .error .stream else outStored limit len o b
      else if ty = 1 then outCodes limit fixedLit fixedDist (total + 1) o b
      else if ty = 2 then do
        let (lit, dist, b) ← readDynamic b
        outCodes limit lit dist (total + 1) o b
      else .error .stream
    if fin = 1 then return (o, b) else inflateBlocks limit total fuel o b

/-- Inflate a payload that states `limit` bytes of output. The answer holds the bytes and whether input bytes follow
the final block (R69, R70). -/
def inflate (limit : Nat) (input : Bytes) : Except InflateError (Bytes × Bool) := do
  let bits := bitsLe input
  let (o, rest) ← inflateBlocks limit bits.length (bits.length + 1) ⟨[], 0⟩ bits
  if o.count = limit then return (o.rev.reverse, decide (8 ≤ rest.length)) else .error .length

end Sys2Proof.Machine
end

