-- ==== Sys2Proof/Machine/Blocks.lean ====
section
/-! DEFINITION. Column blocks (02_column_blocks.md): the header and its rules, the payload's layout, the decoding of
each encoding, dictionaries, column directories. All of it is pure: memory is read by the callers. -/

namespace Sys2Proof.Machine

/-- The arithmetic class of a TYPE (R40). -/
inductive TypeClass where
  | signed
  | unsigned
  | float
  | bool
  | bytes
  deriving DecidableEq, Repr

/-- Class and FIXED size in bytes of each TYPE code; other codes are reserved (R40). -/
def typeInfo (t : Nat) : Option (TypeClass × Nat) :=
  match t with
  | 0x01 => some (.signed, 1)
  | 0x02 => some (.signed, 2)
  | 0x03 => some (.signed, 4)
  | 0x04 => some (.signed, 8)
  | 0x05 => some (.signed, 16)
  | 0x09 => some (.unsigned, 1)
  | 0x0A => some (.unsigned, 2)
  | 0x0B => some (.unsigned, 4)
  | 0x0C => some (.unsigned, 8)
  | 0x10 => some (.float, 4)
  | 0x11 => some (.float, 8)
  | 0x18 => some (.signed, 16)
  | 0x20 => some (.signed, 4)
  | 0x21 => some (.signed, 8)
  | 0x28 => some (.bool, 0)
  | 0x30 => some (.bytes, 0)
  | 0x31 => some (.bytes, 0)
  | _ => none

/-- FIXED size of a TYPE in bytes, 0 where it has none. -/
def typeSize (t : Nat) : Nat := ((typeInfo t).map (·.2)).getD 0

/-- Class of a TYPE; the class of a reserved code is of no use and is given as bytes. -/
def typeClass (t : Nat) : TypeClass := ((typeInfo t).map (·.1)).getD .bytes

/-- The largest value a byte string may have in line, and the largest value there is (R54). -/
def maxInline : Nat := 1024

/-- The block header (R37). -/
structure BlockHeader where
  format : Nat
  type : Nat
  encoding : Nat
  packing : Nat
  flags : Nat
  bitWidth : Nat
  reserved : Nat
  rowCount : Nat
  encodedLength : Nat
  storedLength : Nat
  check : Nat
  firstRow : Nat
  zoneMin : Nat
  zoneMax : Nat
  deriving DecidableEq, Repr

/-- The 64 bytes of a header as its fields (R37). -/
def parseHeader (b : Bytes) : BlockHeader :=
  { format := field b 0 1, type := field b 1 1, encoding := field b 2 1, packing := field b 3 1,
    flags := field b 4 2, bitWidth := field b 6 1, reserved := field b 7 1, rowCount := field b 8 4,
    encodedLength := field b 0x0C 4, storedLength := field b 0x10 4, check := field b 0x14 4,
    firstRow := field b 0x18 8, zoneMin := field b 0x20 16, zoneMax := field b 0x30 16 }

/-- FLAGS bits (R37). -/
def BlockHeader.hasNulls (h : BlockHeader) : Bool := bitOf h.flags 0
def BlockHeader.zoneValid (h : BlockHeader) : Bool := bitOf h.flags 2
def BlockHeader.nullBitmap (h : BlockHeader) : Bool := bitOf h.flags 3
def BlockHeader.dictRef (h : BlockHeader) : Bool := bitOf h.flags 4

/-- The all-NULL form: HAS_NULLS without a bitmap (R57). -/
def BlockHeader.allNull (h : BlockHeader) : Bool := h.hasNulls && !h.nullBitmap

/-- Bytes the block occupies: header and stored payload, rounded up to 64 (R38). -/
def BlockHeader.footprint (h : BlockHeader) : Nat := roundUp (64 + h.storedLength) 64

/-- Signed and unsigned types of 8 to 64 bits, DATE32 and TS64: the types of BITPACK, DELTA and RLE (R43). -/
def narrowInt (t : Nat) : Bool :=
  match typeInfo t with
  | some (.signed, n) => decide (n ≤ 8)
  | some (.unsigned, n) => decide (n ≤ 8)
  | _ => false

/-- The pairing of TYPE and ENCODING and the range of BIT_WIDTH (R43). -/
def encodingAllowed (t enc bw : Nat) : Bool :=
  match enc, typeInfo t with
  | 0, some (c, _) => decide (bw = 0) && (c == .signed || c == .unsigned || c == .float)
  | 1, some (_, n) => narrowInt t && decide (1 ≤ bw) && decide (bw ≤ 8 * n)
  | 2, some (c, _) => (c == .signed || c == .unsigned) && decide (bw ≤ 64)
  | 3, some _ => narrowInt t && decide (bw ≤ 64)
  | 4, some _ => narrowInt t && decide (bw ≤ 64)
  | 5, some (c, _) => (c != .bool) && decide (1 ≤ bw) && decide (bw ≤ 16)
  | 6, some (c, _) => (c == .bytes) && decide (bw = 0)
  | 7, some (c, _) => (c == .bool) && decide (bw = 0)
  | _, _ => false

/-- The header rules of R67 step 1. Whether a partial block ends its column (R33) is the directory's rule R77; `last`
says that the block may end one. -/
def headerOk (h : BlockHeader) (last : Bool) : Bool :=
  decide (h.format = 1) && decide (h.reserved = 0) && decide (h.flags < 32) &&
  (typeInfo h.type).isSome && decide (h.encoding ≤ 7) && decide (h.packing ≤ 3) &&
  decide (h.firstRow % 4096 = 0) && decide (1 ≤ h.rowCount) && decide (h.rowCount ≤ 65536) &&
  (last || decide (h.rowCount % 4096 = 0)) &&
  (decide (h.encoding ≠ 6) || decide (h.rowCount ≤ 4096)) &&
  decide (h.encodedLength ≤ if h.encoding = 6 then 0x410000 else 65536) &&
  (if h.packing = 0 ∨ h.packing = 3 then decide (h.storedLength = h.encodedLength)
   else decide (h.storedLength ≤ h.encodedLength)) &&
  (!h.dictRef || decide (h.encoding = 5)) &&
  (if h.allNull then
     decide (h.encodedLength = 0) && decide (h.bitWidth = 0) && !h.zoneValid && decide (h.encoding = 0)
   else
     encodingAllowed h.type h.encoding h.bitWidth &&
     (decide (h.encoding ≠ 2 ∧ h.encoding ≠ 4) || h.zoneValid))

/-- Data errors of a block, each with the fault code of R74. -/
inductive DataError where
  | header
  | placement
  | length
  | check
  | stream
  | value
  | dict
  | directory
  | body
  deriving DecidableEq, Repr

/-- Fault codes (R74). -/
def DataError.code : DataError → Nat
  | .header => 0x0201
  | .placement => 0x0202
  | .length => 0x0203
  | .check => 0x0204
  | .stream => 0x0205
  | .value => 0x0206
  | .dict => 0x0207
  | .directory => 0x0208
  | .body => 0x0209

/-- A fault code and its fault position. -/
abbrev FaultAt := Nat × Nat

/-- Bytes of a bit-packed sequence, padded to 8 (R41, R42). -/
def packedBytes (n w : Nat) : Nat := roundUp (ceilDiv (n * w) 8) 8

/-- Bytes of the NULL bitmap section (R56). -/
def nullBytes (rows : Nat) : Nat := 8 * ceilDiv rows 64

/-- Bytes of the sections before the encoding's own. -/
def BlockHeader.base (h : BlockHeader) : Nat := if h.nullBitmap then nullBytes h.rowCount else 0

/-- The layout length that the sections need, from the counts as read; none where a count itself lies beyond the
payload (R67 step 5, R71). -/
def layoutLength (h : BlockHeader) (p : Bytes) : Option Nat :=
  let o := h.base
  let n := h.rowCount
  if h.allNull then some 0
  else match h.encoding with
  | 0 => some (o + roundUp (n * typeSize h.type) 8)
  | 1 => some (o + packedBytes n h.bitWidth)
  | 2 => some (o + packedBytes n h.bitWidth)
  | 3 => some (o + 8 + packedBytes (n - 1) h.bitWidth)
  | 4 =>
    if o + 4 ≤ p.length then
      let r := field p o 4
      some (o + 8 + roundUp (2 * r) 8 + packedBytes r h.bitWidth)
    else none
  | 5 =>
    if h.dictRef then some (o + 16 + packedBytes n h.bitWidth)
    else if o + 8 ≤ p.length then some (o + roundUp (8 + field p (o + 4) 4) 8 + packedBytes n h.bitWidth)
    else none
  | 6 =>
    let a := o + 4 * n
    if a + 4 ≤ p.length then some (o + roundUp (4 * (n + 1)) 8 + roundUp (field p a 4 % 2 ^ 31) 8) else none
  | _ => some (o + packedBytes n 1)

/-- `n` fields of `w` bits from a string of bits (R42). -/
def fieldsOf (w : Nat) : Nat → List Bool → List Nat
  | 0, _ => []
  | n + 1, b => bitsNat (b.take w) :: fieldsOf w n (b.drop w)

/-- `n` fields of `w` bits packed from offset `o` of a payload (R42). -/
def packedFields (p : Bytes) (o n w : Nat) : List Nat := fieldsOf w n (bitsLe (slice p o (packedBytes n w)))

/-- `n` little-endian values of `w` bytes from the start of a string of bytes. -/
def valuesOf (w : Nat) : Nat → Bytes → List Nat
  | 0, _ => []
  | n + 1, b => leNat (b.take w) :: valuesOf w n (b.drop w)

/-- A FOR offset added to ZONE_MIN modulo 2^128 and cut to the type's width (R45). -/
def forValue (h : BlockHeader) (off : Nat) : Nat := (h.zoneMin + off) % 2 ^ 128 % 2 ^ (8 * typeSize h.type)

/-- The running sum of DELTA: the values after the first (R46). -/
def deltaRun (bits : Nat) : Nat → List Nat → List Nat
  | _, [] => []
  | acc, z :: t =>
    let d := if z % 2 = 1 then 2 ^ 64 - 1 - z / 2 else z / 2
    let v := (acc + d) % 2 ^ 64
    (v % 2 ^ bits) :: deltaRun bits v t

/-- The runs of RLE expanded, with the row of the first run that breaks a rule (R47). `prev` is the number of rows
expanded so far. -/
def rleRun (h : BlockHeader) : Nat → List (Nat × Nat) → Except FaultAt (List Nat)
  | prev, [] =>
    if prev = h.rowCount then .ok [] else .error (DataError.value.code, h.firstRow + prev)
  | prev, (e, off) :: t =>
    if e < prev ∨ h.rowCount ≤ e ∨ (t = [] ∧ e + 1 ≠ h.rowCount) then
      .error (DataError.value.code, h.firstRow + prev)
    else (rleRun h (e + 1) t).map (List.replicate (e + 1 - prev) (forValue h off) ++ ·)

/-- The entries of a dictionary body (R48): fixed-size values, or strings by offsets. None where a rule breaks. Its
length includes its padding, so it is a multiple of 8; one larger than the entries need is accepted (DESIGN CHOICE, log
204). -/
def dictBody (t count : Nat) (body : Bytes) : Option (List Value) :=
  if body.length % 8 ≠ 0 then none
  else match typeClass t with
  | .bytes =>
    let ob := roundUp (4 * (count + 1)) 8
    if body.length < ob then none
    else
      let offs := valuesOf 4 (count + 1) body
      let pairs := offs.zip offs.tail
      if offs.headD 0 ≠ 0 ∨ body.length < ob + offs.getD count 0 then none
      else if pairs.all (fun x => decide (x.1 ≤ x.2) && decide (x.2 - x.1 ≤ maxInline)) then
        some (pairs.map (fun x => Value.str (slice body (ob + x.1) (x.2 - x.1))))
      else none
  | .bool => none
  | _ =>
    if body.length < count * typeSize t then none
    else some ((valuesOf (typeSize t) count body).map Value.num)

/-- Which rows hold a value: the NULL bitmap, or all (R56, R57). -/
def validRows (h : BlockHeader) (p : Bytes) : List Bool :=
  if h.allNull then List.replicate h.rowCount false
  else if h.nullBitmap then (bitsLe (p.take (nullBytes h.rowCount))).take h.rowCount
  else List.replicate h.rowCount true

/-- DICT codes to entries; a code of a non-NULL row at or beyond the block's count is a value failure (R52, R58). -/
def dictRows (first count : Nat) (entries : List Value) : Nat → List (Nat × Bool) → Except FaultAt (List Value)
  | _, [] => .ok []
  | i, (c, ok) :: t =>
    if ok && decide (count ≤ c) then .error (DataError.value.code, first + i)
    else (dictRows first count entries (i + 1) t).map ((if ok then entries.getD c .null else .null) :: ·)

/-- A long-value reference is valid: its length in range, its bytes wholly in the interleaved window of `inter`
bytes (R54, R118). -/
def longOk (inter addr len : Nat) : Bool :=
  decide (1025 ≤ len) && decide (len ≤ 65535) && decide (addr + len ≤ inter)

/-- VARLEN slots (R53, R54, R58). `offs` holds this row's offset and the later ones. -/
def varlenRows (inter first : Nat) (bytes : Bytes) : Nat → List Nat → List Bool → Except FaultAt (List Value)
  | i, a :: b :: t, ok :: oks =>
    let lo := a % 2 ^ 31
    let hi := b % 2 ^ 31
    let bad : Except FaultAt (List Value) := .error (DataError.value.code, first + i)
    if hi < lo then bad
    else
      let rest := varlenRows inter first bytes (i + 1) (b :: t) oks
      if !ok then rest.map (.null :: ·)
      else if 2 ^ 31 ≤ b then
        let r := slice bytes lo 16
        if hi - lo = 16 ∧ longOk inter (field r 0 8) (field r 8 4) then
          rest.map (.long (field r 0 8) (field r 8 4) (field r 12 4) :: ·)
        else bad
      else if maxInline < hi - lo then bad
      else rest.map (.str (slice bytes lo (hi - lo)) :: ·)
  | _, _, _ => .ok []

/-- Values under a NULL bitmap. -/
def maskNulls (vals : List Nat) (ok : List Bool) : List Value :=
  List.zipWith (fun v o => if o then Value.num v else Value.null) vals ok

/-- The value rules and the decoding of a payload whose layout fits (R67 step 6, R44 to R58). `dict` holds the
entries of the dictionary object that a DICT_REF block names, found and checked by the caller. `inter` is the size
of the interleaved window. -/
def decodeValues (inter : Nat) (h : BlockHeader) (dict : List Value) (p : Bytes) : Except FaultAt (List Value) :=
  let o := h.base
  let n := h.rowCount
  let bits := 8 * typeSize h.type
  let ok := validRows h p
  if h.allNull then .ok (List.replicate n .null)
  else match h.encoding with
  | 0 => .ok (maskNulls (valuesOf (typeSize h.type) n (p.drop o)) ok)
  | 1 => .ok (maskNulls ((packedFields p o n h.bitWidth).map (fun f =>
      if typeClass h.type == .signed then unsigned bits (signed h.bitWidth f) else f)) ok)
  | 2 => .ok (maskNulls ((packedFields p o n h.bitWidth).map (forValue h)) ok)
  | 3 =>
    let v0 := field p o 8
    .ok (maskNulls ((v0 % 2 ^ bits) :: deltaRun bits v0 (packedFields p (o + 8) (n - 1) h.bitWidth)) ok)
  | 4 =>
    let r := field p o 4
    if r = 0 ∨ 65536 < r ∨ field p (o + 4) 4 ≠ 0 then .error (DataError.value.code, h.firstRow)
    else
      let ends := valuesOf 2 r (p.drop (o + 8))
      let offs := packedFields p (o + 8 + roundUp (2 * r) 8) r h.bitWidth
      (rleRun h 0 (ends.zip offs)).map (fun vs => maskNulls vs ok)
  | 5 =>
    if h.dictRef then
      dictRows h.firstRow (field p (o + 8) 4) dict 0 ((packedFields p (o + 16) n h.bitWidth).zip ok)
    else
      let count := field p o 4
      let len := field p (o + 4) 4
      if count = 0 ∨ 65536 < count then .error (DataError.value.code, h.firstRow)
      else match dictBody h.type count (slice p (o + 8) len) with
      | none => .error (DataError.value.code, h.firstRow)
      | some es =>
        dictRows h.firstRow count es 0 ((packedFields p (o + roundUp (8 + len) 8) n h.bitWidth).zip ok)
  | 6 =>
    let offs := valuesOf 4 (n + 1) (p.drop o)
    if offs.headD 0 ≠ 0 then .error (DataError.value.code, h.firstRow)
    else varlenRows inter h.firstRow (p.drop (o + roundUp (4 * (n + 1)) 8)) 0 offs ok
  | _ => .ok (maskNulls (packedFields p o n 1) ok)

/-- The encoded payload of a stored one, and whether input followed the final DEFLATE block (R67 step 3, R69,
R70). -/
def unpackPayload (h : BlockHeader) (stored : Bytes) : Except FaultAt (Bytes × Bool) :=
  if h.packing = 1 ∨ h.packing = 2 then
    match inflate h.encodedLength stored with
    | .ok r => .ok r
    | .error .stream => .error (DataError.stream.code, h.firstRow)
    | .error .length => .error (DataError.length.code, h.firstRow)
  else .ok (stored.take h.encodedLength, false)

/-- Steps 3 and 4 of R67: the payload, and whether input followed its stream. -/
def verifyPayload (h : BlockHeader) (stored : Bytes) : Except FaultAt Bytes × Bool :=
  match unpackPayload h stored with
  | .error e => (.error e, false)
  | .ok (p, surplus) =>
    (if (crc32c p).toNat ≠ h.check then .error (DataError.check.code, h.firstRow) else .ok p, surplus)

/-- Steps 3 to 5 of R67: the payload, and whether the block counts as surplus (R70, R71), which it does whatever a later
step finds. A block with surplus input and surplus payload counts once (DESIGN CHOICE, log 205). -/
def checkPayload (h : BlockHeader) (stored : Bytes) : Except FaultAt Bytes × Bool :=
  match verifyPayload h stored with
  | (.error e, surplus) => (.error e, surplus)
  | (.ok p, surplus) =>
    match layoutLength h p with
    | none => (.error (DataError.length.code, h.firstRow), surplus)
    | some l =>
      if h.encodedLength < l then (.error (DataError.length.code, h.firstRow), surplus)
      else (.ok p, surplus || decide (l < h.encodedLength))

/-- A VARLEN block so large that its payload is read twice (R73). -/
def BlockHeader.twoPass (h : BlockHeader) : Bool := decide (h.encoding = 6) && decide (65536 < h.encodedLength)

/-- Run ends of an RLE payload, in order (R47). -/
def runEndsOf (h : BlockHeader) (p : Bytes) : List Nat :=
  if h.encoding = 4 ∧ !h.allNull then valuesOf 2 (field p h.base 4) (p.drop (h.base + 8)) else []

/-- The dictionary reference of a DICT_REF payload: address, count and check (R49). -/
def dictRefOf (h : BlockHeader) (p : Bytes) : Nat × Nat × Nat :=
  (field p h.base 8, field p (h.base + 8) 4, field p (h.base + 12) 4)

/-- The fault position of a failure of the whole directory (R74). -/
def allOnes : Nat := 0xFFFFFFFFFFFFFFFF

/-- The 32 bytes of a directory entry as its fields, with whether it breaks a reserved rule (R8, R76). -/
def parseDirEntry (b : Bytes) : DirEntry × Bool :=
  ({ address := field b 0 8, firstRow := field b 8 8, rowCount := field b 0x10 4, footprint := field b 0x14 4,
     subchannel := field b 0x18 1 }, allZero (slice b 0x19 7) && decide (field b 0x18 1 ≤ 31))

/-- The entries of a directory under R77, or the index of the first that fails. -/
def dirEntries : Nat → Nat → Nat → Bytes → Except FaultAt (List DirEntry)
  | 0, _, _, _ => .ok []
  | n + 1, k, row, b =>
    let (e, ok) := parseDirEntry (b.take 32)
    if !ok ∨ e.firstRow ≠ row ∨ (0 < n ∧ e.rowCount % 4096 ≠ 0) then .error (DataError.directory.code, k)
    else (dirEntries n (k + 1) (row + e.rowCount) (b.drop 32)).map (e :: ·)

/-- The head of a directory is usable: FORMAT, reserved fields, TYPE, SCALE, BLOCK_COUNT within CAPACITY (R76). -/
def dirHeadOk (addr : Nat) (b : Bytes) : Bool :=
  decide (addr % 64 = 0) && decide (field b 0 1 = 3) && (typeInfo (field b 1 1)).isSome &&
  decide (field b 2 1 ≤ if field b 1 1 = 0x18 then 38 else 0) && decide (field b 3 1 = 0) &&
  decide (field b 4 4 ≤ field b 8 4) && allZero (slice b 0x20 32)

/-- A snapshot of a directory from its bytes (R78): the head first, then CHECK, then R77, then TOTAL_ROWS. -/
def parseDirectory (addr : Nat) (head body : Bytes) : Except FaultAt Directory :=
  if !(dirHeadOk addr head) then .error (DataError.directory.code, allOnes)
  else if (crc32c body).toNat ≠ field head 0x0C 4 then .error (DataError.directory.code, allOnes)
  else match dirEntries (field head 4 4) 0 0 body with
  | .error e => .error e
  | .ok es =>
    if (es.map (·.rowCount)).sum ≠ field head 0x10 8 then .error (DataError.directory.code, allOnes)
    else .ok { addr := addr, type := field head 1 1, scale := field head 2 1, entries := es,
               totalRows := field head 0x10 8 }

/-- The entry of a directory that holds a row, with its index. -/
def Directory.entryOf (d : Directory) (row : Nat) : Option (Nat × DirEntry) :=
  let k := d.entries.findIdx (fun e => decide (e.firstRow ≤ row) && decide (row < e.firstRow + e.rowCount))
  (d.entries[k]?).map (fun e => (k, e))

/-- Value `i` of a decoded block. -/
def cellAt (vs : List Value) (i : Nat) : Value := vs.getD i .null

end Sys2Proof.Machine
end

