-- ==== Sys2Proof/Machine/Float.lean ====
section
/-! DEFINITION. IEEE 754-2019 binary32 and binary64 arithmetic on bit patterns (07_vunal_cores.md, R294): exact values
rounded once, with the five exception flags. -/

namespace Sys2Proof.Machine

/-- The rounding modes of FCSR[7:5] (R296). -/
inductive Round where
  | nearest
  | zero
  | down
  | up
  deriving DecidableEq, Repr

/-- The five exception flags. -/
structure FFlags where
  invalid : Bool := false
  divZero : Bool := false
  overflow : Bool := false
  underflow : Bool := false
  inexact : Bool := false
  deriving DecidableEq, Repr

/-- Flags of two operations together. -/
def FFlags.or (a b : FFlags) : FFlags :=
  ⟨a.invalid || b.invalid, a.divZero || b.divZero, a.overflow || b.overflow, a.underflow || b.underflow,
   a.inexact || b.inexact⟩

/-- A result's bit pattern and its flags. -/
abbrev FRes := Nat × FFlags

def fracBits : FFmt → Nat
  | .b32 => 23
  | .b64 => 52

def expBits : FFmt → Nat
  | .b32 => 8
  | .b64 => 11

def fmtBits : FFmt → Nat
  | .b32 => 32
  | .b64 => 64

def fbias (f : FFmt) : Int := 2 ^ (expBits f - 1) - 1

/-- The value a pattern stands for: a finite value is (−1)^neg × m × 2^e. -/
inductive FVal where
  | nan (quiet : Bool)
  | inf (neg : Bool)
  | fin (neg : Bool) (m : Nat) (e : Int)
  deriving DecidableEq, Repr

/-- Least exponent of the last place. -/
def qmin (f : FFmt) : Int := 1 - fbias f - fracBits f

def unpackF (f : FFmt) (b : Nat) : FVal :=
  let frac := b % 2 ^ fracBits f
  let ex := b / 2 ^ fracBits f % 2 ^ expBits f
  let neg := b.testBit (fmtBits f - 1)
  if ex = 2 ^ expBits f - 1 then (if frac = 0 then .inf neg else .nan (frac.testBit (fracBits f - 1)))
  else if ex = 0 then .fin neg frac (qmin f)
  else .fin neg (frac + 2 ^ fracBits f) (qmin f + (ex - 1 : Nat))

def signBit (f : FFmt) (neg : Bool) : Nat := if neg then 2 ^ (fmtBits f - 1) else 0

def infBits (f : FFmt) (neg : Bool) : Nat := signBit f neg + (2 ^ expBits f - 1) * 2 ^ fracBits f

def maxBits (f : FFmt) (neg : Bool) : Nat := infBits f neg - 1

/-- A quiet NaN whose sign and payload are open. -/
def nanOf (f : FFmt) (operation : Nat) (args : List Nat) : Nat :=
  let x := Config.nanBits operation args
  infBits f (x.testBit 0) + 2 ^ (fracBits f - 1) + x / 2 % 2 ^ (fracBits f - 1)

/-- Length of a number in bits. -/
def bitLength (m : Nat) : Nat := if m = 0 then 0 else Nat.log2 m + 1

/-- Cut the low `s` bits of `m` by a rounding mode; `sticky` says that more lies below them. The result and whether it
is inexact. -/
def roundAt (r : Round) (neg : Bool) (m s : Nat) (sticky : Bool) : Nat × Bool :=
  let n := m / 2 ^ s
  let rem := m % 2 ^ s
  let inexact := sticky || decide (rem ≠ 0)
  let half := if s = 0 then 0 else 2 ^ (s - 1)
  let up := match r with
    | .nearest => decide (s ≠ 0) && (decide (half < rem) || (decide (rem = half) && (sticky || decide (n % 2 = 1))))
    | .zero => false
    | .down => neg && inexact
    | .up => !neg && inexact
  (if up then n + 1 else n, inexact)

/-- Round the exact value (−1)^neg × m × 2^e, `m` nonzero; with `sticky` a little more in magnitude. -/
def roundF (f : FFmt) (r : Round) (neg : Bool) (m : Nat) (e : Int) (sticky : Bool) : FRes :=
  let p := fracBits f + 1
  let lead : Int := e + bitLength m - 1
  let q0 : Int := lead + 1 - p
  let q := max q0 (qmin f)
  let cut (q : Int) : Nat × Bool :=
    if q ≤ e then (m * 2 ^ (e - q).toNat, sticky) else roundAt r neg m (q - e).toNat sticky
  let (n, inexact) := cut q
  let emin : Int := 1 - fbias f
  let tinyBefore := decide (lead < emin)
  let tinyAfter := tinyBefore && decide ((cut q0).1 < 2 ^ p ∨ lead + 1 < emin)
  let tiny := if Config.tinyAfterRounding then tinyAfter else tinyBefore
  let (n, q) := if n = 2 ^ p then (2 ^ (p - 1), q + 1) else (n, q)
  if n < 2 ^ (p - 1) then
    (signBit f neg + n, { inexact := inexact, underflow := tiny && inexact })
  else
    let ex := (q - qmin f + 1).toNat
    if 2 ^ expBits f - 1 ≤ ex then
      let big := match r with
        | .nearest => true
        | .zero => false
        | .down => neg
        | .up => !neg
      (if big then infBits f neg else maxBits f neg, { overflow := true, inexact := true })
    else
      (signBit f neg + ex * 2 ^ fracBits f + (n - 2 ^ (p - 1)),
       { inexact := inexact, underflow := tiny && inexact })

/-- Round an exact value that may be zero; `zneg` is the sign of a zero. -/
def roundZ (f : FFmt) (r : Round) (zneg : Bool) (z : Int) (e : Int) : FRes :=
  if z = 0 then (signBit f zneg, {}) else roundF f r (decide (z < 0)) z.natAbs e false

/-- A value as an integer times 2^e. -/
def FVal.int (neg : Bool) (m : Nat) : Int := if neg then -(m : Int) else m

/-- A signalling NaN among operands. -/
def anySignal (vs : List FVal) : Bool := vs.any (fun v => v == .nan false)

/-- A NaN among operands. -/
def anyNan (vs : List FVal) : Bool := vs.any (fun v => v == .nan false || v == .nan true)

/-- The exact sum of two finite values, rounded once. -/
def addFin (f : FFmt) (r : Round) (n1 : Bool) (m1 : Nat) (e1 : Int) (n2 : Bool) (m2 : Nat) (e2 : Int) : FRes :=
  let e := min e1 e2
  let a := FVal.int n1 m1 * 2 ^ (e1 - e).toNat
  let b := FVal.int n2 m2 * 2 ^ (e2 - e).toNat
  let zneg := if m1 = 0 ∧ m2 = 0 ∧ n1 = n2 then n1 else r == .down
  roundZ f r zneg (a + b) e

/-- Add two values of which the second was negated for a subtraction. -/
def fadd (f : FFmt) (r : Round) (op a b : Nat) (flip : Bool) : FRes :=
  let va := unpackF f a
  let vb := match unpackF f b with
    | .nan q => FVal.nan q
    | .inf n => .inf (n != flip)
    | .fin n m e => .fin (n != flip) m e
  if anyNan [va, vb] then (nanOf f op [a, b], { invalid := anySignal [va, vb] })
  else match va, vb with
  | .inf x, .inf y => if x = y then (infBits f x, {}) else (nanOf f op [a, b], { invalid := true })
  | .inf x, _ => (infBits f x, {})
  | _, .inf y => (infBits f y, {})
  | .fin n1 m1 e1, .fin n2 m2 e2 => addFin f r n1 m1 e1 n2 m2 e2
  | _, _ => (0, {})

def fmul (f : FFmt) (r : Round) (a b : Nat) : FRes :=
  let va := unpackF f a
  let vb := unpackF f b
  if anyNan [va, vb] then (nanOf f 2 [a, b], { invalid := anySignal [va, vb] })
  else match va, vb with
  | .inf x, .inf y => (infBits f (x != y), {})
  | .inf x, .fin y m _ => if m = 0 then (nanOf f 2 [a, b], { invalid := true }) else (infBits f (x != y), {})
  | .fin x m _, .inf y => if m = 0 then (nanOf f 2 [a, b], { invalid := true }) else (infBits f (x != y), {})
  | .fin n1 m1 e1, .fin n2 m2 e2 =>
    if m1 = 0 ∨ m2 = 0 then (signBit f (n1 != n2), {}) else roundF f r (n1 != n2) (m1 * m2) (e1 + e2) false
  | _, _ => (0, {})

def fdiv (f : FFmt) (r : Round) (a b : Nat) : FRes :=
  let va := unpackF f a
  let vb := unpackF f b
  if anyNan [va, vb] then (nanOf f 3 [a, b], { invalid := anySignal [va, vb] })
  else match va, vb with
  | .inf _, .inf _ => (nanOf f 3 [a, b], { invalid := true })
  | .inf x, .fin y _ _ => (infBits f (x != y), {})
  | .fin x _ _, .inf y => (signBit f (x != y), {})
  | .fin n1 m1 e1, .fin n2 m2 e2 =>
    if m2 = 0 then
      if m1 = 0 then (nanOf f 3 [a, b], { invalid := true }) else (infBits f (n1 != n2), { divZero := true })
    else if m1 = 0 then (signBit f (n1 != n2), {})
    else
      let k := fracBits f + 4 + bitLength m2
      let x := m1 * 2 ^ k
      roundF f r (n1 != n2) (x / m2) (e1 - e2 - k) (decide (x % m2 ≠ 0))
  | _, _ => (0, {})

/-- vd + a × b with one rounding (R305). -/
def ffma (f : FFmt) (r : Round) (a b c : Nat) : FRes :=
  let va := unpackF f a
  let vb := unpackF f b
  let vc := unpackF f c
  let zeroInf := match va, vb with
    | .inf _, .fin _ m _ => decide (m = 0)
    | .fin _ m _, .inf _ => decide (m = 0)
    | _, _ => false
  if anyNan [va, vb, vc] then
    (nanOf f 4 [a, b, c], { invalid := anySignal [va, vb, vc] || (zeroInf && Config.fmaInvalidNan) })
  else if zeroInf then (nanOf f 4 [a, b, c], { invalid := true })
  else
    let prodNeg (x y : Bool) := x != y
    let withInf (x : Bool) : FRes := match vc with
      | .inf y => if x = y then (infBits f x, {}) else (nanOf f 4 [a, b, c], { invalid := true })
      | _ => (infBits f x, {})
    match va, vb with
    | .inf x, .inf y => withInf (prodNeg x y)
    | .inf x, .fin y _ _ => withInf (prodNeg x y)
    | .fin x _ _, .inf y => withInf (prodNeg x y)
    | .fin n1 m1 e1, .fin n2 m2 e2 =>
      match vc with
      | .inf y => (infBits f y, {})
      | .fin n3 m3 e3 => addFin f r (prodNeg n1 n2) (m1 * m2) (e1 + e2) n3 m3 e3
      | .nan _ => (0, {})
    | _, _ => (0, {})

/-- The largest number whose square is at most `n`, searched bit by bit from bit `k`. -/
def isqrt (n : Nat) : Nat → Nat → Nat
  | 0, r => if (r + 1) * (r + 1) ≤ n then r + 1 else r
  | k + 1, r =>
    let t := r + 2 ^ (k + 1)
    isqrt n k (if t * t ≤ n then t else r)

def fsqrt (f : FFmt) (r : Round) (a : Nat) : FRes :=
  let va := unpackF f a
  match va with
  | .nan q => (nanOf f 5 [a], { invalid := !q })
  | .inf n => if n then (nanOf f 5 [a], { invalid := true }) else (a, {})
  | .fin n m e =>
    if m = 0 then (a, {})
    else if n then (nanOf f 5 [a], { invalid := true })
    else
      let t0 := 2 * (fracBits f + 4)
      let t := if (e - t0) % 2 = 0 then t0 else t0 + 1
      let x := m * 2 ^ t
      let s := isqrt x (bitLength x / 2 + 1) 0
      roundF f r false s ((e - t) / 2) (decide (s * s ≠ x))

/-- Key of a pattern in the order of R109: −0 equals +0, every NaN is the greatest. -/
def forderKey (f : FFmt) (b : Nat) : Int :=
  match unpackF f b with
  | .nan _ => 2 ^ fmtBits f
  | _ =>
    let mag := b % 2 ^ (fmtBits f - 1)
    if b.testBit (fmtBits f - 1) then -(mag : Int) else mag

/-- An IEEE 754 compare; unordered is false (R305). -/
def fcompare (f : FFmt) (r : FRel) (quiet : Bool) (a b : Nat) : Bool × FFlags :=
  let va := unpackF f a
  let vb := unpackF f b
  if anyNan [va, vb] then (false, { invalid := !quiet || anySignal [va, vb] })
  else
    let x := forderKey f a
    let y := forderKey f b
    (match r with
      | .eq => decide (x = y)
      | .lt => decide (x < y)
      | .le => decide (x ≤ y), {})

/-- From one format to another. -/
def fconvert (src dst : FFmt) (r : Round) (a : Nat) : FRes :=
  match unpackF src a with
  | .nan q => (nanOf dst 6 [a], { invalid := !q })
  | .inf n => (infBits dst n, {})
  | .fin n m e => if m = 0 then (signBit dst n, {}) else roundF dst r n m e false

/-- The integer nearest to a finite value by a rounding mode, and whether it is inexact. -/
def fintegral (r : Round) (neg : Bool) (m : Nat) (e : Int) : Int × Bool :=
  if 0 ≤ e then (FVal.int neg (m * 2 ^ e.toNat), false)
  else
    let (n, x) := roundAt r neg m (-e).toNat false
    (FVal.int neg n, x)

/-- Least and greatest integer of a width. -/
def intRange (isSigned : Bool) (w : Nat) : Int × Int :=
  if isSigned then (-(2 ^ (w - 1)), 2 ^ (w - 1) - 1) else (0, 2 ^ w - 1)

/-- To an integer of `w` bits. With `saturate` a value out of range gives the nearest limit and a NaN gives 0
(R305); otherwise the result is open. -/
def ftoInt (f : FFmt) (r : Round) (isSigned : Bool) (w : Nat) (saturate : Bool) (a : Nat) : FRes :=
  let (lo, hi) := intRange isSigned w
  let out (limit : Nat) : FRes := (if saturate then limit else Config.convertInvalid w a % 2 ^ w, { invalid := true })
  match unpackF f a with
  | .nan _ => out 0
  | .inf n => out (unsigned w (if n then lo else hi))
  | .fin n m e =>
    let (z, x) := fintegral r n m e
    if z < lo then out (unsigned w lo)
    else if hi < z then out (unsigned w hi)
    else (unsigned w z, { inexact := x })

/-- From an integer of `w` bits. -/
def fofInt (f : FFmt) (r : Round) (isSigned : Bool) (w : Nat) (a : Nat) : FRes :=
  roundZ f r false (if isSigned then signed w a else ((a % 2 ^ w : Nat) : Int)) 0

/-- Take the places of a list that the numbers name, each among those left, and then the rest. -/
def takePlaces : List Nat → List Nat → List Nat
  | [], left => left
  | n :: t, left => left.getD n 0 :: takePlaces t (left.eraseIdx n)

/-- The five places of FCSR[4:0] in an order: of invalid, division by zero, overflow, underflow and inexact. -/
def flagPlaces (o : Fin 5 × Fin 4 × Fin 3 × Fin 2) : List Nat :=
  takePlaces [o.1.val, o.2.1.val, o.2.2.1.val, o.2.2.2.val] (List.range 5)

/-- FCSR with an operation's flags accumulated, each in its own bit (R294). -/
def flagsInto (fcsr : BitVec 8) (x : FFlags) : BitVec 8 :=
  ((flagPlaces Config.flagOrder).zip [x.invalid, x.divZero, x.overflow, x.underflow, x.inexact]).foldl
    (fun v e => if e.2 then v ||| (1#8 <<< e.1) else v) fcsr

/-- The rounding of scalar operations (R294, R296). -/
def fcsrRound (fcsr : BitVec 8) : Round :=
  let code := fcsr.toNat / 32
  match (if code < 4 then code else (Config.reservedRounding code).val) with
  | 0 => .nearest
  | 1 => .zero
  | 2 => .down
  | _ => .up

end Sys2Proof.Machine
end

