-- ==== Sys2Proof/Machine/Rows.lean ====
section
/-! DEFINITION. Rows and values (03 to 05): the orders of R109, the key hash, normalised sort keys, predicate slots and
zone proofs, and the layout of row batches. All of it is pure. -/

namespace Sys2Proof.Machine

/-! ## Orders (03, R109) -/

/-- Format of a float type by its size. -/
def floatFmt (t : Nat) : FFmt := if t = 0x10 then .b32 else .b64

/-- Bits of a fixed-size type. -/
def typeBits (t : Nat) : Nat := 8 * typeSize t

/-- Key of a fixed-size value in its type's order. -/
def orderKey (t n : Nat) : Int :=
  match typeClass t with
  | .signed => signed (typeBits t) n
  | .float => forderKey (floatFmt t) n
  | _ => n

/-- Unsigned byte order; a proper prefix is less. -/
def bytesLess : Bytes → Bytes → Bool
  | _, [] => false
  | [], _ :: _ => true
  | a :: s, b :: t => if a.toNat < b.toNat then true else if b.toNat < a.toNat then false else bytesLess s t

/-- Bytes of a value held in line. -/
def valBytes : Value → Bytes
  | .str b => b
  | _ => []

/-- Pattern of a fixed-size value. -/
def valPattern : Value → Nat
  | .num n => n
  | _ => 0

/-- Strict order of two non-NULL values of a type. -/
def valueLess (t : Nat) (a b : Value) : Bool :=
  match a, b with
  | .num x, .num y => decide (orderKey t x < orderKey t y)
  | _, _ => bytesLess (valBytes a) (valBytes b)

/-- Equality in a type's order (R109, 05 R203). -/
def valueEq (t : Nat) (a b : Value) : Bool :=
  match a, b with
  | .num x, .num y => decide (orderKey t x = orderKey t y)
  | .str x, .str y => decide (x = y)
  | .null, .null => true
  | _, _ => false

/-! ## The key hash (05, R200 to R202) -/

/-- The canonical pattern of a float (R200). -/
def canonical (t n : Nat) : Nat :=
  if typeClass t = .float then
    match unpackF (floatFmt t) n with
    | .nan _ => if t = 0x10 then 0x7FC00000 else 0x7FF8000000000000
    | .fin _ 0 _ => 0
    | _ => n
  else n

/-- `n` little-endian words of 8 bytes. -/
def words8 : Nat → Bytes → List Nat
  | 0, _ => []
  | n + 1, b => leNat (b.take 8) :: words8 n (b.drop 8)

/-- Words that a key column contributes (R200). -/
def keyWords (t : Nat) (v : Value) : List Word :=
  match v with
  | .num n =>
    if typeSize t = 16 then [BitVec.ofNat 64 n, BitVec.ofNat 64 (n / 2 ^ 64)]
    else match typeClass t with
      | .signed => [BitVec.ofInt 64 (signed (typeBits t) n)]
      | .float => [BitVec.ofNat 64 (canonical t n)]
      | _ => [BitVec.ofNat 64 n]
  | .str b => (words8 (ceilDiv b.length 8) b).map (BitVec.ofNat 64) ++ [BitVec.ofNat 64 b.length]
  | _ => [0x4E554C4C4E554C4C]

/-- The mixing function (R201). -/
def mix (x : Word) : Word :=
  let x := x ^^^ (x >>> 33)
  let x := x * 0xB5E34A9D72C10F87
  let x := x ^^^ (x >>> 29)
  let x := x * 0x94D16EB30A57C8E5
  x ^^^ (x >>> 32)

/-- The key hash over typed key values (R201). -/
def keyHash (keys : List (Nat × Value)) : Word :=
  mix ((keys.flatMap (fun k => keyWords k.1 k.2)).foldl (fun h w => mix (h ^^^ w)) 0x7A3F19C4E58B2D61
    ^^^ BitVec.ofNat 64 keys.length)

/-- The hash used inside tables (R201). -/
def bucketHash (h : Word) : Word := mix (h ^^^ 0x2D358A1FC6E07B49)

/-! ## Normalised keys (05, R223 to R227) -/

/-- Value bytes of one key field that is not NULL (R223). -/
def keyField (t maxBytes : Nat) (v : Value) : Bytes :=
  match v with
  | .num n =>
    match typeClass t with
    | .signed => natBe (typeSize t) ((n + 2 ^ (typeBits t - 1)) % 2 ^ typeBits t)
    | .float =>
      let c := canonical t n
      let top := 2 ^ (typeBits t - 1)
      natBe (typeSize t) (if c < top then c + top else 2 * top - 1 - c)
    | .bool => natBe 1 n
    | _ => natBe (typeSize t) n
  | .str b => padTo maxBytes b ++ natBe 1 (if b.length ≤ maxBytes then b.length else maxBytes + 1)
  | _ => []

/-- Bytes of a key field of a type. -/
def keyFieldLength (t maxBytes : Nat) : Nat :=
  match typeClass t with
  | .bytes => maxBytes + 1
  | .bool => 1
  | _ => typeSize t

/-- One field of a normalised key (R223 to R225). -/
def normField (k : SortKey) (t : Nat) (v : Value) : Bytes :=
  match v with
  | .null => BitVec.ofNat 8 (b2n k.nullsLast) :: List.replicate (keyFieldLength t k.maxBytes) 0
  | _ =>
    let b := keyField t k.maxBytes v
    BitVec.ofNat 8 (b2n (!k.nullsLast)) :: (if k.desc then b.map (fun x => ~~~x) else b)

/-- The normalised key of a row. -/
def normKey (schema : Schema) (keys : List SortKey) (r : Row) : Bytes :=
  keys.flatMap (fun k => normField k (schema.getD k.column (0, 0)).1 (r.getD k.column .null))

/-- Full comparison of the byte-string keys of two rows whose normalised keys are equal (R227). -/
def tieLess (schema : Schema) (r1 r2 : Row) : List SortKey → Bool
  | [] => false
  | k :: t =>
    if typeClass (schema.getD k.column (0, 0)).1 = .bytes then
      let a := (valBytes (r1.getD k.column .null))
      let b := (valBytes (r2.getD k.column .null))
      if bytesLess a b then !k.desc else if bytesLess b a then k.desc else tieLess schema r1 r2 t
    else tieLess schema r1 r2 t

/-- Both rows of some byte-string field run past MAX_BYTES. -/
def bothLong (schema : Schema) (keys : List SortKey) (r1 r2 : Row) : Bool :=
  keys.any (fun k => typeClass (schema.getD k.column (0, 0)).1 == .bytes &&
    decide (k.maxBytes < (valBytes (r1.getD k.column .null)).length) &&
    decide (k.maxBytes < (valBytes (r2.getD k.column .null)).length))

/-- Row order of SORT and MERGE (R227). -/
def rowLess (schema : Schema) (keys : List SortKey) (r1 r2 : Row) : Bool :=
  let a := normKey schema keys r1
  let b := normKey schema keys r2
  if a = b then bothLong schema keys r1 r2 && tieLess schema r1 r2 keys else bytesLess a b

/-- Insert a row after those that are not greater (R229). -/
def insertRow {α : Type} (less : α → α → Bool) (x : α) : List α → List α
  | [] => [x]
  | y :: t => if less x y then x :: y :: t else y :: insertRow less x t

/-- Stable sort of rows (R229). -/
def sortRows {α : Type} (less : α → α → Bool) (rows : List α) : List α :=
  rows.foldl (fun acc r => insertRow less r acc) []

/-! ## Predicate slots (03, R104 to R117) -/

/-- What a slot says of a row; `need` asks for the bytes of a long value (R117). -/
inductive Verdict where
  | yes
  | no
  | unknown
  | need (addr len : Nat)
  deriving DecidableEq, Repr

def verdict (b : Bool) : Verdict := if b then .yes else .no

/-- Literal A of a slot on a byte-string column (R108). -/
def SlotPred.textA (s : SlotPred) : Bytes := (s.litA ++ s.litB).take s.lenA
/-- Literal B of BETWEEN on a byte-string column. -/
def SlotPred.textB (s : SlotPred) : Bytes := s.litB.take s.lenB

/-- The literals as values of a type (R107, R108). -/
def SlotPred.valueA (s : SlotPred) (t : Nat) : Value :=
  match typeClass t with
  | .bytes => .str s.textA
  | .bool => .num (leNat (s.litA.take 1))
  | _ => .num (leNat (s.litA.take (typeSize t)))
def SlotPred.valueB (s : SlotPred) (t : Nat) : Value :=
  match typeClass t with
  | .bytes => .str s.textB
  | _ => .num (leNat (s.litB.take (typeSize t)))

/-- One byte string occurs in another. -/
def occursIn (a : Bytes) : Bytes → Bool
  | [] => a.isEmpty
  | b :: t => a.isPrefixOf (b :: t) || occursIn a t

/-- The operator of a slot on a value that is known in full (R105). -/
def slotTrue (s : SlotPred) (t : Nat) (v : Value) : Bool :=
  let a := s.valueA t
  match s.op with
  | 1 => valueEq t v a
  | 2 => !(valueEq t v a)
  | 3 => valueLess t v a
  | 4 => !(valueLess t a v)
  | 5 => valueLess t a v
  | 6 => !(valueLess t v a)
  | 7 => !(valueLess t v a) && !(valueLess t (s.valueB t) v)
  | 0x0A => decide ((valPattern v) &&& (valPattern a) = (valPattern a))
  | 0x0B => decide ((valPattern v) &&& (valPattern a) ≠ 0)
  | 0x0C => s.textA.isPrefixOf (valBytes v)
  | 0x0D => occursIn s.textA (valBytes v)
  | _ => false

/-- Comparison of a long value with a literal by its PREFIX: less, greater, or open (R117). -/
def longVsLiteral (prefx : Nat) (lit : Bytes) : Option Bool :=
  let p := (natLe 4 prefx).take (min 4 lit.length)
  let l := lit.take 4
  if p = l then (if lit.length ≤ 4 then some false else none) else some (bytesLess p l)

/-- The operator of a slot on a long value of which only LENGTH and PREFIX are known (R117). `some true` of
`longVsLiteral` means v < A. -/
def slotLong (s : SlotPred) (prefx : Nat) : Option Bool :=
  let a := longVsLiteral prefx s.textA
  let b := longVsLiteral prefx s.textB
  match s.op with
  | 1 => some false
  | 2 => some true
  | 3 => a
  | 4 => a
  | 5 => a.map (!·)
  | 6 => a.map (!·)
  | 7 =>
    if a = some true ∨ b = some false then some false
    else if a = some false ∧ b = some true then some true else none
  | 0x0C =>
    let n := min 4 s.textA.length
    if (natLe 4 prefx).take n = s.textA.take n then (if s.textA.length ≤ 4 then some true else none) else some false
  | _ => none

/-- NEGATE (R111). -/
def negate (n : Bool) : Verdict → Verdict
  | .yes => if n then .no else .yes
  | .no => if n then .yes else .no
  | v => v

/-- The verdict of a slot on a value (R110, R111, R179). `longs` gives the long values already read. -/
def slotVerdict (longs : Nat → Nat → Option Bytes) (s : SlotPred) (t : Nat) (v : Value) : Verdict :=
  if s.op = 8 then negate s.negate (verdict (v == .null))
  else if s.op = 9 then negate s.negate (verdict (v != .null))
  else if s.unknown then .unknown
  else match v with
  | .null => .unknown
  | .long addr len prefx =>
    match slotLong s prefx with
    | some b => negate s.negate (verdict b)
    | none =>
      match longs addr len with
      | some bytes => negate s.negate (verdict (slotTrue s t (.str bytes)))
      | none => .need addr len
  | v => negate s.negate (verdict (slotTrue s t v))

/-- Three-valued disjunction of a group (R112). -/
def groupVerdict (vs : List Verdict) : Verdict :=
  if vs.contains .yes then .yes
  else match vs.find? (fun v => match v with | .need _ _ => true | _ => false) with
  | some v => v
  | none => if vs.contains .unknown then .unknown else .no

/-! ## Zone proofs (03, R113, R114) -/

/-- A zone bound as a value of a type (02, R59). -/
def zoneValue (t z : Nat) : Value :=
  match typeClass t with
  | .bytes => .str (natLe 16 z)
  | .bool => .num (z % 256)
  | _ => .num (z % 2 ^ typeBits t)

/-- A slot is not TRUE for every row of a block, by the table of R113. -/
def zoneProof (s : SlotPred) (h : BlockHeader) : Bool :=
  let t := h.type
  let noNull := !h.hasNulls && !h.nullBitmap
  if s.op = 8 then (if s.negate then h.allNull else noNull)
  else if s.op = 9 then (if s.negate then noNull else h.allNull)
  else if h.allNull || s.unknown then true
  else if s.negate then false
  else
    let bytes := typeClass t == .bytes
    let pfx (v : Value) : Value := if bytes then .str (padTo 16 (valBytes v)) else v
    let lo := zoneValue t h.zoneMin
    let hi := zoneValue t h.zoneMax
    let a := pfx (s.valueA t)
    let b := pfx (s.valueB t)
    let below := h.zoneValid && valueLess t hi a
    let above := h.zoneValid && valueLess t a lo
    match s.op with
    | 1 => above || below
    | 2 => !bytes && h.zoneValid && valueEq t lo a && valueEq t hi a
    | 3 => if bytes then above else h.zoneValid && !(valueLess t lo a)
    | 4 => above
    | 5 => if bytes then below else h.zoneValid && !(valueLess t a hi)
    | 6 => below
    | 7 => valueLess t b a || below || (h.zoneValid && valueLess t b lo)
    | _ => false

/-! ## Row batches (04, R159 to R162) -/

/-- Array row `i` belongs to the batch (R161). -/
def batchHas (b : Batch) (i : Nat) : Bool :=
  match b.selection with
  | none => true
  | some s => s.getD i false

/-- The row of array place `i`. -/
def batchRow (b : Batch) (i : Nat) : Row := b.columns.map (fun c => c.values.getD i .null)

/-- The selected rows, in order. -/
def batchSelected (b : Batch) : List Row := ((List.range b.rows).filter (batchHas b)).map (batchRow b)

/-- Schema of a batch. -/
def batchSchema (b : Batch) : Schema := b.columns.map (fun c => (c.type, c.scale))

/-- Columns that hold rows of a schema. -/
def columnsOf (schema : Schema) (rows : List Row) : List BatchColumn :=
  (List.range schema.length).map (fun j =>
    { type := (schema.getD j (0, 0)).1, scale := (schema.getD j (0, 0)).2, values := rows.map (fun r => r.getD j .null) })

/-- The end batch of a stage: LAST with no rows (R163). -/
def lastBatch (stage inst seq : Nat) (schema : Schema) : Batch :=
  { stage := stage, inst := inst, seq := seq, last := true, firstRow := allOnes, rows := 0, positions := none,
    selection := none, columns := columnsOf schema [] }

/-- A compacted batch of rows. -/
def rowBatch (stage inst seq : Nat) (schema : Schema) (rows : List Row) : Batch :=
  { stage := stage, inst := inst, seq := seq, last := false, firstRow := allOnes, rows := rows.length, positions := none,
    selection := none, columns := columnsOf schema rows }

/-- Bits as bytes, least significant bit first (02, R36). -/
def bitBytes : Nat → List Bool → Bytes
  | 0, _ => []
  | n + 1, b => BitVec.ofNat 8 ((b.take 8).foldr (fun x a => 2 * a + b2n x) 0) :: bitBytes n (b.drop 8)

/-- Value bytes of a fixed-size column (R160). -/
def fixedBytes (t : Nat) (vs : List Value) : Bytes :=
  if typeClass t = .bool then bitBytes (ceilDiv vs.length 8) (vs.map (fun v => decide ((valPattern v) = 1)))
  else vs.flatMap (fun v => natLe (typeSize t) (valPattern v))

/-- The slot of a value in a byte-string column, and whether it is a long reference (02, R53, R54). -/
def slotBytes : Value → Bytes × Bool
  | .str b => (b, false)
  | .long a l p => (natLe 8 a ++ natLe 4 l ++ natLe 4 p, true)
  | _ => ([], false)

/-- Offsets of a byte-string column (02, R53). -/
def slotOffsets : Nat → List Value → List Nat
  | _, [] => []
  | o, v :: t =>
    let (b, long) := slotBytes v
    (o + b.length + if long then 2 ^ 31 else 0) :: slotOffsets (o + b.length) t

/-- Sections of a column: validity, values, data (R159, R160). -/
def columnSections (c : BatchColumn) : Bytes × Bytes × Bytes :=
  let nulls := c.values.any (· == .null)
  let validity := if nulls then bitBytes (ceilDiv c.values.length 8) (c.values.map (· != .null)) else []
  if typeClass c.type = .bytes then
    (validity, (0 :: slotOffsets 0 c.values).flatMap (natLe 4), c.values.flatMap (fun v => (slotBytes v).1))
  else (validity, fixedBytes c.type c.values, [])

def pad64 (b : Bytes) : Bytes := padTo (roundUp b.length 64) b

/-- Column entries and column sections, from offset `o` of the batch. -/
def layColumns : Nat → List BatchColumn → Bytes × Bytes
  | _, [] => ([], [])
  | o, c :: t =>
    let (validity, vals, data) := columnSections c
    let ov := o
    let oa := ov + roundUp validity.length 64
    let od := oa + roundUp vals.length 64
    let stop := od + roundUp data.length 64
    let long := c.values.any (fun v => (slotBytes v).2)
    let flags := b2n (!validity.isEmpty) + 2 * b2n long
    let entry := natLe 1 c.type ++ natLe 1 c.scale ++ natLe 1 flags ++ [0] ++
      natLe 4 (if validity.isEmpty then 0 else ov) ++ natLe 4 oa ++
      natLe 4 (if typeClass c.type = .bytes then od else 0)
    let (es, ss) := layColumns stop t
    (entry ++ es, pad64 validity ++ pad64 vals ++ pad64 data ++ ss)

/-- The bytes of a row batch (R159, R160); the sections follow the column entries in the order of their fields. -/
def batchBytes (b : Batch) : Bytes :=
  let o0 := roundUp (64 + 16 * b.columns.length) 64
  let pos := match b.positions with
    | some p => p.flatMap (natLe 8)
    | none => []
  let sel := match b.selection with
    | some x => bitBytes 512 (x ++ List.replicate (4096 - x.length) false)
    | none => []
  let op := o0
  let os := op + roundUp pos.length 64
  let (entries, sections) := layColumns (os + sel.length) b.columns
  let total := os + sel.length + sections.length
  let flags := b2n b.positions.isSome + 2 * b2n b.selection.isSome + 4 * b2n b.last
  let head : Bytes := [0x06] ++ natLe 1 b.columns.length ++ natLe 2 flags ++ natLe 2 b.rows ++
    natLe 2 ((b.stage % 256) * 16 + b.inst % 16) ++ natLe 4 b.seq ++ natLe 4 total ++ natLe 8 b.firstRow ++
    natLe 4 (if b.positions.isSome then op else 0) ++ natLe 4 (if b.selection.isSome then os else 0) ++
    List.replicate 32 0
  padTo o0 (head ++ entries) ++ pad64 pos ++ sel ++ sections

/-- The most rows and bytes of a batch (R159). -/
def batchRowsMax : Nat := 4096
def batchBytesMax : Nat := 8388608

/-- What the length of a column's sections depends on beside the number of rows: whether a NULL is among its values, and
its data bytes. -/
structure ColSize where
  nulls : Bool := false
  data : Nat := 0

/-- Bytes of the sections of a column of a type with `n` rows (R160). -/
def colLength (n t : Nat) (c : ColSize) : Nat :=
  (if c.nulls then roundUp (ceilDiv n 8) 64 else 0) +
  match typeClass t with
  | .bytes => roundUp (4 * (n + 1)) 64 + roundUp c.data 64
  | .bool => roundUp (ceilDiv n 8) 64
  | _ => roundUp (n * typeSize t) 64

/-- BYTES of a compacted batch of `n` rows. -/
def rowsLength (schema : Schema) (n : Nat) (cs : List ColSize) : Nat :=
  roundUp (64 + 16 * schema.length) 64 + (List.zipWith (fun k c => colLength n k.1 c) schema cs).sum

/-- The columns with one more row. -/
def addRow (cs : List ColSize) (r : Row) : List ColSize :=
  List.zipWith (fun c v => ⟨c.nulls || v == .null, c.data + (slotBytes v).1.length⟩) cs r

/-- Cut rows, in order, into the longest pieces that stay within the bounds of a batch (R162); a row that alone is
beyond them is a piece. `n` rows, which measure `cs`, are in the piece already, newest first in `acc`. -/
def splitRows (schema : Schema) : Nat → List ColSize → List Row → List Row → List (List Row)
  | _, _, acc, [] => if acc.isEmpty then [] else [acc.reverse]
  | n, cs, acc, r :: t =>
    let cs1 := addRow cs r
    if acc ≠ [] ∧ (n = batchRowsMax ∨ batchBytesMax < rowsLength schema (n + 1) cs1) then
      acc.reverse :: splitRows schema 1 (addRow (schema.map (fun _ => {})) r) [r] t
    else splitRows schema (n + 1) cs1 (r :: acc) t

/-- Pieces of an output (R162). -/
def pieces (schema : Schema) (rows : List Row) : List (List Row) :=
  splitRows schema 0 (schema.map (fun _ => {})) [] rows

end Sys2Proof.Machine
end

