-- ==== Sys2Proof/Machine/Image.lean ====
section
/-! DEFINITION. Pipeline images (04_pipelines.md, R145 to R158): parsing, and every check that LOAD_IMAGE makes, in the
order of R174. A failure is a fault code of R196 and a position. Pure: the image's bytes are read by the caller. -/

namespace Sys2Proof.Machine

/-- Fault codes of R196. -/
def imageFormat : Nat := 0x0301
def imageCheck : Nat := 0x0302
def imageStage : Nat := 0x0303
def imageGraph : Nat := 0x0304
def imageRuntime : Nat := 0x0306

/-- Pass when every test holds; else fail with a code at the first position that does not. -/
def demand (code : Nat) (tests : List (Bool × Nat)) : Except FaultAt Unit :=
  match tests.find? (fun t => !t.1) with
  | some t => .error (code, t.2)
  | none => .ok ()

/-- A reserved field of `n` bytes at `o` is zero (00_scope.md, R8). -/
def reservedAt (b : Bytes) (o n : Nat) : Bool × Nat := (allZero (slice b o n), o)

/-! ## Header (R145, R146) -/

/-- The fields of the image header that later checks use. -/
structure ImageHead where
  length : Nat
  stageCount : Nat
  edgeCount : Nat
  stageAt : Nat
  stageLength : Nat
  edgeAt : Nat
  constAt : Nat
  constLength : Nat
  codeAt : Nat
  codeLength : Nat
  autoAt : Nat
  autoCount : Nat
  paramCount : Nat
  runtimeMin : Nat
  imageId : Nat
  deriving DecidableEq, Repr

/-- The header's fields (R145). -/
def parseHead (b : Bytes) : ImageHead :=
  { length := field b 4 4, stageCount := field b 0x0C 2, edgeCount := field b 0x0E 2, stageAt := field b 0x10 4,
    stageLength := field b 0x14 4, edgeAt := field b 0x18 4, constAt := field b 0x1C 4,
    constLength := field b 0x20 4, codeAt := field b 0x24 4, codeLength := field b 0x28 4,
    autoAt := field b 0x2C 4, autoCount := field b 0x30 2, paramCount := field b 0x32 1,
    runtimeMin := field b 0x34 2, imageId := field b 0x38 8 }

/-- The sections in their order: offset, length, and the place of the offset field (R146). -/
def ImageHead.sections (h : ImageHead) : List (Nat × Nat × Nat) :=
  [(h.stageAt, h.stageLength, 0x10), (h.edgeAt, 16 * h.edgeCount, 0x18), (h.constAt, h.constLength, 0x1C),
   (h.codeAt, h.codeLength, 0x24), (h.autoAt, 32 * h.autoCount, 0x2C)]

/-- Each section begins at a multiple of 64 after the end of the one before, and ends within the image; the bytes
between are zero (R146). -/
def sectionsOk (b : Bytes) (length : Nat) : Nat → List (Nat × Nat × Nat) → Except FaultAt Unit
  | last, [] => gapZero last length
  | last, (at_, len, place) :: t => do
    demand imageFormat [(decide (at_ % 64 = 0) && decide (last ≤ at_) && decide (at_ + len ≤ length), place)]
    gapZero last at_
    sectionsOk b length (at_ + len) t
where
  /-- Bytes from `lo` up to `hi` are zero; the first that is not is the position. -/
  gapZero (lo hi : Nat) : Except FaultAt Unit :=
    match (List.range (hi - lo)).find? (fun i => (b.getD (lo + i) 0) != 0) with
    | some i => .error (imageFormat, lo + i)
    | none => .ok ()

/-- Step 1 of R174. -/
def checkHead (b : Bytes) (length : Nat) : Except FaultAt ImageHead := do
  let h := parseHead b
  demand imageFormat
    [(decide (field b 0 1 = 0x10), 0), (decide (field b 1 1 = 1), 1), reservedAt b 2 2,
     (decide (h.length = length) && decide (h.length % 64 = 0) && decide (256 ≤ h.length) &&
       decide (h.length ≤ 16777216), 4),
     (decide (1 ≤ h.stageCount) && decide (h.stageCount ≤ 256), 0x0C),
     (decide (1 ≤ h.edgeCount) && decide (h.edgeCount ≤ 1024), 0x0E),
     (decide (64 * h.stageCount ≤ h.stageLength), 0x14),
     (decide (8 ≤ h.constLength) && decide (h.constLength ≤ 1048576), 0x20),
     (decide (h.codeLength ≤ 8388608) && decide (h.codeLength % 4 = 0), 0x28),
     (decide (h.autoCount ≤ 64), 0x30), (decide (h.paramCount ≤ 32), 0x32), reservedAt b 0x33 1,
     reservedAt b 0x36 2]
  sectionsOk b h.length 64 h.sections
  pure h

/-! ## Parameters, schemas, bindings (R147 to R149) -/

/-- A TYPE code that is not reserved, with a SCALE it allows (R40, R148). -/
def typeScaleOk (t sc : Nat) : Bool := (typeInfo t).isSome && (if t = 0x18 then decide (sc ≤ 38) else decide (sc = 0))

/-- One parameter declaration (R147). -/
def checkParam (b : Bytes) (h : ImageHead) (earlier : List ParamDecl) (i : Nat) : Except FaultAt ParamDecl := do
  let a := h.constAt + 8 * i
  let t := field b a 1
  let m := field b (a + 1) 1
  let c := field b (a + 4) 4
  demand imageStage
    [((typeInfo t).isSome && decide (t ≠ 0x28), a),
     (if typeClass t = .bytes then decide (1 ≤ m) && decide (m ≤ 32) else decide (m = typeSize t), a + 1),
     reservedAt b (a + 2) 2,
     (decide (c % 8 = 0) && decide (8 * h.paramCount ≤ c) && decide (c + 48 ≤ h.constLength) &&
       earlier.all (fun p => decide (c + 48 ≤ p.constPos) || decide (p.constPos + 48 ≤ c)), a + 4)]
  pure ⟨t, m, c⟩

/-- Every parameter declaration, in order. -/
def checkParams (b : Bytes) (h : ImageHead) : Except FaultAt (List ParamDecl) :=
  (List.range h.paramCount).foldlM (fun ps i => do
    let p ← checkParam b h ps i
    pure (ps ++ [p])) []

/-- Placement of a schema at an offset of the constant section (R148). -/
def schemaPlaced (b : Bytes) (h : ImageHead) (ps : List ParamDecl) (o : Nat) : Bool :=
  let n := field b (h.constAt + o) 1
  let size := 8 + 8 * n
  decide (o % 8 = 0) && decide (8 * h.paramCount ≤ o) && decide (o + size ≤ h.constLength) &&
  ps.all (fun p => decide (o + size ≤ p.constPos) || decide (p.constPos + 48 ≤ o))

/-- A schema's columns. -/
def schemaAt (b : Bytes) (h : ImageHead) (o : Nat) : Schema :=
  (List.range (field b (h.constAt + o) 1)).map (fun i =>
    (field b (h.constAt + o + 8 + 8 * i) 1, field b (h.constAt + o + 9 + 8 * i) 1))

/-- The contents of a schema (R148). -/
def schemaTests (b : Bytes) (h : ImageHead) (o : Nat) : List (Bool × Nat) :=
  let a := h.constAt + o
  let n := field b a 1
  [(decide (1 ≤ n) && decide (n ≤ 64), a), reservedAt b (a + 1) 7] ++
  (List.range n).flatMap (fun i =>
    let e := a + 8 + 8 * i
    [((typeInfo (field b e 1)).isSome, e), (typeScaleOk (field b e 1) (field b (e + 1) 1), e + 1),
     reservedAt b (e + 2) 6])

/-- A schema named by a field: its placement, then its contents (R148). -/
def checkSchema (b : Bytes) (h : ImageHead) (ps : List ParamDecl) (fieldAt : Nat) : Except FaultAt Unit :=
  let o := field b fieldAt 4
  demand imageStage ((schemaPlaced b h ps o, fieldAt) :: schemaTests b h o)

/-- Place of a stage header and of an edge entry. -/
def ImageHead.stagePos (h : ImageHead) (k : Nat) : Nat := h.stageAt + 64 * k
def ImageHead.edgePos (h : ImageHead) (i : Nat) : Nat := h.edgeAt + 16 * i

/-- Output ports of each KIND: fewest and most; input ports; the INSTANCES it must have (R151). -/
def kindPorts (kind : Nat) : Option ((Nat × Nat) × (Nat × Nat) × Option Nat) :=
  match kind with
  | 0x01 => some ((0, 0), (1, 1), some 0)
  | 0x02 => some ((1, 1), (1, 1), none)
  | 0x03 => some ((1, 4), (1, 4), none)
  | 0x04 => some ((1, 1), (1, 1), none)
  | 0x05 => some ((1, 1), (0, 0), none)
  | 0x06 => some ((1, 1), (1, 1), none)
  | 0x07 => some ((1, 1), (1, 1), none)
  | 0x08 => some ((1, 1), (1, 1), none)
  | 0x09 => some ((1, 1), (1, 1), none)
  | 0x0A => some ((1, 1), (1, 1), none)
  | 0x0B => some ((1, 1), (1, 1), none)
  | 0x0C => some ((1, 1), (1, 1), some 1)
  | 0x0D => some ((1, 1), (0, 0), some 1)
  | _ => none

/-- The fields that name schemas: used OUT_SCHEMA words in stage order, then the SCHEMA of each edge. -/
def schemaFields (b : Bytes) (h : ImageHead) : List Nat :=
  (List.range h.stageCount).flatMap (fun k =>
    let a := h.stagePos k
    let ports := match kindPorts (field b a 1) with
      | some (_, (_, most), _) => min (field b (a + 4) 1) most
      | none => 0
    (List.range ports).map (fun p => a + 0x10 + 4 * p)) ++
  (List.range h.edgeCount).map (fun i => h.edgePos i + 8)

/-- One automata binding (R149). -/
def checkAuto (b : Bytes) (h : ImageHead) (i : Nat) : Except FaultAt AutoBind := do
  let a := h.autoAt + 32 * i
  let kind := field b a 1
  demand imageStage
    [(decide (kind = 1) || decide (kind = 2), a), reservedAt b (a + 1) 1, (decide (field b (a + 2) 2 ≤ 255), a + 2),
     reservedAt b (a + 4) 4, (decide (kind ≠ 1) || allZero (slice b (a + 8) 8), a + 8), reservedAt b (a + 16) 16]
  pure ⟨kind, field b (a + 2) 2, field b (a + 8) 8, a⟩

/-- Step 4 of R174. -/
def checkConsts (b : Bytes) (h : ImageHead) : Except FaultAt (List ParamDecl × List AutoBind) := do
  demand imageStage [(decide (8 * h.paramCount ≤ h.constLength), 0x32)]
  let ps ← checkParams b h
  (schemaFields b h).forM (checkSchema b h ps)
  let autos ← (List.range h.autoCount).mapM (checkAuto b h)
  pure (ps, autos)

/-! ## Edges as the stages see them -/

/-- Edges whose destination is a stage and port. -/
def feeders (b : Bytes) (h : ImageHead) (k port : Nat) : List Nat :=
  (List.range h.edgeCount).filter (fun i =>
    decide (field b (h.edgePos i + 4) 2 = k) && decide (field b (h.edgePos i + 3) 1 = port))

/-- An edge entry obeys R157. -/
def edgeValid (b : Bytes) (h : ImageHead) (i : Nat) : Bool :=
  let a := h.edgePos i
  let src := field b a 2
  let port := field b (a + 2) 1
  let dst := field b (a + 4) 2
  let depth := field b (a + 6) 1
  decide (src < dst) && decide (dst < h.stageCount) &&
  decide (port < min 4 (field b (h.stagePos src + 4) 1)) &&
  decide (field b (a + 3) 1 < field b (h.stagePos dst + 3) 1) &&
  decide (2 ≤ depth) && decide (depth ≤ 64) && allZero (slice b (a + 7) 1) &&
  decide (field b (a + 8) 4 = field b (h.stagePos src + 0x10 + 4 * port) 4) && allZero (slice b (a + 12) 4)

/-- The input schema of a port: that of the one valid edge that feeds it (R174 step 5). -/
def portSchema (b : Bytes) (h : ImageHead) (k port : Nat) : Option Schema :=
  match feeders b h k port with
  | [i] => if edgeValid b h i then some (schemaAt b h (field b (h.edgePos i + 8) 4)) else none
  | _ => none

/-! ## Stage bodies (R152, R153) -/

/-- An operator of a predicate slot is allowed for a type (03, R105). -/
def opAllowed (op t : Nat) : Bool :=
  let c := typeClass t
  if op = 1 ∨ op = 2 ∨ op = 8 ∨ op = 9 then true
  else if 3 ≤ op ∧ op ≤ 7 then decide (c ≠ .bool)
  else if op = 0x0A ∨ op = 0x0B then
    (decide (c = .signed) || decide (c = .unsigned)) && decide (typeSize t ≤ 8)
  else if op = 0x0C ∨ op = 0x0D then decide (c = .bytes)
  else false

/-- LIT_LENGTH and LIT_LENGTH_B obey R104. -/
def litLengthOk (op t la : Nat) : Bool :=
  if typeClass t = .bytes ∧ op ≠ 8 ∧ op ≠ 9 then
    if op = 7 then decide (la ≤ 16)
    else if op = 0x0C ∨ op = 0x0D then decide (1 ≤ la) && decide (la ≤ 32)
    else decide (la ≤ 32)
  else decide (la = 0)
def litLengthBOk (op t lb : Nat) : Bool :=
  if typeClass t = .bytes ∧ op = 7 then decide (lb ≤ 16) else decide (lb = 0)

/-- The bytes of LIT_A and of LIT_B that R108 requires to be zero are zero. -/
def litAZero (op t la : Nat) (lit : Bytes) : Bool :=
  if op = 8 ∨ op = 9 then allZero lit else if typeClass t = .bytes then allZero (lit.drop (min la 16)) else true
def litBZero (op t la lb : Nat) (lit : Bytes) : Bool :=
  if op = 7 then (if typeClass t = .bytes then allZero (lit.drop lb) else true)
  else if typeClass t = .bytes ∧ op ≠ 8 ∧ op ≠ 9 then allZero (lit.drop (la - 16))
  else allZero lit

/-- A predicate slot of 48 bytes at `a` over the scan columns (03, R104, R106). -/
def checkSlot (b : Bytes) (cols : List ScanColumn) (a : Nat) : Except FaultAt SlotPred := do
  let col := field b a 1
  let op := field b (a + 1) 1
  let t := (cols.map (fun c => c.type)).getD col 0
  let la := field b (a + 4) 1
  let lb := field b (a + 5) 1
  demand imageStage
    [(decide (col < cols.length), a), (opAllowed op t, a + 1), (decide (field b (a + 2) 1 ≤ 7), a + 2),
     (decide (field b (a + 3) 1 ≤ 1), a + 3), (litLengthOk op t la, a + 4), (litLengthBOk op t lb, a + 5),
     reservedAt b (a + 6) 10, (litAZero op t la (slice b (a + 0x10) 16), a + 0x10),
     (litBZero op t la lb (slice b (a + 0x20) 16), a + 0x20)]
  pure { column := col, op := op, group := field b (a + 2) 1, negate := bitOf (field b (a + 3) 1) 0, lenA := la,
         lenB := lb, litA := slice b (a + 0x10) 16, litB := slice b (a + 0x20) 16 }

/-- BODY_LENGTH of the stage whose header lies at `hd` is `n`. -/
def bodyLength (b : Bytes) (hd n : Nat) : Except FaultAt Unit :=
  demand imageStage [(decide (field b (hd + 0x0C) 4 = n), hd + 0x0C)]

/-- BODY_LENGTH is at least `n`. -/
def bodyAtLeast (b : Bytes) (hd n : Nat) : Except FaultAt Unit :=
  demand imageStage [(decide (n ≤ field b (hd + 0x0C) 4), hd + 0x0C)]

/-- One column entry of a SCAN body. -/
def checkScanColumn (b : Bytes) (paramCount a : Nat) : Except FaultAt ScanColumn := do
  let flags := field b (a + 9) 1
  let t := field b (a + 10) 1
  demand imageStage
    [(decide (field b (a + 8) 1 ≤ paramCount), a + 8), (decide (flags ≤ 3), a + 9), ((typeInfo t).isSome, a + 10),
     (typeScaleOk t (field b (a + 11) 1), a + 11), reservedAt b (a + 12) 4]
  pure ⟨field b a 8, field b (a + 8) 1, bitOf flags 0, bitOf flags 1, t, field b (a + 11) 1⟩

/-- SCAN body (R152). -/
def checkScan (b : Bytes) (h : ImageHead) (hd a : Nat) : Except FaultAt StageBody := do
  bodyAtLeast b hd 0x20
  let nc := field b a 1
  let ns := field b (a + 1) 1
  let flags := field b (a + 2) 1
  demand imageStage
    ([(decide (1 ≤ nc) && decide (nc ≤ 16), a), (decide (ns ≤ 8), a + 1), (decide (flags ≤ 3), a + 2),
      (decide (field b (a + 3) 1 ≤ 1), a + 3), reservedAt b (a + 4) 4] ++
     (List.range 16).map (fun i => (decide (field b (a + 0x10 + i) 1 ≤ h.paramCount), a + 0x10 + i)))
  bodyLength b hd (0x20 + 16 * nc + 48 * ns)
  let cols ← (List.range nc).mapM (fun i => checkScanColumn b h.paramCount (a + 0x20 + 16 * i))
  let slots ← (List.range ns).mapM (fun i => checkSlot b cols (a + 0x20 + 16 * nc + 48 * i))
  pure (.scan cols slots (bitOf flags 0) (bitOf flags 1) (field b (a + 3) 1) (field b (a + 8) 4)
    (field b (a + 0x0C) 4) ((List.range 16).map (fun i => field b (a + 0x10 + i) 1)))

/-- A test on a column of the input schema, skipped where that is not known. -/
def onColumn (ins : Option Schema) (col : Nat) (ok : Nat → Bool) : Bool :=
  match ins with
  | none => true
  | some sc => match sc[col]? with
    | some c => ok c.1
    | none => false

/-- FETCH body. -/
def checkFetch (b : Bytes) (h : ImageHead) (ins : Option Schema) (hd a : Nat) : Except FaultAt StageBody := do
  bodyLength b hd 16
  let t := field b (a + 10) 1
  demand imageStage
    [(decide (field b (a + 8) 1 ≤ h.paramCount), a + 8),
     (onColumn ins (field b (a + 9) 1) (fun x => decide (x = 0x0C)), a + 9), ((typeInfo t).isSome, a + 10),
     (typeScaleOk t (field b (a + 11) 1), a + 11), (decide (field b (a + 12) 1 ≤ 1), a + 12), reservedAt b (a + 13) 3]
  pure (.fetch (field b a 8) (field b (a + 8) 1) (field b (a + 9) 1) t (field b (a + 11) 1)
    (bitOf (field b (a + 12) 1) 0))

/-- EXPR body. -/
def checkExpr (b : Bytes) (h : ImageHead) (hd a : Nat) : Except FaultAt StageBody := do
  bodyAtLeast b hd 8
  let n := field b a 2
  demand imageStage [(decide (n ≤ 64), a), reservedAt b (a + 2) 6]
  bodyLength b hd (8 + 4 * n)
  let users := (List.range n).map (fun i => field b (a + 8 + 4 * i) 4)
  demand imageStage ((List.range n).map (fun i =>
    (decide (users.getD i 0 < h.codeLength) && decide (users.getD i 0 % 4 = 0), a + 8 + 4 * i)))
  pure (.expr users)

/-- Key bytes of a body: the first `n` name columns, the rest are zero. -/
def keyTests (b : Bytes) (ins : Option Schema) (a n m : Nat) : List (Bool × Nat) :=
  (List.range m).map (fun i =>
    (if i < n then onColumn ins (field b (a + i) 1) (fun _ => true) else decide (field b (a + i) 1 = 0), a + i))

/-- KEYS of a body. -/
def keyList (b : Bytes) (a n : Nat) : List Nat := (List.range n).map (fun i => field b (a + i) 1)

/-- The head that EXCHANGE, HASH_BUILD, HASH_PROBE and AGGREGATE bodies share. -/
def keyedTests (b : Bytes) (ins : Option Schema) (a : Nat) (count flags ref aggs expected : Bool) :
    List (Bool × Nat) :=
  [(count, a), (flags, a + 1), (ref, a + 2), (aggs, a + 3), reservedAt b (a + 4) 4, (expected, a + 8)] ++
  keyTests b ins (a + 0x10) (field b a 1) 8

/-- A KEY_COUNT of 1 to 8. -/
def countOk (n : Nat) : Bool := decide (1 ≤ n) && decide (n ≤ 8)

/-- EXCHANGE body (R170). -/
def checkExchange (b : Bytes) (ins : Option Schema) (hd a : Nat) : Except FaultAt StageBody := do
  bodyAtLeast b hd 24
  let n := field b a 1
  let fl := field b (a + 1) 1
  demand imageStage (keyedTests b ins a (if bitOf fl 0 then decide (n = 0) else countOk n) (decide (fl ≤ 1))
    (decide (field b (a + 2) 1 = 0)) (decide (field b (a + 3) 1 = 0)) (allZero (slice b (a + 8) 8)))
  bodyLength b hd 24
  pure (.exchange (bitOf fl 0) (keyList b (a + 0x10) n))

/-- HASH_BUILD body. -/
def checkBuild (b : Bytes) (ins : Option Schema) (hd a : Nat) : Except FaultAt StageBody := do
  bodyAtLeast b hd 24
  let n := field b a 1
  demand imageStage (keyedTests b ins a (countOk n) (decide (field b (a + 1) 1 = 0)) (decide (field b (a + 2) 1 ≤ 15))
    (decide (field b (a + 3) 1 = 0)) true)
  bodyLength b hd 24
  pure (.hashBuild (keyList b (a + 0x10) n) (field b (a + 2) 1) (field b (a + 8) 8))

/-- HASH_PROBE body (R213: JOIN_KIND 7 is refused). -/
def checkProbe (b : Bytes) (ins : Option Schema) (hd a : Nat) : Except FaultAt StageBody := do
  bodyAtLeast b hd 24
  let n := field b a 1
  let fl := field b (a + 1) 1
  demand imageStage (keyedTests b ins a (countOk n) (decide (fl ≤ 6)) (decide (field b (a + 2) 1 ≤ 15))
    (decide (field b (a + 3) 1 = 0)) (allZero (slice b (a + 8) 8)))
  bodyLength b hd 24
  pure (.hashProbe (keyList b (a + 0x10) n) (field b (a + 2) 1) fl)

/-- Types a SUM may take (05, R215). -/
def sumType (t : Nat) : Bool :=
  decide (t ≤ 0x05) || (decide (0x09 ≤ t) && decide (t ≤ 0x0C)) || decide (t = 0x10) || decide (t = 0x11) ||
  decide (t = 0x18)

/-- AGGREGATE body (05, R216). -/
def checkAggregate (b : Bytes) (ins : Option Schema) (hd a : Nat) : Except FaultAt StageBody := do
  bodyAtLeast b hd 24
  let n := field b a 1
  let m := field b (a + 3) 1
  demand imageStage (keyedTests b ins a (countOk n) (decide (field b (a + 1) 1 = 0)) (decide (field b (a + 2) 1 = 0))
    (decide (1 ≤ m) && decide (m ≤ 32)) true)
  bodyLength b hd (24 + 4 * m)
  demand imageStage ((List.range m).flatMap (fun i =>
    let e := a + 24 + 4 * i
    let f := field b e 1
    let c := field b (e + 1) 1
    [(decide (1 ≤ f) && decide (f ≤ 6), e),
     (onColumn ins c (fun t => decide (f ≠ 3) || sumType t) && (decide (f ≠ 1) || decide (c = 0)), e + 1),
     reservedAt b (e + 2) 2]))
  pure (.aggregate (keyList b (a + 0x10) n) (field b (a + 8) 8)
    ((List.range m).map (fun i => (field b (a + 24 + 4 * i) 1, field b (a + 25 + 4 * i) 1))))

/-- Keys of SORT and MERGE (R152). -/
def sortKeys (b : Bytes) (a n : Nat) : List SortKey :=
  (List.range n).map (fun i =>
    let e := a + 4 * i
    ⟨field b e 1, bitOf (field b (e + 1) 1) 0, bitOf (field b (e + 1) 1) 1, field b (e + 2) 1⟩)

/-- Key length of a stage (05, R226). -/
def sortKeyLength (ins : Schema) (keys : List SortKey) : Nat :=
  (keys.map (fun k => 1 + keyFieldLength ((ins.map (·.1)).getD k.column 0) k.maxBytes)).sum

/-- SORT and MERGE bodies. -/
def checkSort (isMerge : Bool) (b : Bytes) (ins : Option Schema) (hd a : Nat) : Except FaultAt StageBody := do
  bodyAtLeast b hd 16
  let n := field b a 1
  demand imageStage [(countOk n, a), reservedAt b (a + 1) 7, (isMerge || allZero (slice b (a + 8) 8), a + 8)]
  bodyLength b hd (16 + 4 * n)
  demand imageStage ((List.range n).flatMap (fun i =>
    let e := a + 16 + 4 * i
    let m := field b (e + 2) 1
    [(onColumn ins (field b e 1) (fun _ => true), e), (decide (field b (e + 1) 1 ≤ 3), e + 1),
     (onColumn ins (field b e 1) (fun t =>
       if typeClass t = .bytes then decide (1 ≤ m) && decide (m ≤ 30) else decide (m = 0)), e + 2),
     reservedAt b (e + 3) 1]))
  let keys := sortKeys b (a + 16) n
  demand imageStage [((match ins with
    | some sc => decide (sortKeyLength sc keys ≤ 32)
    | none => true), a)]
  pure (if isMerge then .merge keys (field b (a + 8) 8) else .sort keys)

/-- A body names an automata binding of a KIND. -/
def bindingIs (autos : List AutoBind) (i kind : Nat) : Bool :=
  match autos[i]? with
  | some x => decide (x.kind = kind)
  | none => false

/-- LOOKUP body. -/
def checkLookup (b : Bytes) (autos : List AutoBind) (ins : Option Schema) (hd a : Nat) : Except FaultAt StageBody := do
  bodyLength b hd 8
  let n := field b (a + 1) 1
  demand imageStage
    ([(bindingIs autos (field b a 1) 1, a), (decide (1 ≤ n) && decide (n ≤ 4), a + 1),
      (decide (field b (a + 2) 1 ≤ 1), a + 2), reservedAt b (a + 3) 1] ++ keyTests b ins (a + 4) n 4)
  pure (.lookup (field b a 1) (keyList b (a + 4) n) (decide (field b (a + 2) 1 = 1)))

/-- PATTERN body. -/
def checkPattern (b : Bytes) (autos : List AutoBind) (ins : Option Schema) (hd a : Nat) :
    Except FaultAt StageBody := do
  bodyLength b hd 8
  demand imageStage
    [(bindingIs autos (field b a 1) 2, a),
     (onColumn ins (field b (a + 1) 1) (fun t => decide (typeClass t = .bytes) && (typeInfo t).isSome), a + 1),
     (decide (field b (a + 2) 1 ≤ 1), a + 2), reservedAt b (a + 3) 5]
  pure (.pattern (field b a 1) (field b (a + 1) 1) (decide (field b (a + 2) 1 = 1)))

/-- LIMIT and EMIT bodies. -/
def checkLimit (b : Bytes) (hd a : Nat) : Except FaultAt StageBody := do
  bodyLength b hd 16
  pure (.limit (field b a 8) (field b (a + 8) 8))
def checkEmit (b : Bytes) (hd a : Nat) : Except FaultAt StageBody := do
  bodyLength b hd 8
  demand imageStage [(decide (field b a 1 ≤ 3), a), reservedAt b (a + 1) 7]
  pure (.emit (field b a 1))

/-- The body of a stage of a KIND. -/
def checkBody (b : Bytes) (h : ImageHead) (autos : List AutoBind) (kind : Nat) (ins : Option Schema) (hd a : Nat) :
    Except FaultAt StageBody :=
  match kind with
  | 0x01 => checkScan b h hd a
  | 0x02 => checkFetch b h ins hd a
  | 0x03 => checkExpr b h hd a
  | 0x04 => checkExchange b ins hd a
  | 0x05 => checkBuild b ins hd a
  | 0x06 => checkProbe b ins hd a
  | 0x07 => checkAggregate b ins hd a
  | 0x08 => checkSort false b ins hd a
  | 0x09 => checkSort true b ins hd a
  | 0x0A => checkLookup b autos ins hd a
  | 0x0B => checkPattern b autos ins hd a
  | 0x0C => checkLimit b hd a
  | _ => checkEmit b hd a

/-- Column `c` of a schema; (0, 0) where there is none. -/
def columnOf (sc : Schema) (c : Nat) : Nat × Nat := sc.getD c (0, 0)

/-- Output type of an aggregate (R152). -/
def aggType (ins : Schema) (f : Nat × Nat) : Nat × Nat :=
  let t := columnOf ins f.2
  match f.1 with
  | 1 => (0x04, 0)
  | 2 => (0x04, 0)
  | 3 => if t.1 = 0x18 then t else if t.1 = 0x10 ∨ t.1 = 0x11 then (0x11, 0) else (0x05, 0)
  | _ => t

/-- Output schema of a HASH_PROBE (05, R211). -/
def probeSchema (ins build : Schema) (kind : Nat) : Schema :=
  if kind = 2 ∨ kind = 3 then ins else if kind = 4 then ins ++ [(0x28, 0)] else ins ++ build

/-- Output schema of port 0 that R153 asks for, where it is known; that of a HASH_PROBE also needs its build's. -/
def wantedSchema (ins build : Option Schema) (body : StageBody) : Option Schema :=
  match body with
  | .scan cols _ _ _ _ _ _ _ => some ((cols.filter (fun c => c.deliver)).map (fun c => (c.type, c.scale)))
  | .fetch _ _ _ t sc _ => ins.map (fun i => i ++ [(t, sc)])
  | .expr _ => none
  | .exchange _ _ => ins
  | .hashBuild _ _ _ => none
  | .hashProbe _ _ kind =>
    match ins, build with
    | some i, some x => some (probeSchema i x kind)
    | some i, none => if 2 ≤ kind ∧ kind ≤ 4 then some (probeSchema i [] kind) else none
    | _, _ => none
  | .aggregate keys _ aggs => ins.map (fun i => keys.map (columnOf i) ++ aggs.map (aggType i))
  | .sort _ => ins
  | .merge _ _ => ins
  | .lookup _ _ _ => ins.map (fun i => i ++ [(0x0C, 0)])
  | .pattern _ _ mark => ins.map (fun i => if mark then i ++ [(0x28, 0)] else i)
  | .limit _ _ => ins
  | .emit _ => none

/-- The one HASH_BUILD stage that names a TABLE_REF. -/
def buildOf (b : Bytes) (h : ImageHead) (ref : Nat) : Option Nat :=
  match (List.range h.stageCount).filter (fun j =>
    decide (field b (h.stagePos j) 1 = 5) && decide (field b (h.stageAt + field b (h.stagePos j + 8) 4 + 2) 1 = ref)) with
  | [j] => some j
  | _ => none

/-- The HASH_BUILD's input is fed by an EXCHANGE with BROADCAST set (05, R213). -/
def buildBroadcast (b : Bytes) (h : ImageHead) (j : Nat) : Bool :=
  match feeders b h j 0 with
  | [i] =>
    let p := field b (h.edgePos i) 2
    decide (p < h.stageCount) && decide (field b (h.stagePos p) 1 = 4) &&
      bitOf (field b (h.stageAt + field b (h.stagePos p + 8) 4 + 1) 1) 0
  | _ => false

/-- Two spans of bytes have none in common. -/
def spansApart (a n b m : Nat) : Bool := decide (a + n ≤ b) || decide (b + m ≤ a) || decide (n = 0) || decide (m = 0)

/-- A stage header (R150, R151). -/
def headerTests (b : Bytes) (h : ImageHead) (k : Nat) (inP outP : Nat × Nat) (inst : Option Nat) :
    List (Bool × Nat) :=
  let a := h.stagePos k
  let n := field b (a + 1) 1
  let at_ := field b (a + 8) 4
  let len := field b (a + 0x0C) 4
  let outs := field b (a + 4) 1
  let entry := field b (a + 0x20) 4
  [((match inst with
     | some x => decide (n = x)
     | none => decide (n ≤ 16)), a + 1),
   (decide (field b (a + 2) 1 ≤ 7), a + 2),
   (decide (inP.1 ≤ field b (a + 3) 1) && decide (field b (a + 3) 1 ≤ inP.2), a + 3),
   (decide (outP.1 ≤ outs) && decide (outs ≤ outP.2), a + 4), reservedAt b (a + 5) 3,
   (decide (at_ % 8 = 0) && decide (64 * h.stageCount ≤ at_) && decide (at_ + len ≤ h.stageLength) &&
     (List.range k).all (fun j =>
       spansApart at_ len (field b (h.stagePos j + 8) 4) (field b (h.stagePos j + 0x0C) 4)), a + 8)] ++
  (List.range 4).map (fun p => (decide (p < outs) || decide (field b (a + 0x10 + 4 * p) 4 = 0), a + 0x10 + 4 * p)) ++
  [(if field b a 1 = 3 then decide (entry < h.codeLength) && decide (entry % 4 = 0) else decide (entry = 0), a + 0x20),
   (decide (field b (a + 0x24) 4 % 4096 = 0) && decide (field b (a + 0x24) 4 ≤ 2097152), a + 0x24),
   reservedAt b (a + 0x28) 24]

/-- A HASH_PROBE's build stage and its input schema, where they are known. -/
def buildSchema (b : Bytes) (h : ImageHead) (body : StageBody) : Option Schema :=
  match body with
  | .hashProbe _ ref _ => (buildOf b h ref).bind (fun j => portSchema b h j 0)
  | _ => none

/-- R213 on an outer join. -/
def outerOk (b : Bytes) (h : ImageHead) (body : StageBody) : Bool :=
  match body with
  | .hashProbe _ ref kind =>
    match buildOf b h ref with
    | some j => decide (kind < 5) || !(buildBroadcast b h j)
    | none => true
  | _ => true

/-- One stage: header, body, output schema (step 5 of R174). -/
def checkStage (b : Bytes) (h : ImageHead) (autos : List AutoBind) (k : Nat) : Except FaultAt Stage := do
  let a := h.stagePos k
  let kind := field b a 1
  match kindPorts kind with
  | none => .error (imageStage, a)
  | some (inP, outP, inst) =>
    demand imageStage (headerTests b h k inP outP inst)
    let at_ := h.stageAt + field b (a + 8) 4
    let ins := if inP.2 = 0 then none else portSchema b h k 0
    let body ← checkBody b h autos kind ins a at_
    let outs := field b (a + 4) 1
    let schemas := (List.range outs).map (fun p => schemaAt b h (field b (a + 0x10 + 4 * p) 4))
    let want := wantedSchema ins (buildSchema b h body) body
    demand imageStage
      [(outerOk b h body, at_ + 1),
       ((match want with
         | some w => decide (w.length ≤ 64) && decide (schemas.head? = some w)
         | none => true), a + 0x10)]
    pure { kind := kind, instances := field b (a + 1) 1, priority := field b (a + 2) 1, inPorts := field b (a + 3) 1,
           outPorts := outs, schemas := schemas, entry := field b (a + 0x20) 4, groveStore := field b (a + 0x24) 4,
           bodyAt := at_, body := body }

/-! ## The graph (R157, R158) -/

/-- The edges as parsed. -/
def edgesOf (b : Bytes) (h : ImageHead) : List Edge :=
  (List.range h.edgeCount).map (fun i =>
    let a := h.edgePos i
    ⟨field b a 2, field b (a + 2) 1, field b (a + 4) 2, field b (a + 3) 1, field b (a + 6) 1,
     schemaAt b h (field b (a + 8) 4)⟩)

/-- Producer instances a stage can have at run start (R158). -/
def mostInstances (st : Stage) : Nat := if st.kind = 1 then 32 else if st.instances = 0 then 16 else st.instances

/-- Stages with their numbers. -/
def numbered (stages : List Stage) : List (Nat × Stage) := (List.range stages.length).zip stages

/-- A HASH_PROBE agrees with the one HASH_BUILD of its TABLE_REF (R158). -/
def probePaired (stages : List Stage) (edges : List Edge) (k : Nat) (st : Stage) : Bool :=
  match st.body with
  | .hashProbe keys ref _ =>
    match (numbered stages).filter (fun e => match e.2.body with
      | .hashBuild _ r _ => decide (r = ref)
      | _ => false) with
    | [(j, y)] =>
      let sc (n : Nat) : Schema := ((edges.find? (fun e => decide (e.dst = n))).map (fun e => e.schema)).getD []
      (match y.body with
       | .hashBuild ks _ _ =>
         decide (y.instances = st.instances) && decide (ks.length = keys.length) &&
         decide (keys.map (columnOf (sc k)) = ks.map (columnOf (sc j)))
       | _ => false)
    | _ => false
  | _ => true

/-- A MERGE has at most 16 producer instances (R158). -/
def mergeFed (stages : List Stage) (edges : List Edge) (k : Nat) (st : Stage) : Bool :=
  if st.kind = 9 then
    (edges.filter (fun e => decide (e.dst = k))).all (fun e =>
      match stages[e.src]? with
      | some p => decide (mostInstances p ≤ 16)
      | none => false)
  else true

/-- RESULT_SET of an EMIT. -/
def emitSet (st : Stage) : Option Nat :=
  match st.body with
  | .emit r => some r
  | _ => none

/-- Step 6 of R174: each edge, then the rules of R158 in their order. -/
def graphTests (b : Bytes) (h : ImageHead) (stages : List Stage) : List (Bool × Nat) :=
  let edges := edgesOf b h
  let ns := numbered stages
  let emits := ns.filterMap (fun e => (emitSet e.2).map (fun r => (e.1, r)))
  (List.range h.edgeCount).map (fun i => (edgeValid b h i, h.edgePos i)) ++
  ns.map (fun e => ((List.range e.2.inPorts).all (fun p => decide ((feeders b h e.1 p).length = 1)), h.stagePos e.1)) ++
  ns.map (fun e => ((List.range e.2.outPorts).all (fun p =>
    let n := (edges.filter (fun x => decide (x.src = e.1) && decide (x.port = p))).length
    decide (1 ≤ n) && decide (n ≤ 4)), h.stagePos e.1)) ++
  [(decide (1 ≤ emits.length) && decide (emits.length ≤ 4), h.stageAt)] ++
  emits.map (fun e => (emits.all (fun x => decide (x.2 ≠ e.2) || decide (e.1 ≤ x.1)), h.stagePos e.1)) ++
  ns.map (fun e => (probePaired stages edges e.1 e.2, h.stagePos e.1)) ++
  ns.map (fun e => (mergeFed stages edges e.1 e.2, h.stagePos e.1))

/-- All checks of R174 on the image's bytes, LENGTH of the entry and the installed runtime version. -/
def checkImage (b : Bytes) (length runtime : Nat) : Except FaultAt Image := do
  let h ← checkHead b length
  demand imageCheck [(decide ((crc32c (overlay (b.take h.length) 8 [0, 0, 0, 0])).toNat = field b 8 4), 0)]
  demand imageRuntime [(decide (h.runtimeMin ≤ runtime), runtime)]
  let (ps, autos) ← checkConsts b h
  let stages ← (List.range h.stageCount).mapM (checkStage b h autos)
  demand imageGraph (graphTests b h stages)
  pure { length := h.length, stages := stages, edges := edgesOf b h, autos := autos, params := ps,
         constAt := h.constAt, constLength := h.constLength, codeAt := h.codeAt, codeLength := h.codeLength,
         runtimeMin := h.runtimeMin, imageId := h.imageId }

end Sys2Proof.Machine
end

