-- ==== Sys2Proof/Machine/RunOps.lean ====
section
/-! DEFINITION. What the stages of a placed RUN job share (04_pipelines.md, R154 to R170, R720): instances, edges and
their credit, sending and receiving of batches, end of input, and reading of long values. -/

namespace Sys2Proof.Machine

def getR (s : State) (j : Nat) : Option Run := tblFind s.runs j
def onR (j : Nat) (f : Run → Run) (s : State) : State :=
  match tblFind s.runs j with
  | none => s
  | some r => { s with runs := tblSet s.runs j (f r) }

/-- Place of an instance in the table of a run, and of a consumer instance in the table of credit. -/
def instKey (st i : Nat) : Nat := st * 32 + i

def getI (r : Run) (st i : Nat) : Inst := tblGet {} r.insts (instKey st i)
def onI (j st i : Nat) (f : Inst → Inst) (s : State) : State :=
  onR j (fun r => { r with insts := tblMod {} r.insts (instKey st i) f }) s

/-- Instances of a stage in a run. -/
def instCount (r : Run) (st : Nat) : Nat := r.counts.getD st 0

/-- Edges of an image with their numbers. -/
def edgesWith (r : Run) (p : Edge → Bool) : List (Nat × Edge) :=
  ((List.range r.image.edges.length).zip r.image.edges).filter (fun e => p e.2)

/-- Edges that an output port feeds, and the edge that feeds an input port. -/
def outEdges (r : Run) (st port : Nat) : List (Nat × Edge) :=
  edgesWith r (fun e => decide (e.src = st) && decide (e.port = port))
def inEdge (r : Run) (st port : Nat) : Option (Nat × Edge) :=
  (edgesWith r (fun e => decide (e.dst = st) && decide (e.dstPort = port))).head?

/-- Schema of an input port. -/
def inputSchema (r : Run) (st port : Nat) : Schema :=
  match inEdge r st port with
  | some e => e.2.schema
  | none => []

/-! ## Sending (R163, R164, R166, R720) -/

/-- Where a batch of producer instance `i` of `n` goes on each edge of a port (R720). -/
def plainTargets (r : Run) (st port i : Nat) : List (Nat × Nat) :=
  (outEdges r st port).map (fun e => (e.1, i * instCount r e.2.dst / max 1 (instCount r st)))

/-- Every consumer instance of every edge of a port. -/
def allTargets (r : Run) (st port : Nat) : List (Nat × Nat) :=
  (outEdges r st port).flatMap (fun e => (List.range (instCount r e.2.dst)).map (fun k => (e.1, k)))

/-! ### Buffers (R159, R160, R167) -/

/-- Batches that an instance holds: those it has not finished with, and those it has not sent. -/
def instBatches (x : Inst) : List Batch :=
  (x.queue ++ x.taken ++ x.owed).map (·.batch) ++ x.out.map (·.batch) ++
  match x.work with
  | .inHand a _ => [a.batch]
  | _ => []

/-- Every batch of a job that is held anywhere. -/
def jobBatches (s : State) (j : Nat) (r : Run) : List Batch :=
  r.insts.flatMap (fun e => instBatches e.2) ++ r.mesh.map (·.batch) ++
  (s.scans.filter (fun e => decide (e.2.job = j))).flatMap (fun e => e.2.ready.map (·.2.batch))

/-- Extents of a run's scratch region in use: the constant section's copy (R178), batch buffers, and what the units of
its instances hold. -/
def extentsHeld (s : State) (j : Nat) (r : Run) : List (Nat × Nat) :=
  (r.scratchAddr, r.image.constLength) :: (jobBatches s j r).filterMap (·.buffer) ++ r.insts.flatMap (fun e => e.2.areas)

/-- The lowest free extent of `n` bytes of the scratch region, at a multiple of 64 (DESIGN CHOICE, log 206). -/
def freeExtent (s : State) (j : Nat) (r : Run) (n : Nat) : Option Nat :=
  let held := extentsHeld s j r
  findMin (fun a => a) ((held.map (fun e => roundUp (e.1 + e.2) 64)).filter (fun a =>
    decide (r.scratchAddr ≤ a) && decide (a + n ≤ r.scratchAddr + r.scratchLength) &&
    held.all (fun e => spansApart a n e.1 e.2)))

/-- A batch takes a buffer, if one is free, and its bytes are laid there. -/
def layBatch (j : Nat) (b : Batch) (s : State) : Batch × State :=
  match getJ s j, getR s j with
  | some x, some r =>
    let bytes := batchBytes b
    match freeExtent s j r bytes.length with
    | some a => ({ b with buffer := some (a, bytes.length) }, (devWrite x.berth false a bytes s).2)
    | none => (b, s)
  | _, _ => (b, s)

/-- No buffer of a job is held anywhere, so that none can free. -/
def noneHeld (s : State) (j : Nat) : Bool :=
  match getR s j with
  | none => false
  | some r => (jobBatches s j r).all (·.buffer.isNone)

/-- RESOURCE(SCRATCH) (R167). -/
def scratchFails (j bytes : Nat) (s : State) : State := endFailed j 0x030E bytes s

/-- A batch that found no buffer waits for one; where none can free, the job ends (R167). -/
def starved (j : Nat) (b : Batch) (s : State) : State :=
  if b.buffer.isNone ∧ noneHeld s j then scratchFails j (batchBytes b).length s else s

/-- A finished batch of an instance takes a buffer and awaits its credit; its SOURCE and SEQUENCE are set here (R159). -/
def pushBatch (j st i port : Nat) (targets : List (Nat × Nat)) (b : Batch) (s : State) : State :=
  let n := (((getR s j).map (fun r => tblGet 0 (getI r st i).seqs port)).getD 0)
  let (b1, s1) := layBatch j { b with stage := st, inst := i, seq := n, buffer := none } s
  starved j b1 (onI j st i (fun x =>
    { x with out := x.out ++ [⟨targets, b1⟩],
             heldOut := x.heldOut + b2n x.before.isSome,
             seqs := tblSet x.seqs port ((n + 1) % 2 ^ 32) }) s1)

/-- Output rows of an instance, compacted and split (R161, R162). -/
def pushRows (j st i port : Nat) (targets : List (Nat × Nat)) (schema : Schema) (rows : List Row) (s : State) : State :=
  (pieces schema rows).foldl (fun s p => pushBatch j st i port targets (rowBatch st i 0 schema p) s) s

/-- Push a batch that is not compacted; one that outgrows the batch limit is compacted and split (R162). -/
def pushWhole (j st i port : Nat) (targets : List (Nat × Nat)) (schema : Schema) (b : Batch) (s : State) : State :=
  if (batchBytes b).length ≤ batchBytesMax then pushBatch j st i port targets b s
  else pushRows j st i port targets schema (batchSelected b) s

/-- The instance ends: LAST on every output port (R163). -/
def endInst (j st i : Nat) (s : State) : State :=
  match getR s j with
  | none => s
  | some r =>
    match r.image.stages[st]? with
    | none => s
    | some g =>
      if (getI r st i).ended then s
      else
        let s1 := (List.range g.outPorts).foldl (fun s port =>
          pushBatch j st i port (allTargets r st port) (lastBatch st i 0 (g.schemas.getD port [])) s) s
        onI j st i (fun x => { x with ended := true }) s1

/-- Credit is held for a batch on every edge it goes to (R164). -/
def creditFor (r : Run) (targets : List (Nat × Nat)) : Bool :=
  targets.all (fun t => decide (tblGet 0 r.used (instKey t.1 t.2) < ((r.image.edges[t.1]?).map (fun e => e.depth)).getD 0))

/-- Every batch that an instance has made and not sent has its buffer and its credit: the producer need not wait (R164,
R167). -/
def outCovered (r : Run) (x : Inst) : Bool :=
  let all := x.out.flatMap (·.targets)
  x.out.all (·.batch.buffer.isSome) &&
  all.all (fun t =>
    decide (tblGet 0 r.used (instKey t.1 t.2) + all.count t ≤ ((r.image.edges[t.1]?).map (fun e => e.depth)).getD 0))

/-- A batch enters the mesh for each of its targets, using up credit. -/
def launch (j producer : Nat) (o : Outgoing) (s : State) : State :=
  onR j (fun r => { r with
    used := o.targets.foldl (fun u t => tblMod 0 u (instKey t.1 t.2) (· + 1)) r.used,
    mesh := r.mesh ++ o.targets.map (fun t => ⟨t.1, t.2, producer, o.batch⟩) }) s

/-! ## Receiving -/

/-- The task of an instance is RUNNING: a core holds its work item. -/
def instRunning (s : State) (x : Inst) : Bool := (getT s x.task).state == .running

/-- A pulse of an edge or a unit for an instance's task, on its berth's behalf (09, R369). -/
def pulseInst (x : Inst) (flag : Nat) (s : State) : State := pulse x.task flag (getT s x.task).berth s

/-- Batches of the job may still be taken: it has no outcome, and its berth is not stopping (R185; 11, R471). -/
def taking (s : State) (x : Job) : Bool :=
  workable s x && match x.berth with
  | none => true
  | some b => !((getB s b.val).state == .freezing)

/-- Run a meaning on an instance of a placed job that may take batches. -/
def withInst (j st i : Nat) (s : State) (f : Job → Run → Stage → Inst → State) : State :=
  match getJ s j, getR s j with
  | some x, some r =>
    match r.image.stages[st]? with
    | some g => if taking s x ∧ r.placed ∧ i < instCount r st then f x r g (getI r st i) else s
    | none => s
  | _, _ => s

/-- The same for a producer, which takes no further input while a batch it has made waits (R164). -/
def withIntake (j st i : Nat) (s : State) (f : Job → Run → Stage → Inst → State) : State :=
  withInst j st i s (fun x r g n => if outCovered r n then f x r g n else s)

/-- The first batch of a queue that a test accepts, and the queue without it. -/
def takeFirst (p : Arrived → Bool) : List Arrived → Option (Arrived × List Arrived)
  | [] => none
  | a :: t => if p a then some (a, t) else (takeFirst p t).map (fun r => (r.1, a :: r.2))

/-- Code of an edge and a producer instance in the list of finished batches. -/
def creditCode (edge producer : Nat) : Nat := edge * 32 + producer

/-- The instance has taken a batch from its queue, leaving `q`. -/
def takeBatch (j st i : Nat) (a : Arrived) (q : List Arrived) (s : State) : State :=
  onI j st i (fun x => { x with queue := q, taken := if x.before.isSome then x.taken ++ [a] else [a] }) s

/-- Batches finished with return their credit once every output has its buffer (R164, R167). -/
def settleOwed (x : Inst) : Inst :=
  if x.out.all (·.batch.buffer.isSome) then
    { x with finished := x.finished ++ x.owed.map (fun a => creditCode a.edge a.producer),
             heldFin := x.heldFin + (if x.before.isSome then x.owed.length else 0), owed := [] }
  else x

/-- The instance has finished with a batch: its credit may return, and a LAST is noted (R163, R164). -/
def finishBatch (j st i : Nat) (a : Arrived) (s : State) : State :=
  onI j st i (fun x => settleOwed { x with
    owed := x.owed ++ [a],
    taken := if x.before.isSome then x.taken else [],
    lasts := if a.batch.last then (a.edge, a.producer) :: x.lasts else x.lasts }) s

/-- The first output of an instance that waits for a buffer takes one, if one is free. -/
def layNext (j st i : Nat) (s : State) : State :=
  let out := ((getR s j).map (fun r => (getI r st i).out)).getD []
  match out.findIdx? (·.batch.buffer.isNone) with
  | none => s
  | some k =>
    match out[k]? with
    | none => s
    | some o =>
      let (b, s1) := layBatch j o.batch s
      starved j b (onI j st i (fun x => { x with out := x.out.set k { o with batch := b } }) s1)

/-- A unit stores something at the lowest free extent of the scratch region; none where no extent is free (R167). -/
def takeArea (j st i : Nat) (x : Nat × Bytes) (s : State) : Option State :=
  match getJ s j, getR s j with
  | some y, some r => (freeExtent s j r x.1).map (fun a =>
    onI j st i (fun n => { n with areas := n.areas ++ [(a, x.1)] }) (devWrite y.berth false a x.2 s).2)
  | _, _ => some s

/-- Several; or the size of the first that finds no place. -/
def takeAreas (j st i : Nat) : List (Nat × Bytes) → State → Except Nat State
  | [], s => .ok s
  | x :: t, s =>
    match takeArea j st i x s with
    | some s1 => takeAreas j st i t s1
    | none => .error x.1

/-- A unit stores what it must, then goes on; where something finds no place, the job ends at once (R167; 05, R206). -/
def withAreas (j st i : Nat) (l : List (Nat × Bytes)) (s : State) (go : State → State) : State :=
  match takeAreas j st i l s with
  | .ok s1 => go s1
  | .error n => scratchFails j n s

/-- A unit gives back what it holds of the scratch region. -/
def dropAreas (j st i : Nat) (s : State) : State := onI j st i (fun n => { n with areas := [] }) s

/-- The outputs of an instance that wait for buffers take them, in order, while they are free. -/
def layOuts (j st i : Nat) (s : State) : State :=
  let n := (((getR s j).map (fun r => (getI r st i).out.length)).getD 0)
  onI j st i settleOwed (Nat.repeat (layNext j st i) n s)

/-! ## Data errors (02, R75; 03, R134) -/

def countQ (q i n : Nat) (s : State) : State := count (.quay (Fin.ofNat 32 q)) i n s

/-- The counters of a quay for a fault that it meets: DATA_ERRORS, CHECK_ERRORS, STREAM_ERRORS, MEMORY_ERRORS (03,
R143). -/
def countFault (q code : Nat) (s : State) : State :=
  countQ q 16 (b2n (decide (code = 0x0211))) (countQ q 13 (b2n (decide (code = 0x0205)))
    (countQ q 12 (b2n (decide (code = 0x0204))) (countQ q 11 (b2n (decide (0x0201 ≤ code) && decide (code ≤ 0x0209))) s)))

/-- The Heartwood record of a data error (02, R75). -/
def dataRecord (source code pos : Nat) (s : State) : State :=
  logRecord Config.dataErrorCode.toNat source (Config.dataErrorParam code pos 0).toNat
    (Config.dataErrorParam code pos 1).toNat (Config.dataErrorParam code pos 2).toNat s

/-- A job meets a fault at a quay: counted; a data error, if it is the job's first, recorded; the job's outcome
settled. -/
def quayFault (q j code pos : Nat) (s : State) : State :=
  let s1 := countFault q code s
  let first := ((getJ s j).map (fun x => x.result.isNone)).getD false
  endFailed j code pos
    (if 0x0201 ≤ code ∧ code ≤ 0x0209 ∧ first then dataRecord (0x0100 + q) code pos s1 else s1)

/-- A data or memory error met outside a quay, in the interleaved window at an address: it counts at the quay of the
subchannel that holds the address (DESIGN CHOICE, log 207). -/
def awayFault (a j code pos : Nat) (s : State) : State := quayFault (locate s a).1 j code pos s

/-! ## Work items of stages on cores (16, R662) -/

/-- A KIND whose work a fixed unit does, not a core (05). -/
def fixedKind (kind : Nat) : Bool := decide (5 ≤ kind) && decide (kind ≤ 9)

/-- A work item of an instance begins. -/
def beginInst (x : Inst) : Inst :=
  { x with before := some ⟨x.lasts, x.seqs, x.work, x.ended⟩, taken := [], heldOut := 0, heldFin := 0 }

/-- DONEW publishes what the item has done. -/
def publishInst (x : Inst) : Inst := { x with before := none, taken := [], heldOut := 0, heldFin := 0 }

/-- What the item's unit goes back to: a batch in hand since before the item keeps the outcomes that came. -/
def rolledWork (x : Inst) (b : InstSave) : Work :=
  match x.work, b.work with
  | .inHand a o, .inHand _ _ => if x.taken = [] then .inHand a o else b.work
  | _, w => w

/-- The core failed: nothing is published, and the batches are to be processed again. -/
def rollbackInst (x : Inst) : Inst :=
  match x.before with
  | none => x
  | some b =>
    { x with lasts := b.lasts, seqs := b.seqs, work := rolledWork x b, ended := b.ended, queue := x.taken ++ x.queue,
             out := x.out.take (x.out.length - x.heldOut), owed := x.owed.filter (fun a => !(x.taken.contains a)),
             finished := x.finished.take (x.finished.length - x.heldFin),
             before := none, taken := [], heldOut := 0, heldFin := 0,
             searches := if x.taken = [] then x.searches else [], texts := if x.taken = [] then x.texts else [] }

/-- Every producer instance of a port has sent LAST (R163). -/
def portEnded (r : Run) (st i port : Nat) : Bool :=
  match inEdge r st port with
  | none => true
  | some (e, edge) =>
    decide (((getI r st i).lasts.filter (fun l => decide (l.1 = e))).length = instCount r edge.src)

/-- Every input port has ended. -/
def inputEnded (r : Run) (st i : Nat) : Bool :=
  match r.image.stages[st]? with
  | none => false
  | some g => (List.range g.inPorts).all (portEnded r st i)

/-- The same, in a state. -/
def inputDone (s : State) (j st i : Nat) : Bool :=
  match getR s j with
  | none => false
  | some r => inputEnded r st i

/-! ## Long values in units (05, R200, R220) -/

/-- Outcome of reading long values: well, a fault with code and position met at an address, or an ownership
violation. -/
inductive LongCheck where
  | ok
  | fault (addr code position : Nat)
  | violation (addr : Nat)
  deriving DecidableEq, Repr

/-- Read long values for a tag, each as far as its user needs it: the validity rule of R118, ownership, and memory
errors. -/
def readLongs (tag : Option (Fin 512)) : List (Nat × Value × Nat) → State → LongCheck × State
  | [], s => (.ok, s)
  | (pos, .long a n _, k) :: t, s =>
    if !(longOk (interBytes s) a n) then (.fault a DataError.value.code pos, s)
    else match devRead tag false a (min n k) s with
    | (.ok _, s1) => readLongs tag t s1
    | (.violation x, s1) => (.violation x, s1)
    | (_, s1) => (.fault a 0x0211 pos, s1)
  | _ :: t, s => readLongs tag t s

/-- A value with its bytes in line. -/
def inlineValue (s : State) : Value → Value
  | .long a n _ => .str (devBytes s a n)
  | v => v

/-- A row with some columns in line. -/
def inlineCols (s : State) (cols : List Nat) (r : Row) : Row :=
  (List.range r.length).map (fun k => let v := r.getD k .null; if cols.contains k then inlineValue s v else v)

/-- The selected rows of a batch with their array places. -/
def selectedRows (b : Batch) : List (Nat × Row) :=
  ((List.range b.rows).filter (batchHas b)).map (fun i => (i, batchRow b i))

/-- The longest value there is (02, R54). -/
def maxLong : Nat := 65535

/-- Long values of some columns of rows, by array place, each to be read whole. -/
def longsOf (cols : List Nat) (rows : List (Nat × Row)) : List (Nat × Value × Nat) :=
  rows.flatMap (fun r => cols.map (fun c => (r.1, r.2.getD c .null, maxLong)))

/-- Read the key values of a batch, then go on; a fault ends the job, a violation awaits its handling. -/
def withKeys (j : Nat) (x : Job) (cols : List Nat) (b : Batch) (s : State) (go : State → State) : State :=
  match readLongs x.berth (longsOf cols (selectedRows b)) s with
  | (.ok, s1) => go s1
  | (.fault a c p, s1) => awayFault a j c p s1
  | (.violation a, s1) =>
    match x.berth with
    | some t => noteViolation t a (some j) s1
    | none => s1

/-- Types and values of key columns of a row. -/
def keyOf (schema : Schema) (keys : List Nat) (r : Row) : List (Nat × Value) :=
  keys.map (fun k => ((columnOf schema k).1, r.getD k .null))

/-! ## Deficit round robin (03, R97; 06, R248; 13, R535, R567) -/

/-- Users in cyclic order after the one served last. -/
def cyclic (keys : List Nat) (last : Nat) : List Nat :=
  keys.filter (fun k => decide (last < k)) ++ keys.filter (fun k => decide (k ≤ last))

/-- Rounds until a user's balance covers its cost. -/
def roundsTo (balance quantum cost : Nat) : Nat := (cost - balance + max 1 quantum - 1) / max 1 quantum

/-- The user served next and the balances after it: every user gains its quantum in each round until the balance of one
covers its cost; a user with nothing to do keeps no balance. -/
def drr (keys : List Nat) (last : Nat) (balance : Tbl Nat) (quantum cost : Nat → Nat) : Option (Nat × Tbl Nat) :=
  let order := cyclic keys last
  match findMin (fun k => roundsTo (tblGet 0 balance k) (quantum k) (cost k)) order with
  | none => none
  | some k0 =>
    let n := roundsTo (tblGet 0 balance k0) (quantum k0) (cost k0)
    let after := order.foldl (fun t k => tblSet t k (tblGet 0 balance k + n * max 1 (quantum k))) ([] : Tbl Nat)
    (order.find? (fun k => decide (cost k ≤ tblGet 0 after k))).map (fun k =>
      (k, tblSet after k (tblGet 0 after k - cost k)))

end Sys2Proof.Machine
end

