-- ==== Sys2Proof/Machine/Slots.lean ====
section
/-! DEFINITION. Image slots (04_pipelines.md, R171, R172): what the acceptance of LOAD_IMAGE and UNLOAD_IMAGE does to a
slot, how a RUN job finds it, and how a load that fails leaves it. -/

namespace Sys2Proof.Machine

/-! ## Checks of an entry's fields -/

/-- First check of a list that does not hold: its fault code and position. -/
def firstFault (checks : List (Bool × Nat × Nat)) : Option (Nat × Nat) := (checks.find? (fun c => !c.1)).map (·.2)

/-- A reserved range of the entry is zero, else a fault code at its first byte (00, R8). -/
def zeroRange (x : Job) (code o n : Nat) : Bool × Nat × Nat := (allZero (slice x.entry o n), code, o)

/-- JOB(BODY) and RUN(PLACEMENT) (R196). -/
def jobBody : Nat := 0x0314
def runPlacement : Nat := 0x0309
def imageSlot : Nat := 0x0305

/-- Body checks of LOAD_IMAGE (R173, R196). -/
def loadImageFault (s : State) (x : Job) : Option (Nat × Nat) :=
  let dst := bodyField x 0x28 8
  let span := granuleBytes * ceilDiv (bodyField x 0x20 4) granuleBytes
  firstFault
    [(decide (lenGranules x = 1), jobBody, 1), (decide (bodyField x 0x18 8 % 64 = 0), jobBody, 0x18),
     (decide (bodyField x 0x24 1 ≤ 63), imageSlot, bodyField x 0x24 1), zeroRange x jobBody 0x25 3,
     (decide (dst % granuleBytes = 0) && decide (dst + max span 1 ≤ interBytes s), runPlacement, 0x28),
     zeroRange x jobBody 0x30 16]

/-- Body checks of UNLOAD_IMAGE (R176, R196). -/
def unloadImageFault (x : Job) : Option (Nat × Nat) :=
  firstFault [(decide (lenGranules x = 1), jobBody, 1),
    (decide (bodyField x 0x18 1 ≤ 63), imageSlot, bodyField x 0x18 1), zeroRange x jobBody 0x19 39]

/-! ## Slots and their granules -/

def getSlot (s : State) (b k : Nat) : Slot := tblGet {} (getB s b).slots k
def onSlot (b k : Nat) (f : Slot → Slot) (s : State) : State :=
  onB b (fun x => { x with slots := tblMod {} x.slots k f }) s

/-- Pass granules to a berth, or make them image granules of it (R171; 12, R499). -/
def imageGranules (b : Fin 512) (image : Bool) (gs : List Nat) (s : State) : State :=
  gs.foldl (fun s g => ownGranule g (.berth b) image s) s

/-- The granules of `n` bytes from an address that a berth does not own, or holds as image granules. -/
def foreignGranule (s : State) (b : Fin 512) (gs : List Nat) : Option Nat :=
  gs.find? (fun g => !(decide ((ownOf s g).owner = .berth b)) || (ownOf s g).image)

/-- A slot becomes EMPTY, and its granules return to the berth (R171). -/
def emptySlot (b : Fin 512) (k : Nat) (s : State) : State :=
  onSlot b.val k (fun _ => {}) (imageGranules b false (getSlot s b.val k).granules s)

/-! ## Acceptance (R171) -/

/-- LOAD_IMAGE is accepted: an EMPTY slot becomes LOADING, and the granules, if they are the berth's, pass to device
ownership. -/
def acceptLoad (j : Nat) (x : Job) (b : Fin 512) (s : State) : State :=
  let k := bodyField x 0x24 1
  let dst := bodyField x 0x28 8
  let gs := granulesOf dst (bodyField x 0x20 4)
  let own := if (foreignGranule s b gs).isNone then gs else []
  if (loadImageFault s x).isNone ∧ (getSlot s b.val k).state = .empty then
    onSlot b.val k (fun _ => { state := .loading, addr := dst, length := bodyField x 0x20 4, granules := own,
                               loadJob := some j }) (imageGranules b true own s)
  else s

/-- UNLOAD_IMAGE is accepted: a LOADED slot becomes UNLOADING, and the RUN jobs accepted before it are noted. -/
def acceptUnload (j : Nat) (x : Job) (b : Fin 512) (s : State) : State :=
  let k := bodyField x 0x18 1
  if (unloadImageFault x).isNone ∧ (getSlot s b.val k).state = .loaded then
    let runs := (jobsOf s b).filter (fun e => decide (e.2.opcode = 0x12) && decide (bodyField e.2 0x2C 1 = k))
    onSlot b.val k (fun y => { y with state := .unloading, unloadJob := some j,
                                      users := (y.users ++ runs.map (·.1)).eraseDups }) s
  else s

/-- What the acceptance of a job does to the slots of its berth. -/
def acceptInSlots (j : Nat) (x : Job) (s : State) : State :=
  match x.berth with
  | none => s
  | some b => if x.opcode = 0x10 then acceptLoad j x b s else if x.opcode = 0x11 then acceptUnload j x b s else s

/-! ## A RUN job and the end of a load (R172) -/

/-- The slot as a RUN job finds it: ready to run, to be waited for, or IMAGE(SLOT). -/
inductive SlotOutcome where
  | ready
  | wait
  | bad
  deriving DecidableEq, Repr

/-- A RUN job runs what a LOAD_IMAGE accepted before it has loaded and no UNLOAD_IMAGE accepted before it unloads. -/
def slotFor (s : State) (b : Fin 512) (j slot : Nat) : SlotOutcome :=
  let y := getSlot s b.val slot
  let before := y.loadJob.all (fun l => decide (l < j))
  match y.state with
  | .loaded => if before then .ready else .bad
  | .loading => if before then .wait else .bad
  | .empty => .bad
  | .unloading => if y.users.contains j then .ready else .bad

/-- A LOAD_IMAGE that ends leaves no slot LOADING (R171). -/
def leaveLoading (j : Nat) (b : Fin 512) (s : State) : State :=
  (getB s b.val).slots.foldl (fun s e =>
    if e.2.state = .loading ∧ e.2.loadJob = some j then emptySlot b e.1 s else s) s

end Sys2Proof.Machine
end

