-- ==== Sys2Proof/Machine/RunJobs.lean ====
section
/-! DEFINITION. Image and RUN jobs (04_pipelines.md, R171 to R189): LOAD_IMAGE, UNLOAD_IMAGE, RUN with the steps of
R178, placement, CANCEL and TIME_LIMIT. -/

namespace Sys2Proof.Machine

/-- Run a meaning on a job that reads host memory: the host's doings first; while host reads wait, nothing else. -/
def withHostJob (op j : Nat) (h : HostView) (s : State) (f : Job → State → State) : State :=
  withJob op j s (fun x =>
    let s1 := hostSync h s
    if hostBlocked s1 then s1 else f x s1)

/-! ## Image slots (R171 to R176) -/

/-- Jobs of a berth accepted before job `j` that have no outcome, of an opcode and with a test. -/
def earlier (s : State) (b : Fin 512) (j op : Nat) (p : Job → Bool) : List (Nat × Job) :=
  (jobsOf s b).filter (fun e => decide (e.1 < j) && decide (e.2.opcode = op) && e.2.result.isNone && p e.2)

/-- Append a record to a berth's measurement log (11, R469, R470). -/
def measure (b : Nat) (kind place id : Nat) (digest : Bytes) (s : State) : State :=
  onB b (fun x =>
    let r := natLe 1 kind ++ natLe 1 place ++ [0, 0] ++ natLe 4 x.measurementCount.toNat ++ natLe 8 id ++ digest
    { x with measurements := if x.measurements.length < 256 then x.measurements ++ [r] else x.measurements,
             measurementCount := x.measurementCount + 1, digest := sha384 (x.digest ++ r) }) s

/-- A job ends by a host read that failed (10, R452). -/
def hostReadFailed (j addr : Nat) (s : State) : State := endFailed j 0x0101 addr s

/-- A fault of a device access of a job: an ownership violation awaits its handling; any other ends the job. -/
def deviceFailed (j : Nat) (b : Fin 512) (code position : Nat) (r : DevResult) (s : State) : State :=
  match r with
  | .violation a => noteViolation b a (some j) s
  | _ => endFailed j code position s

/-- The image is copied and checked (R174): the slot, LOADING by this job, becomes LOADED. -/
def loadImageRun (j : Nat) (x : Job) (b : Fin 512) (s : State) : State :=
  let slot := bodyField x 0x24 1
  let y := getSlot s b.val slot
  if y.state ≠ .loading ∨ y.loadJob ≠ some j then endFailed j imageSlot slot s
  else
    let gs := granulesOf y.addr y.length
    match (if y.granules = gs then none else foreignGranule s b gs) with
    | some g => noteViolation b (max y.addr (granuleBytes * g)) (some j) s
    | none =>
      match hostRead (some b) (bodyField x 0x18 8) y.length (beginJob j s) with
      | (.error a, s1) => hostReadFailed j a s1
      | (.ok bytes, s1) =>
        let s2 := markDirty (some b) gs (devPut y.addr bytes s1)
        match checkImage bytes y.length s.fw.runtimeVersion.toNat with
        | .error e => endFailed j e.1 e.2 s2
        | .ok im =>
          let m := sha384 bytes
          let s3 := onSlot b.val slot (fun y => { y with
            state := .loaded, imageId := im.imageId, measurement := m, granules := gs, loadedAt := s2.dev.now })
            (imageGranules b true gs s2)
          endDone j (measure b.val 1 slot im.imageId m s3)

/-- LOAD_IMAGE (R173, R174). -/
def execLoadImage (job : Nat) (h : HostView) (s : State) : Host.Outcome State Fault Refusal :=
  .next (withHostJob 0x10 job h s (fun x s =>
    match x.berth with
    | none => s
    | some b =>
      match loadImageFault s x with
      | some e => endFailed job e.1 e.2 s
      | none => loadImageRun job x b s))

/-- UNLOAD_IMAGE (R171, R176): the slot that its acceptance made UNLOADING waits for the RUN jobs accepted before. -/
def execUnloadImage (job : Nat) (s : State) : Host.Outcome State Fault Refusal :=
  .next (withJob 0x11 job s (fun x =>
    match x.berth with
    | none => s
    | some b =>
      let slot := bodyField x 0x18 1
      match unloadImageFault x with
      | some e => endFailed job e.1 e.2 s
      | none => if (getSlot s b.val slot).unloadJob = some job then beginJob job s else endFailed job imageSlot slot s))

/-- SLOT_UNLOAD_COMPLETE (R171): the last RUN job accepted before the UNLOAD has ended. -/
def execSlotUnloadComplete (b : Fin 512) (slot : Fin 64) (s : State) : Host.Outcome State Fault Refusal :=
  let y := getSlot s b.val slot.val
  .next (
    if y.state = .unloading ∧ y.users.all (fun u => (getJ s u).isNone) then
      let s1 := emptySlot b slot.val s
      match y.unloadJob with
      | some j => endDone j s1
      | none => s1
    else s)

/-! ## RUN: parameters (R177) -/

/-- The VALUE of a parameter is a proper encoding of its type: a zone bound (02, R59), or text with zero bytes after
it (03, R107, R108). -/
def paramValueOk (t len : Nat) (v : Bytes) : Bool :=
  match typeClass t with
  | .bytes => allZero (v.drop len)
  | .signed =>
    let fill : Byte := if bitOf (leNat (v.take (typeSize t))) (typeBits t - 1) then 0xFF else 0
    (slice v (typeSize t) (16 - typeSize t)).all (· == fill) && allZero (v.drop 16)
  | _ => allZero (v.drop (typeSize t))

/-- Parameter `i` of the entry agrees with its declaration. -/
def paramOk (x : Job) (i : Nat) (d : ParamDecl) : Bool :=
  let p := slice x.entry (0x40 + 48 * i) 48
  let len := field p 1 1
  let null := bitOf (field p 2 2) 0
  let v := slice p 0x10 32
  decide (field p 0 1 = d.type) &&
  (if typeClass d.type = .bytes then decide (len ≤ d.maxLength) else decide (len = typeSize d.type)) &&
  decide (field p 2 2 ≤ 1) && allZero (slice p 4 12) &&
  (if null then allZero v else paramValueOk d.type len v)

/-- RUN(PARAM) in the order of R196: its fault position. -/
def paramFault (x : Job) (im : Image) : Option Nat :=
  let n := bodyField x 0x2D 1
  let m := im.params.length
  if n ≠ m then some (min n m)
  else if lenGranules x ≠ 1 + ceilDiv (48 * n) 64 then some n
  else match ((List.range m).zip im.params).find? (fun e => !(paramOk x e.1 e.2)) with
  | some e => some e.1
  | none => if allZero (x.entry.drop (0x40 + 48 * n)) then none else some n

/-- LENGTH and VALUE of parameter `i`; none when it is NULL. -/
def paramValue (x : Job) (i : Nat) : Option (Nat × Bytes) :=
  let p := slice x.entry (0x40 + 48 * i) 48
  if bitOf (field p 2 2) 0 then none else some (field p 1 1, slice p 0x10 32)

/-! ## RUN: binding (R178 step 2, R179) -/

/-- Bind a literal of a slot to a parameter. -/
def bindLit (x : Job) (isA : Bool) (param : Nat) (p : SlotPred) : SlotPred :=
  let used := if isA then decide (p.op ≠ 8) && decide (p.op ≠ 9) else decide (p.op = 7)
  if param = 0 ∨ !used then p
  else match paramValue x (param - 1) with
  | none => { p with unknown := true }
  | some (len, v) => if isA then { p with litA := v, lenA := len } else { p with litB := v, lenB := len }

/-- Slots with their bindings in effect. -/
def bindSlots (x : Job) (bindings : List Nat) (slots : List SlotPred) : List SlotPred :=
  ((List.range slots.length).zip slots).map (fun e =>
    bindLit x false (bindings.getD (2 * e.1 + 1) 0) (bindLit x true (bindings.getD (2 * e.1) 0) e.2))

/-- A directory address with its parameter; none when that is NULL. -/
def bindAddr (x : Job) (addr param : Nat) : Option Nat :=
  if param = 0 then some addr else (paramValue x (param - 1)).map (fun v => leNat (v.2.take 8))

/-- RUN(BIND) (R196). -/
def runBind : Nat := 0x0308

/-- Directories that a stage reads: address or NULL, TYPE, SCALE, and the position of a failure. -/
def dirWants (x : Job) (g : Stage) : List (Option Nat × Nat × Nat × Nat) :=
  match g.body with
  | .scan cols _ _ _ _ _ _ _ =>
    ((List.range cols.length).zip cols).map (fun e =>
      (bindAddr x e.2.dirAddr e.2.dirParam, e.2.type, e.2.scale, g.bodyAt + 0x20 + 16 * e.1))
  | .fetch a p _ t sc _ => [(bindAddr x a p, t, sc, g.bodyAt)]
  | _ => []

/-- A stage with its parameters substituted. -/
def bindStage (x : Job) (g : Stage) : Stage :=
  match g.body with
  | .scan cols slots pos sel dest first stop bs =>
    { g with body := .scan cols (bindSlots x bs slots) pos sel dest first stop bs }
  | _ => g

/-- How a step of R178 ends the job: a fault, or an ownership violation. -/
inductive StartFault where
  | fail (code position : Nat)
  | violation (addr : Nat)
  deriving DecidableEq, Repr

/-- A fault as it stands at a row position. -/
def StartFault.atRow (pos : Nat) : StartFault → StartFault
  | .fail c _ => .fail c pos
  | v => v

/-- A read of device memory for the start of a job. -/
def startRead (b : Fin 512) (a n : Nat) (s : State) : Except StartFault Bytes × State :=
  match devRead (some b) false a n s with
  | (.ok d, s1) => (.ok d, s1)
  | (.violation x, s1) => (.error (.violation x), s1)
  | (r, s1) => (.error (.fail 0x0211 (deviceFault r)), s1)

/-- A fault of the directory at an address: counted at the quay of the subchannel that holds its head, a data error
recorded under that quay's SOURCE (02, R75; DESIGN CHOICE, log 207). -/
def dirFault (a : Nat) (f : StartFault) (s : State) : StartFault × State :=
  let q := (locate s a).1
  match f with
  | .violation _ => (f, s)
  | .fail c p =>
    let s1 := countFault q c s
    (f, if 0x0201 ≤ c ∧ c ≤ 0x0209 then dataRecord (0x0100 + q) c p s1 else s1)

/-- One directory snapshot (R178 step 3; 02, R78). -/
def snapshot (b : Fin 512) (want : Option Nat × Nat × Nat × Nat) (s : State) : Except StartFault Directory × State :=
  match want with
  | (none, _, _, pos) => (.error (.fail runBind pos), s)
  | (some a, t, sc, pos) =>
    let fails (e : StartFault) (s : State) : Except StartFault Directory × State :=
      let r := dirFault a e s
      (.error r.1, r.2)
    match startRead b a 64 s with
    | (.error e, s1) => fails e s1
    | (.ok head, s1) =>
      match startRead b (a + 64) (if dirHeadOk a head then 32 * field head 4 4 else 0) s1 with
      | (.error e, s2) => fails e s2
      | (.ok body, s2) =>
        match parseDirectory a head body with
        | .error e => fails (.fail e.1 e.2) s2
        | .ok d => if d.type = t ∧ d.scale = sc then (.ok d, s2) else (.error (.fail runBind pos), s2)

/-- Snapshots of one stage, in order; those of a SCAN have the TOTAL_ROWS of its column 0. -/
def snapshots (b : Fin 512) (total : Option Nat) :
    List (Option Nat × Nat × Nat × Nat) → State → Except StartFault (List Directory) × State
  | [], s => (.ok [], s)
  | w :: t, s =>
    match snapshot b w s with
    | (.error e, s1) => (.error e, s1)
    | (.ok d, s1) =>
      if (total.getD d.totalRows) ≠ d.totalRows then (.error (.fail runBind w.2.2.2), s1)
      else match snapshots b (some d.totalRows) t s1 with
      | (.error e, s2) => (.error e, s2)
      | (.ok ds, s2) => (.ok (d :: ds), s2)

/-- Position of the first directory address that is bound to a NULL parameter (R178 step 2). -/
def nullDir (x : Job) (stages : List Stage) : Option Nat :=
  stages.findSome? (fun g => ((dirWants x g).find? (fun w => w.1.isNone)).map (fun w => w.2.2.2))

/-- Snapshots of every stage, by stage number. -/
def allSnapshots (b : Fin 512) (x : Job) : List (Nat × Stage) → State → Except StartFault (Tbl (List Directory)) × State
  | [], s => (.ok [], s)
  | (k, g) :: t, s =>
    match snapshots b none (dirWants x g) s with
    | (.error e, s1) => (.error e, s1)
    | (.ok ds, s1) =>
      match allSnapshots b x t s1 with
      | (.error e, s2) => (.error e, s2)
      | (.ok rest, s2) => (.ok (if ds.isEmpty then rest else (k, ds) :: rest), s2)

/-! ## RUN: tables (R178 step 4; 06, R243, R247, R252) -/

/-- A berth's table of a name, with its internal tag. -/
def tableOf (s : State) (b : Fin 512) (id : Nat) : Option (Nat × CTable) :=
  s.canopy.tables.find? (fun e => decide (e.2.berth = b) && decide (e.2.id = id))

/-- What a binding comes to: a table, a wait for its load, or RUN(BIND). -/
inductive BindOutcome where
  | bound (tag : Nat)
  | wait
  | bad
  deriving DecidableEq, Repr

/-- A job is an earlier CREATE, or an earlier DROP, of a table. -/
def createsTable (s : State) (b : Fin 512) (j id : Nat) : Bool :=
  !(earlier s b j 0x38 (fun x => decide (bodyField x 0x24 1 = id) && decide (bodyField x 0x25 1 = 1))).isEmpty ||
  !(earlier s b j 0x3A (fun x => decide (bodyField x 0x24 1 = id) && decide (bodyField x 0x25 1 = 1))).isEmpty
def dropsTable (s : State) (b : Fin 512) (j id : Nat) : Bool :=
  !(earlier s b j 0x38 (fun x => decide (bodyField x 0x24 1 = id) && decide (bodyField x 0x25 1 = 3))).isEmpty

/-- Key columns of the LOOKUP stages on a binding agree with a table's fields (06, R252). -/
def lookupFits (im : Image) (k : Nat) (t : CTable) : Bool :=
  (numbered im.stages).all (fun e => match e.2.body with
    | .lookup bind keys _ =>
      if bind = k then
        let sc := ((im.edges.find? (fun x => decide (x.dst = e.1))).map (fun x => x.schema)).getD []
        decide (keys.length = t.fields.length) &&
        (keys.zip t.fields).all (fun p => decide ((columnOf sc p.1).1 = p.2.1))
      else true
    | _ => true)

/-- One automata binding. -/
def bindTable (s : State) (b : Fin 512) (j : Nat) (im : Image) (k : Nat) (a : AutoBind) : BindOutcome :=
  match tableOf s b a.tableId with
  | none => if createsTable s b j a.tableId then .wait else .bad
  | some (tag, t) =>
    let open_ := match t.state with
      | .ready => !(dropsTable s b j a.tableId)
      | .dropping => decide (j < t.dropJob.getD 0)
      | _ => false
    if t.state = .loading then .wait
    else if !open_ then .bad
    else if a.kind = 2 then
      if t.pattern && decide (leNat (t.measurement.take 8) = a.expected) then .bound tag else .bad
    else if !t.pattern && lookupFits im k t then .bound tag else .bad

/-- Every binding, in order; the first that is bad gives its position. -/
def bindTables (s : State) (b : Fin 512) (j : Nat) (im : Image) : Except Nat (List Nat) :=
  ((List.range im.autos.length).zip im.autos).foldlM (fun tags e =>
    match bindTable s b j im e.1 e.2 with
    | .bound tag => .ok (tags ++ [tag])
    | _ => .error e.2.at_) []

/-- Some binding waits for a load (06, R247). -/
def tableWaits (s : State) (b : Fin 512) (j : Nat) (im : Image) : Bool :=
  ((List.range im.autos.length).zip im.autos).any (fun e => bindTable s b j im e.1 e.2 == .wait)

/-! ## RUN: the result descriptor (R188, R189) -/

/-- EMIT stages of an image: result set and input schema. -/
def emitsOf (im : Image) : List (Nat × Schema) :=
  (numbered im.stages).filterMap (fun e => (emitSet e.2).map (fun k =>
    (k, ((im.edges.find? (fun x => decide (x.dst = e.1))).map (fun x => x.schema)).getD [])))

/-- Bytes of a set record. -/
def setBytes (sc : Schema) : Nat := 64 + 32 * sc.length

/-- SET_OFFSET of a set. -/
def setOffset (head : Bytes) (k : Nat) : Nat := field head (8 + 4 * k) 4

/-- Rules of the header, in offset order. -/
def descriptorTests (head : Bytes) (emits : List (Nat × Schema)) : List (Bool × Nat) :=
  [(decide (field head 0 1 = 7), 0), (decide (field head 1 1 = emits.length), 1), reservedAt head 2 6] ++
  (List.range 4).map (fun k =>
    let o := setOffset head k
    ((match emits.find? (fun e => decide (e.1 = k)) with
      | none => decide (o = 0)
      | some e => decide (64 ≤ o) && decide (o % 64 = 0) &&
        emits.all (fun f => decide (k ≤ f.1) || spansApart o (setBytes e.2) (setOffset head f.1) (setBytes f.2))),
     8 + 4 * k)) ++ [reservedAt head 0x18 40]

/-- Rules of a set record at an offset, for a schema. -/
def recordTests (r : Bytes) (o : Nat) (sc : Schema) : List (Bool × Nat) :=
  let zero (p n : Nat) : Bool × Nat := (allZero (slice r p n), o + p)
  [(decide (field r 0 1 = sc.length), o), zero 1 7, zero 0x20 32] ++
  ((List.range sc.length).zip sc).flatMap (fun e =>
    let p := 0x40 + 32 * e.1
    let text := typeClass e.2.1 == .bytes
    let cap := field r (p + 0x18) 4
    [(decide (field r p 8 % 64 = 0), o + p), (decide (field r (p + 8) 8 % 64 = 0), o + p + 8),
     (if text then decide (field r (p + 0x10) 8 % 64 = 0) else decide (field r (p + 0x10) 8 = 0), o + p + 0x10),
     (if text then decide (1 ≤ cap) && decide (cap ≤ 0x7FFFFFFF) else decide (cap = 0), o + p + 0x18),
     zero (p + 0x1C) 4])

/-- A set as its record describes it. -/
def setOf (addr : Nat) (r : Bytes) (sc : Schema) : EmitSet :=
  { record := addr, capacity := field r 8 8,
    columns := (List.range sc.length).map (fun k =>
      { validityAddr := field r (0x40 + 32 * k) 8, valuesAddr := field r (0x48 + 32 * k) 8,
        dataAddr := field r (0x50 + 32 * k) 8, dataCap := field r (0x58 + 32 * k) 4 }) }

/-- Fault of the first test that fails. -/
def testFault (code : Nat) (tests : List (Bool × Nat)) : Option StartFault :=
  (tests.find? (fun t => !t.1)).map (fun t => .fail code t.2)

/-- Set records, by set number (R189). -/
def readSets (b : Fin 512) (base : Nat) (head : Bytes) :
    List (Nat × Schema) → State → Except StartFault (Tbl EmitSet) × State
  | [], s => (.ok [], s)
  | (k, sc) :: t, s =>
    let o := setOffset head k
    match hostRead (some b) (base + o) (setBytes sc) s with
    | (.error a, s1) => (.error (.fail 0x0101 a), s1)
    | (.ok r, s1) =>
      match testFault 0x030A (recordTests r o sc) with
      | some f => (.error f, s1)
      | none =>
        match readSets b base head t s1 with
        | (.error e, s2) => (.error e, s2)
        | (.ok m, s2) => (.ok (tblSet m k (setOf (base + o) r sc)), s2)

/-- The result descriptor (R178 step 5). -/
def readDescriptor (b : Fin 512) (base : Nat) (im : Image) (s : State) : Except StartFault (Tbl EmitSet) × State :=
  let emits := sortByKey (fun e => e.1) (emitsOf im)
  match hostRead (some b) base 64 s with
  | (.error a, s1) => (.error (.fail 0x0101 a), s1)
  | (.ok head, s1) =>
    match testFault 0x030A (descriptorTests head emits) with
    | some f => (.error f, s1)
    | none => readSets b base head emits s1

/-! ## RUN (R178) -/

/-- Body checks of RUN that need no image (R177, R196). -/
def runFault (s : State) (x : Job) : Option (Nat × Nat) :=
  let scratch := bodyField x 0x20 8
  let n := bodyField x 0x28 4
  firstFault
    [(decide (bodyField x 0x2C 1 ≤ 63), imageSlot, bodyField x 0x2C 1),
     (decide (bodyField x 0x18 8 % 64 = 0), jobBody, 0x18),
     (decide (scratch % granuleBytes = 0) && decide (scratch < interBytes s), runPlacement, 0x20),
     (decide (n ≠ 0), runPlacement, 0x28),
     (decide (scratch + granuleBytes * n ≤ interBytes s), runPlacement, 0x20),
     zeroRange x jobBody 0x2E 2, zeroRange x jobBody 0x3C 4]

/-- The constant section with the parameters' records in place (R178 step 1). -/
def constCopy (x : Job) (im : Image) (bytes : Bytes) : Bytes :=
  ((List.range im.params.length).zip im.params).foldl (fun c e =>
    overlay c e.2.constPos (slice x.entry (0x40 + 48 * e.1) 48)) (slice bytes im.constAt im.constLength)

/-- End a job by a start fault. -/
def startFailed (j : Nat) (b : Fin 512) (f : StartFault) (s : State) : State :=
  match f with
  | .violation a => noteViolation b a (some j) s
  | .fail c p => endFailed j c p s

/-- Steps 1 to 5 of R178 for a job whose image and parameters stand. -/
def runStart (j : Nat) (x : Job) (b : Fin 512) (y : Slot) (bytes : Bytes) (im : Image) (s : State) : State :=
  let scratch := bodyField x 0x20 8
  let span := granuleBytes * bodyField x 0x28 4
  match foreignGranule s b (granulesOf scratch span) with
  | some g => noteViolation b (granuleBytes * g) (some j) s
  | none =>
    let s1 := (devWrite (some b) false scratch (constCopy x im bytes) s).2
    match nullDir x im.stages with
    | some pos => endFailed j runBind pos s1
    | none =>
    match allSnapshots b x (numbered im.stages) s1 with
    | (.error f, s2) => startFailed j b f s2
    | (.ok dirs, s2) =>
      match bindTables s2 b j im with
      | .error pos => endFailed j runBind pos s2
      | .ok tags =>
        match readDescriptor b (bodyField x 0x18 8) im s2 with
        | (.error f, s3) => startFailed j b f s3
        | (.ok sets, s3) =>
          let r : Run :=
            { slot := bodyField x 0x2C 1, image := { im with stages := im.stages.map (bindStage x) },
              codeBase := y.addr + im.codeAt, resultAddr := bodyField x 0x18 8, scratchAddr := scratch,
              scratchLength := span, rowLimit := bodyField x 0x30 8, timeLimit := bodyField x 0x38 4,
              dirs := dirs, tags := tags, sets := sets }
          let s4 := { s3 with runs := tblSet s3.runs j r }
          let s5 := { s4 with canopy := { s4.canopy with tables := s4.canopy.tables.map (fun e =>
            if tags.contains e.1 then (e.1, { e.2 with users := j :: e.2.users }) else e) } }
          onSlot b.val r.slot (fun y => { y with users := j :: y.users }) s5

/-- RUN (R177, R178). Placement is RUN_PLACEMENT. -/
def execRun (job : Nat) (h : HostView) (s : State) : Host.Outcome State Fault Refusal :=
  .next (withHostJob 0x12 job h s (fun x s =>
    match x.berth with
    | none => s
    | some b =>
      if (getR s job).isSome then s
      else match runFault s x with
      | some e => endFailed job e.1 e.2 s
      | none =>
        let slot := bodyField x 0x2C 1
        match slotFor s b job slot with
        | .wait => s
        | .bad => endFailed job imageSlot slot s
        | .ready =>
          let y := getSlot s b.val slot
          match devRead none false y.addr y.length s with
          | (.ok bytes, s1) =>
            match checkImage bytes y.length s.fw.runtimeVersion.toNat with
            | .error e => endFailed job e.1 e.2 s1
            | .ok im =>
              match paramFault x im with
              | some p => endFailed job 0x0307 p s1
              | none => if tableWaits s1 b job im then s else runStart job x b y bytes im s1
          | (r, s1) => endFailed job 0x0211 (deviceFault r) s1))

/-! ## Placement (R151, R180, R181; 03, R94, R717) -/

/-- Groves present, in ascending order. -/
def presentGroves (s : State) : List Nat := bitList s.present.groves

/-- Instances of a stage: a SCAN counts its scan tasks. -/
def stageCount (s : State) (g : Stage) : Nat :=
  if g.kind = 1 then (presentSubs s).length
  else if g.instances = 0 then (presentGroves s).length else g.instances

/-- Grove of instance `i` of `n` (R151). -/
def groveFor (s : State) (n i : Nat) : Nat :=
  let p := presentGroves s
  p.getD (i * p.length / max 1 n) 0

/-- Every instance of a job but those of SCAN: stage, instance, grove, stage header. -/
def instList (s : State) (im : Image) : List (Nat × Nat × Nat × Stage) :=
  (numbered im.stages).flatMap (fun e =>
    if e.2.kind = 1 then []
    else (List.range (stageCount s e.2)).map (fun i => (e.1, i, groveFor s (stageCount s e.2) i, e.2)))

/-- Grove store that placed jobs hold on a grove. -/
def storeHeld (s : State) (g : Nat) : Nat :=
  (s.runs.map (fun r => (r.2.insts.map (fun i =>
    if i.2.grove = g then ((r.2.image.stages[i.1 / 32]?).map (fun x => x.groveStore)).getD 0 else 0)).sum)).sum

/-- Bytes of a grove's store (07). -/
def groveStoreBytes : Nat := 0x400000

/-- The flows of a job: one, shared by its EMIT stages, where it has two or more (09, R376). -/
def needsFlow (im : Image) : Bool := decide (2 ≤ (emitsOf im).length)

/-- Lowest flow free for berth tasks. -/
def freeFlow (s : State) : Option Nat :=
  ((List.range 3840).map (· + 256)).find? (fun f => (tblFind s.pilot.flows f).isNone)

/-- The `n` lowest free task numbers of the berth pool (09, R385). -/
def freeTasks (s : State) (n : Nat) : List Nat :=
  let held := (s.pilot.tasks.filter (fun e => e.2.state != .free)).map (·.1)
  (((List.range (n + held.length)).map (· + 1024)).filter (fun t => !held.contains t)).take n

/-- The job can be placed now. -/
def canPlace (s : State) (b : Fin 512) (im : Image) : Bool :=
  let l := instList s im
  decide (tasksHeld s b + l.length ≤ (getB s b.val).taskQuota.toNat) &&
  (presentGroves s).all (fun g =>
    decide (storeHeld s g + (l.map (fun e => if e.2.2.1 = g then e.2.2.2.groveStore else 0)).sum ≤ groveStoreBytes)) &&
  (!(needsFlow im) || (freeFlow s).isSome)

/-- Create the task of an instance (09, R358, R360). -/
def createTask (b : Fin 512) (j t : Nat) (flow : Option Nat) (e : Nat × Nat × Nat × Stage) (s : State) : State :=
  let w := Config.initialWait e.2.2.2.kind
  wake t (onT t (fun _ =>
    { state := .waiting, berth := some b, grove := Fin.ofNat 16 e.2.2.1, priority := Fin.ofNat 8 e.2.2.2.priority,
      flow := if e.2.2.2.kind = 0x0D then flow.map (Fin.ofNat 4096) else none, mask := w.1, any := w.2,
      job := some j, stage := e.1, inst := e.2.1 }) s)

/-- Stripes of a SCAN by the subchannel of their anchor block (03, R94, R717). -/
def stripesOf (s : State) (first stop : Nat) (d : Directory) (sub : Nat) : List Nat :=
  let stop1 := min stop (ceilDiv d.totalRows 4096)
  let lowest := (presentSubs s).headD 0
  ((List.range stop1).drop first).filter (fun k =>
    match Directory.entryOf d (4096 * k) with
    | some (_, e) =>
      if s.present.subchannels.getLsbD e.subchannel then decide (e.subchannel = sub) else decide (sub = lowest)
    | none => false)

/-- Scan tasks of a stage (03, R94). -/
def createScans (j st : Nat) (g : Stage) (ds : List Directory) (s : State) : State :=
  match g.body, ds with
  | .scan _ _ _ _ _ first stop _, d :: _ =>
    (presentSubs s).foldl (fun s sub =>
      let t : ScanTask := { job := j, stage := st, sub := sub, stripes := stripesOf s first stop d sub }
      { s with scans := tblSet s.scans s.nextScan t, nextScan := s.nextScan + 1 }) s
  | _, _ => s

/-- Offset 0 of every byte-string column is written at the start (R190). -/
def firstOffsets (b : Fin 512) (j : Nat) (s : State) : State :=
  match getR s j with
  | none => s
  | some r =>
    (emitsOf r.image).foldl (fun s e =>
      match tblFind r.sets e.1 with
      | none => s
      | some y => (y.columns.zip e.2).foldl (fun s c =>
          if typeClass c.2.1 = .bytes then hostWrite (some b) c.1.valuesAddr (natLe 4 0) s else s) s) s

/-- All instances are placed, and the job is RUNNING (R181). -/
def placeRun (j : Nat) (b : Fin 512) (r : Run) (s : State) : State :=
  let im := r.image
  let l := instList s im
  let flow := if needsFlow im then freeFlow s else none
  let tasks := (freeTasks s l.length).zip l
  let s1 := tasks.foldl (fun s e => createTask b j e.1 flow e.2 s) s
  let s2 := match flow with
    | some f => onPilot (fun p => { p with flows := tblSet p.flows f j }) s1
    | none => s1
  let s3 := onR j (fun r => { r with
    placed := true, counts := im.stages.map (stageCount s), flow := flow, started := s.sys.time,
    insts := tasks.foldl (fun m e =>
      tblSet m (instKey e.2.1 e.2.2.1) { task := e.1, grove := e.2.2.2.1 }) r.insts }) s2
  let s4 := (numbered im.stages).foldl (fun s e => createScans j e.1 e.2 (tblGet [] r.dirs e.1) s) s3
  beginJob j (firstOffsets b j s4)

/-- RUN_PLACEMENT (R180, R181). -/
def execRunPlacement (job : Nat) (s : State) : Host.Outcome State Fault Refusal :=
  .next (withJob 0x12 job s (fun x =>
    match x.berth, getR s job with
    | some b, some r =>
      let needed := (instList s r.image).length
      let ahead := s.runs.any (fun e => decide (e.1 < job) && !e.2.placed && match getJ s e.1 with
        | some y => decide (y.berth = some b) && y.result.isNone
        | none => false)
      if r.placed || !(taking s x) then s
      else if (getB s b.val).taskQuota.toNat < needed then endFailed job 0x030D needed s
      else if ahead || !(canPlace s b r.image) then s
      else placeRun job b r s
    | _, _ => s))

/-! ## CANCEL and TIME_LIMIT (R183 to R186) -/

/-- The job that a CANCEL names: of the berth, its tag, ACCEPTED, RUNNING or PARTIAL. -/
def cancelTarget (s : State) (b : Fin 512) (j tag : Nat) : Option Nat :=
  ((jobsOf s b).find? (fun e =>
    decide (e.1 ≠ j) && decide (e.2.tag = tag) && decide (1 ≤ e.2.state) && decide (e.2.state ≤ 3) &&
    e.2.result.isNone)).map (·.1)

/-- CANCEL (R184 to R186): the target is cancelled, its tasks are told to stop (09, R387). -/
def execCancel (job : Nat) (s : State) : Host.Outcome State Fault Refusal :=
  .next (withJob 0x13 job s (fun x =>
    match x.berth with
    | none => s
    | some b =>
      match firstFault [(decide (lenGranules x = 1), jobBody, 1), zeroRange x jobBody 0x20 32] with
      | some e => endFailed job e.1 e.2 s
      | none =>
        let s1 := beginJob job s
        match cancelTarget s1 b job (bodyField x 0x18 8) with
        | none => endFailed job 0x0312 0 s1
        | some t => endDone job (stopTasks t (endCancelled t (onJ t (fun y => { y with cancelled := true }) s1)))))

/-- µs that a RUN job has been RUNNING, its berth's freezes left out (R183; 11, R474). -/
def runningUs (s : State) (x : Job) (r : Run) : Nat := x.timeUsed + (s.sys.time - r.started).toNat

/-- TIME_LIMIT_EXPIRY (R183). -/
def execTimeLimitExpiry (job : Nat) (s : State) : Host.Outcome State Fault Refusal :=
  .next (match getJ s job, getR s job with
    | some x, some r =>
      if r.placed ∧ r.timeLimit ≠ 0 ∧ 1000 * r.timeLimit ≤ runningUs s x r ∧ taking s x then
        stopTasks job (endFailed job 0x030F r.timeLimit s)
      else s
    | _, _ => s)

end Sys2Proof.Machine
end

