-- ==== Sys2Proof/Machine/Cranes.lean ====
section
/-! DEFINITION. Cranes (13_cranes_compression_digest.md, R532 to R556): moving bytes between host and device memory for
engine jobs, MOVE and FILL, and the channels that work through descriptors. -/

namespace Sys2Proof.Machine

def countCrane (i n : Nat) (s : State) : State := count .cranes i n s

/-! ## Moving bytes -/

/-- A place that bytes come from or go to. -/
inductive Side where
  | device (addr : Nat)
  | host (addr : Nat)
  deriving DecidableEq, Repr

/-- A place further on. -/
def Side.plus : Side → Nat → Side
  | .device a, n => .device (a + n)
  | .host a, n => .host (a + n)

/-- Why a transfer stops: a host address whose read failed, or the answer of device memory (R552). -/
inductive MoveStop where
  | host (addr : Nat)
  | device (addr : Nat) (r : DevResult)
  deriving DecidableEq, Repr

/-- Read bytes for a tag, or for a berth's PASID. -/
def readSide (b : Option (Fin 512)) (side : Side) (n : Nat) (s : State) : Except MoveStop Bytes × State :=
  match side with
  | .device a =>
    match devRead b true a n s with
    | (.ok d, s1) => (.ok d, countCrane 2 n s1)
    | (.poisoned l, s1) => (.error (.device (l * 64) (.poisoned l)), s1)
    | (r, s1) => (.error (.device (max a (deviceFault r)) r), s1)
  | .host a =>
    match hostRead b a n s with
    | (.ok d, s1) => (.ok d, countCrane 0 n s1)
    | (.error x, s1) => (.error (.host x), s1)

/-- The first line of a write that is poisoned and not covered whole: the write would be discarded there (R521). -/
def partialPoison (s : State) (a n : Nat) : Option Nat :=
  (linesOf a n).find? (fun l => s.dev.poison.contains l && !(coversLine a n l))

/-- Write bytes. A burst that would fail writes nothing (R552). -/
def writeSide (b : Option (Fin 512)) (side : Side) (data : Bytes) (s : State) : Option MoveStop × State :=
  match side with
  | .device a =>
    match refusal s b true a data.length, partialPoison s a data.length with
    | none, some l => (some (.device (l * 64) (.poisoned l)), s)
    | _, _ =>
      match devWrite b true a data s with
      | (.ok _, s1) => (none, countCrane 3 data.length s1)
      | (r, s1) => (some (.device (max a (deviceFault r)) r), s1)
  | .host a => (none, countCrane 1 data.length (hostWrite b a data s))

/-- Bytes moved at a time for an engine job. -/
def moveBurst : Nat := 4096

/-- The advance of BYTES_COMMITTED comes at least once for every 2 MiB (R555). -/
def moveAdvance (j done : Nat) (last : Bool) (s : State) : State :=
  if last ∨ done % 0x200000 = 0 then advanceTo j 0 done s else s

/-- Move bytes in ascending order from offset `done`: how it stopped, how many bytes stand at the destination. -/
def moveLoop (j : Nat) (b : Option (Fin 512)) (src : Nat → Nat → State → Except MoveStop Bytes × State) (dst : Side)
    (total : Nat) : Nat → Nat → State → Option MoveStop × State
  | 0, _, s => (none, s)
  | fuel + 1, done, s =>
    if total ≤ done then (none, s)
    else
      let n := min moveBurst (total - done)
      match src done n s with
      | (.error e, s1) => (some e, advanceTo j 0 done s1)
      | (.ok d, s1) =>
        match writeSide b (dst.plus done) d s1 with
        | (some e, s2) => (some e, advanceTo j 0 done s2)
        | (none, s2) => moveLoop j b src dst total fuel (done + n) (moveAdvance j (done + n) (decide (total ≤ done + n)) s2)

/-- How a job ends whose transfer stopped (R553); an ownership violation awaits its handling. -/
def moveFailed (j : Nat) (b : Option (Fin 512)) (e : MoveStop) (s : State) : State :=
  match e with
  | .host a => hostReadFailed j a s
  | .device a r =>
    match b with
    | some b => deviceFailed j b 0x0803 a r s
    | none => endFailed j 0x0803 a s

/-- End of a transfer that makes up a whole job. -/
def moveEnds (j : Nat) (b : Option (Fin 512)) (r : Option MoveStop × State) : State :=
  match r with
  | (some e, s) => moveFailed j b e s
  | (none, s) => endDone j s

/-! ## MOVE and FILL (R554 to R556) -/

/-- ENGINE(BODY) and ENGINE(OVERLAP) (R578). -/
def engineBody : Nat := 0x0801
def engineOverlap : Nat := 0x0802

/-- A device range lies in installed memory. -/
def inMemory (s : State) (a n : Nat) : Bool := decide (a + n ≤ installedBytes s)

/-- The fault of a MOVE entry. -/
def moveFault (s : State) (x : Job) : Option (Nat × Nat) :=
  let src := bodyField x 0x18 8
  let dst := bodyField x 0x20 8
  let n := bodyField x 0x28 8
  let dir := bodyField x 0x30 1
  firstFault
    [(decide (lenGranules x = 1), engineBody, 1),
     (!(decide (dir = 1) || decide (dir = 2)) || inMemory s src n, engineBody, 0x18),
     (!(decide (dir = 0) || decide (dir = 2)) || inMemory s dst n, engineBody, 0x20),
     (decide (1 ≤ n) && decide (n ≤ 0x1000000000), engineBody, 0x28),
     (decide (dir ≤ 3), engineBody, 0x30),
     zeroRange x engineBody 0x31 15,
     (!(decide (dir = 2)) || decide (src + n ≤ dst) || decide (dst + n ≤ src), engineOverlap, 0x18)]

/-- Source and destination of a MOVE. -/
def moveSides (x : Job) : Side × Side :=
  let dir := bodyField x 0x30 1
  let src := bodyField x 0x18 8
  let dst := bodyField x 0x20 8
  (if dir = 1 ∨ dir = 2 then .device src else .host src, if dir = 0 ∨ dir = 2 then .device dst else .host dst)

/-- The whole of a MOVE. -/
def moveRun (j : Nat) (x : Job) (s : State) : State :=
  let n := bodyField x 0x28 8
  moveEnds j x.berth (moveLoop j x.berth (fun done k s => readSide x.berth ((moveSides x).1.plus done) k s) (moveSides x).2 n
    (n / moveBurst + 1) 0 (beginJob j s))

/-- MOVE (R555). One that reads the host waits while host reads do. -/
def execMove (job : Nat) (h : HostView) (s : State) : Host.Outcome State Fault Refusal :=
  .next (withJob 0x22 job s (fun x =>
    let s1 := hostSync h s
    match moveFault s1 x with
    | some (c, p) => endFailed job c p s1
    | none =>
      match (moveSides x).1 with
      | .host _ => if hostBlocked s1 ∨ x.begun then s1 else moveRun job x s1
      | .device _ => if x.begun then s1 else moveRun job x s1))

/-- The fault of a FILL entry (R556). -/
def fillFault (s : State) (x : Job) : Option (Nat × Nat) :=
  let n := bodyField x 0x20 8
  let target := bodyField x 0x30 1
  firstFault
    [(decide (lenGranules x = 1), engineBody, 1),
     (!(decide (target = 0)) || inMemory s (bodyField x 0x18 8) n, engineBody, 0x18),
     (decide (1 ≤ n) && decide (n ≤ 0x1000000000), engineBody, 0x20),
     (decide (target ≤ 1), engineBody, 0x30),
     zeroRange x engineBody 0x31 15]

/-- Bytes of a repeating 8-byte pattern from offset `o`. -/
def patternBytes (pattern : Bytes) (o n : Nat) : Bytes := (List.range n).map (fun i => pattern.getD ((o + i) % 8) 0)

/-- FILL (R556). -/
def execFill (job : Nat) (s : State) : Host.Outcome State Fault Refusal :=
  .next (withJob 0x23 job s (fun x =>
    match fillFault s x with
    | some (c, p) => endFailed job c p s
    | none =>
      if x.begun then s
      else
        let n := bodyField x 0x20 8
        let a := bodyField x 0x18 8
        let dst : Side := if bodyField x 0x30 1 = 0 then .device a else .host a
        let pattern := slice x.entry 0x28 8
        moveEnds job x.berth (moveLoop job x.berth (fun done k s => (.ok (patternBytes pattern done k), s)) dst n
          (n / moveBurst + 1) 0 (beginJob job s))))

/-! ## Descriptors (R538, R540) -/

/-- A descriptor from its 64 bytes. -/
def parseDescriptor (b : Bytes) : Descriptor :=
  { op := field b 0 1, flags := field b 1 1, srcKind := field b 2 1, dstKind := field b 3 1, srcLine := field b 4 1,
    dstLine := field b 5 1, burst := field b 6 1, priority := field b 7 1, src := field b 8 8, dst := field b 0x10 8,
    length := field b 0x18 4, berth := field b 0x1C 2, fill := field b 0x20 8, pulseTask := field b 0x28 2,
    pulseFlag := field b 0x2A 1, next := field b 0x30 8 }

/-- The berth of a descriptor; none for the device. -/
def Descriptor.tag (d : Descriptor) : Option (Fin 512) := if h : d.berth < 512 then some ⟨d.berth, h⟩ else none

/-- A line may be named by a descriptor (R540, R546). -/
def lineOk (kind line berth : Nat) : Bool :=
  if kind = 2 then decide (line < 24) || (decide (line < 30) && decide (berth = 0xFFFF)) else decide (line = 0)

/-- A descriptor passes the checks of R540. -/
def descriptorOk (b : Bytes) : Bool :=
  let d := parseDescriptor b
  (decide (d.op = 1) || decide (d.op = 2)) && decide (d.flags < 8) && decide (d.srcKind ≤ 2) && decide (d.dstKind ≤ 2) &&
  decide (d.burst ≤ 6) && decide (d.priority ≤ 7) && decide (d.length ≠ 0) &&
  allZero (slice b 0x1E 2) && allZero (slice b 0x2B 5) && allZero (slice b 0x3E 2) &&
  !(decide (d.srcKind = 2) && decide (d.dstKind = 2)) &&
  (decide (d.op ≠ 2) || (decide (d.srcKind = 0) && decide (d.src = 0) && decide (d.srcLine = 0) && decide (d.dstLine = 0) &&
    decide (d.dstKind ≠ 2))) &&
  (decide (d.op ≠ 1) || decide (d.fill = 0)) &&
  lineOk d.srcKind d.srcLine d.berth && lineOk d.dstKind d.dstLine d.berth &&
  (decide (d.srcKind ≠ 2) || decide (d.src = 0)) && (decide (d.dstKind ≠ 2) || decide (d.dst = 0)) &&
  (decide (d.berth < 512) || decide (d.berth = 0xFFFF)) && decide (d.pulseFlag ≤ 31) &&
  (decide (d.berth = 0xFFFF) || (decide (10 ≤ d.pulseFlag) && decide (d.pulseFlag ≤ 29))) &&
  decide (d.next % 64 = 0)

/-! ## Channels (R545) -/

/-- Record how the descriptor in hand ends, unless that is settled. -/
def channelEnds (c code : Nat) (surplus : Bool) (s : State) : State :=
  onCh c (fun k => if k.ending.isSome then k else { k with ending := some (code, surplus) }) s

/-- The engine gates of the cranes are open (16, R666). -/
def cranesRun (s : State) : Bool := hostActive s

/-- CH_START: a store of a core to the channel's control block, before which the core's earlier stores are visible (08,
R343, R356). -/
def execChStart (writer : Fin 129) (c : Fin 64) (addr : BitVec 64) (s : State) : Host.Outcome State Fault Refusal :=
  .next (coreStep writer s (fun _ =>
    storeThen writer (channelBlocks + 0x40 * c.val) (natLe 8 addr.toNat) false s (finish writer id)))

/-- STOP: a store to CH_CONTROL. -/
def execStop (writer : Fin 129) (c : Fin 64) (s : State) : Host.Outcome State Fault Refusal :=
  .next (coreStep writer s (fun _ =>
    storeThen writer (channelBlocks + 0x40 * c.val + 0xC) (natLe 4 1) false s (finish writer id)))

/-- DESCRIPTOR_FETCH (R540): read with the device tag and checked before any access. -/
def execDescriptorFetch (c : Fin 64) (s : State) : Host.Outcome State Fault Refusal :=
  let k := getCh s c.val
  .next (
    if !(cranesRun s) ∨ !k.fetch then s
    else match devRead none true k.current.toNat 64 s with
    | (.ok b, s1) =>
      let code := if !(descriptorOk b) then some (7, false) else if k.state = .stopping then some (3, false) else none
      onCh c.val (fun k => { k with
        desc := some (parseDescriptor b), fetch := false, done := 0, ending := code, waitSince := s.sys.time.toNat }) s1
    | (_, s1) => onCh c.val (fun k => { k with
        desc := none, fetch := false, done := 0, ending := some (5, false), failAddr := k.current.toNat }) s1)

/-- The berths' number in the deficit round robin; 512 is the device. -/
def craneUser (d : Descriptor) : Nat := match d.tag with
  | some b => b.val
  | none => 512

/-- Bytes of a descriptor's next burst. -/
def burstBytes (k : Channel) (d : Descriptor) : Nat := min (64 * 2 ^ d.burst) (d.length - k.done.toNat)

/-- A channel that waits for a burst which no request line paces. -/
def burstReady (k : Channel) : Option Descriptor :=
  match k.desc with
  | some d => if k.state = .running ∧ !k.fetch ∧ k.ending.isNone ∧ d.srcKind ≠ 2 ∧ d.dstKind ≠ 2 then some d else none
  | none => none

/-- Channels that wait, with their descriptors. -/
def burstWaiters (s : State) : List (Nat × Channel × Descriptor) :=
  s.eng.channels.filterMap (fun e => (burstReady e.2).map (fun d => (e.1, e.2, d)))

/-- Among channels of one berth: the highest PRIORITY, then the longest wait, then the lowest number (R535). -/
def pickChannel (l : List (Nat × Channel × Descriptor)) : Option (Nat × Channel × Descriptor) :=
  let top := l.foldl (fun m e => max m e.2.2.priority) 0
  findMin (fun e => e.2.1.waitSince) (l.filter (fun e => decide (e.2.2.priority = top)))

/-- The channel whose burst is next, with the balances after it (R535). -/
def chooseBurst (s : State) : Option ((Nat × Channel × Descriptor) × Tbl Nat × Nat) :=
  let all := burstWaiters s
  let users := (sortByKey id (all.map (fun e => craneUser e.2.2))).eraseDups
  let of (u : Nat) := pickChannel (all.filter (fun e => decide (craneUser e.2.2 = u)))
  let cost (u : Nat) : Nat := ((of u).map (fun e => burstBytes e.2.1 e.2.2)).getD 0
  let quantum (u : Nat) : Nat := 64 * (if u = 512 then 1000 else (getB s u).shareWeight.toNat)
  match drr users s.eng.craneLast s.eng.craneBalance quantum cost with
  | none => none
  | some (u, bal) => (of u).map (fun e => (e, bal, u))

/-- The channel halts on a transfer that stopped: 4 HOST_ERROR, 5 DEVICE_ERROR, 6 OWNERSHIP (R541, R551, R552). -/
def channelStops (c : Nat) (d : Descriptor) (e : MoveStop) (s : State) : State :=
  match e with
  | .host a => onCh c (fun k => { k with ending := some (4, false), failAddr := a }) s
  | .device a r =>
    match r, d.tag with
    | .violation x, some b =>
      onCh c (fun k => { k with ending := some (6, false), failAddr := a })
        (noteViolation b x (getT s d.pulseTask).job s)
    | _, _ => onCh c (fun k => { k with ending := some (5, false), failAddr := a }) s

/-- Bytes written: CH_DONE advances; at LENGTH the descriptor ends OK. -/
def channelMoved (c n : Nat) (d : Descriptor) (surplus : Bool) (s : State) : State :=
  onCh c (fun k =>
    let done := k.done + BitVec.ofNat 64 n
    { k with done := done, waitSince := s.sys.time.toNat,
             ending := if d.length ≤ done.toNat then some (1, surplus) else k.ending }) s

/-- The source of a descriptor's burst that is no line. -/
def burstSource (d : Descriptor) (done n : Nat) (s : State) : Except MoveStop Bytes × State :=
  if d.op = 2 then (.ok (patternBytes (natLe 8 d.fill) done n), s)
  else readSide d.tag (if d.srcKind = 0 then .device (d.src + done) else .host (d.src + done)) n s

/-- The destination of a descriptor's burst; a line takes the bytes to its engine. -/
def burstSink (d : Descriptor) (done : Nat) (data : Bytes) (s : State) : Option MoveStop × State :=
  match d.dstKind with
  | 0 => writeSide d.tag (.device (d.dst + done)) data s
  | 1 => writeSide d.tag (.host (d.dst + done)) data s
  | _ => (none, s)

/-- One burst from a source that is no line. -/
def moveOne (c : Nat) (k : Channel) (d : Descriptor) (s : State) : State :=
  let n := burstBytes k d
  match burstSource d k.done.toNat n s with
  | (.error e, s1) => channelStops c d e s1
  | (.ok data, s1) =>
    match burstSink d k.done.toNat data s1 with
    | (some e, s2) => channelStops c d e s2
    | (none, s2) => channelMoved c n d false s2

/-- BURST (R535, R541, R552), with the busy and wait cycles measured. -/
def execBurst (readBusy writeBusy slotWait : BitVec 32) (h : HostView) (s : State) : Host.Outcome State Fault Refusal :=
  let s0 := countCrane 9 readBusy.toNat (countCrane 10 writeBusy.toNat (countCrane 11 slotWait.toNat (hostSync h s)))
  .next (
    if !(cranesRun s) then s
    else match chooseBurst s0 with
    | none => s0
    | some ((c, k, d), bal, u) =>
      if d.op = 1 ∧ d.srcKind = 1 ∧ hostBlocked s0 then s0
      else moveOne c k d (onEng (fun e => { e with craneBalance := bal, craneLast := u }) s0))

/-! ## Request lines (R546 to R549) -/

/-- The descriptor of a channel that a line paces. -/
def lineDescriptor (s : State) (c : Nat) : Option (Channel × Descriptor) :=
  let k := getCh s c
  match k.desc with
  | some d =>
    if cranesRun s ∧ k.state = .running ∧ !k.fetch ∧ k.ending.isNone ∧ (d.srcKind = 2 ∨ d.dstKind = 2) then some (k, d)
    else none
  | none => none

/-- Bytes of a source line reach the destination. -/
def lineIn (c : Nat) (k : Channel) (d : Descriptor) (data : Bytes) (surplus : Bool) (s : State) : State :=
  match burstSink d k.done.toNat data s with
  | (some e, s1) => channelStops c d e s1
  | (none, s1) => channelMoved c data.length d surplus s1

/-- LINE_REQUEST (R547, R549): exactly one burst; a source line offers its bytes. -/
def execLineRequest (c : Fin 64) (data : Bytes) (h : HostView) (s : State) : Host.Outcome State Fault Refusal :=
  let s0 := hostSync h s
  .next (match lineDescriptor s c.val with
    | none => s0
    | some (k, d) =>
      let n := burstBytes k d
      if d.srcKind = 2 then if data.length = n then lineIn c.val k d data true s0 else s0
      else if d.op = 1 ∧ d.srcKind = 1 ∧ hostBlocked s0 then s0
      else moveOne c.val k d s0)

/-- LAST (R548): the last burst of a source line; before LENGTH the descriptor ends SHORT. -/
def execLast (c : Fin 64) (data : Bytes) (s : State) : Host.Outcome State Fault Refusal :=
  .next (match lineDescriptor s c.val with
    | none => s
    | some (k, d) =>
      if d.srcKind = 2 ∧ data.length ≤ burstBytes k d then channelEnds c.val 2 false (lineIn c.val k d data false s)
      else s)

/-! ## DESCRIPTOR_COMPLETE (R550, R551) -/

/-- A pulse tagged with BERTH; a BERTH that names neither a berth nor the device matches no task (R368). -/
def cranePulse (d : Descriptor) (s : State) : State :=
  if d.berth < 512 ∨ d.berth = 0xFFFF then pulse d.pulseTask d.pulseFlag d.tag s else countP 6 1 s

/-- DONE_COUNT and DONE_STATUS as one write, then the pulse. -/
def writeBack (k : Channel) (d : Descriptor) (code : Nat) (surplus : Bool) (s : State) : State :=
  let s1 := devPut (k.current.toNat + 0x38)
    (natLe 4 k.done.toNat ++ natLe 2 (code + b2n surplus * 256) ++ [0, 0]) s
  if bitOf d.flags 1 ∨ code ≠ 1 then cranePulse d s1 else s1

/-- DESCRIPTOR_COMPLETE. -/
def execDescriptorComplete (c : Fin 64) (s : State) : Host.Outcome State Fault Refusal :=
  let k := getCh s c.val
  .next (match (if cranesRun s then k.ending else none) with
    | none => s
    | some (code0, surplus0) =>
      let code := if k.state = .stopping ∧ code0 ≤ 3 then 3 else code0
      let surplus := surplus0 && decide (code = 1)
      let s1 := match k.desc with
        | some d => writeBack k d code surplus s
        | none => s
      let s2 := countCrane 4 1 (countCrane 5 (b2n (decide (code = 2))) (countCrane 6 (b2n surplus) (countCrane 8 (b2n (decide (4 ≤ code))) s1)))
      let more := (k.desc.map (·.next)).getD 0
      onCh c.val (fun k =>
        let k1 : Channel := { k with ending := none, lastCode := BitVec.ofNat 8 code, lastSurplus := surplus }
        if 4 ≤ code then { k1 with state := .halted }
        else if code = 1 ∧ more ≠ 0 then { k1 with current := BitVec.ofNat 64 more, fetch := true, desc := none }
        else { k1 with state := .idle }) s2)

end Sys2Proof.Machine
end

