-- ==== Sys2Proof/Machine/Canopy.lean ====
section
/-! DEFINITION. The Canopy store (06_canopy.md): entries and their shadow, tables and their placement, load records,
updates slot by slot, searches, pattern steps, parity and the loss of a bank. -/

namespace Sys2Proof.Machine

def onCanopy (f : Canopy → Canopy) (s : State) : State := { s with canopy := f s.canopy }
def getBank (s : State) (b : Nat) : Bank := tblGet {} s.canopy.banks b
def onBank (b : Nat) (f : Bank → Bank) (s : State) : State :=
  onCanopy (fun c => { c with banks := tblMod {} c.banks b f }) s
def onTable (tag : Nat) (f : CTable → CTable) (s : State) : State :=
  match tblFind s.canopy.tables tag with
  | none => s
  | some t => onCanopy (fun c => { c with tables := tblSet c.tables tag (f t) }) s
def countC (b i n : Nat) (s : State) : State := count (.canopy (Fin.ofNat 16 b)) i n s

/-- Positions of a bank (R237), and the bank of a position. -/
def bankSize : Nat := 32768
def bankOf (pos : Nat) : Nat := pos / bankSize
/-- The quad of a bank. -/
def quadOf (b : Nat) : Nat := b / 4

/-! ## Entries and their shadow (R237, R272) -/

/-- The 64 bytes of a shadow position. -/
def shadowBytes (e : CEntry) : Bytes :=
  natBe 20 e.value ++ natBe 20 e.mask ++ natLe 8 e.result ++ natLe 2 e.tag ++ natLe 1 (b2n e.valid) ++
    List.replicate 13 0

/-- An entry as its shadow holds it. A position that nothing has been written to, whose TAG bytes are zero, is in no
table: tag 0 is never given (DESIGN CHOICE, log 72). -/
def parseShadow (b : Bytes) : CEntry :=
  { value := beNat (slice b 0 20), mask := beNat (slice b 0x14 20), result := field b 0x28 8,
    tag := if field b 0x30 2 = 0 then 0xFFFF else field b 0x30 2, valid := decide (field b 0x32 1 = 1) }

/-- Device address of a position's shadow (12, R495). -/
def shadowAt (s : State) (pos : Nat) : Nat := reserveBase s + 64 * pos

def entryAt (s : State) (pos : Nat) : CEntry := tblGet {} s.canopy.entries pos

/-- An entry write: the shadow first, then the bank (R272). -/
def writeEntry (pos : Nat) (e : CEntry) (s : State) : State :=
  onCanopy (fun c => { c with entries := tblSet c.entries pos e }) (devPut (shadowAt s pos) (shadowBytes e) s)

/-- A position reloaded from its shadow. -/
def reloadEntry (pos : Nat) (s : State) : State :=
  onCanopy (fun c => { c with entries := tblSet c.entries pos (parseShadow (devBytes s (shadowAt s pos) 64)) }) s

/-- Mask length (R239). -/
def maskLength (mask : Nat) : Nat := ((List.range 160).filter (fun i => bitOf mask i)).length

/-- Give a range of positions to a table, or to none, with no valid entry. -/
def clearRange (base capacity tag : Nat) (s : State) : State :=
  (List.range capacity).foldl (fun s k => writeEntry (base + k) { tag := tag } s) s

/-! ## Placement (R244, R245) -/

/-- First positions of a table's copies. -/
def copiesOf (t : CTable) : List Nat := t.home :: t.mirror.toList

/-- Ranges in use in a bank: first place and length. A table that is UNAVAILABLE keeps its range, where its shadow
stands. -/
def bankRanges (s : State) (b : Nat) : List (Nat × Nat) :=
  s.canopy.tables.flatMap (fun e =>
    ((copiesOf e.2).filter (fun p => decide (bankOf p = b))).map (fun p => (p % bankSize, e.2.capacity)))

/-- The bank serves. -/
def bankServes (s : State) (b : Nat) : Bool := s.present.banks.getLsbD b && decide ((getBank s b).state = 0)

/-- Lowest place of a run of free positions in a bank. -/
def freeRun (s : State) (b capacity : Nat) : Option Nat :=
  let rs := bankRanges s b
  findMin (fun p => p) ((0 :: rs.map (fun r => r.1 + r.2)).filter (fun p =>
    decide (p + capacity ≤ bankSize) && rs.all (fun r => spansApart p capacity r.1 r.2)))

/-- Free positions of a bank. -/
def freeTotal (s : State) (b : Nat) : Nat := bankSize - ((bankRanges s b).map (·.2)).sum

/-- Move a copy of a table to another first position, entry by entry (R245, R255). -/
def moveCopy (tag from_ dest : Nat) (s : State) : State :=
  match tblFind s.canopy.tables tag with
  | none => s
  | some t =>
    let es := (List.range t.capacity).map (fun k => entryAt s (from_ + k))
    let s1 := clearRange from_ t.capacity 0xFFFF s
    let s2 := ((List.range t.capacity).zip es).foldl (fun s e => writeEntry (dest + e.1) e.2 s) s1
    let s3 := countC (bankOf dest) 3 ((es.filter (·.valid)).length) s2
    onTable tag (fun t =>
      { t with home := if t.home = from_ then dest else t.home,
               mirror := if t.mirror = some from_ then some dest else t.mirror }) s3

/-- Close the gaps of a bank, so that its free positions form one run (R245). -/
def compactBank (b : Nat) (s : State) : State :=
  let copies := s.canopy.tables.flatMap (fun e =>
    ((copiesOf e.2).filter (fun p => decide (bankOf p = b))).map (fun p => (p, e.1, e.2.capacity)))
  ((sortByKey (fun c => c.1) copies).foldl (fun (acc : Nat × State) c =>
    (acc.1 + c.2.2, if acc.1 = c.1 then acc.2 else moveCopy c.2.1 c.1 acc.1 acc.2)) (b * bankSize, s)).2

/-- A place for a copy in one of some banks: a run as it stands, or after other tables have moved. -/
def placeIn (capacity : Nat) (banks : List Nat) (s : State) : Option (Nat × State) :=
  match banks.find? (fun b => (freeRun s b capacity).isSome) with
  | some b => (freeRun s b capacity).map (fun p => (b * bankSize + p, s))
  | none =>
    match banks.find? (fun b => decide (capacity ≤ freeTotal s b)) with
    | none => none
    | some b =>
      let s1 := compactBank b s
      (freeRun s1 b capacity).map (fun p => (b * bankSize + p, s1))

/-- Banks that serve. -/
def servingBanks (s : State) : List Nat := (List.range 16).filter (bankServes s)

/-- Places for the copies of a table (R244, R245). -/
def placeTable (capacity : Nat) (mirrored : Bool) (s : State) : Option (Nat × Option Nat × State) :=
  match placeIn capacity (servingBanks s) s with
  | none => none
  | some (home, s1) =>
    if !mirrored then some (home, none, s1)
    else
      -- the home range is held while the mirror is placed
      let others := (servingBanks s1).filter (fun b => decide (quadOf b ≠ quadOf (bankOf home)))
      match placeIn capacity others s1 with
      | some (m, s2) => some (home, some m, s2)
      | none => none

/-- Entries and pattern states charged to a berth (R244). -/
def entriesCharged (s : State) (b : Fin 512) : Nat :=
  (s.canopy.tables.map (fun e =>
    if e.2.berth = b then e.2.capacity * (copiesOf e.2).length else 0)).sum
def statesCharged (s : State) (b : Fin 512) : Nat :=
  (s.canopy.tables.map (fun e => if e.2.berth = b then e.2.states else 0)).sum

/-- A table's berth quota is short: CANOPY(QUOTA) with what was requested (R244, R285). -/
def quotaFault (s : State) (b : Fin 512) (entries states : Nat) : Option (Nat × Nat) :=
  if (getB s b.val).canopyEntries.toNat < entriesCharged s b + entries then some (0x0504, entries)
  else if (getB s b.val).patternStates.toNat < statesCharged s b + states then some (0x0504, states)
  else none

/-! ## Load records (R251, R260 to R264) -/

/-- Key bits of a layout. -/
def layoutBits (fields : List (Nat × Nat)) : Nat := 8 * (fields.map (·.2)).sum

/-- Bits of a key that a layout uses. -/
def layoutMask (fields : List (Nat × Nat)) : Nat :=
  (2 ^ layoutBits fields - 1) * 2 ^ (160 - layoutBits fields)

/-- Shift and width of a field. -/
def fieldSpan (fields : List (Nat × Nat)) (k : Nat) : Nat × Nat :=
  let before := ((fields.take k).map (·.2)).sum
  let len := ((fields[k]?).map (·.2)).getD 0
  (160 - 8 * (before + len), 8 * len)

/-- The smallest set of aligned blocks that covers `lo` to `hi` of `w` bits, ascending: low end and its number of free
bits (R263). -/
def coverRange (w : Nat) : Nat → Nat → Nat → List (Nat × Nat)
  | 0, _, _ => []
  | fuel + 1, lo, hi =>
    if hi < lo then []
    else
      let k := ((List.range (w + 1)).reverse.find? (fun k =>
        decide (lo % 2 ^ k = 0) && decide (lo + 2 ^ k - 1 ≤ hi))).getD 0
      (lo, k) :: coverRange w fuel (lo + 2 ^ k) hi

/-- A load record as parsed. -/
structure LoadRecord where
  form : Nat
  op : Nat
  fieldNo : Nat
  result : Nat
  value : Nat
  high : Nat
  deriving DecidableEq, Repr

def parseRecord (b : Bytes) : LoadRecord :=
  { form := field b 0 1, op := field b 1 1, fieldNo := field b 2 1, result := field b 8 8, value := beNat (slice b 0x10 20),
    high := beNat (slice b 0x24 20) }

/-- A record obeys R260 to R262 for a layout; `load` allows INSERT only. -/
def recordOk (load : Bool) (fields : List (Nat × Nat)) (b : Bytes) : Bool :=
  let r := parseRecord b
  let lm := layoutMask fields
  let inLayout (v : Nat) : Bool := decide (v &&& lm = v)
  allZero (slice b 3 5) && allZero (slice b 0x38 8) &&
  (if load then decide (r.op = 1) else decide (1 ≤ r.op) && decide (r.op ≤ 3)) &&
  inLayout r.value && inLayout r.high &&
  (if r.form = 1 then decide (r.fieldNo = 0) && decide (r.value &&& r.high = r.value)
   else if r.form = 2 then
     let (sh, w) := fieldSpan fields r.fieldNo
     let t := ((fields[r.fieldNo]?).map (·.1)).getD 0
     decide (r.fieldNo < fields.length) && decide (t ≠ 0x28) && decide (typeClass t ≠ .bytes) &&
     decide (bitsOf r.value sh w ≤ bitsOf r.high sh w) &&
     decide (r.value - bitsOf r.value sh w * 2 ^ sh = r.high - bitsOf r.high sh w * 2 ^ sh)
   else false)

/-- The entries that a record describes, as VALUE and MASK (R261, R263). -/
def recordEntries (fields : List (Nat × Nat)) (r : LoadRecord) : List (Nat × Nat) :=
  if r.form = 1 then [(r.value, r.high)]
  else
    let (sh, w) := fieldSpan fields r.fieldNo
    let rest := r.value - bitsOf r.value sh w * 2 ^ sh
    let restMask := layoutMask fields - (2 ^ w - 1) * 2 ^ sh
    (coverRange w (2 * w + 1) (bitsOf r.value sh w) (bitsOf r.high sh w)).map (fun c =>
      (rest + c.1 * 2 ^ sh, restMask + (2 ^ w - 2 ^ c.2) * 2 ^ sh))

/-! ## Slots of an update (R240, R255, R257) -/

/-- Places of a table copy that hold valid entries, with their entries, in order. -/
abbrev Places := Tbl CEntry

/-- One slot applied to a copy. -/
def applyOp (t : Places) : MicroOp → Places
  | .copy a b => match tblFind t a with
    | some e => tblSet t b e
    | none => t
  | .write p e => tblSet t p e
  | .delete p => tblErase t p
  | .setResult p r => match tblFind t p with
    | some e => tblSet t p { e with result := r }
    | none => t

/-- The slots of an insert; none when the range is full. -/
def insertOps (capacity : Nat) (t : Places) (e : CEntry) : Option (List MicroOp) :=
  let m := maskLength e.mask
  let p := ((t.filter (fun x => decide (m ≤ maskLength x.2.mask))).map (fun x => x.1 + 1)).foldl max 0
  let taken (k : Nat) : Bool := (tblFind t k).isSome
  match ((List.range capacity).drop p).find? (fun k => !(taken k)) with
  | some q => some (((List.range q).drop p).reverse.map (fun k => .copy k (k + 1)) ++ [.write p e])
  | none =>
    match (List.range p).reverse.find? (fun k => !(taken k)) with
    | some h => some (((List.range p).drop (h + 1)).map (fun k => .copy k (k - 1)) ++ [.write (p - 1) e])
    | none => none

/-- Insert entries one after another: their slots and the places after them. -/
def insertAll (capacity : Nat) (t : Places) : List CEntry → Option (List MicroOp × Places)
  | [] => some ([], t)
  | e :: rest =>
    match insertOps capacity t e with
    | none => none
    | some ops =>
      (insertAll capacity (ops.foldl applyOp t) rest).map (fun r => (ops ++ r.1, r.2))

/-- The earliest inserted place of an entry with a VALUE and MASK that is not among places already found. -/
def findPlace (t : Places) (used : List Nat) (v m : Nat) : Option Nat :=
  (t.find? (fun x => decide (x.2.value = v) && decide (x.2.mask = m) && !(used.contains x.1))).map (·.1)

/-- Places of every entry of a record; none when one is missing (R264). -/
def findPlaces (t : Places) : List Nat → List (Nat × Nat) → Option (List Nat)
  | used, [] => some used.reverse
  | used, (v, m) :: rest =>
    match findPlace t used v m with
    | none => none
    | some p => findPlaces t (p :: used) rest

/-- The slots of a record, or its fault code (R260 to R264, R271). -/
def recordOps (load : Bool) (capacity tag : Nat) (fields : List (Nat × Nat)) (t : Places) (b : Bytes) :
    Except Nat (List MicroOp) :=
  if !(recordOk load fields b) then .error 0x0502
  else
    let r := parseRecord b
    let es := recordEntries fields r
    match r.op with
    | 1 =>
      if capacity < t.length + es.length then .error 0x0503
      else match insertAll capacity t (es.map (fun e => ⟨e.1, e.2, r.result, tag, true⟩)) with
      | some x => .ok x.1
      | none => .error 0x0503
    | 2 => match findPlaces t [] es with
      | some ps => .ok (ps.map .delete)
      | none => .error 0x050A
    | _ => match findPlaces t [] es with
      | some ps => .ok (ps.map (fun p => .setResult p r.result))
      | none => .error 0x050A

/-- Load records in order: places, slots and the number placed, with the fault that stopped them (R271). -/
def loadRecords (capacity tag : Nat) (fields : List (Nat × Nat)) :
    Nat → Nat → Places → List Bytes → Places × Nat × Nat × Option Nat
  | k, slots, t, [] => (t, slots, k, none)
  | k, slots, t, b :: rest =>
    match recordOps true capacity tag fields t b with
    | .error c => (t, slots, k, some c)
    | .ok ops => loadRecords capacity tag fields (k + 1) (slots + ops.length) (ops.foldl applyOp t) rest

/-- The places of a copy as the bank holds them. -/
def placesOf (s : State) (base capacity : Nat) : Places :=
  (List.range capacity).filterMap (fun k =>
    let e := entryAt s (base + k)
    if e.valid then some (k, e) else none)

/-- Put a whole table in its ranges (R246): every position of a range carries its tag. -/
def placeEntries (t : CTable) (tag slots : Nat) (ps : Places) (s : State) : State :=
  (copiesOf t).foldl (fun s base =>
    let s1 := clearRange base t.capacity tag s
    countC (bankOf base) 3 slots (ps.foldl (fun s e => writeEntry (base + e.1) e.2 s) s1)) s

/-- Clear the entries of a table's copies. -/
def clearCopies (t : CTable) (s : State) : State :=
  (copiesOf t).foldl (fun s base => clearRange base t.capacity 0xFFFF s) s

/-- A table becomes FREE: entries and quota returned (R246). -/
def freeTable (tag : Nat) (s : State) : State :=
  match tblFind s.canopy.tables tag with
  | none => s
  | some t => onCanopy (fun c => { c with tables := tblErase c.tables tag }) (clearCopies t s)

/-! ## Copies, and what waits at them (R249) -/

/-- The copy of a table in a bank. -/
def mirrorIn (t : CTable) (b : Nat) : Bool := decide (bankOf t.home ≠ b)

/-- The copy that a new search or text goes to: the one with less waiting, the home when equal (R249); a bank that does
not serve is passed over. -/
def chooseCopy (s : State) (t : CTable) (load : Nat → Nat) : Nat :=
  let h := bankOf t.home
  match t.mirror.map bankOf with
  | none => h
  | some m =>
    if !(bankServes s m) then h
    else if !(bankServes s h) then m
    else if load m < load h then m else h

/-- Issue a LOOKUP search (R249). -/
def issueSearch (q : Search) (t : CTable) (s : State) : State :=
  let b := chooseCopy s t (fun b => (getBank s b).waiting.length)
  onBank b (fun k => { k with waiting := k.waiting ++ [q] }) s

/-- Send a text to a pattern engine (R249). -/
def issueText (x : Text) (t : CTable) (s : State) : State :=
  let b := chooseCopy s t (fun b => (getBank s b).texts.length)
  onBank b (fun k => { k with texts := k.texts ++ [x] }) s

/-- What waits at some banks for some tables goes to the copies that these have now (R249, R275, R276). -/
def sendAgain (from_ mine : Nat → Bool) (s : State) : State :=
  let here (e : Nat × Bank) (tag : Nat) : Bool := from_ e.1 && mine tag
  let waits := s.canopy.banks.flatMap (fun e => e.2.waiting.filter (fun q => here e q.tag))
  let texts := s.canopy.banks.flatMap (fun e => e.2.texts.filter (fun x => here e x.tag))
  let s1 := onCanopy (fun c => { c with banks := c.banks.map (fun e => (e.1, { e.2 with
    waiting := e.2.waiting.filter (fun q => !(here e q.tag)), texts := e.2.texts.filter (fun x => !(here e x.tag)) })) }) s
  let s2 := waits.foldl (fun s q => match tblFind s.canopy.tables q.tag with
    | some t => issueSearch q t s
    | none => s) s1
  texts.foldl (fun s x => match tblFind s.canopy.tables x.tag with
    | some t => issueText x t s
    | none => s) s2

/-! ## CANOPY_LOAD and PATTERN_LOAD (R246, R266 to R268, R277 to R281) -/

/-- CANOPY(BODY). -/
def canopyBody : Nat := 0x0501

/-- TYPE and LENGTH pairs of the entry. -/
def entryFields (x : Job) : List (Nat × Nat) :=
  (List.range (bodyField x 0x2C 1)).map (fun k => (bodyField x (0x30 + 2 * k) 1, bodyField x (0x31 + 2 * k) 1))

/-- LENGTH of a field type (R251). -/
def fieldLengthOk (t len : Nat) : Bool :=
  match typeClass t with
  | .bool => decide (len = 1)
  | .bytes => decide (1 ≤ len) && decide (len ≤ 20)
  | _ => decide (len = typeSize t)

/-- Body checks of CANOPY_LOAD (R266). -/
def canopyLoadFault (x : Job) : Option (Nat × Nat) :=
  let drop := decide (bodyField x 0x25 1 = 3)
  let n := bodyField x 0x2C 1
  let fs := entryFields x
  firstFault
    ([(decide (lenGranules x = 1), canopyBody, 1),
      (if drop then decide (bodyField x 0x18 8 = 0) else decide (bodyField x 0x18 8 % 64 = 0), canopyBody, 0x18),
      (if drop then decide (bodyField x 0x20 4 = 0) else decide (bodyField x 0x20 4 ≤ 32768), canopyBody, 0x20),
      (decide (1 ≤ bodyField x 0x25 1) && decide (bodyField x 0x25 1 ≤ 3), canopyBody, 0x25),
      (decide (bodyField x 0x26 2 ≤ 1), canopyBody, 0x26),
      (if drop then decide (bodyField x 0x28 4 = 0)
       else decide (1 ≤ bodyField x 0x28 4) && decide (bodyField x 0x28 4 ≤ 32768), canopyBody, 0x28),
      (if drop then decide (n = 0) else decide (1 ≤ n) && decide (n ≤ 4), canopyBody, 0x2C),
      zeroRange x canopyBody 0x2D 3] ++
     ((List.range n).zip fs).flatMap (fun e =>
       [((typeInfo e.2.1).isSome, canopyBody, 0x30 + 2 * e.1), (fieldLengthOk e.2.1 e.2.2, canopyBody, 0x31 + 2 * e.1)]) ++
     [(allZero (slice x.entry (0x30 + 2 * n) (8 - 2 * n)), canopyBody, 0x30 + 2 * n),
      (decide ((fs.map (·.2)).sum ≤ 20), canopyBody, 0x30), zeroRange x canopyBody 0x38 8])

/-- A job that changes a table has to wait: one accepted before it has not begun, or updates are under way (R259). -/
def changeWaits (s : State) (b : Fin 512) (j id : Nat) : Bool :=
  let names (x : Job) : Bool := decide (bodyField x 0x24 1 = id) && !x.begun
  !(earlier s b j 0x38 names).isEmpty || !(earlier s b j 0x39 names).isEmpty ||
  !(earlier s b j 0x3A names).isEmpty ||
  (match tableOf s b id with
   | some (_, t) => !t.updates.isEmpty
   | none => false)

/-- A new table, or the new copy of a replaced one, as a load describes it. -/
structure NewTable where
  table : CTable
  tag : Nat
  places : Places
  slots : Nat
  deriving DecidableEq, Repr

/-- A table with the places that are kept for its copies (R245). -/
def reserveTable (t : CTable) (s : State) : Option (CTable × State) :=
  (placeTable t.capacity t.mirrorAsked s).map (fun p => ({ t with home := p.1, mirror := p.2.1 }, p.2.2))

/-- Fill a new table in its places (R246). -/
def fillTable (n : NewTable) (s : State) : State :=
  placeEntries n.table n.tag n.slots n.places (onCanopy (fun c =>
    { c with tables := tblSet c.tables n.tag n.table, nextTag := max c.nextTag (n.tag + 1) }) s)

/-- Place and fill a new table. -/
def installTable (n : NewTable) (s : State) : Option State :=
  (reserveTable n.table s).map (fun p => fillTable { n with table := p.1 } p.2)

/-- Internal tags in use: those of tables, of the runs bound to them, and of searches and texts on their way (R243). -/
def usedTags (s : State) : List Nat :=
  s.canopy.tables.map (·.1) ++ s.runs.flatMap (fun e => e.2.tags) ++
  s.canopy.banks.flatMap (fun e => e.2.waiting.map (·.tag) ++ e.2.texts.map (·.tag))

/-- The lowest internal tag not in use; tag 0 is never given. -/
def freeTag (s : State) : Nat :=
  let used := usedTags s
  (((List.range (used.length + 1)).map (· + 1)).find? (fun t => !(used.contains t))).getD 1

/-- Keep places for a new table, then go on; CANOPY(FULL) at creation where no bank has room (R245, R246). -/
def withRoom (j : Nat) (t : CTable) (s : State) (go : CTable → State → State) : State :=
  match reserveTable t s with
  | none => endFailed j 0x0503 0 s
  | some (t1, s1) => go t1 s1

/-- CREATE of a table whose contents stand (R267). -/
def createTable (j : Nat) (n : NewTable) (s : State) : State := endDone j (fillTable n s)

/-- REPLACE of a table by a new copy: one slot switches the searches, those that wait and the texts with them, and the
old entries are freed (R268, R249). -/
def replaceTable (j tag : Nat) (old : CTable) (n : NewTable) (s : State) : State :=
  match tblFind s.canopy.tables tag with
  | none => s
  | some moved =>
    let t := { n.table with users := old.users }
    let s1 := placeEntries t tag (n.slots + 1) (n.places.map (fun e => (e.1, { e.2 with tag := tag }))) s
    let s2 := clearCopies moved s1
    endDone j (sendAgain (fun b => decide (b ∈ (copiesOf moved).map bankOf)) (fun x => decide (x = tag))
      (onCanopy (fun c => { c with tables := tblSet c.tables tag t }) s2))

/-- Checks of CREATE before its records are read (R267, R244). -/
def createFault (s : State) (b : Fin 512) (id entries states : Nat) : Option (Nat × Nat) :=
  if (tableOf s b id).isSome then some (0x0506, id)
  else if 256 ≤ s.canopy.tables.length then some (0x0505, id)
  else quotaFault s b entries states

/-- The lookup table that an entry describes. -/
def lookupTable (b : Fin 512) (x : Job) : CTable :=
  { berth := b, id := bodyField x 0x24 1, pattern := false, capacity := bodyField x 0x28 4, fields := entryFields x,
    mirrorAsked := bitOf (bodyField x 0x26 2) 0 }

/-- Entries that a table asks for, over its copies. -/
def entriesAsked (t : CTable) : Nat := t.capacity * (if t.mirrorAsked then 2 else 1)

/-- Read the records of a load and go on with the table they make; a record that fails ends the job (R246, R269,
R271). -/
def withRecords (j : Nat) (b : Fin 512) (x : Job) (t : CTable) (tag : Nat) (s : State) (go : NewTable → State → State) :
    State :=
  let n := bodyField x 0x20 4
  match hostRead (some b) (bodyField x 0x18 8) (64 * n) (beginJob j s) with
  | (.error a, s1) => hostReadFailed j a s1
  | (.ok bytes, s1) =>
    let (ps, slots, k, bad) := loadRecords t.capacity tag t.fields 0 0 [] (chunks 64 n bytes)
    let s2 := advanceJob j k 0 s1
    match bad with
    | some c => endFailed j c k s2
    | none => go ⟨t, tag, ps, slots⟩ s2

/-- Run a table job of a berth: its body first, then, in order of acceptance, its work. -/
def withTableJob (j : Nat) (x : Job) (fault : Option (Nat × Nat)) (s : State) (go : Fin 512 → State) : State :=
  match x.berth with
  | none => s
  | some b =>
    match fault with
    | some e => endFailed j e.1 e.2 s
    | none => if changeWaits s b j (bodyField x 0x24 1) then s else go b

/-- CANOPY_LOAD_CREATE (R267). -/
def execCanopyLoadCreate (job : Nat) (h : HostView) (s : State) : Host.Outcome State Fault Refusal :=
  .next (withHostJob 0x38 job h s (fun x s =>
    let op := bodyField x 0x25 1
    if op = 2 ∨ op = 3 then s
    else withTableJob job x (canopyLoadFault x) s (fun b =>
      let t := lookupTable b x
      match createFault s b t.id (entriesAsked t) 0 with
      | some e => endFailed job e.1 e.2 s
      | none => withRoom job t s (fun t s => withRecords job b x t (freeTag s) s (createTable job)))))

/-- CANOPY_LOAD_REPLACE (R268). -/
def execCanopyLoadReplace (job : Nat) (h : HostView) (s : State) : Host.Outcome State Fault Refusal :=
  .next (withHostJob 0x38 job h s (fun x s =>
    if bodyField x 0x25 1 ≠ 2 then s
    else withTableJob job x (canopyLoadFault x) s (fun b =>
      let t := lookupTable b x
      match tableOf s b t.id with
      | none => endFailed job 0x0505 t.id s
      | some (tag, old) =>
        if old.pattern then endFailed job 0x0507 t.id s
        else if old.state ≠ .ready then endFailed job 0x0505 t.id s
        else if old.fields.length ≠ t.fields.length then endFailed job canopyBody 0x2C s
        else if old.fields ≠ t.fields then endFailed job canopyBody 0x30 s
        else match quotaFault s b (entriesAsked t) 0 with
        | some e => endFailed job e.1 e.2 s
        | none => withRoom job t s (fun t s => withRecords job b x t (freeTag s) s (replaceTable job tag old)))))

/-- RUN jobs accepted before job `j` that hold a table: those bound to it, and those not yet started whose image binds
it, or whose image is still being loaded (R247). -/
def tableHolders (s : State) (b : Fin 512) (j id : Nat) (t : CTable) : List Nat :=
  let waiting := earlier s b j 0x12 (fun x =>
    let y := getSlot s b.val (bodyField x 0x2C 1)
    y.state == .loading || match checkImage (devBytes s y.addr y.length) y.length s.fw.runtimeVersion.toNat with
    | .ok im => im.autos.any (fun a => decide (a.tableId = id))
    | .error _ => false)
  (t.users ++ (waiting.map (·.1)).filter (fun k => (getR s k).isNone)).filter (fun k => decide (k < j))

/-- CANOPY_LOAD_DROP (R246). -/
def execCanopyLoadDrop (job : Nat) (s : State) : Host.Outcome State Fault Refusal :=
  .next (withJob 0x38 job s (fun x =>
    if bodyField x 0x25 1 ≠ 3 then s
    else withTableJob job x (canopyLoadFault x) s (fun b =>
      let id := bodyField x 0x24 1
      match tableOf s b id with
      | none => endFailed job 0x0505 id s
      | some (tag, t) =>
        match t.state with
        | .ready =>
          onTable tag (fun t => { t with state := .dropping, dropJob := some job }) (beginJob job s)
        | .unavailable => endDone job (freeTable tag (beginJob job s))
        | _ => if t.dropJob = some job then s else endFailed job 0x0505 id s)))

/-- TABLE_DROP_COMPLETE (R246). -/
def execTableDropComplete (b : Fin 512) (id : Fin 256) (s : State) : Host.Outcome State Fault Refusal :=
  .next (match tableOf s b id.val with
    | none => s
    | some (tag, t) =>
      if t.state ≠ .dropping then s
      else match t.dropJob with
      | some j => if (tableHolders s b j id.val t).isEmpty then endDone j (freeTable tag s) else s
      | none => if t.users.isEmpty then freeTable tag s else s)

/-- CANOPY_UPDATE (R270): its records await their slots. -/
def execCanopyUpdate (job : Nat) (h : HostView) (s : State) : Host.Outcome State Fault Refusal :=
  .next (withHostJob 0x39 job h s (fun x s =>
    let n := bodyField x 0x20 4
    let fault := firstFault
      [(decide (lenGranules x = 1), canopyBody, 1), (decide (bodyField x 0x18 8 % 64 = 0), canopyBody, 0x18),
       (decide (1 ≤ n) && decide (n ≤ 65536), canopyBody, 0x20), zeroRange x canopyBody 0x25 27]
    if x.begun then s
    else withTableJob job x fault s (fun b =>
      let id := bodyField x 0x24 1
      match tableOf s b id with
      | none => endFailed job 0x0505 id s
      | some (tag, t) =>
        if t.pattern then endFailed job 0x0507 id s
        else if t.state ≠ .ready then endFailed job 0x0505 id s
        else match hostRead (some b) (bodyField x 0x18 8) (64 * n) (beginJob job s) with
        | (.error a, s1) => hostReadFailed job a s1
        | (.ok bytes, s1) => onTable tag (fun t => { t with updates := t.updates ++ [(job, 0, chunks 64 n bytes)] }) s1)))

/-! ### Pattern images (R277 to R279) -/

/-- PATTERN(IMAGE). -/
def patternImage : Nat := 0x0508

/-- Rules of a pattern image in offset order (R277, R278). -/
def patternTests (b : Bytes) (length : Nat) : List (Bool × Nat) :=
  let states := field b 0x0C 2
  let n := field b 0x10 4
  let src := roundUp (0x40 + 8 * n) 8
  let srcEnd := src + field b 0x14 2
  [(decide (field b 0 1 = 0x11), 0), (decide (field b 1 1 = 1), 1), (decide (field b 2 2 ≤ 1), 2),
   (decide (field b 4 4 = length) && decide (length % 64 = 0) && decide (128 ≤ length) && decide (length ≤ 1048576), 4),
   (decide ((crc32c (overlay (b.take length) 8 [0, 0, 0, 0])).toNat = field b 8 4), 8),
   (decide (1 ≤ states) && decide (states ≤ 16384), 0x0C), (decide (field b 0x0E 2 < states), 0x0E),
   (decide (1 ≤ n) && decide (n ≤ 32768) && decide (src ≤ length), 0x10),
   (decide (field b 0x14 2 ≤ 1024) && decide (srcEnd ≤ length), 0x14),
   (decide (1 ≤ field b 0x16 1) && decide (field b 0x16 1 ≤ 2), 0x16), (decide (field b 0x17 1 ≤ 1), 0x17),
   reservedAt b 0x20 32] ++
  (List.range (min n 32768)).flatMap (fun k =>
    let o := 0x40 + 8 * k
    [(decide (field b o 2 < states), o), (decide (field b (o + 2) 2 < states), o + 2),
     (decide (field b (o + 4) 1 &&& field b (o + 5) 1 = field b (o + 4) 1), o + 4), (decide (field b (o + 6) 1 ≤ 3), o + 6),
     reservedAt b (o + 7) 1]) ++
  [(allZero (b.drop srcEnd), srcEnd)]

/-- The Canopy entries of a pattern image, in image order (R279). -/
def patternEntries (b : Bytes) (tag : Nat) : List CEntry :=
  (List.range (field b 0x10 4)).map (fun k =>
    let o := 0x40 + 8 * k
    let flags := field b (o + 6) 1
    { value := (field b o 2 * 256 + field b (o + 4) 1) * 2 ^ 136,
      mask := (0xFFFF * 256 + field b (o + 5) 1) * 2 ^ 136,
      result := field b (o + 2) 2 + flags * 2 ^ 16, tag := tag, valid := true })

/-- Body checks of PATTERN_LOAD (R280). -/
def patternLoadFault (x : Job) : Option (Nat × Nat) :=
  firstFault
    [(decide (lenGranules x = 1), canopyBody, 1), (decide (bodyField x 0x18 8 % 64 = 0), canopyBody, 0x18),
     (decide (1 ≤ bodyField x 0x25 1) && decide (bodyField x 0x25 1 ≤ 2), canopyBody, 0x25),
     (decide (bodyField x 0x26 2 ≤ 1), canopyBody, 0x26), zeroRange x canopyBody 0x28 24]

/-- The pattern table of an image. -/
def patternTable (b : Fin 512) (x : Job) (bytes : Bytes) : CTable :=
  { berth := b, id := bodyField x 0x24 1, pattern := true, capacity := field bytes 0x10 4,
    mirrorAsked := bitOf (bodyField x 0x26 2) 0, startState := field bytes 0x0E 2,
    startAccepts := bitOf (field bytes 2 2) 0, states := field bytes 0x0C 2, measurement := sha384 bytes,
    patternId := field bytes 0x18 8 }

/-- Read and check the image of a PATTERN_LOAD, and go on with the table it makes. -/
def withPattern (j : Nat) (b : Fin 512) (x : Job) (s : State) (go : NewTable → State → State) : State :=
  let len := bodyField x 0x20 4
  match hostRead (some b) (bodyField x 0x18 8) len (beginJob j s) with
  | (.error a, s1) => hostReadFailed j a s1
  | (.ok bytes, s1) =>
    match (patternTests bytes len).find? (fun t => !t.1) with
    | some t => endFailed j patternImage t.2 s1
    | none =>
      let t := patternTable b x bytes
      let tag := freeTag s1
      match insertAll t.capacity [] (patternEntries bytes tag) with
      | none => endFailed j 0x0503 0 s1
      | some (ops, ps) => go ⟨t, tag, ps, ops.length⟩ s1

/-- The measurement of a pattern table that has been loaded is appended to the berth's log (R281). -/
def measurePattern (j : Nat) (t : CTable) (s : State) : State :=
  match getJ s j with
  | some x => if x.result = some ⟨4, 0, 0⟩ then measure t.berth.val 2 t.id t.patternId t.measurement s else s
  | none => s

/-- PATTERN_LOAD_CREATE (R280). -/
def execPatternLoadCreate (job : Nat) (h : HostView) (s : State) : Host.Outcome State Fault Refusal :=
  .next (withHostJob 0x3A job h s (fun x s =>
    if bodyField x 0x25 1 = 2 then s
    else withTableJob job x (patternLoadFault x) s (fun b =>
      match createFault s b (bodyField x 0x24 1) 0 0 with
      | some e => endFailed job e.1 e.2 s
      | none => withPattern job b x s (fun n s =>
        match quotaFault s b (entriesAsked n.table) n.table.states with
        | some e => endFailed job e.1 e.2 s
        | none => withRoom job n.table s (fun t s => measurePattern job t (createTable job { n with table := t } s))))))

/-- PATTERN_LOAD_REPLACE (R268, R280). -/
def execPatternLoadReplace (job : Nat) (h : HostView) (s : State) : Host.Outcome State Fault Refusal :=
  .next (withHostJob 0x3A job h s (fun x s =>
    if bodyField x 0x25 1 ≠ 2 then s
    else withTableJob job x (patternLoadFault x) s (fun b =>
      let id := bodyField x 0x24 1
      match tableOf s b id with
      | none => endFailed job 0x0505 id s
      | some (tag, old) =>
        if !old.pattern then endFailed job 0x0507 id s
        else if old.state ≠ .ready then endFailed job 0x0505 id s
        else withPattern job b x s (fun n s =>
          match quotaFault s b (entriesAsked n.table) n.table.states with
          | some e => endFailed job e.1 e.2 s
          | none => withRoom job n.table s (fun t s =>
            measurePattern job t (replaceTable job tag old { n with table := t } s))))))

/-! ## UPDATE_SLOT_WRITE (R248, R255 to R259) -/

/-- The first position of the copy that a slot concerns. -/
def copyBase (t : CTable) (mirror : Bool) : Nat := if mirror then t.mirror.getD t.home else t.home

/-- One slot's work on a copy of a table, shadow first; a copy excludes its new place from searches, and the write of
the new entry ends that (R256). -/
def doSlot (tag : Nat) (t : CTable) (mirror : Bool) (op : MicroOp) (s : State) : State :=
  let base := copyBase t mirror
  let hole : CEntry := { tag := tag }
  let put (p : Nat) (e : CEntry) (s : State) : State := writeEntry (base + p) e s
  let s1 := match op with
    | .copy a b => put b (entryAt s (base + a)) s
    | .write p e => put p e s
    | .delete p => put p hole s
    | .setResult p r => put p { entryAt s (base + p) with result := r } s
  let ex := match op with
    | .copy _ b => some (mirror, b)
    | .write _ _ => none
    | _ => t.excluded
  countC (bankOf base) 3 1 (onTable tag (fun t => { t with excluded := ex, ops := t.ops.drop 1 }) s1)

/-- The record in hand has had all its slots: it counts (R269), and the job ends with its last record. -/
def recordDone (tag : Nat) (s : State) : State :=
  match tblFind s.canopy.tables tag with
  | none => s
  | some t =>
    match t.ops, t.updates with
    | [], (j, k, _ :: rest) :: more =>
      let s1 := advanceJob j 1 0 s
      if rest.isEmpty then endDone j (onTable tag (fun t => { t with updates := more }) s1)
      else onTable tag (fun t => { t with updates := (j, k + 1, rest) :: more }) s1
    | _, _ => s

/-- The slots of the next record of a table are worked out; a record that fails ends its job (R271), and a job that is
over gives way. -/
def nextRecord (tag : Nat) (t : CTable) (s : State) : State :=
  match t.ops, t.updates with
  | [], (j, k, r :: _) :: more =>
    if (((getJ s j).map (fun x => x.result.isSome)).getD true) then onTable tag (fun t => { t with updates := more }) s
    else match recordOps false t.capacity tag t.fields (placesOf s t.home t.capacity) r with
    | .error c => endFailed j c k (onTable tag (fun t => { t with updates := more }) s)
    | .ok ops =>
      onTable tag (fun t => { t with ops := ops.map (fun o => (false, o)) ++
        (if t.mirror.isSome then ops.map (fun o => (true, o)) else []) }) s
  | [], (_, _, []) :: more => onTable tag (fun t => { t with updates := more }) s
  | _, _ => s

/-- The table with update work for a bank: its next slot, or its next record, concerns it. -/
def updateFor (s : State) (b : Nat) : Option (Nat × CTable) :=
  s.canopy.tables.find? (fun e => match e.2.ops with
    | (m, _) :: _ => decide (bankOf (copyBase e.2 m) = b)
    | [] => !e.2.updates.isEmpty && decide (bankOf e.2.home = b))

/-- UPDATE_SLOT_WRITE (R257): one slot of the update work of a bank. -/
def execUpdateSlotWrite (b : Fin 16) (searchWaits : Bool) (s : State) : Host.Outcome State Fault Refusal :=
  .next (
    if !(bankServes s b.val) then s
    else match updateFor s b.val with
    | none => s
    | some (tag, t0) =>
      let s1 := nextRecord tag t0 s
      match tblFind s1.canopy.tables tag with
      | none => s1
      | some t =>
        match t.ops with
        | [] => s1
        | (m, op) :: _ =>
          recordDone tag (countC b.val 9 (b2n searchWaits) (doSlot tag t m op s1)))

/-! ## Searches (R238, R239, R241, R248 to R254) -/

/-- A key matches an entry (R238). -/
def keyMatches (key : Nat) (e : CEntry) : Bool := e.valid && decide ((key ^^^ e.value) &&& e.mask = 0)

/-- Outcome of a search of one copy: winner's position, MULTI_MATCH, RESULT (R239, R241). -/
def searchCopy (s : State) (t : CTable) (mirror : Bool) (key : Nat) : Option (Nat × Bool × Nat) :=
  let base := copyBase t mirror
  let hits := (List.range t.capacity).filter (fun k =>
    keyMatches key (entryAt s (base + k)) && !(decide (t.excluded = some (mirror, k))))
  match hits with
  | [] => none
  | k :: rest =>
    let e := entryAt s (base + k)
    some (base + k, rest.any (fun r => decide (maskLength (entryAt s (base + r)).mask = maskLength e.mask)), e.result)

/-- Issue a search of an instance; a table that is UNAVAILABLE, or that has been dropped since, fails the job (R246). -/
def sendSearch (q : Search) (s : State) : State :=
  match tblFind s.canopy.tables q.tag with
  | none => endFailed q.job 0x0509 q.stage s
  | some t => if t.state = .unavailable then endFailed q.job 0x0509 q.stage s else issueSearch q t s

/-- Send a text of an instance; a table that is UNAVAILABLE, or that has been dropped since, fails the job (R246). -/
def sendText (x : Text) (s : State) : State :=
  match tblFind s.canopy.tables x.tag with
  | none => endFailed x.job 0x0509 x.stage s
  | some t => if t.state = .unavailable then endFailed x.job 0x0509 x.stage s else issueText x t s

/-- An instance sends up to `k` more of the searches and texts of its batch in hand, while its job goes on (R286). -/
def sendMore (j st i k : Nat) (s : State) : State :=
  match getJ s j, getR s j with
  | some x, some r =>
    let n := getI r st i
    if !(taking s x) then s else
    let s1 := onI j st i (fun n => { n with searches := n.searches.drop k, texts := n.texts.drop k }) s
    (n.texts.take k).foldl (fun s x => sendText x s) ((n.searches.take k).foldl (fun s q => sendSearch q s) s1)
  | _, _ => s

/-- An outcome reaches its row, and the next search or text takes its place (R250); the last of a batch pulses flag 9
of the task (09, R369). -/
def deliverOutcome (j st i row : Nat) (v : Value) (s : State) : State :=
  match getR s j with
  | none => s
  | some r =>
    let n := getI r st i
    match n.work with
    | .inHand a out =>
      let out1 := out.set row (some v)
      let s1 := sendMore j st i 1 (onI j st i (fun n => { n with work := .inHand a out1 }) s)
      if out1.all (·.isSome) then pulseInst n 9 s1 else s1
    | _ => s

/-- Searches and texts of an instance leave the banks: their batch is to be processed again (16, R662). -/
def purgeInst (j st i : Nat) (s : State) : State :=
  let mine (a b c : Nat) : Bool := decide (a = j) && decide (b = st) && decide (c = i)
  onCanopy (fun c => { c with banks := c.banks.map (fun e => (e.1, { e.2 with
    waiting := e.2.waiting.filter (fun q => !(mine q.job q.stage q.inst)),
    flying := e.2.flying.filter (fun f => !(mine f.search.job f.search.stage f.search.inst)),
    texts := e.2.texts.filter (fun x => !(mine x.job x.stage x.inst)) })) }) s

/-- The weight of a table's berth. -/
def tableWeight (s : State) (tag : Nat) : Nat :=
  match tblFind s.canopy.tables tag with
  | some t => weightOf s t.berth.val
  | none => 1

/-- The table that has the next slot of a bank, of those with searches waiting or a text in its engine, and the
balances after it (R248). -/
def slotUser (s : State) (k : Bank) : Option (Nat × Tbl Nat) :=
  drr ((k.waiting.map (·.tag) ++ (k.texts.take 64).map (·.tag)).eraseDups) k.lastTag k.balance (tableWeight s) (fun _ => 1000)

/-- A table has a slot of a bank. -/
def takeSlot (b tag : Nat) (bal : Tbl Nat) (s : State) : State :=
  countC b 8 1 (onBank b (fun k => { k with balance := bal, lastTag := tag }) s)

/-- SEARCH (R248): a slot for the next LOOKUP search of a bank, where the slot falls to a lookup table. `parityOk` is
false where the winner is in parity error (R273): the search is then repeated after the reload (R274). -/
def execSearch (b : Fin 16) (parityOk : Bool) (s : State) : Host.Outcome State Fault Refusal :=
  let k := getBank s b.val
  .next (
    if !(bankServes s b.val) ∨ k.bad.isSome then s
    else match slotUser s k with
    | none => s
    | some (tag, bal) =>
      match k.waiting.findIdx? (fun q => decide (q.tag = tag)) with
      | none => s
      | some at_ =>
        match k.waiting[at_]? with
        | none => s
        | some q =>
          match tblFind s.canopy.tables tag with
          | none => endFailed q.job 0x0509 q.stage (onBank b.val (fun k => { k with waiting := k.waiting.eraseIdx at_ }) s)
          | some t =>
            let out := searchCopy s t (mirrorIn t b.val) q.key
            let s0 := takeSlot b.val tag bal s
            match out, parityOk with
            | some (pos, _, _), false => onBank b.val (fun k => { k with bad := some pos }) s0
            | _, _ =>
              let f : Flying := match out with
                | some (_, multi, r) => ⟨q, true, multi, r⟩
                | none => ⟨q, false, false, 0⟩
              countC b.val 0 1 (onBank b.val (fun k =>
                { k with waiting := k.waiting.eraseIdx at_, flying := k.flying ++ [f] }) s0))

/-- SEARCH_COMPLETE (R250): the oldest search in flight delivers its outcome. -/
def execSearchComplete (b : Fin 16) (s : State) : Host.Outcome State Fault Refusal :=
  .next (match (getBank s b.val).flying with
    | [] => s
    | f :: rest =>
      let s1 := onBank b.val (fun k => { k with flying := rest }) s
      let s2 := countC b.val 5 (b2n f.multi) (countC b.val 1 (b2n f.hit) s1)
      deliverOutcome f.search.job f.search.stage f.search.inst f.search.row
        (if f.hit then .num f.result else .null) s2)

/-! ## Pattern engines (R282 to R284) -/

/-- The search key of a state and a text byte (R279). -/
def patternKey (st : Nat) (b : Byte) : Nat := 2 ^ 136 * (256 * st + b.toNat)

/-- The text at a place of an engine leaves it with an outcome. -/
def textDone (b at_ : Nat) (x : Text) (hit : Bool) (s : State) : State :=
  deliverOutcome x.job x.stage x.inst x.row (.num (b2n hit))
    (onBank b (fun k => { k with texts := k.texts.eraseIdx at_ }) s)

/-- A text goes on, behind the others of the 64 in the engine (R284). -/
def textStays (b at_ : Nat) (y : Text) (s : State) : State :=
  onBank b (fun k =>
    let more := k.texts.eraseIdx at_
    { k with texts := more.take 63 ++ [y] ++ more.drop 63 }) s

/-- One byte of a text has its slot (R282). -/
def stepText (b at_ tag : Nat) (bal : Tbl Nat) (parityOk : Bool) (x : Text) (s : State) : State :=
  match tblFind s.canopy.tables tag, x.rest with
  | some t, c :: rest =>
    let s0 := takeSlot b tag bal s
    match searchCopy s t (mirrorIn t b) (patternKey x.state c), parityOk with
    | some (pos, _, _), false => onBank b (fun k => { k with bad := some pos }) s0
    | none, _ => textDone b at_ x false (countC b 2 1 s0)
    | some (_, multi, r), true =>
      let s1 := countC b 5 (b2n multi) (countC b 2 1 s0)
      let accept := bitOf r 16
      if bitOf r 17 then textDone b at_ x true s1
      else if rest.isEmpty then textDone b at_ x accept s1
      else textStays b at_ { x with rest := rest, state := r % 65536, accept := accept } s1
  | none, _ => endFailed x.job 0x0509 x.stage (onBank b (fun k => { k with texts := k.texts.eraseIdx at_ }) s)
  | _, [] => textDone b at_ x x.accept s

/-- PATTERN_STEP (R248, R282): one byte of the next text of the pattern table to which the slot falls. -/
def execPatternStep (b : Fin 16) (parityOk : Bool) (s : State) : Host.Outcome State Fault Refusal :=
  let k := getBank s b.val
  .next (
    if !(bankServes s b.val) ∨ k.bad.isSome then s
    else match slotUser s k with
    | none => s
    | some (tag, bal) =>
      match k.texts.findIdx? (fun x => decide (x.tag = tag)) with
      | none => s
      | some at_ =>
        match k.texts[at_]? with
        | some x => stepText b.val at_ tag bal parityOk x s
        | none => s)

/-! ## Parity and loss of a bank (R273 to R276) -/

/-- PARITY_SCAN_READ (R248, R273). -/
def execParityScanRead (b : Fin 16) (parityOk searchWaits : Bool) (s : State) : Host.Outcome State Fault Refusal :=
  let k := getBank s b.val
  .next (
    if !(bankServes s b.val) ∨ k.bad.isSome then s
    else
      let pos := b.val * bankSize + k.scan
      let s1 := countC b.val 9 (b2n searchWaits) (countC b.val 4 1 s)
      onBank b.val (fun k => { k with scan := (k.scan + 1) % bankSize, bad := if parityOk then none else some pos }) s1)

/-- PARITY_ERROR_RELOAD (R274): the entry comes back from its shadow, with record 0x3004. -/
def execParityErrorReload (b : Fin 16) (s : State) : Host.Outcome State Fault Refusal :=
  let k := getBank s b.val
  .next (match k.bad with
    | none => s
    | some pos =>
      let now := s.sys.time.toNat
      let times := now :: k.errorTimes.filter (fun t => decide (now < t + 1000000))
      let s1 := onBank b.val (fun k => { k with bad := none, errorTimes := times }) (reloadEntry pos s)
      let s2 := countC b.val 3 1 (countC b.val 7 1 (countC b.val 6 1 s1))
      logRecord 0x3004 (0x0400 + b.val) b.val (pos % bankSize) times.length s2)

/-- A mirrored table after the loss of a bank: unmirrored, its home the copy that is left, with that copy's slots and
exclusion (R276, R256). -/
def leftCopy (b : Nat) (t : CTable) : CTable :=
  match t.mirror with
  | none => t
  | some m =>
    let keep (mirror : Bool) : List (Bool × MicroOp) := (t.ops.filter (fun o => o.1 == mirror)).map (fun o => (false, o.2))
    let hidden (mirror : Bool) : Option (Bool × Nat) :=
      (t.excluded.filter (fun x => x.1 == mirror)).map (fun x => (false, x.2))
    if bankOf t.home = b then { t with home := m, mirror := none, ops := keep true, excluded := hidden true }
    else if bankOf m = b then { t with mirror := none, ops := keep false, excluded := hidden false }
    else t

/-- A bank is retired: mirrored tables go on from their other copies, unmirrored (R276); what waited at the bank for them
goes there too, and a record that only the lost copy still had to take is done. -/
def bankLost (b : Nat) (s : State) : State :=
  let was := (s.canopy.tables.filter (fun e => !e.2.ops.isEmpty)).map (·.1)
  let s1 := onBank b (fun k => { k with state := 3, bad := none })
    (onCanopy (fun c => { c with tables := c.tables.map (fun e => (e.1, leftCopy b e.2)) }) s)
  let away (tag : Nat) : Bool := ((tblFind s1.canopy.tables tag).map (fun t => decide (bankOf t.home ≠ b))).getD false
  was.foldl (fun s tag => recordDone tag s) (sendAgain (fun k => decide (k = b)) away s1)

/-- A RUN job whose searches wait on an unavailable table fails (R246). -/
def failSearches (tag : Nat) (s : State) : State :=
  s.canopy.banks.foldl (fun s e =>
    let hits := (e.2.waiting.filter (fun q => decide (q.tag = tag))).map (fun q => (q.job, q.stage)) ++
      (e.2.texts.filter (fun x => decide (x.tag = tag))).map (fun x => (x.job, x.stage))
    hits.foldl (fun s h => endFailed h.1 0x0509 h.2 s)
      (onBank e.1 (fun k => { k with waiting := k.waiting.filter (fun q => !(decide (q.tag = tag))),
                                     texts := k.texts.filter (fun x => !(decide (x.tag = tag))) }) s)) s

/-- The entries of a table's lost range as the shadow holds them. -/
def shadowPlaces (s : State) (t : CTable) : Places :=
  (List.range t.capacity).filterMap (fun k =>
    let e := parseShadow (devBytes s (shadowAt s (t.home + k)) 64)
    if e.valid then some (k, e) else none)

/-- A table of a retired bank moves into a bank with room, from its shadow (R246, R276); what waited for it follows. -/
def rehome (tag : Nat) (t : CTable) (s : State) : State :=
  let ps := shadowPlaces s t
  match placeIn t.capacity (servingBanks s) s with
  | none => s
  | some (home, s1) =>
    let t1 := { t with state := if t.state = .unavailable then .ready else t.state, home := home }
    let s2 := clearRange t.home t.capacity 0xFFFF s1
    let s3 := placeEntries t1 tag ps.length ps (onTable tag (fun _ => t1) s2)
    let s4 := sendAgain (fun k => decide (k = bankOf t.home)) (fun x => decide (x = tag)) (countC (bankOf home) 7 1 s3)
    if t.state = .unavailable then logRecord Config.tableReloadCode.toNat (0x0400 + bankOf home) tag home 0 s4 else s4

/-- A table of a retired bank finds no room: it becomes UNAVAILABLE, and the jobs that search it fail (R246). One that is
being dropped only loses them. -/
def strand (tag : Nat) (t : CTable) (s : State) : State :=
  failSearches tag (if t.state = .dropping then s else onTable tag (fun t => { t with state := .unavailable }) s)

/-- The next table of a retired bank: one for which a bank has room, else one that has still to be stranded. -/
def reloadNext (b : Nat) (s : State) : State :=
  let mine := s.canopy.tables.filter (fun e => decide (bankOf e.2.home = b))
  match mine.find? (fun e => (placeIn e.2.capacity (servingBanks s) s).isSome) with
  | some (tag, t) => rehome tag t s
  | none =>
    match mine.find? (fun e => !(e.2.state == .unavailable) && !(e.2.state == .dropping)) with
    | some (tag, t) => strand tag t s
    | none => (mine.filter (fun e => e.2.state == .dropping)).foldl (fun s e => failSearches e.1 s) s

/-- The tables of a bank that serves again are no longer UNAVAILABLE (R246). -/
def tablesReturn (b : Nat) (s : State) : State :=
  (s.canopy.tables.filter (fun e => e.2.state == .unavailable && decide (bankOf e.2.home = b))).foldl (fun s e =>
    logRecord Config.tableReloadCode.toNat (0x0400 + b) e.1 e.2.home 0 (onTable e.1 (fun t => { t with state := .ready }) s)) s

/-- Restore the mirror of a table where there is room (R276). -/
def remirror (tag : Nat) (t : CTable) (s : State) : State :=
  let others := (servingBanks s).filter (fun b => decide (quadOf b ≠ quadOf (bankOf t.home)))
  match placeIn t.capacity others s with
  | none => s
  | some (m, s1) =>
    match tblFind s1.canopy.tables tag with
    | none => s1
    | some t1 =>
      let ps := placesOf s1 t1.home t1.capacity
      let s2 := clearRange m t1.capacity tag (onTable tag (fun t => { t with mirror := some m }) s1)
      countC (bankOf m) 3 ps.length (ps.foldl (fun s e => writeEntry (m + e.1) e.2 s) s2)

/-- BANK_RELOAD (R275, R276): a bank that has been tested is filled from the shadow and serves again; of a retired bank
one table moves; else a lost mirror is restored. -/
def execBankReload (b : Fin 16) (s : State) : Host.Outcome State Fault Refusal :=
  let k := getBank s b.val
  .next (
    if k.state = 2 then
      let s1 := (List.range bankSize).foldl (fun s p => reloadEntry (b.val * bankSize + p) s) s
      tablesReturn b.val (onBank b.val (fun k => { k with state := 0 }) (countC b.val 3 bankSize (countC b.val 7 1 s1)))
    else if k.state = 3 then reloadNext b.val s
    else
      match s.canopy.tables.find? (fun e =>
        e.2.mirrorAsked && e.2.mirror.isNone && decide (e.2.state = .ready) && decide (bankOf e.2.home = b.val) &&
        e.2.ops.isEmpty) with
      | some (tag, t) => remirror tag t s
      | none => s)

end Sys2Proof.Machine
end

