-- ==== Sys2Proof/Machine/Quays.lean ====
section
/-! DEFINITION. Quay units (03_quay_units.md): scan tasks from hand-over to their last batch, position gathers, and the
checks that every reader of column blocks makes (02_column_blocks.md, R67 to R80). -/

namespace Sys2Proof.Machine

def getScan (s : State) (t : Nat) : Option ScanTask := tblFind s.scans t
def onScan (t : Nat) (f : ScanTask → ScanTask) (s : State) : State :=
  match tblFind s.scans t with
  | none => s
  | some x => { s with scans := tblSet s.scans t (f x) }
def getQuay (s : State) (q : Nat) : Quay := tblGet {} s.quays q
def onQuay (q : Nat) (f : Quay → Quay) (s : State) : State := { s with quays := tblMod {} s.quays q f }

/-- The buddy of a quay, or of a subchannel (03, R138). -/
def buddyOf (q : Nat) : Nat := q ^^^ 1

/-- The quay that serves a subchannel: its own, or the buddy while that serves the pair and has taken over (R140). -/
def servingQuay (s : State) (sub : Nat) : Option Nat :=
  if (getQuay s sub).state = 0 ∨ (getQuay s sub).state = 1 then some sub
  else if (getQuay s (buddyOf sub)).state = 1 ∧ !(getQuay s sub).handing then some (buddyOf sub) else none

/-- Quays start no read at thermal level 3 (17, R710). -/
def coolEnough (s : State) : Bool := decide (s.sys.thermal ≠ 3)

/-! ## Data errors (02, R74, R75; 03, R134, R135) -/

/-- A fault of a read, or an ownership violation, at a quay (R136). -/
def quayFailed (q j : Nat) (b : Option (Fin 512)) (f : StartFault) (s : State) : State :=
  match f, b with
  | .fail c p, _ => quayFault q j c p s
  | .violation a, some b => noteViolation b a (some j) (countQ q 15 1 s)
  | .violation _, none => s

/-! ## Block checks (02, R67, R68, R79, R80) -/

/-- A range lies wholly within the quay-local window of a subchannel, at a multiple of 64 (R80). -/
def placedIn (s : State) (sub a n : Nat) : Bool :=
  decide (a % 64 = 0) && s.present.subchannels.getLsbD sub &&
  decide (localBase s sub ≤ a) && decide (a + n ≤ localBase s sub + localBytes s)

/-- Steps 1 and 2 of R67 on a header read through a directory entry. -/
def headerFault (s : State) (d : Directory) (idx : Nat) (e : DirEntry) (h : BlockHeader) : Option FaultAt :=
  if !(headerOk h (decide (idx + 1 = d.entries.length))) then some (DataError.header.code, h.firstRow)
  else if h.type ≠ d.type ∨ h.firstRow ≠ e.firstRow ∨ h.rowCount ≠ e.rowCount then
    some (DataError.directory.code, idx)
  else if !(placedIn s e.subchannel e.address (BlockHeader.footprint h)) then some (DataError.placement.code, e.firstRow)
  else none

/-- A read of column data for a berth: ownership first (R68), a memory error at a position (R134). -/
def dataRead (tag : Option (Fin 512)) (a n pos : Nat) (s : State) : Except StartFault Bytes × State :=
  match devRead tag true a n s with
  | (.ok d, s1) => (.ok d, s1)
  | (.violation x, s1) => (.error (.violation x), s1)
  | (_, s1) => (.error (.fail 0x0211 pos), s1)

/-- The header of a block and its checks. -/
def readHeader (tag : Option (Fin 512)) (d : Directory) (idx : Nat) (e : DirEntry) (s : State) :
    Except StartFault Bytes × State :=
  match dataRead tag e.address 64 e.firstRow s with
  | (.error f, s1) => (.error f, s1)
  | (.ok b, s1) =>
    match headerFault s1 d idx e (parseHeader b) with
    | some f => (.error (.fail f.1 f.2), s1)
    | none => (.ok b, s1)

/-! ### Dictionary objects (02, R49 to R51) -/

/-- DATA_ERROR(DICT) at a block. -/
def dictFault (pos : Nat) : StartFault := .fail DataError.dict.code pos

/-- Read a dictionary object and check it by itself (R50, R51). -/
def readDict (tag : Option (Fin 512)) (a pos : Nat) (s : State) : Except StartFault DictObject × State :=
  if a % 64 ≠ 0 ∨ interBytes s < a + 16 then (.error (dictFault pos), s)
  else match dataRead tag a 16 pos s with
  | (.error f, s1) => (.error f, s1)
  | (.ok h, s1) =>
    let t := field h 1 1
    let n := field h 4 4
    let len := field h 8 4
    if field h 0 1 ≠ 2 ∨ 1 < field h 2 2 ∨ n = 0 ∨ 65536 < n ∨ len % 8 ≠ 0 ∨ 4194304 < len ∨ (typeInfo t).isNone ∨
        interBytes s < a + 16 + len then (.error (dictFault pos), s1)
    else match dataRead tag (a + 16) len pos s1 with
    | (.error f, s2) => (.error f, s2)
    | (.ok body, s2) =>
      if (crc32c body).toNat ≠ field h 0x0C 4 then (.error (dictFault pos), s2)
      else match dictBody t n body with
      | none => (.error (dictFault pos), s2)
      | some es => (.ok ⟨a, t, n, field h 0x0C 4, es⟩, s2)

/-- The entries that a DICT_REF block decodes through. An object verified already in the job is not read again, and TYPE,
DICT_COUNT and DICT_CHECK are compared after the body is read (R50, R51; DESIGN CHOICE, log 208). -/
def dictFor (tag : Option (Fin 512)) (known : List DictObject) (h : BlockHeader) (p : Bytes) (pos : Nat) (s : State) :
    Except StartFault DictObject × State :=
  let (a, n, c) := dictRefOf h p
  let got : Except StartFault DictObject × State := match known.find? (fun o => decide (o.addr = a)) with
    | some o => (.ok o, s)
    | none => readDict tag a pos s
  match got with
  | (.error f, s1) => (.error f, s1)
  | (.ok o, s1) =>
    if o.type = h.type ∧ n ≤ o.count ∧ o.check = c then (.ok o, s1) else (.error (dictFault pos), s1)

/-- What a decoded block gives: its values, its run ends if it is an RLE block, and a dictionary object read for it. -/
structure Decoded where
  values : List Value
  ends : List Nat
  dict : Option DictObject
  deriving DecidableEq, Repr

/-- Steps 3 to 6 of R67 on a block's stored payload, at the quay that counts a surplus block (R70, R71). -/
def decodeStored (q : Nat) (tag : Option (Fin 512)) (known : List DictObject) (h : BlockHeader) (stored : Bytes)
    (s : State) : Except StartFault Decoded × State :=
  let r := checkPayload h stored
  let s0 := countQ q 10 (b2n r.2) s
  match r.1 with
  | .error f => (.error (.fail f.1 f.2), s0)
  | .ok p =>
    if BlockHeader.dictRef h && !(BlockHeader.allNull h) then
      match dictFor tag known h p h.firstRow s0 with
      | (.error f, s1) => (.error f, s1)
      | (.ok o, s1) =>
        match decodeValues (interBytes s1) h o.entries p with
        | .error f => (.error (.fail f.1 f.2), s1)
        | .ok vs => (.ok ⟨vs, [], some o⟩, s1)
    else match decodeValues (interBytes s0) h [] p with
      | .error f => (.error (.fail f.1 f.2), s0)
      | .ok vs => (.ok ⟨vs, runEndsOf h p, none⟩, s0)

/-- A RUN job remembers a dictionary object (R51). -/
def rememberDict (j : Nat) (d : Option DictObject) (s : State) : State :=
  match d with
  | none => s
  | some o => onR j (fun r =>
      { r with dicts := if r.dicts.any (fun x => decide (x.addr = o.addr)) then r.dicts else o :: r.dicts }) s

/-! ## Scan tasks -/

/-- The parts of a SCAN body. -/
structure ScanPlan where
  cols : List ScanColumn
  slots : List SlotPred
  positions : Bool
  selection : Bool
  dest : Nat
  dirs : List Directory
  deriving DecidableEq, Repr

/-- The plan of a scan task. -/
def planOf (s : State) (t : ScanTask) : Option (Run × ScanPlan) :=
  match getR s t.job with
  | none => none
  | some r =>
    match r.image.stages[t.stage]? with
    | none => none
    | some g => match g.body with
      | .scan cols slots pos sel dest _ _ _ => some (r, ⟨cols, slots, pos, sel, dest, tblGet [] r.dirs t.stage⟩)
      | _ => none

/-- Directory of a scan column. -/
def ScanPlan.dir (p : ScanPlan) (c : Nat) : Directory := p.dirs.getD c ⟨0, 0, 0, [], 0⟩

/-- Predicate columns in ascending order (R102). -/
def ScanPlan.tested (p : ScanPlan) : List Nat :=
  (List.range p.cols.length).filter (fun c => p.slots.any (fun k => decide (k.column = c)))

/-- Delivered columns (R152). -/
def ScanPlan.delivered (p : ScanPlan) : List Nat :=
  (List.range p.cols.length).filter (fun c => ((p.cols[c]?).map (fun x => x.deliver)).getD false)

/-- Late columns: delivered and without a slot. -/
def ScanPlan.late (p : ScanPlan) : List Nat := p.delivered.filter (fun c => !(p.tested.contains c))

/-- Index of the block of a column that covers a stripe (R94). -/
def ScanPlan.blockOf (p : ScanPlan) (c stripe : Nat) : Nat := ((Directory.entryOf (p.dir c) (4096 * stripe)).map (·.1)).getD 0

/-- Rows of a stripe. -/
def ScanPlan.rowsIn (p : ScanPlan) (stripe : Nat) : Nat := min 4096 ((p.dir 0).totalRows - 4096 * stripe)

/-- A decoded block of a group. -/
def ScanGroup.block (g : ScanGroup) (c idx : Nat) : Option KeptBlock :=
  g.values.find? (fun v => decide (v.column = c) && decide (v.index = idx))

/-- A value of a decoded column at a row of a stripe. -/
def groupCell (p : ScanPlan) (g : ScanGroup) (c stripe i : Nat) : Option Value :=
  let idx := p.blockOf c stripe
  (g.block c idx).map (fun v =>
    v.values.getD (4096 * stripe + i - (((p.dir c).entries[idx]?).map (fun e => e.firstRow)).getD 0) .null)

/-- A long value that the group has read. -/
def ScanGroup.longValue (g : ScanGroup) (a n : Nat) : Option Bytes :=
  (g.longs.find? (fun l => decide (l.1 = a) && decide (l.2.1 = n))).map (·.2.2)

/-- Verdict of a slot at a row, where its column lies below `cut` and every predicate column up to it is decoded (R102);
`none` where they are not yet. -/
def slotAt (p : ScanPlan) (g : ScanGroup) (cut stripe i : Nat) (k : SlotPred) : Option Verdict :=
  if k.column < cut ∧
      (p.tested.filter (fun c => decide (c < k.column))).all (fun c => (g.block c (p.blockOf c stripe)).isSome) then
    (groupCell p g k.column stripe i).map (fun v => slotVerdict g.longValue k (p.dir k.column).type v)
  else none

/-- What the predicate columns below `cut` say of a row (R112): `yes` selected, `no` out, `need` a long value decides,
`unknown` later columns decide. -/
def rowJudge (p : ScanPlan) (g : ScanGroup) (cut stripe i : Nat) : Verdict :=
  let groups := ((p.slots.map (fun k => k.group)).eraseDups).map (fun n =>
    let vs := (p.slots.filter (fun k => decide (k.group = n))).map (slotAt p g cut stripe i)
    let known := vs.filterMap (fun v => v)
    match groupVerdict known with
    | .yes => Verdict.yes
    | .need a l => .need a l
    | _ => if vs.any (fun v => v.isNone) then .unknown else .no)
  if groups.contains .no then .no
  else match groups.find? (fun v => match v with
      | .need _ _ => true
      | _ => false) with
  | some v => v
  | none => if groups.contains .unknown then .unknown else .yes

/-- Beyond every column: all that is decoded counts. -/
def ScanPlan.all (p : ScanPlan) : Nat := p.cols.length

/-- Rows of a stripe that are selected. -/
def selectedIn (p : ScanPlan) (g : ScanGroup) (stripe : Nat) : List Nat :=
  (List.range (p.rowsIn stripe)).filter (fun i => rowJudge p g p.all stripe i == .yes)

/-- What a scan task does next: open a group of stripes, read a block, read a long value for a row, build a batch, or
nothing. -/
inductive ScanNeed where
  | open_
  | block (col idx : Nat)
  | long (addr len row : Nat)
  | build (stripe : Nat)
  | none
  deriving DecidableEq, Repr

/-- The first block of a column over some stripes that is not decoded. -/
def missingBlock (p : ScanPlan) (g : ScanGroup) (c : Nat) (stripes : List Nat) : Option (Nat × Nat) :=
  ((stripes.map (p.blockOf c)).find? (fun idx => (g.block c idx).isNone)).map (fun idx => (c, idx))

/-- The long value that a slot needs at a row of a stripe and that is not read, if its column is evaluated (R117). -/
def rowLong (p : ScanPlan) (g : ScanGroup) (cut st i : Nat) (k : SlotPred) : Option (Nat × Nat × Nat) :=
  match slotAt p g cut st i k with
  | some (.need a n) => some (a, n, 4096 * st + i)
  | _ => none

/-- The first long value that some slot on a column below `cut` needs in a stripe, whatever the other slots say of its
row (R117). -/
def stripeLong (p : ScanPlan) (g : ScanGroup) (cut st : Nat) : Option (Nat × Nat × Nat) :=
  (List.range (p.rowsIn st)).findSome? (fun i => p.slots.findSome? (rowLong p g cut st i))

/-- The first long value that a slot needs (R117). -/
def neededLong (p : ScanPlan) (g : ScanGroup) : Option (Nat × Nat × Nat) := g.cands.findSome? (stripeLong p g p.all)

/-- The first long value to be delivered in line in a stripe (R117). -/
def deliveredLong (p : ScanPlan) (g : ScanGroup) (st : Nat) : Option (Nat × Nat × Nat) :=
  (p.delivered.filter (fun c => ((p.cols[c]?).map (fun x => x.longInline)).getD false)).findSome? (fun c =>
    (selectedIn p g st).findSome? (fun i => match groupCell p g c st i with
      | some (.long a n _) => if (g.longValue a n).isNone then some (a, n, 4096 * st + i) else none
      | _ => none))

/-- The next need of a scan task (R99 to R102, R117, R122). -/
def scanNeed (p : ScanPlan) (t : ScanTask) : ScanNeed :=
  if 2 ≤ t.ready.length then .none
  else match t.group with
  | none => if t.lastBuilt then .none else .open_
  | some g =>
    if g.hand.isSome then .none
    else match neededLong p g with
    | some (a, n, r) => .long a n r
    | none =>
      match p.tested.findSome? (fun c => missingBlock p g c g.cands) with
      | some (c, k) => .block c k
      | none =>
        match g.cands with
        | [] => if t.lastBuilt then .none else .open_
        | st :: _ =>
          match p.late.findSome? (fun c => missingBlock p g c [st]) with
          | some (c, k) => .block c k
          | none =>
            match deliveredLong p g st with
            | some (a, n, r) => .long a n r
            | none => .build st

/-- The stripe that a task has in hand: the first candidate of its group, once a block that covers it has been read. -/
def handStripe (p : ScanPlan) (g : ScanGroup) : Option Nat :=
  g.cands.head?.filter (fun st => decide (g.spent ≠ some st) &&
    (g.hand.isSome || g.values.any (fun v => decide (p.blockOf v.column st = v.index))))

/-- A task that only finishes the stripe it has in hand; none if it has none (R135, R137, R141). -/
def handView (p : ScanPlan) (x : ScanTask) : Option ScanTask :=
  match x.group with
  | none => none
  | some g => (handStripe p g).map (fun st =>
      { x with stripes := [], lastBuilt := true, group := some { g with cands := [st] } })

/-- The job of a task is stopping, and quays finish its stripes in hand: it has an outcome, or its berth is freezing
(R135, R137). -/
def stopping (s : State) (x : Job) : Bool :=
  hostActive s && (x.result.isSome || match x.berth with
    | some b => (getB s b.val).state == .freezing
    | none => false) &&
  match x.berth with
  | none => true
  | some b => !((getB s b.val).state == .frozen) && !((getB s b.val).state == .destroying)

/-- What a task may go on with: all of it, or the stripe in hand alone where its job is stopping. -/
def scanView (s : State) (p : ScanPlan) (x : ScanTask) (j : Job) : Option ScanTask :=
  if !x.active then none
  else if taking s j then some x
  else if stopping s j then handView p x
  else none

/-- Run a meaning on an active scan task at the quay that serves it, as far as the task may go on. -/
def withScan (t : Nat) (s : State) (f : ScanTask → Run → ScanPlan → Job → Nat → State) : State :=
  match getScan s t with
  | none => s
  | some x =>
    match planOf s x, getJ s x.job, servingQuay s x.sub with
    | some (r, p), some j, some q =>
      match scanView s p x j with
      | some v => f v r p j q
      | none => s
    | _, _, _ => s

/-- A change of a task's group. -/
def onGroup (t : Nat) (f : ScanGroup → ScanGroup) (s : State) : State :=
  onScan t (fun x => { x with group := x.group.map f }) s

/-- SCAN_TASK_HANDOFF (R95): the first task queued for a subchannel takes a free slot of its quay. -/
def execScanTaskHandoff (s : Fin 32) (x : State) : Host.Outcome State Fault Refusal :=
  let mine := x.scans.filter (fun e => decide (e.2.sub = s.val))
  let queued := mine.filter (fun e => !e.2.active && match getJ x e.2.job with
    | some j => taking x j
    | none => false)
  .next (
    if (servingQuay x s.val).isNone ∨ 32 ≤ (mine.filter (fun e => e.2.active)).length then x
    else match findMin (fun e => e.2.job * 256 + e.2.stage) queued with
    | none => x
    | some e => onScan e.1 (fun t => { t with active := true }) x)

/-! ### Batches (R124, R126, R152) -/

/-- Consumers of a stripe's batch on every edge of the port (R152). -/
def scanTargets (r : Run) (t : ScanTask) (dest stripe : Nat) : List (Nat × Nat) :=
  (outEdges r t.stage 0).map (fun e =>
    let n := instCount r e.2.dst
    (e.1, if dest = 0 then stripe % max 1 n else t.sub * n / 32))

/-- The value that is delivered: in line where the scan asks for it (R117, R119). -/
def deliver (p : ScanPlan) (g : ScanGroup) (c st i : Nat) : Value :=
  match groupCell p g c st i with
  | some (.long a n x) =>
    if ((p.cols[c]?).map (fun k => k.longInline)).getD false then
      match g.longValue a n with
      | some b => .str b
      | none => .long a n x
    else .long a n x
  | some v => v
  | none => .null

/-- The batch of a stripe in one of its two forms (R124). -/
def stripeBatch (p : ScanPlan) (g : ScanGroup) (t : ScanTask) (st : Nat) : Batch :=
  let sel := selectedIn p g st
  let rows := if p.selection then List.range (p.rowsIn st) else sel
  { stage := t.stage, inst := t.sub, seq := 0, last := false, firstRow := 4096 * st, rows := rows.length,
    positions := if p.positions then some (rows.map (fun i => 4096 * st + i)) else none,
    selection := if p.selection then some (rows.map (fun i => sel.contains i)) else none,
    columns := p.delivered.map (fun c =>
      { type := (p.dir c).type, scale := (p.dir c).scale, values := rows.map (fun i => deliver p g c st i) }) }

/-- What a task has opened so far. -/
def ScanTask.opened (t : ScanTask) : ScanGroup := t.group.getD { stripes := [], cands := [] }

/-- A finished batch of a task takes a buffer and awaits its credit (R127; 04, R159, R167). `stripe` is the stripe whose
last batch it is. -/
def pushScan (t : Nat) (stripe : Option Nat) (targets : List (Nat × Nat)) (b : Batch) (s : State) : State :=
  match getScan s t with
  | none => s
  | some x =>
    let (b1, s1) := layBatch x.job { b with seq := (x.seq + x.ready.length) % 2 ^ 32, buffer := none } s
    starved x.job b1 (onScan t (fun x => { x with ready := x.ready ++ [(stripe, ⟨targets, b1⟩)] }) s1)

/-- The batches of a stripe: one, or where its length would pass the bound of a batch, compacted pieces of it with the
positions of their rows (04, R159, R162). -/
def stripePieces (schema : Schema) (b : Batch) : List Batch :=
  if (batchBytes b).length ≤ batchBytesMax then [b]
  else
    let held := (List.range b.rows).filter (batchHas b)
    let pos := (b.positions.getD []) 
    let cut := pieces (if b.positions.isSome then (0x0C, 0) :: schema else schema)
      (held.map (fun i => if b.positions.isSome then .num (pos.getD i 0) :: batchRow b i else batchRow b i))
    cut.map (fun rows =>
      let c : Batch := rowBatch b.stage b.inst 0 schema (if b.positions.isSome then rows.map (fun r => r.drop 1) else rows)
      { c with firstRow := b.firstRow, positions := b.positions.map (fun _ => rows.map (fun r => valPattern (r.getD 0 .null))) })

/-- Send the pieces of a stripe to the ready list; the last carries the stripe's number. -/
def pushPieces (t st : Nat) (targets : List (Nat × Nat)) : List Batch → State → State
  | [], s => s
  | [b], s => pushScan t (some st) targets b s
  | b :: bs, s => pushPieces t st targets bs (pushScan t none targets b s)

/-- Output schema of a scan. -/
def scanSchema (r : Run) (t : ScanTask) : Schema := ((r.image.stages[t.stage]?).map (fun g => g.schemas.getD 0 [])).getD []

/-- The end of a scan task: LAST for every consumer (R163). -/
def buildLast (t : Nat) (r : Run) (s : State) : State :=
  match getScan s t with
  | none => s
  | some x =>
    if x.opened.cands.isEmpty ∧ x.opened.hand.isNone ∧ x.stripes.isEmpty ∧ !x.lastBuilt ∧ x.ready.length < 2 then
      onScan t (fun x => { x with lastBuilt := true })
        (pushScan t none (allTargets r x.stage 0) (lastBatch x.stage x.sub 0 (scanSchema r x)) s)
    else s

/-! ### What is decoded and dropped (R102, R103) -/

/-- Candidate stripes that the quay decodes of a kept block and has not decoded yet: every predicate column before the
block's is settled on them, a late column when all are, and rows of theirs may still be selected (R102, R103, R122). -/
def decodeStripes (p : ScanPlan) (g : ScanGroup) (v : KeptBlock) : List Nat :=
  let cut := if p.tested.contains v.column then v.column else p.all
  g.cands.filter (fun st =>
    decide (p.blockOf v.column st = v.index) && !(v.decoded.contains st) &&
    (p.tested.filter (fun c => decide (c < cut))).all (fun c => (g.block c (p.blockOf c st)).isSome) &&
    (stripeLong p g cut st).isNone && (List.range (p.rowsIn st)).any (fun i => rowJudge p g cut st i != .no))

/-- First row of the RLE run that covers a row (R103). -/
def runStart_ (ends : List Nat) (row : Nat) : Nat :=
  ((ends.filter (fun e => decide (e < row))).map (· + 1)).foldl max 0

/-- Rows of a block that are decoded for some stripes: those of the stripes; of a DELTA block all from row 0, and of an
RLE block all from the run that covers the first candidate row, to the end of the last stripe (R103). Rows before
`upTo` are decoded already. -/
def decodeRows (h : BlockHeader) (ends : List Nat) (upTo : Nat) (stripes : List Nat) : List Nat :=
  let start (st : Nat) : Nat := 4096 * st - h.firstRow
  let stop (st : Nat) : Nat := min h.rowCount (4096 * (st + 1) - h.firstRow)
  let last := (stripes.map stop).foldl max 0
  if h.encoding = 3 then (List.range last).drop upTo
  else if h.encoding = 4 then
    (List.range last).drop (max upTo (runStart_ ends ((stripes.map start).foldl min h.rowCount)))
  else stripes.flatMap (fun st => (List.range (stop st)).drop (start st))

/-- Decoded bytes of some rows: each value at its FIXED size (R121, R143). -/
def decodedBytes (h : BlockHeader) (vs : List Value) (rows : List Nat) : Nat :=
  match typeClass h.type with
  | .bool => ceilDiv rows.length 8
  | .bytes => (rows.map (fun i => (slotBytes (vs.getD i .null)).1.length)).sum
  | _ => rows.length * typeSize h.type

/-- A kept block with the stripes decoded that are due, and the bytes that gives. -/
def decodeDue (p : ScanPlan) (g : ScanGroup) (v : KeptBlock) : KeptBlock × Nat :=
  let h := parseHeader v.header
  let due := decodeStripes p g v
  let rows := decodeRows h v.ends v.upTo due
  if due.isEmpty then (v, 0)
  else ({ v with decoded := v.decoded ++ due, upTo := max v.upTo (rows.foldl (fun a i => max a (i + 1)) 0) },
    decodedBytes h v.values rows)

/-- Decode what is due of every kept block. -/
def decodeKept (q t : Nat) (p : ScanPlan) (s : State) : State :=
  match (getScan s t).bind (fun x => x.group) with
  | none => s
  | some g =>
    let l := g.values.map (decodeDue p g)
    countQ q 6 ((l.map (·.2)).sum) (onGroup t (fun g => { g with values := l.map (·.1) }) s)

/-- Stripes that are settled as empty leave the group; they count as evaluated (R102, R143). Where only the stripe in
hand `only` is to be finished, no other is looked at. A stripe with a long value to come stays (R117). -/
def dropStripes (q t : Nat) (p : ScanPlan) (only : Option Nat) (s : State) : State :=
  match (getScan s t).bind (fun x => x.group) with
  | none => s
  | some g =>
    let keep := g.cands.filter (fun st => (only.any (fun k => decide (k ≠ st))) || (stripeLong p g p.all st).isSome ||
      (List.range (p.rowsIn st)).any (fun i => rowJudge p g p.all st i != .no))
    countQ q 2 (g.cands.length - keep.length) (onGroup t (fun g => { g with cands := keep }) s)

/-- A stripe is evaluated: counted, unless it was while the job was stopping. -/
def countStripe (q : Nat) (p : ScanPlan) (g : ScanGroup) (st : Nat) (s : State) : State :=
  if g.spent = some st then s else countQ q 3 (selectedIn p g st).length (countQ q 2 1 s)

/-- Build batches while fewer than two wait for credit (R124, R127). -/
def buildBatches (q t : Nat) (p : ScanPlan) (r : Run) : Nat → State → State
  | 0, s => s
  | fuel + 1, s =>
    match getScan s t with
    | none => s
    | some x =>
      match scanNeed p x, x.group with
      | .build st, some g =>
        let s1 := onGroup t (fun g => { g with cands := g.cands.filter (fun k => !(decide (k = st))), spent := none })
          (countStripe q p g st s)
        buildBatches q t p r fuel
          (pushPieces t st (scanTargets r x p.dest st) (stripePieces (scanSchema r x) (stripeBatch p g x st)) s1)
      | _, _ => buildLast t r s

/-- After any progress of a task. Where the job is stopping, its stripe in hand `only` is finished and no batch is built
(R135, R137). -/
def settleScan (q t : Nat) (p : ScanPlan) (r : Run) (only : Option Nat) (s : State) : State :=
  let s1 := dropStripes q t p only (decodeKept q t p s)
  if only.isNone then buildBatches q t p r 3 s1
  else match (getScan s1 t).bind (handView p) with
    | none => s1
    | some y => match scanNeed p y, y.group with
      | .build st, some g => onGroup t (fun g => { g with spent := some st }) (countStripe q p g st s1)
      | _, _ => s1

/-- The stripe to which a view of a task is cut, if its job is stopping. -/
def onlyStripe (s : State) (j : Job) (v : ScanTask) : Option Nat :=
  if taking s j then none else (v.group.map (fun g => g.cands)).bind List.head?

/-- A scan task meets a fault: the job's, or a violation, which ends the task at once (R136). A task that meets a fault
has no stripe in hand any more. -/
def scanFailed (q t : Nat) (x : ScanTask) (b : Option (Fin 512)) (f : StartFault) (s : State) : State :=
  let s1 := quayFailed q x.job b f s
  match f with
  | .violation _ => { s1 with scans := tblErase s1.scans t }
  | .fail _ _ => onScan t (fun x => { x with group := none, stripes := [], lastBuilt := true }) s1

/-! ### Headers (R99 to R101, R113, R115) -/

/-- The predicate blocks that cover some stripes: column and index. -/
def testedBlocks (p : ScanPlan) (stripes : List Nat) : List (Nat × Nat) :=
  p.tested.flatMap (fun c => ((stripes.map (p.blockOf c)).eraseDups).map (fun k => (c, k)))

/-- Bytes read by a quay, by way of its own subchannel or the mesh (R125, R143). -/
def countRead (q sub n : Nat) (s : State) : State :=
  let local_ := decide (sub = q) || (decide ((getQuay s q).state = 1) && decide (sub = buddyOf q))
  countQ q (if local_ then 4 else 5) n s

/-- Read the headers of some blocks, in order. -/
def readHeaders (q : Nat) (tag : Option (Fin 512)) (p : ScanPlan) :
    List (Nat × Nat) → State → Except StartFault (List (Nat × Nat × Bytes)) × State
  | [], s => (.ok [], s)
  | (c, k) :: rest, s =>
    match (p.dir c).entries[k]? with
    | none => (.error (.fail DataError.directory.code k), s)
    | some e =>
      match readHeader tag (p.dir c) k e s with
      | (.error f, s1) => (.error f, s1)
      | (.ok b, s1) =>
        match readHeaders q tag p rest (countRead q e.subchannel 64 s1) with
        | (.error f, s2) => (.error f, s2)
        | (.ok l, s2) => (.ok ((c, k, b) :: l), s2)

/-- A header that a group has read. -/
def headerOf (hs : List (Nat × Nat × Bytes)) (c k : Nat) : Option BlockHeader :=
  (hs.find? (fun h => decide (h.1 = c) && decide (h.2.1 = k))).map (fun h => parseHeader h.2.2)

/-- A stripe is ruled out: every slot of some group is proved not TRUE (R113). -/
def ruledOut (p : ScanPlan) (hs : List (Nat × Nat × Bytes)) (st : Nat) : Bool :=
  ((p.slots.map (fun k => k.group)).eraseDups).any (fun n =>
    (p.slots.filter (fun k => decide (k.group = n))).all (fun k =>
      match headerOf hs k.column (p.blockOf k.column st) with
      | some h => zoneProof k h
      | none => false))

/-- The headers that a group of stripes needs and the task has not read (R99). -/
def headersWanted (p : ScanPlan) (old : ScanGroup) (group : List Nat) : List (Nat × Nat) :=
  (testedBlocks p group).filter (fun b => (headerOf old.headers b.1 b.2).isNone)

/-- The group that opens: what earlier groups of the task have read of blocks that reach into it stays (R122). -/
def openGroup (p : ScanPlan) (old : ScanGroup) (group rest : List Nat) (hs : List (Nat × Nat × Bytes)) : ScanGroup :=
  { stripes := old.stripes ++ group, cands := group.filter (fun st => !(ruledOut p (old.headers ++ hs) st)),
    headers := old.headers ++ hs,
    values := old.values.filter (fun v => (group ++ rest).any (fun st => decide (p.blockOf v.column st = v.index))) }

/-- The blocks that a group settles as skipped: it holds the last of their stripes in the task, and every stripe of
theirs in the task was ruled out (R115). -/
def skippedBlocks (p : ScanPlan) (g : ScanGroup) (group rest : List Nat) : List (Nat × Nat) :=
  (testedBlocks p group).filter (fun b =>
    rest.all (fun st => decide (p.blockOf b.1 st ≠ b.2)) &&
    g.stripes.all (fun st => decide (p.blockOf b.1 st ≠ b.2) || ruledOut p g.headers st))

/-- HEADER_READ (R99): a task opens its next group of stripes, those of one anchor block; with no stripes left it
builds its LAST batches. -/
def execHeaderRead (t : Nat) (s : State) : Host.Outcome State Fault Refusal :=
  .next (withScan t s (fun x r p j q =>
    if scanNeed p x ≠ .open_ ∨ !(coolEnough s) then s
    else match x.stripes with
    | [] => buildLast t r s
    | first :: _ =>
      let k := p.blockOf 0 first
      let group := x.stripes.takeWhile (fun st => decide (p.blockOf 0 st = k))
      let rest := x.stripes.drop group.length
      match readHeaders q j.berth p (headersWanted p x.opened group) s with
      | (.error f, s1) => scanFailed q t x j.berth f s1
      | (.ok hs, s1) =>
        let g := openGroup p x.opened group rest hs
        let s2 := onScan t (fun x => { x with stripes := rest, group := some g })
          (countQ q 1 (skippedBlocks p g group rest).length s1)
        settleScan q t p r none s2))

/-! ### Blocks (R97, R103, R120, R122) -/

/-- Subchannels whose tasks a quay serves. -/
def servedBy (s : State) (q : Nat) : List Nat := [q, buddyOf q].filter (fun sub => decide (servingQuay s sub = some q))

/-- The block that a task would read next: column, index, entry. -/
def nextBlock (s : State) (e : Nat × ScanTask) : Option (Nat × Nat × DirEntry) :=
  match planOf s e.2, getJ s e.2.job with
  | some (_, p), some j =>
    match scanView s p e.2 j with
    | none => none
    | some v =>
      match scanNeed p v with
      | .block c k => ((p.dir c).entries[k]?).map (fun d => (c, k, d))
      | _ => none
  | _, _ => none

/-- The tasks of a subchannel that can start a block read. -/
def readers (s : State) (sub : Nat) : List (Nat × ScanTask) :=
  s.scans.filter (fun e => decide (e.2.sub = sub) && (nextBlock s e).isSome)

/-- The unparked tasks of a subchannel, which gain a quantum in each round (R97, R127). -/
def unparked (s : State) (sub : Nat) : List (Nat × ScanTask) :=
  s.scans.filter (fun e => decide (e.2.sub = sub) && e.2.active && decide (e.2.ready.length < 2))

/-- Quantum of a task (R97). -/
def scanQuantum (s : State) (t : ScanTask) : Nat :=
  256 * match (getJ s t.job).bind (fun j => j.berth) with
  | some b => max 1 (weightOf s b.val)
  | none => 1

/-- The task that reads next for a subchannel, and the balances after it (R97). -/
def pickReader (s : State) (sub : Nat) : Option (Nat × State) :=
  let cost (e : Nat × ScanTask) : Nat := ((nextBlock s e).map (fun b => b.2.2.footprint)).getD 0
  let need (e : Nat × ScanTask) : Nat := roundsTo e.2.balance (scanQuantum s e.2) (cost e)
  match findMin need (readers s sub) with
  | none => none
  | some e0 =>
    let k := need e0
    let s1 := (unparked s sub).foldl (fun s e =>
      onScan e.1 (fun t => { t with balance := t.balance + k * scanQuantum s e.2 }) s) s
    some (e0.1, onScan e0.1 (fun t => { t with balance := t.balance - cost e0 }) s1)

/-- The header of a block: read before, or read now with its checks. -/
def takeHeader (q : Nat) (tag : Option (Fin 512)) (p : ScanPlan) (g : ScanGroup) (c k : Nat) (e : DirEntry) (s : State) :
    Except StartFault Bytes × State :=
  match g.headers.find? (fun h => decide (h.1 = c) && decide (h.2.1 = k)) with
  | some h => (.ok h.2.2, s)
  | none =>
    match readHeader tag (p.dir c) k e s with
    | (.ok b, s1) => (.ok b, countRead q e.subchannel 64 s1)
    | (.error f, s1) => (.error f, s1)

/-- A block read by a quay whose stored payload is packed waits for a lane, or takes one (R120). -/
def takeLane (q t : Nat) (h : BlockHeader) (s : State) : State :=
  if h.packing = 1 ∨ h.packing = 2 then onQuay q (fun k => { k with lanes := k.lanes.erase t ++ [t] }) s else s

/-- The stored payload of a block is read, on its first or its second pass, and is in hand. The whole footprint counts as
read, the fill after the payload included (DESIGN CHOICE, log 209). -/
def readPayload (q t : Nat) (x : ScanTask) (j : Job) (c k : Nat) (e : DirEntry) (hb : Bytes) (again : Bool) (s : State) :
    State :=
  let h := parseHeader hb
  let rest := BlockHeader.footprint h - 64
  match dataRead j.berth (e.address + 64) rest e.firstRow s with
  | (.error f, s1) => scanFailed q t x j.berth f s1
  | (.ok body, s1) =>
    let s2 := countQ q 0 (b2n (!again)) (countRead q e.subchannel rest s1)
    takeLane q t h (onGroup t (fun g => { g with
      hand := some ⟨c, k, hb ++ body, decide (h.packing = 1 ∨ h.packing = 2), again⟩ }) s2)

/-- A task reads a block: header if it is not known, then the stored payload. -/
def readBlock (q t : Nat) (x : ScanTask) (p : ScanPlan) (j : Job) (c k : Nat) (e : DirEntry) (s : State) : State :=
  match x.group with
  | none => s
  | some g =>
    match takeHeader q j.berth p g c k e s with
    | (.error f, s1) => scanFailed q t x j.berth f s1
    | (.ok hb, s1) => readPayload q t x j c k e hb false s1

/-- BLOCK_READ (R97): a quay starts the next block read of one of its tasks; while it serves a pair, the two
subchannels take turns (R138). -/
def execBlockRead (q : Fin 32) (wait : BitVec 32) (s : State) : Host.Outcome State Fault Refusal :=
  let subs := servedBy s q.val
  let turn := (getQuay s q.val).turn
  let order := (subs.filter (fun x => decide (x % 2 = turn))) ++ subs.filter (fun x => !(decide (x % 2 = turn)))
  .next (if !(coolEnough s) then s else match order.findSome? (fun sub => (pickReader s sub).map (fun r => (sub, r))) with
    | none => s
    | some (sub, t, s1) =>
      let s2 := onQuay q.val (fun k => { k with turn := 1 - sub % 2 }) (countQ q.val 20 wait.toNat s1)
      withScan t s2 (fun x _ p j _ =>
        match scanNeed p x with
        | .block c k => match (p.dir c).entries[k]? with
          | some e => readBlock q.val t x p j c k e s2
          | none => s2
        | _ => s2))

/-- The tasks of a quay whose packed blocks are in inflate or wait for it, oldest first (R120). -/
def inflating (s : State) (q : Nat) : List Nat :=
  (getQuay s q).lanes.filter (fun t =>
    match getScan s t with
    | none => false
    | some x => decide (servingQuay s x.sub = some q) &&
        ((x.group.bind (fun g => g.hand)).map (fun h => h.inflating)).getD false)

/-- Inflate lanes of a quay (R120). -/
def inflateLanes : Nat := 16

/-- A lane has inflated the block in hand of a task. -/
def inflateHand (q t : Nat) (x : ScanTask) (j : Job) (h : Hand) (s : State) : State :=
  let s1 := onQuay q (fun k => { k with lanes := k.lanes.erase t }) s
  match unpackPayload (parseHeader h.stored) ((h.stored.drop 64).take (parseHeader h.stored).storedLength) with
  | .error f => scanFailed q t x j.berth (.fail f.1 f.2) s1
  | .ok _ => onGroup t (fun g => { g with hand := some { h with inflating := false } }) s1

/-- INFLATE_COMPLETE (R120): one of the 16 lanes of a quay has inflated a task's block. -/
def execInflateComplete (t : Nat) (busy : BitVec 32) (s : State) : Host.Outcome State Fault Refusal :=
  .next (withScan t s (fun x _ _ j q =>
    match x.group.bind (fun g => g.hand) with
    | some h =>
      if !(((inflating s q).take inflateLanes).contains t) then s
      else inflateHand q t x j h (countQ q 18 busy.toNat s)
    | none => s))

/-- The block in hand is checked, decoded and evaluated. A large VARLEN block is first only checked, and read again
(02, R73). -/
def evaluateHand (q t : Nat) (x : ScanTask) (r : Run) (p : ScanPlan) (j : Job) (only : Option Nat) (h : Hand) (s : State) :
    State :=
  let hd := parseHeader h.stored
  let stored := (h.stored.drop 64).take hd.storedLength
  if BlockHeader.twoPass hd && !h.again then
    match verifyPayload hd stored, (p.dir h.column).entries[h.index]? with
    | (.error f, surplus), _ => scanFailed q t x j.berth (.fail f.1 f.2) (countQ q 10 (b2n surplus) s)
    | _, some e => readPayload q t x j h.column h.index e (h.stored.take 64) true s
    | _, none => s
  else match decodeStored q j.berth r.dicts hd stored s with
  | (.error f, s1) => scanFailed q t x j.berth f s1
  | (.ok d, s1) =>
    settleScan q t p r only (onGroup t (fun g => { g with
      hand := none,
      values := { column := h.column, index := h.index, header := h.stored.take 64, ends := d.ends, values := d.values } ::
        g.values }) (rememberDict x.job d.dict s1))

/-- The second read of a large VARLEN block is a read, which a hot quay does not start. -/
def handStarts (s : State) (h : Hand) : Bool := coolEnough s || h.again || !(BlockHeader.twoPass (parseHeader h.stored))

/-- BLOCK_EVALUATE (R67): the block in hand is checked, decoded and evaluated. -/
def execBlockEvaluate (t : Nat) (busy : BitVec 32) (s : State) : Host.Outcome State Fault Refusal :=
  .next (withScan t s (fun x r p j q =>
    match x.group.bind (fun g => g.hand) with
    | some h =>
      if h.inflating ∨ 2 ≤ x.ready.length ∨ !(handStarts s h) then s
      else evaluateHand q t x r p j (onlyStripe s j x) h (countQ q 17 busy.toNat s)
    | none => s))

/-- A long value that a task needs is read (R117, R118). -/
def readLong (q t : Nat) (x : ScanTask) (r : Run) (p : ScanPlan) (j : Job) (only : Option Nat) (a n row : Nat) (s : State) :
    State :=
  if !(longOk (interBytes s) a n) then scanFailed q t x j.berth (.fail DataError.value.code row) s
  else match dataRead j.berth a n row s with
  | (.error f, s1) => scanFailed q t x j.berth f s1
  | (.ok b, s1) =>
    settleScan q t p r only (onGroup t (fun g => { g with longs := (a, n, b) :: g.longs })
      (countQ q 9 1 (countQ q 5 n s1)))

/-- LONG_VALUE_READ (R117, R118). -/
def execLongValueRead (t : Nat) (s : State) : Host.Outcome State Fault Refusal :=
  .next (withScan t s (fun x r p j q =>
    match scanNeed p x with
    | .long a n row => if !(coolEnough s) then s else readLong q t x r p j (onlyStripe s j x) a n row s
    | _ => s))

/-! ### The stripe in hand, finished at once (R141) -/

/-- A task still has work to do on the stripe that it has in hand. -/
def handBusy (s : State) (x : ScanTask) : Bool :=
  x.active && decide (x.ready.length < 2) && (servingQuay s x.sub).isSome &&
  match planOf s x with
  | some (_, p) => (handView p x).isSome
  | none => false

/-- One piece of the work on the stripe `st` that a task has in hand. -/
def handStep (q t : Nat) (x : ScanTask) (r : Run) (p : ScanPlan) (j : Job) (st : Nat) (s : State) : State :=
  match x.group.bind (fun g => g.hand) with
  | some h => if h.inflating then inflateHand q t x j h s else evaluateHand q t x r p j (some st) h s
  | none =>
    match scanNeed p x with
    | .block c k =>
      match (p.dir c).entries[k]? with
      | some e => readBlock q t x p j c k e s
      | none => s
    | .long a n row => readLong q t x r p j (some st) a n row s
    | _ => settleScan q t p r (some st) s

/-- The work on the stripe in hand, piece by piece. -/
def finishHand (t : Nat) : Nat → State → State
  | 0, s => s
  | fuel + 1, s =>
    match getScan s t with
    | none => s
    | some x =>
      if !(handBusy s x) then s
      else match planOf s x, getJ s x.job, servingQuay s x.sub with
        | some (r, p), some j, some q =>
          match handView p x, x.group.bind (handStripe p) with
          | some v, some st => finishHand t fuel (handStep q t v r p j st s)
          | _, _ => s
        | _, _, _ => s

/-- Pieces that a stripe can ask for: two passes over a block of each of 16 columns, with its inflate, and a long value
for each row of each. -/
def handFuel : Nat := 16 * 4 + 16 * 4096 + 1

/-! ### Egress (R126 to R128, R139, R164) -/

/-- The first ready batch of a task takes a buffer, if it waits for one (04, R167). -/
def layReady (t : Nat) (s : State) : State :=
  match getScan s t with
  | none => s
  | some x =>
    match x.ready with
    | (st, o) :: rest =>
      if o.batch.buffer.isSome then s
      else
        let (b, s1) := layBatch x.job o.batch s
        starved x.job b (onScan t (fun x => { x with ready := (st, { o with batch := b }) :: rest }) s1)
    | [] => s

/-- A scan task sends its first ready batch; with the last of a stripe its watermark moves on, and after LAST it is over
(R95). -/
def scanSend (t stall : Nat) (s : State) : State :=
  withScan t s (fun x r p j q =>
    match x.ready with
    | [] => s
    | (st, o) :: rest =>
      let s0 := countQ q 19 stall s
      if !(taking s j) ∨ o.batch.buffer.isNone ∨ !(creditFor r o.targets) then s0
      else
        let s1 := countQ q 7 ((batchBytes o.batch).length * o.targets.length) (launch x.job x.sub o s0)
        if o.batch.last then { s1 with scans := tblErase s1.scans t }
        else settleScan q t p r none (onScan t (fun x =>
          { x with ready := rest, watermark := (st.map (· + 1)).getD x.watermark, seq := (x.seq + 1) % 2 ^ 32 }) s1))

/-- A scan task's turn at the mesh. -/
def scanEgress (t stall : Nat) (s : State) : State := scanSend t stall (layReady t s)

/-- An instance sends its first finished batch, which DONEW has published. -/
def unitSend (j st i : Nat) (s : State) : State :=
  match getJ s j, getR s j with
  | some x, some r =>
    let n := getI r st i
    match n.out with
    | [] => s
    | o :: rest =>
      if !(taking s x) ∨ n.out.length ≤ n.heldOut ∨ o.batch.buffer.isNone ∨ !(creditFor r o.targets) then s
      else launch j i o (onI j st i (fun n => { n with out := rest }) s)
  | _, _ => s

/-- BATCH_EGRESS (R126, R164): a finished batch leaves when it has its buffer and credit for the whole of it is held.
`stall` is the time a scan's batch has waited for credit. -/
def execBatchEgress (sender : Sender) (stall : BitVec 32) (s : State) : Host.Outcome State Fault Refusal :=
  .next (match sender with
    | .scan t => scanEgress t stall.toNat s
    | .unit j st i => unitSend j st.val i.val (layOuts j st.val i.val s))

/-- Send a scan task back to its watermark (R137, R139): its stripes from there on, in a fresh state. -/
def resetScan (s : State) (x : ScanTask) : ScanTask :=
  match planOf s x, getR s x.job with
  | some (_, p), some r =>
    let range := match (r.image.stages[x.stage]?).map (fun g => g.body) with
      | some (.scan _ _ _ _ _ first stop _) => (first, stop)
      | _ => (0, 0)
    { x with stripes := (stripesOf s range.1 range.2 (p.dir 0) x.sub).filter (fun st => decide (x.watermark ≤ st)),
             group := none, ready := [], lastBuilt := false }
  | _, _ => x

/-! ## Position gathers (R129 to R133, R718) -/

/-- The rows of a batch in hand that take a gather lane: the next 16 without an outcome. -/
def nextLanes (out : List (Option Value)) : List Nat :=
  ((List.range out.length).filter (fun i => (out.getD i none).isNone)).take 16

/-- The stored payload of a block read for a gather; a large VARLEN block is read a second time once its first reading
has been verified (02, R73). -/
def gatherPayload (q : Nat) (b : Option (Fin 512)) (pos : Nat) (e : DirEntry) (h : BlockHeader) (s : State) :
    Except StartFault Bytes × State :=
  let rest := BlockHeader.footprint h - 64
  match dataRead b (e.address + 64) rest pos s with
  | (.error f, s1) => (.error f, s1)
  | (.ok body, s1) =>
    let s2 := countQ q 0 1 (countRead q e.subchannel rest s1)
    if !(BlockHeader.twoPass h) then (.ok body, s2)
    else match verifyPayload h (body.take h.storedLength) with
    | (.error f, surplus) => (.error (.fail f.1 f.2), countQ q 10 (b2n surplus) s2)
    | (.ok _, _) =>
      match dataRead b (e.address + 64) rest pos s2 with
      | (.error f, s3) => (.error f, s3)
      | (.ok again, s3) => (.ok again, countRead q e.subchannel rest s3)

/-- The values of the block that holds a position: kept from an earlier lane of the gather, or read and decoded; a fault
names the position. Ownership of every granule of the footprint that the directory entry states is checked first (R132;
DESIGN CHOICE, log 210). -/
def gatherBlock (q j : Nat) (b : Option (Fin 512)) (d : Directory) (pos k : Nat) (e : DirEntry)
    (kept : List (Nat × List Value)) (s : State) : Except StartFault (List Value) × State :=
  match kept.find? (fun x => decide (x.1 = k)) with
  | some x => (.ok x.2, s)
  | none =>
    match refusal s b false e.address (max 64 e.footprint) with
    | some (.violation x) => (.error (.violation x), s)
    | _ =>
    match readHeader b d k e s with
    | (.error f, s1) => (.error (f.atRow pos), s1)
    | (.ok hb, s1) =>
      let h := parseHeader hb
      match gatherPayload q b pos e h (countRead q e.subchannel 64 s1) with
      | (.error f, s2) => (.error (f.atRow pos), s2)
      | (.ok body, s2) =>
        match decodeStored q b (((getR s2 j).map (fun r => r.dicts)).getD []) h (body.take h.storedLength) s2 with
        | (.error f, s3) => (.error (f.atRow pos), s3)
        | (.ok x, s3) =>
          (.ok x.values, countQ q 6 (decodedBytes h x.values (List.range h.rowCount)) (rememberDict j x.dict s3))

/-- One lane: its value, or its fault; and the blocks kept so far (R129, R130, R132). -/
def gatherLane (q : Nat) (j : Nat) (b : Option (Fin 512)) (d : Directory) (inline_ : Bool) (pos : Nat)
    (kept : List (Nat × List Value)) (s : State) : Except StartFault (Value × List (Nat × List Value)) × State :=
  match Directory.entryOf d pos with
  | none => (.error (.fail 0x0210 pos), s)
  | some (k, e) =>
    match gatherBlock q j b d pos k e kept s with
    | (.error f, s1) => (.error f, s1)
    | (.ok vs, s1) =>
      let v := vs.getD (pos - e.firstRow) .null
      let keep := ((k, vs) :: kept.filter (fun x => !(decide (x.1 = k)))).take 16
      match v, inline_ with
      | .long a n _, true =>
        match dataRead b a n pos s1 with
        | (.error f, s2) => (.error f, s2)
        | (.ok bytes, s2) => (.ok (.str bytes, keep), countQ q 9 1 (countQ q 5 n s2))
      | _, _ => (.ok (v, keep), s1)

/-- Lanes in order up to the first fault: values by row, and the fault (R130). -/
def gatherLanes (q j : Nat) (b : Option (Fin 512)) (d : Directory) (inline_ : Bool) :
    List (Nat × Nat) → List (Nat × List Value) → State → List (Nat × Value) × Option StartFault × State
  | [], _, s => ([], none, s)
  | (row, pos) :: rest, kept, s =>
    match gatherLane q j b d inline_ pos kept s with
    | (.error f, s1) => ([], some f, s1)
    | (.ok (v, keep), s1) =>
      let (vs, f, s2) := gatherLanes q j b d inline_ rest keep s1
      ((row, v) :: vs, f, s2)

/-- Append a column of outcomes to a batch (R718). -/
def withColumn (b : Batch) (t sc : Nat) (out : List (Option Value)) : Batch :=
  { b with last := false, firstRow := allOnes, columns := b.columns ++ [⟨t, sc, out.map (fun v => v.getD .null)⟩] }

/-- Push a batch with a column appended, unless it has no rows. -/
def pushFull (j st i : Nat) (r : Run) (g : Stage) (b : Batch) (s : State) : State :=
  if b.rows = 0 then s else pushWhole j st i 0 (plainTargets r st 0 i) (g.schemas.getD 0 []) b s

/-- The first `n` rows of a batch. -/
def batchHead (n : Nat) (b : Batch) : Batch :=
  { b with rows := n, positions := b.positions.map (·.take n), selection := b.selection.map (·.take n),
           columns := b.columns.map (fun c => { c with values := c.values.take n }), buffer := none }

/-- Outcomes of a batch before any lane: rows that take none have NULL (R718). -/
def laneOutcomes (b : Batch) (col : Nat) : List (Option Value) :=
  (List.range b.rows).map (fun i =>
    if batchHas b i && ((batchRow b i).getD col .null != .null) then none else some .null)

/-- A FETCH instance takes batches from its queue until one has lanes outstanding (R718). -/
def fetchIntake (j st i : Nat) (g : Stage) (col t sc : Nat) : Nat → State → State
  | 0, s => s
  | fuel + 1, s =>
    match getR s j with
    | none => s
    | some r =>
      let n := getI r st i
      match n.work, n.queue with
      | .inHand a out, _ =>
        if out.all (·.isSome) then
          let s1 := putWork0 j st i s
          let s2 := finishBatch j st i a (pushFull j st i r g (withColumn a.batch t sc out) s1)
          fetchIntake j st i g col t sc fuel (if inputDone s2 j st i then endInst j st i s2 else s2)
        else s
      | _, a :: q =>
        if !(outCovered r n) then s
        else fetchIntake j st i g col t sc fuel (onI j st i (fun n => { n with work := .inHand a (laneOutcomes a.batch col) })
          (takeBatch j st i a q s))
      | _, [] => s
where
  /-- The instance has no batch in hand. -/
  putWork0 (j st i : Nat) (s : State) : State := onI j st i (fun n => { n with work := .idle }) s

/-- GATHER_GROUP (R129, R130): the next group of up to 16 lanes of a FETCH instance's batch in hand. -/
def execGatherGroup (job : Nat) (stage : Fin 256) (inst : Fin 16) (s : State) : Host.Outcome State Fault Refusal :=
  .next (withInst job stage.val inst.val s (fun x r g n =>
    let st := stage.val
    let i := inst.val
    match g.body, n.work, (tblGet [] r.dirs st) with
    | .fetch _ _ col t sc inline_, .inHand a out, d :: _ =>
      let lanes := (nextLanes out).map (fun k => (k, valPattern ((batchRow a.batch k).getD col .null)))
      match lanes with
      | [] => fetchIntake job st i g col t sc (2 * n.queue.length + 2) s
      | (_, pos0) :: _ =>
        let sub := ((Directory.entryOf d pos0).map (fun e => e.2.subchannel)).getD ((presentSubs s).headD 0)
        match (if coolEnough s then servingQuay s sub else none) with
        | none => s
        | some q =>
          let (vs, f, s1) := gatherLanes q job x.berth d inline_ lanes [] s
          let out1 := vs.foldl (fun o v => o.set v.1 (some v.2)) out
          let s2 := countQ q 8 vs.length (onI job st i (fun n => { n with work := .inHand a out1 }) s1)
          match f with
          | some (.fail c p) =>
            let before := batchHead ((((lanes.drop vs.length).head?).map (·.1)).getD 0) (withColumn a.batch t sc out1)
            countQ q 14 1 (quayFault q job c p (pushFull job st i r g before s2))
          | some f => quayFailed q job x.berth f s2
          | none =>
            if out1.all (·.isSome) then fetchIntake job st i g col t sc (2 * n.queue.length + 2) s2 else s2
    | _, _, _ => s))

end Sys2Proof.Machine
end

