-- ==== Sys2Proof/Machine/Compression.lean ====
section
/-! DEFINITION. Compression engines (13_cranes_compression_digest.md, R557 to R564; 02_column_blocks.md, R91 to R93;
16, R671): COMPRESS, DECOMPRESS and the frames that the engines finish. -/

namespace Sys2Proof.Machine

def countZ (e i n : Nat) (s : State) : State := count (.compression (Fin.ofNat 4 e)) i n s
def getFrames (s : State) (j : Nat) : Option FrameJob := tblFind s.eng.frameJobs j
def onFrames (j : Nat) (f : FrameJob → FrameJob) (s : State) : State :=
  match tblFind s.eng.frameJobs j with
  | none => s
  | some x => onEng (fun e => { e with frameJobs := tblSet e.frameJobs j (f x) }) s
def startFrames (j : Nat) (f : FrameJob) (s : State) : State :=
  onEng (fun e => { e with frameJobs := tblSet e.frameJobs j f }) s

/-- An engine takes frames: present and serving (R557). -/
def engineServes (s : State) (e : Nat) : Bool := s.present.compression.getLsbD e && decide (tblGet 0 s.eng.compState e = 0)

/-- A place named by an address and a bit of LOCATION. -/
def placeAt (location bit addr : Nat) : Side := if bitOf location bit then .device addr else .host addr

/-- A read of that place waits while host reads do. -/
def sideWaits (s : State) : Side → Bool
  | .host _ => hostBlocked s
  | .device _ => false

/-! ## Body fields (R558, R561) -/

/-- LOCATION of a COMPRESS and of a DECOMPRESS entry. -/
def frameLocation (x : Job) : Nat := if x.opcode = 0x30 then bodyField x 0x3A 1 else bodyField x 0x3C 1
def frameSrc (x : Job) : Side := placeAt (frameLocation x) 0 (bodyField x 0x18 8)
def frameDst (x : Job) : Side := placeAt (frameLocation x) 1 (bodyField x 0x20 8)
def frameIndexAt (x : Job) : Nat := bodyField x 0x28 8
def frameIndex (x : Job) : Side := placeAt (frameLocation x) 2 (frameIndexAt x)
def frameSrcLength (x : Job) : Nat := bodyField x 0x30 4
def frameDstLength (x : Job) : Nat := bodyField x 0x34 4

/-- The fault of a COMPRESS entry. -/
def compressFault (x : Job) : Option (Nat × Nat) :=
  let kib := bodyField x 0x38 1
  let packing := bodyField x 0x39 1
  firstFault
    [(decide (lenGranules x = 1), engineBody, 1),
     (decide (bodyField x 0x20 8 % 8 = 0), engineBody, 0x20),
     (decide (frameIndexAt x % 16 = 0), engineBody, 0x28),
     (decide (1 ≤ frameSrcLength x), engineBody, 0x30),
     (decide (4 ≤ kib) && decide (kib ≤ 64), engineBody, 0x38),
     (decide (packing = 1) || decide (packing = 2), engineBody, 0x39),
     (decide (frameLocation x < 8), engineBody, 0x3A),
     zeroRange x engineBody 0x3B 5]

/-- The fault of a DECOMPRESS entry. -/
def decompressFault (x : Job) : Option (Nat × Nat) :=
  let whole := decide (frameIndexAt x = 0)
  firstFault
    [(decide (lenGranules x = 1), engineBody, 1),
     (decide (bodyField x 0x18 8 % 8 = 0), engineBody, 0x18),
     (decide (16 ≤ frameSrcLength x), engineBody, 0x30),
     (whole || decide (1 ≤ frameDstLength x), engineBody, 0x34),
     (!whole || decide (bodyField x 0x38 4 = 0), engineBody, 0x38),
     (decide (frameLocation x < 8), engineBody, 0x3C),
     zeroRange x engineBody 0x3D 3]

/-! ## Committing frames (R557, R560, R564) -/

/-- A transfer of a frame job that stopped. -/
def frameStops (j : Nat) (x : Job) (e : MoveStop) (s : State) : State := moveFailed j x.berth e s

/-- The index header of a COMPRESS, when the job ends DONE or FAILED (R560). -/
def indexHeader (x : Job) (f : FrameJob) (s : State) : Option MoveStop × State :=
  if x.opcode = 0x30 ∧ frameIndexAt x ≠ 0 then
    writeSide x.berth (frameIndex x) ([0x05, 0, 0, 0] ++ natLe 4 f.next ++ natLe 8 f.raw) s
  else (none, s)

/-- The job ends, after its index header. -/
def framesEnd (j : Nat) (x : Job) (f : FrameJob) (e : JobEnd) (s : State) : State :=
  match indexHeader x f s with
  | (some stop, s1) => frameStops j x stop s1
  | (none, s1) => settle j e s1

/-- The frame as a stream holds it (R91). -/
def frameBytes (d : FrameDone) : Bytes := d.bytes ++ List.replicate (roundUp d.bytes.length 8 - d.bytes.length) 0

/-- Commit a compressed frame: the stream, the index entry, the counters. -/
def commitCompressed (j : Nat) (x : Job) (f : FrameJob) (d : FrameDone) (s : State) : State :=
  let b := frameBytes d
  if frameDstLength x < f.out + b.length then framesEnd j x f ⟨5, 0x0804, f.next⟩ s
  else match writeSide x.berth ((frameDst x).plus f.out) b s with
    | (some e, s1) => frameStops j x e s1
    | (none, s1) =>
      let entry := natLe 8 f.out ++ natLe 8 f.raw
      let r := if frameIndexAt x = 0 then (none, s1)
        else writeSide x.berth ((frameIndex x).plus (16 + 16 * f.next)) entry s1
      match r with
      | (some e, s2) => frameStops j x e s2
      | (none, s2) =>
        advanceTo j (f.next + 1) (f.out + b.length)
          (onFrames j (fun f => { f with next := f.next + 1, out := f.out + b.length, raw := f.raw + d.raw }) s2)

/-- Commit a decoded frame: in index mode without the bytes before RAW_OFFSET and past DST_LENGTH (R562, R563). -/
def commitDecoded (j : Nat) (x : Job) (f : FrameJob) (d : FrameDone) (s : State) : State :=
  let whole := decide (frameIndexAt x = 0)
  let cut := if f.next = 0 then d.bytes.drop f.skip else d.bytes
  let b := if whole then cut else cut.take (frameDstLength x - f.out)
  if whole ∧ frameDstLength x < f.out + b.length then framesEnd j x f ⟨5, 0x0804, f.base + f.next⟩ s
  else match (if b.isEmpty then (none, s) else writeSide x.berth ((frameDst x).plus f.out) b s) with
    | (some e, s1) => frameStops j x e s1
    | (none, s1) =>
      advanceTo j (f.next + 1) (f.out + b.length)
        (onFrames j (fun f => { f with next := f.next + 1, out := f.out + b.length, raw := f.raw + d.raw }) s1)

/-- Commit one frame that is finished and next, or end the job. -/
def commitNext (j : Nat) (s : State) : State :=
  match getJ s j, getFrames s j with
  | some x, some f =>
    if x.result.isSome then s
    else if f.frames.length ≤ f.next then
      match f.tail with
      | some (c, p) => framesEnd j x f ⟨5, c, p⟩ s
      | none => framesEnd j x f ⟨4, 0, 0⟩ s
    else match tblFind f.done f.next with
      | none => s
      | some d =>
        match d.fault with
        | some (c, p) => framesEnd j x f ⟨5, c, p⟩ s
        | none => if x.opcode = 0x30 then commitCompressed j x f d s else commitDecoded j x f d s
  | _, _ => s

/-- Commit in frame order as far as frames are finished. -/
def commitFrames (j : Nat) (s : State) : State :=
  Nat.repeat (commitNext j) (((getFrames s j).map (fun f => f.frames.length - f.next)).getD 0 + 1) s

/-! ## COMPRESS -/

/-- UNIT(UNAVAILABLE) where every engine is retired; P64 is the first of them (16, R671). -/
def withoutEngines (j : Nat) (s : State) : State := endFailed j 0x0901 64 s

/-- Frames of FRAME_KIB × 1,024 raw bytes; the last takes the rest (R559). -/
def cutInput (size total : Nat) : List (Nat × Nat) :=
  (List.range (ceilDiv total size)).map (fun i => (i * size, min size (total - i * size)))

/-- COMPRESS (R558, R559). -/
def execCompress (job : Nat) (s : State) : Host.Outcome State Fault Refusal :=
  .next (withJob 0x30 job s (fun x =>
    if x.begun then s
    else match compressFault x with
    | some (c, p) => endFailed job c p s
    | none =>
      if s.present.compression = 0 then withoutEngines job s
      else
        let f : FrameJob := { compress := true, frames := cutInput (bodyField x 0x38 1 * 1024) (frameSrcLength x) }
        startFrames job f (beginJob job s)))

/-- The stored bytes of a raw frame and its PACKING: DEFLATE output that inflates back and is shorter, else the raw
bytes (R559, 02 R66). -/
def packFrame (kib packing : Nat) (raw : Bytes) : Nat × Bytes :=
  let d := Config.deflate Config.compressRevision kib packing raw
  let good : Bool := match inflate raw.length d with
    | .ok r => decide (r = (raw, false))
    | .error _ => false
  if d.length < raw.length ∧ good then (packing, d) else (3, raw)

/-- The frame header and stored bytes of a raw frame (02, R91). -/
def buildFrame (kib packing : Nat) (raw : Bytes) : FrameDone :=
  let r := packFrame kib packing raw
  { bytes := natLe 4 raw.length ++ natLe 4 r.2.length ++ natLe 4 (crc32c raw).toNat ++ [BitVec.ofNat 8 r.1, 0x04, 0, 0] ++ r.2,
    raw := raw.length, stored := decide (r.1 = 3), fault := none }

/-! ## DECOMPRESS -/

/-- DATA_ERROR(HEADER) and (LENGTH), DECOMPRESS(INDEX). -/
def badIndex : Nat := 0x0805

/-- The rules of a frame header (02, R91); `last` holds for the last frame of the stream. -/
def frameHeadOk (h : Bytes) (last : Bool) : Bool :=
  let raw := field h 0 4
  let stored := field h 4 4
  let packing := field h 12 1
  (decide (packing = 1) || decide (packing = 2) || decide (packing = 3)) && decide (field h 13 1 = 4) &&
  allZero (slice h 14 2) && decide (raw ≤ 65536) && (decide (4096 ≤ raw) || (last && decide (1 ≤ raw))) &&
  (if packing = 3 then decide (stored = raw) else decide (stored ≤ raw))

/-- What cutting a stream into frames gives: the frames, a fault that follows them, or a transfer that stopped. -/
inductive Cut where
  | frames (l : List (Nat × Nat)) (tail : Option (Nat × Nat))
  | stop (e : MoveStop)
  deriving DecidableEq, Repr

/-- Cut the stream from offset `o`, where frame `k` begins; `want` raw bytes are wanted in index mode. -/
def cutStream (x : Job) : Nat → Nat → Nat → Option Nat → List (Nat × Nat) → State → Cut × State
  | 0, _, _, _, acc, s => (.frames acc.reverse none, s)
  | fuel + 1, o, k, want, acc, s =>
    if want = some 0 then (.frames acc.reverse none, s)
    else if frameSrcLength x ≤ o then
      (.frames acc.reverse (if want.isSome then some (0x0203, k) else none), s)
    else if frameSrcLength x < o + 16 then (.frames acc.reverse (some (0x0203, k)), s)
    else match readSide x.berth ((frameSrc x).plus o) 16 s with
      | (.error e, s1) => (.stop e, s1)
      | (.ok h, s1) =>
        let size := 16 + roundUp (field h 4 4) 8
        let last := decide (frameSrcLength x ≤ o + size)
        if !(frameHeadOk h last) then (.frames acc.reverse (some (0x0201, k)), s1)
        else if frameSrcLength x < o + 16 + field h 4 4 then (.frames acc.reverse (some (0x0203, k)), s1)
        else cutStream x fuel (o + size) (k + 1) (want.map (fun w => w - field h 0 4))
          ((o, 16 + field h 4 4) :: acc) s1

/-- The last index entry whose RAW_OFFSET is at most the one wanted, entries read in order: its number, STREAM_OFFSET
and RAW_OFFSET. -/
def findEntry (x : Job) (count want : Nat) : Nat → Nat → Option (Nat × Nat × Nat) → State →
    Except MoveStop (Option (Nat × Nat × Nat)) × State
  | 0, _, best, s => (.ok best, s)
  | fuel + 1, k, best, s =>
    if count ≤ k then (.ok best, s)
    else match readSide x.berth ((frameIndex x).plus (16 + 16 * k)) 16 s with
      | (.error e, s1) => (.error e, s1)
      | (.ok b, s1) =>
        if want < field b 8 8 then (.ok best, s1)
        else findEntry x count want fuel (k + 1) (some (k, field b 0 8, field b 8 8)) s1

/-- The start of index mode: frame number, stream offset, raw bytes to discard; or a fault; or a stop (R563). -/
def indexStart (x : Job) (s : State) : Except (MoveStop ⊕ (Nat × Nat)) (Nat × Nat × Nat) × State :=
  let want := bodyField x 0x38 4
  match readSide x.berth (frameIndex x) 16 s with
  | (.error e, s1) => (.error (.inl e), s1)
  | (.ok h, s1) =>
    if field h 0 1 ≠ 0x05 then (.error (.inr (badIndex, 0)), s1)
    else match ((List.range 3).find? (fun i => h.getD (1 + i) 0 != 0)) with
    | some i => (.error (.inr (badIndex, 1 + i)), s1)
    | none =>
      if field h 8 8 ≤ want then (.error (.inr (badIndex, 8)), s1)
      else match findEntry x (field h 4 4) want (field h 4 4) 0 none s1 with
        | (.error e, s2) => (.error (.inl e), s2)
        | (.ok none, s2) => (.error (.inr (badIndex, 0x18)), s2)
        | (.ok (some (k, stream, raw)), s2) =>
          if frameSrcLength x ≤ stream then (.error (.inr (badIndex, 0x10 + 16 * k)), s2)
          else (.ok (k, stream, want - raw), s2)

/-- A data error of 02, R74. -/
def isDataError (fault : Option (Nat × Nat)) : Bool := fault.any (fun f => decide (0x0201 ≤ f.1) && decide (f.1 ≤ 0x0209))

/-- No data error of the job has been found yet. -/
def soundSoFar (f : FrameJob) : Bool := !(isDataError f.tail) && f.done.all (fun e => !(isDataError e.2.fault))

/-- A data error found by an engine: counted, and the first of its job recorded (02, R75). -/
def engineDataError (e : Nat) (first : Bool) (fault : Option (Nat × Nat)) (s : State) : State :=
  match fault with
  | some (c, p) =>
    if !(isDataError fault) then s
    else if first then dataRecord (0x0500 + e) c p (countZ e 5 1 s) else countZ e 5 1 s
  | none => s

/-- The lowest engine that serves. -/
def firstEngine (s : State) : Nat := (lowestBelow 4 (engineServes s)).getD 0

/-- Start decoding from a frame. -/
def decodeFrom (j : Nat) (x : Job) (k o skip : Nat) (want : Option Nat) (s : State) : State :=
  match cutStream x (frameSrcLength x / 16 + 2) o k want [] s with
  | (.stop e, s1) => frameStops j x e s1
  | (.frames l tail, s1) =>
    let f : FrameJob := { compress := false, frames := l, tail := tail, base := k, skip := skip }
    commitFrames j (startFrames j f (engineDataError (firstEngine s1) true tail s1))

/-- The whole start of a DECOMPRESS. -/
def decompressRun (j : Nat) (x : Job) (s : State) : State :=
  if frameIndexAt x = 0 then decodeFrom j x 0 0 0 none (beginJob j s)
  else match indexStart x (beginJob j s) with
    | (.error (.inl e), s1) => frameStops j x e s1
    | (.error (.inr (c, p)), s1) => endFailed j c p s1
    | (.ok (k, o, skip), s1) => decodeFrom j x k o skip (some (skip + frameDstLength x)) s1

/-- DECOMPRESS (R561 to R563). -/
def execDecompress (job : Nat) (h : HostView) (s : State) : Host.Outcome State Fault Refusal :=
  .next (withJob 0x31 job s (fun x =>
    let s0 := hostSync h s
    if x.begun then s0
    else match decompressFault x with
    | some (c, p) => endFailed job c p s0
    | none =>
      if s0.present.compression = 0 then withoutEngines job s0
      else if sideWaits s0 (frameSrc x) || (decide (frameIndexAt x ≠ 0) && sideWaits s0 (frameIndex x)) then s0
      else decompressRun job x s0))

/-! ## FRAME_COMPLETE -/

/-- A frame decoded: its raw bytes, or a data error at the frame's number (02, R93). -/
def decodeFrame (b : Bytes) (last : Bool) (k : Nat) : FrameDone :=
  let bad (c : Nat) : FrameDone := { bytes := [], raw := 0, stored := false, fault := some (c, k) }
  let stored := b.drop 16
  let raw := field b 0 4
  if !(frameHeadOk b last) then bad 0x0201
  else if stored.length < field b 4 4 then bad 0x0203
  else
    let r : Except InflateError Bytes :=
      if field b 12 1 = 3 then .ok (stored.take raw)
      else (inflate raw (stored.take (field b 4 4))).map (·.1)
    match r with
    | .error .stream => bad 0x0205
    | .error .length => bad 0x0203
    | .ok d =>
      if (crc32c d).toNat ≠ field b 8 4 then bad 0x0204
      else { bytes := d, raw := raw, stored := decide (field b 12 1 = 3), fault := none }

/-- What an engine makes of the bytes of a frame. -/
def engineFrame (x : Job) (f : FrameJob) (i o : Nat) (b : Bytes) : FrameDone :=
  if f.compress then buildFrame (bodyField x 0x38 1) (bodyField x 0x39 1) b
  else decodeFrame b (decide (frameSrcLength x ≤ o + 16 + roundUp (field b 4 4) 8)) (f.base + i)

/-- The engine's counters for a frame. -/
def countFrame (e : Nat) (compress first : Bool) (packed : Nat) (d : FrameDone) (s : State) : State :=
  if d.fault.isSome then engineDataError e first d.fault s
  else countZ e 4 packed (countZ e 3 d.raw (if compress then countZ e (if d.stored then 1 else 0) 1 s else countZ e 2 1 s))

/-- One engine reads a frame, works on it and hands it over. -/
def runFrame (j : Nat) (x : Job) (f : FrameJob) (i e : Nat) (place : Nat × Nat) (s : State) : State :=
  match readSide x.berth ((frameSrc x).plus place.1) place.2 s with
  | (.error (.device a (.violation v)), s1) => frameStops j x (.device a (.violation v)) s1
  | (.error (.device a _), s1) =>
    commitFrames j (onFrames j (fun f => { f with done := tblSet f.done i ⟨[], 0, false, some (0x0803, a)⟩ }) s1)
  | (.error (.host a), s1) =>
    commitFrames j (onFrames j (fun f => { f with done := tblSet f.done i ⟨[], 0, false, some (0x0101, a)⟩ }) s1)
  | (.ok b, s1) =>
    let d := engineFrame x f i place.1 b
    let packed := (if f.compress then d.bytes else b).length - 16
    commitFrames j (onFrames j (fun f => { f with done := tblSet f.done i d })
      (countFrame e f.compress (soundSoFar f) packed d s1))

/-- FRAME_COMPLETE (R557), with the engine's busy cycles measured. -/
def execFrameComplete (job : Nat) (frame : Nat) (engine : Fin 4) (busy : BitVec 32) (h : HostView) (s : State) :
    Host.Outcome State Fault Refusal :=
  let s0 := countZ engine.val 6 busy.toNat (hostSync h s)
  .next (match getJ s job, getFrames s job with
    | some x, some f =>
      match f.frames[frame]? with
      | some place =>
        if !(workable s x) ∨ !(engineServes s engine.val) ∨ (tblFind f.done frame).isSome then hostSync h s
        else if sideWaits s0 (frameSrc x) then s0
        else runFrame job x f frame engine.val place s0
      | none => hostSync h s
    | _, _ => hostSync h s)

end Sys2Proof.Machine
end

