-- ==== Sys2Proof/Machine/System.lean ====
section
/-! DEFINITION. The system class of a Vunal core (07_vunal_cores.md, R289, R292, R295 to R300, R316 to R318, R327 to
R332): exceptions raised on purpose, returns, system registers, interrupts, and the vector configuration. -/

namespace Sys2Proof.Machine

/-! ## Vector configuration (R298) -/

/-- Element width in bits of a code of EW. -/
def widthOf (ew : Nat) : Nat := 8 * 2 ^ ew

/-- VLMAX of an EW and a VG. -/
def vlmax (ew vg : Nat) : Nat := 512 * 2 ^ vg / widthOf ew

/-- VCFG of a core. -/
def vcfg (k : Core) : Word := BitVec.ofNat 64 (k.ew.toNat + k.vg.toNat * 8 + k.vl.toNat * 32)

/-- A VCFG value that may be written (R299). -/
def vcfgOk (v : Word) : Bool :=
  let ew := bitsOf v.toNat 0 3
  decide (ew ≤ 4) && decide (bitsOf v.toNat 5 10 ≤ vlmax ew (bitsOf v.toNat 3 2))

/-- Set VCFG. -/
def setVcfg (ew vg vl : Nat) (k : Core) : Core :=
  { k with ew := BitVec.ofNat 3 ew, vg := BitVec.ofNat 2 vg, vl := BitVec.ofNat 10 vl }

/-- SETVL (R300). -/
def execSetvl (c : Fin 129) (gd gs : Fin 32) (ew : Fin 8) (vg : Fin 4) (s : State) :
    Host.Outcome State Fault Refusal :=
  .next (atLevel 1 c s (fun k =>
    if 5 ≤ ew.val then illegal c s
    else
      let vl := min (getG k gs).toNat (vlmax ew.val vg.val)
      finish c (fun k => setG gd (BitVec.ofNat 64 vl) (setVcfg ew.val vg.val vl k)) s))

/-! ## System registers (R296) -/

/-- A system register's value at a level, if it has a number and the level may use it (R289). -/
def sysRead (cycle : Word) (c : Fin 129) (level number : Nat) (k : Core) : Option Word :=
  match number with
  | 0x000 => some (k.fcsr.setWidth 64)
  | 0x001 => some cycle
  | 0x010 => if 1 ≤ level then some (vcfg k) else none
  | 0x011 => if 1 ≤ level then some (if k.sov then 1 else 0) else none
  | 0x100 => if 2 ≤ level then
      some (BitVec.ofNat 64 (k.excCause.toNat + k.excLevel.toNat * 2 ^ 8 + k.excElement.toNat * 2 ^ 10)) else none
  | 0x101 => if 2 ≤ level then some k.excPc else none
  | 0x102 => if 2 ≤ level then some k.excAddr else none
  | 0x110 => if 2 ≤ level then some (BitVec.ofNat 64 ((if k.structEn then 1 else 0) + c.val * 2)) else none
  | _ => none

/-- A system register written; read-only fields and registers keep their values (00_scope.md, R10). -/
def sysWrite (number : Nat) (v : Word) (k : Core) : Option Core :=
  match number with
  | 0x000 => some { k with fcsr := v.setWidth 8 }
  | 0x010 => if vcfgOk v then some (setVcfg (bitsOf v.toNat 0 3) (bitsOf v.toNat 3 2) (bitsOf v.toNat 5 10) k) else none
  | 0x011 => some { k with sov := k.sov && !(v.getLsbD 0) }
  | 0x101 => some { k with excPc := v }
  | 0x102 => some { k with excAddr := v }
  | _ => some k

/-- CSRR (R296). -/
def execCsrr (c : Fin 129) (gd : Fin 32) (number : BitVec 12) (s : State) : Host.Outcome State Fault Refusal :=
  .next (coreStep c s (fun k =>
    match sysRead s.sys.cycle c k.level.toNat number.toNat k with
    | some v => finish c (setG gd v) s
    | none => illegal c s))

/-- CSRW (R299). -/
def execCsrw (c : Fin 129) (number : BitVec 12) (gs : Fin 32) (s : State) : Host.Outcome State Fault Refusal :=
  .next (coreStep c s (fun k =>
    if (sysRead s.sys.cycle c k.level.toNat number.toNat k).isNone then illegal c s
    else match sysWrite number.toNat (getG k gs) k with
    | some k1 => finish c (fun _ => k1) s
    | none => illegal c s))

/-! ## Exceptions, returns and interrupts -/

/-- ECALL: a service request below runtime level (R328, R329). -/
def execEcall (c : Fin 129) (s : State) : Host.Outcome State Fault Refusal :=
  .next (coreStep c s (fun k => if k.level = 2 then illegal c s else raise c 6 0 0 s))

/-- EBREAK (R328). -/
def execEbreak (c : Fin 129) (s : State) : Host.Outcome State Fault Refusal :=
  .next (coreStep c s (fun _ => raise c 5 0 0 s))

/-- ERET (R327): back to EXC_PC at the level that EXC_CAUSE names. -/
def execEret (c : Fin 129) (s : State) : Host.Outcome State Fault Refusal :=
  .next (atLevel 2 c s (fun _ => onCore c.val (fun k => { k with pc := k.excPc, level := k.excLevel }) s))

/-- IFLUSH (R295). -/
def execIflush (c : Fin 129) (s : State) : Host.Outcome State Fault Refusal :=
  .next (atLevel 2 c s (fun _ => finish c (fun k => { k with codeSeen := s.dev.now }) s))

/-- WFI (R292): the core waits, unless an interrupt is pending. -/
def execWfi (c : Fin 129) (s : State) : Host.Outcome State Fault Refusal :=
  .next (atLevel 2 c s (fun _ =>
    finish c (fun k => { k with waiting := if k.interrupt then .none else .wfi }) s))

/-- Record an interrupt: its CAUSE is open (R328 lists exceptions only). -/
def recordInterrupt (c : Nat) (s : State) : State :=
  let r := takeFresh s
  onCore c (fun k => { k with
    excCause := (Config.freeWord r.1).setWidth 8, excLevel := k.level, excElement := 0, excPc := k.pc, excAddr := 0,
    reservation := none, waiting := .none, interrupt := false }) r.2

/-- Take an interrupt: the buffer drains; a store that erred is raised instead, and the interrupt stays pending
(R332; 08, R351, R353). -/
def takeInterrupt (c : Nat) (body : State → State) (s : State) : State :=
  let s1 := drain c s
  match (getCore s1 c).pendingError with
  | some a => enter c 4 0 a (onCore c (fun k => { k with pendingError := none, interrupt := true }) s1)
  | none => body (recordInterrupt c s1)

/-- RUNTIME_TICK (16, R660): the interrupt of the 20 µs tick, its handler, and the return. -/
def execRuntimeTick (c : Fin 129) (s : State) : Host.Outcome State Fault Refusal :=
  .next (if coreRuns s c then takeInterrupt c.val (onCore c.val (fun k => { k with watchdog := s.sys.time })) s else s)

/-- CORE_MODE_WRITE (R317, R318, R343): a store of a core to a control block. Only runtime-level code of the
Harbourmaster may make it; another core's store is answered with an error. -/
def execCoreModeWrite (writer c : Fin 129) (value : BitVec 64) (s : State) : Host.Outcome State Fault Refusal :=
  .next (coreStep writer s (fun _ =>
    storeThen writer (coreBlocks + 0x1000 * c.val) (natLe 8 value.toNat) false s (finish writer id)))

end Sys2Proof.Machine
end

