-- ==== Sys2Proof/Machine/Tables.lean ====
section
/-! DEFINITION. The tables of the fixed units (05_join_aggregate_sort.md): buckets, join tables, group tables with their
spill partitions, sorted runs and merges. All of it is pure. -/

namespace Sys2Proof.Machine

/-! ## Buckets and chains (05, R202, R204, R205) -/

/-- ⌈log₂(n / 4)⌉, at least 6 and at most 28 (R205). -/
def startBits (expected : Nat) : Nat :=
  max 6 (((List.range 29).find? (fun b => decide (max expected 1 ≤ 4 * 2 ^ b))).getD 28)

/-- A table before its first record (R205). -/
def emptyTable (expected : Nat) : HashTable := { bits := startBits expected }

/-- The tag of a row, g[63:48], and its bucket, g[B−1:0] (R202). -/
def bucketTag (g : Word) : Nat := g.toNat / 2 ^ 48
def bucketOf (g : Word) (bits : Nat) : Nat := g.toNat % 2 ^ bits

/-- The 64 bytes of a bucket (R204). -/
def bucketBytes (b : Bucket) : Bytes :=
  padTo 16 (b.slots.flatMap (fun e => natLe 2 e.1)) ++ padTo 32 (b.slots.flatMap (fun e => natLe 4 e.2)) ++
  natLe 8 b.next ++ natLe 1 b.slots.length ++ List.replicate 7 0

/-- Buckets of a table, and the bytes it takes with its records. -/
def HashTable.count (t : HashTable) : Nat := 2 ^ t.bits + t.overflow
def HashTable.length (t : HashTable) : Nat := 64 * t.count + t.stored

/-- The bytes of a table's buckets. -/
def tableBytes (t : HashTable) : Bytes := (List.range t.count).flatMap (fun k => bucketBytes (tblGet {} t.buckets k))

/-- A tag and a reference take the first free slot of a chain from bucket `k` on; a full chain gets one more bucket
(R204). -/
def placeRef (e : Nat × Nat) : Nat → Nat → HashTable → HashTable
  | 0, _, t => t
  | fuel + 1, k, t =>
    let b := tblGet {} t.buckets k
    if b.slots.length < 8 then { t with buckets := tblSet t.buckets k { b with slots := b.slots ++ [e] } }
    else if b.next = 0 then
      let m := t.count
      { t with overflow := t.overflow + 1,
               buckets := tblSet (tblSet t.buckets k { b with next := 64 * m }) m { slots := [e] } }
    else placeRef e fuel (b.next / 64) t

/-- Record `n`, of hash `g`, goes into its bucket; a record that no key equals goes into none (R209). -/
def placeRecord (t : HashTable) (n : Nat) : Option Word → HashTable
  | none => t
  | some g => placeRef (bucketTag g, n) (t.overflow + 1) (bucketOf g t.bits) t

/-- A table of 2^bits buckets with every record in it, in their order (R205). -/
def refill (t : HashTable) (bits : Nat) (gs : List (Option Word)) : HashTable :=
  ((List.range gs.length).zip gs).foldl (fun t e => placeRecord t e.1 e.2)
    { t with bits := bits, buckets := [], overflow := 0 }

/-- The table with one more record: `gs` are the hashes of all its records, the new one last, and `size` its bytes. When
the records pass 6 × 2^B, the bucket array doubles (R205). -/
def addRecord (t : HashTable) (gs : List (Option Word)) (size : Nat) : HashTable :=
  let t1 := { t with stored := t.stored + size }
  if 6 * 2 ^ t.bits < gs.length ∧ t.bits < 28 then refill t1 (t.bits + 1) gs
  else placeRecord t1 (gs.length - 1) (gs.getLast?.getD none)

/-- The slots of a chain, in order, from bucket `k` on. -/
def chainSlots (t : HashTable) : Nat → Nat → List (Nat × Nat)
  | 0, _ => []
  | fuel + 1, k =>
    let b := tblGet {} t.buckets k
    b.slots ++ if b.next = 0 then [] else chainSlots t fuel (b.next / 64)

/-- The records whose tag is that of a hash, and whose key a test then finds equal (R204). -/
def probeTable (t : HashTable) (g : Word) (same : Nat → Bool) : List Nat :=
  (chainSlots t (t.overflow + 1) (bucketOf g t.bits)).filterMap (fun e =>
    if e.1 = bucketTag g ∧ same e.2 then some e.2 else none)

/-! ## Join tables (05, R203 to R212) -/

/-- Equal keys for grouping: NULL equals NULL (R203). -/
def keysEqual (types : List Nat) (a b : List Value) : Bool :=
  decide (a.length = b.length) && (types.zip (a.zip b)).all (fun x => valueEq x.1 x.2.1 x.2.2)

/-- A key with a NULL in it (R203). -/
def nullKey (key : List Value) : Bool := key.any (· == .null)

/-- g of a key (R201). -/
def keyG (types : List Nat) (key : List Value) : Word := bucketHash (keyHash (types.zip key))

/-- g of a row of a join, which no key equals where its own has a NULL (R203, R209). -/
def joinHash (types : List Nat) (key : List Value) : Option Word := if nullKey key then none else some (keyG types key)

/-- A row goes into the row store, and into its bucket. -/
def insertBuild (types : List Nat) (rows : List BuildRow) (t : HashTable) (r : BuildRow) : List BuildRow × HashTable :=
  let all := rows ++ [r]
  (all, addRecord t (all.map (fun x => joinHash types x.key)) (Config.recordBytes r.row))

/-- Build rows that match a key, by their place in the row store (R203, R204, R210). -/
def buildMatches (types : List Nat) (rows : List BuildRow) (t : HashTable) (key : List Value) : List Nat :=
  match joinHash types key with
  | none => []
  | some g => probeTable t g (fun k => ((rows[k]?).map (fun x => keysEqual types x.key key)).getD false)

/-- A row of NULLs. -/
def nullRow (schema : Schema) : Row := schema.map (fun _ => .null)

/-- Output rows for one probe row (R210). -/
def probeOut (kind : Nat) (buildSchema : Schema) (build : List BuildRow) (hits : List Nat) (r : Row) : List Row :=
  let joined := hits.map (fun i => r ++ ((build[i]?).map (·.row)).getD [])
  match kind with
  | 2 => if hits.isEmpty then [] else [r]
  | 3 => if hits.isEmpty then [r] else []
  | 4 => [r ++ [.num (if hits.isEmpty then 0 else 1)]]
  | 1 => if hits.isEmpty then [r ++ nullRow buildSchema] else joined
  | 6 => if hits.isEmpty then [r ++ nullRow buildSchema] else joined
  | _ => joined

/-- MATCHED of the rows that have been hit (R210). -/
def markHits (rows : List BuildRow) (hits : List Nat) : List BuildRow :=
  ((List.range rows.length).zip rows).map (fun e => { e.2 with matched := e.2.matched || hits.contains e.1 })

/-- Output after the probe's input LAST: build rows never matched (R210, R212). -/
def unmatchedOut (kind : Nat) (probeSchema : Schema) (build : List BuildRow) : List Row :=
  if kind = 5 ∨ kind = 6 then (build.filter (fun e => !e.matched)).map (fun e => nullRow probeSchema ++ e.row) else []

/-! ## Groups (05, R215 to R222) -/

/-- State of an aggregate before any row. -/
def aggStart (func type : Nat) : AggState :=
  match func with
  | 1 => .count 0
  | 2 => .count 0
  | 3 => if typeClass type = .float then .fsum none else .sum none
  | _ => .keep none

/-- Bounds of an exact SUM (R218). -/
def sumFits (type : Nat) (z : Int) : Bool :=
  if type = 0x18 then decide (-(10 ^ 38 - 1) ≤ z) && decide (z ≤ 10 ^ 38 - 1)
  else decide (-(2 ^ 127) ≤ z) && decide (z ≤ 2 ^ 127 - 1)

/-- A value of an integer class as an integer. -/
def exactValue (type : Nat) (v : Value) : Int :=
  if typeClass type = .unsigned then ((valPattern v : Nat) : Int) else signed (typeBits type) (valPattern v)

/-- A float value as F64. -/
def asF64 (type : Nat) (v : Value) : Nat :=
  if type = 0x10 then (fconvert .b32 .b64 .nearest (valPattern v)).1 else valPattern v

/-- One row's update of one aggregate; `none` is an overflow (R215, R218 to R220). -/
def aggStep (func type : Nat) (v : Value) : AggState → Option AggState
  | .count n => some (.count (if func = 1 ∨ v ≠ .null then n + 1 else n))
  | .sum z =>
    if v = .null then some (.sum z)
    else
      let y := z.getD 0 + exactValue type v
      if sumFits type y then some (.sum (some y)) else none
  | .fsum z =>
    if v = .null then some (.fsum z)
    else some (.fsum (some (match z with
      | none => asF64 type v
      | some a => (fadd .b64 .nearest 0 a (asF64 type v) false).1)))
  | .keep z =>
    if v = .null then some (.keep z)
    else some (.keep (match z with
      | none => some v
      | some a =>
        if func = 4 then (if valueLess type v a then some v else some a)
        else if func = 5 then (if valueLess type a v then some v else some a)
        else some a))

/-- Final value of an aggregate. -/
def aggValue : AggState → Value
  | .count n => .num (n % 2 ^ 64)
  | .sum none => .null
  | .sum (some z) => .num (unsigned 128 z)
  | .fsum none => .null
  | .fsum (some f) => .num f
  | .keep none => .null
  | .keep (some v) => v

/-- What an AGGREGATE says of its input and of its table: the bytes of its grove store area, and EXPECTED. -/
structure AggPlan where
  keys : List Nat
  types : List Nat
  aggs : List (Nat × Nat)
  schema : Schema
  store : Nat
  expected : Nat
  deriving DecidableEq, Repr

def aggPlan (schema : Schema) (keys : List Nat) (aggs : List (Nat × Nat)) (store expected : Nat) : AggPlan :=
  ⟨keys, keys.map (fun k => (columnOf schema k).1), aggs, schema, store, expected⟩

/-- Input type of an aggregate. -/
def AggPlan.typeOf (p : AggPlan) (f : Nat × Nat) : Nat := (columnOf p.schema f.2).1

/-- A row's updates of its group; or the index of the aggregate that overflows. -/
def groupStep (p : AggPlan) (r : Row) (g : Group) : Except Nat Group :=
  let out := ((List.range p.aggs.length).zip (p.aggs.zip g.states)).foldlM (fun acc e =>
    match aggStep e.2.1.1 (p.typeOf e.2.1) (r.getD e.2.1.2 .null) e.2.2 with
    | some x => Except.ok (acc ++ [x])
    | none => Except.error e.1) []
  out.map (fun l => { g with states := l })

/-- A new group of a row's key. -/
def newGroup (p : AggPlan) (key : Row) : Group := ⟨key, p.aggs.map (fun f => aggStart f.1 (p.typeOf f))⟩

/-- A group table while rows are added, its spill partitions, and whether it has been full (R221). -/
structure AggWork where
  groups : List Group
  table : HashTable
  spill : Tbl (List Row)
  full : Bool
  deriving DecidableEq, Repr

/-- A group table before any row. -/
def aggEmpty (p : AggPlan) : AggWork := ⟨[], emptyTable p.expected, [], false⟩

/-- Place of a key's group in the table. -/
def findGroup (p : AggPlan) (w : AggWork) (key : Row) : Option Nat :=
  (probeTable w.table (keyG p.types key) (fun k =>
    ((w.groups[k]?).map (fun g => keysEqual p.types g.key key)).getD false)).head?

/-- The table with a group of one more key. -/
def withGroup (p : AggPlan) (w : AggWork) (key : Row) : HashTable :=
  addRecord w.table ((w.groups.map (·.key) ++ [key]).map (fun k => some (keyG p.types k))) (Config.recordBytes key)

/-- The spill partition of a key, with `level` levels of partitions below the table's: h[31:28], h[27:24], h[23:20]
(R202). -/
def spillPart (p : AggPlan) (level : Nat) (key : Row) : Nat :=
  (keyHash (p.types.zip key)).toNat / 2 ^ (16 + 4 * level) % 16

/-- One row: it updates its group; it makes one; or, where the table is full, it spills. A table that may spill no more
moves to scratch (R221). -/
def aggRow (p : AggPlan) (level : Nat) (w : AggWork) (r : Row) : Except Nat AggWork :=
  let key := p.keys.map (fun k => r.getD k .null)
  match findGroup p w key with
  | some k =>
    (groupStep p r (w.groups.getD k (newGroup p key))).map (fun g => { w with groups := w.groups.set k g })
  | none =>
    let t := withGroup p w key
    let large := decide (p.store < t.length)
    if 0 < level ∧ (w.full ∨ large) then
      .ok { w with full := true, spill := tblMod [] w.spill (spillPart p level key) (fun l => l ++ [r]) }
    else (groupStep p r (newGroup p key)).map (fun g =>
      { w with groups := w.groups ++ [g], table := { t with scratch := t.scratch || large } })

/-- Rows one by one. -/
def aggRows (p : AggPlan) (level : Nat) (w : AggWork) (rows : List Row) : Except Nat AggWork :=
  rows.foldlM (aggRow p level) w

/-- What is written to scratch: how many bytes, and those whose layout is stated. -/
abbrev Stored := Nat × Bytes

/-- Rows of a spill partition as the batches in which they are written (R221). -/
def spillStored (p : AggPlan) (rows : List Row) : List Stored :=
  (pieces p.schema rows).map (fun l => let b := batchBytes (rowBatch 0 0 0 p.schema l); (b.length, b))

/-- A table that has moved to scratch. -/
def tableStored (t : HashTable) : List Stored := if t.scratch then [(t.length, tableBytes t)] else []

/-- The partitions of a table in ascending order, each processed with an empty table, and theirs after it: the groups
table by table, and what goes to scratch on the way (R221). -/
def aggParts (p : AggPlan) : Nat → Tbl (List Row) → Except Nat (List (List Group) × List Stored)
  | 0, _ => .ok ([], [])
  | level + 1, spill => do
    let parts ← spill.mapM (fun e => do
      let w ← aggRows p level (aggEmpty p) e.2
      let (gs, st) ← aggParts p level w.spill
      pure (w.groups :: gs, w.spill.flatMap (fun x => spillStored p x.2) ++ tableStored w.table ++ st))
    pure (parts.flatMap (·.1), parts.flatMap (·.2))

/-- Output row of a group (R217). -/
def groupRow (g : Group) : Row := g.key ++ g.states.map aggValue

/-- Rows in the order that a list of places names, then the others: the order of emission is open (R222). -/
def reorder {α : Type} (order : List Nat) (l : List α) : List α :=
  let first := (order.eraseDups.filter (fun k => decide (k < l.length)))
  first.filterMap (fun k => l[k]?) ++
  ((List.range l.length).filter (fun k => !first.contains k)).filterMap (fun k => l[k]?)

/-- The groups of tables emitted one after the other, each in an order of its own (R221, R222). -/
def emitTables (orders : List (List Nat)) (tables : List (List Group)) : List Row :=
  ((List.range tables.length).zip tables).flatMap (fun e => (reorder (orders.getD e.1 []) e.2).map groupRow)

/-! ## Sorted runs and merges (05, R228 to R231) -/

/-- The producer whose first row comes next; among equal keys the lowest number (R230). -/
def mergePick {α : Type} (less : α → α → Bool) : Tbl (List α) → Option (Nat × α)
  | [] => none
  | (_, []) :: t => mergePick less t
  | (p, r :: _) :: t =>
    match mergePick less t with
    | some (q, x) => if less x r then some (q, x) else some (p, r)
    | none => some (p, r)

/-- Rows that can be emitted: while every producer that has not ended has a row. -/
def mergeRows {α : Type} (less : α → α → Bool) (open_ : List Nat) : Nat → Tbl (List α) → List α × Tbl (List α)
  | 0, t => ([], t)
  | fuel + 1, t =>
    if open_.any (fun p => (tblGet [] t p).isEmpty) then ([], t)
    else match mergePick less t with
    | none => ([], t)
    | some (p, r) =>
      let (rs, t1) := mergeRows less open_ fuel (tblMod [] t p (fun l => l.drop 1))
      (r :: rs, t1)

/-- Order of rows by their key values. -/
def keyedLess (schema : Schema) (keys : List SortKey) (a b : KeyedRow) : Bool := rowLess schema keys a.1 b.1

/-- Bytes of a run: its rows with their normalised keys (R228). -/
def runLength (schema : Schema) (keys : List SortKey) (rows : List KeyedRow) : Nat :=
  (rows.map (fun r => Config.recordBytes r.2 + (normKey schema keys r.1).length)).sum

/-- Rows join the run in the grove store; a full run is sorted and written to scratch (R228). -/
def gatherRuns (schema : Schema) (keys : List SortKey) (store : Nat) :
    List KeyedRow → List KeyedRow → List KeyedRow × List (List KeyedRow)
  | run, [] => (run, [])
  | run, r :: t =>
    if run ≠ [] ∧ store < runLength schema keys (run ++ [r]) then
      let (last, written) := gatherRuns schema keys store [r] t
      (last, sortRows (keyedLess schema keys) run :: written)
    else gatherRuns schema keys store (run ++ [r]) t

/-- One run of several; rows of an earlier one come first among equal keys (R229). -/
def mergeRuns (less : KeyedRow → KeyedRow → Bool) (runs : List (List KeyedRow)) : List KeyedRow :=
  (mergeRows less [] (runs.map List.length).sum ((List.range runs.length).zip runs)).1

/-- Runs in groups of 16. -/
def sixteens {α : Type} : Nat → List α → List (List α)
  | 0, _ => []
  | n + 1, l => if l.isEmpty then [] else l.take 16 :: sixteens n (l.drop 16)

/-- Merge passes until 16 runs at the most are left, with the runs that each pass writes (R228). -/
def mergePasses (less : KeyedRow → KeyedRow → Bool) :
    Nat → List (List KeyedRow) → List (List KeyedRow) × List (List (List KeyedRow))
  | 0, runs => (runs, [])
  | fuel + 1, runs =>
    if runs.length ≤ 16 then (runs, [])
    else
      let next := (sixteens runs.length runs).map (mergeRuns less)
      let (last, passes) := mergePasses less fuel next
      (last, next :: passes)

end Sys2Proof.Machine
end

