-- ==== Sys2Proof/Machine/Units.lean ====
section
/-! DEFINITION. The fixed units of a grove (05_join_aggregate_sort.md) and the stages that run on its cores: join
tables, groups, sorted runs, merges, EXCHANGE, LIMIT, EXPR calls. -/

namespace Sys2Proof.Machine

/-! ## Who has a unit (05, R198, R719) -/

/-- The fixed unit that a stage's batches pass through: 0 hash, 1 aggregation, 2 merge. -/
def unitOf (g : Stage) : Option Nat :=
  match g.body with
  | .exchange broadcast _ => if broadcast then none else some 0
  | .hashBuild _ _ _ => some 0
  | .hashProbe _ _ _ => some 0
  | .aggregate _ _ _ => some 1
  | .sort _ => some 2
  | .merge _ _ => some 2
  | _ => none

/-- The stage whose table a probe reads. -/
def buildStage (r : Run) (ref : Nat) : Option (Nat × Stage) :=
  (numbered r.image.stages).find? (fun e => match e.2.body with
    | .hashBuild _ x _ => decide (x = ref)
    | _ => false)

/-- The join table that a probe instance reads is complete (R208). -/
def buildDone (r : Run) (ref i : Nat) : Bool :=
  match (buildStage r ref).map (fun b => (getI r b.1 i).work) with
  | some (.build _ _ done) => done
  | _ => false

/-- An instance may take a batch: its job goes on, it has one, its output has been covered, and what its kind waits for
has come (R164, R208). -/
def unitReady (s : State) (x : Job) (r : Run) (g : Stage) (i : Nat) (n : Inst) : Bool :=
  taking s x && r.placed && !n.queue.isEmpty && (n.ended || outCovered r n) &&
  match g.body with
  | .exchange _ _ => instRunning s n
  | .hashProbe _ ref _ => buildDone r ref i
  | _ => true

/-- Pilot's dispatch of an instance hands its next batch to its unit (R198). -/
def handUnit (j st i : Nat) (s : State) : State :=
  match getR s j with
  | none => s
  | some r =>
    let n := getI r st i
    if ((r.image.stages[st]?).bind unitOf).isSome ∧ n.turn.isNone ∧ n.queue ≠ [] then
      onPilot (fun p => { p with handed := p.handed + 1 }) (onI j st i (fun n => { n with turn := some s.pilot.handed }) s)
    else s

/-- The instances on a grove that await a unit and may take their batches: turn, job, and place in the job. -/
def unitQueue (s : State) (grove unit : Nat) : List (Nat × Nat × Nat) :=
  s.runs.flatMap (fun e =>
    match getJ s e.1 with
    | none => []
    | some x => e.2.insts.filterMap (fun n =>
      match e.2.image.stages[n.1 / 32]?, n.2.turn with
      | some g, some t =>
        if unitOf g = some unit ∧ n.2.grove = grove ∧ unitReady s x e.2 g (n.1 % 32) n.2 then some (t, e.1, n.1) else none
      | _, _ => none))

/-- An instance is the next of its unit. -/
def unitTurn (s : State) (j st i : Nat) (g : Stage) (n : Inst) : Bool :=
  match unitOf g with
  | none => false
  | some u => decide ((findMin (fun e => e.1) (unitQueue s n.grove u)).map (·.2) = some (j, instKey st i))

/-- The unit takes up the batch of the instance whose turn it is. -/
def withUnit (j st i : Nat) (s : State) (f : Job → Run → Stage → Inst → Arrived → State → State) : State :=
  withInst j st i s (fun x r g n =>
    match n.queue with
    | [] => s
    | a :: q =>
      if unitTurn s j st i g n then f x r g n a (takeBatch j st i a q (onI j st i (fun n => { n with turn := none }) s))
      else s)

/-! ## One batch at a fixed unit -/

/-- Put a unit's work and emit rows on port 0. -/
def putWork (j st i : Nat) (w : Work) (s : State) : State := onI j st i (fun x => { x with work := w }) s

/-- Emit rows of an instance on its port 0, to the consumers of R720. -/
def emitPlain (j st i : Nat) (r : Run) (g : Stage) (rows : List Row) (s : State) : State :=
  pushRows j st i 0 (plainTargets r st 0 i) (g.schemas.getD 0 []) rows s

/-- Types of key columns. -/
def keyTypes (schema : Schema) (keys : List Nat) : List Nat := keys.map (fun k => (columnOf schema k).1)

/-- Key values of a row, in line. -/
def keyValues (s : State) (keys : List Nat) (r : Row) : Row := keys.map (fun k => inlineValue s (r.getD k .null))

/-- HASH_BUILD takes a batch: each row goes into the table, which moves to scratch when it outgrows its area (R204 to
R207). -/
def buildBatch (j st i : Nat) (x : Job) (r : Run) (g : Stage) (keys : List Nat) (expected : Nat) (n : Inst) (a : Arrived)
    (s : State) : State :=
  let (rows, table) := match n.work with
    | .build rows table _ => (rows, table)
    | _ => ([], emptyTable expected)
  let types := keyTypes (inputSchema r st 0) keys
  withKeys j x keys a.batch s (fun s =>
    let new := (selectedRows a.batch).map (fun e => ({ key := keyValues s keys e.2, row := e.2 } : BuildRow))
    if 2 ^ 31 < rows.length + new.length then endFailed j 0x0402 st s
    else
      let (all, t) := new.foldl (fun w b => insertBuild types w.1 w.2 b) (rows, table)
      let t := { t with scratch := t.scratch || decide (new ≠ [] ∧ g.groveStore < t.length) }
      withAreas j st i (tableStored t) (dropAreas j st i s) (fun s =>
        let s1 := finishBatch j st i a s
        let done := inputDone s1 j st i
        putWork j st i (.build all t done) (if done then onI j st i (fun y => { y with ended := true }) s1 else s1)))

/-- HASH_PROBE takes a batch, its build instance being complete (R208 to R212). -/
def probeBatch (j st i : Nat) (x : Job) (r : Run) (g : Stage) (keys : List Nat) (ref kind : Nat) (a : Arrived)
    (s : State) : State :=
  match buildStage r ref with
  | none => s
  | some (bst, _) =>
    match (getI r bst i).work with
    | .build rows table true =>
      withKeys j x keys a.batch s (fun s =>
        let schema := inputSchema r st 0
        let outs := (selectedRows a.batch).map (fun e =>
          let hits := buildMatches (keyTypes schema keys) rows table (keyValues s keys e.2)
          (hits, probeOut kind (inputSchema r bst 0) rows hits e.2))
        let rows1 := markHits rows (outs.flatMap (·.1))
        let s1 := putWork j bst i (.build rows1 table true) s
        let s2 := finishBatch j st i a (emitPlain j st i r g (outs.flatMap (·.2)) s1)
        if inputDone s2 j st i then endInst j st i (emitPlain j st i r g (unmatchedOut kind schema rows1) s2) else s2)
    | _ => s

/-- AGGREGATE takes a batch; after the last one, it emits its groups table by table (R221, R222). -/
def aggregateBatch (j st i : Nat) (x : Job) (r : Run) (g : Stage) (p : AggPlan) (orders : List (List Nat)) (n : Inst)
    (a : Arrived) (s : State) : State :=
  let w0 : AggWork := match n.work with
    | .groups gs t sp full => ⟨gs, t, sp, full⟩
    | _ => aggEmpty p
  let used := p.keys ++ (p.aggs.filter (fun f => decide (f.1 = 4) || decide (f.1 = 5) || decide (f.1 = 6))).map (·.2)
  withKeys j x used a.batch s (fun s =>
    match aggRows p 3 { w0 with spill := [] } ((selectedRows a.batch).map (fun e => inlineCols s used e.2)) with
    | .error k => endFailed j 0x0401 (st * 256 + k) s
    | .ok w =>
      withAreas j st i (w.spill.flatMap (fun e => spillStored p e.2)) s (fun s =>
        let spill := w.spill.foldl (fun t e => tblMod [] t e.1 (fun l => l ++ e.2)) w0.spill
        let s1 := finishBatch j st i a s
        if inputDone s1 j st i then
          match aggParts p 3 spill with
          | .error k => endFailed j 0x0401 (st * 256 + k) s1
          | .ok (parts, stored) =>
            withAreas j st i stored s1 (fun s =>
              endInst j st i (emitPlain j st i r g (emitTables orders (w.groups :: parts))
                (dropAreas j st i (putWork j st i .idle s))))
        else putWork j st i (.groups w.groups w.table spill w.full) s1))

/-- Merge passes write their runs, each pass giving back the runs that it has read (R228). -/
def storePasses (j st i : Nat) (size : List KeyedRow → Nat) :
    List (List (List KeyedRow)) → State → (State → State) → State
  | [], s, go => go s
  | runs :: t, s, go =>
    let old := (((getR s j).map (fun r => (getI r st i).areas.length)).getD 0)
    withAreas j st i (runs.map (fun l => (size l, []))) s (fun s =>
      storePasses j st i size t (onI j st i (fun n => { n with areas := n.areas.drop old }) s) go)

/-- SORT takes a batch; after the last one, it emits its rows in order (R228, R229). -/
def sortBatch (j st i : Nat) (x : Job) (r : Run) (g : Stage) (keys : List SortKey) (n : Inst) (a : Arrived)
    (s : State) : State :=
  let (run, before) := match n.work with
    | .run run written => (run, written)
    | _ => ([], [])
  let cols := keys.map (fun k => k.column)
  let schema := inputSchema r st 0
  let less := keyedLess schema keys
  let size := runLength schema keys
  withKeys j x cols a.batch s (fun s =>
    let new := (selectedRows a.batch).map (fun e => (inlineCols s cols e.2, e.2))
    let (last, written) := gatherRuns schema keys g.groveStore run new
    withAreas j st i (written.map (fun l => (size l, []))) s (fun s =>
      let s1 := finishBatch j st i a s
      if inputDone s1 j st i then
        let (runs, passes) := mergePasses less (before.length + written.length) (before ++ written ++ if last.isEmpty then [] else [sortRows less last])
        storePasses j st i size passes s1 (fun s =>
          endInst j st i (emitPlain j st i r g ((mergeRuns less runs).map (·.2))
            (dropAreas j st i (putWork j st i .idle s))))
      else putWork j st i (.run last (before ++ written)) s1))

/-- MERGE takes a batch (R230, R231). -/
def mergeBatch (j st i : Nat) (x : Job) (r : Run) (g : Stage) (keys : List SortKey) (limit : Nat) (n : Inst)
    (a : Arrived) (s : State) : State :=
  if n.ended then finishBatch j st i a s
  else
    let (inputs, emitted) := match n.work with
      | .merge t k => (t, k)
      | _ => ([], 0)
    let cols := keys.map (fun k => k.column)
    withKeys j x cols a.batch s (fun s =>
      let new := (selectedRows a.batch).map (fun e => (inlineCols s cols e.2, e.2))
      let t := tblMod [] inputs a.producer (fun l => l ++ new)
      let s1 := finishBatch j st i a s
      match getR s1 j with
      | none => s1
      | some r1 =>
        let ended := (getI r1 st i).lasts.map (·.2)
        let count := match inEdge r st 0 with
          | some e => instCount r e.2.src
          | none => 0
        let waiting := (List.range count).filter (fun p => !ended.contains p)
        let total := (t.map (fun e => e.2.length)).sum
        let (rows, t1) := mergeRows (keyedLess (inputSchema r st 0) keys) waiting total t
        let out := if limit = 0 then rows else rows.take (limit - emitted)
        let k := emitted + out.length
        let s2 := emitPlain j st i r g (out.map (·.2)) (putWork j st i (.merge t1 k) s1)
        if inputEnded r1 st i ∨ (0 < limit ∧ limit ≤ k) then endInst j st i (putWork j st i (.merge [] k) s2)
        else s2)

/-- FIXED_UNIT_BATCH (05, R198): the unit takes the batch of the instance whose turn it is, and finishes it. `orders` are
the orders in which a group table and its partitions are emitted. -/
def execFixedUnitBatch (job : Nat) (stage : Fin 256) (inst : Fin 16) (orders : List (List Nat)) (s : State) :
    Host.Outcome State Fault Refusal :=
  .next (withUnit job stage.val inst.val s (fun x r g n a s0 =>
    let st := stage.val
    let i := inst.val
    let done (s1 : State) : State := pulseInst n 8 s1
    match g.body with
    | .hashBuild keys _ expected => done (buildBatch job st i x r g keys expected n a s0)
    | .hashProbe keys ref kind => done (probeBatch job st i x r g keys ref kind a s0)
    | .aggregate keys expected aggs =>
      done (aggregateBatch job st i x r g (aggPlan (inputSchema r st 0) keys aggs g.groveStore expected) orders n a s0)
    | .sort keys => done (sortBatch job st i x r g keys n a s0)
    | .merge keys limit => done (mergeBatch job st i x r g keys limit n a s0)
    | _ => s))

/-! ## EXCHANGE (04, R169, R170) -/

/-- Consumer instance of a hash (R169). -/
def exchangeTo (h : Word) (n : Nat) : Nat := h.toNat / 2 ^ 32 * n / 2 ^ 32

/-- One edge's share of a batch: for each consumer instance its rows, in order. -/
def partition (schema : Schema) (keys : List Nat) (s : State) (rows : List Row) (n k : Nat) : List Row :=
  rows.filter (fun r =>
    decide (exchangeTo (keyHash (keyOf schema keys (inlineCols s keys r))) n = k))

/-- An EXCHANGE instance has sent what a batch gives; after the last one it ends. -/
def exchangeEnds (j st i : Nat) (a : Arrived) (s : State) : State :=
  let s1 := finishBatch j st i a s
  if inputDone s1 j st i then endInst j st i s1 else s1

/-- BROADCAST: the batch goes unchanged to every consumer instance (R170); its LAST is the instance's own to send
(R163). -/
def broadcastBatch (j st i : Nat) (r : Run) (a : Arrived) (s : State) : State :=
  exchangeEnds j st i a (
    if a.batch.rows = 0 ∧ a.batch.last then s
    else pushBatch j st i 0 (allTargets r st 0) { a.batch with last := false } s)

/-- The rows of a batch, partitioned for each edge (R166, R169). -/
def partitionBatch (j st i : Nat) (x : Job) (r : Run) (g : Stage) (keys : List Nat) (a : Arrived) (s : State) : State :=
  withKeys j x keys a.batch s (fun s =>
    let schema := inputSchema r st 0
    exchangeEnds j st i a ((outEdges r st 0).foldl (fun s e =>
      let m := instCount r e.2.dst
      (List.range m).foldl (fun s k =>
        pushRows j st i 0 [(e.1, k)] (g.schemas.getD 0 []) (partition schema keys s (batchSelected a.batch) m k) s) s) s))

/-- EXCHANGE_BATCH (R169, R170). An instance that hashes has its turn at the hash unit (05, R719). -/
def execExchangeBatch (job : Nat) (stage : Fin 256) (inst : Fin 16) (s : State) : Host.Outcome State Fault Refusal :=
  let st := stage.val
  let i := inst.val
  .next (withIntake job st i s (fun x r g n =>
    match g.body, n.queue with
    | .exchange true _, a :: q => if instRunning s n then broadcastBatch job st i r a (takeBatch job st i a q s) else s
    | .exchange false keys, a :: q =>
      if unitTurn s job st i g n then
        partitionBatch job st i x r g keys a (takeBatch job st i a q (onI job st i (fun n => { n with turn := none }) s))
      else s
    | _, _ => s))

/-! ## EXPR (04, R154 to R156; 07, R290, R291) -/

/-- A batch that EXPR code has built, in the schema of its port. -/
def exprBatch (schema : Schema) (o : ExprOut) : Batch :=
  { stage := 0, inst := 0, seq := 0, last := false, firstRow := allOnes, rows := o.rows.val, positions := o.positions,
    selection := o.selection,
    columns := (List.range schema.length).map (fun k =>
      ⟨(columnOf schema k).1, (columnOf schema k).2, o.columns.getD k []⟩) }

/-- The core that holds a task's work item. -/
def holderOf (s : State) (task : Nat) : Option Nat :=
  (s.cores.find? (fun e => match e.2.item with
    | some i => decide (i.task.toNat = task)
    | none => false)).map (·.1)

/-- A g register of a core is set by the runtime. -/
def putG (n : Nat) (v : Word) (k : Core) : Core := { k with g := tblSet k.g n v }

/-- The core enters an EXPR entry at pipeline level: g10 to g14 (04, R154), VCFG at its reset value and VSTAT clear, the
vector registers open (R291). -/
def enterExpr (c : Nat) (pc batch port consts store build : Word) (s : State) : State :=
  let n := s.sys.fresh
  onCore c (fun k =>
    let k1 := putG 14 build (putG 13 store (putG 12 consts (putG 11 port (putG 10 batch k))))
    { k1 with
      pc := pc, level := 1, ew := 0, vg := 0, vl := 0, sov := false,
      v := (List.range 32).map (fun i => (i, Config.freeVec (n + i))),
      p := (List.range 7).map (fun i => (i + 1, Config.freeVec (n + 32 + i))) })
    (onSys (fun y => { y with fresh := n + 39 }) s)

/-- The runtime issues IFLUSH on a core before the first entry into an image loaded since its last (07, R295). -/
def flushFor (j c : Nat) (u : Run) (s : State) : State :=
  match (getJ s j).bind (·.berth) with
  | some b =>
    if (getCore s c).codeSeen < (getSlot s b.val u.slot).loadedAt then onCore c (fun k => { k with codeSeen := s.dev.now }) s
    else s
  | none => s

/-- The runtime calls the entry for the next batch of an input port. -/
def exprEnters (j st i port c : Nat) (u : Run) (g : Stage) (n : Inst) (a : Arrived) (q : List Arrived) (s : State) :
    State :=
  let base := ((a.batch.buffer.map (·.1)).getD 0)
  let s := flushFor j c u s
  putWork j st i (.inHand a []) (takeBatch j st i a q
    (enterExpr c (BitVec.ofNat 64 (u.codeBase + g.entry)) (BitVec.ofNat 64 base) (BitVec.ofNat 64 port)
      (BitVec.ofNat 64 u.scratchAddr) (Config.storeArea n.grove j st i) (Config.buildArea n.grove j st i) s))

/-- The batches of a return go out: one for each output port of the mask that has been built (R154). -/
def exprSends (j st i mask : Nat) (u : Run) (g : Stage) (outs : List ExprOut) (s : State) : State :=
  (List.range g.outPorts).foldl (fun s p =>
    match outs.find? (fun o => decide (o.port.val = p)) with
    | some o =>
      let schema := g.schemas.getD p []
      if bitOf mask p then pushWhole j st i p (plainTargets u st p i) schema (exprBatch schema o) s else s
    | none => s) s

/-- The code returns: a fault value in g10 ends the job (R156); else the batches of g11 go out. -/
def exprReturns (j st i c : Nat) (u : Run) (g : Stage) (a : Arrived) (outs : List ExprOut) (s : State) : State :=
  let k := getCore s c
  let fault := (tblGet 0 k.g 10).toNat % 2 ^ 32
  let s1 := putWork j st i .idle (onCore c (fun k => { k with level := 2, pc := Config.runtimeEntry }) s)
  if fault ≠ 0 then endFailed j 0x0310 fault s1
  else
    let s2 := finishBatch j st i a (exprSends j st i (tblGet 0 k.g 11).toNat u g outs s1)
    if inputDone s2 j st i then endInst j st i s2 else s2

/-- The runtime enters a user function: g10 to g15 and s0 to s3 are the caller's, every other g and f register is zero
(R290). -/
def enterUser (pc : Word) (row : Nat) (k : Core) : Core :=
  { k with level := 0, pc := pc, user := some ⟨k.g, k.f, k.excPc + 4, row⟩,
           g := k.g.filter (fun e => decide (10 ≤ e.1) && decide (e.1 ≤ 15)), f := k.f.filter (fun e => decide (e.1 < 8)) }

/-- The user function returns: g10, g11, s0 and s1 are its own, every other g and f register is the caller's (R290). -/
def leaveUser (u : UserCall) (k : Core) : Core :=
  { k with level := 1, pc := u.pc, user := none,
           g := putRegs k.g u.g [10, 11], f := putRegs k.f u.f [0, 1, 2, 3] }
where
  /-- A register table with some registers taken from another. -/
  putRegs (new old : Tbl Word) (ns : List Nat) : Tbl Word := ns.foldl (fun t n => tblSet t n (tblGet 0 new n)) old

/-- The core has just taken the service request of a level (R290, R329). -/
def calledFrom (k : Core) (level : BitVec 2) : Bool :=
  decide (k.level = 2) && decide (k.excCause = 6) && decide (k.excLevel = level)

/-- EXPR_CALL (R154): what the runtime does for an EXPR instance whose work item a core holds: it calls the entry for
the next batch of an input port; it enters a user function and comes back from it; it takes the return of the entry. -/
def execExprCall (job : Nat) (stage : Fin 256) (inst : Fin 16) (port : Fin 4) (r : ExprStep) (s : State) :
    Host.Outcome State Fault Refusal :=
  let st := stage.val
  let i := inst.val
  .next (withInst job st i s (fun _ u g n =>
    match g.body, holderOf s n.task with
    | .expr users, some c =>
      let k := getCore s c
      if !(instRunning s n) then s
      else match r, n.work with
      | .enter, .inHand _ _ => s
      | .enter, _ =>
        match inEdge u st port.val with
        | none => s
        | some (e, _) =>
          match takeFirst (fun a => decide (a.edge = e)) n.queue with
          | some (a, q) => if outCovered u n ∧ k.level = 2 then exprEnters job st i port.val c u g n a q s else s
          | none => s
      | .call f row, .inHand _ _ =>
        match users[f.val]?, calledFrom k 1 with
        | some o, true => onCore c (enterUser (BitVec.ofNat 64 (u.codeBase + o)) row.toNat) s
        | _, _ => s
      | .back, .inHand _ _ =>
        match k.user, calledFrom k 0 with
        | some x, true => onCore c (leaveUser x) s
        | _, _ => s
      | .returned outs, .inHand a _ => if k.level = 1 then exprReturns job st i c u g a outs s else s
      | _, _ => s
    | _, _ => s))

/-! ## LIMIT (R151) -/

/-- LIMIT takes a batch: it skips OFFSET rows, then passes COUNT rows. -/
def limitBatch (j st i : Nat) (r : Run) (g : Stage) (offset number : Nat) (n : Inst) (a : Arrived) (q : List Arrived)
    (s : State) : State :=
  let (skip, pass) := match n.work with
    | .limit k p => (k, p)
    | _ => (offset, number)
  let rows := batchSelected a.batch
  let out := (rows.drop skip).take pass
  let s1 := finishBatch j st i a (putWork j st i (.limit (skip - rows.length) (pass - out.length))
    (emitPlain j st i r g out (takeBatch j st i a q s)))
  if inputDone s1 j st i then endInst j st i s1 else s1

/-- LIMIT takes the batches of its queue while its output is covered (R164). -/
def limitBatches (j st i offset number : Nat) (g : Stage) : Nat → State → State
  | 0, s => s
  | fuel + 1, s =>
    match getR s j with
    | none => s
    | some r =>
      let n := getI r st i
      match n.queue with
      | a :: q => if outCovered r n then limitBatches j st i offset number g fuel (limitBatch j st i r g offset number n a q s) else s
      | [] => s

/-! ## Credit and arrival (R163 to R165) -/

/-- EDGE_CREDIT_RETURN (R164): the consumer instance has finished with a batch, and its producer learns of it. -/
def execEdgeCreditReturn (job : Nat) (stage : Fin 256) (inst : Fin 16) (s : State) :
    Host.Outcome State Fault Refusal :=
  .next (match getR s job with
    | none => s
    | some r =>
      let n := getI r stage.val inst.val
      match n.finished.take (n.finished.length - n.heldFin), n.finished.drop 1 with
      | [], _ => s
      | code :: _, rest =>
        let e := code / 32
        let s1 := onI job stage.val inst.val (fun x => { x with finished := rest }) s
        let s2 := onR job (fun r => { r with used := tblMod 0 r.used (instKey e inst.val) (· - 1) }) s1
        match r.image.edges[e]? with
        | none => s2
        | some edge =>
          if ((r.image.stages[edge.src]?).map (fun g => g.kind)).getD 1 = 1 then s2
          else pulseInst (getI r edge.src (code % 32)) (4 + edge.port) s2)

/-- BATCH_ARRIVAL (R165): the oldest batch on its way from a producer instance to a consumer instance over an edge
lands. -/
def execBatchArrival (job : Nat) (edge : Fin 1024) (inst : Fin 16) (producer : Fin 32) (s : State) :
    Host.Outcome State Fault Refusal :=
  .next (match getR s job with
    | none => s
    | some r =>
      let p (f : Flight) : Bool :=
        decide (f.edge = edge.val) && decide (f.inst = inst.val) && decide (f.producer = producer.val)
      match r.mesh.findIdx? p, r.image.edges[edge.val]? with
      | some k, some e =>
        match r.mesh[k]? with
        | some f =>
          let s1 := onR job (fun r => { r with mesh := r.mesh.eraseIdx k }) s
          let s2 := onI job e.dst inst.val (fun x =>
            { x with queue := x.queue ++ [⟨edge.val, producer.val, f.batch⟩] }) s1
          pulseInst (getI r e.dst inst.val) e.dstPort s2
        | none => s
      | _, _ => s)

end Sys2Proof.Machine
end

