-- ==== Sys2Proof/Machine/Pilot.lean ====
section
/-! DEFINITION. The hand-over of work items to cores (09_pilot_scheduler.md, R360 to R384; 07_vunal_cores.md, R325 to
R327), and what the stages without a command of their own do with their batches when an item is handed over: FETCH,
LOOKUP, PATTERN and LIMIT. -/

namespace Sys2Proof.Machine

/-! ## LOOKUP (06, R251 to R253) -/

/-- What rows of a batch give before any search or text: a row that takes one has no outcome yet, every other row has
NULL. -/
def openOutcomes (b : Batch) (takes : Row → Bool) : List (Option Value) :=
  (List.range b.rows).map (fun i => if batchHas b i && takes (batchRow b i) then none else some .null)

/-- Long values among the key columns whose bytes have to be read: those of fields above 4 bytes, each as far as its
field's LENGTH (R252). -/
def lookupLongs (t : CTable) (keys : List Nat) (rows : List (Nat × Row)) : List (Nat × Value × Nat) :=
  rows.flatMap (fun r => ((keys.zip t.fields).filter (fun p => decide (4 < p.2.2))).map
    (fun p => (r.1, r.2.getD p.1 .null, p.2.2)))

/-- Bytes of one field of a search key (R251, R252). -/
def lookupField (s : State) (type length : Nat) : Value → Bytes
  | .str b => padTo length b
  | .long a n x => padTo length (if length ≤ 4 then natLe 4 x else devBytes s a (min length n))
  | v => keyField type 0 v

/-- The search key of a row, 20 bytes as one number. -/
def lookupKey (s : State) (t : CTable) (keys : List Nat) (r : Row) : Nat :=
  beNat (padTo 20 ((keys.zip t.fields).flatMap (fun p => lookupField s p.2.1 p.2.2 (r.getD p.1 .null))))

/-- Table and tag of a binding of a run. -/
def boundTable (s : State) (r : Run) (binding : Nat) : Option (Nat × CTable) :=
  (r.tags[binding]?).bind (fun tag => (tblFind s.canopy.tables tag).map (fun t => (tag, t)))

/-- A rejected read of long values settles the job, or awaits its handling. -/
def longsFailed (j : Nat) (x : Job) (c : LongCheck) (s : State) : State :=
  match c, x.berth with
  | .fault a code pos, _ => awayFault a j code pos s
  | .violation a, some b => noteViolation b a (some j) s
  | _, _ => s

/-- A LOOKUP instance takes a batch in hand and issues its searches, up to 256 in flight (R250, R253). -/
def lookupTake (j st i : Nat) (x : Job) (r : Run) (binding : Nat) (keys : List Nat) (a : Arrived) (s : State) : State :=
  match boundTable s r binding with
  | none => endFailed j 0x0509 st s
  | some (tag, t) =>
    let takes (v : Row) : Bool := keys.all (fun k => v.getD k .null != .null)
    let rows := (selectedRows a.batch).filter (fun v => takes v.2)
    match readLongs x.berth (lookupLongs t keys rows) s with
    | (.ok, s1) =>
      let qs := rows.map (fun v => (⟨j, st, i, v.1, lookupKey s1 t keys v.2, tag⟩ : Search))
      sendMore j st i 256 (onI j st i (fun n =>
        { n with work := .inHand a (openOutcomes a.batch takes), searches := qs }) s1)
    | (c, s1) => longsFailed j x c s1

/-- What a LOOKUP instance makes of a batch whose outcomes are in (R253). -/
def lookupPush (j st i : Nat) (r : Run) (g : Stage) (drop : Bool) (b : Batch) (out : List (Option Value)) (s : State) :
    State :=
  let w := withColumn b 0x0C 0 out
  if drop then
    pushRows j st i 0 (plainTargets r st 0 i) (g.schemas.getD 0 [])
      ((batchSelected w).filter (fun v => v.getLast? != some .null)) s
  else pushFull j st i r g w s

/-! ## PATTERN (06, R282, R283) -/

/-- The bytes of a text. -/
def textBytes (s : State) : Value → Bytes
  | .str b => b
  | .long a n _ => devBytes s a n
  | _ => []

/-- A PATTERN instance takes a batch in hand and sends its texts; an empty text is settled at once. -/
def patternTake (j st i : Nat) (x : Job) (r : Run) (binding col : Nat) (a : Arrived) (s : State) : State :=
  match boundTable s r binding with
  | none => endFailed j 0x0509 st s
  | some (tag, t) =>
    let rows := (selectedRows a.batch).filter (fun v => v.2.getD col .null != .null)
    match readLongs x.berth (longsOf [col] rows) s with
    | (.ok, s1) =>
      let texts := rows.map (fun v =>
        (⟨j, st, i, v.1, tag, textBytes s1 (v.2.getD col .null), t.startState, t.startAccepts⟩ : Text))
      let out := texts.foldl (fun (o : List (Option Value)) y =>
        if y.rest.isEmpty then o.set y.row (some (.num (b2n y.accept))) else o)
        (openOutcomes a.batch (fun v => v.getD col .null != .null))
      sendMore j st i 256 (onI j st i (fun n =>
        { n with work := .inHand a out, texts := texts.filter (fun y => !y.rest.isEmpty) }) s1)
    | (c, s1) => longsFailed j x c s1

/-- What a PATTERN instance makes of a batch whose outcomes are in (R283). -/
def patternPush (j st i : Nat) (r : Run) (g : Stage) (mark : Bool) (b : Batch) (out : List (Option Value)) (s : State) :
    State :=
  if mark then pushFull j st i r g (withColumn b 0x28 0 out) s
  else
    let keep := (List.range b.rows).filter (fun k => batchHas b k && (out.getD k none == some (.num 1)))
    pushRows j st i 0 (plainTargets r st 0 i) (g.schemas.getD 0 []) (keep.map (batchRow b)) s

/-! ## What an instance does when its work item is handed over -/

/-- A LOOKUP or PATTERN instance finishes a batch whose outcomes are all in, and takes the next, until one has
outcomes to come. -/
def searchIntake (j st i : Nat) (x : Job) (g : Stage) : Nat → State → State
  | 0, s => s
  | fuel + 1, s =>
    match getR s j with
    | none => s
    | some r =>
      let n := getI r st i
      match n.work, n.queue with
      | .inHand a out, _ =>
        if out.all (·.isSome) then
          let s1 := putWork j st i .idle s
          let s2 := match g.body with
            | .lookup _ _ drop => lookupPush j st i r g drop a.batch out s1
            | .pattern _ _ mark => patternPush j st i r g mark a.batch out s1
            | _ => s1
          let s3 := finishBatch j st i a s2
          searchIntake j st i x g fuel (if inputDone s3 j st i then endInst j st i s3 else s3)
        else s
      | _, a :: q =>
        if !(outCovered r n) then s
        else
        let s1 := takeBatch j st i a q s
        let s2 := match g.body with
          | .lookup k keys _ => lookupTake j st i x r k keys a s1
          | .pattern k col _ => patternTake j st i x r k col a s1
          | _ => s1
        searchIntake j st i x g fuel s2
      | _, [] => s

/-- The stages whose work follows from the hand-over alone. -/
def intake (j st i : Nat) (s : State) : State :=
  withInst j st i s (fun x r g n =>
    let fuel := 2 * n.queue.length + 2
    match g.body with
    | .limit offset number => limitBatches j st i offset number g fuel s
    | .fetch _ _ col t sc _ => fetchIntake j st i g col t sc fuel s
    | .lookup _ _ _ => searchIntake j st i x g fuel s
    | .pattern _ _ _ => searchIntake j st i x g fuel s
    | _ => s)

/-- KIND of the stage of a task. -/
def kindOf (s : State) (x : Task) : Nat :=
  match x.job.bind (getR s) with
  | some r => ((r.image.stages[x.stage]?).map (fun g => g.kind)).getD 0
  | none => 0

/-- A core takes up the item of a task: what the instance does from here to DONEW is held back until then (16,
R662). -/
def itemBegins (i : Item) (s : State) : State :=
  let x := getT s i.task.toNat
  match x.job with
  | none => s
  | some j =>
    let s1 := handUnit j x.stage x.inst s
    if fixedKind (kindOf s x) then s1 else intake j x.stage x.inst (onI j x.stage x.inst beginInst s1)

/-- DONEW publishes what the item has done. -/
def itemEnds (i : Item) (s : State) : State :=
  let x := getT s i.task.toNat
  match x.job with
  | none => s
  | some j => if fixedKind (kindOf s x) then s else onI j x.stage x.inst publishInst s

/-- The item is taken from its core before DONEW: nothing is published (16, R662). -/
def itemLost (i : Item) (s : State) : State :=
  let x := getT s i.task.toNat
  match x.job with
  | none => s
  | some j =>
    if fixedKind (kindOf s x) then s
    else
      let fresh := ((getR s j).map (fun r => (getI r x.stage x.inst).taken != [])).getD false
      let s1 := onI j x.stage x.inst rollbackInst s
      if fresh then purgeInst j x.stage x.inst s1 else s1

/-- A core's item and slot go back to READY, the item's batch to be processed again (R389; 16, R662). -/
def loseCore (c : Nat) (s : State) : State :=
  recallCore c true (match (getCore s c).item with
    | some i => itemLost i s
    | none => s)

/-! ## GETW (R381 to R384; 07, R325 to R327) -/

/-- The item a GETW is answered with: that of the prefetch slot, or a choice. -/
def itemFor (c : Nat) (s : State) : Option Item × State :=
  match (getCore s c).slot with
  | some i =>
    (some i, countP 11 1 (ranOn i.task.toNat c (onT i.task.toNat (fun x => { x with state := .running })
      (onCore c (fun k => { k with slot := none }) s))))
  | none =>
    match choose (groveOf c) c s with
    | (some t, s1) =>
      let (i, s2) := dispatch t .running s1
      (some i, ranOn t c s2)
    | (none, s1) => (none, s1)

/-- A GETW at the dispatcher: answered, or held there (R381). -/
def serveGetw (c : Fin 129) (gd : Fin 32) (s : State) : State :=
  match itemFor c.val s with
  | (none, s1) => onCore c.val (fun k => { k with waiting := .getw }) s1
  | (some i, s1) =>
    itemBegins i (finish c (fun k =>
      setG gd i.handle { k with item := some i, waiting := .none, floor := s1.dev.now }) s1)

/-- GETW. `held` and `readyWait` are the CK_FAB cycles that the counters of R390 have gained since the last GETW. A
core that waits asks again (R384). -/
def execGetw (c : Fin 129) (gd : Fin 32) (held readyWait : BitVec 32) (s : State) : Host.Outcome State Fault Refusal :=
  let s0 := countP 10 readyWait.toNat (countP 9 held.toNat s)
  .next (
    if coreRuns s c ∧ (getCore s c.val).waiting = .getw then serveGetw c gd s0
    else atLevel 2 c s (fun k =>
      match k.item with
      | some i => finish c (setG gd i.handle) s
      | none => serveGetw c gd s0))

/-- An item chosen for a held GETW in the CK_FAB cycle in which an interrupt withdraws it is kept for the core's repeated
GETW (R384): the core holds it, and the GETW returns its handle. -/
def keepChosen (c : Nat) (s : State) : State :=
  if (getCore s c).waiting = .getw ∧ (getCore s c).slot.isNone then
    match choose (groveOf c) c s with
    | (some t, s1) =>
      let (i, s2) := dispatch t .running s1
      itemBegins i (onCore c (fun k => { k with item := some i }) (ranOn t c s2))
    | (none, s1) => s1
  else s

/-- INTERRUPT (07, R327, R332; R384). `chosen`: the dispatcher chooses an item for the held GETW in the same cycle. -/
def execInterrupt (c : Fin 129) (chosen : Bool) (s : State) : Host.Outcome State Fault Refusal :=
  .next (if coreRuns s c then
      takeInterrupt c.val (onCore c.val (fun k => { k with level := 2, pc := Config.runtimeEntry }))
        (if chosen then keepChosen c.val s else s)
    else s)

/-! ## DONEW, SETEV, WAITC (R364 to R369; 07, R326) -/

/-- An instruction that takes effect at Pilot only after the core's earlier stores are visible (07, R326). -/
def afterStores (c : Fin 129) (s : State) (go : State → State) : State := pendingOr c.val (drain c.val s) go

/-- DONEW (R360; 07, R327). `cycles` is the time from the return of the item's GETW (R372). -/
def execDonew (c : Fin 129) (gs1 : Fin 32) (cycles : BitVec 32) (s : State) : Host.Outcome State Fault Refusal :=
  .next (atLevel 2 c s (fun k => afterStores c s (fun s1 =>
    match k.item with
    | some i =>
      if i.handle = getG k gs1 then finish c id (finishItem c.val i cycles.toNat (itemEnds i s1))
      else raise c 7 0 0 s1
    | none => raise c 7 0 0 s1)))

/-- Berth of the item a core holds, or the device. -/
def itemBerth (s : State) (k : Core) : Option (Fin 512) :=
  match k.item with
  | some i => (getT s i.task.toNat).berth
  | none => none

/-- A pulse by software: flag 31 is the timer's alone (R366). -/
def softPulse (t flag : Nat) (source : Option (Fin 512)) (s : State) : State :=
  if flag = 31 then s else pulse t flag source s

/-- SETEV (R369; 07, R325). -/
def execSetev (c : Fin 129) (gs1 gs2 : Fin 32) (s : State) : Host.Outcome State Fault Refusal :=
  .next (atLevel 2 c s (fun k => afterStores c s (fun s1 =>
    finish c id (softPulse ((getG k gs1).toNat % 65536) ((getG k gs2).toNat % 32) (itemBerth s1 k) s1))))

/-- What a WAITC commits (R364, R365). -/
def commitWait (c : Fin 129) (any : Bool) (v : Word) (s : State) : State :=
  if v.extractLsb' 56 8 ≠ 0 then countP 6 1 s
  else onCore c.val (fun k => { k with
    commit := if k.item.isSome then some ⟨v.extractLsb' 0 32, any, v.extractLsb' 32 24⟩ else k.commit }) s

/-- WAITC.ALL (R364). -/
def execWaitcAll (c : Fin 129) (gs1 : Fin 32) (s : State) : Host.Outcome State Fault Refusal :=
  .next (atLevel 2 c s (fun k => afterStores c s (fun s1 => finish c id (commitWait c false (getG k gs1) s1))))

/-- WAITC.ANY (R364). -/
def execWaitcAny (c : Fin 129) (gs1 : Fin 32) (s : State) : Host.Outcome State Fault Refusal :=
  .next (atLevel 2 c s (fun k => afterStores c s (fun s1 => finish c id (commitWait c true (getG k gs1) s1))))

/-! ## Events that come to Pilot -/

/-- EVENT_PULSE (R368): a pulse of a source of R369 other than SETEV. -/
def execEventPulse (task : BitVec 16) (flag : Fin 32) (source : Option (Fin 512)) (s : State) :
    Host.Outcome State Fault Refusal :=
  .next (softPulse task.toNat flag.val source s)

/-- An earlier expiry stands in the delay list of a grove (R378). -/
def earlierExpiry (s : State) (g : Fin 16) (e : BitVec 32) : Bool :=
  s.pilot.tasks.any (fun o => decide (o.2.grove = g) && o.2.expiry.any (fun d => wrapLater 32 e.toNat d.toNat))

/-- DELAY_EXPIRY (R377, R378, R380): PTICK has reached the expiry of a task's delay place, as R14 compares, and the place
is the first of its grove's list. -/
def execDelayExpiry (task : BitVec 16) (s : State) : Host.Outcome State Fault Refusal :=
  let x := getT s task.toNat
  .next (match x.expiry with
    | none => s
    | some e =>
      if wrapLater 32 e.toNat s.pilot.tick.toNat || earlierExpiry s x.grove e then s
      else grantDelay x.berth (pulse task.toNat 31 none
        (countP 5 1 (onT task.toNat (fun x => { x with expiry := none }) s))))

/-- PREFETCH_FILL (R381, R383): the empty slot of a core of a grove in PREFETCH mode. -/
def execPrefetchFill (c : Fin 128) (s : State) : Host.Outcome State Fault Refusal :=
  let g := groveOf c.val
  .next (
    if !(prefetchMode s g) ∨ (getCore s c.val).slot.isSome ∨ !(coreRuns s ⟨c.val, by omega⟩) then s
    else match choose g c.val s with
    | (none, s1) => s1
    | (some t, s1) =>
      let (i, s2) := dispatch t .prefetched s1
      onCore c.val (fun k => { k with slot := some i }) s2)

/-- CK_CORE cycles for which the items of a window have been held: those released, and `standing` for those not yet
released. -/
def windowHeld (w : List (Nat × Option Nat)) (standing : Nat) : Nat := (w.map (fun e => e.2.getD 0)).sum + standing

/-- DISPATCH_MODE_SWITCH (R382): the end of a window of 256 dispatches on a grove. `standing` is how long the items of the
window that are not yet released have been held, together. -/
def execDispatchModeSwitch (g : Fin 16) (standing : BitVec 64) (s : State) : Host.Outcome State Fault Refusal :=
  let w := tblGet [] s.pilot.windows g.val
  let held := windowHeld (w.take 256) standing.toNat
  .next (
    if w.length < 256 then s
    else onPilot (fun p => { p with
      windows := tblSet p.windows g.val (w.drop 256),
      prefetch :=
        if held < tuneEnter s * 256 * 256 then setBit p.prefetch g.val true
        else if tuneExit s * 256 * 256 < held then setBit p.prefetch g.val false
        else p.prefetch }) s)

/-! ## TASK_REC (R390) -/

/-- Code of a task state. -/
def TState.code : TState → Nat
  | .free => 0
  | .waiting => 1
  | .ready => 2
  | .prefetched => 3
  | .running => 4

/-- The 16 bytes of TASK_REC for a task. -/
def taskRecord (x : Task) : Bytes :=
  natLe 4 x.flags.toNat ++ natLe 4 x.mask.toNat ++
  natLe 1 x.state.code ++ natLe 1 (x.priority.val + b2n x.any * 8 + b2n x.expiry.isSome * 16) ++
  natLe 2 ((x.berth.map Fin.val).getD 0xFFFF) ++ natLe 1 x.grove.val ++ natLe 1 x.lastCore.toNat ++
  natLe 2 (match x.flow with
    | some f => f.val + 0x8000
    | none => 0)

/-- A write of TASK_SEL takes a snapshot of the task. -/
def selectTask (v : BitVec 16) (s : State) : State :=
  onPilot (fun p => { p with select := v, record := taskRecord (getT s v.toNat) }) s

end Sys2Proof.Machine
end

