-- ==== Sys2Proof/Machine/Failures.lean ====
section
/-! DEFINITION. Failures of units and their retirement (16_selftest_faults_recorder.md, R659 to R670; 03, R138 to R142;
05, R235; 09, R389). -/

namespace Sys2Proof.Machine

/-- The engine units run: failures are handled from Tisum's start on, outside HOLD. -/
def unitsRun (s : State) : Bool := s.sys.tisum && faultable s

/-! ## Quays (03, R138 to R142) -/

/-- The buddy can take over. -/
def buddyServes (s : State) (q : Nat) : Bool :=
  let b := buddyOf q
  s.present.quays.getLsbD b && decide ((getQuay s b).state = 0) && s.present.subchannels.getLsbD b

/-- A quay leaves dispatch, and its buddy serves both subchannels once it has taken over (R138, R140). -/
def quayOut (q state : Nat) (s : State) : State :=
  let s1 := onQuay q (fun y => { y with state := BitVec.ofNat 3 state, handing := true }) s
  onQuay (buddyOf q) (fun y => { y with state := 1, handing := false }) s1

/-- QUAY_FAILURE (R140, R142): the cause is that of record 0x3003. -/
def execQuayFailure (q : Fin 32) (cause : BitVec 16) (s : State) : Host.Outcome State Fault Refusal :=
  let y := getQuay s q.val
  .next (
    if !(unitsRun s) ∨ !(s.present.quays.getLsbD q.val) ∨ !(decide (y.state = 0 ∨ y.state = 1)) then s
    else if !(buddyServes s q.val) then subchannelLost q.val (markRetired (buddyOf q.val) s)
    else
      let s1 := logRecord 0x3003 (0x0100 + q.val) q.val (buddyOf q.val) cause.toNat (quayOut q.val 3 s)
      retire (.part (Fin.ofNat 78 q.val)) 0x3003 s1)

/-- BUDDY_TAKEOVER (R139): the scan tasks of the subchannel go on from their watermarks. -/
def execBuddyTakeover (q : Fin 32) (s : State) : Host.Outcome State Fault Refusal :=
  .next (
    if (getQuay s q.val).handing ∧ (getQuay s (buddyOf q.val)).state = 1 then
      let s1 : State := { s with scans := s.scans.map (fun (e : Nat × ScanTask) =>
        if e.2.sub = q.val ∧ e.2.active then (e.1, resetScan s e.2) else e) }
      onQuay q.val (fun y => { y with handing := false }) s1
    else s)

/-! ## Cores and groves (R660 to R662, R668; 09, R389) -/

/-- Number of the causes of a core failure (record 0x3001), and of a grove failure (record 0x3002). -/
def coreCause : CoreFault → Nat
  | .watchdog => 1
  | .exception => 2
  | .cache => 3

def groveCause : GroveFault → Nat
  | .store => 1
  | .fixedUnit => 2
  | .port => 3

/-- The present grove, other than `g`, that holds the fewest tasks (R653). -/
def emptiestGrove (s : State) (g : Nat) : Nat :=
  let others := (presentGroves s).filter (fun h => decide (h ≠ g))
  (findMin (fun h => (s.pilot.tasks.filter (fun e => decide (e.2.grove.val = h) && e.2.state != .free)).length) others).getD g

/-- A task and its instance move to another grove (R653). -/
def moveTask (t dest : Nat) (s : State) : State :=
  let x := getT s t
  let s1 := onT t (fun x => { x with grove := Fin.ofNat 16 dest, lastCore := 0xFF }) s
  match x.job with
  | some j => onI j x.stage x.inst (fun i => { i with grove := dest }) s1
  | none => s1

/-- Every task of a grove that is not RUNNING moves (R653). -/
def moveTasks (g : Nat) (s : State) : State :=
  (s.pilot.tasks.filter (fun e => decide (e.2.grove.val = g) && (e.2.state == .waiting || e.2.state == .ready))).foldl
    (fun s e => moveTask e.1 (emptiestGrove s g) s) s

/-- KINDs whose instances hold state on their grove (R235). -/
def statefulKind (kind : Nat) : Bool := decide (5 ≤ kind) && decide (kind ≤ 9)

/-- The instances on a grove that are lost with it. -/
def statefulOn (r : Run) (g : Nat) : List (Nat × Nat) :=
  (r.insts.filter (fun e => decide (e.2.grove = g) &&
    (((r.image.stages[e.1 / 32]?).map (fun x => statefulKind x.kind)).getD false))).map (fun e => (e.1 / 32, e.1 % 32))

/-- Jobs with such an instance end FAILED with STAGE(LOST). -/
def loseInstances (g : Nat) (s : State) : State :=
  s.runs.foldl (fun s e =>
    match (if e.2.placed then (statefulOn e.2 g).head? else none) with
    | some (st, i) => stopTasks e.1 (endFailed e.1 0x0403 (st * 256 + i) s)
    | none => s) s

/-- The cores of a grove. -/
def coresOf (g : Nat) : List Nat := (List.range 8).map (fun k => 8 * g + k)

/-- A core stops: isolated, its item back to READY. -/
def isolateCore (c : Nat) (s : State) : State := loseCore c (onCore c (fun k => { k with isolated := true }) s)

/-- A grove leaves for good: its items go back, stateful jobs end, the other tasks move. -/
def groveOut (g : Nat) (s : State) : State :=
  let s1 := (coresOf g).foldl (fun s c => isolateCore c s) s
  moveTasks g (loseInstances g s1)

/-- A grove is retired (R668). -/
def retireGrove (g cause : Nat) (s : State) : State := retire (.part (Fin.ofNat 78 (32 + g))) cause (groveOut g s)

/-- A core is retired; with the last of its grove the grove is, and with the last of all the module holds. -/
def retireCore (c cause : Nat) (s : State) : State :=
  let s1 := retire (.core (Fin.ofNat 128 c)) cause (isolateCore c s)
  let g := groveOf c
  let left := (coresOf g).any (fun k => s1.present.cores.getLsbD k)
  let s2 := if left ∨ !(s1.present.groves.getLsbD g) then s1 else retireGrove g cause s1
  if s2.present.cores = 0 then vitalFailed (0x0300 + c) 0 0 s2 else s2

/-- CORE_FAILURE. -/
def execCoreFailure (c : Fin 128) (cause : CoreFault) (s : State) : Host.Outcome State Fault Refusal :=
  .next (
    if !(unitsRun s) ∨ !(s.present.cores.getLsbD c.val) ∨ (getCore s c.val).isolated then s
    else retireCore c.val 0x3001 (logRecord 0x3001 (0x0300 + c.val) c.val (coreCause cause)
      ((getCore s c.val).excPc.toNat % 2 ^ 32) s))

/-- GROVE_FAILURE. -/
def execGroveFailure (g : Fin 16) (cause : GroveFault) (s : State) : Host.Outcome State Fault Refusal :=
  .next (
    if !(unitsRun s) ∨ !(s.present.groves.getLsbD g.val) then s
    else
      let s1 := retireGrove g.val 0x3002 (logRecord 0x3002 (0x0200 + g.val) g.val (groveCause cause) 0 s)
      if s1.present.groves = 0 then vitalFailed (0x0200 + g.val) 0 0 s1 else s1)

/-! ## UNIT_RETIREMENT (R668) -/

/-- A compression engine goes: the frame in hand is run again on another (R661); with none left the jobs end. -/
def engineOut (e : Nat) (s : State) : State :=
  let s1 := onEng (fun x => { x with compState := tblSet x.compState e 2 }) s
  match lowestBelow 4 (fun k => decide (k ≠ e) && engineServes s1 k) with
  | some k => if s.eng.frameJobs.isEmpty then s1 else logRecord 0x3005 (0x0500 + e) e k 0 s1
  | none =>
    if (List.range 4).any (fun k => decide (k ≠ e) && s1.present.compression.getLsbD k) then s1
    else s1.eng.frameJobs.foldl (fun s f => withoutEngines f.1 s) s1

/-- A crane channel goes: its descriptor in hand halts DEVICE_ERROR. -/
def channelOut (c : Nat) (s : State) : State :=
  let k := getCh s c
  if k.state = .running ∨ k.state = .stopping then
    onCh c (fun k => { k with fetch := false, ending := some (5, false) }) s
  else onCh c (fun k => { k with state := .halted }) s

/-- A test partition's unit is retired. -/
def retirePart (p cause : Nat) (s : State) : State :=
  let r (s : State) : State := retire (.part (Fin.ofNat 78 p)) cause s
  if p < 32 then
    if buddyServes s p then r (quayOut p 3 s) else subchannelLost p (markRetired (buddyOf p) s)
  else if p < 48 then
    let s1 := retireGrove (p - 32) cause s
    if s1.present.groves = 0 then vitalFailed (partSource p) 0 0 s1 else s1
  else if p < 64 then r (bankLost (p - 48) s)
  else if p < 68 then r (engineOut (p - 64) s)
  else vitalFailed (partSource p) p 0 s

/-- A unit that is present and may be retired. -/
def retirable (s : State) : UnitName → Bool
  | .part p =>
    !(isRetired s.mram.retired (.part p)) &&
    (decide (68 ≤ p.val) ||
      (if p.val < 32 then s.present.quays.getLsbD p.val
       else if p.val < 48 then s.present.groves.getLsbD (p.val - 32)
       else if p.val < 64 then s.present.banks.getLsbD (p.val - 48)
       else s.present.compression.getLsbD (p.val - 64)))
  | .core c => s.present.cores.getLsbD c.val
  | .channel c => s.present.channels.getLsbD c.val
  | .subchannel x => s.present.subchannels.getLsbD x.val && !(isRetired s.mram.retired (.subchannel x))

/-- A unit is retired, as R668 states for its kind; a subchannel is marked, and goes at the next boot. -/
def retireUnit (u : UnitName) (cause : Nat) (s : State) : State :=
  match u with
  | .part p => retirePart p.val cause s
  | .core c => retireCore c.val cause s
  | .channel c =>
    let s1 := retire u cause (channelOut c.val s)
    if popCount s1.present.channels ≤ 7 then vitalFailed (0x0740 + c.val) 0 0 s1 else s1
  | .subchannel x => onSub x.val (fun k => { k with state := if k.state = 0 then 2 else k.state }) (markRetired x.val s)

/-- UNIT_RETIREMENT. -/
def execUnitRetirement (u : UnitName) (cause : BitVec 16) (s : State) : Host.Outcome State Fault Refusal :=
  .next (if unitsRun s ∧ retirable s u then retireUnit u cause.toNat s else s)

/-! ## Untolerated faults (R665 to R667) -/

/-- UNTOLERATED_FAULT. -/
def execUntoleratedFault (f : FatalFault) (s : State) : Host.Outcome State Fault Refusal :=
  .next (
    if !(unitsRun s) then s
    else match f with
    | .tisumException => enterHold 0x3013 0x0000 0 0 0 s
    | .mesh k => enterHold 0x3011 (0x0900 + k.val) (72 + k.val) 0 0 s
    | .subchannelLost x => subchannelLost x.val s
    | .ownershipTable a =>
      let x := (locate s a).1
      enterHold 0x2010 (0x0100 + x) x (a % 2 ^ 32) (a / 2 ^ 32) (poisonLine (a / 64) (countMem x 5 1 s))
    | .unitFailed p => if 68 ≤ p.val then vitalFailed (partSource p.val) p.val 0 s else s
    | .lastCore => vitalFailed 0x0000 0 0 s
    | .lastChannels => vitalFailed 0x0000 0 0 s)

/-- HARBOURMASTER_LOCKSTEP_MISMATCH (R667): the first leads to HOLD served by Tisum, a second holds the Harbourmaster in
reset. -/
def execHarbourmasterLockstepMismatch (s : State) : Host.Outcome State Fault Refusal :=
  .next (
    if s.sys.mode = .reset then s
    else
      let s1 := onSys (fun y => { y with mismatches := y.mismatches + 1 }) s
      if 1 ≤ s.sys.mismatches then onSys (fun y => { y with holdDead := true }) (enterHold 0x3010 0x0380 0 0 0 s1)
      else enterHold 0x3010 0x0380 0 0 0 s1)

end Sys2Proof.Machine
end

