-- ==== Sys2Proof/Machine/Firmware.lean ====
section
/-! DEFINITION. Firmware banks in flash (15_startup_and_trust.md, R621 to R628): the header and its rules, the choice of a
bank at boot, packages, COMMIT and ABORT. -/

namespace Sys2Proof.Machine

/-! ## Banks (R621, R622) -/

/-- Size of a bank, and limits of sections 0 to 3. -/
def flashBankSize : Nat := 64 * 2 ^ 20
def sectionLimit (k : Nat) : Nat := [4 * 2 ^ 20, 256 * 2 ^ 10, 6 * 2 ^ 20, 2 ^ 20].getD k 0

/-- The cells of a bank; an erased byte reads 0xFF. -/
def flashBank (f : Flash) (k : Fin 2) : List Host.Cell := if k = 0 then f.bankA else f.bankB
def setFlashBank (k : Fin 2) (m : List Host.Cell) (f : Flash) : Flash := if k = 0 then { f with bankA := m } else { f with bankB := m }

/-- The header's 128 bytes. -/
def headerBytes (m : List Host.Cell) : Bytes := memRead 0xFF m 0 128

/-- OFFSET, LENGTH and CHECK of section `k` in a header. -/
def sectionOffset (h : Bytes) (k : Nat) : Nat := field h (0x10 + 16 * k) 4
def sectionLength (h : Bytes) (k : Nat) : Nat := field h (0x14 + 16 * k) 4
def sectionCheck (h : Bytes) (k : Nat) : Nat := field h (0x18 + 16 * k) 4

/-- Contents of section `k`. -/
def sectionBytes (m : List Host.Cell) (h : Bytes) (k : Nat) : Bytes :=
  memRead 0xFF m (sectionOffset h k) (sectionLength h k)

/-- Every reserved field of a header is zero. -/
def headerReserved (h : Bytes) : Bool :=
  allZero (slice h 1 3) && allZero (slice h 0xE 2) && allZero (slice h 0x54 43) &&
  (List.range 4).all (fun k => allZero (slice h (0x1C + 16 * k) 4))

/-- A section lies within the bank and its limit. -/
def sectionPlaced (h : Bytes) (k : Nat) : Bool :=
  let (o, n) := (sectionOffset h k, sectionLength h k)
  decide (o % 4096 = 0) && decide (0x1000 ≤ o) && decide (1 ≤ n) && decide (n ≤ sectionLimit k) && decide (o + n ≤ flashBankSize)

/-- Two sections do not overlap. -/
def sectionsApart (h : Bytes) (i k : Nat) : Bool :=
  decide (sectionOffset h i + sectionLength h i ≤ sectionOffset h k) ||
  decide (sectionOffset h k + sectionLength h k ≤ sectionOffset h i)

/-- The rules of R622 that COMMIT checks on the held header: all but SEQUENCE, HEADER_CHECK and VALID. -/
def headerRules (h : Bytes) : Bool :=
  decide (h.length = 128) && decide (field h 0 1 = 0x30) && headerReserved h && (List.range 4).all (sectionPlaced h) &&
  (List.range 4).all (fun i => (List.range i).all (fun k => sectionsApart h i k))

/-- Every section's CHECK agrees with the flash. -/
def sectionsAgree (m : List Host.Cell) (h : Bytes) : Bool :=
  (List.range 4).all (fun k => decide ((crc32c (sectionBytes m h k)).toNat = sectionCheck h k))

/-- A bank is valid (R622). -/
def firmwareValid (m : List Host.Cell) : Bool :=
  let h := headerBytes m
  headerRules h && decide (field h 0x7F 1 = 0x5A) && decide (field h 0x50 4 = (crc32c (h.take 0x50)).toNat) &&
  sectionsAgree m h

def firmwareSequence (m : List Host.Cell) : Nat := field (headerBytes m) 4 4
def firmwareVersion (m : List Host.Cell) : Nat := field (headerBytes m) 8 4
def firmwareRuntime (m : List Host.Cell) : Nat := field (headerBytes m) 0xC 2

/-! ## The choice at boot (R623) -/

/-- What the ROM finds. -/
inductive BankChoice where
  | boot (k : Fin 2)
  | noFirmware
  | bootFailed
  deriving DecidableEq, Repr

/-- BOOT_FAILS of a bank. -/
def bootFails (m : Mram) (k : Fin 2) : Nat := if k = 0 then m.bootFailsA.toNat else m.bootFailsB.toNat
def setBootFails (k : Fin 2) (v : BitVec 8) (m : Mram) : Mram :=
  if k = 0 then { m with bootFailsA := v } else { m with bootFailsB := v }

/-- The later of the two banks by SEQUENCE; A where they are equal. -/
def laterBank (f : Flash) : Fin 2 :=
  if wrapLater 32 (firmwareSequence f.bankB) (firmwareSequence f.bankA) then 1 else 0

/-- A bank may be booted. -/
def bootable (s : State) (k : Fin 2) : Bool :=
  firmwareValid (flashBank s.flash k) && decide (bootFails s.mram k < 3)

/-- R623. -/
def chooseFirmware (s : State) : BankChoice :=
  let va := firmwareValid s.flash.bankA
  let vb := firmwareValid s.flash.bankB
  match bootable s 0, bootable s 1 with
  | true, true => .boot (laterBank s.flash)
  | true, false => .boot 0
  | false, true => .boot 1
  | false, false => if va || vb then .bootFailed else .noFirmware

/-- The bank with the later SEQUENCE, among banks whose header has FORMAT 0x30. -/
def preferredBank (s : State) : Option (Fin 2) :=
  let formatted (k : Fin 2) : Bool := decide (field (headerBytes (flashBank s.flash k)) 0 1 = 0x30)
  match formatted 0, formatted 1 with
  | true, true => some (laterBank s.flash)
  | true, false => some 0
  | false, true => some 1
  | false, false => none

/-- The other bank. -/
def otherBank (k : Fin 2) : Fin 2 := if k = 0 then 1 else 0

/-- INACTIVE_STATE as found at boot (R625): invalid, valid and earlier, or later. -/
def inactiveFound (f : Flash) (booted : Fin 2) : Nat :=
  let m := flashBank f (otherBank booted)
  if !(firmwareValid m) then 0
  else if wrapLater 32 (firmwareSequence m) (firmwareSequence (flashBank f booted)) then 2
  else 1

/-- The firmware entries of a boot from bank `k`. -/
def noteBooted (k : Fin 2) (s : State) : State :=
  let m := flashBank s.flash k
  let st := inactiveFound s.flash k
  onFw (fun f => { f with
    booted := k, version := BitVec.ofNat 32 (firmwareVersion m), sequence := BitVec.ofNat 32 (firmwareSequence m),
    runtimeVersion := BitVec.ofNat 16 (firmwareRuntime m), inactiveState := BitVec.ofNat 8 st,
    inactiveVersion := if st = 0 then 0
      else BitVec.ofNat 32 (firmwareVersion (flashBank s.flash (otherBank k))) }) s

/-! ## Packages (R626) -/

/-- A long operation on firmware ends with its STATUS (R596, R597). -/
def firmwareEnds (status : Nat) (s : State) : State :=
  raiseSource 1650 (onFw (fun f => { f with status := BitVec.ofNat 16 status }) s)

/-- The bank that is not booted. -/
def inactiveBank (s : State) : Fin 2 := otherBank s.fw.booted
def onInactive (g : List Host.Cell → List Host.Cell) (s : State) : State :=
  onFlash (fun f => setFlashBank (inactiveBank s) (g (flashBank f (inactiveBank s))) f) s

/-- Package bytes go into the held sector, and beyond it into the bank. Bytes that did not read back are open. -/
def programPackage (offset : Nat) (data : Bytes) (readBack : Bool) (s : State) : State :=
  let (n, s1) := takeFresh s
  let s2 := onFw (fun f => { f with held := (f.held ++ data.take (4096 - offset)).take 4096 }) s1
  let skip := 4096 - offset
  let beyond := data.drop skip
  let placed := if readBack then beyond else (List.range beyond.length).map (Config.freeByte n)
  if beyond.isEmpty then s2 else onInactive (fun m => memWrite 0xFF m (max offset 4096) placed) s2

/-- A write to PACKAGE at offset 0: state, erase. -/
def startPackage (s : State) : State :=
  onInactive (fun _ => []) (onFw (fun f => { f with
    inactiveState := 3, inactiveVersion := 0, held := [], bytesWritten := 0, started := true }) s)

/-- A write to PACKAGE. -/
def writePackage (offset : Nat) (data : Bytes) (readBack : Bool) (s : State) : Except (BitVec 32) State :=
  if flashBankSize < offset + data.length then .error 0x06070010
  else if offset ≠ 0 ∧ (offset ≠ s.fw.bytesWritten.toNat ∨ !s.fw.started) then .error 0x08000020
  else if s.fw.status = 1 then .error 0x08000022
  else
    let s1 := if offset = 0 then startPackage s else s
    let s2 := programPackage offset data readBack s1
    .ok (firmwareEnds (if readBack then 2 else 0x8003)
      (onFw (fun f => { f with bytesWritten := BitVec.ofNat 32 (offset + data.length) }) s2))

/-! ## COMMIT and ABORT (R627, R628) -/

/-- The header that COMMIT programs. -/
def commitHeader (s : State) : Bytes :=
  let h := overlay s.fw.held 4 (natLe 4 (s.fw.sequence + 1).toNat)
  h.take 0x50 ++ natLe 4 (crc32c (h.take 0x50)).toNat ++ slice h 0x54 43 ++ [0x5A]

/-- The header is in the flash: M8, BOOT_FAILS, record 0x7001, INACTIVE_STATE. -/
def committed (h : Bytes) (s : State) : State :=
  let k := inactiveBank s
  let s1 := onInactive (fun m => memWrite 0xFF m 0 h) s
  let s2 := onMram (setBootFails k 0) (extend 8 (sha384 h) 0x7001 s1)
  let s3 := logRecord 0x7001 0 k.val (s.fw.sequence + 1).toNat (field h 8 4) s2
  firmwareEnds 2 (onFw (fun f => { f with
    inactiveState := 2, inactiveVersion := BitVec.ofNat 32 (field h 8 4), started := false }) s3)

/-- COMMIT, once the supply allows it. -/
def runCommit (readBack : Bool) (s : State) : State :=
  if !s.fw.started then firmwareEnds 0x8004 s
  else if !(headerRules (s.fw.held.take 128)) then firmwareEnds 0x8001 s
  else if !(sectionsAgree (flashBank s.flash (inactiveBank s)) (s.fw.held.take 128)) then firmwareEnds 0x8002 s
  else
    let h := commitHeader { s with fw := { s.fw with held := s.fw.held.take 128 } }
    if readBack then committed h s
    else firmwareEnds 0x8003 (onInactive (fun m => memWrite 0xFF m 0 (h.take 127)) s)

/-- COMMAND COMMIT. -/
def startCommit (readBack : Bool) (s : State) : Except (BitVec 32) State :=
  if s.fw.status = 1 then .error 0x08000022
  else if s.sys.episode.isSome then .ok (onFw (fun f => { f with status := 1, commitWaits := some readBack }) s)
  else .ok (runCommit readBack s)

/-- A COMMIT that waited goes on. -/
def releaseCommit (s : State) : State :=
  match s.fw.commitWaits with
  | some r => runCommit r (onFw (fun f => { f with commitWaits := none }) s)
  | none => s

/-- COMMAND ABORT. -/
def abortPackage (s : State) : Except (BitVec 32) State :=
  if s.fw.status = 1 then .error 0x08000022
  else .ok (onInactive (fun m => memClear m 0 4096) (onFw (fun f => { f with
    inactiveState := 0, inactiveVersion := 0, held := [], bytesWritten := 0, started := false }) s))

end Sys2Proof.Machine
end

