-- ==== Sys2Proof/Machine/Heartwood.lean ====
section
/-! DEFINITION. The Heartwood log in MRAM (16_selftest_faults_recorder.md, R676 to R683): appending, the scan at boot,
clearing, and what entry 0x5000:05 reads. -/

namespace Sys2Proof.Machine

/-- The bytes of slot `i`. A slot never written reads zero. -/
def hwSlot (m : Mram) (i : Nat) : Bytes := tblGet (List.replicate 32 0) m.slots i

/-- A slot is trusted: VALID, CHECK and SEQUENCE agree (R678). -/
def slotTrusted (m : Mram) (i : Nat) : Bool :=
  let b := hwSlot m i
  decide (b.length = 32) && decide (field b 0x1F 1 = 0x5A) && decide (field b 0x1C 2 = (crc16 (b.take 28)).toNat) &&
  decide (field b 0 4 = (m.baseSequence + BitVec.ofNat 32 i).toNat)

/-- The first slot from `i` that is not trusted (R679). -/
def firstUntrusted (m : Mram) : Nat → Nat → Nat
  | 0, i => i
  | fuel + 1, i => if decide (i < logSlots) && slotTrusted m i then firstUntrusted m fuel (i + 1) else i

/-- The slot at which appending resumes after a boot. -/
def scanLog (m : Mram) : Nat := firstUntrusted m (m.slots.length + 1) 0

/-- Tisum serves the log. -/
def tisumServes (s : State) : Bool := s.sys.tisum && !s.sys.holdDead && decide (s.sys.mode ≠ .reset)

/-- With the queue empty, the number of records lost is recorded (R677). -/
def noteLost (s : State) : State :=
  if s.log.queue = [] ∧ s.log.lost ≠ 0 ∧ !s.mram.logFull then
    logRecord 0x0011 0 s.log.lost 0 0 (onLog (fun l => { l with lost := 0 }) s)
  else s

/-- A record is written into the next slot. -/
def writeSlot (r : HwRecord) (s : State) : State :=
  let i := s.log.next
  let b := recordBytes (s.mram.baseSequence + BitVec.ofNat 32 i) r
  onLog (fun l => { l with next := i + 1 }) (onMram (fun m => { m with slots := tblSet m.slots i b }) s)

/-- The last slot has been written (R680). -/
def logBecomesFull (s : State) : State :=
  emcyRaise 0xFF04 0 0 (raiseSource 1652 (onMram (fun m => { m with logFull := true }) s))

/-- HEARTWOOD_APPEND. -/
def execHeartwoodAppend (s : State) : Host.Outcome State Fault Refusal :=
  .next (match s.log.queue with
    | [] => s
    | r :: rest =>
      if !(tisumServes s) then s
      else
        let s1 := onLog (fun l => { l with queue := rest }) s
        if s.mram.logFull then onMram dropRecord s1
        else
          let s2 := writeSlot r s1
          noteLost (if logSlots ≤ s2.log.next then logBecomesFull s2 else s2))

/-! ## Clearing (R681) -/

/-- VALID 0x00 in a slot. -/
def voidSlot (b : Bytes) : Bytes := b.take 31 ++ [0]

/-- The clear itself, in the order of R681. -/
def clearLog (s : State) : State :=
  let m := s.mram
  let r := makeRecord 0x0010 0 m.baseSequence.toNat s.log.next m.dropped.toNat s
  let s1 := onMram (fun m => { m with
    baseSequence := m.baseSequence + BitVec.ofNat 32 s.log.next, dropped := 0, logFull := false,
    slots := m.slots.map (fun e => if e.1 < s.log.next then (e.1, voidSlot e.2) else e) }) s
  let s2 := writeSlot r (onLog (fun l => { l with next := 0, clearStatus := 2 }) s1)
  raiseSource 1650 (emcyClear 0xFF04 0 0 s2)

/-- A write to CLEAR: the signature, then the clear. -/
def writeClear (value : Nat) (s : State) : Except (BitVec 32) State :=
  if value ≠ 0x65706977 then .error 0x08000020
  else if s.log.clearStatus = 1 then .error 0x08000022
  else .ok (clearLog s)

/-- `n` bytes of RECORDS from offset `o` (R683). -/
def logBytes (m : Mram) (o n : Nat) : Bytes :=
  let first := o / 32
  let slots := (List.range (n / 32 + 2)).flatMap (fun i => if first + i < logSlots then hwSlot m (first + i) else [])
  slice slots (o % 32) n

end Sys2Proof.Machine
end

