-- ==== Sys2Proof/Machine/Queues.lean ====
section
/-! DEFINITION. The queue engine (10_host_queues.md, R403 to R451): index reads, pushed granules, taking and starting of
entries, completions and their signals, queue commands, NOP and QUEUE_FENCE. -/

namespace Sys2Proof.Machine

/-- The berth of a queue; none for the manager queue, number 4,096 (R443). -/
def queueBerth (q : Nat) : Option (Fin 512) := if h : q / 8 < 512 then some ⟨q / 8, h⟩ else none

def countK (q i n : Nat) (s : State) : State := count (.queue (Fin.ofNat 4097 q)) i n s

/-- A BAR access of the host reaches the function: the link is up, the function in D0, and configuration is answered
(01, R27). -/
def barOpen (s : State) : Bool :=
  s.pcie.linkUp && !s.pcie.d3hot && (serving s || s.sys.mode == .maintenance || (s.sys.mode == .boot && s.sys.tisum))

/-- A queue may take entries: a berth queue in SERVICE and DEGRADED, not while MAINTENANCE is being entered, with its
berth ACTIVE; the manager queue also in MAINTENANCE (01, R27 to R29; R443; 11, R465). -/
def mayTake (s : State) (q : Nat) : Bool :=
  match queueBerth q with
  | none => serving s || s.sys.mode == .maintenance
  | some b => serving s && !s.sys.draining && (getB s b.val).state == .active

/-- States in which a queue reads its index block (R412). -/
def QState.live : QState → Bool
  | .active => true
  | .draining => true
  | .error => true
  | _ => false

/-- Jobs of a queue that are not final. -/
def jobsOn (s : State) (q : Nat) : List (Nat × Job) := s.jobs.filter (fun e => decide (e.2.queue = q))

/-! ## Index reads (R416, R417) -/

/-- Issue a read of the host half of the index block, or one more after that in flight (R416). -/
def issueRead (q : Nat) (s : State) : State :=
  onQ q (fun k => if k.reading then { k with readAgain := true } else { k with reading := true }) s

/-- Ask for a read; while the queue may not take, it is kept (01, R28; 11, R465). -/
def askRead (q : Nat) (s : State) : State :=
  if mayTake s q then issueRead q s else onQ q (fun k => { k with kept := true }) s

/-- A queue takes up its work again after a change of mode or of its berth's state (01, R28; 11, R464). -/
def resumeQueue (q : Nat) (s : State) : State :=
  let k := getQ s q
  if mayTake s q ∧ k.state.live ∧ (k.state = .active ∨ k.kept) then
    issueRead q (onQ q (fun k => { k with kept := false }) s)
  else s

/-- Every queue of the module does so. -/
def resumeQueues (s : State) : State := s.queues.foldl (fun s e => resumeQueue e.1 s) s

/-- Fetched but unstarted entries are discarded (R441). -/
def discardTaken (q : Nat) (s : State) : State :=
  onQ q (fun k => { k with taken := none, fetchIndex := k.sqHead, stall := false }) s

/-- The push buffer is discarded as well. -/
def discardPushed (q : Nat) (s : State) : State :=
  onQ q (fun k => { k with pushed := [], pushValid := false }) (discardTaken q s)

/-! ## Completions (R436 to R440, R451) -/

/-- The 32 bytes of a completion entry at an index (R436, R437). -/
def completionBytes (c : Completion) (index order : Nat) : Bytes :=
  natLe 8 c.tag ++ natLe 8 c.statusAddr ++ natLe 1 c.state ++ natLe 1 c.opcode ++
    natLe 1 (if bitOf index order then 0 else 1) ++ natLe 1 c.origState ++ natLe 2 c.fault ++ [0, 0] ++
    natLe 4 c.sqIndex.toNat ++ [0, 0, 0, 0]

/-- Free slots of the completion ring as last known (R425). -/
def cqFree (k : Queue) : Nat := 2 ^ k.cqOrder.toNat - (k.cqProd - k.cqConsSeen).toNat

/-- A completion may be written to the ring: CQ_CONS is known, there is a free slot, and host writes are made. -/
def postable (s : State) (q : Nat) : Bool :=
  let k := getQ s q
  hostActive s && s.pcie.linkUp && k.state.live && !k.consUnknown && decide (0 < cqFree k) &&
  match queueBerth q with
  | none => true
  | some b => !((getB s b.val).state == .frozen) && !((getB s b.val).state == .destroying)

/-- A message that follows the host writes made before it (R438). -/
def signalAfter (b : Option (Fin 512)) (v : Nat) (s : State) : State :=
  match b with
  | none => signalVector v s
  | some b =>
    if (getB s b.val).dirty.held = [] then signalVector v s
    else onB b.val (fun x => { x with dirty := { x.dirty with held := x.dirty.held ++ [⟨0, v, []⟩] } }) s

/-- The completion signal of a queue, or its deferral to the end of the holdoff (R451). -/
def notifyQueue (q : Nat) (s : State) : State :=
  let k := getQ s q
  let soon := match k.lastSignal with
    | some t => decide ((s.sys.time - t).toNat < k.holdoff.toNat)
    | none => false
  if soon then onQ q (fun k => { k with signalWaits := true }) s
  else signalAfter (queueBerth q) k.vector.toNat (onQ q (fun k => { k with lastSignal := some s.sys.time }) s)

/-- The oldest completion of the hold goes into the ring, then CQ_PROD, then the signal (R438). -/
def postOne (q : Nat) (s : State) : State :=
  let k := getQ s q
  match k.hold with
  | [] => s
  | c :: rest =>
    if !(postable s q) then s
    else
      let b := queueBerth q
      let i := k.cqProd.toNat
      let s1 := hostWrite b (k.cqBase.toNat + 32 * (i % 2 ^ k.cqOrder.toNat)) (completionBytes c i k.cqOrder.toNat) s
      let s2 := countK q 3 1 (onQ q (fun k => { k with hold := rest, cqProd := k.cqProd + 1 }) s1)
      let s3 := hostWrite b (k.indexAddr.toNat + 0x48) (natLe 4 (i + 1)) s2
      if c.notify then notifyQueue q s3 else s3

/-- The hold empties into the ring as far as it may (R439). -/
def drainHold (q : Nat) (s : State) : State := Nat.repeat (postOne q) (getQ s q).hold.length s

/-- A completion of an accepted job: neither a duplicate's (R427) nor that of an entry without a usable status block
(R428). -/
def ofAccepted (c : Completion) : Bool := decide (c.state ≠ 7) && !(decide (c.state = 5) && decide (c.fault = 0x0102))

/-- Accepted jobs whose completion entry is not yet written (R411). -/
def outstanding (s : State) (q : Nat) : Nat := (jobsOn s q).length + ((getQ s q).hold.filter ofAccepted).length

/-- The second condition of R425; the hold has a place for each completion it still has to take (R439). -/
def spaceFor (s : State) (q : Nat) : Bool :=
  decide (outstanding s q < cqFree (getQ s q) + 64) && decide ((jobsOn s q).length + (getQ s q).hold.length < cqFree (getQ s q) + 64)

/-- COMPLETION_STALL follows the second condition while an entry waits (R440). -/
def updateStall (q : Nat) (s : State) : State :=
  let k := getQ s q
  let on := k.taken.isSome && !(spaceFor s q)
  onQ q (fun k => { k with stall := on }) (if on && !k.stall then countK q 6 1 s else s)

/-- A DRAINING queue whose jobs are final and posted becomes DISABLED (R412). -/
def queueDrained (q : Nat) (s : State) : State :=
  let k := getQ s q
  if k.state = .draining ∧ (jobsOn s q).isEmpty ∧ k.hold = [] then onQ q (fun k => { k with state := .disabled }) s
  else s

/-- What follows any change of the ring, the hold or the jobs. -/
def settleQueue (q : Nat) (s : State) : State := updateStall q (queueDrained q (drainHold q s))

/-- A completion takes its place behind those before it; with the ring full a fresh read of CQ_CONS is made
(R439). -/
def complete (q : Nat) (c : Completion) (s : State) : State :=
  let s1 := settleQueue q (onQ q (fun k => { k with hold := k.hold ++ [c] }) s)
  if (getQ s1 q).hold = [] then s1 else issueRead q s1

/-! ## ERROR (R412, R423) -/

/-- The event source of a queue's errors (R443, R448). -/
def errorSource (q : Nat) : Nat :=
  match queueBerth q with
  | none => 1600
  | some b => 3 * b.val

/-- A queue enters ERROR. -/
def queueError (q cause : Nat) (s : State) : State :=
  let s1 := onQ q (fun k => { k with
    state := .error, errCause := BitVec.ofNat 4 cause, errIndex := k.sqHead,
    consUnknown := k.consUnknown || decide (cause = 6) }) (discardPushed q s)
  let s2 := match queueBerth q with
    | none => s1
    | some b => onB b.val (fun x => { x with queueErrors := setBit x.queueErrors (q % 8) true }) s1
  raiseSource (errorSource q) s2

/-! ## Doorbells, polls and the completion of reads -/

/-- DOORBELL (R416). -/
def execDoorbell (q : Fin 4097) (s : State) : Host.Outcome State Fault Refusal :=
  .next (if barOpen s ∧ (getQ s q.val).state.live then askRead q.val (countK q.val 4 1 s) else s)

/-- INDEX_POLL_EXPIRY (R417). -/
def execIndexPollExpiry (q : Fin 4097) (s : State) : Host.Outcome State Fault Refusal :=
  let k := getQ s q.val
  .next (if k.state.live ∧ k.poll ≠ 0 then issueRead q.val s else s)

/-- HOLD_POLL_EXPIRY (R417). -/
def execHoldPollExpiry (q : Fin 4097) (s : State) : Host.Outcome State Fault Refusal :=
  let k := getQ s q.val
  .next (if k.state.live ∧ k.hold ≠ [] ∧ !k.reading then issueRead q.val s else s)

/-- The CQ_CONS that a read returned. -/
def takeCons (q : Nat) (cons : BitVec 32) (s : State) : State :=
  settleQueue q (onQ q (fun k => { k with cqConsSeen := cons, consUnknown := false }) s)

/-- CQ_CONS is within R406. -/
def consOk (k : Queue) (cons : BitVec 32) : Bool := decide ((k.cqProd - cons).toNat ≤ 2 ^ k.cqOrder.toNat)

/-- SQ_PROD passes the check of R423. -/
def prodOk (k : Queue) (prod : BitVec 32) : Bool :=
  decide ((prod - k.sqHead).toNat ≤ 2 ^ k.sqOrder.toNat) &&
  (decide (prod = k.fetchIndex) || wrapLater 32 prod.toNat k.fetchIndex.toNat)

/-- SQ_PROD and CQ_CONS have been read: an ACTIVE queue checks and takes both, a DRAINING or ERROR one takes CQ_CONS
alone (R412, R422, R423). -/
def indexRead (q : Nat) (prod cons : BitVec 32) (s : State) : State :=
  let k := getQ s q
  if k.state = .active then
    if !(prodOk k prod) then
      let s1 := queueError q 5 s
      if consOk k cons then takeCons q cons s1 else s1
    else if !(consOk k cons) then queueError q 6 s
    else takeCons q cons (onQ q (fun k => { k with sqProd := prod, unread := k.unread && k.reading }) s)
  else if k.state.live ∧ consOk k cons then takeCons q cons s
  else s

/-- INDEX_READ_COMPLETE (R404, R417): the host half of the index block is read, SQ_PROD at +0x00 and CQ_CONS at +0x08. -/
def execIndexReadComplete (q : Fin 4097) (h : HostView) (s : State) : Host.Outcome State Fault Refusal :=
  let s0 := hostSync h s
  let k := getQ s0 q.val
  .next (
    if !k.reading ∨ hostBlocked s0 then s0
    else
      match hostRead (queueBerth q.val) k.indexAddr.toNat 64
          (onQ q.val (fun k => { k with reading := k.readAgain, readAgain := false }) s0) with
      | (.error _, s1) => if k.state = .active then queueError q.val 7 s1 else s1
      | (.ok b, s1) => indexRead q.val (BitVec.ofNat 32 (field b 0 4)) (BitVec.ofNat 32 (field b 8 4)) s1)

/-! ## Pushed granules (R418, R419) -/

/-- PUSH_INDEX. -/
def execPushIndex (q : Fin 4097) (index : BitVec 32) (s : State) : Host.Outcome State Fault Refusal :=
  .next (if barOpen s ∧ (getQ s q.val).state ≠ .absent then
      onQ q.val (fun k => { k with pushBase := index, pushed := [], pushValid := true }) s
    else s)

/-- Bytes written to the push buffer. -/
def pushBytes (t : Tbl Byte) : Nat → Bytes → Tbl Byte
  | _, [] => t
  | o, b :: rest => pushBytes (if o < 256 then tblSet t o b else t) (o + 1) rest

/-- PUSH_DATA. -/
def execPushData (q : Fin 4097) (offset : Fin 256) (data : Bytes) (s : State) : Host.Outcome State Fault Refusal :=
  .next (if barOpen s ∧ (getQ s q.val).state ≠ .absent then
      onQ q.val (fun k => if k.pushValid then { k with pushed := pushBytes k.pushed offset.val data } else k) s
    else s)

/-- The pushed granule of an index, when it is complete. -/
def pushedAt (k : Queue) (i : BitVec 32) : Option Bytes :=
  let j := (i - k.pushBase).toNat
  if k.pushValid ∧ j < 4 then
    let bs := (List.range 64).filterMap (fun n => tblFind k.pushed (64 * j + n))
    if bs.length = 64 then some bs else none
  else none

/-- A granule lies below the producer index. -/
def belowProd (k : Queue) (i : BitVec 32) : Bool :=
  decide (0 < (k.sqProd - i).toNat) && decide ((k.sqProd - i).toNat ≤ 2 ^ k.sqOrder.toNat)

/-! ## Taking an entry (R421 to R423) -/

/-- Opcodes of berth queues, and of the manager queue (R421, R443). -/
def berthOpcodes : List Nat :=
  [0x01, 0x02, 0x10, 0x11, 0x12, 0x13, 0x20, 0x21, 0x22, 0x23, 0x30, 0x31, 0x32, 0x33, 0x34, 0x38, 0x39, 0x3A]
def managerOpcodes : List Nat := [0x01, 0x02, 0x40, 0x41, 0x42, 0x43, 0x44]
def opcodeAllowed (q op : Nat) : Bool :=
  if (queueBerth q).isSome then berthOpcodes.contains op else managerOpcodes.contains op

/-- One granule, from the push buffer or from the ring. -/
def entryGranule (q : Nat) (k : Queue) (i : BitVec 32) (s : State) : Except Nat Bytes × State :=
  match pushedAt k i with
  | some b => (.ok b, s)
  | none => hostRead (queueBerth q) (k.sqBase.toNat + 64 * (i.toNat % 2 ^ k.sqOrder.toNat)) 64 s

/-- Granules from an index on. -/
def entryGranules (q : Nat) (k : Queue) : Nat → BitVec 32 → State → Except Nat Bytes × State
  | 0, _, s => (.ok [], s)
  | n + 1, i, s =>
    match entryGranule q k i s with
    | (.error a, s1) => (.error a, s1)
    | (.ok b, s1) =>
      match entryGranules q k n (i + 1) s1 with
      | (.error a, s2) => (.error a, s2)
      | (.ok rest, s2) => (.ok (b ++ rest), s2)

/-- The cause for which an entry is malformed, in the order of R422; 0 for none. -/
def entryCause (q : Nat) (k : Queue) (h : Bytes) : Nat :=
  let n := field h 1 1
  if !(opcodeAllowed q (field h 0 1)) then 1
  else if n = 0 ∨ 64 < n ∨ 2 ^ k.sqOrder.toNat < n then 2
  else if field h 2 2 / 2 ≠ 0 ∨ field h 4 4 ≠ 0 then 3
  else if (List.range n).all (fun i =>
      let x := k.fetchIndex + BitVec.ofNat 32 i
      (pushedAt k x).isSome || belowProd k x) then 0
  else 4

/-- How many granules of an entry are pushed ones. -/
def pushedCount (k : Queue) (n : Nat) : Nat :=
  ((List.range n).filter (fun i => (pushedAt k (k.fetchIndex + BitVec.ofNat 32 i)).isSome)).length

/-- Taking the next entry needs a read of the ring: its first granule is not a pushed one, or, where its header is sound,
another is not. -/
def needsRing (q : Nat) (k : Queue) : Bool :=
  match pushedAt k k.fetchIndex with
  | none => true
  | some h => decide (entryCause q k h = 0) && decide (pushedCount k (field h 1 1) ≠ field h 1 1)

/-- The queue engine takes the next entry of a queue. -/
def takeEntry (q : Nat) (s : State) : State :=
  let k := getQ s q
  match entryGranule q k k.fetchIndex s with
  | (.error _, s1) => queueError q 7 s1
  | (.ok h, s1) =>
    let n := field h 1 1
    match entryCause q k h with
    | 0 =>
      match entryGranules q k n k.fetchIndex s1 with
      | (.error _, s2) => queueError q 7 s2
      | (.ok bytes, s2) =>
        updateStall q (onQ q (fun k => { k with
            taken := some ⟨bytes, k.fetchIndex⟩, fetchIndex := k.fetchIndex + BitVec.ofNat 32 n })
          (countK q 1 (pushedCount k n) (countK q 0 1 s2)))
    | c => queueError q c s1

/-- ENTRY_TAKE (R422). An entry that needs a ring read waits while host reads do. -/
def execEntryTake (q : Fin 4097) (h : HostView) (s : State) : Host.Outcome State Fault Refusal :=
  let s0 := hostSync h s
  let k := getQ s q.val
  .next (
    if k.state ≠ .active ∨ !(mayTake s q.val) ∨ k.unread ∨ k.consUnknown ∨ k.taken.isSome ∨ k.fence.isSome then s0
    else if (pushedAt k k.fetchIndex).isNone ∧ !(belowProd k k.fetchIndex) then s0
    else if hostBlocked s0 ∧ needsRing q.val k then s0
    else takeEntry q.val s0)

/-! ## Starting an entry (R425 to R429) -/

/-- State and fault of the job of a tag-window entry now (R426). -/
def tagNow (s : State) (q : Nat) (e : TagEntry) : Nat × Nat :=
  match (jobsOn s q).find? (fun j => decide (j.2.tag = e.tag)) with
  | some j => (j.2.state, 0)
  | none => (e.state, e.fault)

/-- SQ_HEAD advances past a started entry and is published (R408). -/
def advanceHead (q : Nat) (t : Taken) (s : State) : State :=
  let head := t.index + BitVec.ofNat 32 (field t.bytes 1 1)
  let s1 := onQ q (fun k => { k with sqHead := head, taken := none }) s
  hostWrite (queueBerth q) ((getQ s q).indexAddr.toNat + 0x40) (natLe 4 head.toNat) s1

/-- A tag enters the window and displaces the oldest (R426). -/
def pushTag (q : Nat) (e : TagEntry) (s : State) : State :=
  onQ q (fun k => { k with tags := (e :: k.tags).take 256 }) s

/-- A tag's job is final. -/
def closeTag (q tag state fault : Nat) (s : State) : State :=
  onQ q (fun k => { k with tags := k.tags.map (fun e =>
    if e.tag = tag then { e with state := state, fault := fault } else e) }) s

/-- A started entry becomes a job: ACCEPTED, the tag, the job (R429, R433), and its image slot (04, R171). -/
def acceptEntry (q : Nat) (t : Taken) (s : State) : State :=
  let j := s.nextJob
  let x : Job := { queue := q, berth := queueBerth q, tag := field t.bytes 8 8, statusAddr := field t.bytes 16 8,
                   entry := t.bytes, opcode := field t.bytes 0 1, sqIndex := t.index, notify := bitOf (field t.bytes 2 2) 0,
                   tAccepted := s.sys.time }
  let s1 := statusWrite x 0 (statusWord x 1 0 ++ natLe 8 x.tag ++ statusRest x 0 0) s
  let s2 := countK q 2 1 (pushTag q ⟨x.tag, x.statusAddr, 1, 0⟩ s1)
  let s3 := { s2 with jobs := tblSet s2.jobs j x, nextJob := j + 1 }
  let s4 := acceptInSlots j x s3
  advanceHead q t (if x.opcode = 2 then onQ q (fun k => { k with fence := some j }) s4 else s4)

/-- The entry in hand starts: as a duplicate, as one without a usable status block, or as a job. -/
def startEntry (q : Nat) (t : Taken) (s : State) : State :=
  let tag := field t.bytes 8 8
  let addr := field t.bytes 16 8
  let c : Completion := { tag := tag, statusAddr := addr, state := 5, opcode := field t.bytes 0 1, origState := 0,
                          fault := 0x0102, sqIndex := t.index, notify := bitOf (field t.bytes 2 2) 0 }
  match (getQ s q).tags.find? (fun e => decide (e.tag = tag)) with
  | some e =>
    let (st, f) := tagNow s q e
    complete q { c with statusAddr := e.statusAddr, state := 7, origState := st, fault := f }
      (advanceHead q t (countK q 5 1 s))
  | none =>
    if addr = 0 ∨ addr % 64 ≠ 0 then
      let s1 := onQ q (fun k => { k with bad := k.bad ++ [(s.nextJob, tag)] }) { s with nextJob := s.nextJob + 1 }
      complete q c (advanceHead q t (pushTag q ⟨tag, addr, 5, 0x0102⟩ s1))
    else acceptEntry q t s

/-- ENTRY_START (R425, R429). -/
def execEntryStart (q : Fin 4097) (s : State) : Host.Outcome State Fault Refusal :=
  let k := getQ s q.val
  .next (match k.taken with
    | none => s
    | some t =>
      if k.state = .active ∧ mayTake s q.val ∧ k.fence.isNone ∧ (jobsOn s q.val).length < 256 ∧ spaceFor s q.val then
        updateStall q.val (startEntry q.val t s)
      else s)

/-! ## Queue commands (R410 to R413, R441) -/

/-- An address of the configuration is nonzero and aligned (R413). -/
def addrOk (a : BitVec 64) (align : Nat) : Bool := decide (a ≠ 0) && decide (a.toNat % align = 0)

/-- CFG_CAUSE of an ENABLE; 0 for none (R413). -/
def configCause (s : State) (q : Nat) : Nat :=
  let k := getQ s q
  let order (o : BitVec 8) : Bool := decide (4 ≤ o.toNat) && decide (o.toNat ≤ 16)
  let closed : Bool := match queueBerth q with
    | none => false
    | some b => !((getB s b.val).state == .active)
  let vector : Bool := match queueBerth q with
    | none => true
    | some b => decide ((getB s b.val).vectorBase.toNat ≤ k.vector.toNat) &&
        decide (k.vector.toNat < (getB s b.val).vectorBase.toNat + (getB s b.val).vectorCount.toNat)
  if closed then 4
  else if !(addrOk k.sqBase 64 && addrOk k.cqBase 64 && addrOk k.indexAddr 128) then 1
  else if !(order k.sqOrder && order k.cqOrder) then 2
  else if !vector then 3
  else 0

/-- ENABLE (R412). -/
def enableQueue (q : Nat) (s : State) : State :=
  let k := getQ s q
  if k.state ≠ .disabled then s
  else match configCause s q with
  | 0 =>
    let s1 := onQ q (fun k => { k with
      state := .active, cfgCause := 0, fetchIndex := k.sqHead, sqProd := k.sqHead, unread := true, consUnknown := true,
      reading := false, readAgain := false }) s
    let s2 := hostWrite (queueBerth q) (k.indexAddr.toNat + 0x40) (natLe 4 k.sqHead.toNat) s1
    issueRead q (hostWrite (queueBerth q) (k.indexAddr.toNat + 0x48) (natLe 4 k.cqProd.toNat) s2)
  | c => onQ q (fun k => { k with cfgCause := BitVec.ofNat 4 c }) s

/-- DISABLE and RESTART have an effect: not while the berth is FAULTED, FREEZING or FROZEN (11, R465). -/
def commandable (s : State) (q : Nat) : Bool :=
  match queueBerth q with
  | none => true
  | some b => (getB s b.val).state == .active

/-- DISABLE (R412, R441). -/
def disableQueue (q : Nat) (s : State) : State :=
  if commandable s q ∧ ((getQ s q).state = .active ∨ (getQ s q).state = .error) then
    queueDrained q (onQ q (fun k => { k with state := .draining, errCause := 0 }) (discardPushed q s))
  else s

/-- RESTART (R412). -/
def restartQueue (q : Nat) (s : State) : State :=
  if commandable s q ∧ (getQ s q).state = .error then
    issueRead q (onQ q (fun k => { k with state := .active, errCause := 0, fetchIndex := k.sqHead, unread := true }) s)
  else s

/-- QCMD as written: more than one of its first three bits has no effect (R410). -/
def queueCommand (q : Nat) (v : Nat) (s : State) : State :=
  match v % 8 with
  | 1 => enableQueue q s
  | 2 => disableQueue q s
  | 4 => restartQueue q s
  | _ => s

/-- ENABLE. -/
def execEnable (q : Fin 4097) (s : State) : Host.Outcome State Fault Refusal :=
  .next (if barOpen s then enableQueue q.val s else s)
/-- DISABLE. -/
def execDisable (q : Fin 4097) (s : State) : Host.Outcome State Fault Refusal :=
  .next (if barOpen s then disableQueue q.val s else s)
/-- RESTART. -/
def execRestart (q : Fin 4097) (s : State) : Host.Outcome State Fault Refusal :=
  .next (if barOpen s then restartQueue q.val s else s)

/-- Clear the counters of a block that a test names, with their OVF bits (00, R15). -/
def clearCounters (b : CounterBlock) (which : Nat → Bool) (s : State) : State :=
  let c := tblGet {} s.counters (blockKey b)
  let c1 : Counters := {
    vals := c.vals.filter (fun e => !(which e.1)),
    ovf := (List.range 32).foldl (fun v i => if which i then setBit v i false else v) c.ovf }
  { s with counters := tblSet s.counters (blockKey b) c1 }

/-- A clear, and then the count that came with it (00, R16). -/
def clearThen (b : CounterBlock) (which : Nat → Bool) (counted : Option Nat) (s : State) : State :=
  match counted with
  | some n => count b n 1 (clearCounters b which s)
  | none => clearCounters b which s

/-- QUEUE_CLEAR_STATS (R410). -/
def execQueueClearStats (q : Fin 4097) (counted : Option (Fin 7)) (s : State) : Host.Outcome State Fault Refusal :=
  .next (if barOpen s then clearThen (.queue q) (fun _ => true) (counted.map Fin.val) s else s)

/-- CLEAR_TAGS (R410). -/
def execClearTags (q : Fin 4097) (s : State) : Host.Outcome State Fault Refusal :=
  .next (if barOpen s ∧ (getQ s q.val).state = .disabled then onQ q.val (fun k => { k with tags := [] }) s else s)

/-- INT_HOLDOFF_EXPIRY (R451). -/
def execIntHoldoffExpiry (q : Fin 4097) (s : State) : Host.Outcome State Fault Refusal :=
  let k := getQ s q.val
  .next (if k.signalWaits then
      signalAfter (queueBerth q.val) k.vector.toNat
        (onQ q.val (fun k => { k with signalWaits := false, lastSignal := some s.sys.time }) s)
    else s)

/-! ## Jobs of the queue engine -/

/-- PROGRESS_WRITE (R433). -/
def execProgressWrite (job : Nat) (s : State) : Host.Outcome State Fault Refusal :=
  .next (match getJ s job with
    | none => s
    | some x =>
      if workable s x ∧ x.progress ≠ x.progressWritten then
        onJ job (fun x => { x with progressWritten := x.progress }) (statusWrite x 0x28 (natLe 4 x.progress) s)
      else s)

/-- NOP (R444, R446). -/
def execNop (job : Nat) (s : State) : Host.Outcome State Fault Refusal :=
  .next (withJob 0x01 job s (fun x =>
    if lenGranules x ≠ 1 then endFailed job 0x0103 1 s
    else match bodyZero x 0x18 40 with
    | some o => endFailed job 0x0103 o s
    | none => endDone job s))

/-- The field of a QUEUE_FENCE at fault (R445, R446). -/
def fenceBad (x : Job) : Option Nat :=
  match firstBad [(decide (lenGranules x = 1), 1),
      (decide (bodyField x 0x18 1 = 0) || (decide (bodyField x 0x18 1 = 1) && x.berth.isSome), 0x18),
      (decide (bodyField x 0x19 1 ≤ 1), 0x19)] with
  | some o => some o
  | none => bodyZero x 0x1A 38

/-- QUEUE_FENCE (R445): a fence that is sound begins to hold its queue; any other ends. -/
def execQueueFence (job : Nat) (s : State) : Host.Outcome State Fault Refusal :=
  .next (withJob 0x02 job s (fun x =>
    if x.begun then s
    else match fenceBad x with
    | some o => onQ x.queue (fun k => { k with fence := none }) (endFailed job 0x0103 o s)
    | none => beginJob job s))

/-- Queues that a fence covers: its own, or every queue of its berth (R445). -/
def fenceQueues (x : Job) : List Nat :=
  match x.berth with
  | some b => if bodyField x 0x18 1 = 1 then (List.range 8).map (fun k => 8 * b.val + k) else [x.queue]
  | none => [x.queue]

/-- FENCE_RELEASE (R445). -/
def execFenceRelease (job : Nat) (s : State) : Host.Outcome State Fault Refusal :=
  .next (withJob 0x02 job s (fun x =>
    let qs := fenceQueues x
    let bad := (qs.flatMap (fun q => (getQ s q).bad)).filter (fun e => decide (e.1 < job))
    if !x.begun ∨ s.jobs.any (fun e => decide (e.1 < job) && qs.contains e.2.queue) then s
    else
      let s1 := onQ x.queue (fun k => { k with fence := none }) s
      match findMin (fun e => e.1) bad with
      | some e => if bitOf (bodyField x 0x19 1) 0 then endFailed job 0x0104 e.2 s1 else endDone job s1
      | none => endDone job s1))

end Sys2Proof.Machine
end

