-- ==== Sys2Proof/Machine/Boot.lean ====
section
/-! DEFINITION. RESET and start-up (15_startup_and_trust.md, R616 to R630; 12_dram.md, R516, R526, R528): the lands that
release and enter RESET, the ROM, Tisum, memory bring-up, service-ready, the boot watchdog. -/

namespace Sys2Proof.Machine

/-! ## RESET (R616, R617, R643) -/

/-- MRAM as a RESET leaves it: a settings bank that was being written is invalid (R594, R643). -/
def mramAtReset (s : State) : Mram :=
  match s.dict.save with
  | some v => if v.writing then setBank (saveTarget s).1 [] s.mram else s.mram
  | none => s.mram

/-- RESET is entered: what survives is the queue of commands, the two stores, the host's memory, the cells' flaws, and
the always-on block. -/
def enterReset (cause : BitVec 8) (s : State) : State :=
  syncPins { State.reset with
    pending := s.pending
    mram := mramAtReset s
    flash := s.flash
    host := s.host
    dev := { flaws := s.dev.flaws }
    sys := {
      inputInRange := s.sys.inputInRange
      railsUp := s.sys.railsUp
      perstHigh := s.sys.perstHigh
      upUs := s.sys.upUs
      fresh := s.sys.fresh
      resetCause := cause } }

/-- RESET with its cause, unless the module is in RESET already. -/
def toReset (cause : BitVec 8) (s : State) : State := if s.sys.mode = .reset then syncPins s else enterReset cause s

/-- RESET is released into BOOT when the input is in range and PERST_N is high (R616). The reference clock is the stored
setting's (17, R697). -/
def releaseReset (s : State) : State :=
  if s.sys.mode = .reset ∧ s.sys.inputInRange ∧ s.sys.perstHigh then
    let sris := decide (tblGet 0 (bootSettings s.mram).1 (entryKey 0x2320 1) = 1)
    syncPins (onPcie (fun p => { p with refclkSris := sris })
      (onSys (fun y => { y with mode := .boot, railsUp := true }) s))
  else s

/-- POWER_INPUT_RISE. -/
def execPowerInputRise (s : State) : Host.Outcome State Fault Refusal :=
  .next (if s.sys.inputInRange then s else releaseReset (onSys (fun y => { y with inputInRange := true }) s))

/-- PERST_N_HIGH. -/
def execPerstNHigh (s : State) : Host.Outcome State Fault Refusal :=
  .next (releaseReset (onSys (fun y => { y with perstHigh := true }) s))

/-- PERST_N_LOW: the rails stay up (17, R693). -/
def execPerstNLow (s : State) : Host.Outcome State Fault Refusal :=
  .next (toReset 3 (onSys (fun y => { y with perstHigh := false }) s))

/-- INPUT_BELOW_RESET: the rails go off (17, R691, R693), and the time since power-up ends. -/
def execInputBelowReset (s : State) : Host.Outcome State Fault Refusal :=
  .next (
    let s1 := toReset 2 (onSys (fun y => { y with inputInRange := false }) s)
    syncPins (onSys (fun y => { y with railsUp := false, upUs := 0 }) s1))

/-! ## The ROM (R623, R624, R646, R648) -/

/-- The ROM measures section 0 and is ready to start Tisum. -/
def bootFrom (k : Fin 2) (s : State) : State :=
  let m := flashBank s.flash k
  extend 0 (sha384 (sectionBytes m (headerBytes m) 0)) 0 (noteBooted k (onFw (fun f => { f with selected := true }) s))

/-- Record 0x7002 when the bank booted is not the one with the later SEQUENCE. -/
def noteFallback (k : Fin 2) (s : State) : State :=
  match preferredBank s with
  | some p =>
    if p = k then s
    else logRecord 0x7002 0 k.val (firmwareSequence (flashBank s.flash k))
      (if firmwareValid (flashBank s.flash p) then 2 else 1) s
  | none => s

/-- The ROM holds: it serves a few indices itself (R630). With every valid bank excluded, the bank to be replaced is the
other than the later valid one. -/
def romHold (cause : Nat) (s : State) : State :=
  let keep : Fin 2 := if firmwareValid s.flash.bankA ∧ (!(firmwareValid s.flash.bankB) ∨ laterBank s.flash = 0) then 0
    else if firmwareValid s.flash.bankB then 1 else 0
  let s1 := if firmwareValid (flashBank s.flash keep) then noteBooted keep s
    else onFw (fun f => { f with inactiveState := BitVec.ofNat 8 (inactiveFound s.flash keep) }) s
  onSys (fun y => { y with holdRom := true }) (enterHold cause 0x0380 0 0 0 s1)

/-- R623. -/
def selectBank (s : State) : State :=
  match chooseFirmware s with
  | .boot k => bootFrom k (noteFallback k s)
  | .bootFailed => romHold 0x0005 s
  | .noFirmware => romHold 0x0004 s

/-- ROM_BANK_SELECT: the self-check of the Harbourmaster, the test of P77, the choice of a bank. -/
def execRomBankSelect (selfCheckOk pcieTestOk : Bool) (s : State) : Host.Outcome State Fault Refusal :=
  .next (
    if s.sys.mode ≠ .boot ∨ s.sys.tisum ∨ s.fw.selected then s
    else
      let s1 := if selfCheckOk then s else enterHold 0x3010 0x0380 0 0 0 s
      selectBank (if pcieTestOk then s1 else vitalFailed 0x0B00 77 0 s1))

/-! ## Tisum (R620, R624, R670) -/

/-- Sections `l` of the booted bank are as their CHECK says. -/
def sectionsRead (s : State) (l : List Nat) : Bool :=
  let m := flashBank s.flash s.fw.booted
  l.all (fun k => decide ((crc32c (sectionBytes m (headerBytes m) k)).toNat = sectionCheck (headerBytes m) k))

/-- Section `k` is measured into Mk. -/
def measureSection (k : Nat) (s : State) : State :=
  let m := flashBank s.flash s.fw.booted
  extend k (sha384 (sectionBytes m (headerBytes m) k)) (Config.bootEventCode k) s

/-- The retirement entries as read at boot: from the flash copy where the MRAM check fails (R670). -/
def readRetired (s : State) : State :=
  if s.mram.retiredOk then s
  else onMram (fun m => { m with
    retired := if s.flash.retiredOk then s.flash.retired else {}, retiredOk := true }) s

/-- Units retired earlier are not present, and show it in their state. -/
def applyRetired (s : State) : State :=
  let r := s.mram.retired
  let s1 := onPresent (fun p => { p with
    quays := ~~~(r.parts.extractLsb' 0 32), groves := ~~~(r.parts.extractLsb' 32 16),
    banks := ~~~(r.parts.extractLsb' 48 16), compression := ~~~(r.parts.extractLsb' 64 4),
    cores := ~~~r.cores, channels := ~~~r.channels }) s
  let part (p : Nat) : Bool := r.parts.getLsbD p
  let s2 := (whichBelow 32 part).foldl (fun s q =>
    onQuay (buddyOf q) (fun y => { y with state := 1 }) (onQuay q (fun y => { y with state := 3 }) s)) s1
  let s3 := (whichBelow 16 (fun b => part (48 + b))).foldl (fun s b => onBank b (fun k => { k with state := 3 }) s) s2
  let s4 := (whichBelow 4 (fun e => part (64 + e))).foldl (fun s e =>
    onEng (fun x => { x with compState := tblSet x.compState e 2 }) s) s3
  (bitList r.cores).foldl (fun s c => onCore c (fun k => { k with isolated := true }) s) s4

/-- The Harbourmaster's own region table (08, R337). -/
def ownRegions (s : State) : State :=
  onCore 128 (fun k => { k with regions := (List.range 16).map (fun i =>
    let w := Config.harbourmasterRegion (Fin.ofNat 16 i)
    (i, { base := w.1, limit := w.2 })) }) s

/-- The CAN node enters INITIALISATION with the pending node-ID and data rate (14, R601). -/
def canInit (s : State) : State :=
  onCan (fun c => { c with
    nmt := .initialisation, nodeId := BitVec.ofNat 8 (settingVal s 0x2020 3),
    dataRate := BitVec.ofNat 8 (settingVal s 0x2020 4), sessions := [] }) s

/-- Tisum's start as R618 and R624 order it. In HOLD it runs no engine unit (16, R667). -/
def startTisum (s : State) : State :=
  let holding := s.sys.mode == .hold
  let s1 := onLog (fun l => { l with next := scanLog s.mram }) (onSys (fun y => { y with tisum := true, watchdog := !holding }) s)
  let s2 := logRecord 0x0003 0 s.sys.resetCause.toNat s.mram.bootFailsA.toNat s.mram.bootFailsB.toNat s1
  let s3 := loadSettings (syncPins (canInit s2))
  let s4 := canInit (onEng (fun e => { e with craneGh7 := decide (settingActive s3 0x2310 1 = 1) }) s3)
  let s5 := extend 4 (fingerprint s4) (Config.bootEventCode 4) (measureSection 1 s4)
  let s6 := applyRetired (readRetired (ownRegions s5))
  if holding then s6 else setStruct true (measureSection 3 (measureSection 2 s6))

/-- BOOT_FAILS of the booted bank, counted (R629). -/
def countBootFail (s : State) : State :=
  let v := bootFails s.mram s.fw.booted
  onMram (setBootFails s.fw.booted (BitVec.ofNat 8 (min (v + 1) 255))) s

/-- TISUM_START: a section whose CHECK fails is a boot failure. -/
def execTisumStart (s : State) : Host.Outcome State Fault Refusal :=
  .next (
    if !s.fw.selected ∨ s.sys.tisum ∨ s.sys.holdRom ∨ s.sys.holdDead ∨ !(s.sys.mode == .boot || s.sys.mode == .hold) then s
    else if sectionsRead s (if s.sys.mode = .hold then [1] else [1, 2, 3]) then startTisum s
    else toReset 4 (countBootFail s))

/-- BOOT_WATCHDOG_EXPIRY. -/
def execBootWatchdogExpiry (s : State) : Host.Outcome State Fault Refusal :=
  .next (if s.sys.mode = .boot ∧ s.sys.watchdog then toReset 4 (countBootFail s) else s)

/-! ## Memory bring-up (12, R516, R517, R526, R528) -/

/-- The subchannel is retired or marked from an earlier boot. -/
def wasMarked (s : State) (x : Nat) : Bool := s.mram.retired.subchannels.getLsbD x

/-- How training came out for a subchannel; a stored record that does not exist, or that TRAINING_MODE passes over, means
full retraining. -/
def trainedAs (s : State) (outcomes : List TrainOutcome) (x : Nat) : TrainOutcome :=
  match outcomes.getD x .stored with
  | .stored =>
    if !(s.flash.trained.getLsbD x) then .retrained 0
    else if settingActive s 0x2300 3 = 1 then .retrained 4 else .stored
  | o => o

/-- The subchannel would be retired at this boot (R528). -/
def wouldRetire (s : State) (outcomes : List TrainOutcome) (x : Nat) : Bool :=
  wasMarked s x || decide (trainedAs s outcomes x = .failed)

/-- Reason of record 0x2041: marked, or training failed. -/
def retireReason (s : State) (x : Nat) : Nat := if wasMarked s x then 1 else 2

/-- The quays that would be retired: those retired before, and those of subchannels that would be. -/
def quaysOut (s : State) (subs : List Nat) : List Nat :=
  whichBelow 32 (fun q => s.mram.retired.parts.getLsbD q || subs.contains q)

/-- No memory can be laid out (R528). -/
def layoutRefused (s : State) (subs : List Nat) : Bool :=
  decide (2 ≤ subs.length) ||
  (quaysOut s subs).any (fun q => (quaysOut s subs).contains (buddyOf q) || subs.contains (buddyOf q))

/-- A subchannel is retired at this boot together with its quay (R526); one retired at an earlier boot is only left
out. -/
def retireAtBoot (x reason : Nat) (s : State) : State :=
  let s1 := onSub x (fun k => { k with state := 3 }) (markRetired x s)
  let s2 := onQuay (buddyOf x) (fun y => { y with state := 1 }) (onQuay x (fun y => { y with state := 3 }) s1)
  let s3 := onPresent (presentSet (.subchannel (Fin.ofNat 32 x)) false) s2
  if s.mram.retired.parts.getLsbD x ∧ reason = 1 then onPresent (presentSet (.part (Fin.ofNat 78 x)) false) s3
  else retire (.part (Fin.ofNat 78 x)) 0x2041 (logRecord 0x2041 (0x0100 + x) x reason 0 s3)

/-- A subchannel's training is noted: a rejected record, and a new one to be written. -/
def noteTraining (outcomes : List TrainOutcome) (s : State) (x : Nat) : State :=
  match trainedAs s outcomes x with
  | .retrained r =>
    let s1 := onDev (fun d => { d with retrained := setBit d.retrained x true }) s
    if r = 0 then s1 else logRecord 0x2040 (0x0100 + x) x r.val 0 s1
  | _ => s

/-- DRAM_TRAINING_COMPLETE. -/
def execDramTrainingComplete (outcomes : List TrainOutcome) (s : State) : Host.Outcome State Fault Refusal :=
  .next (
    if s.sys.mode ≠ .boot ∨ !s.sys.tisum ∨ s.sys.laidOut then s
    else
      let subs := whichBelow 32 (wouldRetire s outcomes)
      let s1 := (whichBelow 32 (fun x => !(wasMarked s x))).foldl (noteTraining outcomes) s
      if layoutRefused s subs then
        let s2 := subs.foldl (fun y x => logRecord 0x2041 (0x0100 + x) x (retireReason s x) 0 y) s1
        let first := (subs ++ quaysOut s subs).headD 0
        enterHold 0x2021 (0x0100 + first) first 0 0 s2
      else
        let s2 := subs.foldl (fun y x => retireAtBoot x (retireReason s x) y) s1
        onSys (fun y => { y with laidOut := true })
          (onDev (fun d => { d with shareGib := settingActive s 0x2300 1 }) s2))

/-! ## Service-ready (R618, R619, R639, R649) -/

/-- CODE that the record of a retirement by self-test names as its cause. -/
def bistCause : Nat := 0x6010

/-- The quay stays retired with its subchannel (12, R527). -/
def heldBySub (s : State) (p : Nat) : Bool := decide (p < 32) && !(s.present.subchannels.getLsbD p)

/-- A retired partition whose self-test has passed returns (R649, 15 R641). -/
def partReturns (p : Nat) (s : State) : State :=
  let s1 := returnUnit (.part (Fin.ofNat 78 p)) s
  if p < 32 then
    onQuay (buddyOf p) (fun y => { y with state := if y.state = 1 then 0 else y.state })
      (onQuay p (fun y => { y with state := 0, handing := false }) s1)
  else if p < 48 then s1
  else if p < 64 then onBank (p - 48) (fun k => { k with state := if s.canopy.tables.isEmpty then 0 else 2 }) s1
  else onEng (fun x => { x with compState := tblSet x.compState (p - 64) 0 }) s1

/-- A retired core that has passed returns. -/
def coreReturns (c : Nat) (s : State) : State :=
  onCore c (fun k => { k with isolated := false }) (returnUnit (.core (Fin.ofNat 128 c)) s)

/-- Retired units that a self-test has passed return; channels have no partition of their own and do not. -/
def returnPassed (parts : BitVec 80) (cores : BitVec 128) (s : State) : State :=
  let ps := whichBelow 68 (fun p => s.mram.retired.parts.getLsbD p && parts.getLsbD p && !(heldBySub s p))
  let cs := whichBelow 128 (fun c => s.mram.retired.cores.getLsbD c && cores.getLsbD c && parts.getLsbD (32 + c / 8))
  cs.foldl (fun s c => coreReturns c s) (ps.foldl (fun s p => partReturns p s) s)

/-- Units that a self-test has failed are retired, or lead to HOLD (R649). -/
def retireFailed (parts : List Nat) (cores : List Nat) (s : State) : State :=
  let step (u : UnitName) (s : State) : State :=
    if faultable s ∧ retirable s u then retireUnit u bistCause s else s
  cores.foldl (fun s c => step (.core (Fin.ofNat 128 c)) s) (parts.foldl (fun s p => step (.part (Fin.ofNat 78 p)) s) s)

/-- New training records are written, when the supply allows it (12, R516, R518). -/
def writeTraining (s : State) : State :=
  if s.sys.episode.isSome then s
  else onDev (fun d => { d with retrained := 0 })
    (onFlash (fun f => { f with trained := f.trained ||| s.dev.retrained }) s)

/-- A change into MAINTENANCE, with its record measured into M11 (R631, R642), and STRUCT_EN set. -/
def intoMaintenance (cause : Nat) (s : State) : State :=
  let r := makeRecord 0x0001 0 s.sys.mode.code Mode.maintenance.code cause s
  let d := sha384 (recordBytes (nextSequence s) r)
  setStruct true (extend 11 d 0x0001 (changeMode .maintenance cause s))

/-- The mode that BOOT or MAINTENANCE reaches: SERVICE, or DEGRADED with some unit retired (R639). -/
def intoService (cause : Nat) (s : State) : State :=
  resumeQueues (changeMode (if someRetired s then .degraded else .service) cause (setStruct false s))

/-- BOOT ends. -/
def bootEnds (bootMs : BitVec 32) (s : State) : State :=
  let s1 := onSys (fun y => { y with watchdog := false, bootTimeMs := bootMs }) (onMram (setBootFails s.fw.booted 0) s)
  let s2 := if settingVal s 0x5280 3 = 1 then resumeQueues (intoMaintenance 4 s1) else intoService 4 s1
  writeTraining (logRecord 0x0002 0 s.fw.booted.val s.fw.sequence.toNat bootMs.toNat s2)

/-- SERVICE_READY: the boot self-test's outcome, then the end of BOOT. -/
def execServiceReady (failedParts : BitVec 78) (failedCores : BitVec 128) (bootMs : BitVec 32) (s : State) :
    Host.Outcome State Fault Refusal :=
  .next (
    if s.sys.mode ≠ .boot ∨ !s.sys.tisum ∨ !s.sys.laidOut then s
    else
      let s1 := returnPassed (~~~failedParts).toNat (~~~failedCores) s
      let s2 := retireFailed (bitList failedParts) (bitList failedCores) s1
      if s2.sys.mode = .boot then bootEnds bootMs s2 else s2)

end Sys2Proof.Machine
end

