-- ==== Sys2Proof/Machine/Clock.lean ====
section
/-! DEFINITION. The tick of CK_TICK (17_physical.md, R695, R696): what time alone brings in one µs. -/

namespace Sys2Proof.Machine

/-- CK_CORE cycles in one tick of CK_TICK (R695). -/
def coreCyclesPerTick : Nat := 2200

/-- One µs outside RESET: DEVICE_TIME, CYCLE, the time since power-up, calendar time, PTICK. -/
def tick (s : State) : State :=
  { onSys (fun y => { y with
      time := y.time + 1
      cycle := y.cycle + BitVec.ofNat 64 coreCyclesPerTick
      upUs := y.upUs + 1
      calendar := y.calendar.map (· + 1) }) s with
    pilot := { s.pilot with tick := s.pilot.tick + 1 } }

/-- One µs in RESET: RESET is released where its conditions hold; with the input in range the time since power-up goes
on. -/
def resetTick (s : State) : State :=
  if s.sys.inputInRange then releaseReset (onSys (fun y => { y with upUs := y.upUs + 1 }) s) else s

/-- What a step does when no command waits. -/
def idle (s : State) : State := if s.sys.mode = .reset then resetTick s else tick s

end Sys2Proof.Machine
end

