-- ==== Sys2Proof/Machine/Digest.lean ====
section
/-! DEFINITION. The digest engine (13_cranes_compression_digest.md, R565 to R576): contexts, engine fragments, DIGEST,
DIGEST_VERIFY and SET_KEY. -/

namespace Sys2Proof.Machine

def countD (i n : Nat) (s : State) : State := count .digest i n s

/-! ## Algorithms, contexts, keys -/

/-- The hash of an ALG code, and whether it is an HMAC (R565). -/
def algOf (a : Nat) : Option (ShaAlg × Bool) :=
  match a with
  | 0x01 => some (.sha256, false)
  | 0x02 => some (.sha384, false)
  | 0x03 => some (.sha512, false)
  | 0x11 => some (.sha256, true)
  | 0x12 => some (.sha384, true)
  | 0x13 => some (.sha512, true)
  | _ => none

/-- The hash of an ALG. -/
def hashOf (a : Nat) : ShaAlg := ((algOf a).map (·.1)).getD .sha256

/-- Places of a berth's contexts and key slots in the engine's tables. -/
def contextKey (b place : Nat) : Nat := b * 64 + place
def slotKey (b slot : Nat) : Nat := b * 256 + slot

def getContext (s : State) (b place : Nat) : Option Context := tblFind s.eng.contexts (contextKey b place)
def setContext (b place : Nat) (c : Context) (s : State) : State :=
  onEng (fun e => { e with contexts := tblSet e.contexts (contextKey b place) c }) s
def dropContext (b place : Nat) (s : State) : State :=
  onEng (fun e => { e with contexts := tblErase e.contexts (contextKey b place) }) s
def getDigestJob (s : State) (j : Nat) : Option DigestJob := tblFind s.eng.digestJobs j
def setDigestJob (j : Nat) (d : DigestJob) (s : State) : State :=
  onEng (fun e => { e with digestJobs := tblSet e.digestJobs j d }) s

/-- The result of a finished message. -/
def messageDigest (c : Context) : Bytes :=
  let d := shaFinal (hashOf c.alg) c.state
  match c.outer with
  | some o => hmacFinish (hashOf c.alg) o d
  | none => d

/-! ## Body fields (R568) -/

def digestVerifies (x : Job) : Bool := decide (x.opcode = 0x33)
def digestAlg (x : Job) : Nat := bodyField x 0x2A 1
def digestPhase (x : Job) : Nat := bodyField x 0x2B 1
def digestPlace (x : Job) : Nat := bodyField x 0x2C 1
def digestSlot (x : Job) : Nat := bodyField x 0x2D 1
def fragCount (x : Job) : Nat := bodyField x 0x28 2

/-- START or ONESHOT: the job begins a message. -/
def beginsMessage (x : Job) : Bool := decide (digestPhase x = 1) || decide (digestPhase x = 3)
/-- FINISH or ONESHOT: the job ends the message with its result. -/
def endsMessage (x : Job) : Bool := decide (digestPhase x = 2) || decide (digestPhase x = 3)
/-- The job takes the states of a key slot. -/
def takesKey (x : Job) : Bool := beginsMessage x && ((algOf (digestAlg x)).map (·.2)).getD false

/-- The fault of a DIGEST or DIGEST_VERIFY entry. -/
def digestFault (x : Job) : Option (Nat × Nat) :=
  let verify := digestVerifies x
  let list := bodyField x 0x18 8
  let result := bodyField x 0x20 8
  let phase := digestPhase x
  let compare := bodyField x 0x38 1
  firstFault
    [(decide (lenGranules x = 1), engineBody, 1),
     (decide (list % 16 = 0) && (decide (fragCount x ≠ 0) || decide (list = 0)), engineBody, 0x18),
     (if verify || endsMessage x then decide (result % 16 = 0) else decide (result = 0), engineBody, 0x20),
     (decide (fragCount x ≤ 4096) && (decide (phase ≠ 4) || decide (fragCount x = 0)), engineBody, 0x28),
     ((algOf (digestAlg x)).isSome, engineBody, 0x2A),
     (if verify then endsMessage x else decide (phase ≤ 4), engineBody, 0x2B),
     (takesKey x || decide (digestSlot x = 0), engineBody, 0x2D),
     (decide (bodyField x 0x2E 1 < 4), engineBody, 0x2E),
     zeroRange x engineBody 0x2F 1,
     (verify || decide (bodyField x 0x30 8 = 0), engineBody, 0x30),
     (if verify then decide (16 ≤ compare) && decide (compare ≤ (hashOf (digestAlg x)).digestSize) else decide (compare = 0),
      engineBody, 0x38),
     zeroRange x engineBody 0x39 7]

/-! ## The turn of a job on its place (R566) -/

/-- Jobs not final, accepted before `j`, that name the same place. -/
def placeQueue (s : State) (b : Fin 512) (j place : Nat) : List (Nat × Job) :=
  (jobsOf s b).filter (fun e => decide (e.1 < j) && (decide (e.2.opcode = 0x32) || decide (e.2.opcode = 0x33)) &&
    decide (digestPlace e.2 = place))

/-- The lowest free place of a berth. -/
def freePlace (s : State) (b : Fin 512) : Option Nat :=
  lowestBelow (getB s b.val).digestContexts.toNat (fun p => (getContext s b.val p).isNone)

/-- The place a job works on now; none while it waits. A job that adds to a message does not wait for a START which
itself waits for that message; it waits while another job works on the place, a ONESHOT that was given it included. -/
def placeNow (s : State) (b : Fin 512) (j : Nat) (x : Job) : Option Nat :=
  let p := digestPlace x
  let before := placeQueue s b j p
  if p = 0xFF then freePlace s b
  else if beginsMessage x then if before.isEmpty && (getContext s b.val p).isNone then some p else none
  else if before.any (fun e => e.2.begun || !(beginsMessage e.2) || (getContext s b.val p).isNone) then none
  else if ((getContext s b.val p).bind (fun c => c.job)).isSome then none
  else some p

/-! ## Starting -/

/-- Read the fragment list: its entries, and the list index of one with a nonzero reserved field (R569). -/
def readFragments (x : Job) (s : State) : Except MoveStop (List (Nat × Nat × Nat) × Option Nat) × State :=
  let n := fragCount x
  if n = 0 then (.ok ([], none), s)
  else
    let list : Side := if bitOf (bodyField x 0x2E 1) 0 then .device (bodyField x 0x18 8) else .host (bodyField x 0x18 8)
    match readSide x.berth list (16 * n) s with
    | (.error e, s1) => (.error e, s1)
    | (.ok b, s1) =>
      let entries := (List.range n).map (fun i => (field b (16 * i) 8, field b (16 * i + 8) 4, i))
      match (List.range n).find? (fun i => decide (field b (16 * i + 12) 4 ≠ 0)) with
      | some i => (.ok (entries.take i, some i), s1)
      | none => (.ok (entries, none), s1)

/-- The verdict word of a comparator, and the bytes of a verdict (R572). -/
def verdictWord (same : Bool) : Nat := if same then 0x5A3CC35A else 0x3CA55AC3
def verdictBytes (x : Job) (a b : Bool) : Bytes :=
  natLe 4 (verdictWord a) ++ natLe 4 (0xFFFFFFFF - verdictWord b) ++ natLe 1 (bodyField x 0x38 1) ++
    natLe 1 (digestAlg x) ++ List.replicate 6 0

/-- The final write of BYTES_COMMITTED (R571). -/
def finalCounts (j : Nat) (s : State) : State :=
  match getJ s j with
  | some x => statusWrite x 0x10 (natLe 8 x.rows ++ natLe 8 x.bytes) s
  | none => s

/-- All fragments are in: the job ends, but for a DIGEST_VERIFY, whose comparison is to come. -/
def digestEnds (j : Nat) (b : Fin 512) (x : Job) (d : DigestJob) (s : State) : State :=
  match d.badIndex, getContext s b.val d.place with
  | some i, _ => endFailed j 0x0813 i s
  | none, none => s
  | none, some c =>
    if digestVerifies x then s
    else if endsMessage x then
      let s1 := hostWrite x.berth (bodyField x 0x20 8) (messageDigest c) s
      endDone j (finalCounts j (countD 0 1 (dropContext b.val d.place s1)))
    else endDone j s

/-- The comparison of a DIGEST_VERIFY (R572, R573); `agree` says that the comparators agree. Which of them is wrong
otherwise is open. -/
def digestCompares (j : Nat) (b : Fin 512) (x : Job) (c : Context) (place : Nat) (agree : Bool) (s : State) : State :=
  let n := bodyField x 0x38 1
  let at_ : Side := if bitOf (bodyField x 0x2E 1) 1 then .device (bodyField x 0x30 8) else .host (bodyField x 0x30 8)
  match readSide x.berth at_ n s with
  | (.error e, s1) => moveFailed j x.berth e s1
  | (.ok want, s1) =>
    let same := decide ((messageDigest c).take n = want)
    let (k, s2) := takeFresh s1
    let firstWrong := !agree && (Config.freeWord k).getLsbD 0
    let a := same != firstWrong
    let bb := if agree then a else !a
    let s3 := hostWrite x.berth (bodyField x 0x20 8) (verdictBytes x a bb) (if agree then s1 else s2)
    let s4 := countD 0 1 (dropContext b.val place s3)
    if agree then endDone j (finalCounts j (countD (if a then 3 else 4) 1 s4))
    else endFailed j 0x0814 0 (logRecord Config.compareDisagreeCode.toNat 0x0600 (Config.compareDisagreeParam 0).toNat
      (Config.compareDisagreeParam 1).toNat (Config.compareDisagreeParam 2).toNat (countD 5 1 s4))

/-- The state of a message at its START: that of the hash, or of the key slot (R576); or DIGEST(KEY). -/
def startState (s : State) (b : Fin 512) (x : Job) : Except (Nat × Nat) Context :=
  let alg := digestAlg x
  if takesKey x then
    match tblFind s.eng.keys (slotKey b.val (digestSlot x)) with
    | some k =>
      if digestSlot x < (getB s b.val).keySlots.toNat ∧ k.alg = alg then .ok { alg := alg, state := k.inner, outer := some k.outer }
      else .error (0x0811, digestSlot x)
    | none => .error (0x0811, digestSlot x)
  else .ok { alg := alg, state := shaInit (hashOf alg) }

/-- The message a job works on: begun now, or held by the place (R570). -/
def messageFor (s : State) (b : Fin 512) (x : Job) (place : Nat) : Except (Nat × Nat) Context :=
  if beginsMessage x then startState s b x
  else match getContext s b.val place with
    | some c => if c.alg = digestAlg x then .ok c else .error (0x0810, place)
    | none => .error (0x0810, place)

/-- A job whose turn has come takes up its message. -/
def digestBegins (j : Nat) (b : Fin 512) (x : Job) (place : Nat) (s : State) : State :=
  match messageFor s b x place with
  | .error (c, p) => endFailed j c p s
  | .ok c =>
    let s1 := setContext b.val place { c with job := some j } (beginJob j s)
    if digestPhase x = 4 then endDone j (dropContext b.val place s1)
    else match readFragments x s1 with
    | (.error e, s2) => moveFailed j x.berth e (setDigestJob j { place := place } s2)
    | (.ok (l, bad), s2) =>
      let frags := l.filter (fun f => decide (f.2.1 ≠ 0))
      let d : DigestJob := { place := place, fragments := frags, badIndex := bad, waitSince := s.sys.time.toNat }
      let s3 := setDigestJob j d s2
      if frags.isEmpty then digestEnds j b x d s3 else s3

/-- A job that must wait: counted once (CONTEXT_WAITS). -/
def digestWaits (j : Nat) (s : State) : State :=
  match getDigestJob s j with
  | some _ => s
  | none => countD 6 1 (setDigestJob j { place := 0, waits := true } s)

/-- The checks and the turn of a DIGEST or DIGEST_VERIFY job that has not begun. -/
def digestStarts (j : Nat) (x : Job) (s : State) : State :=
  match x.berth with
  | none => s
  | some b =>
    let places := (getB s b.val).digestContexts.toNat
    if places = 0 then endFailed j 0x0812 0 s
    else match digestFault x with
    | some (c, p) => endFailed j c p s
    | none =>
      if places ≤ digestPlace x ∧ !(digestPlace x = 0xFF ∧ digestPhase x = 3) then endFailed j 0x0810 (digestPlace x) s
      else if takesKey x ∧ (getB s b.val).keySlots.toNat ≤ digestSlot x then endFailed j 0x0811 (digestSlot x) s
      else match placeNow s b j x with
      | none => digestWaits j s
      | some place => digestBegins j b x place s

/-- A DIGEST job of a phase; a PHASE that is none of the five is met by any of the steps. -/
def digestStep (phase j : Nat) (h : HostView) (s : State) : State :=
  withJob 0x32 j s (fun x =>
    let s0 := hostSync h s
    if x.begun ∨ (digestPhase x ≠ phase ∧ digestPhase x ≤ 4) then s0
    else if fragCount x ≠ 0 ∧ !(bitOf (bodyField x 0x2E 1) 0) ∧ hostBlocked s0 then s0
    else digestStarts j x s0)

/-- DIGEST_START. -/
def execDigestStart (job : Nat) (h : HostView) (s : State) : Host.Outcome State Fault Refusal :=
  .next (digestStep 1 job h s)
/-- DIGEST_CONTINUE. -/
def execDigestContinue (job : Nat) (h : HostView) (s : State) : Host.Outcome State Fault Refusal :=
  .next (digestStep 0 job h s)
/-- DIGEST_FINISH. -/
def execDigestFinish (job : Nat) (h : HostView) (s : State) : Host.Outcome State Fault Refusal :=
  .next (digestStep 2 job h s)
/-- DIGEST_ONESHOT. -/
def execDigestOneshot (job : Nat) (h : HostView) (s : State) : Host.Outcome State Fault Refusal :=
  .next (digestStep 3 job h s)
/-- DIGEST_ABORT. -/
def execDigestAbort (job : Nat) (s : State) : Host.Outcome State Fault Refusal :=
  .next (digestStep 4 job ⟨[], []⟩ s)

/-- The comparison of a DIGEST_VERIFY whose fragments are all in. -/
def verifyIn (j : Nat) (x : Job) (agree : Bool) (s : State) : State :=
  match x.berth, getDigestJob s j with
  | some b, some d =>
    match getContext s b.val d.place with
    | some c =>
      if d.waits ∨ c.job ≠ some j ∨ !d.fragments.isEmpty ∨ d.badIndex.isSome then s
      else if !(bitOf (bodyField x 0x2E 1) 1) ∧ hostBlocked s then s
      else digestCompares j b x c d.place agree s
    | none => s
  | _, _ => s

/-- DIGEST_VERIFY (R572): the job takes up its message; once its fragments are in, the comparison. -/
def execDigestVerify (job : Nat) (h : HostView) (agree : Bool) (s : State) : Host.Outcome State Fault Refusal :=
  .next (withJob 0x33 job s (fun x =>
    let s0 := hostSync h s
    if x.begun then verifyIn job x agree s0
    else if fragCount x ≠ 0 ∧ !(bitOf (bodyField x 0x2E 1) 0) ∧ hostBlocked s0 then s0
    else
      let s1 := digestStarts job x s0
      match getJ s1 job with
      | some y => if y.begun && y.result.isNone then verifyIn job y agree s1 else s1
      | none => s1))

/-! ## Engine fragments (R567) -/

/-- Jobs with a fragment to come: number, berth, digest job, the fragment's bytes. -/
def fragmentWaiters (s : State) : List (Nat × Nat × DigestJob × Nat) :=
  s.eng.digestJobs.filterMap (fun e =>
    match getJ s e.1, e.2.fragments with
    | some x, f :: _ =>
      match x.berth with
      | some b => if workable s x && !e.2.waits then some (e.1, b.val, e.2, min f.2.1 16384) else none
      | none => none
    | _, _ => none)

/-- The job whose context a lane takes next, with the balances after it. -/
def chooseFragment (s : State) : Option (Nat × Nat × Tbl Nat) :=
  let all := fragmentWaiters s
  let users := (sortByKey id (all.map (fun e => e.2.1))).eraseDups
  let of (u : Nat) := findMin (fun e => e.2.2.1.waitSince) (all.filter (fun e => decide (e.2.1 = u)))
  let cost (u : Nat) : Nat := ((of u).map (fun e => e.2.2.2)).getD 0
  match drr users s.eng.digestLast s.eng.digestBalance (fun u => 64 * (getB s u).shareWeight.toNat) cost with
  | none => none
  | some (u, bal) => (of u).map (fun e => (e.1, u, bal))

/-- One engine fragment of a job goes through a lane. -/
def hashFragment (j : Nat) (x : Job) (b : Fin 512) (d : DigestJob) (s : State) : State :=
  match d.fragments, getContext s b.val d.place with
  | (a, len, i) :: rest, some c =>
    let n := min len 16384
    let side : Side := if bitOf (bodyField x 0x2E 1) 0 then .device a else .host a
    match readSide x.berth side n s with
    | (.error e, s1) => moveFailed j x.berth e s1
    | (.ok data, s1) =>
      let left := if n < len then (a + n, len - n, i) :: rest else rest
      let d1 : DigestJob := { d with fragments := left, waitSince := s.sys.time.toNat }
      let c1 : Context := { c with state := shaUpdate (hashOf c.alg) c.state data }
      let s2 := setDigestJob j d1 (setContext b.val d.place c1 (countD 1 n (countD 2 1 s1)))
      let s3 := advanceJob j 0 n s2
      if left.isEmpty then digestEnds j b x d1 s3 else s3
  | _, _ => s

/-- The next fragment comes from the host. -/
def fragmentOnHost (x : Job) : Bool := !(bitOf (bodyField x 0x2E 1) 0)

/-- FRAGMENT_COMPLETE, with the lane's busy cycles measured. -/
def execFragmentComplete (_lane : Fin 16) (busy : BitVec 32) (h : HostView) (s : State) : Host.Outcome State Fault Refusal :=
  let s0 := countD 7 busy.toNat (hostSync h s)
  .next (match chooseFragment s with
    | none => hostSync h s
    | some (j, u, bal) =>
      match getJ s j, getDigestJob s j with
      | some x, some d =>
        match x.berth with
        | some b =>
          if fragmentOnHost x ∧ hostBlocked s0 then s0
          else hashFragment j x b d (onEng (fun e => { e with digestBalance := bal, digestLast := u }) s0)
        | none => s0
      | _, _ => s0)

/-! ## Key slots (R574 to R576) -/

/-- The fault of a SET_KEY entry. -/
def keyFault (s : State) (b : Fin 512) (x : Job) : Option (Nat × Nat) :=
  let op := bodyField x 0x23 1
  let load := decide (op = 1)
  let len := bodyField x 0x20 2
  let alg := bodyField x 0x24 1
  firstFault
    [(decide (lenGranules x = 1), engineBody, 1),
     (load || decide (bodyField x 0x18 8 = 0), engineBody, 0x18),
     (if load then decide (1 ≤ len) && decide (len ≤ 256) else decide (len = 0), engineBody, 0x20),
     (decide (op = 1) || decide (op = 2), engineBody, 0x23),
     (if load then decide (0x11 ≤ alg) && decide (alg ≤ 0x13) else decide (alg = 0), engineBody, 0x24),
     zeroRange x engineBody 0x25 27,
     (decide (bodyField x 0x22 1 < (getB s b.val).keySlots.toNat), 0x0811, bodyField x 0x22 1)]

/-- The key slot an ALG and a key give (R575). -/
def keySlotOf (alg : Nat) (key : Bytes) : KeySlot :=
  ⟨alg, hmacInner (hashOf alg) key, hmacOuter (hashOf alg) key⟩

/-- SET_KEY_LOAD. -/
def execSetKeyLoad (job : Nat) (h : HostView) (s : State) : Host.Outcome State Fault Refusal :=
  .next (withJob 0x34 job s (fun x =>
    let s0 := hostSync h s
    match x.berth with
    | none => s0
    | some b =>
      if bodyField x 0x23 1 = 2 then s0
      else match keyFault s0 b x with
      | some (c, p) => endFailed job c p s0
      | none =>
        if hostBlocked s0 then s0
        else match hostRead x.berth (bodyField x 0x18 8) (bodyField x 0x20 2) (beginJob job s0) with
        | (.error a, s1) => hostReadFailed job a s1
        | (.ok key, s1) =>
          let k := keySlotOf (bodyField x 0x24 1) key
          endDone job (onEng (fun e => { e with keys := tblSet e.keys (slotKey b.val (bodyField x 0x22 1)) k })
            (countCrane 0 key.length s1))))

/-- SET_KEY_ERASE. -/
def execSetKeyErase (job : Nat) (s : State) : Host.Outcome State Fault Refusal :=
  .next (withJob 0x34 job s (fun x =>
    match x.berth with
    | none => s
    | some b =>
      if bodyField x 0x23 1 ≠ 2 then s
      else match keyFault s b x with
      | some (c, p) => endFailed job c p s
      | none =>
        endDone job (onEng (fun e => { e with keys := tblErase e.keys (slotKey b.val (bodyField x 0x22 1)) })
          (beginJob job s))))

/-! ## The end of a DIGEST job -/

/-- A job that is final leaves its place; one that FAILED or was CANCELLED abandons the message it worked on
(R566). -/
def digestLeaves (j : Nat) (x : Job) (ok : Bool) (s : State) : State :=
  let s1 := onEng (fun e => { e with digestJobs := tblErase e.digestJobs j }) s
  match x.berth, getDigestJob s j with
  | some b, some d =>
    match getContext s b.val d.place with
    | some c =>
      if d.waits ∨ c.job ≠ some j then s1
      else if ok then setContext b.val d.place { c with job := none } s1 else dropContext b.val d.place s1
    | none => s1
  | _, _ => s1

end Sys2Proof.Machine
end

