-- ==== Sys2Proof/Machine/Final.lean ====
section
/-! DEFINITION. The end of a job (10_host_queues.md, R426, R433, R438): what it releases, its final status block, its
completion. -/

namespace Sys2Proof.Machine

/-- A job leaves the slots and tables it used. -/
def leaveSlot (j : Nat) (y : Slot) : Slot :=
  { y with users := y.users.filter (fun u => decide (u ≠ j)), unloadJob := if y.unloadJob = some j then none else y.unloadJob }

def leaveTable (j : Nat) (t : CTable) : CTable :=
  { t with users := t.users.filter (fun u => decide (u ≠ j)), dropJob := if t.dropJob = some j then none else t.dropJob,
           updates := t.updates.filter (fun u => decide (u.1 ≠ j)) }

/-- A job that ends releases everything it held; its searches in flight complete, and their outcomes reach nobody (06,
R286). -/
def cleanJob (j : Nat) (x : Job) (ok : Bool) (s : State) : State :=
  let s1 := digestLeaves j x ok (destroyTasks j s)
  let s2 := match x.berth with
    | some b => leaveLoading j b
        (onB b.val (fun y => { y with slots := y.slots.map (fun (e : Nat × Slot) => (e.1, leaveSlot j e.2)) }) s1)
    | none => s1
  let canopy : Canopy := { s2.canopy with
    tables := s2.canopy.tables.map (fun (e : Nat × CTable) => (e.1, leaveTable j e.2)) }
  let eng : Engines := { s2.eng with frameJobs := tblErase s2.eng.frameJobs j }
  let s3 : State := { s2 with
    jobs := tblErase s2.jobs j, runs := tblErase s2.runs j, scans := s2.scans.filter (fun e => decide (e.2.job ≠ j)),
    canopy := canopy, eng := eng }
  onQ x.queue (fun k => { k with fence := if k.fence = some j then none else k.fence }) s3

/-- The completion of a job. -/
def completionOf (x : Job) (e : JobEnd) : Completion :=
  { tag := x.tag, statusAddr := x.statusAddr, state := e.state, opcode := x.opcode, origState := 0, fault := e.fault,
    sqIndex := x.sqIndex, notify := x.notify }

/-- The final writes to the status block (R433). -/
def finalStatus (x : Job) (e : JobEnd) (s : State) : State :=
  statusWrite x 0 (statusWord x e.state e.fault) (statusWrite x 0x10 (statusRest x e.position s.sys.time.toNat) s)

/-- A job becomes final. -/
def finishJob (j : Nat) (x : Job) (e : JobEnd) (s : State) : State :=
  let s1 := closeTag x.queue x.tag e.state e.fault (finalStatus x e s)
  let s2 := if e.state = 4 then s1 else onQ x.queue (fun k => { k with bad := k.bad ++ [(j, x.tag)] }) s1
  let s3 := cleanJob j x (decide (e.state = 4)) s2
  if x.silent then s3 else settleQueue x.queue (complete x.queue (completionOf x e) s3)

/-- A job of the manager queue, or of a berth that is not frozen. -/
def unfrozen (s : State) (x : Job) : Bool :=
  match x.berth with
  | none => true
  | some b => !((getB s b.val).state == .frozen)

/-- JOB_FINAL (R438): a job whose outcome is settled becomes final. -/
def execJobFinal (job : Nat) (s : State) : Host.Outcome State Fault Refusal :=
  .next (match getJ s job with
    | none => s
    | some x =>
      match x.result with
      | none => s
      | some e => if hostActive s ∧ unfrozen s x then finishJob job x e s else s)

end Sys2Proof.Machine
end

