-- ==== Sys2Proof/Machine/Berths.lean ====
section
/-! DEFINITION. Berths (11_berths.md, R453 to R470): their parameters, CREATE, DESTROY, CLEAR_FAULT, the pool, and what
an ownership violation does. -/

namespace Sys2Proof.Machine

/-- The answer of the last dictionary request that is a command of its own. -/
def setAnswer (data : Bytes) (abort : BitVec 32) (s : State) : State := onDict (fun d => { d with answer := ⟨data, abort⟩ }) s

/-! ## The pool (R462) -/

/-- Existing berths. -/
def existing (s : State) : List (Nat × Berth) := s.berths.filter (fun e => e.2.state != .absent)

/-- Sum of an amount over existing berths. -/
def sumOf (f : Berth → Nat) (s : State) : Nat := ((existing s).map (fun e => f e.2)).sum

/-- The extents of a berth: FIRST_GRANULE and COUNT. -/
def extentsOf (x : Berth) : List (Nat × Nat) :=
  (List.range (x.extents.length / 8)).map (fun i => (field x.extents (8 * i) 4, field x.extents (8 * i + 4) 4))

/-- The granules of extents. -/
def granulesIn (l : List (Nat × Nat)) : List Nat := l.flatMap (fun e => (List.range e.2).map (fun i => e.1 + i))

/-- TASK_QUOTA as charged (09, R386). -/
def chargedTasks (x : Berth) : Nat := roundUp x.taskQuota.toNat 4

/-- Granules of the module: installed memory less the device reserve (R458, R495). -/
def granulesTotal (s : State) : Nat := ((presentSubs s).length * 32 - 1) * 512
def granulesFree (s : State) : Nat := granulesTotal s - sumOf (fun x => ((extentsOf x).map (·.2)).sum) s
def canopyTotal (s : State) : Nat := 32768 * popCount s.present.banks
def canopyFree (s : State) : Nat := canopyTotal s - sumOf (fun x => x.canopyEntries.toNat) s
def statesTotal : Nat := 262144
def statesFree (s : State) : Nat := statesTotal - sumOf (fun x => x.patternStates.toNat) s
def tasksTotal : Nat := 64512
def tasksFree (s : State) : Nat := tasksTotal - sumOf chargedTasks s
def contextsTotal : Nat := 56
def contextsFree (s : State) : Nat := contextsTotal - sumOf (fun x => x.digestContexts.toNat) s
def keysTotal : Nat := 256
def keysFree (s : State) : Nat := keysTotal - sumOf (fun x => x.keySlots.toNat) s
def vectorsTotal : Nat := 2048
def vectorsFree (s : State) : Nat := vectorsTotal - sumOf (fun x => x.vectorCount.toNat) s

/-! ## CREATE (R458 to R460) -/

/-- The modes in which COMMAND works. -/
def commandMode (s : State) : Bool := serving s || s.sys.mode == .maintenance

/-- No two extents overlap. -/
def disjointExtents : List (Nat × Nat) → Bool
  | [] => true
  | e :: t => t.all (fun f => decide (e.1 + e.2 ≤ f.1) || decide (f.1 + f.2 ≤ e.1)) && disjointExtents t

/-- The extents may be given to a berth. -/
def extentsOk (s : State) (l : List (Nat × Nat)) : Bool :=
  decide (1 ≤ l.length) && decide (l.length ≤ 64) &&
  l.all (fun e => decide (0 < e.2) && decide (granuleBytes * (e.1 + e.2) ≤ installedBytes s)) && disjointExtents l &&
  (granulesIn l).all (fun g => (ownOf s g).owner == .free)

/-- Vector ranges of two berths overlap. -/
def vectorsMeet (x y : Berth) : Bool :=
  decide (x.vectorBase.toNat < y.vectorBase.toNat + y.vectorCount.toNat) &&
  decide (y.vectorBase.toNat < x.vectorBase.toNat + x.vectorCount.toNat)

/-- The failure code of a CREATE: the first of R458's table whose rule fails. -/
def createCode (s : State) (b : Nat) : Option Nat :=
  let x := getB s b
  (([(x.state == .absent, 0x8001),
    (commandMode s, 0x8002),
    (decide (1 ≤ x.pasid.toNat) && decide (x.pasid.toNat ≤ 0xFFFFF) &&
      (existing s).all (fun e => e.2.pasid != x.pasid), 0x8003),
    (decide (1 ≤ x.queueCount.toNat) && decide (x.queueCount.toNat ≤ 8), 0x8004),
    (extentsOk s (extentsOf x), 0x8005),
    (decide (x.canopyEntries.toNat ≤ canopyFree s) && decide (x.patternStates.toNat ≤ statesFree s), 0x8006),
    (decide (x.digestContexts.toNat ≤ contextsFree s) && decide (x.keySlots.toNat ≤ keysFree s), 0x8007),
    (decide (chargedTasks x ≤ tasksFree s), 0x8008),
    (decide (1 ≤ x.shareWeight.toNat) && decide (x.shareWeight.toNat ≤ 1000), 0x8009),
    (decide (1 ≤ x.vectorCount.toNat) && decide (x.vectorBase.toNat + x.vectorCount.toNat ≤ vectorsTotal) &&
      (existing s).all (fun e => !(vectorsMeet x e.2)), 0x800A),
    (decide (x.migrationMode.toNat ≤ 1), 0x800B)] : List (Bool × Nat)).find? (fun c => !c.1)).map (·.2)

/-- COMMAND_STATUS ends, with event source 1650 (14, R597). -/
def commandEnds (b code : Nat) (s : State) : State :=
  raiseSource 1650 (onB b (fun x => { x with commandStatus := BitVec.ofNat 16 code }) s)

/-- The numbers of a berth's queues that exist. -/
def berthQueues (s : State) (b : Nat) : List Nat := (List.range (getB s b).queueCount.toNat).map (fun k => 8 * b + k)

/-- Every queue of a berth as CREATE makes it: DISABLED, its tag window empty, its counters 0. -/
def makeQueues (b : Nat) (s : State) : State :=
  (berthQueues s b).foldl (fun s q =>
    { s with queues := tblSet s.queues q { state := .disabled },
             counters := tblErase s.counters (blockKey (.queue (Fin.ofNat 4097 q))) }) s

/-- A berth comes to exist (R460). -/
def makeBerth (b : Fin 512) (s : State) : State :=
  let s1 := (granulesIn (extentsOf (getB s b.val))).foldl (fun s g => ownGranule g (.berth b) false s) s
  makeQueues b.val (onB b.val (fun x => { x with
    state := .active, faultCode := 0, faultAddress := 0, faultCount := 0, measurementCount := 0, measurements := [],
    digest := List.replicate 48 0, queueErrors := 0, slots := [], dirty := {}, freeze := none }) s1)

/-- CREATE. -/
def createBerth (b : Fin 512) (s : State) : State :=
  match createCode s b.val with
  | some c => commandEnds b.val c s
  | none => commandEnds b.val 2 (makeBerth b s)

/-- A COMMAND reaches Tisum. -/
def execCreate (b : Fin 512) (s : State) : Host.Outcome State Fault Refusal :=
  .next (if s.sys.tisum then createBerth b s else s)

/-! ## DESTROY (R461) -/

/-- A migration job names its berth here (R486). -/
def migBerth (x : Job) : Nat := bodyField x 0x18 2

/-- Opcodes of the migration jobs. -/
def isMigration (x : Job) : Bool := decide (0x40 ≤ x.opcode) && decide (x.opcode ≤ 0x44)

/-- Numbers of the berth states (R464). -/
def BState.code : BState → Nat
  | .absent => 0
  | .active => 1
  | .faulted => 2
  | .freezing => 3
  | .frozen => 4
  | .destroying => 5

/-- MIGRATE(STATE). -/
def migrateState (j : Nat) (st : BState) (s : State) : State := endFailed j 0x0710 st.code s

/-- The migration jobs of a berth that are running end FAILED with MIGRATE(STATE). -/
def stopMigration (b : Nat) (st : BState) (s : State) : State :=
  (s.jobs.filter (fun e => isMigration e.2 && e.2.begun && decide (migBerth e.2 = b))).foldl
    (fun s e => migrateState e.1 st s) s

/-- A berth fault during FREEZING ends the freeze (R473). -/
def endFreeze (b : Nat) (s : State) : State :=
  match (getB s b).freeze with
  | some f => migrateState f.job (getB s b).state s
  | none => s

/-- Everything of a berth's jobs goes, with no word to the host. -/
def dropJobs (b : Fin 512) (s : State) : State := (jobsOf s b).foldl (fun s e => cleanJob e.1 e.2 false s) s

/-- The berth's tables, contexts and keys go. -/
def dropHoldings (b : Fin 512) (s : State) : State :=
  let s1 := ((s.canopy.tables.filter (fun e => decide (e.2.berth = b))).map (·.1)).foldl (fun s t => freeTable t s) s
  onEng (fun e => { e with
    contexts := e.contexts.filter (fun c => decide (c.1 / 64 ≠ b.val)),
    keys := e.keys.filter (fun k => decide (k.1 / 256 ≠ b.val)),
    craneBalance := tblErase e.craneBalance b.val, digestBalance := tblErase e.digestBalance b.val }) s1

/-- The berth's host writes that wait are not made, and its violations are not looked at. -/
def dropWrites (b : Fin 512) (s : State) : State :=
  let key := hostKey s (some b)
  { onPcie (fun p => { p with held := p.held.filter (fun w => decide (w.key ≠ key)) }) s with
    violations := s.violations.filter (fun v => decide (v.berth ≠ b)) }

/-- Its granules return to the pool, uninitialised. -/
def freeGranules (b : Fin 512) (s : State) : State :=
  ((s.dev.own.filter (fun e => e.2.owner == .berth b)).map (·.1)).foldl (fun s g => freeGranule g s) s

/-- Its three event sources: pending bits and ENABLE bits cleared. -/
def clearSources (b : Nat) (s : State) : State :=
  onPcie (fun p => (List.range 3).foldl (fun (p : Pcie) i =>
    { p with esPending := tblErase p.esPending (3 * b + i),
             esSteer := tblMod 0 p.esSteer (3 * b + i) (fun v => setBit v 15 false) }) p) s

/-- Its queues are ABSENT again. -/
def dropQueues (b : Nat) (s : State) : State :=
  { s with queues := s.queues.filter (fun e => decide (e.1 / 8 ≠ b)) }

/-- A berth ceases to exist, in the order of R461. -/
def removeBerth (b : Fin 512) (s : State) : State :=
  let s1 := stopMigration b.val .destroying (dropWrites b s)
  let s2 := dropQueues b.val (dropHoldings b (dropJobs b s1))
  let s3 := clearSources b.val (freeGranules b s2)
  let s4 := onPilot (fun p => { p with balance := p.balance.filter (fun e => decide (e.1 % 1024 ≠ b.val)) }) s3
  onB b.val (fun x => { x with state := .absent, slots := [], dirty := {}, freeze := none, queueErrors := 0 }) s4

/-- DESTROY. -/
def destroyBerth (b : Fin 512) (s : State) : State :=
  if (getB s b.val).state = .absent then commandEnds b.val 0x8001 s
  else if !(commandMode s) then commandEnds b.val 0x8002 s
  else commandEnds b.val 2 (removeBerth b s)

def execDestroy (b : Fin 512) (s : State) : Host.Outcome State Fault Refusal :=
  .next (if s.sys.tisum then destroyBerth b s else s)

/-! ## CLEAR_FAULT (R468) -/

/-- The queues of a berth take up their work again (R464). -/
def resumeBerth (b : Nat) (s : State) : State := (berthQueues s b).foldl (fun s q => resumeQueue q s) s

def clearFault (b : Fin 512) (s : State) : State :=
  if (getB s b.val).state ≠ .faulted then commandEnds b.val 0x8001 s
  else if !(commandMode s) then commandEnds b.val 0x8002 s
  else commandEnds b.val 2 (resumeBerth b.val (onB b.val (fun x => { x with state := .active }) s))

def execClearFault (b : Fin 512) (s : State) : Host.Outcome State Fault Refusal :=
  .next (if s.sys.tisum then clearFault b s else s)

/-! ## GRANULE_EXTENTS (R456) -/

/-- The content after a write of a piece, or the abort code. -/
def extentsWrite (x : Berth) (offset : Nat) (data : Bytes) : Except (BitVec 32) Bytes :=
  let content := if offset = 0 then data else x.extents ++ data
  if data.length % 8 ≠ 0 ∨ (offset = 0 ∨ offset = x.extents.length) ∧ (content.length < 8 ∨ 512 < content.length) then
    .error 0x06070010
  else if offset ≠ 0 ∧ offset ≠ x.extents.length then .error 0x08000020
  else if x.state ≠ .absent then .error 0x08000022
  else .ok content

/-- GRANULE_EXTENTS_WRITE. -/
def execGranuleExtentsWrite (b : Fin 512) (offset : BitVec 32) (data : Bytes) (s : State) :
    Host.Outcome State Fault Refusal :=
  .next (if !s.sys.tisum then s
    else match extentsWrite (getB s b.val) offset.toNat data with
    | .error c => setAnswer [] c s
    | .ok l => setAnswer [] 0 (onB b.val (fun x => { x with extents := l }) s))

/-! ## Berth faults (R466, R467) -/

/-- FAULT_COUNT, SATURATE 32 (R457). -/
def addFaults (b n : Nat) (s : State) : State :=
  onB b (fun x => { x with faultCount := BitVec.ofNat 32 (min (x.faultCount.toNat + n) 0xFFFFFFFF) }) s

/-- The JOB_TAG of a job. -/
def tagOf (s : State) (j : Option Nat) : Nat :=
  match j with
  | some j => ((getJ s j).map (fun x => x.tag)).getD 0
  | none => 0

/-- Every job of the berth ends: those that made the violations with BERTH(OWNERSHIP), the others with
BERTH(STOPPED). -/
def stopJobs (b : Fin 512) (vs : List Violation) (s : State) : State :=
  let tag := tagOf s ((vs.head?).bind (fun v => v.job))
  let ended := (jobsOf s b).foldl (fun s e =>
    match vs.find? (fun v => decide (v.job = some e.1)) with
    | some v => endFailed e.1 0x0701 v.addr s
    | none => endFailed e.1 0x0702 tag s) s
  (jobsOf ended b).foldl (fun s e => match e.2.result with
    | some r => finishJob e.1 e.2 r s
    | none => s) ended

/-- The berth becomes FAULTED: state, freeze, jobs, fault registers, record, event source. -/
def faultBerth (b : Fin 512) (vs : List Violation) (s : State) : State :=
  let addr := vs.foldl (fun a v => min a v.addr) ((vs.head?.map (fun v => v.addr)).getD 0)
  let s1 := onB b.val (fun x => { x with
    state := .faulted, freeze := none, faultCode := 0x0701, faultAddress := BitVec.ofNat 64 addr }) (endFreeze b.val s)
  let s2 := addFaults b.val vs.length (stopJobs b vs s1)
  raiseSource (3 * b.val + 1)
    (logRecord 0x5001 (0x1000 + b.val) b.val (addr % 2 ^ 32) (addr / 2 ^ 32) s2)

/-- The violations that a step handles: the oldest, and with `sameCycle` the next of the same berth as well. -/
def violationsNow (sameCycle : Bool) : List Violation → List Violation × List Violation
  | [] => ([], [])
  | v :: t =>
    match (if sameCycle then t.find? (fun w => decide (w.berth = v.berth)) else none) with
    | some w => ([v, w], t.erase w)
    | none => ([v], t)

/-- BERTH_FAULT. -/
def execBerthFault (sameCycle : Bool) (s : State) : Host.Outcome State Fault Refusal :=
  let (vs, rest) := violationsNow sameCycle s.violations
  let s1 : State := { s with violations := rest }
  .next (match vs with
    | [] => s
    | v :: _ =>
      match (getB s v.berth.val).state with
      | .active => faultBerth v.berth vs s1
      | .freezing => faultBerth v.berth vs s1
      | .absent => s1
      | _ => addFaults v.berth.val vs.length s1)

end Sys2Proof.Machine
end

