-- ==== Sys2Proof/Machine/BlockJobs.lean ====
section
/-! DEFINITION. PUT_BLOCKS and GET_BLOCKS (02_column_blocks.md, R81 to R90). -/

namespace Sys2Proof.Machine

/-! ## The entries (R81, R89) -/

/-- The subchannel of a PUT_BLOCKS entry. -/
def putSub (x : Job) : Nat := bodyField x 0x24 1

/-- A length of whole 64-byte lines, 64 to 0xFFFF_FFC0. -/
def lengthOk (n : Nat) : Bool := decide (n % 64 = 0) && decide (64 ≤ n)

/-- The field of a PUT_BLOCKS entry out of range (R74). A SUBCHANNEL that is absent or retired is out of range (DESIGN
CHOICE, log 211). -/
def putFault (s : State) (x : Job) : Option Nat :=
  let dst := bodyField x 0x28 8
  let sub := putSub x
  firstBad
    [(decide (lenGranules x = 1), 1),
     (decide (bodyField x 0x18 8 % 64 = 0), 0x18),
     (lengthOk (bodyField x 0x20 4), 0x20),
     (decide (sub ≤ 31) && s.present.subchannels.getLsbD sub, 0x24),
     (decide (bodyField x 0x25 1 ≤ 1), 0x25),
     (decide (bodyField x 0x26 2 = 0), 0x26),
     (decide (dst % 64 = 0) && decide (localBase s sub ≤ dst) && decide (dst < localBase s sub + localBytes s), 0x28),
     (decide (bodyField x 0x38 8 = 0), 0x38)]

/-- The field of a GET_BLOCKS entry out of range (R74). -/
def getFault (x : Job) : Option Nat :=
  firstBad
    [(decide (lenGranules x = 1), 1),
     (decide (bodyField x 0x18 8 % 64 = 0), 0x18),
     (lengthOk (bodyField x 0x20 4), 0x20),
     (decide (bodyField x 0x24 1 ≤ 1), 0x24),
     (decide (bodyField x 0x25 3 = 0), 0x25),
     (decide (bodyField x 0x28 8 % 64 = 0), 0x28),
     (allZero (slice x.entry 0x30 16), 0x30)]

/-! ## Checking a block -/

/-- Why a block job stops: a data error, a memory error or ownership violation of the check, or a transfer. -/
inductive BlockStop where
  | fault (f : StartFault)
  | transfer (e : MoveStop)
  deriving DecidableEq, Repr

/-- The answer of device memory to a block job's own access: poison ends in CRANE(DEVICE) (R90; 13, R553). -/
def blockStop (e : MoveStop) : BlockStop := .transfer e

/-- Steps 3 to 6 of R67 on the bytes of a footprint, counted at a quay. -/
def verifyBlock (q : Nat) (b : Fin 512) (h : BlockHeader) (bytes : Bytes) (s : State) : Option BlockStop × State :=
  match decodeStored q (some b) [] h (slice bytes 64 h.storedLength) s with
  | (.error f, s1) => (some (.fault f), s1)
  | (.ok _, s1) => (none, s1)

/-- A data error. -/
def dataStop (e : DataError) (position : Nat) : BlockStop := .fault (.fail e.code position)

/-- How a block job ends that stops. -/
def blockJobEnds (q j : Nat) (b : Fin 512) (r : Option BlockStop × State) : State :=
  match r with
  | (none, s) => endDone j s
  | (some (.fault f), s) => quayFailed q j (some b) f s
  | (some (.transfer e), s) => moveFailed j (some b) e s

/-! ## PUT_BLOCKS -/

/-- The directory of an append, as its head and entries. A DIR_ADDR that is no multiple of 64 is a failure of the head
(R74). CHECK, R77 and TOTAL_ROWS are not verified before the append (DESIGN CHOICE, log 212). -/
def readAppend (b : Fin 512) (dir : Nat) (s : State) : Except BlockStop (Bytes × Bytes) × State :=
  if dir % 64 ≠ 0 then (.error (dataStop .directory allOnes), s)
  else match readSide (some b) (.device dir) 64 s with
  | (.error e, s1) => (.error (blockStop e), s1)
  | (.ok head, s1) =>
    if !(dirHeadOk dir head) then (.error (dataStop .directory allOnes), s1)
    else match readSide (some b) (.device (dir + 64)) (32 * field head 4 4) s1 with
    | (.error e, s2) => (.error (blockStop e), s2)
    | (.ok body, s2) => (.ok (head, body), s2)

/-- R83, R79: the block may take the next entry. -/
def appendOk (head : Bytes) (h : BlockHeader) : Bool :=
  decide (h.type = field head 1 1) && decide (h.firstRow = field head 0x10 8) && decide (field head 4 4 < field head 8 4)

/-- The 32 bytes of the entry of a block (R76). -/
def appendEntry (at_ sub : Nat) (h : BlockHeader) : Bytes :=
  natLe 8 at_ ++ natLe 8 h.firstRow ++ natLe 4 h.rowCount ++ natLe 4 (BlockHeader.footprint h) ++ natLe 1 sub ++
    List.replicate 7 0

/-- Write bytes in device memory for a berth. -/
def blockWrite (b : Fin 512) (a : Nat) (data : Bytes) (s : State) : Option BlockStop × State :=
  match writeSide (some b) (.device a) data s with
  | (some e, s1) => (some (blockStop e), s1)
  | (none, s1) => (none, s1)

/-- Append a block: the entry, then BLOCK_COUNT, CHECK and TOTAL_ROWS (R85). -/
def appendBlock (b : Fin 512) (dir at_ sub : Nat) (head body : Bytes) (h : BlockHeader) (s : State) :
    Option BlockStop × State :=
  let n := field head 4 4
  let entry := appendEntry at_ sub h
  match blockWrite b (dir + 64 + 32 * n) entry s with
  | (some e, s1) => (some e, s1)
  | (none, s1) => blockWrite b (dir + 4)
      (natLe 4 (n + 1) ++ slice head 8 4 ++ natLe 4 (crc32c (body ++ entry)).toNat ++
        natLe 8 (field head 0x10 8 + h.rowCount)) s1

/-- Place one block whose footprint has been read, and append it where a directory is named (R82, R83). -/
def placeBlock (b : Fin 512) (dir at_ sub : Nat) (h : BlockHeader) (bytes : Bytes) (s : State) : Option BlockStop × State :=
  if dir = 0 then blockWrite b at_ bytes s
  else match readAppend b dir s with
  | (.error e, s1) => (some e, s1)
  | (.ok (head, body), s1) =>
    if !(appendOk head h) then (some (dataStop .directory (field head 4 4)), s1)
    else match blockWrite b at_ bytes s1 with
    | (some e, s2) => (some e, s2)
    | (none, s2) => appendBlock b dir at_ sub head body h s2

/-- The blocks of a PUT_BLOCKS from offset `o` on (R82 to R85). LENGTH is tested before PLACEMENT, whose position is the
header's FIRST_ROW, there being no directory entry (DESIGN CHOICE, logs 213 and 214). -/
def putLoop (j : Nat) (b : Fin 512) (x : Job) : Nat → Nat → State → Option BlockStop × State
  | 0, _, s => (none, s)
  | fuel + 1, o, s =>
    let total := bodyField x 0x20 4
    if total ≤ o then (none, s)
    else match readSide (some b) (.host (bodyField x 0x18 8 + o)) 64 s with
    | (.error e, s1) => (some (blockStop e), s1)
    | (.ok hb, s1) =>
      let h := parseHeader hb
      let n := BlockHeader.footprint h
      let at_ := bodyField x 0x28 8 + o
      if !(headerOk h true) then (some (dataStop .header h.firstRow), s1)
      else if total < o + n then (some (dataStop .length h.firstRow), s1)
      else if !(placedIn s1 (putSub x) at_ n) then (some (dataStop .placement h.firstRow), s1)
      else match readSide (some b) (.host (bodyField x 0x18 8 + o)) n s1 with
      | (.error e, s2) => (some (blockStop e), s2)
      | (.ok bytes, s2) =>
        match (if bitOf (bodyField x 0x25 1) 0 then verifyBlock (putSub x) b h bytes s2 else (none, s2)) with
        | (some e, s3) => (some e, s3)
        | (none, s3) =>
          match placeBlock b (bodyField x 0x30 8) at_ (putSub x) h bytes s3 with
          | (some e, s4) => (some e, s4)
          | (none, s4) => putLoop j b x fuel (o + n) (advanceJob j h.rowCount n (addProgress j 1 s4))

/-- PUT_BLOCKS. -/
def execPutBlocks (job : Nat) (h : HostView) (s : State) : Host.Outcome State Fault Refusal :=
  .next (withJob 0x20 job s (fun x =>
    let s1 := hostSync h s
    match x.berth, putFault s1 x with
    | none, _ => s1
    | some b, some p => quayFailed (putSub x) job (some b) (.fail DataError.body.code p) s1
    | some b, none =>
      if x.begun ∨ hostBlocked s1 then s1
      else blockJobEnds (putSub x) job b (putLoop job b x (bodyField x 0x20 4 / 64) 0 (beginJob job s1))))

/-! ## GET_BLOCKS -/

/-- The poisoned line of the dictionary object that a block refers to. -/
def dictPoison (h : BlockHeader) (bytes : Bytes) (s : State) : Option Nat :=
  match (checkPayload h (slice bytes 64 h.storedLength)).1 with
  | .error _ => none
  | .ok p =>
    let a := (dictRefOf h p).1
    (linesOf a (16 + field (devBytes s a 16) 8 4)).find? s.dev.poison.contains

/-- Steps 3 to 6 of R67 for GET_BLOCKS, which meets any memory error as CRANE(DEVICE) (R90). -/
def verifyForGet (q : Nat) (b : Fin 512) (h : BlockHeader) (bytes : Bytes) (s : State) : Option BlockStop × State :=
  let r := verifyBlock q b h bytes s
  let stop := match r.1, dictPoison h bytes r.2 with
    | some (.fault (.fail 0x0211 _)), some l => some (BlockStop.transfer (.device (l * 64) (.poisoned l)))
    | e, _ => e
  (stop, r.2)

/-- Copy `n` bytes at offset `o` to the host, with the check of R67 where VERIFY asks for it. -/
def getPiece (b : Fin 512) (x : Job) (check : Option BlockHeader) (o n : Nat) (s : State) : Option BlockStop × State :=
  match readSide (some b) (.device (bodyField x 0x18 8 + o)) n s with
  | (.error e, s1) => (some (blockStop e), s1)
  | (.ok bytes, s1) =>
    match (match check with
      | some h => verifyForGet (locate s1 (bodyField x 0x18 8 + o)).1 b h bytes s1
      | none => (none, s1)) with
    | (some e, s2) => (some e, s2)
    | (none, s2) =>
      match writeSide (some b) (.host (bodyField x 0x28 8 + o)) bytes s2 with
      | (some e, s3) => (some (blockStop e), s3)
      | (none, s3) => (none, s3)

/-- The blocks of a GET_BLOCKS with VERIFY from offset `o` on (R90). A footprint past SRC_LENGTH is LENGTH at the block's
FIRST_ROW (DESIGN CHOICE, logs 213 and 214). -/
def getVerified (j : Nat) (b : Fin 512) (x : Job) : Nat → Nat → State → Option BlockStop × State
  | 0, _, s => (none, s)
  | fuel + 1, o, s =>
    let total := bodyField x 0x20 4
    let at_ := bodyField x 0x18 8 + o
    if total ≤ o then (none, s)
    else match readSide (some b) (.device at_) 64 s with
    | (.error e, s1) => (some (blockStop e), s1)
    | (.ok hb, s1) =>
      let h := parseHeader hb
      let n := BlockHeader.footprint h
      if !(headerOk h true) then (some (dataStop .header h.firstRow), s1)
      else if total < o + n then (some (dataStop .length h.firstRow), s1)
      else if !(placedIn s1 (locate s1 at_).1 at_ n) then (some (dataStop .placement h.firstRow), s1)
      else match getPiece b x (some h) o n s1 with
      | (some e, s2) => (some e, s2)
      | (none, s2) => getVerified j b x fuel (o + n) (advanceJob j 0 n s2)

/-- The bytes of a GET_BLOCKS without VERIFY. -/
def getPlain (j : Nat) (b : Fin 512) (x : Job) : Nat → Nat → State → Option BlockStop × State
  | 0, _, s => (none, s)
  | fuel + 1, o, s =>
    let total := bodyField x 0x20 4
    let n := min moveBurst (total - o)
    if total ≤ o then (none, s)
    else match getPiece b x none o n s with
      | (some e, s1) => (some e, advanceTo j 0 o s1)
      | (none, s1) => getPlain j b x fuel (o + n) (moveAdvance j (o + n) (decide (total ≤ o + n)) s1)

/-- GET_BLOCKS. -/
def execGetBlocks (job : Nat) (s : State) : Host.Outcome State Fault Refusal :=
  .next (withJob 0x21 job s (fun x =>
    let q := (locate s (bodyField x 0x18 8)).1
    match x.berth, getFault x with
    | none, _ => s
    | some b, some p => quayFailed q job (some b) (.fail DataError.body.code p) s
    | some b, none =>
      if x.begun then s
      else
        let n := bodyField x 0x20 4
        let go := if bitOf (bodyField x 0x24 1) 0 then getVerified job b x (n / 64) 0 else getPlain job b x (n / moveBurst + 1) 0
        blockJobEnds q job b (go (beginJob job s))))

end Sys2Proof.Machine
end

