-- ==== Sys2Proof/Machine/SelfTest.lean ====
section
/-! DEFINITION. Self-test (16_selftest_faults_recorder.md, R645 to R658): sessions, in-service passes, the full pass in
MAINTENANCE. A session is one step: its unit leaves dispatch, is tested and returns within it. -/

namespace Sys2Proof.Machine

/-! ## Partitions (R645) -/

/-- Segments of a partition that in-service sessions run; 0 where the partition has none. -/
def serviceSegments (p : Nat) : Nat :=
  if p < 32 then 12 else if p < 48 then 64 else if p < 64 then 8 else if p < 68 then 6 else 0

/-- All segments of a partition. -/
def allSegments (p : Nat) : Nat :=
  if p < 32 then 32
  else if p < 68 then serviceSegments p
  else if p = 68 then 10
  else if p < 71 then 8
  else if p = 71 then 16
  else if p < 76 then 12
  else if p = 76 then 6
  else 10

/-- The partition's unit is present. -/
def partPresent (s : State) (p : Nat) : Bool :=
  if p < 32 then s.present.quays.getLsbD p
  else if p < 48 then s.present.groves.getLsbD (p - 32)
  else if p < 64 then s.present.banks.getLsbD (p - 48)
  else if p < 68 then s.present.compression.getLsbD (p - 64)
  else true

/-- Present partitions with in-service sessions (R650). -/
def serviceParts (s : State) : List Nat := whichBelow 68 (partPresent s)

/-! ## Results and passes (R658) -/

/-- RESULT of a partition: code, segments run in the pass, mismatches since RESET. -/
def resultOf (s : State) (p : Nat) : Nat × Nat × Nat := tblGet (0, 0, 0) s.bist.results p

/-- The partition is done with in the pass in hand: passed, failed or SKIPPED. -/
def partDone (s : State) (p : Nat) : Bool := decide (1 ≤ (resultOf s p).1) && decide ((resultOf s p).1 ≤ 3)

/-- Partitions that the in-service pass has still to finish. -/
def unfinished (s : State) : List Nat := (serviceParts s).filter (fun p => !(partDone s p))

/-- A pass starts: record 0x6001, results afresh, mismatches since RESET kept. -/
def startPass (kind : Fin 3) (asked : Bool) (parts : Nat) (s : State) : State :=
  onBist (fun b => { b with
    pass := kind, asked := asked, late := false, status := 1, progress := 0, retiredInPass := false,
    passMismatches := 0, waiting := [],
    results := b.results.map (fun (e : Nat × (Nat × Nat × Nat)) => (e.1, (0, 0, e.2.2.2))) })
    (logRecord 0x6001 0 kind.val parts 0 s)

/-- A pass ends: record 0x6002, event source 1654, and 1650 where the dictionary had started it (R658, R685, R597). -/
def endPass (code : BitVec 16) (s : State) : State :=
  let b := s.bist
  let parts := (b.results.filter (fun e => decide (e.2.1 = 1 ∨ e.2.1 = 2))).length
  let s1 := raiseSource 1654 (logRecord 0x6002 0 b.pass.val parts b.passMismatches s)
  let s2 := onBist (fun b => { b with
    pass := 0, late := false, asked := false, status := code, lastPassEnd := calendarNow s, waiting := [] }) s1
  if b.asked then raiseSource 1650 s2 else s2

/-- PASS_STATUS of a pass that has run to its end. -/
def passCode (s : State) : BitVec 16 := if s.bist.retiredInPass then 0x8002 else 2

/-- PASS_PROGRESS follows (a unit retired in the pass is finished too, R658), and the in-service pass ends with its last partition. -/
def settlePass (s : State) : State :=
  let done := (whichBelow 68 (partDone s)).length
  let s1 := onBist (fun b => { b with progress := BitVec.ofNat 8 done }) s
  if s1.bist.pass = 2 ∧ unfinished s1 = [] then endPass (passCode s1) s1 else s1

/-! ## Sessions (R647, R653 to R655) -/

/-- Sessions counted, SATURATE 64. -/
def countSessions (n : Nat) (s : State) : State := onBist (fun b => { b with sessions := min (b.sessions + n) (2 ^ 64 - 1) }) s

/-- Mismatches counted: MISMATCHES SATURATE 32, RESULT saturating at 16 bits, and those of the pass. -/
def countMismatch (p n : Nat) (s : State) : State :=
  onBist (fun b => { b with
    mismatches := min (b.mismatches + n) (2 ^ 32 - 1), passMismatches := b.passMismatches + n,
    results := tblMod (0, 0, 0) b.results p (fun r => (r.1, r.2.1, min (r.2.2 + n) 65535)) }) s

/-- Instances of running jobs on a grove: their KIND and GROVE_STORE. -/
def instancesOn (s : State) (g : Nat) : List (Nat × Nat) :=
  s.runs.flatMap (fun r => if r.2.placed then
      (r.2.insts.filter (fun (e : Nat × Inst) => decide (e.2.grove = g))).filterMap (fun (e : Nat × Inst) =>
        (r.2.image.stages[e.1 / 32]?).map (fun x => (x.kind, x.groveStore)))
    else [])

/-- A grove may be tested once its tasks have moved: no GROVE_STORE, no stateful instance (R654), and another grove to
take them. -/
def groveTestable (s : State) (g : Nat) : Bool :=
  (instancesOn s g).all (fun e => decide (e.2 = 0) && !(statefulKind e.1)) && (presentGroves s).any (fun h => decide (h ≠ g))

/-- No task of the grove is RUNNING. -/
def groveQuiet (s : State) (g : Nat) : Bool :=
  !(s.pilot.tasks.any (fun (e : Nat × Task) => decide (e.2.grove.val = g) && e.2.state == .running))

/-- Every table with entries in a bank is mirrored (06, R275). -/
def bankTestable (s : State) (b : Nat) : Bool :=
  s.canopy.tables.all (fun e => !((copiesOf e.2).any (fun p => decide (bankOf p = b))) || e.2.mirror.isSome)

/-- The unit's work can move to its siblings, so that a session may start (R647, R651). -/
def sessionReady (s : State) (p : Nat) : Bool :=
  if p < 32 then
    decide ((getQuay s p).state = 0) && buddyServes s p &&
    (coolEnough s || s.scans.all (fun e => !(decide (e.2.sub = p) && handBusy s e.2)))
  else if p < 48 then groveTestable s (p - 32) && groveQuiet s (p - 32)
  else if p < 64 then decide ((getBank s (p - 48)).state = 0 ∨ (getBank s (p - 48)).state = 1) && bankTestable s (p - 48)
  else if p < 68 then
    engineServes s (p - 64) && (s.eng.frameJobs.isEmpty || (List.range 4).any (fun k => decide (k ≠ p - 64) && engineServes s k))
  else false

/-- The scan tasks of a quay leave it: each finishes the stripe it has in hand, then goes back to its watermark (03,
R141). -/
def handOver (q : Nat) (s : State) : State :=
  let s1 := ((s.scans.filter (fun e => decide (e.2.sub = q) && e.2.active)).map (·.1)).foldl
    (fun s t => finishHand t handFuel s) s
  { s1 with scans := s1.scans.map (fun (e : Nat × ScanTask) =>
      if e.2.sub = q ∧ e.2.active then (e.1, resetScan s1 e.2) else e) }

/-- The unit's work has moved: a quay whose session can start hands its scan tasks over and back, a grove's tasks stay
where they went. -/
def moveWork (p : Nat) (s : State) : State :=
  if p < 32 then if sessionReady s p then handOver p s else s
  else if p < 48 then
    if groveTestable s (p - 32) then
      moveTasks (p - 32) ((List.range 8).foldl (fun s i => recallSlot (8 * (p - 32) + i) s) s)
    else s
  else if p < 64 then
    if sessionReady s p then
      sendAgain (fun k => decide (k = p - 48)) (fun _ => true) (onBank (p - 48) (fun k => { k with state := 1 }) s)
    else s
  else s

/-- The unit returns to dispatch: a Canopy bank is first loaded again from its shadow (R647, 06 R275). -/
def sessionReturns (p : Nat) (s : State) : State :=
  if 48 ≤ p ∧ p < 64 then onBank (p - 48) (fun k => { k with state := 2 }) s else s

/-- RESULT after segments have been run without a failure that stands. -/
def segmentsRun (p n : Nat) (s : State) : State :=
  onBist (fun b => { b with results := tblMod (0, 0, 0) b.results p (fun r =>
    let run := min (r.2.1 + n) 255
    (if serviceSegments p ≤ run then 1 else 4, run, r.2.2)) }) s

/-- A segment differs in both runs: the unit is retired (R655, R668). -/
def sessionFails (p : Nat) (s : State) : State :=
  let s1 := onBist (fun b => { b with
    retiredInPass := true,
    results := tblMod (0, 0, 0) b.results p (fun r => (2, r.2.1, r.2.2)) }) s
  retirePart p bistCause s1

/-- What a session's outcome leaves. The segment that differs is the last one run. -/
def sessionOutcome (p first n : Nat) (outcome : SegmentOutcome) (s : State) : State :=
  let last := first + n - 1
  let miss (run : Nat) (s : State) : State := logRecord 0x6010 (partSource p) p last run s
  match outcome with
  | .pass => sessionReturns p (segmentsRun p n (countSessions 1 s))
  | .failOnce =>
    let s1 := countMismatch p 1 (miss 1 (countSessions 2 s))
    sessionReturns p (segmentsRun p n (logRecord 0x6011 (partSource p) p last 0 s1))
  | .failTwice => sessionFails p (segmentsRun p n (countMismatch p 2 (miss 2 (miss 1 (countSessions 2 s)))))
  | .abandoned => sessionReturns p s

/-- A session that cannot start waits for its retry. -/
def sessionWaits (p : Nat) (s : State) : State :=
  onBist (fun b => { b with waiting := if b.waiting.contains p then b.waiting else b.waiting ++ [p] }) s

/-- The pass that a due session belongs to: the one in hand, or a new one of its own accord (R650). -/
def passFor (s : State) : Option State :=
  if s.bist.pass = 2 then some s
  else if s.bist.pass = 0 ∧ settingVal s 0x4100 4 = 1 then some (startPass 2 false (serviceParts s).length s)
  else none

/-- SELF_TEST_SESSION: the next `segments` segments of a partition, from `segment` on. -/
def execSelfTestSession (p : Fin 78) (segment segments : Fin 64) (outcome : SegmentOutcome) (s : State) :
    Host.Outcome State Fault Refusal :=
  .next (
    if !(serving s) ∨ !(partPresent s p.val) then s
    else match passFor s with
    | none => s
    | some s1 =>
      let n := segments.val
      let fits := decide (1 ≤ n) && decide (segment.val + n ≤ serviceSegments p.val)
      if !fits ∨ partDone s1 p.val ∨ (resultOf s1 p.val).2.1 ≠ segment.val ∨ s1.bist.waiting.contains p.val then s
      else
        let s2 := moveWork p.val s1
        if sessionReady s2 p.val then settlePass (sessionOutcome p.val segment.val n outcome s2)
        else sessionWaits p.val s2)

/-- SESSION_RETRY. -/
def execSessionRetry (p : Fin 78) (s : State) : Host.Outcome State Fault Refusal :=
  .next (onBist (fun b => { b with waiting := b.waiting.filter (fun x => decide (x ≠ p.val)) }) s)

/-- PASS_LATE: record 0x6003; partitions that stayed untestable are SKIPPED (R651). -/
def execPassLate (s : State) : Host.Outcome State Fault Refusal :=
  .next (
    if !(serving s) ∨ s.bist.pass ≠ 2 ∨ s.bist.late then s
    else
      let s1 := logRecord 0x6003 0 (unfinished s).length 0 0 s
      let skip := s.bist.waiting.filter (fun p => decide ((resultOf s p).2.1 = 0))
      settlePass (onBist (fun b => { b with
        late := true,
        waiting := b.waiting.filter (fun p => !(skip.contains p)),
        results := skip.foldl (fun t p => tblMod (0, 0, 0) t p (fun r => (3, r.2))) b.results }) s1))

/-! ## PASS_REQUEST (R657, R658) -/

/-- Both runs of a failing segment are recorded; which segment it was is open. -/
def recordMisses (p : Nat) (s : State) : State :=
  let (n, s1) := takeFresh s
  let seg := (Config.freeWord n).toNat % allSegments p
  logRecord 0x6010 (partSource p) p seg 2 (logRecord 0x6010 (partSource p) p seg 1 s1)

/-- One partition of the full pass. -/
def fullPart (failed : BitVec 77) (s : State) (p : Nat) : State :=
  if !(faultable s) then s
  else
    let bad := failed.getLsbD p
    let s1 := countSessions (allSegments p) (onBist (fun b => { b with
      progress := b.progress + 1,
      results := tblMod (0, 0, 0) b.results p (fun r => (if bad then 2 else 1, allSegments p, r.2.2)) }) s)
    if !bad then s1
    else
      let s2 := recordMisses p (countMismatch p 2 s1)
      if retirable s2 (.part (Fin.ofNat 78 p)) then
        retirePart p bistCause (onBist (fun b => { b with retiredInPass := true }) s2)
      else s2

/-- A retired subchannel that has passed its segments and its pattern test, with the quay retired with it: their entries
clear, and they are used from the next boot (12, R527). -/
def subPasses (failed : BitVec 77) (patterns : BitVec 32) (s : State) (x : Nat) : State :=
  if s.present.subchannels.getLsbD x ∨ !(s.mram.retired.subchannels.getLsbD x) ∨ failed.getLsbD x ∨ patterns.getLsbD x then s
  else
    let clear (r : Retired) : Retired :=
      retiredSet (.subchannel (Fin.ofNat 32 x)) false (retiredSet (.part (Fin.ofNat 78 x)) false r)
    let s1 := onMram (fun m => { m with retired := clear m.retired }) s
    copyRetired (logRecord 0x3021 (0x0100 + x) x 0 0 s1)

/-- The full pass: every segment of P0 to P76, the cores' checks, every line of every subchannel. -/
def fullPass (failed : BitVec 77) (failedCores : BitVec 128) (patterns : BitVec 32) (s : State) : State :=
  let s1 := (List.range 77).foldl (fullPart failed) (startPass 1 true 77 s)
  let s2 := (bitList failedCores).foldl (fun s c =>
    if faultable s ∧ retirable s (.core (Fin.ofNat 128 c)) then
      retireUnit (.core (Fin.ofNat 128 c)) bistCause (onBist (fun b => { b with retiredInPass := true }) s)
    else s) s1
  if !(faultable s2) then s2
  else
    let s3 := onBist (fun b => { b with passed :=
      { parts := (~~~failed).zeroExtend 80, cores := ~~~failedCores } }) s2
    let s4 := (List.range 32).foldl (subPasses failed patterns) s3
    endPass (passCode s4) s4

/-- A write of 1, 2 or 3 to PASS_REQUEST. -/
def requestFull (failed : BitVec 77) (failedCores : BitVec 128) (patterns : BitVec 32) (s : State) :
    Except (BitVec 32) State :=
  if s.sys.mode ≠ .maintenance ∨ s.bist.status = 1 then .error 0x08000022 else .ok (fullPass failed failedCores patterns s)

def requestPass (s : State) : Except (BitVec 32) State :=
  if !(serving s) ∨ s.bist.status = 1 then .error 0x08000022
  else .ok (settlePass (startPass 2 true (serviceParts s).length s))

def requestAbort (s : State) : Except (BitVec 32) State :=
  if s.bist.pass = 0 ∨ !(faultable s) then .error 0x08000022 else .ok (endPass 0x8001 s)

end Sys2Proof.Machine
end

