-- ==== Sys2Proof/Machine/Modes.lean ====
section
/-! DEFINITION. Mode requests (15_startup_and_trust.md, R637 to R642; 01, R29), supply dips (16, R686 to R688; 17, R692),
thermal levels (17, R710, R711) and JTAG attaches (17, R707). -/

namespace Sys2Proof.Machine

/-! ## MODE_REQUEST -/

/-- Berth queues of the module. -/
def berthQueueNumbers (s : State) : List Nat := (s.queues.map (·.1)).filter (fun q => decide (q < 4096))

/-- MODE_REQUEST 0x02: berth queues stop fetching, and what they have fetched and not started is discarded (01, R29). -/
def requestMaintenance (s : State) : Except (BitVec 32) State :=
  if !(serving s) ∨ s.sys.modeStatus = 1 then .error 0x08000022
  else .ok (onSys (fun y => { y with modeStatus := 1, draining := true })
    ((berthQueueNumbers s).foldl (fun s q => discardPushed q s) s))

/-- Started jobs that hold MAINTENANCE off: those of berths that are not frozen. -/
def startedJobs (s : State) : List (Nat × Job) :=
  s.jobs.filter (fun e => match e.2.berth with
    | some b => (getB s b.val).state != .frozen
    | none => false)

/-- MAINTENANCE_ENTRY: the last started job has finished. The in-service pass ends (16, R652). -/
def execMaintenanceEntry (s : State) : Host.Outcome State Fault Refusal :=
  .next (
    if !s.sys.draining ∨ !(serving s) ∨ startedJobs s ≠ [] then s
    else
      let s1 := if s.bist.pass = 0 then s else endPass 0x8001 s
      endModeRequest 2 (intoMaintenance 1 s1))

/-- Units that the full pass found good return at the next MODE_REQUEST 0x03 (16, R657). -/
def takePassed (s : State) : State :=
  onBist (fun b => { b with passed := {} }) (returnPassed s.bist.passed.parts s.bist.passed.cores s)

/-- MODE_REQUEST 0x03. -/
def requestLeave (s : State) : Except (BitVec 32) State :=
  if s.sys.mode ≠ .maintenance ∨ s.sys.modeStatus = 1 then .error 0x08000022
  else .ok (endModeRequest 2 (intoService 1 (takePassed (onSys (fun y => { y with modeStatus := 1 }) s))))

/-! ## Supply dips -/

/-- INPUT_BELOW_WARNING: one record for the episode, and its falls counted. -/
def execInputBelowWarning (mv : BitVec 32) (s : State) : Host.Outcome State Fault Refusal :=
  .next (
    if s.sys.mode = .reset ∨ s.sys.holdDead then s
    else match s.sys.episode with
    | some e => onSys (fun y => { y with episode := some { lowestMv := min e.lowestMv mv.toNat, falls := e.falls + 1 } }) s
    | none =>
      let s1 := onSys (fun y => { y with episode := some { lowestMv := mv.toNat, falls := 1 } }) s
      emcyRaise 0x3100 0x1001 0x0E00 (raiseSource 1655 (logRecord 0x1001 0x0E00 mv.toNat 0 0 s1)))

/-- WARNING_EPISODE_END: what was held off goes on (R687). -/
def execWarningEpisodeEnd (lowestMv belowUs : BitVec 32) (s : State) : Host.Outcome State Fault Refusal :=
  .next (match s.sys.episode with
    | none => s
    | some e =>
      let s1 := logRecord 0x1002 0x0E00 (min e.lowestMv lowestMv.toNat) belowUs.toNat e.falls s
      let s2 := emcyClear 0x3100 0x1002 0x0E00 (onSys (fun y => { y with episode := none }) s1)
      let s3 := releaseCommit (releaseSave s2)
      let s4 := if s3.sys.tisum then copyRetired s3 else s3
      if serving s4 ∨ s4.sys.mode = .maintenance then writeTraining s4 else s4)

/-! ## Thermal levels -/

/-- Temperature at which a level comes into force, and below which it lifts (R710). -/
def levelEnters (n : Nat) : Int := 95 + 5 * n
def levelLifts (n : Nat) : Int := 90 + 5 * n

/-- The level named follows from the temperature: above the present one, its threshold is reached; below, every higher
level has lifted. -/
def levelFits (old new : Nat) (celsius : Int) : Bool :=
  (decide (old < new) && decide (levelEnters new ≤ celsius)) || (decide (new < old) && decide (celsius < levelLifts (new + 1)))

/-- THERMAL_LEVEL_CHANGE. -/
def execThermalLevelChange (celsius : BitVec 32) (level : Fin 4) (sensor : BitVec 32) (s : State) :
    Host.Outcome State Fault Refusal :=
  let old := s.sys.thermal
  .next (
    if s.sys.mode = .reset ∨ s.sys.holdDead ∨ !(levelFits old.val level.val celsius.toInt) then s
    else
      let s1 := syncPins (onSys (fun y => { y with thermal := level }) s)
      let s2 := raiseSource 1656 (logRecord 0x1010 0x0E00 celsius.toNat level.val sensor.toNat s1)
      if old = 0 then emcyRaise 0x4200 0x1010 0x0E00 s2
      else if level = 0 then emcyClear 0x4200 0x1010 0x0E00 s2
      else s2)

/-! ## JTAG -/

/-- JTAG_ATTACH: the 16-byte attach record is measured into M10, and the attach is recorded. -/
def execJtagAttach (record : BitVec 128) (s : State) : Host.Outcome State Fault Refusal :=
  .next (
    if s.sys.mode = .reset then s
    else
      let n := s.sys.attaches + 1
      logRecord 0x7003 0 n 0 0 (extend 10 (sha384 (natLe 16 record.toNat)) 0x7003
        (onSys (fun y => { y with attaches := n }) s)))

end Sys2Proof.Machine
end

