-- ==== Sys2Proof/Machine/Can.lean ====
section
/-! DEFINITION. The CANopen FD node (14_object_dictionary.md, R601 to R614): NMT, heartbeat and group TPDO, EMCY and errors of
the bus, TIME and SYNC, LSS. -/

namespace Sys2Proof.Machine

/-- The node is on its bus. -/
def canOn (s : State) : Bool := decide (s.can.nmt ≠ .off) && !s.can.busOff && !s.sys.holdDead && decide (s.sys.mode ≠ .reset)

/-- PRE_OPERATIONAL or OPERATIONAL: USDO, EMCY, TIME and SYNC are served (R602). -/
def canActive (s : State) : Bool := canOn s && (s.can.nmt == .preOperational || s.can.nmt == .operational)

/-- EMCY messages that wait go out: the first, and with no inhibit time all of them (R605). -/
def emcyRelease (s : State) : State :=
  if !(canActive s) ∨ s.can.inhibited then s
  else if inhibitTime s = 0 then
    onCan (fun c => { c with emcyHeld := [] }) (s.can.emcyHeld.foldl (fun s f => canSend f s) s)
  else match s.can.emcyHeld with
  | [] => s
  | f :: rest => onCan (fun c => { c with emcyHeld := rest, inhibited := true }) (canSend f s)

/-! ## NMT (R601) -/

/-- NMT_START. -/
def execNmtStart (s : State) : Host.Outcome State Fault Refusal :=
  .next (if canOn s ∧ (s.can.nmt = .preOperational ∨ s.can.nmt = .stopped) then
      onCan (fun c => { c with nmt := .operational }) s
    else s)

/-- NMT_STOP: EMCY messages held are not sent later (R602). -/
def execNmtStop (s : State) : Host.Outcome State Fault Refusal :=
  .next (if canActive s then onCan (fun c => { c with nmt := .stopped, emcyHeld := [] }) s else s)

/-- NMT_ENTER_PRE_OPERATIONAL. -/
def execNmtEnterPreOperational (s : State) : Host.Outcome State Fault Refusal :=
  .next (if canOn s ∧ (s.can.nmt = .operational ∨ s.can.nmt = .stopped) then
      onCan (fun c => { c with nmt := .preOperational }) s
    else s)

/-- Communication entries return to the values of the last RESET, or to those saved since (R601). -/
def communicationReset (s : State) : State :=
  let mine (e : Nat × Nat) : Bool := decide (0x1000 * 256 ≤ e.1) && decide (e.1 < 0x2000 * 256)
  let kept := s.dict.settings.filter (fun e => !(mine e))
  let back := (s.dict.saved.filter mine).foldl (fun t e => tblSet t e.1 e.2) kept
  onDict (fun d => { d with settings := back }) s

/-- NMT_RESET_COMMUNICATION. -/
def execNmtResetCommunication (s : State) : Host.Outcome State Fault Refusal :=
  .next (if canOn s then groupUpdate (canInit (communicationReset s)) else s)

/-- NMT_RESET_NODE: 0x1003 is cleared as well. -/
def execNmtResetNode (s : State) : Host.Outcome State Fault Refusal :=
  .next (if canOn s then
      onDict (fun d => { d with errors := [] }) (groupUpdate (canInit (communicationReset s)))
    else s)

/-- INITIALISATION_DONE: the boot-up message, then what EMCY messages waited. -/
def execInitialisationDone (s : State) : Host.Outcome State Fault Refusal :=
  .next (if canOn s ∧ s.can.nmt = .initialisation then
      let next : Nmt := if settingVal s 0x2011 0 = 1 then .operational else .preOperational
      emcyRelease (onCan (fun c => { c with nmt := next }) (canSend ⟨0x700 + s.can.nodeId.toNat, [0]⟩ s))
    else s)

/-! ## Heartbeat and group TPDO (R604, R610) -/

/-- State bytes of a heartbeat (CiA 301). -/
def nmtByte : Nmt → Byte
  | .stopped => 4
  | .operational => 5
  | .preOperational => 127
  | _ => 0

/-- The 24 bytes of the group TPDO (R610). -/
def groupFrame (s : State) : Bytes :=
  [1] ++ natLe 1 (groupId s) ++ natLe 1 (memberSlot s) ++ natLe 1 s.sys.mode.code ++ natLe 4 s.fw.version.toNat ++
    ownFingerprint s ++ natLe 8 (calendarNow s).toNat

/-- HEARTBEAT. -/
def execHeartbeat (s : State) : Host.Outcome State Fault Refusal :=
  .next (
    if !(canOn s) ∨ s.can.nmt = .initialisation ∨ heartbeatTime s = 0 then s
    else
      let s1 := canSend ⟨0x700 + s.can.nodeId.toNat, [nmtByte s.can.nmt]⟩ s
      if s.can.nmt = .operational ∧ groupId s ≠ 0 then canSend ⟨0x180 + s.can.nodeId.toNat, groupFrame s⟩ s1 else s1)

/-- Calendar time that a frame carries less the module's own, where both are synchronised (R613). -/
def spreadOf (s : State) (t : Nat) : Option Int :=
  if bitOf t 63 ∨ s.sys.calendar.isNone then none else some ((t : Int) - ((calendarNow s).toNat : Int))

/-- GROUP_TPDO_RECEIVED (R611). -/
def execGroupTpdoReceived (nodeId : BitVec 8) (data : Bytes) (s : State) : Host.Outcome State Fault Refusal :=
  let slot := field data 2 1
  let mine := decide (data.length = 24) && decide (field data 0 1 = 1) && decide (groupId s ≠ 0) &&
    decide (field data 1 1 = groupId s) && decide (slot < 8) && decide (nodeId ≠ 0) &&
    decide (settingVal s 0x2101 (slot + 1) = nodeId.toNat)
  let p : Peer := {
    mode := BitVec.ofNat 8 (field data 3 1)
    version := BitVec.ofNat 32 (field data 4 4)
    fingerprint := slice data 8 8
    spread := spreadOf s (field data 16 8) }
  .next (
    if canOn s ∧ s.can.nmt = .operational ∧ mine then
      groupUpdate (onDict (fun d => { d with peers := tblSet d.peers slot p }) s)
    else s)

/-- PEER_TIMEOUT (R611). -/
def execPeerTimeout (slot : Fin 8) (s : State) : Host.Outcome State Fault Refusal :=
  .next (if (tblFind s.dict.peers slot.val).isSome then
      groupUpdate (onDict (fun d => { d with peers := tblErase d.peers slot.val }) s)
    else s)

/-! ## Calendar time and SYNC (R607, R608, R614) -/

/-- Calendar time is set: record 0x0220 with the old and the new value. -/
def setCalendar (ms : Nat) (source : BitVec 8) (s : State) : State :=
  logRecord 0x0220 0 ((calendarNow s).toNat % 2 ^ 32) (ms % 2 ^ 32) source.toNat
    (onSys (fun y => { y with calendar := some (ms * 1000), timeSource := source }) s)

/-- COB_ID_TIME. -/
def cobTime (s : State) : Nat := settingVal s 0x1012 0

/-- ms in a day. -/
def dayMs : Nat := 86400000

/-- TIME_RECEIVED: milliseconds in bits 27:0, then days. -/
def execTimeReceived (ms : BitVec 32) (days : BitVec 16) (s : State) : Host.Outcome State Fault Refusal :=
  .next (if canActive s ∧ bitOf (cobTime s) 31 then
      setCalendar (days.toNat * dayMs + ms.toNat % 2 ^ 28) 1 s
    else s)

/-- TIME_PRODUCE. -/
def execTimeProduce (s : State) : Host.Outcome State Fault Refusal :=
  .next (if canOn s ∧ s.can.nmt = .operational ∧ bitOf (cobTime s) 30 then
      let t := (calendarNow s).toNat % 2 ^ 63
      canSend ⟨cobTime s % 2 ^ 11, natLe 4 (t % dayMs) ++ natLe 2 (t / dayMs)⟩ s
    else s)

/-- A write to 0x2050:01 (R608): refused while TIME messages set the time; TIME_SOURCE names the own producer where the
module produces TIME. -/
def writeCalendar (ms : Nat) (s : State) : Except (BitVec 32) State :=
  if bitOf (cobTime s) 31 then .error 0x08000022
  else .ok (setCalendar ms (if bitOf (cobTime s) 30 then 3 else 2) s)

/-- SYNC_RECEIVED: an armed marker is written and disarmed (R614). -/
def execSyncReceived (counter : Option (BitVec 8)) (s : State) : Host.Outcome State Fault Refusal :=
  .next (if canActive s ∧ s.dict.checkpoint ≠ 0 then
      let n := match counter with
        | some c => c.toNat
        | none => 0xFFFFFFFF
      logRecord (if s.dict.groupStatus.getLsbD 0 then 0x0201 else 0x0200) 0 s.dict.checkpoint.toNat n
        (groupId s + memberSlot s * 256) (onDict (fun d => { d with checkpoint := 0 }) s)
    else s)

/-! ## The bus (R605) -/

/-- SOURCE of CAN events (16, R674). -/
def canSource : Nat := 0x0C00

/-- CAN_ERROR_PASSIVE, and the return to error active. -/
def execCanErrorPassive (entered : Bool) (s : State) : Host.Outcome State Fault Refusal :=
  .next (
    if !(canOn s) ∨ s.can.passive = entered then s
    else
      let s1 := onCan (fun c => { c with passive := entered }) s
      if entered then emcyRaise 0x8120 0 canSource s1 else emcyClear 0x8120 0 canSource s1)

/-- CAN_RECEIVE_OVERRUN. -/
def execCanReceiveOverrun (s : State) : Host.Outcome State Fault Refusal :=
  .next (if canOn s then emcyOnce 0x8110 0 canSource s else s)

/-- CAN_BUS_OFF: the NMT state is kept; the error-passive condition is over, and its message waits for the rejoin. -/
def execCanBusOff (s : State) : Host.Outcome State Fault Refusal :=
  .next (
    if !(canOn s) then s
    else
      let s1 := onCan (fun c => { c with busOff := true, passive := false }) s
      if s.can.passive then emcyClear 0x8120 0 canSource s1 else s1)

/-- BUS_OFF_RECOVERY. -/
def execBusOffRecovery (s : State) : Host.Outcome State Fault Refusal :=
  .next (if s.can.busOff then emcyOnce 0x8140 0 canSource (emcyRelease (onCan (fun c => { c with busOff := false }) s)) else s)

/-- EMCY_INHIBIT_EXPIRY. -/
def execEmcyInhibitExpiry (s : State) : Host.Outcome State Fault Refusal :=
  .next (emcyRelease (onCan (fun c => { c with inhibited := false }) s))

/-! ## LSS (R606; message layouts of CiA 305) -/

/-- An LSS answer of the node: command specifier and up to seven bytes. -/
def lssAnswer (cs : Byte) (data : Bytes) (s : State) : State := canSend ⟨0x7E4, padTo 8 (cs :: data)⟩ s

/-- The LSS identity of the node: entries 0x1018:01 to :04. REVISION is the Tisum version (R587, R610). -/
def identity (s : State) : List (BitVec 32) := [Config.vendorId, 0x9400, s.fw.version, Config.serial]

/-- SWITCH_STATE_GLOBAL. -/
def execSwitchStateGlobal (configuration : Bool) (s : State) : Host.Outcome State Fault Refusal :=
  .next (if canOn s then onCan (fun c => { c with lssConfiguring := configuration }) s else s)

/-- SWITCH_STATE_SELECTIVE. -/
def execSwitchStateSelective (vendor product revision serial : BitVec 32) (s : State) : Host.Outcome State Fault Refusal :=
  .next (if canOn s ∧ !s.can.lssConfiguring ∧ identity s = [vendor, product, revision, serial] then
      lssAnswer 0x44 [] (onCan (fun c => { c with lssConfiguring := true }) s)
    else s)

/-- A pending value is written by LSS, as its entry would be. -/
def lssSet (sub : Nat) (v : Nat) (s : State) : State :=
  onDict (fun d => { d with settings := tblSet d.settings (entryKey 0x2020 sub) v }) s

/-- CONFIGURE_NODE_ID. -/
def execConfigureNodeId (id : BitVec 8) (s : State) : Host.Outcome State Fault Refusal :=
  .next (
    if !(canOn s) ∨ !s.can.lssConfiguring then s
    else if 1 ≤ id.toNat ∧ id.toNat ≤ 127 then lssAnswer 0x11 [0] (lssSet 3 id.toNat s)
    else lssAnswer 0x11 [1] s)

/-- CONFIGURE_BIT_TIMING. -/
def execConfigureBitTiming (selector index : BitVec 8) (s : State) : Host.Outcome State Fault Refusal :=
  .next (
    if !(canOn s) ∨ !s.can.lssConfiguring then s
    else if selector = 0x80 ∧ index.toNat ≤ 1 then lssAnswer 0x13 [0] (lssSet 4 index.toNat s)
    else lssAnswer 0x13 [1] s)

/-- ACTIVATE_BIT_TIMING: pending values take effect at the next INITIALISATION, so nothing changes now; the service has
no answer. -/
def execActivateBitTiming (_delayMs : BitVec 16) (s : State) : Host.Outcome State Fault Refusal := .next s

/-- STORE_CONFIGURATION: a save; its answer comes at completion. While a save is busy it is answered with an error. -/
def execStoreConfiguration (s : State) : Host.Outcome State Fault Refusal :=
  .next (
    if !(canOn s) ∨ !s.can.lssConfiguring then s
    else if s.dict.storeStatus = 1 then lssAnswer 0x17 [2] s
    else startSave 0 true s)

/-- INQUIRE_IDENTITY: services 0x5A to 0x5D, and 0x5E for the node-ID. -/
def execInquireIdentity (service : BitVec 8) (s : State) : Host.Outcome State Fault Refusal :=
  .next (
    if !(canOn s) ∨ !s.can.lssConfiguring then s
    else if service = 0x5E then lssAnswer service [s.can.nodeId] s
    else if 0x5A ≤ service.toNat ∧ service.toNat ≤ 0x5D then
      lssAnswer service (natLe 4 ((identity s).getD (service.toNat - 0x5A) 0).toNat) s
    else s)

end Sys2Proof.Machine
end

