-- ==== Sys2Proof/Machine/Registers.lean ====
section
/-! DEFINITION. Registers reached by their addresses (00_scope.md, R4 to R21; 10_host_queues.md, R397 to R415, R447 to
R450): plain register writes, high-word latches, clears of counter blocks, event sources, MSI-X masks and TASK_SEL. -/

namespace Sys2Proof.Machine

/-! ## Access -/

/-- The dictionary mailbox answers: Tisum serves it, or the ROM in its form of HOLD (14, R599; 15, R630; 16,
R667). -/
def mailboxOpen (s : State) : Bool :=
  s.pcie.linkUp && !s.pcie.d3hot && decide (s.sys.mode ≠ .reset) && !s.sys.holdDead && (s.sys.tisum || s.sys.holdRom)

/-- ES_PENDING can be reached: as other registers, and in HOLD too, where manager software polls it (01, R30). -/
def pendingOpen (s : State) : Bool :=
  barOpen s || (s.pcie.linkUp && !s.pcie.d3hot && s.sys.mode == .hold && !s.sys.holdDead)

/-- The bytes of a 32-bit word that a write enables, over the word before. -/
def mergeEnabled (old value : BitVec 32) (enables : BitVec 4) : BitVec 32 :=
  let m : BitVec 32 := (List.range 4).foldl (fun m i => if enables.getLsbD i then m ||| (0xFF#32 <<< (8 * i)) else m) 0
  (old &&& ~~~m) ||| (value &&& m)

/-- The bytes of a written word in enabled lanes, and zero elsewhere: what a W1C write clears. -/
def enabledOnes (value : BitVec 32) (enables : BitVec 4) : BitVec 32 := mergeEnabled 0 value enables

/-- Word `i` of a little-endian number. -/
def wordOf (v i : Nat) : BitVec 32 := BitVec.ofNat 32 (v / 2 ^ (32 * i))

/-- A number with word `i` replaced. -/
def setWord (v i : Nat) (w : BitVec 32) : Nat :=
  v % 2 ^ (32 * i) + w.toNat * 2 ^ (32 * i) + v / 2 ^ (32 * i + 32) * 2 ^ (32 * i + 32)

/-! ## Queue control blocks (R409) -/

/-- The first 40 bytes of a queue control block. -/
def queueFields (k : Queue) : Bytes :=
  natLe 8 k.sqBase.toNat ++ natLe 8 k.cqBase.toNat ++ natLe 8 k.indexAddr.toNat ++ natLe 1 k.sqOrder.toNat ++
    natLe 1 k.cqOrder.toNat ++ natLe 2 k.vector.toNat ++ natLe 2 k.holdoff.toNat ++ natLe 2 k.poll.toNat ++
    natLe 4 k.sqHead.toNat ++ natLe 4 k.cqProd.toNat

/-- The fields as those bytes give them. -/
def setQueueFields (b : Bytes) (k : Queue) : Queue :=
  { k with
    sqBase := BitVec.ofNat 64 (field b 0 8), cqBase := BitVec.ofNat 64 (field b 8 8),
    indexAddr := BitVec.ofNat 64 (field b 16 8), sqOrder := BitVec.ofNat 8 (field b 24 1),
    cqOrder := BitVec.ofNat 8 (field b 25 1), vector := BitVec.ofNat 16 (field b 26 2),
    holdoff := BitVec.ofNat 16 (field b 28 2), poll := BitVec.ofNat 16 (field b 30 2),
    sqHead := BitVec.ofNat 32 (field b 32 4), cqProd := BitVec.ofNat 32 (field b 36 4) }

/-- Clear bits of an overflow register (R4, R15). -/
def clearOvf (b : CounterBlock) (ones : BitVec 32) (s : State) : State :=
  let c := tblGet {} s.counters (blockKey b)
  let c1 : Counters := { c with ovf := c.ovf &&& ~~~ones }
  { s with counters := tblSet s.counters (blockKey b) c1 }

/-- A write to a queue control block (R409). QCMD is a step of its own. -/
def writeQueueBlock (q off : Nat) (v : BitVec 32) (en : BitVec 4) (s : State) : State :=
  if (getQ s q).state = .absent then s
  else if off < 0x28 then
    if (getQ s q).state = .disabled then
      onQ q (fun k =>
        let b := queueFields k
        let w := mergeEnabled (BitVec.ofNat 32 (field b off 4)) v en
        setQueueFields (overlay b off (natLe 4 w.toNat)) k) s
    else s
  else if off = 0x3C then clearOvf (.queue (Fin.ofNat 4097 q)) (enabledOnes v en) s
  else s

/-! ## MSI-X (R447) -/

/-- A vector whose mask no longer holds its message back sends it. -/
def releaseVector (v : Nat) (s : State) : State :=
  let e := tblGet {} s.pcie.msix v
  if tblGet false s.pcie.msixPending v ∧ !e.masked ∧ !s.pcie.functionMask ∧ s.pcie.msixEnable then
    signalVector v (onPcie (fun p => { p with msixPending := tblSet p.msixPending v false }) s)
  else s

/-- The same for every vector, in order of number. -/
def releaseVectors (s : State) : State := (s.pcie.msixPending.map (·.1)).foldl (fun s v => releaseVector v s) s

/-- A write to the MSI-X table: address, data, vector control. -/
def writeMsix (v word : Nat) (value : BitVec 32) (en : BitVec 4) (s : State) : State :=
  let e := tblGet {} s.pcie.msix v
  let put (e : MsixEntry) : State := onPcie (fun p => { p with msix := tblSet p.msix v e }) s
  match word with
  | 0 => put { e with addr := BitVec.ofNat 64 (setWord e.addr.toNat 0 (mergeEnabled (wordOf e.addr.toNat 0) value en)) }
  | 1 => put { e with addr := BitVec.ofNat 64 (setWord e.addr.toNat 1 (mergeEnabled (wordOf e.addr.toNat 1) value en)) }
  | 2 => put { e with data := mergeEnabled e.data value en }
  | _ => releaseVector v (put { e with masked := (mergeEnabled (if e.masked then 1 else 0) value en).getLsbD 0 })

/-- MSIX_UNMASK. -/
def execMsixUnmask (vector : Fin 2048) (s : State) : Host.Outcome State Fault Refusal :=
  .next (if barOpen s then
      let e : MsixEntry := { tblGet {} s.pcie.msix vector.val with masked := false }
      releaseVector vector.val (onPcie (fun p => { p with msix := tblSet p.msix vector.val e }) s)
    else s)

/-! ## Unit counter blocks (03, R143; 06, R287; 09, R390; 12, R530; 13, R579) -/

/-- The block a BAR0 offset of the unit area lies in, with the offset inside it. -/
def unitBlockAt (o : Nat) : Option (CounterBlock × Nat) :=
  if o < 0x300000 then none
  else if o < 0x302000 then some (.quay (Fin.ofNat 32 (o % 0x2000 / 0x100)), o % 0x100)
  else if 0x304000 ≤ o ∧ o < 0x305000 then some (.canopy (Fin.ofNat 16 (o % 0x1000 / 0x100)), o % 0x100)
  else if 0x306000 ≤ o ∧ o < 0x306100 then some (.pilot, o % 0x100)
  else if 0x308000 ≤ o ∧ o < 0x30A000 then some (.memory (Fin.ofNat 32 (o % 0x2000 / 0x100)), o % 0x100)
  else if 0x30A000 ≤ o ∧ o < 0x30A100 then some (.cranes, o % 0x100)
  else if 0x30A100 ≤ o ∧ o < 0x30A500 then some (.compression (Fin.ofNat 4 (o / 0x100 % 0x10 - 1)), o % 0x100)
  else if 0x30A500 ≤ o ∧ o < 0x30A600 then some (.digest, o % 0x100)
  else none

/-- A write to a unit counter block; the clears and TASK_SEL are steps of their own. -/
def writeUnitBlock (b : CounterBlock) (off : Nat) (v : BitVec 32) (en : BitVec 4) (s : State) : State :=
  if off = 8 then clearOvf b (enabledOnes v en) s
  else if b = .pilot ∧ off = 4 then
    onPilot (fun p => { p with force := BitVec.ofNat 2 ((mergeEnabled (BitVec.ofNat 32 (p.force.toNat * 4)) v en).toNat / 4) }) s
  else if b = .pilot ∧ off = 0x10 then
    onPilot (fun p => { p with tune := mergeEnabled p.tune v en &&& 0x00FFFFFF }) s
  else s

/-! ## The mailbox's own fields (14, R598) -/

/-- A request other than READ and WRITE completes ABORTED. -/
def mailboxRefuse (seq : BitVec 16) (s : State) : State :=
  let m : Mailbox := { s.dict.mailbox with state := 3, seq := seq, abort := 0x08000020 }
  raiseSource 1648 (onDict (fun d => { d with mailbox := m }) s)

/-- A write to a mailbox register. READ and WRITE are steps of their own. -/
def writeMailbox (off : Nat) (v : BitVec 32) (en : BitVec 4) (s : State) : State :=
  let m := s.dict.mailbox
  let put (m : Mailbox) : State := onDict (fun d => { d with mailbox := m }) s
  if off = 0 then
    let w := enabledOnes v en
    if w.toNat % 256 = 1 ∨ w.toNat % 256 = 2 ∨ m.state = 1 then s else mailboxRefuse (BitVec.ofNat 16 (w.toNat / 65536)) s
  else if off = 8 then
    let w := (mergeEnabled (BitVec.ofNat 32 (m.index.toNat + m.sub.toNat * 65536)) v en).toNat
    put { m with index := BitVec.ofNat 16 w, sub := BitVec.ofNat 8 (w / 65536) }
  else if off = 0xC then put { m with length := mergeEnabled m.length v en }
  else if off = 0x10 then put { m with offset := mergeEnabled m.offset v en }
  else if 0x40 ≤ off ∧ off < 0x10000 then
    put { m with data := (List.range 4).foldl (fun t i =>
      if en.getLsbD i then tblSet t (off - 0x40 + i) (BitVec.ofNat 8 (v.toNat / 256 ^ i)) else t) m.data }
  else s

/-! ## REGISTER_WRITE -/

/-- A write to BAR0 at a word's offset. -/
def writeBar0 (o : Nat) (v : BitVec 32) (en : BitVec 4) (s : State) : State :=
  if 0x10000 ≤ o ∧ o < 0x20000 then if mailboxOpen s then writeMailbox (o % 0x10000) v en s else s
  else if !(barOpen s) then s
  else if o = 0x10 ∨ o = 0x14 then
    let i := (o - 0x10) / 4
    onPcie (fun p =>
      let base := p.apertureBase.toNat
      { p with apertureBase := BitVec.ofNat 64 (setWord base i (mergeEnabled (wordOf base i) v en)) }) s
  else if o = 0x18 then
    onPcie (fun p => { p with apertureRefused := p.apertureRefused && !(enabledOnes v en).getLsbD 0 }) s
  else if 0x1000 ≤ o ∧ o < 0x1100 then writeQueueBlock 4096 (o % 0x1000) v en s
  else if 0x20000 ≤ o ∧ o < 0x28000 then writeMsix (o % 0x8000 / 16) (o % 16 / 4) v en s
  else if 0x100000 ≤ o ∧ o < 0x200000 then writeQueueBlock (o % 0x100000 / 0x100) (o % 0x100) v en s
  else match unitBlockAt o with
    | some (b, off) => writeUnitBlock b off v en s
    | none => s

/-- A write to BAR2 (R414). -/
def writeBar2 (o : Nat) (v : BitVec 32) (en : BitVec 4) (s : State) : State :=
  let b := o / 0x10000
  let ones := enabledOnes v en
  if !(barOpen s) ∨ 512 ≤ b ∨ (getB s b).state = .absent then s
  else if o % 0x10000 = 8 ∧ ones.getLsbD 0 then
    onPcie (fun p => { p with esPending := tblSet p.esPending (3 * b) false }) s
  else if o % 0x10000 = 0xC then
    onB b (fun x => { x with queueErrors := x.queueErrors &&& ~~~(BitVec.ofNat 8 ones.toNat) }) s
  else s

/-- A device-region write of the Harbourmaster: each 64-bit register is written a word at a time, once every store
before it is visible (08, R343); one that no unit answers raises BUS_ERROR (08, R350). -/
def writeDevice (o : Nat) (v : BitVec 32) (en : BitVec 4) (s : State) : State :=
  let a := regBase + o
  let fails := raise 128 4 0 (BitVec.ofNat 64 a)
  if s.sys.mode = .reset ∨ s.sys.holdDead ∨ !s.sys.tisum then s
  else pendingOr 128 (drain 128 s) (fun s =>
    match coreRegAt a with
    | none => fails s
    | some r =>
      if !(regAnswers s a r) then fails s
      else
        let old := (coreRegRead s r).toNat
        let i := a % 8 / 4
        onCore 128 (fun k => { k with floor := s.dev.now })
          (coreRegWrite (BitVec.ofNat 64 (setWord old i (mergeEnabled (wordOf old i) v en))) s r))

/-- REGISTER_WRITE (R4, R10, R11): the word at the offset's multiple of 4. -/
def execRegisterWrite (space : RegSpace) (offset : Nat) (value : BitVec 32) (enables : BitVec 4) (s : State) :
    Host.Outcome State Fault Refusal :=
  let o := offset / 4 * 4
  .next (match space with
    | .bar0 => writeBar0 o value enables s
    | .bar2 => writeBar2 o value enables s
    | .device => writeDevice o value enables s)

/-! ## High-word latches (R19, R20) -/

/-- The live value of an RSL register. -/
def rslValue (s : State) : RslRegister → Nat
  | .deviceTime => s.sys.time.toNat
  | .counter b n => counterVal s b n.val

/-- The register is 64 or 48 bits wide. -/
def rslWide : RslRegister → Bool
  | .deviceTime => true
  | .counter b n => decide (n.val < (blockShape b).1) || (isEvent b n.val && decide (n.val < blockSize b))

/-- A path reaches the registers. -/
def pathOpen (s : State) : AccessPath → Bool
  | .pcie => barOpen s
  | .harbourmaster => decide (s.sys.mode ≠ .reset) && s.sys.tisum && !s.sys.holdDead

/-- The latch of a path. -/
def latchOf (s : State) : AccessPath → Option (RslRegister × BitVec 32)
  | .pcie => s.pcie.latchPcie
  | .harbourmaster => s.pcie.latchHarbour

def setLatch (path : AccessPath) (l : Option (RslRegister × BitVec 32)) (s : State) : State :=
  match path with
  | .pcie => onPcie (fun p => { p with latchPcie := l }) s
  | .harbourmaster => onPcie (fun p => { p with latchHarbour := l }) s

/-- The last register read answers a value. -/
def answerRead (v : BitVec 64) (s : State) : State :=
  onSys (fun y => { y with readAnswer := v, readRefused := false, retryStatus := false }) s

/-- RSL_LOW_READ. -/
def execRslLowRead (path : AccessPath) (r : RslRegister) (s : State) : Host.Outcome State Fault Refusal :=
  let v := rslValue s r
  .next (if pathOpen s path ∧ rslWide r then
      answerRead (BitVec.ofNat 64 (v % 2 ^ 32)) (setLatch path (some (r, wordOf v 1)) s)
    else s)

/-- LATCHED_HIGH_READ. -/
def execLatchedHighRead (path : AccessPath) (r : RslRegister) (s : State) : Host.Outcome State Fault Refusal :=
  let live := answerRead ((wordOf (rslValue s r) 1).zeroExtend 64) s
  .next (if pathOpen s path ∧ rslWide r then
      match latchOf s path with
      | some (k, v) => if k = r then answerRead (v.zeroExtend 64) (setLatch path none s) else live
      | none => live
    else s)

/-! ## Clears -/

/-- CLEAR_STATS (R143, R15, R16). -/
def execClearStats (block : CounterBlock) (counted : Option (Fin 32)) (s : State) : Host.Outcome State Fault Refusal :=
  .next (if barOpen s then clearThen block (fun i => !(isEvent block i)) (counted.map Fin.val) s else s)

/-- CLEAR_PERF. -/
def execClearPerf (block : CounterBlock) (counted : Option (Fin 32)) (s : State) : Host.Outcome State Fault Refusal :=
  .next (if barOpen s then clearThen block (fun i => isEvent block i) (counted.map Fin.val) s else s)

/-! ## Event sources (R449, R450) -/

/-- ES_PENDING_CLEAR: the clears, then the raises of the same CK_AUX cycle. -/
def execEsPendingClear (word : Fin 64) (mask raised : BitVec 32) (s : State) : Host.Outcome State Fault Refusal :=
  let sources (v : BitVec 32) : List Nat := (bitList v).map (fun i => 32 * word.val + i)
  let cleared := (sources mask).foldl (fun t n => tblSet t n false) s.pcie.esPending
  let s1 := onPcie (fun p => { p with esPending := cleared }) s
  .next ((sources raised).foldl (fun s n => raiseSource n s) (if pendingOpen s then s1 else s))

/-- ES_STEER_WRITE. -/
def execEsSteerWrite (source : Fin 2048) (value : BitVec 32) (s : State) : Host.Outcome State Fault Refusal :=
  let n := source.val
  let old := tblGet 0 s.pcie.esSteer n
  let new : BitVec 16 := BitVec.ofNat 16 value.toNat &&& 0x87FF
  let s1 := onPcie (fun p => { p with esSteer := tblSet p.esSteer n new }) s
  .next (if !(barOpen s) then s
    else if new.getLsbD 15 ∧ !old.getLsbD 15 ∧ tblGet false s.pcie.esPending n then signalVector (new.toNat % 2048) s1
    else s1)

/-- TASK_SEL (09, R390). -/
def execTaskSel (value : BitVec 32) (s : State) : Host.Outcome State Fault Refusal :=
  .next (if barOpen s then selectTask (BitVec.ofNat 16 value.toNat) s else s)

end Sys2Proof.Machine
end

