-- ==== Sys2Proof/Machine/Spdm.lean ====
section
/-! DEFINITION. The SPDM 1.3 responder on the DOE mailbox (15_startup_and_trust.md, R634 to R636). Message layouts and
codes are those of DSP0274. -/

namespace Sys2Proof.Machine

/-- DOE answers: Tisum serves it (R620, R630; 16, R667). -/
def doeOpen (s : State) : Bool :=
  s.pcie.linkUp && s.sys.tisum && !s.sys.holdRom && !s.sys.holdDead && decide (s.sys.mode ≠ .reset)

/-- A response is sent; it joins the transcript. -/
def respond (r : Bytes) (s : State) : State :=
  onSpdm (fun p => { p with response := r, transcript := p.transcript ++ r }) s

/-- ERROR with a code; it is no part of the transcript. -/
def spdmError (code data : Byte) (s : State) : State := onSpdm (fun p => { p with response := [0x13, 0x7F, code, data] }) s

/-- Error codes: InvalidRequest, UnexpectedRequest, UnsupportedRequest. -/
def invalidRequest : Byte := 0x01
def unexpectedRequest : Byte := 0x04
def unsupportedRequest : Byte := 0x07

/-- A request that needs the negotiation before it. -/
def spdmAfter (ready : Bool) (s : State) (go : State → State) : Host.Outcome State Fault Refusal :=
  .next (if !(doeOpen s) then s else if ready then go s else spdmError unexpectedRequest 0 s)

/-- Requests after the negotiation. -/
def negotiated (s : State) : Bool := s.spdm.version && s.spdm.capabilities && s.spdm.algorithms

/-- GET_VERSION: version 1.3 only; the negotiation begins anew. -/
def execGetVersion (s : State) : Host.Outcome State Fault Refusal :=
  .next (if doeOpen s then
      respond [0x10, 0x04, 0, 0, 0, 1, 0x00, 0x13] (onSpdm (fun p => { p with
        version := true, capabilities := false, algorithms := false, transcript := [] }) s)
    else s)

/-- Capability flags: CERT_CAP, CHAL_CAP, MEAS_CAP = 2, MEAS_FRESH_CAP. -/
def capabilityFlags : Nat := 2 ^ 1 + 2 ^ 2 + 2 * 2 ^ 3 + 2 ^ 5

/-- GET_CAPABILITIES. -/
def execGetCapabilities (s : State) : Host.Outcome State Fault Refusal :=
  spdmAfter s.spdm.version s (fun s =>
    let (ct, size, most) := Config.spdmLimits
    respond ([0x13, 0x61, 0, 0, 0, ct, 0, 0] ++ natLe 4 capabilityFlags ++ natLe 4 size.toNat ++ natLe 4 most.toNat)
      (onSpdm (fun p => { p with capabilities := true }) s))

/-- NEGOTIATE_ALGORITHMS: DMTF measurements with SHA-384, ECDSA P-384, SHA-384; an algorithm not offered is not
selected. -/
def execNegotiateAlgorithms (p384 sha384 : Bool) (s : State) : Host.Outcome State Fault Refusal :=
  spdmAfter (s.spdm.version && s.spdm.capabilities) s (fun s =>
    respond ([0x13, 0x63, 0, 0] ++ natLe 2 36 ++ [1, 0] ++ natLe 4 (b2n sha384 * 2 ^ 2) ++ natLe 4 (b2n p384 * 2 ^ 7) ++
        natLe 4 (b2n sha384 * 2 ^ 1) ++ List.replicate 16 0)
      (onSpdm (fun p => { p with algorithms := p384 && sha384 }) s))

/-- The certificate chain of slot 0 (0x5180:01). -/
def certChain (s : State) : Bytes := s.flash.certChain

/-- GET_DIGESTS: slot 0. -/
def execGetDigests (s : State) : Host.Outcome State Fault Refusal :=
  spdmAfter (negotiated s) s (fun s => respond ([0x13, 0x01, 1, 1] ++ sha384 (certChain s)) s)

/-- GET_CERTIFICATE: a portion of the chain of slot 0. -/
def execGetCertificate (slot : Fin 16) (offset length : BitVec 16) (s : State) : Host.Outcome State Fault Refusal :=
  spdmAfter (negotiated s) s (fun s =>
    let c := certChain s
    if slot ≠ 0 ∨ c.length ≤ offset.toNat then spdmError invalidRequest 0 s
    else
      let part := slice c offset.toNat length.toNat
      respond ([0x13, 0x02, 0, 0] ++ natLe 2 part.length ++ natLe 2 (c.length - offset.toNat - part.length) ++ part) s)

/-! ## Measurements (R635) -/

/-- BERTH_DIGEST of every berth, zero for an absent one. -/
def berthDigests (s : State) : Bytes :=
  (List.range 512).flatMap (fun b => if (getB s b).state = .absent then List.replicate 48 0 else (getB s b).digest)

/-- DMTF value type and value of a measurement index. -/
def measurement (s : State) (i : Nat) : Nat × Bytes :=
  if i ≤ 0x10 then (if i ≤ 4 then 0x01 else if i = 5 then 0x03 else 0x04, manifestReg s (i - 1))
  else if i = 0x11 then (0x00, (List.finRange 48).map Config.romDigest)
  else if i = 0x12 then (0x84, s.manifest.events.flatten)
  else (0x84, berthDigests s)

/-- A measurement block: index, DMTF specification, sizes, type, value. -/
def measurementBlock (s : State) (i : Nat) : Bytes :=
  let (t, v) := measurement s i
  natLe 1 i ++ [1] ++ natLe 2 (v.length + 3) ++ natLe 1 t ++ natLe 2 v.length ++ v

/-- The indices reported. -/
def measurementIndices : List Nat := (List.range 0x13).map (· + 1)

/-- A nonce of the responder. -/
def nonceBytes (n : Nat) : Bytes := (List.finRange 32).map (Config.nonce n)

/-- Sign a response: its signature covers the transcript, the request's nonce and the response. -/
def signResponse (nonce : BitVec 256) (r : Bytes) (s : State) : State :=
  let sig := (List.finRange 96).map (Config.signature (s.spdm.transcript ++ natLe 32 nonce.toNat ++ r) s.spdm.signatures)
  onSpdm (fun p => { p with response := r ++ sig, transcript := [], signatures := p.signatures + 1 }) s

/-- The measurement summary hash of a CHALLENGE: type none, TCB or all. -/
def summaryHash (s : State) (type : Nat) : Bytes :=
  if type = 0 then []
  else
    let is := if type = 1 then measurementIndices.filter Config.tcbIndex else measurementIndices
    sha384 (is.flatMap (measurementBlock s))

/-- CHALLENGE: slot 0. The requester's context is not an operand and is echoed as zero. -/
def execChallenge (slot : Fin 16) (summary : BitVec 8) (nonce : BitVec 256) (s : State) : Host.Outcome State Fault Refusal :=
  spdmAfter (negotiated s) s (fun s =>
    if slot ≠ 0 ∨ !(summary == 0 || summary == 1 || summary == 0xFF) then spdmError invalidRequest 0 s
    else
      let (n, s1) := takeFresh s
      signResponse nonce ([0x13, 0x03, 0, 1] ++ sha384 (certChain s) ++ nonceBytes n ++ summaryHash s summary.toNat ++
        natLe 2 0 ++ List.replicate 8 0) s1)

/-- The blocks that a GET_MEASUREMENTS asks for: none for index 0, all for 0xFF. -/
def asked (index : Nat) : Option (List Nat) :=
  if index = 0 then some []
  else if index = 0xFF then some measurementIndices
  else if index ≤ 0x13 then some [index]
  else none

/-- GET_MEASUREMENTS: every value is taken at one instant (R636). -/
def execGetMeasurements (index : BitVec 8) (signed : Bool) (nonce : BitVec 256) (s : State) :
    Host.Outcome State Fault Refusal :=
  spdmAfter (negotiated s) s (fun s =>
    match asked index.toNat with
    | none => spdmError invalidRequest 0 s
    | some is =>
      let (n, s1) := takeFresh s
      let blocks := is.flatMap (measurementBlock s)
      let r : Bytes := [0x13, 0x60, if index = 0 then 0x13 else 0, 0] ++ natLe 1 is.length ++ natLe 3 blocks.length ++
        blocks ++ nonceBytes n ++ natLe 2 0 ++ List.replicate 8 0
      if signed then signResponse nonce r s1 else respond r s1)

/-- UNSUPPORTED_SPDM_REQUEST. -/
def execUnsupportedSpdmRequest (code : BitVec 8) (s : State) : Host.Outcome State Fault Refusal :=
  .next (if doeOpen s then spdmError unsupportedRequest code s else s)

end Sys2Proof.Machine
end

