-- ==== Sys2Proof/Machine/Dictionary.lean ====
section
/-! DEFINITION. The object dictionary (14_object_dictionary.md, R581 to R600): its entries as they read, roles and abort
codes, writes, and the three paths that reach it. -/

namespace Sys2Proof.Machine

/-! ## Entries (R581, R586) -/

/-- Access codes; RWS counts as RW. -/
inductive Access where
  | const
  | ro
  | rw
  | wo
  deriving DecidableEq, Repr

/-- One entry: access, whether it is marked K, its size in bytes (none for a DOMAIN), and what it reads from an offset
(0 but for a DOMAIN). -/
structure DictEntry where
  access : Access
  keyed : Bool := false
  size : Option Nat
  read : Nat → Bytes

/-- An entry of `n` bytes that reads a number. -/
def numEntry (a : Access) (n v : Nat) : DictEntry := { access := a, size := some n, read := fun _ => natLe n v }

/-- An entry that reads a string. -/
def strEntry (a : Access) (b : Bytes) : DictEntry := { access := a, size := some b.length, read := fun _ => b }

/-- Most bytes that one request carries (R599). -/
def domainMax : Nat := 65472

/-- A DOMAIN. -/
def domEntry (a : Access) (b : Bytes) : DictEntry := { access := a, size := none, read := fun o => slice b o domainMax }

def u8 (v : Nat) : DictEntry := numEntry .ro 1 v
def u16 (v : Nat) : DictEntry := numEntry .ro 2 v
def u32 (v : Nat) : DictEntry := numEntry .ro 4 v
def u64 (v : Nat) : DictEntry := numEntry .ro 8 v

/-- A stored entry as last written (R590). -/
def stored (s : State) (index sub : Nat) : DictEntry :=
  numEntry .rw (((settingAt index sub).map (fun e => e.size)).getD 1) (settingVal s index sub)

/-- Entries from subindex 1 on, under the highest subindex. -/
def subsFrom1 (l : List DictEntry) : List (Nat × DictEntry) :=
  (0, numEntry .const 1 l.length) :: (List.range l.length).zipWith (fun i e => (i + 1, e)) l

/-- An object with subindex 0 only. -/
def alone (e : DictEntry) : List (Nat × DictEntry) := [(0, e)]

/-! ### The communication area (R587) -/

/-- The Tisum version as text. -/
def versionText (v : BitVec 32) : Bytes :=
  let n := v.toNat
  asciiBytes (toString (n / 2 ^ 24) ++ "." ++ toString (n / 2 ^ 16 % 256) ++ "." ++ toString (n % 2 ^ 16))

/-- HARDWARE_VERSION. -/
def hardwareText : Bytes := (List.range (Config.hardwareVersionLength.val + 1)).map Config.hardwareVersion

def communicationObject (s : State) (i : Nat) : List (Nat × DictEntry) :=
  match i with
  | 0x1000 => alone (numEntry .const 4 0)
  | 0x1001 => alone (u8 s.can.errorRegister.toNat)
  | 0x1003 => (0, numEntry .rw 1 s.dict.errors.length) ::
      (List.range 8).map (fun k => (k + 1, u32 ((s.dict.errors.getD k 0).toNat)))
  | 0x1005 => alone (stored s i 0)
  | 0x1008 => alone (strEntry .const (asciiBytes "GH9400"))
  | 0x1009 => alone (strEntry .const hardwareText)
  | 0x100A => alone (strEntry .ro (versionText s.fw.version))
  | 0x1010 => subsFrom1 [numEntry .rw 4 1]
  | 0x1011 => subsFrom1 [numEntry .rw 4 1]
  | 0x1012 => alone (stored s i 0)
  | 0x1014 => alone (u32 (0x80 + s.can.nodeId.toNat))
  | 0x1015 => alone (stored s i 0)
  | 0x1017 => alone (stored s i 0)
  | 0x1018 => subsFrom1 [numEntry .const 4 Config.vendorId.toNat, numEntry .const 4 0x9400, u32 s.fw.version.toNat,
      numEntry .const 4 Config.serial.toNat]
  | 0x1800 => subsFrom1 [u32 (0x180 + s.can.nodeId.toNat)]
  | _ => []

/-! ### 0x2000 to 0x23FF (R588, R589, R496, R537, R609) -/

def moduleObject (s : State) (i : Nat) : List (Nat × DictEntry) :=
  match i with
  | 0x2000 => subsFrom1 [strEntry .const (asciiBytes "GH9400-1T-X"),
      strEntry .const ((List.finRange 12).map Config.moduleSerial)]
  | 0x2001 => alone (u8 s.sys.mode.code)
  | 0x2010 => alone (stored s i 0)
  | 0x2011 => alone (stored s i 0)
  | 0x2020 => subsFrom1 [u8 s.can.nodeId.toNat, u8 s.can.dataRate.toNat, stored s i 3, stored s i 4]
  | 0x2030 => subsFrom1 [u16 s.dict.storeStatus.toNat, u8 s.dict.activeBank.toNat, u32 s.dict.storeSequence.toNat,
      u8 (b2n s.dict.defaultsPending)]
  | 0x2040 => subsFrom1 (u8 1 :: List.replicate 8 (u16 1))
  | 0x2050 => subsFrom1 [numEntry .rw 8 (calendarNow s).toNat, u8 s.sys.timeSource.toNat]
  | 0x2100 => subsFrom1 [stored s i 1, stored s i 2, u8 s.dict.groupStatus.toNat,
      u8 ((s.dict.peers.map (fun e => 2 ^ e.1)).sum),
      { access := .ro, size := some 48, read := fun _ => fingerprint s }]
  | 0x2101 => subsFrom1 ((List.range 8).map (fun k => stored s i (k + 1)))
  | 0x2102 => subsFrom1 [numEntry .rw 4 s.dict.checkpoint.toNat]
  | 0x2200 =>
    let p := s.present
    subsFrom1 [u32 p.subchannels.toNat, u32 p.quays.toNat, u16 p.groves.toNat, strEntry .ro (natLe 16 p.cores.toNat),
      u16 p.banks.toNat, u8 p.compression.toNat, u64 p.channels.toNat, u8 (b2n p.digest), u8 p.linkWidth.toNat]
  | 0x2300 => subsFrom1 [stored s i 1, stored s i 2, stored s i 3, u32 s.mram.retired.subchannels.toNat,
      u64 (if s.sys.laidOut then interBytes s else 0x4000000000),
      u64 (if s.sys.laidOut then localBytes s else 0x600000000)]
  | 0x2310 => subsFrom1 [stored s i 1, u8 (b2n s.eng.craneGh7), numEntry .const 2 Config.compressRevision.toNat]
  | 0x2320 => subsFrom1 [stored s i 1, u8 (b2n s.pcie.refclkSris)]
  | _ => []

/-! ### Berths, pool, migration, key slots (11, R457, R462; R588) -/

/-- KEY_SLOT_MAP: the slots in use, then empty ones. -/
def keySlotMap (s : State) : Bytes :=
  let used := s.eng.keys.flatMap (fun e => natLe 2 (e.1 / 256) ++ natLe 1 e.2.alg ++ [0])
  (used ++ (List.replicate 256 [(0xFF : Byte), 0xFF, 0, 0]).flatten).take 1024

def berthObject (s : State) (b : Nat) : List (Nat × DictEntry) :=
  let x := getB s b
  let w (n v : Nat) : DictEntry := numEntry .rw n v
  subsFrom1 [u8 x.state.code, numEntry .wo 1 0, u16 x.commandStatus.toNat, w 4 x.pasid.toNat, w 1 x.queueCount.toNat,
    domEntry .rw x.extents, w 4 x.canopyEntries.toNat, w 4 x.patternStates.toNat, w 1 x.digestContexts.toNat,
    w 2 x.keySlots.toNat, w 2 x.taskQuota.toNat, w 2 x.shareWeight.toNat, w 2 x.vectorBase.toNat,
    w 2 x.vectorCount.toNat, w 1 x.migrationMode.toNat, u16 x.faultCode.toNat, u64 x.faultAddress.toNat,
    u32 x.faultCount.toNat, u32 x.measurementCount.toNat, domEntry .ro x.measurements.flatten, strEntry .ro x.digest]

def poolObject (s : State) : List (Nat × DictEntry) :=
  subsFrom1 [u32 (granulesTotal s), u32 (granulesFree s), u32 (canopyTotal s), u32 (canopyFree s), u32 statesTotal,
    u32 (statesFree s), u32 tasksTotal, u32 (tasksFree s), u8 contextsTotal, u8 (contextsFree s), u16 keysTotal,
    u16 (keysFree s), u16 vectorsTotal, u16 (vectorsFree s), u16 (existing s).length]

def migrationObject (s : State) : List (Nat × DictEntry) :=
  subsFrom1 [u16 s.dict.migBerth.toNat, u8 s.dict.migOpcode.toNat, u32 s.dict.migDone.toNat, u32 s.dict.migTotal.toNat]

/-! ### Self-test, counters, log, firmware, measurements, modes (15, 16) -/

/-- The counter block at a dictionary index. -/
def counterBlockAt (i : Nat) : Option CounterBlock :=
  if 0x4400 ≤ i ∧ i < 0x4420 then some (.quay (Fin.ofNat 32 (i - 0x4400)))
  else if 0x4420 ≤ i ∧ i < 0x4430 then some (.canopy (Fin.ofNat 16 (i - 0x4420)))
  else if i = 0x4430 then some .pilot
  else if 0x4440 ≤ i ∧ i < 0x4460 then some (.memory (Fin.ofNat 32 (i - 0x4440)))
  else if i = 0x4460 then some .cranes
  else if 0x4461 ≤ i ∧ i < 0x4465 then some (.compression (Fin.ofNat 4 (i - 0x4461)))
  else if i = 0x4465 then some .digest
  else none

/-- The counters of a block, by their overflow bit plus 1. -/
def counterObject (s : State) (b : CounterBlock) : List (Nat × DictEntry) :=
  subsFrom1 ((List.range (blockSize b)).map (fun k =>
    numEntry .ro (if (blockShape b).1 ≤ k ∧ !(isEvent b k) then 4 else 8) (counterVal s b k)))

def testObject (s : State) (i : Nat) : List (Nat × DictEntry) :=
  let b := s.bist
  match i with
  | 0x4100 => subsFrom1 [numEntry .wo 1 0, u16 b.status.toNat, stored s i 3, stored s i 4, u8 b.progress.toNat,
      u64 b.lastPassEnd.toNat, u64 b.sessions, u32 b.mismatches]
  | 0x4110 => subsFrom1 ((List.range 78).map (fun p =>
      let r := resultOf s p
      u32 (r.1 + r.2.1 * 2 ^ 8 + r.2.2 * 2 ^ 16)))
  | 0x4200 => subsFrom1 [strEntry .ro (natLe 10 s.mram.retired.parts.toNat), strEntry .ro (natLe 16 s.mram.retired.cores.toNat),
      u64 s.mram.retired.channels.toNat]
  | _ => []

def trustObject (s : State) (i : Nat) : List (Nat × DictEntry) :=
  match i with
  | 0x5000 => subsFrom1 [u32 s.log.next, u8 (b2n s.mram.logFull), u32 s.mram.baseSequence.toNat, u32 s.mram.dropped.toNat,
      { access := .ro, size := none, read := fun o => logBytes s.mram o (min domainMax (4194304 - o)) },
      numEntry .wo 4 0, u16 s.log.clearStatus.toNat]
  | 0x5100 => subsFrom1 ((List.range 16).map (fun k => strEntry .ro (manifestReg s k)))
  | 0x5101 => subsFrom1 [u32 s.manifest.eventCount.toNat, domEntry .ro s.manifest.events.flatten]
  | 0x5180 => subsFrom1 [domEntry .ro (certChain s), strEntry .ro (0x04 :: (List.finRange 96).map Config.identityKey)]
  | 0x5200 =>
    let f := s.fw
    subsFrom1 [u8 f.booted.val, u32 f.version.toNat, u32 f.sequence.toNat, u8 f.inactiveState.toNat,
      u32 f.inactiveVersion.toNat, domEntry .wo [], numEntry .wo 1 0, u16 f.status.toNat, u32 f.bytesWritten.toNat,
      strEntry .ro [s.mram.bootFailsA, s.mram.bootFailsB]]
  | 0x5280 => subsFrom1 [numEntry .wo 1 0, u16 s.sys.modeStatus.toNat, stored s i 3, u16 s.sys.holdCause.toNat,
      u8 s.sys.resetCause.toNat, u32 s.sys.bootTimeMs.toNat]
  | 0x5310 => subsFrom1 [{ domEntry .ro (keySlotMap s) with keyed := true }]
  | _ => []

/-- The entries of an object; none where the object does not exist. -/
def objectAt (s : State) (i : Nat) : List (Nat × DictEntry) :=
  if i < 0x2000 then communicationObject s i
  else if i < 0x3000 then moduleObject s i
  else if i < 0x3200 then berthObject s (i - 0x3000)
  else if i = 0x3800 then poolObject s
  else if i = 0x4060 then migrationObject s
  else if i < 0x4400 then testObject s i
  else match counterBlockAt i with
    | some b => counterObject s b
    | none => trustObject s i

/-! ## Roles and requests (R582 to R585) -/

/-- Roles (R584). -/
inductive Role where
  | mgr
  | obs
  | fld
  deriving DecidableEq, Repr

/-- The role of a path. -/
def roleOf (s : State) (path : DictPath) : Role :=
  if path = .usdo then (if settingVal s 0x2010 0 = 1 then .fld else .obs) else .mgr

/-- Indices that FLD may write. -/
def fieldIndex (i : Nat) : Bool :=
  (decide (0x1000 ≤ i) && decide (i < 0x3000) && decide (i ≠ 0x2010) && decide (i ≠ 0x2050)) || decide (i = 0x4100)

/-- The role allows the access (R585). -/
def roleAllows (r : Role) (write : Bool) (i : Nat) (e : DictEntry) : Bool :=
  match r, write with
  | .mgr, _ => true
  | _, false => !e.keyed
  | .obs, true => false
  | .fld, true => fieldIndex i && (e.access == .rw || e.access == .wo)

/-- The indices that the ROM serves in its form of HOLD (R630). -/
def romServes (index : Nat) : Bool :=
  index = 0x1018 || index = 0x2001 || index = 0x5100 || index = 0x5200 || index = 0x5280

/-- Subindices of an object that exist: the ROM has only that of R630 at index 0x2001. -/
def subServed (s : State) (index sub : Nat) : Bool := !(s.sys.holdRom && decide (index = 0x2001)) || decide (sub = 0)

/-- The entry asked for, or the abort code, in the order of R582. -/
def entryFor (s : State) (r : Role) (write : Bool) (index sub : Nat) : Except (BitVec 32) DictEntry :=
  let o := objectAt s index
  if o.isEmpty ∨ (s.sys.holdRom ∧ !(romServes index)) then .error 0x06020000
  else match (o.find? (fun x => decide (x.1 = sub) && subServed s index sub)).map (·.2) with
  | none => .error 0x06090011
  | some e =>
    if !(roleAllows r write index e) then .error 0x06010000
    else if !write ∧ e.access = .wo then .error 0x06010001
    else if write ∧ (e.access = .const ∨ e.access = .ro) then .error 0x06010002
    else .ok e

/-- A read of an entry. -/
def dictGet (s : State) (r : Role) (index sub offset : Nat) : Except (BitVec 32) Bytes :=
  match entryFor s r false index sub with
  | .error c => .error c
  | .ok e => .ok (e.read (if e.size.isNone then offset else 0))

/-! ## Writes -/

/-- A stored entry is written (R587 to R590); what follows from values in effect is looked at again. -/
def writeSetting (e : Setting) (v : Nat) (s : State) : Except (BitVec 32) State :=
  if !(settingOk e v) then .error 0x06090030
  else .ok (groupUpdate (onDict (fun d => { d with settings := tblSet d.settings (entryKey e.index e.sub) v }) s))

/-- Writing 0 to 0x1003:00 clears the predefined error field. -/
def writeErrors (v : Nat) (s : State) : Except (BitVec 32) State :=
  if v ≠ 0 then .error 0x06090030 else .ok (onDict (fun d => { d with errors := [] }) s)

/-- Writes to SAVE_ALL and RESTORE_ALL: the signature, then the store's status word (R593, R595, R596). -/
def writeStore (kind : Fin 2) (v : Nat) (s : State) : Except (BitVec 32) State :=
  if v ≠ (if kind = 0 then 0x65766173 else 0x64616F6C) then .error 0x08000020
  else if s.dict.storeStatus = 1 then .error 0x08000022
  else .ok (startSave kind false s)

/-- A write to CHECKPOINT_ID (R614). -/
def writeCheckpoint (v : Nat) (s : State) : Except (BitVec 32) State :=
  .ok (onDict (fun d => { d with checkpoint := BitVec.ofNat 32 v }) s)

/-- A parameter of a berth, while the berth is absent (11, R456). -/
def setBerthField (sub v : Nat) (x : Berth) : Berth :=
  match sub with
  | 0x04 => { x with pasid := BitVec.ofNat 32 v }
  | 0x05 => { x with queueCount := BitVec.ofNat 8 v }
  | 0x07 => { x with canopyEntries := BitVec.ofNat 32 v }
  | 0x08 => { x with patternStates := BitVec.ofNat 32 v }
  | 0x09 => { x with digestContexts := BitVec.ofNat 8 v }
  | 0x0A => { x with keySlots := BitVec.ofNat 16 v }
  | 0x0B => { x with taskQuota := BitVec.ofNat 16 v }
  | 0x0C => { x with shareWeight := BitVec.ofNat 16 v }
  | 0x0D => { x with vectorBase := BitVec.ofNat 16 v }
  | 0x0E => { x with vectorCount := BitVec.ofNat 16 v }
  | 0x0F => { x with migrationMode := BitVec.ofNat 8 v }
  | _ => x

/-- COMMAND of a berth (11, R458). -/
def berthCommand (b : Fin 512) (v : Nat) (s : State) : Except (BitVec 32) State :=
  match v with
  | 1 => .ok (createBerth b s)
  | 2 => .ok (destroyBerth b s)
  | 3 => .ok (clearFault b s)
  | _ => .error 0x06090030

/-- A write to a berth's object. -/
def writeBerth (b : Fin 512) (sub offset : Nat) (data : Bytes) (s : State) : Except (BitVec 32) State :=
  let x := getB s b.val
  if sub = 2 then berthCommand b (leNat data) s
  else if sub = 6 then (extentsWrite x offset data).map (fun l => onB b.val (fun x => { x with extents := l }) s)
  else if x.state ≠ .absent then .error 0x08000022
  else .ok (onB b.val (setBerthField sub (leNat data)) s)

/-- An open bit: whether flash programming that a plain dictionary write starts reads back. -/
def openBit (s : State) : Bool × State :=
  let (n, s1) := takeFresh s
  ((Config.freeWord n).getLsbD 0, s1)

/-- PASS_REQUEST through a plain dictionary write: what the full pass finds is open. -/
def writePass (v : Nat) (s : State) : Except (BitVec 32) State :=
  let (n, s1) := takeFresh s
  let w := (Config.freeVec n).toNat
  match v with
  | 1 => requestFull (BitVec.ofNat 77 w) (BitVec.ofNat 128 (w / 2 ^ 77)) (BitVec.ofNat 32 (w / 2 ^ 205)) s1
  | 2 => requestPass s
  | 3 => requestAbort s
  | _ => .error 0x06090030

/-- MODE_REQUEST (15, R637, R638). -/
def writeMode (v : Nat) (s : State) : Except (BitVec 32) State :=
  match v with
  | 2 => requestMaintenance s
  | 3 => requestLeave s
  | _ => .error 0x06090030

/-- Firmware COMMAND (15, R625). -/
def writeFirmware (v : Nat) (s : State) : Except (BitVec 32) State :=
  let (ok, s1) := openBit s
  match v with
  | 1 => startCommit ok s1
  | 2 => abortPackage s
  | _ => .error 0x06090030

/-- The write of a whole value to an entry that may be written. -/
def writeValue (index sub offset : Nat) (data : Bytes) (s : State) : Except (BitVec 32) State :=
  let v := leNat data
  match settingAt index sub with
  | some e => writeSetting e v s
  | none =>
    if 0x3000 ≤ index ∧ index < 0x3200 then writeBerth (Fin.ofNat 512 (index - 0x3000)) sub offset data s
    else match index with
    | 0x1003 => writeErrors v s
    | 0x1010 => writeStore 0 v s
    | 0x1011 => writeStore 1 v s
    | 0x2050 => writeCalendar v s
    | 0x2102 => writeCheckpoint v s
    | 0x4100 => writePass v s
    | 0x5000 => writeClear v s
    | 0x5200 =>
      if sub = 6 then
        let (ok, s1) := openBit s
        writePackage offset data ok s1
      else writeFirmware v s
    | 0x5280 => writeMode v s
    | _ => .ok s

/-- A write of an entry. -/
def dictSet (r : Role) (index sub offset : Nat) (data : Bytes) (s : State) : Except (BitVec 32) State :=
  match entryFor s r true index sub with
  | .error c => .error c
  | .ok e =>
    match e.size with
    | some n => if data.length = n then writeValue index sub 0 data s else .error 0x06070010
    | none => writeValue index sub offset data s

/-! ## The mailbox (R598, R599) -/

/-- DATA of the mailbox. -/
def mailboxData (m : Mailbox) (n : Nat) : Bytes := (List.range n).map (fun i => tblGet 0 m.data i)

/-- DATA with bytes written from its start. -/
def putData : Nat → Bytes → Tbl Byte → Tbl Byte
  | _, [], t => t
  | i, b :: l, t => putData (i + 1) l (tblSet t i b)

/-- A mailbox request ends: STATE, SEQ, ABORT_CODE, and event source 1648. -/
def mailboxEnds (seq : BitVec 16) (abort : BitVec 32) (f : Mailbox → Mailbox) (s : State) : State :=
  let m : Mailbox := f { s.dict.mailbox with state := if abort = 0 then 2 else 3, seq := seq, abort := abort }
  raiseSource 1648 (onDict (fun d => { d with mailbox := m }) s)

/-- MB_READ. -/
def execMbRead (seq : BitVec 16) (s : State) : Host.Outcome State Fault Refusal :=
  let m := s.dict.mailbox
  .next (
    if !(mailboxOpen s) ∨ m.state = 1 then s
    else match dictGet s .mgr m.index.toNat m.sub.toNat m.offset.toNat with
    | .ok b => mailboxEnds seq 0 (fun m => { m with length := BitVec.ofNat 32 b.length, data := putData 0 b m.data }) s
    | .error c => mailboxEnds seq c (fun m => { m with length := 0 }) s)

/-- MB_WRITE. -/
def execMbWrite (seq : BitVec 16) (s : State) : Host.Outcome State Fault Refusal :=
  let m := s.dict.mailbox
  let n := m.length.toNat
  .next (
    if !(mailboxOpen s) ∨ m.state = 1 then s
    else
      let r : Except (BitVec 32) State :=
        match entryFor s .mgr true m.index.toNat m.sub.toNat with
        | .error c => .error c
        | .ok _ =>
          if domainMax < n then .error 0x06070010
          else dictSet .mgr m.index.toNat m.sub.toNat m.offset.toNat (mailboxData m n) s
      match r with
      | .ok s1 => mailboxEnds seq 0 id s1
      | .error c => mailboxEnds seq c id s)

/-! ## DOE (R600) -/

/-- A response in the layout of a request. -/
def doeBytes (op : Byte) (sub : Nat) (index offset : Nat) (data : Bytes) (abort : BitVec 32) : Bytes :=
  [op + 0x80] ++ natLe 1 sub ++ natLe 2 index ++ natLe 4 offset ++ natLe 4 data.length ++ natLe 4 abort.toNat ++
    padTo (roundUp data.length 4) data

/-- A request that fits the layout. -/
def doeFits (b : Bytes) : Bool :=
  let op := field b 0 1
  let n := field b 8 4
  decide (16 ≤ b.length) && (op == 1 || op == 2) && decide (field b 12 4 = 0) && decide (n ≤ domainMax) &&
  decide (b.length = 16 + (if op = 2 then roundUp n 4 else 0))

/-- DOE_DICTIONARY_REQUEST. -/
def execDoeDictionaryRequest (request : Bytes) (s : State) : Host.Outcome State Fault Refusal :=
  let op : Byte := request.headD 0
  let (sub, index, offset, n) := (field request 1 1, field request 2 2, field request 4 4, field request 8 4)
  let reply (data : Bytes) (c : BitVec 32) (s : State) : State :=
    onDict (fun d => { d with doeResponse := doeBytes op sub index offset data c }) s
  .next (
    if !(doeOpen s) then s
    else if !(doeFits request) then reply [] 0x08000020 s
    else if op = 1 then
      match dictGet s .mgr index sub offset with
      | .ok b => reply b 0 s
      | .error c => reply [] c s
    else match dictSet .mgr index sub offset (slice request 16 n) s with
      | .ok s1 => reply [] 0 s1
      | .error c => reply [] c s)

/-! ## USDO (R603) -/

/-- The node serves a request: not a broadcast, and with fewer than four sessions of other clients in progress. -/
def usdoServes (s : State) (broadcast : Bool) : Bool := canActive s && !broadcast

/-- A fifth session is refused. -/
def usdoFull (s : State) (client : BitVec 8) : Bool := decide (4 ≤ (s.can.sessions.filter (fun c => c != client)).length)

/-- USDO_READ. -/
def execUsdoRead (client : BitVec 8) (broadcast : Bool) (index : BitVec 16) (sub : BitVec 8) (s : State) :
    Host.Outcome State Fault Refusal :=
  .next (
    if !(usdoServes s broadcast) then s
    else if usdoFull s client then setAnswer [] 0x08000022 s
    else match dictGet s (roleOf s .usdo) index.toNat sub.toNat 0 with
    | .ok b => setAnswer b 0 s
    | .error c => setAnswer [] c s)

/-- USDO_WRITE. -/
def execUsdoWrite (client : BitVec 8) (broadcast : Bool) (index : BitVec 16) (sub : BitVec 8) (data : Bytes) (s : State) :
    Host.Outcome State Fault Refusal :=
  .next (
    if !(usdoServes s broadcast) then s
    else if usdoFull s client then setAnswer [] 0x08000022 s
    else match dictSet (roleOf s .usdo) index.toNat sub.toNat 0 data s with
    | .ok s1 => setAnswer [] 0 s1
    | .error c => setAnswer [] c s)

/-! ## Writes that are commands of their own -/

/-- A path reaches the dictionary. -/
def pathServes (s : State) : DictPath → Bool
  | .mailbox => mailboxOpen s && decide (s.dict.mailbox.state ≠ 1)
  | .doe => doeOpen s
  | .usdo => canActive s

/-- A write answers; on the mailbox its request ends. -/
def answerWrite (path : DictPath) (abort : BitVec 32) (s : State) : State :=
  let s1 := setAnswer [] abort s
  if path = .mailbox then mailboxEnds s.dict.mailbox.seq abort id s1 else s1

/-- A write of one entry by a path, with its meaning: entry, role and access first, in the order of R582. -/
def writeBy (path : DictPath) (index sub : Nat) (go : State → Except (BitVec 32) State) (s : State) :
    Host.Outcome State Fault Refusal :=
  .next (
    if !(pathServes s path) then s
    else match entryFor s (roleOf s path) true index sub with
    | .error c => answerWrite path c s
    | .ok _ =>
      match go s with
      | .ok s1 => answerWrite path 0 s1
      | .error c => answerWrite path c s)

/-- SAVE_ALL. -/
def execSaveAll (path : DictPath) (value : BitVec 32) (s : State) : Host.Outcome State Fault Refusal :=
  writeBy path 0x1010 1 (writeStore 0 value.toNat) s

/-- RESTORE_ALL. -/
def execRestoreAll (path : DictPath) (value : BitVec 32) (s : State) : Host.Outcome State Fault Refusal :=
  writeBy path 0x1011 1 (writeStore 1 value.toNat) s

/-- ERROR_COUNT_CLEAR. -/
def execErrorCountClear (path : DictPath) (value : BitVec 8) (s : State) : Host.Outcome State Fault Refusal :=
  writeBy path 0x1003 0 (writeErrors value.toNat) s

/-- CALENDAR_TIME_WRITE. -/
def execCalendarTimeWrite (path : DictPath) (value : BitVec 64) (s : State) : Host.Outcome State Fault Refusal :=
  writeBy path 0x2050 1 (writeCalendar value.toNat) s

/-- CHECKPOINT_ID_WRITE. -/
def execCheckpointIdWrite (path : DictPath) (value : BitVec 32) (s : State) : Host.Outcome State Fault Refusal :=
  writeBy path 0x2102 1 (writeCheckpoint value.toNat) s

/-- MODE_REQUEST_MAINTENANCE. -/
def execModeRequestMaintenance (path : DictPath) (s : State) : Host.Outcome State Fault Refusal :=
  writeBy path 0x5280 1 requestMaintenance s

/-- MODE_REQUEST_LEAVE. -/
def execModeRequestLeave (path : DictPath) (s : State) : Host.Outcome State Fault Refusal :=
  writeBy path 0x5280 1 requestLeave s

/-- PASS_REQUEST_FULL: `failed`, `failedCores` and `failedPatterns` are what the pass finds. -/
def execPassRequestFull (path : DictPath) (failed : BitVec 77) (failedCores : BitVec 128) (failedPatterns : BitVec 32)
    (s : State) : Host.Outcome State Fault Refusal :=
  writeBy path 0x4100 1 (requestFull failed failedCores failedPatterns) s

/-- PASS_REQUEST_START. -/
def execPassRequestStart (path : DictPath) (s : State) : Host.Outcome State Fault Refusal :=
  writeBy path 0x4100 1 requestPass s

/-- PASS_REQUEST_ABORT. -/
def execPassRequestAbort (path : DictPath) (s : State) : Host.Outcome State Fault Refusal :=
  writeBy path 0x4100 1 requestAbort s

/-- PACKAGE: `readBack` says that the flash read back what was programmed. -/
def execPackage (path : DictPath) (offset : BitVec 32) (data : Bytes) (readBack : Bool) (s : State) :
    Host.Outcome State Fault Refusal :=
  writeBy path 0x5200 6 (writePackage offset.toNat data readBack) s

/-- COMMIT. -/
def execCommit (path : DictPath) (readBack : Bool) (s : State) : Host.Outcome State Fault Refusal :=
  writeBy path 0x5200 7 (startCommit readBack) s

/-- ABORT. -/
def execAbort (path : DictPath) (s : State) : Host.Outcome State Fault Refusal := writeBy path 0x5200 7 abortPackage s

/-- CLEAR. -/
def execClear (path : DictPath) (value : BitVec 32) (s : State) : Host.Outcome State Fault Refusal :=
  writeBy path 0x5000 6 (writeClear value.toNat) s

end Sys2Proof.Machine
end

