-- ==== Sys2Proof/Machine/Emit.lean ====
section
/-! DEFINITION. EMIT (04_pipelines.md, R181, R182, R187, R190 to R195): the Arrow arrays of a result set. -/

namespace Sys2Proof.Machine

/-- A decimal value that Decimal128(38, SCALE) cannot hold (R191). -/
def outOfRange (type : Nat) (v : Value) : Bool :=
  match v with
  | .num n => (decide (type = 0x05) || decide (type = 0x18)) &&
    decide (10 ^ 38 - 1 < (signed 128 n).natAbs)
  | _ => false

/-- Bytes that a value puts into a data buffer. -/
def dataBytes : Value → Nat
  | .str b => b.length
  | .long _ n _ => n
  | _ => 0

/-- The first NULL or RANGE failure of a batch's rows, columns in schema order: code and result row (R191). -/
def emitFault (y : EmitSet) (sc : Schema) (rows : List Row) : Option (Nat × Nat) :=
  (((List.range rows.length).zip rows).flatMap (fun r =>
    ((List.range sc.length).zip (sc.zip y.columns)).map (fun c =>
      let v := r.2.getD c.1 .null
      if v = .null ∧ c.2.2.validityAddr = 0 then some (0x030C, y.rows + r.1)
      else if outOfRange c.2.1.1 v then some (0x0313, y.rows + r.1)
      else none))).findSome? (fun x => x)

/-- The rows would take the set past CAPACITY or a column past DATA_CAPACITY (R191). -/
def emitOverflow (y : EmitSet) (sc : Schema) (rows : List Row) : Bool :=
  decide (y.capacity < y.rows + rows.length) ||
  ((List.range sc.length).zip (sc.zip y.columns)).any (fun c =>
    decide (typeClass c.2.1.1 = .bytes) &&
    decide (c.2.2.dataCap < c.2.2.dataUsed + (rows.map (fun r => dataBytes (r.getD c.1 .null))).sum))

/-- Bytes of a bit array that change: those from the one that holds bit `at_` on, with the kept low bits (R194). -/
def bitTail (kept at_ : Nat) (bits : List Bool) : Bytes :=
  let lead := (List.range (at_ % 8)).map (fun i => bitOf kept i)
  bitBytes (ceilDiv (at_ % 8 + bits.length) 8) (lead ++ bits)

/-- The bits of the last, partly used byte after an append. -/
def keptBits (kept at_ : Nat) (bits : List Bool) : Nat :=
  let n := at_ + bits.length
  let all := (List.range (at_ % 8)).map (fun i => bitOf kept i) ++ bits
  ((all.drop (all.length - n % 8)).foldr (fun b a => 2 * a + b2n b) 0)

/-- Arrow offsets after the values of a byte-string column (R187, R190). -/
def arrowOffsets : Nat → List Value → List Nat
  | _, [] => []
  | o, v :: t => (o + dataBytes v) :: arrowOffsets (o + dataBytes v) t

/-- The buffer writes of one column, in order: host address and bytes; and the column after them (R187, R190,
R194). -/
def emitColumn (s : State) (rows : Nat) (t : Nat) (c : EmitCol) (vs : List Value) : List (Nat × Bytes) × EmitCol :=
  let ok := vs.map (fun v => v != .null)
  let validity := if c.validityAddr = 0 then [] else [(c.validityAddr + rows / 8, bitTail c.vbits rows ok)]
  let c1 := if c.validityAddr = 0 then c else { c with vbits := keptBits c.vbits rows ok }
  match typeClass t with
  | .bool =>
    let bits := vs.map (fun v => decide (v = .num 1))
    (validity ++ [(c.valuesAddr + rows / 8, bitTail c.bbits rows bits)], { c1 with bbits := keptBits c.bbits rows bits })
  | .bytes =>
    let data := vs.flatMap (fun v => valBytes (inlineValue s v))
    (validity ++ [(c.dataAddr + c.dataUsed, data),
                  (c.valuesAddr + 4 * (rows + 1), (arrowOffsets c.dataUsed vs).flatMap (natLe 4))],
     { c1 with dataUsed := c.dataUsed + data.length })
  | _ =>
    (validity ++ [(c.valuesAddr + typeSize t * rows, vs.flatMap (fun v => natLe (typeSize t) (valPattern v)))], c1)

/-- BYTES_COMMITTED of a set (R193). -/
def setCommitted (y : EmitSet) (sc : Schema) : Nat :=
  ((sc.zip y.columns).map (fun c =>
    (if c.2.validityAddr = 0 then 0 else ceilDiv y.rows 8) +
    (match typeClass c.1.1 with
     | .bool => ceilDiv y.rows 8
     | .bytes => 4 * (y.rows + 1) + c.2.dataUsed
     | _ => typeSize c.1.1 * y.rows))).sum

/-- rows_committed and bytes_committed of a job: sums over its sets (R192). -/
def runTotals (r : Run) : Nat × Nat :=
  let parts := (emitsOf r.image).filterMap (fun e => (tblFind r.sets e.1).map (fun y => (y, e.2)))
  ((parts.map (fun p => p.1.rows)).sum, (parts.map (fun p => setCommitted p.1 p.2)).sum)

/-- rows_committed and bytes_committed of the status block are written; the job is PARTIAL once rows_committed has
advanced (R181, R192). -/
def commitTotals (j rows bytes : Nat) (s : State) : State :=
  match getJ s j with
  | none => s
  | some x =>
    let s1 := statusWrite x 0x10 (natLe 8 rows ++ natLe 8 bytes) (onJ j (fun x => { x with rows := rows, bytes := bytes }) s)
    if x.rows < rows then setJobState j 3 s1 else s1

/-- The counter writes of a commit: the set's, then the status block's (R192). -/
def commitCounters (j : Nat) (b : Fin 512) (set : Nat) (sc : Schema) (s : State) : State :=
  match getR s j with
  | none => s
  | some r =>
    match tblFind r.sets set with
    | none => s
    | some y =>
      commitTotals j (runTotals r).1 (runTotals r).2
        (hostWrite (some b) (y.record + 0x10) (natLe 8 y.rows ++ natLe 8 (setCommitted y sc)) s)

/-- Write a batch's rows to a set and commit them (R192). -/
def commitRows (j : Nat) (b : Fin 512) (set : Nat) (sc : Schema) (rows : List Row) (y : EmitSet) (s : State) : State :=
  let cols := ((List.range sc.length).zip (sc.zip y.columns)).map (fun c =>
    emitColumn s y.rows c.2.1.1 c.2.2 (rows.map (fun r => r.getD c.1 .null)))
  let s1 := (cols.flatMap (fun c => c.1)).foldl (fun s w => hostWrite (some b) w.1 w.2 s) s
  let y1 := { y with rows := y.rows + rows.length, columns := cols.map (fun c => c.2) }
  commitCounters j b set sc (onR j (fun r => { r with sets := tblSet r.sets set y1 }) s1)

/-- A set has stopped at ROW_LIMIT, or its EMIT has ended. -/
def setOver (r : Run) (e : Nat × Stage) : Bool :=
  match emitSet e.2 with
  | none => true
  | some k => (getI r e.1 0).ended || ((tblFind r.sets k).map (fun y => y.stopped)).getD false

/-- The job is DONE when every result set has stopped or ended (R181, R182); the other stages stop as for CANCEL. -/
def checkDone (j : Nat) (s : State) : State :=
  match getR s j with
  | none => s
  | some r =>
    let es := (numbered r.image.stages).filter (fun e => (emitSet e.2).isSome)
    if es.all (setOver r) then
      if es.all (fun e => (getI r e.1 0).ended) then endDone j s else stopTasks j (endDone j s)
    else s

/-- The batch is done with at its EMIT: its credit goes back, and the stage or the job may end. -/
def emitEnds (j st : Nat) (a : Arrived) (s : State) : State :=
  let s1 := finishBatch j st 0 a s
  checkDone j (if inputDone s1 j st 0 then onI j st 0 (fun n => { n with ended := true }) s1 else s1)

/-- With `rows` more rows committed ROW_LIMIT is reached: the set takes no more (R193). -/
def emitLimit (j : Nat) (r : Run) (set rows : Nat) (y : EmitSet) (s : State) : State :=
  if r.rowLimit ≠ 0 ∧ r.rowLimit ≤ y.rows + rows then
    onR j (fun r => { r with sets := tblMod y r.sets set (fun y => { y with stopped := true }) }) s
  else s

/-- The rows of a batch that a set still takes. -/
def emitTakes (r : Run) (y : EmitSet) (all : List Row) : List Row :=
  if y.stopped then [] else all.take (if r.rowLimit = 0 then all.length else r.rowLimit - y.rows)

/-- EMIT_BATCH (R190 to R195): EMIT takes the next batch while a core runs its task, one batch in each work item, and
waits for a crane channel for its writes (13, R533). A batch that a failed core had committed already repeats its counter writes only (16, R662). -/
def execEmitBatch (job : Nat) (stage : Fin 256) (s : State) : Host.Outcome State Fault Refusal :=
  .next (withInst job stage.val 0 s (fun x r g n =>
    match g.body, n.queue, x.berth with
    | .emit set, a :: q, some b =>
      if !(instRunning s n) ∨ !n.taken.isEmpty ∨ (freeChannel s false).isNone then s
      else match tblFind r.sets set with
      | none => s
      | some y =>
        let sc := inputSchema r stage.val 0
        let s0 := takeBatch job stage.val 0 a q s
        let rows := emitTakes r y (batchSelected a.batch)
        let name := (a.edge, a.producer, a.batch.seq)
        if y.recorded = some name then emitEnds job stage.val a (commitCounters job b set sc s0)
        else if rows.isEmpty then
          emitEnds job stage.val a (emitLimit job r set rows.length y (commitCounters job b set sc
            (onR job (fun r => { r with sets := tblSet r.sets set { y with recorded := some name } }) s0)))
        else if emitOverflow y sc rows then endFailed job 0x030B set s0
        else match emitFault y sc rows with
        | some e => endFailed job e.1 e.2 s0
        | none =>
          let cols := List.range sc.length
          match readLongs x.berth (longsOf cols (((List.range rows.length).map (fun k => y.rows + k)).zip rows)) s0 with
          | (.fault v c p, s1) => awayFault v job c p s1
          | (.violation v, s1) => noteViolation b v (some job) s1
          | (.ok, s1) =>
            emitEnds job stage.val a (emitLimit job r set rows.length y
              (commitRows job b set sc rows { y with recorded := some name } s1))
    | _, _, _ => s))

end Sys2Proof.Machine
end

