-- ==== Sys2Proof/Machine/Pcie.lean ====
section
/-! DEFINITION. The PCIe function (10_host_queues.md, R392 to R402): the link, D3hot, configuration requests and the BAR4
aperture. -/

namespace Sys2Proof.Machine

/-! ## The link (R396; 16, R663) -/

/-- A job that is not final is cancelled, whatever its outcome was to be; its status block and its ring keep what they
hold. -/
def cancelJob (j : Nat) (s : State) : State :=
  stopTasks j (onJ j (fun x => { x with cancelled := true, silent := true, result := some ⟨6, 0, 0⟩ }) s)

/-- Every job is. -/
def cancelJobs (s : State) : State := (s.jobs.map (·.1)).foldl (fun s j => cancelJob j s) s

/-- ERR_CAUSE LINK (R423). -/
def linkCause : Nat := 8

/-- A live queue goes to ERROR LINK; its reads are lost. -/
def linkLost (q : Nat) (s : State) : State :=
  if (getQ s q).state.live then
    queueError q linkCause (onQ q (fun k => { k with reading := false, readAgain := false, kept := false }) s)
  else s

/-- Host-bound writes and messages that wait are discarded; a freeze whose job is cancelled is over. -/
def dropHeld (s : State) : State :=
  let s1 := onPcie (fun p => { p with held := [], msixHeld := [] }) s
  s1.berths.foldl (fun s e => onB e.1 (fun x => { x with
    dirty := { x.dirty with held := [] }, freeze := none,
    state := if x.state = .freezing then .active else x.state }) s) s1

/-- LINK_DOWN. -/
def execLinkDown (s : State) : Host.Outcome State Fault Refusal :=
  .next (if s.pcie.linkUp then
      let s1 := onPcie (fun p => { p with linkUp := false, d3hot := false }) (dropHeld s)
      syncPins (cancelJobs ((s.queues.map (·.1)).foldl (fun s q => linkLost q s) s1))
    else s)

/-- LINK_UP at a speed, with FLIT mode at 64 GT/s and where the partner supports it (R392): completions that waited are
posted once a read of CQ_CONS shows free slots (R439). -/
def execLinkUp (speed : Fin 8) (flit : Bool) (s : State) : Host.Outcome State Fault Refusal :=
  .next (if s.sys.mode ≠ .reset ∧ !s.pcie.linkUp then
      let s1 := syncPins (onPcie (fun p => { p with linkUp := true, speed := speed, flit := flit || decide (speed = 6) }) s)
      (s1.queues.map (·.1)).foldl (fun s q => if (getQ s q).state.live ∧ (getQ s q).hold ≠ [] then issueRead q s else s) s1
    else s)

/-- LINK_WIDTH_CHANGE. -/
def execLinkWidthChange (width : BitVec 8) (s : State) : Host.Outcome State Fault Refusal :=
  let old := s.present.linkWidth
  .next (if s.pcie.linkUp ∧ (width = 8 ∨ width = 4) ∧ width.toNat < old.toNat then
      onPresent (fun p => { p with linkWidth := width }) (logRecord 0x4001 0x0B00 old.toNat width.toNat 0 s)
    else s)

/-! ## D3hot (R395) -/

/-- D3HOT_ENTRY. -/
def execD3hotEntry (s : State) : Host.Outcome State Fault Refusal :=
  .next (if s.pcie.linkUp then onPcie (fun p => { p with d3hot := true }) s else s)

/-! ### What waits behind a dirty ring (11, R481, R484) -/

/-- One write or message that waited behind the ring goes out, if requests are made at all and the ring has room for its
records. -/
def releaseOne (b : Nat) (s : State) : State :=
  let d := (getB s b).dirty
  match d.held with
  | [] => s
  | w :: rest =>
    let pop (s : State) : State := onB b (fun x => { x with dirty := { x.dirty with held := rest } }) s
    if hostBlocked s then s
    else if w.data.isEmpty then signalVector w.addr (pop s)
    else
      let pages := (pagesOf w.addr w.data.length).filter (fun p => !(d.filter.contains p))
      if d.running ∧ (d.space = 0 ∨ d.space < pages.length) then s
      else
        let s1 := putHost w.key w.addr w.data (pop s)
        if d.running then pages.foldl (fun s p => dirtyRecord b p s) s1 else s1

/-- Everything that may go out does. -/
def releaseHeld (b : Nat) (s : State) : State := Nat.repeat (releaseOne b) (getB s b).dirty.held.length s

/-- A host write that waited goes out, with the dirty records of its berth. -/
def releaseWrite (w : HeldWrite) (s : State) : State :=
  match s.berths.find? (fun e => decide (hostKey s (some (Fin.ofNat 512 e.1)) = w.key) && (e.2.state != .absent)) with
  | some e => if w.key = 0 then putHost 0 w.addr w.data s else berthWrite e.1 w.addr w.data s
  | none => putHost w.key w.addr w.data s

/-- D0_RETURN: the writes in order, those behind a dirty ring first, then the messages under R447; in HOLD none is made
(01, R30). -/
def execD0Return (s : State) : Host.Outcome State Fault Refusal :=
  .next (if s.pcie.d3hot then
      let s1 := onPcie (fun p => { p with d3hot := false, held := [], msixHeld := [] }) s
      if !(hostActive s) then s1
      else
        let s2 := (s1.berths.map (·.1)).foldl (fun s b => releaseHeld b s) s1
        s.pcie.msixHeld.foldl (fun s v => sendMsix v s) (s.pcie.held.foldl (fun s w => releaseWrite w s) s2)
    else s)

/-! ## Configuration requests (R392, R394, R397; 01, R27) -/

/-- Low 64 bits of a BAR pair as read: address bits above the size, and the type bits. -/
def barSizeOf (s : State) (pair : Nat) : Nat := match pair with
  | 0 => 0x1000000
  | 1 => 0x2000000
  | _ => s.pcie.bar4Size

/-- Type bits of a BAR pair: 64-bit; BAR2 and BAR4 prefetchable. -/
def barType (pair : Nat) : Nat := if pair = 0 then 0x4 else 0xC

/-- A BAR register as read. -/
def barRead (s : State) (n : Nat) : BitVec 32 :=
  let mask := wordOf (2 ^ 64 - barSizeOf s (n / 2)) (n % 2)
  let v := tblGet 0 s.pcie.config n &&& mask
  if n % 2 = 0 then v ||| BitVec.ofNat 32 (barType (n / 2)) else v

/-- Log₂ of a size in bytes. -/
def sizeCode (n : Nat) : Nat := n.log2

/-- Codes of Device Control for a payload or read request size. -/
def sizeField (n : Nat) : Nat := sizeCode (n / 128)

/-- A configuration register as read; one whose content only the base specification gives reads as an open value. -/
def configRead (s : State) : ConfigRegister → BitVec 32
  | .vendorId => Config.pciVendorId.zeroExtend 32
  | .deviceId => 0x9400
  | .classCode => 0x120000
  | .headerType => 0
  | .command => tblGet 0 s.pcie.config 6
  | .bar n => barRead s n.val
  | .barSize => BitVec.ofNat 32 (4 + 1 * 32 + (sizeCode s.pcie.bar4Size - 20) * 256)
  | .msixControl => BitVec.ofNat 32 (2047 + b2n s.pcie.functionMask * 2 ^ 14 + b2n s.pcie.msixEnable * 2 ^ 15)
  | .deviceControl => BitVec.ofNat 32
      (b2n s.pcie.relaxedOrder * 16 + sizeField s.pcie.maxPayload * 32 + sizeField s.pcie.maxRead * 4096)
  | .aerUncorrectable => s.pcie.aerUncorrectable
  | .aerCorrectable => s.pcie.aerCorrectable
  | .other o => Config.configOther (o.val + 4096 * s.sys.fresh)

/-- A write to a configuration register. -/
def configWrite (r : ConfigRegister) (v : BitVec 32) (s : State) : State :=
  match r with
  | .command => onPcie (fun p => { p with config := tblSet p.config 6 v }) s
  | .bar n => onPcie (fun p => { p with config := tblSet p.config n.val v }) s
  | .barSize =>
    let code := v.toNat / 256 % 64
    if 8 ≤ code ∧ code ≤ 16 then onPcie (fun p => { p with bar4Size := 2 ^ (code + 20) }) s else s
  | .msixControl =>
    releaseVectors (onPcie (fun p => { p with functionMask := v.getLsbD 14, msixEnable := v.getLsbD 15 }) s)
  | .deviceControl =>
    let payload := v.toNat / 32 % 8
    let read := v.toNat / 4096 % 8
    onPcie (fun p => { p with relaxedOrder := v.getLsbD 4, maxPayload := if payload ≤ 2 then 128 * 2 ^ payload else p.maxPayload,
                              maxRead := if read ≤ 5 then 128 * 2 ^ read else p.maxRead }) s
  | .aerUncorrectable => onPcie (fun p => { p with aerUncorrectable := p.aerUncorrectable &&& ~~~v }) s
  | .aerCorrectable => onPcie (fun p => { p with aerCorrectable := p.aerCorrectable &&& ~~~v }) s
  | _ => s

/-- Configuration is answered with Retry Status: in BOOT until Tisum is ready (01, R27; 15, R618). -/
def configRetries (s : State) : Bool := s.sys.mode == .boot && !s.sys.tisum

/-- CONFIGURATION_REQUEST. -/
def execConfigurationRequest (r : ConfigRequest) (s : State) : Host.Outcome State Fault Refusal :=
  .next (
    if !s.pcie.linkUp ∨ s.sys.mode = .reset then s
    else if configRetries s then onSys (fun y => { y with readAnswer := 0, readRefused := false, retryStatus := true }) s
    else match r with
    | .read (.other o) => (takeFresh (answerRead ((configRead s (.other o)).zeroExtend 64) s)).2
    | .read c => answerRead ((configRead s c).zeroExtend 64) s
    | .write c v => onSys (fun y => { y with retryStatus := false }) (configWrite c v s))

/-! ## BAR4 (R401, R402) -/

/-- An access through the aperture is refused: beyond installed memory, or on a device-owned granule, the image granules
of R175 among them. -/
def apertureRefuses (s : State) (a n : Nat) : Bool :=
  decide (installedBytes s < a + n) ||
  (granulesOf a n).any (fun g => decide ((ownOf s g).owner = .device) || (ownOf s g).image)

/-- An access is refused: REFUSED is set, and AER logs an advisory non-fatal error, which is the base specification's
Unsupported Request in the uncorrectable status and Advisory Non-Fatal in the correctable (R392, R402). -/
def noteRefused (s : State) : State :=
  onPcie (fun p => { p with
    apertureRefused := true, aerUncorrectable := p.aerUncorrectable ||| BitVec.twoPow 32 20,
    aerCorrectable := p.aerCorrectable ||| BitVec.twoPow 32 13 }) s

/-- The answer of the last BAR4 read. -/
def answerBytes (b : Bytes) (refused : Bool) (s : State) : State :=
  onSys (fun y => { y with readRefused := refused, retryStatus := false })
    (onDict (fun d => { d with answer := ⟨b, 0⟩ }) s)

/-- BAR4_ACCESS. -/
def execBar4Access (offset : BitVec 36) (length : Fin 4097) (wdata : Option Bytes) (s : State) :
    Host.Outcome State Fault Refusal :=
  let a := s.pcie.apertureBase.toNat + offset.toNat
  let n := match wdata with
    | some d => d.length
    | none => length.val
  .next (
    if !(barOpen s) ∨ n = 0 ∨ s.pcie.bar4Size < offset.toNat + n then s
    else if apertureRefuses s a n then
      answerBytes [] wdata.isNone (noteRefused s)
    else match wdata with
    | some d => (devWrite none false a d s).2
    | none =>
      match devRead none false a n s with
      | (.ok b, s1) => answerBytes b false s1
      | (_, s1) => answerBytes [] true s1)

end Sys2Proof.Machine
end

