-- ==== Sys2Proof/Machine/StateImage.lean ====
section
/-! DEFINITION. The state image of a berth (11_berths.md, R475 to R479): what it holds, its header, and the berth that
comes back from it. The layout of the section bodies belongs to their STATE_VERSION and is not stated, so the bytes of
a body, and the reading of them, are open functions. -/

namespace Sys2Proof.Machine

/-- What a state image holds (R476). Queues are numbered within the berth, vectors are offsets from VECTOR_BASE, table
entries lie by place in their table, a task carries what remains of its delay. -/
structure SavedBerth where
  mode : Nat
  queueCount : Nat
  shareWeight : Nat
  granules : List (Nat × Option Nat)
  queues : Tbl Queue
  counters : Tbl Counters
  jobs : Tbl Job
  runs : Tbl Run
  scans : List ScanTask
  tasks : Tbl Task
  flows : Tbl Nat
  tables : List (Nat × CTable × List (Nat × CEntry))
  contexts : Tbl Context
  keys : Tbl KeySlot
  digestJobs : Tbl DigestJob
  frameJobs : Tbl FrameJob
  measurements : List Bytes
  measurementCount : BitVec 32
  digest : Bytes
  slots : Tbl Slot
  deriving DecidableEq, Repr

end Sys2Proof.Machine

namespace Sys2Proof.Config

/-- The body of a section of a state image, by KIND (11, R476: not stated). -/
opaque sectionBody : (kind : Nat) → Machine.SavedBerth → Bytes

/-- What the sections of a state image spell, if they can be read (11, R476: not stated). -/
opaque readSections : Bytes → Option Machine.SavedBerth

end Sys2Proof.Config

namespace Sys2Proof.Machine

/-! ## Saving -/

/-- The jobs of a berth by number. -/
def savedJobs (s : State) (b : Fin 512) : Tbl Job := (jobsOf s b).map (fun e => (e.1, { e.2 with queue := e.2.queue % 8, channel := none }))

/-- A table belongs to these jobs. -/
def ofJobs {α : Type} (js : List Nat) (t : Tbl α) : Tbl α := t.filter (fun e => js.contains e.1)

/-- A task as saved (09, R388): the remaining delay that the freeze left it. -/
def savedTask (x : Task) : Task :=
  { x with expiry := none, readyOrder := 0, readyAt := 0, lastCore := 0xFF }

/-- Image slot of a granule, if it is an image granule. -/
def slotOfGranule (x : Berth) (g : Nat) : Option Nat := ((x.slots.find? (fun e => e.2.granules.contains g)).map (·.1))

/-- Granules a berth owns. -/
def ownedGranules (s : State) (b : Fin 512) : List Nat := (s.dev.own.filter (fun e => e.2.owner == .berth b)).map (·.1)

/-- The tables of a berth with their entries from the shadow (06, R286). -/
def savedTables (s : State) (b : Fin 512) : List (Nat × CTable × List (Nat × CEntry)) :=
  (s.canopy.tables.filter (fun e => decide (e.2.berth = b))).map (fun e => (e.1, e.2, shadowPlaces s e.2))

/-- All that a state image holds of a berth. -/
def saveBerth (s : State) (b : Fin 512) : SavedBerth :=
  let x := getB s b.val
  let js := (jobsOf s b).map (·.1)
  { mode := x.migrationMode.toNat, queueCount := x.queueCount.toNat, shareWeight := x.shareWeight.toNat,
    granules := (ownedGranules s b).map (fun g => (g, slotOfGranule x g)),
    queues := (berthQueues s b.val).map (fun q => (q % 8, { getQ s q with vector := (getQ s q).vector - x.vectorBase })),
    counters := (berthQueues s b.val).map (fun q => (q % 8, tblGet {} s.counters (blockKey (.queue (Fin.ofNat 4097 q))))),
    jobs := savedJobs s b, runs := ofJobs js s.runs, scans := (s.scans.map (·.2)).filter (fun t => js.contains t.job),
    tasks := (s.pilot.tasks.filter (fun e => decide (e.2.berth = some b))).map (fun e => (e.1, savedTask e.2)),
    flows := s.pilot.flows.filter (fun e => js.contains e.2),
    tables := savedTables s b,
    contexts := (s.eng.contexts.filter (fun e => decide (e.1 / 64 = b.val))).map (fun e => (e.1 % 64, e.2)),
    keys := (s.eng.keys.filter (fun e => decide (e.1 / 256 = b.val))).map (fun e => (e.1 % 256, e.2)),
    digestJobs := ofJobs js s.eng.digestJobs, frameJobs := ofJobs js s.eng.frameJobs,
    measurements := x.measurements, measurementCount := x.measurementCount, digest := x.digest, slots := x.slots }

/-- How many things a section holds: its COUNT. -/
def sectionCount (v : SavedBerth) : Nat → Nat
  | 1 => v.granules.length
  | 2 => v.queues.length
  | 3 => v.jobs.length
  | 4 => v.tasks.length
  | 5 => (v.runs.map (fun r => r.2.insts.length)).sum
  | 6 => v.tables.length
  | 7 => v.contexts.length + v.keys.length
  | 8 => v.measurements.length
  | _ => v.slots.length

/-- The sections' bodies padded to 64, with their entries (R475). -/
def layOut (v : SavedBerth) : List Nat → Nat → Bytes × Bytes
  | [], _ => ([], [])
  | k :: t, o =>
    let body := Config.sectionBody k v
    let padded := padTo (roundUp body.length 64) body
    let rest := layOut v t (o + padded.length)
    (natLe 2 k ++ [0, 0] ++ natLe 4 (sectionCount v k) ++ natLe 8 o ++ rest.1, padded ++ rest.2)

/-- Copies of a table. -/
def copyCount (t : CTable) : Nat := 1 + b2n t.mirror.isSome

/-- Entries held by the berth's tables, both copies, and pattern states held. -/
def canopyNeed (v : SavedBerth) : Nat := (v.tables.map (fun t => t.2.1.capacity * copyCount t.2.1)).sum
def statesNeed (v : SavedBerth) : Nat := (v.tables.map (fun t => t.2.1.states)).sum

/-- The highest vector offset named, plus 1. -/
def vectorSpan (v : SavedBerth) : Nat := (v.queues.map (fun q => q.2.vector.toNat + 1)).foldl max 0

/-- Bytes of the header and the section entries before the first section. -/
def bodyStart : Nat := roundUp (64 + 16 * 9) 64

/-- The image with a given CHECK (R475). -/
def imageWith (v : SavedBerth) (check : Nat) : Bytes :=
  let l := layOut v [1, 2, 3, 4, 5, 6, 7, 8, 9] bodyStart
  let head := [0x12, 0x01] ++ natLe 2 1 ++ [0, 0, 0, 0] ++ natLe 8 (bodyStart + l.2.length) ++ natLe 4 check ++ natLe 2 9 ++
    natLe 1 v.mode ++ natLe 1 v.queueCount ++ natLe 4 v.granules.length ++ natLe 4 (canopyNeed v) ++
    natLe 4 (statesNeed v) ++ natLe 2 v.tasks.length ++ natLe 1 v.contexts.length ++ [0] ++ natLe 2 v.keys.length ++
    natLe 2 (vectorSpan v) ++ natLe 2 v.shareWeight ++ List.replicate 18 0
  padTo bodyStart (head ++ l.1) ++ l.2

/-- The state image of a berth. -/
def stateImage (s : State) (b : Fin 512) : Bytes :=
  let v := saveBerth s b
  imageWith v (crc32c (imageWith v 0)).toNat

/-! ## The checks of a restore (R479) -/

/-- CHECK as it is computed: its own four bytes taken as zero. -/
def stateCheck (b : Bytes) : Nat := (crc32c (b.take 16 ++ [0, 0, 0, 0] ++ b.drop 20)).toNat

/-- The first field at fault of step 1. -/
def imageFault (b : Bytes) (length : Nat) : Option Nat :=
  firstBad
    [(decide (field b 0 1 = 0x12), 0x00), (decide (field b 1 1 = 1), 0x01), (decide (field b 8 8 = length), 0x08),
     (decide (field b 0x10 4 = stateCheck b), 0x10), (decide (field b 2 2 = 1), 0x02),
     (decide (field b 4 4 = 0), 0x04), (decide (1 ≤ field b 0x14 2) && decide (field b 0x14 2 ≤ 16), 0x14),
     (decide (field b 0x27 1 = 0), 0x27), (allZero (slice b 0x2E 18), 0x2E)]

/-- The first need of step 2 that the berth does not meet. -/
def matchFault (s : State) (b : Fin 512) (img : Bytes) (v : SavedBerth) : Option Nat :=
  let x := getB s b.val
  firstBad
    [(decide (sortByKey id (granulesIn (extentsOf x)) = sortByKey id (v.granules.map (·.1))), 0x18),
     (decide (field img 0x17 1 = x.queueCount.toNat), 0x17),
     (decide (field img 0x1C 4 ≤ x.canopyEntries.toNat), 0x1C),
     (decide (field img 0x20 4 ≤ x.patternStates.toNat), 0x20),
     (decide (field img 0x24 2 ≤ x.taskQuota.toNat), 0x24),
     (decide (field img 0x26 1 ≤ x.digestContexts.toNat), 0x26),
     (decide (field img 0x28 2 ≤ x.keySlots.toNat), 0x28),
     (decide (field img 0x2A 2 ≤ x.vectorCount.toNat), 0x2A)]

/-! ## Restoring -/

/-- New numbers for old ones; job `j` becomes `base + j`, so that numbers of jobs that have ended keep their order too. -/
structure Renumber where
  base : Nat
  jobs : Tbl Nat
  tags : Tbl Nat
  tasks : Tbl Nat
  flows : Tbl Nat
  deriving DecidableEq, Repr

def Renumber.job (m : Renumber) (j : Nat) : Nat := tblGet 0 m.jobs j
def Renumber.tag (m : Renumber) (t : Nat) : Nat := tblGet 0xFFFF m.tags t

/-- Jobs that exist, under their new numbers. -/
def Renumber.known (m : Renumber) (l : List Nat) : List Nat := l.filterMap (tblFind m.jobs)

/-- A table under its new job numbers. -/
def movedTable (m : Renumber) (b : Fin 512) (t : CTable) : CTable :=
  { t with berth := b, users := m.known t.users, dropJob := t.dropJob.bind (tblFind m.jobs),
           updates := t.updates.filterMap (fun u => (tblFind m.jobs u.1).map (fun j => (j, u.2.1, u.2.2))) }

/-- Place the tables one after another under R245; none where one finds no room. -/
def placeTables (b : Fin 512) : List (Nat × CTable × List (Nat × CEntry)) → Tbl Nat → State → Option (Tbl Nat × State)
  | [], m, s => some (m, s)
  | (old, t, es) :: rest, m, s =>
    let tag := freeTag s
    let ps := es.map (fun e => (e.1, { e.2 with tag := tag }))
    match installTable ⟨{ t with berth := b, state := if t.state = .unavailable then .ready else t.state }, tag, ps, ps.length⟩ s with
    | none => none
    | some s1 => placeTables b rest (tblSet m old tag) s1

/-- Places of an instance in a run, with the grove that R151 gives it now. -/
def movedInst (s : State) (m : Renumber) (r : Run) (key : Nat) (x : Inst) : Inst :=
  { x with task := tblGet 0 m.tasks x.task, grove := groveFor s (instCount r (key / 32)) (key % 32), searches := [], texts := [] }

/-- A run under its new numbers. -/
def movedRun (s : State) (m : Renumber) (r : Run) : Run :=
  { r with tags := r.tags.map m.tag, flow := r.flow.bind (tblFind m.flows),
           insts := r.insts.map (fun (e : Nat × Inst) => (e.1, movedInst s m r e.1 e.2)) }

/-- A task re-created (09, R388): age 0, the remaining delay, a grove chosen under R151. -/
def movedTask (s : State) (m : Renumber) (runs : Tbl Run) (b : Fin 512) (x : Task) : Task :=
  let grove := match x.job.bind (tblFind runs) with
    | some r => groveFor s (instCount r x.stage) x.inst
    | none => x.grove.val
  { x with berth := some b, grove := Fin.ofNat 16 grove, job := x.job.bind (tblFind m.jobs),
           flow := x.flow.bind (fun f => (tblFind m.flows f.val).map (Fin.ofNat 4096)),
           readyAt := s.sys.time, readyOrder := s.pilot.order }

/-- Numbers above every job that an image names. -/
def jobSpan (v : SavedBerth) : Nat :=
  ((v.jobs.map (·.1) ++ v.queues.flatMap (fun q => q.2.bad.map (·.1))).foldl max 0) + 1

/-- Numbers given to `l` from a list of free ones. -/
def renumber (l free : List Nat) : Tbl Nat := (l.zip free).foldl (fun t e => tblSet t e.1 e.2) []

/-- The `n` lowest free flows. -/
def freeFlows (s : State) (n : Nat) : List Nat :=
  (((List.range 3840).map (· + 256)).filter (fun f => (tblFind s.pilot.flows f).isNone)).take n

/-- The Pilot's part of a berth comes back. -/
def restoreTasks (b : Fin 512) (m : Renumber) (v : SavedBerth) (s : State) : State :=
  onPilot (fun p => { p with
    tasks := v.tasks.foldl (fun t e => tblSet t (tblGet 0 m.tasks e.1) (movedTask s m v.runs b e.2)) p.tasks,
    flows := v.flows.foldl (fun t e => match tblFind m.flows e.1 with
      | some f => tblSet t f (m.job e.2)
      | none => t) p.flows,
    order := p.order + 1 }) s

/-- Engines' part: contexts, keys, jobs under way. -/
def restoreEngines (b : Fin 512) (m : Renumber) (v : SavedBerth) (s : State) : State :=
  onEng (fun e => { e with
    contexts := v.contexts.foldl (fun t c =>
      tblSet t (contextKey b.val c.1) { c.2 with job := c.2.job.bind (tblFind m.jobs) }) e.contexts,
    keys := v.keys.foldl (fun t k => tblSet t (slotKey b.val k.1) k.2) e.keys,
    digestJobs := v.digestJobs.foldl (fun t d => tblSet t (m.job d.1) d.2) e.digestJobs,
    frameJobs := v.frameJobs.foldl (fun t d => tblSet t (m.job d.1) d.2) e.frameJobs }) s

/-- Queues, jobs, runs, scan tasks. -/
def restoreWork (b : Fin 512) (m : Renumber) (v : SavedBerth) (s : State) : State :=
  let x := getB s b.val
  let queues := v.queues.foldl (fun t q => tblSet t (8 * b.val + q.1)
    { q.2 with vector := q.2.vector + x.vectorBase, reading := false, readAgain := false,
               fence := q.2.fence.map (m.base + ·), bad := q.2.bad.map (fun e => (m.base + e.1, e.2)),
               lastSignal := if q.2.signalWaits then some s.sys.time else none }) s.queues
  let counters := v.counters.foldl (fun t c => tblSet t (blockKey (.queue (Fin.ofNat 4097 (8 * b.val + c.1)))) c.2) s.counters
  let jobs := v.jobs.foldl (fun t j => tblSet t (m.job j.1)
    { j.2 with queue := 8 * b.val + j.2.queue % 8, berth := some b }) s.jobs
  let runs := v.runs.foldl (fun t r => tblSet t (m.job r.1) (movedRun s m r.2)) s.runs
  let scans := ((List.range v.scans.length).zip v.scans).foldl (fun t e =>
    tblSet t (s.nextScan + e.1) { e.2 with job := m.job e.2.job, active := false }) s.scans
  { s with queues := queues, counters := counters, jobs := jobs, runs := runs, scans := scans,
           nextJob := s.nextJob + jobSpan v, nextScan := s.nextScan + v.scans.length }

/-- The berth itself: measurement log, slots, image granules, FROZEN. -/
def restoreRecord (b : Fin 512) (m : Renumber) (v : SavedBerth) (s : State) : State :=
  let s1 := v.granules.foldl (fun s g => ownGranule g.1 (.berth b) g.2.isSome s) s
  onB b.val (fun x => { x with
    state := .frozen, measurements := v.measurements, measurementCount := v.measurementCount, digest := v.digest,
    slots := v.slots.map (fun (e : Nat × Slot) =>
      (e.1, { e.2 with
        users := m.known e.2.users, unloadJob := e.2.unloadJob.bind (tblFind m.jobs),
        loadJob := e.2.loadJob.bind (tblFind m.jobs), loadedAt := s1.dev.now })) }) s1

/-- A berth comes back from what was saved; none where its tables find no room. -/
def restoreBerth (b : Fin 512) (v : SavedBerth) (s : State) : Option State :=
  match placeTables b v.tables [] s with
  | none => none
  | some (tags, s1) =>
    let m : Renumber :=
      { base := s.nextJob, jobs := renumber (v.jobs.map (·.1)) (v.jobs.map (fun e => s.nextJob + e.1)), tags := tags,
        tasks := renumber (v.tasks.map (·.1)) (freeTasks s v.tasks.length),
        flows := renumber (v.flows.map (·.1)) (freeFlows s v.flows.length) }
    let s2 := tags.foldl (fun s e => onTable e.2 (movedTable m b) s) s1
    some (restoreRecord b m v (restoreEngines b m v (restoreTasks b m v (restoreWork b m v s2))))

end Sys2Proof.Machine
end

