-- ==== Sys2Proof/Machine/Migration.lean ====
section
/-! DEFINITION. The migration jobs (11_berths.md, R471 to R487): freeze and thaw, saving and restoring of state and
granules, dirty logging. -/

namespace Sys2Proof.Machine

/-! ## What the jobs share (R486, R487) -/

/-- MIGRATE(BODY). -/
def migrateBody : Nat := 0x0717

/-- The bytes of an entry from an offset to its end are zero. -/
def zeroFrom (x : Job) (o : Nat) : Bool × Nat := (allZero (slice x.entry o (0x40 - o)), o)
def zeroField (x : Job) (o n : Nat) : Bool × Nat := (allZero (slice x.entry o n), o)

/-- Checks every migration job shares. -/
def migHead (x : Job) : List (Bool × Nat) := [(decide (lenGranules x = 1), 1), (decide (migBerth x < 512), 0x18)]

/-- Jobs naming one berth run one at a time, in order of acceptance (R487). -/
def migWaits (s : State) (j : Nat) (x : Job) : Bool :=
  s.jobs.any (fun e => decide (e.1 < j) && isMigration e.2 && decide (migBerth e.2 = migBerth x) && e.2.result.isNone)

/-- Index 0x4060: the migration job that started most recently. -/
def migStarted (x : Job) (total : Nat) (s : State) : State :=
  onDict (fun d => { d with migBerth := BitVec.ofNat 16 (migBerth x), migOpcode := BitVec.ofNat 8 x.opcode, migDone := 0,
                            migTotal := BitVec.ofNat 32 total }) s

/-- Units done. -/
def migUnits (n : Nat) (s : State) : State := onDict (fun d => { d with migDone := d.migDone + BitVec.ofNat 32 n }) s

/-- Run a meaning on a migration job of an opcode whose turn it is and whose body passes; the berth exists. -/
def withMigration (op j : Nat) (checks : Job → List (Bool × Nat)) (s : State) (f : Job → Fin 512 → State) : State :=
  withJob op j s (fun x =>
    if migWaits s j x then s
    else match firstBad (migHead x ++ checks x) with
    | some o => endFailed j migrateBody o s
    | none => f x (Fin.ofNat 512 (migBerth x)))

/-! ## BERTH_FREEZE (R471 to R473) -/

/-- Checks of a BERTH_FREEZE entry. -/
def freezeChecks (x : Job) : List (Bool × Nat) :=
  [zeroField x 0x1A 2, (decide (bodyField x 0x1C 4 ≤ 60000), 0x1C), zeroFrom x 0x20]

/-- TIMEOUT_MS in µs. -/
def freezeTimeoutUs (x : Job) : Nat := (if bodyField x 0x1C 4 = 0 then 1000 else bodyField x 0x1C 4) * 1000

/-- The berth stops taking, and its tasks are told to stop. -/
def freezeBerth (j : Nat) (x : Job) (b : Fin 512) (s : State) : State :=
  let now := s.sys.time.toNat
  let s1 := (berthQueues s b.val).foldl (fun s q => discardPushed q s) (migStarted x 0 (beginJob j s))
  let s2 := onB b.val (fun y => { y with
    state := .freezing, freeze := some ⟨j, now + freezeTimeoutUs x, now⟩ }) s1
  (jobsOf s2 b).foldl (fun s e => stopTasks e.1 s) s2

/-- BERTH_FREEZE. -/
def execBerthFreeze (job : Nat) (s : State) : Host.Outcome State Fault Refusal :=
  .next (withMigration 0x40 job freezeChecks s (fun x b =>
    if x.begun then s
    else if (getB s b.val).state ≠ .active then migrateState job (getB s b.val).state s
    else freezeBerth job x b s))

/-- No bank has a search or a text of a job (06, R286). -/
def banksQuiet (s : State) (j : Nat) : Bool :=
  s.canopy.banks.all (fun e => e.2.waiting.all (fun x => decide (x.job ≠ j)) &&
    e.2.flying.all (fun x => decide (x.search.job ≠ j)) && e.2.texts.all (fun x => decide (x.job ≠ j)))

/-- No crane channel has a transfer of a berth in hand (R471). -/
def cranesQuiet (s : State) (b : Fin 512) : Bool :=
  s.eng.channels.all (fun e => !((e.2.state == .running || e.2.state == .stopping) && !e.2.fetch &&
    decide ((e.2.desc.bind Descriptor.tag) = some b)))

/-- Every agent of the berth is quiet: no crane transfer of its is in flight, no task runs, no batch is in the mesh, no quay works on a stripe in hand (03,
R137), no search is in flight (06, R286), no host write of its waits, no violation awaits its handling. -/
def quiet (s : State) (b : Fin 512) : Bool :=
  let key := hostKey s (some b)
  s.pilot.tasks.all (fun e => !(decide (e.2.berth = some b) && (e.2.state == .running || e.2.state == .prefetched))) &&
  (jobsOf s b).all (fun e => banksQuiet s e.1 && ((getR s e.1).map (fun r => r.mesh.isEmpty)).getD true &&
    s.scans.all (fun t => !(decide (t.2.job = e.1) && handBusy s t.2))) &&
  cranesQuiet s b && (getB s b.val).dirty.held.isEmpty && s.pcie.held.all (fun w => decide (w.key ≠ key)) &&
  s.violations.all (fun v => decide (v.berth ≠ b))

/-- A batch in hand goes back to the head of its queue, its searches' outcomes discarded (06, R286; 05, R234). -/
def handBack (x : Inst) : Inst :=
  match x.work with
  | .inHand a _ => { x with work := .idle, queue := a :: x.queue, searches := [], texts := [] }
  | _ => x

/-- A job stands still: its stream's channel returned (13, R533); of a RUN job, batches in hand back in their queues, scan
tasks at their watermark, its time kept. -/
def standStill (j accepted : Nat) (s : State) : State :=
  let s1 := onR j (fun r => { r with insts := r.insts.map (fun (e : Nat × Inst) => (e.1, handBack e.2)) })
    (onJ j (fun x => { x with channel := none }) s)
  let s3 : State := { s1 with scans := s1.scans.map (fun (e : Nat × ScanTask) =>
    if e.2.job = j then (e.1, { resetScan s1 e.2 with active := false }) else e) }
  match getR s3 j with
  | some r =>
    if r.placed then onJ j (fun x => { x with timeUsed := x.timeUsed + (accepted - r.started.toNat) }) s3 else s3
  | none => s3

/-- The delays of a berth's tasks stop, each with the ticks that remain (09, R388). -/
def stopDelays (b : Fin 512) (s : State) : State :=
  let left (e : BitVec 32) : BitVec 32 := if wrapLater 32 e.toNat s.pilot.tick.toNat then e - s.pilot.tick else 0
  onPilot (fun p => { p with tasks := p.tasks.map (fun (e : Nat × Task) =>
    if e.2.berth = some b then (e.1, { e.2 with frozenDelay := e.2.expiry.map left, expiry := none }) else e) }) s

/-- The delays of a task go on from where they stopped. -/
def goOn (tick : BitVec 32) (x : Task) : Task :=
  match x.frozenDelay with
  | some d => { x with expiry := some (tick + d), frozenDelay := none }
  | none => x

/-- FREEZE_COMPLETE. -/
def execFreezeComplete (b : Fin 512) (s : State) : Host.Outcome State Fault Refusal :=
  .next (match (getB s b.val).state, (getB s b.val).freeze with
    | .freezing, some f =>
      if quiet s b then
        let s1 := (jobsOf s b).foldl (fun s e => standStill e.1 f.accepted s) s
        endDone f.job (onB b.val (fun x => { x with state := .frozen, freeze := none }) (stopDelays b s1))
      else s
    | _, _ => s)

/-- Tasks of the berth that still run. -/
def tasksRunning (s : State) (b : Fin 512) : Nat :=
  (s.pilot.tasks.filter (fun e => decide (e.2.berth = some b) && e.2.state == .running)).length

/-- The wait that the loader gives a task when its berth goes on: a task released for STOP, with ANY and MASK 0, waits
again as it did when it was made. -/
def waitAgain (r : Option Run) (x : Task) : Task :=
  let kind := ((r.bind (fun r => r.image.stages[x.stage]?)).map (fun g => g.kind)).getD 0
  let w := Config.initialWait kind
  let y : Task := { x with flags := setBit x.flags 30 false }
  if x.any ∧ x.mask = 0 then { y with mask := w.1, any := w.2 } else y

/-- The tasks of a berth go on. -/
def resumeTasks (b : Fin 512) (s : State) : State :=
  (s.pilot.tasks.filter (fun e => decide (e.2.berth = some b) && e.2.state != .free)).foldl (fun s e =>
    wake e.1 (onT e.1 (fun x => goOn s.pilot.tick (waitAgain (e.2.job.bind (getR s)) x)) s)) s

/-- FREEZE_TIMEOUT (R472). -/
def execFreezeTimeout (b : Fin 512) (s : State) : Host.Outcome State Fault Refusal :=
  .next (match (getB s b.val).state, (getB s b.val).freeze with
    | .freezing, some f =>
      if f.deadline ≤ s.sys.time.toNat then
        let s1 := onB b.val (fun x => { x with state := .active, freeze := none }) s
        endFailed f.job 0x0712 (tasksRunning s b) (resumeBerth b.val (resumeTasks b s1))
      else s
    | _, _ => s)

/-! ## BERTH_THAW (R474) -/

/-- The time of each placed run counts again from now. -/
def restartTimes (b : Fin 512) (s : State) : State :=
  (jobsOf s b).foldl (fun s e => onR e.1 (fun r => { r with started := s.sys.time }) s) s

/-- The streams of the jobs that have begun take channels again (13, R533). -/
def retakeStreams (b : Fin 512) (s : State) : State :=
  (jobsOf s b).foldl (fun s e =>
    if e.2.begun then onJ e.1 (fun x => { x with channel := takeStream s x }) s else s) s

/-- Each ACTIVE queue reads the host half of its index block, as at RESTART. -/
def thawQueues (b : Nat) (s : State) : State :=
  (berthQueues s b).foldl (fun s q =>
    resumeQueue q (onQ q (fun k => { k with unread := k.unread || k.state == .active }) s)) s

/-- BERTH_THAW. -/
def execBerthThaw (job : Nat) (s : State) : Host.Outcome State Fault Refusal :=
  .next (withMigration 0x43 job (fun x => [zeroFrom x 0x1A]) s (fun x b =>
    if (getB s b.val).state ≠ .frozen then migrateState job (getB s b.val).state s
    else if !(serving s) then endFailed job 0x0711 s.sys.mode.code s
    else
      let s1 := onB b.val (fun y => { y with state := .active }) (migStarted x 0 (beginJob job s))
      endDone job (thawQueues b.val (resumeTasks b (retakeStreams b (restartTimes b s1))))))

/-! ## BERTH_SAVE and BERTH_RESTORE (R478, R479) -/

def savePart (x : Job) : Nat := bodyField x 0x1A 1
def listCount (x : Job) : Nat := bodyField x 0x1C 4

/-- Checks of a BERTH_SAVE or BERTH_RESTORE entry. -/
def saveChecks (x : Job) : List (Bool × Nat) :=
  let list := decide (savePart x = 1)
  [(decide (savePart x ≤ 1), 0x1A), zeroField x 0x1B 1,
   (if list then decide (1 ≤ listCount x) && decide (listCount x ≤ 524288) else decide (listCount x = 0), 0x1C),
   (decide (bodyField x 0x20 8 % 64 = 0), 0x20),
   (!list || decide (bodyField x 0x28 8 = granuleBytes * listCount x), 0x28),
   (if list then decide (bodyField x 0x30 8 % 64 = 0) else decide (bodyField x 0x30 8 = 0), 0x30), zeroFrom x 0x38]

/-- The berth is idle: every queue DISABLED, no job. -/
def idleBerth (s : State) (b : Fin 512) : Bool :=
  (berthQueues s b.val).all (fun q => (getQ s q).state == .disabled) && (jobsOf s b).isEmpty

/-- Run a part of BERTH_SAVE or BERTH_RESTORE; a body that names neither part is met by both. -/
def withPart (op part j : Nat) (s : State) (f : Job → Fin 512 → State) : State :=
  withMigration op j saveChecks s (fun x b => if savePart x = part then f x b else s)

/-- BERTH_SAVE PART 0. -/
def execBerthSaveState (job : Nat) (s : State) : Host.Outcome State Fault Refusal :=
  .next (withPart 0x41 0 job s (fun x b =>
    if (getB s b.val).state ≠ .frozen then migrateState job (getB s b.val).state s
    else
      let img := stateImage s b
      let s1 := migStarted x img.length (beginJob job s)
      if bodyField x 0x28 8 < img.length then endFailed job 0x0713 img.length s1
      else endDone job (migUnits img.length (advanceJob job 0 img.length (hostWrite none (bodyField x 0x20 8) img s1)))))

/-- The granule numbers of a list. -/
def readList (x : Job) (s : State) : Except Nat (List Nat) × State :=
  match hostRead none (bodyField x 0x30 8) (4 * listCount x) s with
  | (.error a, s1) => (.error a, s1)
  | (.ok b, s1) => (.ok (valuesOf 4 (listCount x) b), s1)

/-- One granule to the host. -/
def saveGranule (j : Nat) (x : Job) (g i : Nat) (s : State) : Option MoveStop × State :=
  let host := bodyField x 0x20 8 + granuleBytes * i
  let data : Except MoveStop Bytes × State :=
    if (ownOf s g).init then readSide none (.device (granuleBytes * g)) granuleBytes s
    else (.ok (List.replicate granuleBytes 0), s)
  match data with
  | (.error e, s1) => (some e, s1)
  | (.ok d, s1) => (none, migUnits 1 (advanceJob j 1 granuleBytes (hostWrite none host d s1)))

/-- One granule from the host; the write is one made for the berth (R480). -/
def restoreGranule (j : Nat) (x : Job) (b : Fin 512) (g i : Nat) (s : State) : Option MoveStop × State :=
  match readSide none (.host (bodyField x 0x20 8 + granuleBytes * i)) granuleBytes s with
  | (.error e, s1) => (some e, s1)
  | (.ok d, s1) =>
    match writeSide none (.device (granuleBytes * g)) d s1 with
    | (some e, s2) => (some e, s2)
    | (none, s2) => (none, migUnits 1 (advanceJob j 1 granuleBytes (markDirty (some b) [g] s2)))

/-- The granules of a list in order, up to the first that fails. -/
def eachGranule (j : Nat) (b : Fin 512) (move : Nat → Nat → State → Option MoveStop × State) : List Nat → Nat → State → State
  | [], _, s => endDone j s
  | g :: t, i, s =>
    if (ownOf s g).owner ≠ .berth b then endFailed j 0x0716 i s
    else match move g i s with
    | (some e, s1) => moveFailed j none e s1
    | (none, s1) => eachGranule j b move t (i + 1) s1

/-- A granule list job. -/
def granuleJob (j : Nat) (x : Job) (b : Fin 512) (move : Nat → Nat → State → Option MoveStop × State) (s : State) : State :=
  match readList x (migStarted x (listCount x) (beginJob j s)) with
  | (.error a, s1) => hostReadFailed j a s1
  | (.ok l, s1) => eachGranule j b move l 0 s1

/-- BERTH_SAVE PART 1. -/
def execBerthSaveGranules (job : Nat) (h : HostView) (s : State) : Host.Outcome State Fault Refusal :=
  let s0 := hostSync h s
  .next (withPart 0x41 1 job s0 (fun x b =>
    let y := getB s0 b.val
    if y.state = .frozen ∨ (y.state = .active ∧ y.migrationMode = 1 ∧ y.dirty.running) then
      if hostBlocked s0 ∨ x.begun then s0 else granuleJob job x b (fun g i s => saveGranule job x g i s) s0
    else migrateState job y.state s0))

/-- BERTH_RESTORE PART 1. -/
def execBerthRestoreGranules (job : Nat) (h : HostView) (s : State) : Host.Outcome State Fault Refusal :=
  let s0 := hostSync h s
  .next (withPart 0x42 1 job s0 (fun x b =>
    let y := getB s0 b.val
    if y.state = .frozen ∨ (y.state = .active ∧ idleBerth s0 b) then
      if hostBlocked s0 ∨ x.begun then s0 else granuleJob job x b (fun g i s => restoreGranule job x b g i s) s0
    else migrateState job y.state s0))

/-- The berth may take a state part: ACTIVE and idle, no loaded image, no Canopy table, no held key. -/
def mayRestore (s : State) (b : Fin 512) : Bool :=
  (getB s b.val).state == .active && idleBerth s b &&
  (getB s b.val).slots.all (fun e => e.2.state == .empty) &&
  s.canopy.tables.all (fun e => decide (e.2.berth ≠ b)) && s.eng.keys.all (fun e => decide (e.1 / 256 ≠ b.val))

/-- The image has been read. -/
def restoreImage (j : Nat) (x : Job) (b : Fin 512) (img : Bytes) (s : State) : State :=
  match imageFault img (bodyField x 0x28 8) with
  | some o => endFailed j 0x0714 o s
  | none =>
    match Config.readSections img with
    | none => endFailed j 0x0714 0x14 s
    | some v =>
      match matchFault s b img v with
      | some o => endFailed j 0x0715 o s
      | none =>
        match restoreBerth b v s with
        | none => endFailed j 0x0503 0 s
        | some s1 => endDone j (migUnits img.length (advanceJob j 0 img.length s1))

/-- BERTH_RESTORE PART 0. -/
def execBerthRestoreState (job : Nat) (h : HostView) (s : State) : Host.Outcome State Fault Refusal :=
  let s0 := hostSync h s
  .next (withPart 0x42 0 job s0 (fun x b =>
    if !(mayRestore s0 b) then migrateState job (getB s0 b.val).state s0
    else if hostBlocked s0 then s0
    else
      let n := bodyField x 0x28 8
      match hostRead none (bodyField x 0x20 8) n (migStarted x n (beginJob job s0)) with
      | (.error a, s1) => hostReadFailed job a s1
      | (.ok img, s1) => restoreImage job x b img s1))

/-! ## Dirty logging (R480 to R485) -/

def dirtyOp (x : Job) : Nat := bodyField x 0x1A 1

/-- Checks of a DIRTY_LOG_CTRL entry. -/
def dirtyChecks (x : Job) : List (Bool × Nat) :=
  let start := decide (dirtyOp x = 1)
  let order := bodyField x 0x1B 1
  [(decide (1 ≤ dirtyOp x) && decide (dirtyOp x ≤ 4), 0x1A),
   (if start then decide (10 ≤ order) && decide (order ≤ 20) else decide (order = 0), 0x1B), zeroField x 0x1C 4,
   (if start then decide (bodyField x 0x20 8 % 64 = 0) else decide (bodyField x 0x20 8 = 0), 0x20),
   (if start then decide (bodyField x 0x28 8 % 128 = 0) else decide (bodyField x 0x28 8 = 0), 0x28),
   (if dirtyOp x = 4 then decide (bodyField x 0x30 8 % 64 = 0) else decide (bodyField x 0x30 8 = 0), 0x30), zeroFrom x 0x38]

/-- Run one operation of DIRTY_LOG_CTRL: START while logging does not run, any other while it does. -/
def withDirty (op j : Nat) (s : State) (f : Job → Fin 512 → State) : State :=
  withMigration 0x44 j dirtyChecks s (fun x b =>
    let y := getB s b.val
    if dirtyOp x ≠ op then s
    else if y.state = .absent then migrateState j y.state s
    else if y.migrationMode ≠ 1 then endFailed j 0x0711 s.sys.mode.code s
    else if y.dirty.running = decide (op = 1) then migrateState j y.state s
    else f x b)

/-- DIRTY_LOG_CTRL START. -/
def execDirtyLogStart (job : Nat) (s : State) : Host.Outcome State Fault Refusal :=
  .next (withDirty 1 job s (fun x b =>
    endDone job (onB b.val (fun y => { y with dirty :=
      { running := true, ringAddr := bodyField x 0x20 8, ringOrder := bodyField x 0x1B 1,
        indexAddr := bodyField x 0x28 8, held := y.dirty.held } }) (migStarted x 0 (beginJob job s)))))

/-- DIRTY_LOG_CTRL STOP: the bitmap stays, and nothing waits for the ring any longer. -/
def execDirtyLogStop (job : Nat) (s : State) : Host.Outcome State Fault Refusal :=
  .next (withDirty 2 job s (fun x b =>
    endDone job (releaseHeld b.val (onB b.val (fun y => { y with dirty := { y.dirty with running := false } })
      (migStarted x 0 (beginJob job s))))))

/-- CONS is read, and the waiting writes go out as far as there is room (R484). -/
def rereadCons (b : Nat) (s : State) : Except Nat State × State :=
  match hostRead none (getB s b).dirty.indexAddr 4 s with
  | (.error a, s1) => (.error a, s1)
  | (.ok c, s1) =>
    (.ok (releaseHeld b (onB b (fun x => { x with dirty := { x.dirty with cons := BitVec.ofNat 32 (leNat c) } }) s1)), s1)

/-- DIRTY_LOG_CTRL SYNC (R483): it ends once no host write of the berth waits. -/
def execDirtyLogSync (job : Nat) (h : HostView) (s : State) : Host.Outcome State Fault Refusal :=
  let s0 := hostSync h s
  .next (withDirty 3 job s0 (fun x b =>
    if hostBlocked s0 then s0
    else if x.begun then if (getB s0 b.val).dirty.held.isEmpty then endDone job s0 else s0
    else
      match rereadCons b.val (migStarted x 0 (beginJob job s0)) with
      | (.error a, s1) => hostReadFailed job a s1
      | (.ok s1, _) =>
        let s2 := onB b.val (fun y => { y with dirty := { y.dirty with filter := [] } }) s1
        if (getB s2 b.val).dirty.held.isEmpty then endDone job s2 else s2))

/-- The 65,536 bytes of a dirty bitmap (R480). -/
def bitmapBytes (m : Tbl Bool) : Bytes :=
  (List.range 65536).map (fun i =>
    BitVec.ofNat 8 ((List.range 8).map (fun k => b2n (tblGet false m (8 * i + k)) * 2 ^ k)).sum)

/-- DIRTY_LOG_CTRL FETCH_BITMAP (R485): each bit is cleared as it is read. -/
def execFetchBitmap (job : Nat) (s : State) : Host.Outcome State Fault Refusal :=
  .next (withDirty 4 job s (fun x b =>
    let s1 := hostWrite none (bodyField x 0x30 8) (bitmapBytes (getB s b.val).dirty.bitmap) (migStarted x 0 (beginJob job s))
    endDone job (onB b.val (fun y => { y with dirty := { y.dirty with bitmap := [] } }) s1)))

/-- DIRTY_RING_REREAD (R484): only while the ring is full, and writes wait. -/
def execDirtyRingReread (b : Fin 512) (h : HostView) (s : State) : Host.Outcome State Fault Refusal :=
  let s0 := hostSync h s
  .next (
    if hostBlocked s0 ∨ (getB s0 b.val).dirty.held.isEmpty then s0
    else match rereadCons b.val s0 with
    | (.error _, s1) => s1
    | (.ok s1, _) => s1)

end Sys2Proof.Machine
end

