-- ==== Sys2Proof/Machine/Scalar.lean ====
section
/-! DEFINITION. The scalar base of a Vunal core (07_vunal_cores.md, R292 to R294; 08_memory_ordering.md): integer and
floating-point arithmetic, branches, loads and stores, exclusives, FENCE, and what befalls a store after it retires. -/

namespace Sys2Proof.Machine

/-! ## Integer arithmetic -/

/-- A relation between two words of `w` bits (R292, R305). -/
def relHolds (r : Rel) (w a b : Nat) : Bool :=
  match r with
  | .eq => decide (a = b)
  | .ne => decide (a ≠ b)
  | .lt => decide (signed w a < signed w b)
  | .le => decide (signed w a ≤ signed w b)
  | .ltu => decide (a < b)
  | .leu => decide (a ≤ b)
  | .gt => decide (signed w b < signed w a)
  | .ge => decide (signed w b ≤ signed w a)
  | .gtu => decide (b < a)
  | .geu => decide (b ≤ a)

/-- Code of a shift by the width or more, for its free value. -/
def shiftCode : AluOp → Nat
  | .shl => 0
  | .shr => 1
  | _ => 2

/-- A shift by less than the width is the shift; by the width or more, its result is open. -/
def shiftBy (op : AluOp) (w : Nat) (a b : Word) (v : Word) : Word :=
  if b.toNat < w then v else Config.shiftBeyond (shiftCode op + (if w = 32 then 3 else 0)) a b

/-- The 64-bit forms of the integer ALU class (R293). -/
def alu64 (op : AluOp) (a b : Word) : Word :=
  match op with
  | .add => a + b
  | .sub => a - b
  | .and => a &&& b
  | .or => a ||| b
  | .xor => a ^^^ b
  | .shl => shiftBy .shl 64 a b (a <<< b.toNat)
  | .shr => shiftBy .shr 64 a b (a >>> b.toNat)
  | .sar => shiftBy .sar 64 a b (a.sshiftRight b.toNat)
  | .set r => if relHolds r 64 a.toNat b.toNat then 1 else 0

/-- The 32-bit forms: on bits 31:0, the result sign-extended (R292, R293). -/
def alu32 (op : AluOp) (a b : Word) : Word :=
  let x := a.setWidth 32
  let y := b.setWidth 32
  match op with
  | .add => (x + y).signExtend 64
  | .sub => (x - y).signExtend 64
  | .and => (x &&& y).signExtend 64
  | .or => (x ||| y).signExtend 64
  | .xor => (x ^^^ y).signExtend 64
  | .shl => ((shiftBy .shl 32 a b ((x <<< b.toNat).setWidth 64)).setWidth 32).signExtend 64
  | .shr => ((shiftBy .shr 32 a b ((x >>> b.toNat).setWidth 64)).setWidth 32).signExtend 64
  | .sar => ((shiftBy .sar 32 a b ((x.sshiftRight b.toNat).setWidth 64)).setWidth 32).signExtend 64
  | .set r => if relHolds r 32 x.toNat y.toNat then 1 else 0

/-- Result of an integer ALU instruction. -/
def aluResult (op : AluOp) (word : Bool) (a b : Word) : Word := if word then alu32 op a b else alu64 op a b

/-- Value of the second operand. -/
def srcValue (k : Core) : Src → Word
  | .reg n => getG k n
  | .imm v => v

/-- Results of the multiply and divide class (R293). -/
def mulResult (op : MulOp) (a b : Word) : Word :=
  match op with
  | .low => a * b
  | .highSigned => BitVec.ofInt 64 ((a.toInt * b.toInt) / 2 ^ 64)
  | .highUnsigned => BitVec.ofNat 64 (a.toNat * b.toNat / 2 ^ 64)
  | .quotSigned => if b = 0 then BitVec.allOnes 64 else BitVec.ofInt 64 (a.toInt.tdiv b.toInt)
  | .quotUnsigned => if b = 0 then BitVec.allOnes 64 else BitVec.ofNat 64 (a.toNat / b.toNat)
  | .remSigned => if b = 0 then a else BitVec.ofInt 64 (a.toInt.tmod b.toInt)
  | .remUnsigned => if b = 0 then a else BitVec.ofNat 64 (a.toNat % b.toNat)

/-- INTEGER_ALU (R293). -/
def execIntegerAlu (c : Fin 129) (op : AluOp) (word : Bool) (gd gs1 : Fin 32) (src : Src) (s : State) :
    Host.Outcome State Fault Refusal :=
  .next (coreStep c s (fun k => finish c (setG gd (aluResult op word (getG k gs1) (srcValue k src))) s))

/-- MULTIPLY_DIVIDE (R293). -/
def execMultiplyDivide (c : Fin 129) (op : MulOp) (gd gs1 gs2 : Fin 32) (s : State) :
    Host.Outcome State Fault Refusal :=
  .next (coreStep c s (fun k => finish c (setG gd (mulResult op (getG k gs1) (getG k gs2))) s))

/-! ## Branches (R292) -/

/-- Where a jump to an address goes: there, if the address is a multiple of 4. -/
def jumpTo (a : Word) : Word := if a.toNat % 4 = 0 then a else Config.misalignedJump a

/-- A core after a branch or jump. -/
def takeJump (j : Jump) (k : Core) : Core :=
  match j with
  | .cond r a b offset =>
    if relHolds r 64 (getG k a).toNat (getG k b).toNat then
      { k with pc := jumpTo (k.pc + offset.signExtend 64) }
    else next k
  | .link d offset => { setG d (k.pc + 4) k with pc := jumpTo (k.pc + offset.signExtend 64) }
  | .register d a offset => { setG d (k.pc + 4) k with pc := jumpTo (getG k a + offset) }

/-- BRANCH (R292). -/
def execBranch (c : Fin 129) (j : Jump) (s : State) : Host.Outcome State Fault Refusal :=
  .next (coreStep c s (fun _ => onCore c.val (takeJump j) s))

/-! ## Floating point (R294) -/

/-- An f register's value in a format. -/
def fOperand (k : Core) (fmt : FFmt) (n : Fin 32) : Nat := (getF k n.val).toNat % 2 ^ fmtBits fmt

/-- Write an f register with a float result; bits 63:32 of a binary32 result are zero (R294). -/
def setFloat (d : Fin 32) (r : FRes) (k : Core) : Core :=
  setF d.val (BitVec.ofNat 64 r.1) { k with fcsr := flagsInto k.fcsr r.2 }

/-- Write a g register with an integer result and accumulate flags. -/
def setInt (d : Fin 32) (v : Word) (x : FFlags) (k : Core) : Core := setG d v { k with fcsr := flagsInto k.fcsr x }

/-- An integer of 32 or 64 bits as it stands in a g register. -/
def widenInt (isSigned wide : Bool) (n : Nat) : Word :=
  if wide then BitVec.ofNat 64 n
  else if isSigned then (BitVec.ofNat 32 n).signExtend 64
  else (BitVec.ofNat 32 n).setWidth 64

/-- Arithmetic of two float operands. -/
def farith (op : FArith) (fmt : FFmt) (r : Round) (a b : Nat) : FRes :=
  match op with
  | .add => fadd fmt r 0 a b false
  | .sub => fadd fmt r 1 a b true
  | .mul => fmul fmt r a b
  | .div => fdiv fmt r a b

/-- Bits of an integer operand. -/
def intWidth (wide : Bool) : Nat := if wide then 64 else 32

/-- A core's registers after a floating-point instruction. -/
def fpResult (i : FpInstr) (k : Core) : Core :=
  let r := fcsrRound k.fcsr
  match i with
  | .arith op fmt d a b => setFloat d (farith op fmt r (fOperand k fmt a) (fOperand k fmt b)) k
  | .fma fmt d a b c => setFloat d (ffma fmt r (fOperand k fmt a) (fOperand k fmt b) (fOperand k fmt c)) k
  | .sqrt fmt d a => setFloat d (fsqrt fmt r (fOperand k fmt a)) k
  | .compare rel quiet fmt gd a b =>
    let x := fcompare fmt rel quiet (fOperand k fmt a) (fOperand k fmt b)
    setInt gd (if x.1 then 1 else 0) x.2 k
  | .convert src dst d a => setFloat d (fconvert src dst r (fOperand k src a)) k
  | .toInt fmt isSigned wide gd a =>
    let x := ftoInt fmt r isSigned (intWidth wide) false (fOperand k fmt a)
    setInt gd (widenInt isSigned wide x.1) x.2 k
  | .ofInt fmt isSigned wide d gs =>
    setFloat d (fofInt fmt r isSigned (intWidth wide) (getG k gs).toNat) k
  | .moveToF fmt d gs => setF d.val (BitVec.ofNat 64 ((getG k gs).toNat % 2 ^ fmtBits fmt)) k
  | .moveToG fmt gd a =>
    match fmt with
    | .b64 => setG gd (getF k a.val) k
    | .b32 => setG gd (Config.moveHigh ((getF k a.val).setWidth 32) ++ (getF k a.val).setWidth 32) k

/-- FLOATING_POINT (R294). -/
def execFloatingPoint (c : Fin 129) (i : FpInstr) (s : State) : Host.Outcome State Fault Refusal :=
  .next (coreStep c s (fun _ => finish c (fpResult i) s))

/-! ## Loads and stores (R292; 08, R339, R340) -/

/-- Bytes of an access. -/
def sizeBytes : MemSize → Nat
  | .b1 => 1
  | .b2 => 2
  | .b4 => 4
  | .b8 => 8

/-- Address of a scalar access. -/
def scalarAddr (k : Core) (base : Fin 32) (offset : BitVec 64) : Nat := (getG k base + offset).toNat

/-- A loaded value as it stands in a register: sign- or zero-extended. -/
def extendLoad (isSigned : Bool) (d : Bytes) : Word :=
  if isSigned then BitVec.ofInt 64 (signed (8 * d.length) (leNat d)) else BitVec.ofNat 64 (leNat d)

/-- Write a register with a loaded value; an f register takes it zero-extended (R294). -/
def setLoaded (d : Reg) (isSigned : Bool) (data : Bytes) (k : Core) : Core :=
  match d with
  | .g n => setG n (extendLoad isSigned data) k
  | .f n => setF n.val (BitVec.ofNat 64 (leNat data)) k

/-- A register's value to be stored. -/
def storedReg (k : Core) : Reg → Word
  | .g n => getG k n
  | .f n => getF k n.val

/-- SCALAR_LOAD (08, R340). -/
def execScalarLoad (c : Fin 129) (d : Reg) (size : MemSize) (isSigned : Bool) (base : Fin 32) (offset : BitVec 64)
    (seen : Nat) (s : State) : Host.Outcome State Fault Refusal :=
  .next (coreStep c s (fun k =>
    loadThen c (scalarAddr k base offset) (sizeBytes size) seen false s
      (fun data s1 => finish c (setLoaded d isSigned data) s1)))

/-- SCALAR_STORE (08, R339). -/
def execScalarStore (c : Fin 129) (r : Reg) (size : MemSize) (base : Fin 32) (offset : BitVec 64) (s : State) :
    Host.Outcome State Fault Refusal :=
  .next (coreStep c s (fun k =>
    storeThen c (scalarAddr k base offset) (natLe (sizeBytes size) (storedReg k r).toNat) false s (finish c id)))

/-- STORE_VISIBLE (08, R339). -/
def execStoreVisible (c : Fin 129) (s : State) : Host.Outcome State Fault Refusal := .next (storeLeaves c.val s)

/-- The mesh marks a target failed (08, R350). -/
def markTarget (a : Nat) (s : State) : State :=
  match windowOf s a with
  | .registers => onDev (fun d => { d with failedPages := (a / 0x1000) :: d.failedPages }) s
  | .none => s
  | _ => onDev (fun d => { d with failed := setBit d.failed (locate s a).1 true }) s

/-- ACCESS_TIMEOUT (08, R350, R351): a load raises BUS_ERROR; the oldest store leaves the buffer in error. -/
def execAccessTimeout (c : Fin 129) (load : Option (BitVec 64)) (s : State) : Host.Outcome State Fault Refusal :=
  .next (match load with
    | some a => coreStep c (markTarget a.toNat s) (fun _ => raise c 4 0 a (markTarget a.toNat s))
    | none =>
      match (getCore s c.val).buffer with
      | [] => s
      | b :: _ => storeLeaves c.val (markTarget b.addr s))

/-! ## Exclusives and FENCE -/

/-- Bytes of an exclusive access (R344). -/
def exclusiveBytes (wide : Bool) : Nat := if wide then 8 else 4

/-- LDX (08, R345). -/
def execLdx (c : Fin 129) (gd gs1 : Fin 32) (wide : Bool) (s : State) : Host.Outcome State Fault Refusal :=
  .next (coreStep c s (fun k =>
    let a := (getG k gs1).toNat
    let n := exclusiveBytes wide
    if a % n ≠ 0 then raise c 2 0 (BitVec.ofNat 64 a) s
    else loadThen c a n s.dev.now true s (fun data s1 =>
      finish c (fun k => setG gd (BitVec.ofNat 64 (leNat data)) { k with reservation := some (a / 64) }) s1)))

/-- The entry that covers an access is a device region. -/
def inDevice (k : Core) (a n : Nat) : Bool := (regionFor k a n).any regionDevice

/-- STX (08, R345): it stores only while the reservation holds, and clears it either way; in a device region it raises
REGION (R334). -/
def execStx (c : Fin 129) (gd gs1 gs2 : Fin 32) (wide : Bool) (s : State) : Host.Outcome State Fault Refusal :=
  .next (coreStep c s (fun k =>
    let a := (getG k gs1).toNat
    let n := exclusiveBytes wide
    let clear (status : Word) : State → State := finish c (fun k => setG gd status { k with reservation := none })
    if a % n ≠ 0 then raise c 2 0 (BitVec.ofNat 64 a) s
    else if k.reservation = some (a / 64) then
      storeThen c a (natLe n (getG k gs2).toNat) true s (clear 0)
    else if inDevice k a n then raise c 3 0 (BitVec.ofNat 64 a) s
    else clear 1 s))

/-- FENCE (08, R348, R352). -/
def execFence (c : Fin 129) (s : State) : Host.Outcome State Fault Refusal :=
  .next (coreStep c s (fun _ =>
    pendingOr c.val (drain c.val s) (fun s1 => finish c (fun k => { k with floor := s1.dev.now }) s1)))

end Sys2Proof.Machine
end

