-- ==== Sys2Proof/Machine/Lanes.lean ====
section
/-! DEFINITION. Lanes of vectors (07_vunal_cores.md, R297 to R311, R323): elements of register groups, the operation on
one lane that long and short vectors share, and the checks of an instruction's form, width and registers. -/

namespace Sys2Proof.Machine

/-! ## One lane -/

/-- Result of one lane: its value, its float flags, and whether a 128-bit sum left its range (R311). -/
structure LaneRes where
  value : Nat
  flags : FFlags := {}
  sov : Bool := false
  deriving DecidableEq, Repr

/-- A true sum lies outside −2¹²⁷ to 2¹²⁷ − 1. -/
def leaves128 (z : Int) : Bool := decide (z < -(2 ^ 127)) || decide (2 ^ 127 - 1 < z)

/-- A sum in `w` bits: wrapped, and the sticky overflow of 128-bit arithmetic. -/
def sumLane (w : Nat) (z : Int) : LaneRes := { value := unsigned w z, sov := decide (w = 128) && leaves128 z }

/-- Float format of a width. -/
def fmtOf (w : Nat) : FFmt := if w = 32 then .b32 else .b64

/-- A float result as a lane. -/
def floatLane (r : FRes) : LaneRes := { value := r.1, flags := r.2 }

/-- The lesser or greater of two floats in the order of R109; `a` when they are equal (R305). -/
def floatPick (w : Nat) (least : Bool) (a b : Nat) : Nat :=
  let x := forderKey (fmtOf w) a
  let y := forderKey (fmtOf w) b
  if least then (if y < x then b else a) else (if x < y then b else a)

/-- One lane of an operation on elements of `w` bits: `a`, `b` and the destination's old value `d` (R305). -/
def laneResult (op : LaneOp) (w a b d : Nat) : LaneRes :=
  match op with
  | .add => sumLane w (signed w a + signed w b)
  | .sub => sumLane w (signed w a - signed w b)
  | .min => { value := if signed w b < signed w a then b else a }
  | .max => { value := if signed w a < signed w b then b else a }
  | .minu => { value := if b < a then b else a }
  | .maxu => { value := if a < b then b else a }
  | .mul => { value := a * b % 2 ^ w }
  | .mulh => { value := unsigned w ((signed w a * signed w b) / 2 ^ w) }
  | .macc => { value := (d + a * b) % 2 ^ w }
  | .and => { value := a &&& b }
  | .or => { value := a ||| b }
  | .xor => { value := a ^^^ b }
  | .sll => { value := a * 2 ^ (b % w) % 2 ^ w }
  | .srl => { value := a / 2 ^ (b % w) }
  | .sra => { value := unsigned w (signed w a / 2 ^ (b % w)) }
  | .fadd => floatLane (fadd (fmtOf w) .nearest 0 a b false)
  | .fsub => floatLane (fadd (fmtOf w) .nearest 1 a b true)
  | .fmul => floatLane (fmul (fmtOf w) .nearest a b)
  | .fdiv => floatLane (fdiv (fmtOf w) .nearest a b)
  | .fma => floatLane (ffma (fmtOf w) .nearest a b d)
  | .fmin => { value := floatPick w true a b }
  | .fmax => { value := floatPick w false a b }
  | .mv => { value := a }

/-! ## Register groups (R297) -/

/-- Registers of a group, and bits of an element, in a core's configuration. -/
def groupRegs (k : Core) : Nat := 2 ^ k.vg.toNat
def elemBits (k : Core) : Nat := widthOf k.ew.toNat

/-- Element `i` of `w` bits of the group that begins at vN. -/
def getElem (k : Core) (n w i : Nat) : Nat := (tblGet 0 k.v (n + i * w / 512)).toNat / 2 ^ (i * w % 512) % 2 ^ w

/-- Replace element `i`. -/
def setElem (n w i v : Nat) (k : Core) : Core :=
  let r := n + i * w / 512
  let o := i * w % 512
  let old := (tblGet 0 k.v r).toNat
  let low := old % 2 ^ o
  let high := old / 2 ^ (o + w)
  { k with v := tblSet k.v r (BitVec.ofNat 512 (low + (v % 2 ^ w) * 2 ^ o + high * 2 ^ (o + w))) }

/-- Replace several elements of a group. -/
def setElems (n w : Nat) (l : List (Nat × Nat)) (k : Core) : Core :=
  l.foldl (fun k e => setElem n w e.1 e.2 k) k

/-- The active elements below VL under a governing predicate (R301, R303). -/
def activeElems (k : Core) (pg : Fin 8) : List Nat := (List.range k.vl.toNat).filter (fun i => (getP k pg).getLsbD i)

/-- The scalar operand of the VX form (R304), as a pattern of `w` bits. -/
def scalarLane (k : Core) (g : Fin 32) (w : Nat) : Nat :=
  if w = 128 then unsigned 128 (getG k g).toInt else (getG k g).toNat % 2 ^ w

/-- The immediate of the VI form. -/
def immLane (n : Fin 32) (w : Nat) : Nat := unsigned w (signed 5 n.val)

/-- Operand b of element `i` in each form (R305). -/
def operandB (k : Core) (a : VArgs) (w i : Nat) : Nat :=
  match a.form with
  | .r => getElem k a.src.val w i
  | .x => scalarLane k a.src w
  | .i => immLane a.src w

/-! ## Checks (R297, R305, R306, R310) -/

/-- A group's first register is a multiple of its size. -/
def aligned (n : Fin 32) (regs : Nat) : Bool := decide (n.val % regs = 0)

/-- Two ranges of registers have one in common. -/
def rangesMeet (a n b m : Nat) : Bool := decide (a < b + m) && decide (b < a + n)

/-- The groups a VR, VX or VI instruction reads are aligned. -/
def sourcesAligned (k : Core) (a : VArgs) : Bool :=
  aligned a.vs1 (groupRegs k) && (a.form != .r || aligned a.src (groupRegs k))

/-- A form is among those of an operation. -/
def formIn (fs : List VForm) (a : VArgs) : Bool := fs.contains a.form

/-- The element width code is between two. -/
def widthIn (lo hi : Nat) (k : Core) : Bool := decide (lo ≤ k.ew.toNat) && decide (k.ew.toNat ≤ hi)

/-- An instruction of the long vectors: pipeline level or above, and legal (R289, R305). -/
def longVector (c : Fin 129) (s : State) (ok : Core → Bool) (body : Core → Core) : State :=
  atLevel 1 c s (fun k => if ok k then finish c body s else illegal c s)

/-- Write lane results to a destination group and accumulate what they report. -/
def writeLanes (n w : Nat) (l : List (Nat × LaneRes)) (k : Core) : Core :=
  let k1 := setElems n w (l.map (fun e => (e.1, e.2.value))) k
  { k1 with fcsr := l.foldl (fun f e => flagsInto f e.2.flags) k1.fcsr, sov := k1.sov || l.any (fun e => e.2.sov) }

/-- The operation of a lane-by-lane instruction on every active element. -/
def lanewise (op : LaneOp) (a : VArgs) (k : Core) : Core :=
  let w := elemBits k
  writeLanes a.vd.val w ((activeElems k a.pg).map (fun i =>
    (i, laneResult op w (getElem k a.vs1.val w i) (operandB k a w i) (getElem k a.vd.val w i)))) k

/-- Legality of a lane-by-lane instruction. -/
def lanewiseOk (fs : List VForm) (lo hi : Nat) (a : VArgs) (k : Core) : Bool :=
  formIn fs a && widthIn lo hi k && aligned a.vd (groupRegs k) && sourcesAligned k a

/-- A lane-by-lane instruction (R305). -/
def vectorLanes (op : LaneOp) (fs : List VForm) (lo hi : Nat) (c : Fin 129) (a : VArgs) (s : State) : State :=
  longVector c s (lanewiseOk fs lo hi a) (lanewise op a)

/-! ## Compares -/

/-- Set bits of a predicate. -/
def setPredBits (pd : Nat) (l : List (Nat × Bool)) (k : Core) : Core :=
  { k with p := tblMod 0 k.p pd (fun v => l.foldl (fun v e => setBit v e.1 e.2) v) }

/-- Legality of a compare: VD[25:24] is zero and p0 is no destination (R302, R304). -/
def compareOk (fs : List VForm) (lo hi : Nat) (a : VArgs) (k : Core) : Bool :=
  formIn fs a && widthIn lo hi k && decide (0 < a.vd.val) && decide (a.vd.val < 8) && sourcesAligned k a

/-- An integer compare (R305). -/
def vectorCompare (r : Rel) (c : Fin 129) (a : VArgs) (s : State) : State :=
  longVector c s (compareOk [.r, .x, .i] 0 4 a) (fun k =>
    let w := elemBits k
    setPredBits a.vd.val ((activeElems k a.pg).map (fun i =>
      (i, relHolds r w (getElem k a.vs1.val w i) (operandB k a w i)))) k)

/-- A quiet float compare (R305). -/
def vectorFCompare (r : FRel) (c : Fin 129) (a : VArgs) (s : State) : State :=
  longVector c s (compareOk [.r, .x] 2 3 a) (fun k =>
    let w := elemBits k
    let l := (activeElems k a.pg).map (fun i =>
      (i, fcompare (fmtOf w) r true (getElem k a.vs1.val w i) (operandB k a w i)))
    let k1 := setPredBits a.vd.val (l.map (fun e => (e.1, e.2.1))) k
    { k1 with fcsr := l.foldl (fun f e => flagsInto f e.2.2) k1.fcsr })

/-! ## Widening (R306, R310) -/

/-- Legality where the destination is a group of `m` registers that may not overlap a source. -/
def apartOk (fs : List VForm) (lo hi m : Nat) (two : Bool) (a : VArgs) (k : Core) : Bool :=
  formIn fs a && widthIn lo hi k && decide (m ≤ 8) && aligned a.vd m && aligned a.vs1 (groupRegs k) &&
  !(rangesMeet a.vd.val m a.vs1.val (groupRegs k)) &&
  (if a.form = .r then
    (if two then aligned a.src (groupRegs k) && !(rangesMeet a.vd.val m a.src.val (groupRegs k))
     else decide (a.src.val = 0))
   else true)

/-- Registers of a widened group. -/
def wideRegs (k : Core) : Nat := 2 * groupRegs k

/-- A widening operation: from a, b and the destination's old value. -/
def vectorWide (fs : List VForm) (two : Bool) (f : (w a b d : Nat) → LaneRes) (c : Fin 129) (a : VArgs) (s : State) :
    State :=
  longVector c s (fun k => apartOk fs 0 3 (wideRegs k) two a k) (fun k =>
    let w := elemBits k
    writeLanes a.vd.val (2 * w) ((activeElems k a.pg).map (fun i =>
      (i, f w (getElem k a.vs1.val w i) (if two then operandB k a w i else 0) (getElem k a.vd.val (2 * w) i)))) k)

/-- Sum of the products that a dot operation adds to lane `j`, `r` elements to a lane. -/
def dotSum (k : Core) (a : VArgs) (w r j : Nat) : Int :=
  ((List.range r).map (fun x =>
    let i := r * j + x
    if decide (i < k.vl.toNat) && (getP k a.pg).getLsbD i then
      signed w (getElem k a.vs1.val w i) * signed w (getElem k a.src.val w i) else 0)).sum

/-- Lanes of a dot operation with at least one element below VL, each with its new value. -/
def dotLanes (k : Core) (a : VArgs) (w r lane : Nat) : List (Nat × LaneRes) :=
  (List.range (ceilDiv k.vl.toNat r)).map (fun j =>
    (j, { value := unsigned lane (signed lane (getElem k a.vd.val lane j) + dotSum k a w r j) }))

/-! ## Reductions -/

/-- Legality of a reduction. -/
def reduceOk (lo hi : Nat) (a : VArgs) (k : Core) : Bool :=
  formIn [.r] a && widthIn lo hi k && aligned a.vd (groupRegs k) && sourcesAligned k a

/-- A reduction: vs2[0] and the active elements of vs1, folded in element order into vd[0] (R305); at VL 0 it changes
nothing (R301). -/
def vectorReduce (lo hi : Nat) (f : (w x y : Nat) → LaneRes) (c : Fin 129) (a : VArgs) (s : State) : State :=
  longVector c s (reduceOk lo hi a) (fun k =>
    if k.vl = 0 then k
    else
      let w := elemBits k
      let r := (activeElems k a.pg).foldl (fun (acc : LaneRes) i =>
        let x := f w acc.value (getElem k a.vs1.val w i)
        { value := x.value, flags := acc.flags.or x.flags, sov := acc.sov || x.sov })
        { value := getElem k a.src.val w 0 }
      writeLanes a.vd.val w [(0, r)] k)

end Sys2Proof.Machine
end

