-- ==== Sys2Proof/Machine/VectorMemory.lean ====
section
/-! DEFINITION. Vector loads and stores, predicate operations and short vectors (07_vunal_cores.md, R312 to R324). -/

namespace Sys2Proof.Machine

/-! ## Elements in memory (R313, R314, R320) -/

/-- Why an element access fails, with its element and address. -/
structure ElemFault where
  elem : Nat
  addr : Nat
  why : AccessFault
  deriving DecidableEq, Repr

/-- One element's load. -/
def elemLoad (c : Fin 129) (a n seen : Nat) (s : State) : Except AccessFault Bytes × State :=
  match accessType (getCore s c.val) false true a n with
  | .error e => (.error (.cause e), s)
  | .ok _ => normalLoad c a n seen s

/-- Rank of why an access fails, in the order of R329; a berth fault is met with the access itself. -/
def faultRank : AccessFault → Nat
  | .cause n => n
  | .violation _ => 4

/-- What an element that failed reports: the first cause in the order of R329 among it and the fields of its record that
follow. -/
def elemCause (k : Core) (n : Nat) (f : ElemFault) (rest : List (Nat × Nat × Nat)) : ElemFault :=
  (rest.filter (fun e => decide (e.1 = f.elem))).foldl (fun g e =>
    match accessType k false true e.2.2 n with
    | .error x => if x < faultRank g.why then ⟨f.elem, e.2.2, .cause x⟩ else g
    | .ok _ => g) f

/-- Load elements in order up to the first that fails: element, address and the destination register group's base. -/
def elemLoads (c : Fin 129) (n seen : Nat) : List (Nat × Nat × Nat) → List (Nat × Nat × Nat) → State →
    Except ElemFault (List (Nat × Nat × Nat)) × State
  | [], got, s => (.ok got.reverse, s)
  | (i, base, a) :: t, got, s =>
    match elemLoad c a n seen s with
    | (.ok d, s1) => elemLoads c n seen t ((i, base, leNat d) :: got) s1
    | (.error e, s1) => (.error (elemCause (getCore s c.val) n ⟨i, a, e⟩ t), s1)

/-- An access that failed at an element: a berth fault, or the exception with ELEMENT and EXC_ADDR (R320). -/
def elemFail (c : Fin 129) (f : ElemFault) (s : State) : State :=
  match f.why with
  | .violation x => violate c f.addr x s
  | .cause e => raise c e f.elem (BitVec.ofNat 64 f.addr) s

/-- First address of a VM access (R312). -/
def memBase (k : Core) (a : VMem) : Nat := (getG k a.gs + getG k a.gi).toNat

/-- gs after the access, where ADV is 1 (R312). -/
def advance (a : VMem) (fields : Nat) (k : Core) : Core :=
  if a.adv then setG a.gs (getG k a.gs + BitVec.ofNat 64 (k.vl.toNat * (elemBits k / 8) * fields)) k else k

/-- Address of field `x` of record `i`. -/
def recordAddr (k : Core) (a : VMem) (fields i x : Nat) : Nat :=
  (memBase k a + (i * fields + x) * (elemBits k / 8)) % 2 ^ 64

/-- The loads of a VLD or deal load, by record and then by field. -/
def dealList (k : Core) (a : VMem) (fields : Nat) : List (Nat × Nat × Nat) :=
  (activeElems k a.pg).flatMap (fun i => (List.range fields).map (fun x =>
    (i, a.vd.val + x * groupRegs k, recordAddr k a fields i x)))

/-- A load of records of `fields` fields. -/
def vectorLoad (fields : Nat) (c : Fin 129) (a : VMem) (seen : Nat) (s : State) : State :=
  atLevel 1 c s (fun k =>
    if !(aligned a.vd (groupRegs k)) || (decide (1 < fields) && !k.structEn) ||
        (decide (1 < fields) && decide (32 < a.vd.val + fields * groupRegs k)) then illegal c s
    else
      let w := elemBits k
      match elemLoads c (w / 8) seen (dealList k a fields) [] s with
      | (.error f, s1) => elemFail c f s1
      | (.ok l, s1) =>
        finish c (fun k => advance a fields (l.foldl (fun k e => setElem e.2.1 w e.1 e.2.2 k) k)) s1)

/-- VLD (R313). -/
def execVld (c : Fin 129) (a : VMem) (seen : Nat) (s : State) : Host.Outcome State Fault Refusal :=
  .next (vectorLoad 1 c a seen s)

/-- VDEAL2 (R314). -/
def execVdeal2 (c : Fin 129) (a : VMem) (seen : Nat) (s : State) : Host.Outcome State Fault Refusal :=
  .next (vectorLoad 2 c a seen s)

/-- VDEAL3 (R314). -/
def execVdeal3 (c : Fin 129) (a : VMem) (seen : Nat) (s : State) : Host.Outcome State Fault Refusal :=
  .next (vectorLoad 3 c a seen s)

/-- VDEAL4 (R314). -/
def execVdeal4 (c : Fin 129) (a : VMem) (seen : Nat) (s : State) : Host.Outcome State Fault Refusal :=
  .next (vectorLoad 4 c a seen s)

/-- Runs of bytes without a gap, cut at multiples of 8; each with whether the next lies in the same 8-byte piece. -/
def storeRuns : List (Nat × Byte) → List (Nat × Bytes)
  | [] => []
  | (a, b) :: t =>
    match storeRuns t with
    | (x, d) :: r => if x = a + 1 ∧ x % 8 ≠ 0 then (a, b :: d) :: r else (a, [b]) :: (x, d) :: r
    | [] => [(a, [b])]

/-- One buffer entry for each aligned 8-byte piece (08, R342). -/
def runEntries (tag : Nat → Option (Fin 512)) : List (Nat × Bytes) → List BufferedStore
  | [] => []
  | (a, d) :: t =>
    let same := match t with
      | (x, _) :: _ => decide (x / 8 = a / 8)
      | [] => false
    ⟨a, d, tag a, same⟩ :: runEntries tag t

/-- The first active element whose store raises REGION. -/
def storeFault (k : Core) (a : VMem) : Option ElemFault :=
  (activeElems k a.pg).findSome? (fun i =>
    let x := recordAddr k a 1 i 0
    match accessType k true true x (elemBits k / 8) with
    | .error e => some ⟨i, x, .cause e⟩
    | .ok _ => none)

/-- VST (R313): a VST with NF other than 0 raises ILLEGAL_INSTRUCTION (R314). -/
def execVst (c : Fin 129) (a : VMem) (nf : Fin 4) (s : State) : Host.Outcome State Fault Refusal :=
  .next (atLevel 1 c s (fun k =>
    if nf.val ≠ 0 || !(aligned a.vd (groupRegs k)) then illegal c s
    else match storeFault k a with
    | some f => elemFail c f s
    | none =>
      let w := elemBits k
      let bytes := (activeElems k a.pg).flatMap (fun i =>
        (List.range (w / 8)).zip (natLe (w / 8) (getElem k a.vd.val w i)) |>.map (fun e =>
          ((recordAddr k a 1 i 0 + e.1) % 2 ^ 64, e.2)))
      finish c (advance a 1)
        ((runEntries (coreTag s c.val) (storeRuns bytes)).foldl (fun s b => bufferStore c.val b s) s)))

/-! ## Predicates (R321) -/

/-- Bits of a predicate result below VL. -/
def setPredBelow (pd : Fin 8) (v : BitVec 512) (k : Core) : Core :=
  let mask := BitVec.ofNat 512 (2 ^ k.vl.toNat - 1)
  setP pd ((getP k pd &&& ~~~mask) ||| (v &&& mask)) k

/-- A predicate operation with a predicate destination: p0 is none (R302). -/
def predOp (c : Fin 129) (pd : Fin 8) (f : Core → BitVec 512) (s : State) : State :=
  atLevel 1 c s (fun k => if pd = 0 then illegal c s else finish c (setPredBelow pd (f k)) s)

/-- PAND. -/
def execPand (c : Fin 129) (pd ps1 ps2 : Fin 8) (s : State) : Host.Outcome State Fault Refusal :=
  .next (predOp c pd (fun k => getP k ps1 &&& getP k ps2) s)

/-- POR. -/
def execPor (c : Fin 129) (pd ps1 ps2 : Fin 8) (s : State) : Host.Outcome State Fault Refusal :=
  .next (predOp c pd (fun k => getP k ps1 ||| getP k ps2) s)

/-- PXOR. -/
def execPxor (c : Fin 129) (pd ps1 ps2 : Fin 8) (s : State) : Host.Outcome State Fault Refusal :=
  .next (predOp c pd (fun k => getP k ps1 ^^^ getP k ps2) s)

/-- PANDN. -/
def execPandn (c : Fin 129) (pd ps1 ps2 : Fin 8) (s : State) : Host.Outcome State Fault Refusal :=
  .next (predOp c pd (fun k => getP k ps1 &&& ~~~(getP k ps2)) s)

/-- PNOT. -/
def execPnot (c : Fin 129) (pd ps1 : Fin 8) (s : State) : Host.Outcome State Fault Refusal :=
  .next (predOp c pd (fun k => ~~~(getP k ps1)) s)

/-- 1 bits of a predicate below VL, rising. -/
def predOnes (k : Core) (p : Fin 8) : List Nat := (List.range k.vl.toNat).filter (getP k p).getLsbD

/-- PCNT. -/
def execPcnt (c : Fin 129) (gs : Fin 32) (ps1 : Fin 8) (s : State) : Host.Outcome State Fault Refusal :=
  .next (atLevel 1 c s (fun k => finish c (setG gs (BitVec.ofNat 64 (predOnes k ps1).length)) s))

/-- PFIRST. -/
def execPfirst (c : Fin 129) (gs : Fin 32) (ps1 : Fin 8) (s : State) : Host.Outcome State Fault Refusal :=
  .next (atLevel 1 c s (fun k =>
    finish c (setG gs (BitVec.ofNat 64 ((predOnes k ps1).head?.getD k.vl.toNat))) s))

/-- PWHILE. -/
def execPwhile (c : Fin 129) (pd : Fin 8) (gs : Fin 32) (s : State) : Host.Outcome State Fault Refusal :=
  .next (predOp c pd (fun k => BitVec.ofNat 512 (2 ^ (min (getG k gs).toNat 512) - 1)) s)

/-- Bytes of a predicate in memory. -/
def predBytes (k : Core) : Nat := ceilDiv k.vl.toNat 8

/-- gs after PLD.ADV and PST.ADV. -/
def predAdvance (gs : Fin 32) (adv : Bool) (k : Core) : Core :=
  if adv then setG gs (getG k gs + BitVec.ofNat 64 (predBytes k)) k else k

/-- PLD and PLD.ADV. -/
def predLoad (adv : Bool) (c : Fin 129) (pd : Fin 8) (gs : Fin 32) (seen : Nat) (s : State) : State :=
  atLevel 1 c s (fun k =>
    if pd = 0 then illegal c s
    else if k.vl = 0 then finish c id s
    else loadThen c (getG k gs).toNat (predBytes k) seen true s (fun d s1 =>
      finish c (fun k => predAdvance gs adv (setPredBelow pd (BitVec.ofNat 512 (leNat d)) k)) s1))

/-- PST and PST.ADV. -/
def predStore (adv : Bool) (c : Fin 129) (pd : Fin 8) (gs : Fin 32) (s : State) : State :=
  atLevel 1 c s (fun k =>
    if k.vl = 0 then finish c id s
    else storeThen c (getG k gs).toNat (natLe (predBytes k) ((getP k pd).toNat % 2 ^ k.vl.toNat)) true s
      (finish c (predAdvance gs adv)))

/-- PLD. -/
def execPld (c : Fin 129) (pd : Fin 8) (gs : Fin 32) (seen : Nat) (s : State) : Host.Outcome State Fault Refusal :=
  .next (predLoad false c pd gs seen s)

/-- PLD.ADV. -/
def execPldAdv (c : Fin 129) (pd : Fin 8) (gs : Fin 32) (seen : Nat) (s : State) :
    Host.Outcome State Fault Refusal :=
  .next (predLoad true c pd gs seen s)

/-- PST. -/
def execPst (c : Fin 129) (pd : Fin 8) (gs : Fin 32) (s : State) : Host.Outcome State Fault Refusal :=
  .next (predStore false c pd gs s)

/-- PST.ADV. -/
def execPstAdv (c : Fin 129) (pd : Fin 8) (gs : Fin 32) (s : State) : Host.Outcome State Fault Refusal :=
  .next (predStore true c pd gs s)

/-! ## Short vectors (R322 to R324) -/

/-- Lane `i` of a 128-bit value. -/
def shortLane (v w i : Nat) : Nat := v / 2 ^ (w * i) % 2 ^ w

/-- A 128-bit value from its lanes. -/
def joinLanes (w : Nat) : List Nat → Nat
  | [] => 0
  | x :: t => x % 2 ^ w + 2 ^ w * joinLanes w t

/-- Codes of SEW at which an operation is defined for short vectors: floats at 32 and 64 bits, the rest at all four. -/
def shortOk (op : LaneOp) (sew : Fin 4) : Bool :=
  match op with
  | .fadd => decide (2 ≤ sew.val)
  | .fsub => decide (2 ≤ sew.val)
  | .fmul => decide (2 ≤ sew.val)
  | .fdiv => decide (2 ≤ sew.val)
  | .fma => decide (2 ≤ sew.val)
  | .fmin => decide (2 ≤ sew.val)
  | .fmax => decide (2 ≤ sew.val)
  | _ => true

/-- Every lane of a short vector operation: from both sources and the old destination. -/
def shortLanes (f : (w a b d : Nat) → LaneRes) (sew : Fin 4) (sd ss1 ss2 : Fin 16) (k : Core) : Core :=
  let w := widthOf sew.val
  let l := (List.range (128 / w)).map (fun i =>
    f w (shortLane (getS k ss1) w i) (shortLane (getS k ss2) w i) (shortLane (getS k sd) w i))
  setS sd (joinLanes w (l.map (fun x => x.value)))
    { k with fcsr := l.foldl (fun f x => flagsInto f x.flags) k.fcsr }

/-- A lane mask: all ones or zero. -/
def maskLane (w : Nat) (b : Bool) : Nat := if b then 2 ^ w - 1 else 0

/-- SV_OPERATION (R323). -/
def execSvOperation (c : Fin 129) (op : LaneOp) (sew : Fin 4) (sd ss1 ss2 : Fin 16) (s : State) :
    Host.Outcome State Fault Refusal :=
  .next (coreStep c s (fun _ =>
    if shortOk op sew then finish c (shortLanes (laneResult op) sew sd ss1 ss2) s else illegal c s))

/-- SCMP (R323). -/
def execScmp (c : Fin 129) (r : Rel) (sew : Fin 4) (sd ss1 ss2 : Fin 16) (s : State) :
    Host.Outcome State Fault Refusal :=
  .next (coreStep c s (fun _ =>
    finish c (shortLanes (fun w a b _ => { value := maskLane w (relHolds r w a b) }) sew sd ss1 ss2) s))

/-- SFCMP (R323). -/
def execSfcmp (c : Fin 129) (r : FRel) (sew : Fin 4) (sd ss1 ss2 : Fin 16) (s : State) :
    Host.Outcome State Fault Refusal :=
  .next (coreStep c s (fun _ =>
    if sew.val < 2 then illegal c s
    else finish c (shortLanes (fun w a b _ =>
      let x := fcompare (fmtOf w) r true a b
      { value := maskLane w x.1, flags := x.2 }) sew sd ss1 ss2) s))

/-- SSHUF (R323): sd byte i = ss1 byte (ss2 byte i), or 0 when that index is 16 or more. -/
def execSshuf (c : Fin 129) (_sew : Fin 4) (sd ss1 ss2 : Fin 16) (s : State) : Host.Outcome State Fault Refusal :=
  .next (coreStep c s (fun _ => finish c (fun k =>
    setS sd (joinLanes 8 ((List.range 16).map (fun i =>
      let x := shortLane (getS k ss2) 8 i
      if x < 16 then shortLane (getS k ss1) 8 x else 0))) k) s))

/-- SSEL (R323): sd = (ss1 AND sd) OR (ss2 AND NOT sd). -/
def execSsel (c : Fin 129) (_sew : Fin 4) (sd ss1 ss2 : Fin 16) (s : State) : Host.Outcome State Fault Refusal :=
  .next (coreStep c s (fun _ => finish c (fun k =>
    let a := BitVec.ofNat 128 (getS k ss1)
    let b := BitVec.ofNat 128 (getS k ss2)
    let d := BitVec.ofNat 128 (getS k sd)
    setS sd ((a &&& d) ||| (b &&& ~~~d)).toNat k) s))

/-- Address of a short vector access (R324). -/
def shortAddr (k : Core) (gs : Fin 32) (offset : BitVec 12) : Nat := (getG k gs + 16 * offset.signExtend 64).toNat

/-- SLD (R324). -/
def execSld (c : Fin 129) (sd : Fin 16) (gs : Fin 32) (offset : BitVec 12) (seen : Nat) (s : State) :
    Host.Outcome State Fault Refusal :=
  .next (coreStep c s (fun k =>
    loadThen c (shortAddr k gs offset) 16 seen true s (fun d s1 => finish c (setS sd (leNat d)) s1)))

/-- SST (R324). -/
def execSst (c : Fin 129) (sd : Fin 16) (gs : Fin 32) (offset : BitVec 12) (s : State) :
    Host.Outcome State Fault Refusal :=
  .next (coreStep c s (fun k =>
    storeThen c (shortAddr k gs offset) (natLe 16 (getS k sd)) true s (finish c id)))

end Sys2Proof.Machine
end

