-- ==== Sys2Proof/Machine/Vectors.lean ====
section
/-! DEFINITION. The long vector instructions (07_vunal_cores.md, R305 to R309). -/

namespace Sys2Proof.Machine

/-! ## Lane by lane -/

/-- VADD (R305): vd = a + b. -/
def execVadd (c : Fin 129) (a : VArgs) (s : State) : Host.Outcome State Fault Refusal :=
  .next (vectorLanes .add [.r, .x, .i] 0 4 c a s)

/-- VSUB (R305): vd = a − b. -/
def execVsub (c : Fin 129) (a : VArgs) (s : State) : Host.Outcome State Fault Refusal :=
  .next (vectorLanes .sub [.r, .x] 0 4 c a s)

/-- VMIN (R305): signed minimum. -/
def execVmin (c : Fin 129) (a : VArgs) (s : State) : Host.Outcome State Fault Refusal :=
  .next (vectorLanes .min [.r, .x] 0 4 c a s)

/-- VMAX (R305): signed maximum. -/
def execVmax (c : Fin 129) (a : VArgs) (s : State) : Host.Outcome State Fault Refusal :=
  .next (vectorLanes .max [.r, .x] 0 4 c a s)

/-- VMINU (R305): unsigned minimum. -/
def execVminu (c : Fin 129) (a : VArgs) (s : State) : Host.Outcome State Fault Refusal :=
  .next (vectorLanes .minu [.r, .x] 0 4 c a s)

/-- VMAXU (R305): unsigned maximum. -/
def execVmaxu (c : Fin 129) (a : VArgs) (s : State) : Host.Outcome State Fault Refusal :=
  .next (vectorLanes .maxu [.r, .x] 0 4 c a s)

/-- VMUL (R305): low half of a × b. -/
def execVmul (c : Fin 129) (a : VArgs) (s : State) : Host.Outcome State Fault Refusal :=
  .next (vectorLanes .mul [.r, .x] 0 3 c a s)

/-- VMULH (R305): high half of the signed product. -/
def execVmulh (c : Fin 129) (a : VArgs) (s : State) : Host.Outcome State Fault Refusal :=
  .next (vectorLanes .mulh [.r, .x] 0 3 c a s)

/-- VMACC (R305): vd += a × b, low half. -/
def execVmacc (c : Fin 129) (a : VArgs) (s : State) : Host.Outcome State Fault Refusal :=
  .next (vectorLanes .macc [.r, .x] 0 3 c a s)

/-- VAND (R305): a AND b. -/
def execVand (c : Fin 129) (a : VArgs) (s : State) : Host.Outcome State Fault Refusal :=
  .next (vectorLanes .and [.r, .x, .i] 0 3 c a s)

/-- VOR (R305): a OR b. -/
def execVor (c : Fin 129) (a : VArgs) (s : State) : Host.Outcome State Fault Refusal :=
  .next (vectorLanes .or [.r, .x, .i] 0 3 c a s)

/-- VXOR (R305): a XOR b. -/
def execVxor (c : Fin 129) (a : VArgs) (s : State) : Host.Outcome State Fault Refusal :=
  .next (vectorLanes .xor [.r, .x, .i] 0 3 c a s)

/-- VSLL (R305): shift left by b mod ew. -/
def execVsll (c : Fin 129) (a : VArgs) (s : State) : Host.Outcome State Fault Refusal :=
  .next (vectorLanes .sll [.r, .x, .i] 0 3 c a s)

/-- VSRL (R305): logical shift right. -/
def execVsrl (c : Fin 129) (a : VArgs) (s : State) : Host.Outcome State Fault Refusal :=
  .next (vectorLanes .srl [.r, .x, .i] 0 3 c a s)

/-- VSRA (R305): arithmetic shift right. -/
def execVsra (c : Fin 129) (a : VArgs) (s : State) : Host.Outcome State Fault Refusal :=
  .next (vectorLanes .sra [.r, .x, .i] 0 3 c a s)

/-! ## Widening and dot operations (R306 to R310) -/

/-- VWMUL (R305): vd(2ew) = signed a × b. -/
def execVwmul (c : Fin 129) (a : VArgs) (s : State) : Host.Outcome State Fault Refusal :=
  .next (vectorWide [.r, .x] true (fun w x y _ =>
    { value := unsigned (2 * w) (signed w x * signed w y) }) c a s)

/-- VWMULU (R305): vd(2ew) = unsigned a × b. -/
def execVwmulu (c : Fin 129) (a : VArgs) (s : State) : Host.Outcome State Fault Refusal :=
  .next (vectorWide [.r, .x] true (fun _ x y _ => { value := x * y }) c a s)

/-- VWMACC (R305): vd(2ew) += signed a × b. -/
def execVwmacc (c : Fin 129) (a : VArgs) (s : State) : Host.Outcome State Fault Refusal :=
  .next (vectorWide [.r, .x] true (fun w x y z =>
    { value := unsigned (2 * w) (signed (2 * w) z + signed w x * signed w y) }) c a s)

/-- VWMACCU (R305): vd(2ew) += unsigned a × b. -/
def execVwmaccu (c : Fin 129) (a : VArgs) (s : State) : Host.Outcome State Fault Refusal :=
  .next (vectorWide [.r, .x] true (fun w x y z =>
    { value := (z + x * y) % 2 ^ (2 * w) }) c a s)

/-- VWACC (R305): vd(2ew) += sign-extended a; VS2 is zero. -/
def execVwacc (c : Fin 129) (a : VArgs) (s : State) : Host.Outcome State Fault Refusal :=
  .next (vectorWide [.r] false (fun w x _ z =>
    sumLane (2 * w) (signed (2 * w) z + signed w x)) c a s)

/-- DOT4 (R307): signed 8-bit products in fours, added to 32-bit lanes in a group of VG registers. -/
def execDot4 (c : Fin 129) (a : VArgs) (s : State) : Host.Outcome State Fault Refusal :=
  .next (longVector c s (fun k => apartOk [.r] 0 0 (groupRegs k) true a k)
    (fun k => writeLanes a.vd.val 32 (dotLanes k a 8 4 32) k))

/-- DOT2 (R308): signed 16-bit products in twos, added to 64-bit lanes in a group of 2 × VG registers. -/
def execDot2 (c : Fin 129) (a : VArgs) (s : State) : Host.Outcome State Fault Refusal :=
  .next (longVector c s (fun k => apartOk [.r] 1 1 (wideRegs k) true a k)
    (fun k => writeLanes a.vd.val 64 (dotLanes k a 16 2 64) k))

/-- DOTD (R309): exact signed 64-bit products added to 128-bit lanes, overflow in VSTAT.SOV. -/
def execDotd (c : Fin 129) (a : VArgs) (s : State) : Host.Outcome State Fault Refusal :=
  .next (longVector c s (fun k => apartOk [.r] 3 3 (wideRegs k) true a k)
    (fun k => writeLanes a.vd.val 128 ((activeElems k a.pg).map (fun i =>
      (i, sumLane 128 (signed 128 (getElem k a.vd.val 128 i) +
        signed 64 (getElem k a.vs1.val 64 i) * signed 64 (getElem k a.src.val 64 i))))) k))

/-! ## Compares -/

/-- VCMPEQ (R305): pd bit i = 1 if the relation holds, else 0. -/
def execVcmpeq (c : Fin 129) (a : VArgs) (s : State) : Host.Outcome State Fault Refusal :=
  .next (vectorCompare .eq c a s)

/-- VCMPNE (R305): pd bit i = 1 if the relation holds, else 0. -/
def execVcmpne (c : Fin 129) (a : VArgs) (s : State) : Host.Outcome State Fault Refusal :=
  .next (vectorCompare .ne c a s)

/-- VCMPLT (R305): pd bit i = 1 if the relation holds, else 0. -/
def execVcmplt (c : Fin 129) (a : VArgs) (s : State) : Host.Outcome State Fault Refusal :=
  .next (vectorCompare .lt c a s)

/-- VCMPLE (R305): pd bit i = 1 if the relation holds, else 0. -/
def execVcmple (c : Fin 129) (a : VArgs) (s : State) : Host.Outcome State Fault Refusal :=
  .next (vectorCompare .le c a s)

/-- VCMPLTU (R305): pd bit i = 1 if the relation holds, else 0. -/
def execVcmpltu (c : Fin 129) (a : VArgs) (s : State) : Host.Outcome State Fault Refusal :=
  .next (vectorCompare .ltu c a s)

/-- VCMPLEU (R305): pd bit i = 1 if the relation holds, else 0. -/
def execVcmpleu (c : Fin 129) (a : VArgs) (s : State) : Host.Outcome State Fault Refusal :=
  .next (vectorCompare .leu c a s)

/-- VCMPGT (R305): pd bit i = 1 if the relation holds, else 0. -/
def execVcmpgt (c : Fin 129) (a : VArgs) (s : State) : Host.Outcome State Fault Refusal :=
  .next (vectorCompare .gt c a s)

/-- VCMPGE (R305): pd bit i = 1 if the relation holds, else 0. -/
def execVcmpge (c : Fin 129) (a : VArgs) (s : State) : Host.Outcome State Fault Refusal :=
  .next (vectorCompare .ge c a s)

/-- VCMPGTU (R305): pd bit i = 1 if the relation holds, else 0. -/
def execVcmpgtu (c : Fin 129) (a : VArgs) (s : State) : Host.Outcome State Fault Refusal :=
  .next (vectorCompare .gtu c a s)

/-- VCMPGEU (R305): pd bit i = 1 if the relation holds, else 0. -/
def execVcmpgeu (c : Fin 129) (a : VArgs) (s : State) : Host.Outcome State Fault Refusal :=
  .next (vectorCompare .geu c a s)

/-! ## Floating point -/

/-- VFADD (R305): a + b. -/
def execVfadd (c : Fin 129) (a : VArgs) (s : State) : Host.Outcome State Fault Refusal :=
  .next (vectorLanes .fadd [.r, .x] 2 3 c a s)

/-- VFSUB (R305): a − b. -/
def execVfsub (c : Fin 129) (a : VArgs) (s : State) : Host.Outcome State Fault Refusal :=
  .next (vectorLanes .fsub [.r, .x] 2 3 c a s)

/-- VFMUL (R305): a × b. -/
def execVfmul (c : Fin 129) (a : VArgs) (s : State) : Host.Outcome State Fault Refusal :=
  .next (vectorLanes .fmul [.r, .x] 2 3 c a s)

/-- VFDIV (R305): a / b. -/
def execVfdiv (c : Fin 129) (a : VArgs) (s : State) : Host.Outcome State Fault Refusal :=
  .next (vectorLanes .fdiv [.r, .x] 2 3 c a s)

/-- VFMA (R305): vd = vd + a × b, one rounding. -/
def execVfma (c : Fin 129) (a : VArgs) (s : State) : Host.Outcome State Fault Refusal :=
  .next (vectorLanes .fma [.r, .x] 2 3 c a s)

/-- VFMIN (R305): lesser in the order of R109. -/
def execVfmin (c : Fin 129) (a : VArgs) (s : State) : Host.Outcome State Fault Refusal :=
  .next (vectorLanes .fmin [.r, .x] 2 3 c a s)

/-- VFMAX (R305): greater in the order of R109. -/
def execVfmax (c : Fin 129) (a : VArgs) (s : State) : Host.Outcome State Fault Refusal :=
  .next (vectorLanes .fmax [.r, .x] 2 3 c a s)

/-- VFCMPEQ (R305): quiet compare into pd; unordered gives 0. -/
def execVfcmpeq (c : Fin 129) (a : VArgs) (s : State) : Host.Outcome State Fault Refusal :=
  .next (vectorFCompare .eq c a s)

/-- VFCMPLT (R305): quiet compare into pd; unordered gives 0. -/
def execVfcmplt (c : Fin 129) (a : VArgs) (s : State) : Host.Outcome State Fault Refusal :=
  .next (vectorFCompare .lt c a s)

/-- VFCMPLE (R305): quiet compare into pd; unordered gives 0. -/
def execVfcmple (c : Fin 129) (a : VArgs) (s : State) : Host.Outcome State Fault Refusal :=
  .next (vectorFCompare .le c a s)

/-- Legality of an operation with one source, VS2 zero. -/
def oneSourceOk (lo hi : Nat) (a : VArgs) (k : Core) : Bool :=
  formIn [.r] a && widthIn lo hi k && aligned a.vd (groupRegs k) && aligned a.vs1 (groupRegs k) &&
  decide (a.src.val = 0)

/-- An operation on each active element of one source. -/
def vectorOne (lo hi : Nat) (f : (w x : Nat) → LaneRes) (c : Fin 129) (a : VArgs) (s : State) : State :=
  longVector c s (oneSourceOk lo hi a) (fun k =>
    let w := elemBits k
    writeLanes a.vd.val w ((activeElems k a.pg).map (fun i => (i, f w (getElem k a.vs1.val w i)))) k)

/-- VFCVTFI (R305): float to signed integer of equal width, toward zero, saturating; NaN gives 0. -/
def execVfcvtfi (c : Fin 129) (a : VArgs) (s : State) : Host.Outcome State Fault Refusal :=
  .next (vectorOne 2 3 (fun w x => floatLane (ftoInt (fmtOf w) .zero true w true x)) c a s)

/-- VFCVTIF (R305): signed integer to float of equal width. -/
def execVfcvtif (c : Fin 129) (a : VArgs) (s : State) : Host.Outcome State Fault Refusal :=
  .next (vectorOne 2 3 (fun w x => floatLane (fofInt (fmtOf w) .nearest true w x)) c a s)

/-! ## Movement -/

/-- VMV (R305): vd = a; the X and I forms broadcast. -/
def execVmv (c : Fin 129) (a : VArgs) (s : State) : Host.Outcome State Fault Refusal :=
  .next (longVector c s
    (fun k => if a.form = .r then oneSourceOk 0 4 a k else widthIn 0 4 k && aligned a.vd (groupRegs k))
    (fun k =>
      let w := elemBits k
      setElems a.vd.val w ((activeElems k a.pg).map (fun i =>
        (i, if a.form = .r then getElem k a.vs1.val w i else operandB k a w i))) k))

/-- VMERGE (R305): for every i below VL, vd = PG bit i ? a : b. -/
def execVmerge (c : Fin 129) (a : VArgs) (s : State) : Host.Outcome State Fault Refusal :=
  .next (longVector c s (lanewiseOk [.r] 0 4 a) (fun k =>
    let w := elemBits k
    setElems a.vd.val w ((List.range k.vl.toNat).map (fun i =>
      (i, if (getP k a.pg).getLsbD i then getElem k a.vs1.val w i else getElem k a.src.val w i))) k))

/-- VSLIDEDN (R305): vd = vs1[i + k], or 0 when i + k ≥ VLMAX. -/
def execVslidedn (c : Fin 129) (a : VArgs) (s : State) : Host.Outcome State Fault Refusal :=
  .next (longVector c s (lanewiseOk [.x, .i] 0 4 a) (fun k =>
    let w := elemBits k
    let b := operandB k a w 0
    setElems a.vd.val w ((activeElems k a.pg).map (fun i =>
      (i, if i + b < vlmax k.ew.toNat k.vg.toNat then getElem k a.vs1.val w (i + b) else 0))) k))

/-- VSLIDEUP (R305): vd = vs1[i − k] for i ≥ k; elements below k undisturbed. -/
def execVslideup (c : Fin 129) (a : VArgs) (s : State) : Host.Outcome State Fault Refusal :=
  .next (longVector c s (lanewiseOk [.x, .i] 0 4 a) (fun k =>
    let w := elemBits k
    let b := operandB k a w 0
    setElems a.vd.val w (((activeElems k a.pg).filter (fun i => decide (b ≤ i))).map (fun i =>
      (i, getElem k a.vs1.val w (i - b)))) k))

/-- VCOMPRESS (R305): active elements of vs1, in order, to the first elements of vd. -/
def execVcompress (c : Fin 129) (a : VArgs) (s : State) : Host.Outcome State Fault Refusal :=
  .next (longVector c s (oneSourceOk 0 4 a) (fun k =>
    let w := elemBits k
    let vals := (activeElems k a.pg).map (getElem k a.vs1.val w)
    setElems a.vd.val w ((List.range vals.length).zip vals) k))

/-- VEXT (R305): gd, named by VD, = vs1[gs], zero-extended; 0 when gs ≥ VL. At VL 0 no register changes (R301). -/
def execVext (c : Fin 129) (a : VArgs) (s : State) : Host.Outcome State Fault Refusal :=
  .next (longVector c s (fun k => formIn [.x] a && widthIn 0 4 k && aligned a.vs1 (groupRegs k)) (fun k =>
    if k.vl = 0 then k
    else
      let w := elemBits k
      let i := scalarLane k a.src w
      setG a.vd (if i < k.vl.toNat then BitVec.ofNat 64 (getElem k a.vs1.val w i) else 0) k))

/-! ## Reductions -/

/-- VREDSUM (R305): vd[0] = vs2[0] + sum of the active vs1 elements; overflow is that of the true sum (R311). -/
def execVredsum (c : Fin 129) (a : VArgs) (s : State) : Host.Outcome State Fault Refusal :=
  .next (longVector c s (reduceOk 0 4 a) (fun k =>
    if k.vl = 0 then k
    else
      let w := elemBits k
      let z := ((activeElems k a.pg).map (fun i => signed w (getElem k a.vs1.val w i))).sum
      writeLanes a.vd.val w [(0, sumLane w (signed w (getElem k a.src.val w 0) + z))] k))

/-- VREDMIN (R305): signed minimum of vs2[0] and the active vs1 elements. -/
def execVredmin (c : Fin 129) (a : VArgs) (s : State) : Host.Outcome State Fault Refusal :=
  .next (vectorReduce 0 4 (fun w x y => laneResult .min w x y 0) c a s)

/-- VREDMAX (R305): signed maximum. -/
def execVredmax (c : Fin 129) (a : VArgs) (s : State) : Host.Outcome State Fault Refusal :=
  .next (vectorReduce 0 4 (fun w x y => laneResult .max w x y 0) c a s)

/-- VREDMINU (R305): unsigned minimum. -/
def execVredminu (c : Fin 129) (a : VArgs) (s : State) : Host.Outcome State Fault Refusal :=
  .next (vectorReduce 0 4 (fun w x y => laneResult .minu w x y 0) c a s)

/-- VREDMAXU (R305): unsigned maximum. -/
def execVredmaxu (c : Fin 129) (a : VArgs) (s : State) : Host.Outcome State Fault Refusal :=
  .next (vectorReduce 0 4 (fun w x y => laneResult .maxu w x y 0) c a s)

/-- VFREDOSUM (R305): vd[0] = vs2[0] + active vs1 elements, added in element order. -/
def execVfredosum (c : Fin 129) (a : VArgs) (s : State) : Host.Outcome State Fault Refusal :=
  .next (vectorReduce 2 3 (fun w x y => laneResult .fadd w x y 0) c a s)

end Sys2Proof.Machine
end

