-- ==== Sys2Proof/Machine/Dispatch.lean ====
section
/-! DEFINITION. One arm for each command: its effect on everything but the queue of waiting commands. -/

namespace Sys2Proof.Machine

/-- The effect of a command. -/
def exec (i : Instr) (s : State) : Host.Outcome State Fault Refusal :=
  match i with
  | .powerInputRise => Sys2Proof.Machine.execPowerInputRise s
  | .inputBelowReset => Sys2Proof.Machine.execInputBelowReset s
  | .perstNLow => Sys2Proof.Machine.execPerstNLow s
  | .perstNHigh => Sys2Proof.Machine.execPerstNHigh s
  | .inputBelowWarning mv => Sys2Proof.Machine.execInputBelowWarning mv s
  | .warningEpisodeEnd lowestMv belowUs => Sys2Proof.Machine.execWarningEpisodeEnd lowestMv belowUs s
  | .romBankSelect selfCheckOk pcieTestOk => Sys2Proof.Machine.execRomBankSelect selfCheckOk pcieTestOk s
  | .tisumStart => Sys2Proof.Machine.execTisumStart s
  | .bootWatchdogExpiry => Sys2Proof.Machine.execBootWatchdogExpiry s
  | .dramTrainingComplete outcomes => Sys2Proof.Machine.execDramTrainingComplete outcomes s
  | .serviceReady failedParts failedCores bootMs => Sys2Proof.Machine.execServiceReady failedParts failedCores bootMs s
  | .harbourmasterLockstepMismatch => Sys2Proof.Machine.execHarbourmasterLockstepMismatch s
  | .untoleratedFault f => Sys2Proof.Machine.execUntoleratedFault f s
  | .unitRetirement u cause => Sys2Proof.Machine.execUnitRetirement u cause s
  | .thermalLevelChange celsius level sensor => Sys2Proof.Machine.execThermalLevelChange celsius level sensor s
  | .jtagAttach record => Sys2Proof.Machine.execJtagAttach record s
  | .linkDown => Sys2Proof.Machine.execLinkDown s
  | .linkWidthChange width => Sys2Proof.Machine.execLinkWidthChange width s
  | .d3hotEntry => Sys2Proof.Machine.execD3hotEntry s
  | .d0Return => Sys2Proof.Machine.execD0Return s
  | .configurationRequest r => Sys2Proof.Machine.execConfigurationRequest r s
  | .bar4Access offset length wdata => Sys2Proof.Machine.execBar4Access offset length wdata s
  | .registerWrite space offset value enables => Sys2Proof.Machine.execRegisterWrite space offset value enables s
  | .rslLowRead path r => Sys2Proof.Machine.execRslLowRead path r s
  | .latchedHighRead path r => Sys2Proof.Machine.execLatchedHighRead path r s
  | .clearStats block counted => Sys2Proof.Machine.execClearStats block counted s
  | .clearPerf block counted => Sys2Proof.Machine.execClearPerf block counted s
  | .esPendingClear word mask raised => Sys2Proof.Machine.execEsPendingClear word mask raised s
  | .esSteerWrite source value => Sys2Proof.Machine.execEsSteerWrite source value s
  | .msixUnmask vector => Sys2Proof.Machine.execMsixUnmask vector s
  | .taskSel value => Sys2Proof.Machine.execTaskSel value s
  | .doorbell q => Sys2Proof.Machine.execDoorbell q s
  | .pushIndex q index => Sys2Proof.Machine.execPushIndex q index s
  | .pushData q offset data => Sys2Proof.Machine.execPushData q offset data s
  | .enable q => Sys2Proof.Machine.execEnable q s
  | .disable q => Sys2Proof.Machine.execDisable q s
  | .restart q => Sys2Proof.Machine.execRestart q s
  | .queueClearStats q counted => Sys2Proof.Machine.execQueueClearStats q counted s
  | .clearTags q => Sys2Proof.Machine.execClearTags q s
  | .indexReadComplete q host => Sys2Proof.Machine.execIndexReadComplete q host s
  | .indexPollExpiry q => Sys2Proof.Machine.execIndexPollExpiry q s
  | .holdPollExpiry q => Sys2Proof.Machine.execHoldPollExpiry q s
  | .entryTake q h => Sys2Proof.Machine.execEntryTake q h s
  | .entryStart q => Sys2Proof.Machine.execEntryStart q s
  | .jobFinal job => Sys2Proof.Machine.execJobFinal job s
  | .intHoldoffExpiry q => Sys2Proof.Machine.execIntHoldoffExpiry q s
  | .progressWrite job => Sys2Proof.Machine.execProgressWrite job s
  | .nop job => Sys2Proof.Machine.execNop job s
  | .queueFence job => Sys2Proof.Machine.execQueueFence job s
  | .fenceRelease job => Sys2Proof.Machine.execFenceRelease job s
  | .loadImage job h => Sys2Proof.Machine.execLoadImage job h s
  | .unloadImage job => Sys2Proof.Machine.execUnloadImage job s
  | .slotUnloadComplete b slot => Sys2Proof.Machine.execSlotUnloadComplete b slot s
  | .run job h => Sys2Proof.Machine.execRun job h s
  | .runPlacement job => Sys2Proof.Machine.execRunPlacement job s
  | .cancel job => Sys2Proof.Machine.execCancel job s
  | .timeLimitExpiry job => Sys2Proof.Machine.execTimeLimitExpiry job s
  | .putBlocks job h => Sys2Proof.Machine.execPutBlocks job h s
  | .getBlocks job => Sys2Proof.Machine.execGetBlocks job s
  | .move job h => Sys2Proof.Machine.execMove job h s
  | .fill job => Sys2Proof.Machine.execFill job s
  | .compress job => Sys2Proof.Machine.execCompress job s
  | .decompress job h => Sys2Proof.Machine.execDecompress job h s
  | .frameComplete job frame engine busy h => Sys2Proof.Machine.execFrameComplete job frame engine busy h s
  | .digestStart job h => Sys2Proof.Machine.execDigestStart job h s
  | .digestContinue job h => Sys2Proof.Machine.execDigestContinue job h s
  | .digestFinish job h => Sys2Proof.Machine.execDigestFinish job h s
  | .digestOneshot job h => Sys2Proof.Machine.execDigestOneshot job h s
  | .digestAbort job => Sys2Proof.Machine.execDigestAbort job s
  | .digestVerify job h agree => Sys2Proof.Machine.execDigestVerify job h agree s
  | .fragmentComplete lane busy h => Sys2Proof.Machine.execFragmentComplete lane busy h s
  | .setKeyLoad job h => Sys2Proof.Machine.execSetKeyLoad job h s
  | .setKeyErase job => Sys2Proof.Machine.execSetKeyErase job s
  | .canopyLoadCreate job h => Sys2Proof.Machine.execCanopyLoadCreate job h s
  | .canopyLoadReplace job h => Sys2Proof.Machine.execCanopyLoadReplace job h s
  | .canopyLoadDrop job => Sys2Proof.Machine.execCanopyLoadDrop job s
  | .tableDropComplete b id => Sys2Proof.Machine.execTableDropComplete b id s
  | .canopyUpdate job h => Sys2Proof.Machine.execCanopyUpdate job h s
  | .patternLoadCreate job h => Sys2Proof.Machine.execPatternLoadCreate job h s
  | .patternLoadReplace job h => Sys2Proof.Machine.execPatternLoadReplace job h s
  | .berthFreeze job => Sys2Proof.Machine.execBerthFreeze job s
  | .freezeComplete b => Sys2Proof.Machine.execFreezeComplete b s
  | .freezeTimeout b => Sys2Proof.Machine.execFreezeTimeout b s
  | .berthSaveState job => Sys2Proof.Machine.execBerthSaveState job s
  | .berthSaveGranules job h => Sys2Proof.Machine.execBerthSaveGranules job h s
  | .berthRestoreState job h => Sys2Proof.Machine.execBerthRestoreState job h s
  | .berthRestoreGranules job h => Sys2Proof.Machine.execBerthRestoreGranules job h s
  | .berthThaw job => Sys2Proof.Machine.execBerthThaw job s
  | .dirtyLogStart job => Sys2Proof.Machine.execDirtyLogStart job s
  | .dirtyLogStop job => Sys2Proof.Machine.execDirtyLogStop job s
  | .dirtyLogSync job h => Sys2Proof.Machine.execDirtyLogSync job h s
  | .fetchBitmap job => Sys2Proof.Machine.execFetchBitmap job s
  | .dirtyRingReread b h => Sys2Proof.Machine.execDirtyRingReread b h s
  | .berthFault sameCycle => Sys2Proof.Machine.execBerthFault sameCycle s
  | .create b => Sys2Proof.Machine.execCreate b s
  | .destroy b => Sys2Proof.Machine.execDestroy b s
  | .clearFault b => Sys2Proof.Machine.execClearFault b s
  | .granuleExtentsWrite b offset data => Sys2Proof.Machine.execGranuleExtentsWrite b offset data s
  | .scanTaskHandoff u => Sys2Proof.Machine.execScanTaskHandoff u s
  | .blockRead q wait => Sys2Proof.Machine.execBlockRead q wait s
  | .headerRead t => Sys2Proof.Machine.execHeaderRead t s
  | .blockEvaluate t busy => Sys2Proof.Machine.execBlockEvaluate t busy s
  | .inflateComplete t busy => Sys2Proof.Machine.execInflateComplete t busy s
  | .longValueRead t => Sys2Proof.Machine.execLongValueRead t s
  | .batchEgress sender stall => Sys2Proof.Machine.execBatchEgress sender stall s
  | .gatherGroup job stage inst => Sys2Proof.Machine.execGatherGroup job stage inst s
  | .quayFailure q cause => Sys2Proof.Machine.execQuayFailure q cause s
  | .buddyTakeover q => Sys2Proof.Machine.execBuddyTakeover q s
  | .edgeCreditReturn job stage inst => Sys2Proof.Machine.execEdgeCreditReturn job stage inst s
  | .batchArrival job edge inst producer => Sys2Proof.Machine.execBatchArrival job edge inst producer s
  | .exprCall job stage inst port r => Sys2Proof.Machine.execExprCall job stage inst port r s
  | .exchangeBatch job stage inst => Sys2Proof.Machine.execExchangeBatch job stage inst s
  | .fixedUnitBatch job stage inst orders => Sys2Proof.Machine.execFixedUnitBatch job stage inst orders s
  | .emitBatch job stage => Sys2Proof.Machine.execEmitBatch job stage s
  | .search b parityOk => Sys2Proof.Machine.execSearch b parityOk s
  | .searchComplete b => Sys2Proof.Machine.execSearchComplete b s
  | .patternStep b parityOk => Sys2Proof.Machine.execPatternStep b parityOk s
  | .updateSlotWrite b searchWaits => Sys2Proof.Machine.execUpdateSlotWrite b searchWaits s
  | .parityScanRead b parityOk searchWaits => Sys2Proof.Machine.execParityScanRead b parityOk searchWaits s
  | .parityErrorReload b => Sys2Proof.Machine.execParityErrorReload b s
  | .bankReload b => Sys2Proof.Machine.execBankReload b s
  | .getw c gd held readyWait => Sys2Proof.Machine.execGetw c gd held readyWait s
  | .donew c gs1 cycles => Sys2Proof.Machine.execDonew c gs1 cycles s
  | .setev c gs1 gs2 => Sys2Proof.Machine.execSetev c gs1 gs2 s
  | .waitcAll c gs1 => Sys2Proof.Machine.execWaitcAll c gs1 s
  | .waitcAny c gs1 => Sys2Proof.Machine.execWaitcAny c gs1 s
  | .eventPulse task flag source => Sys2Proof.Machine.execEventPulse task flag source s
  | .delayExpiry task => Sys2Proof.Machine.execDelayExpiry task s
  | .prefetchFill c => Sys2Proof.Machine.execPrefetchFill c s
  | .dispatchModeSwitch g standing => Sys2Proof.Machine.execDispatchModeSwitch g standing s
  | .coreFailure c cause => Sys2Proof.Machine.execCoreFailure c cause s
  | .groveFailure g cause => Sys2Proof.Machine.execGroveFailure g cause s
  | .runtimeTick c => Sys2Proof.Machine.execRuntimeTick c s
  | .interrupt c chosen => Sys2Proof.Machine.execInterrupt c chosen s
  | .integerAlu c op word gd gs1 src => Sys2Proof.Machine.execIntegerAlu c op word gd gs1 src s
  | .multiplyDivide c op gd gs1 gs2 => Sys2Proof.Machine.execMultiplyDivide c op gd gs1 gs2 s
  | .scalarLoad c d size isSigned base offset seen => Sys2Proof.Machine.execScalarLoad c d size isSigned base offset seen s
  | .scalarStore c r size base offset => Sys2Proof.Machine.execScalarStore c r size base offset s
  | .storeVisible c => Sys2Proof.Machine.execStoreVisible c s
  | .accessTimeout c load => Sys2Proof.Machine.execAccessTimeout c load s
  | .branch c j => Sys2Proof.Machine.execBranch c j s
  | .floatingPoint c op => Sys2Proof.Machine.execFloatingPoint c op s
  | .ldx c gd gs1 wide => Sys2Proof.Machine.execLdx c gd gs1 wide s
  | .stx c gd gs1 gs2 wide => Sys2Proof.Machine.execStx c gd gs1 gs2 wide s
  | .fence c => Sys2Proof.Machine.execFence c s
  | .ecall c => Sys2Proof.Machine.execEcall c s
  | .ebreak c => Sys2Proof.Machine.execEbreak c s
  | .eret c => Sys2Proof.Machine.execEret c s
  | .csrr c gd number => Sys2Proof.Machine.execCsrr c gd number s
  | .csrw c number gs => Sys2Proof.Machine.execCsrw c number gs s
  | .iflush c => Sys2Proof.Machine.execIflush c s
  | .wfi c => Sys2Proof.Machine.execWfi c s
  | .setvl c gd gs ew vg => Sys2Proof.Machine.execSetvl c gd gs ew vg s
  | .vadd c a => Sys2Proof.Machine.execVadd c a s
  | .vsub c a => Sys2Proof.Machine.execVsub c a s
  | .vmin c a => Sys2Proof.Machine.execVmin c a s
  | .vmax c a => Sys2Proof.Machine.execVmax c a s
  | .vminu c a => Sys2Proof.Machine.execVminu c a s
  | .vmaxu c a => Sys2Proof.Machine.execVmaxu c a s
  | .vmul c a => Sys2Proof.Machine.execVmul c a s
  | .vmulh c a => Sys2Proof.Machine.execVmulh c a s
  | .vmacc c a => Sys2Proof.Machine.execVmacc c a s
  | .vand c a => Sys2Proof.Machine.execVand c a s
  | .vor c a => Sys2Proof.Machine.execVor c a s
  | .vxor c a => Sys2Proof.Machine.execVxor c a s
  | .vsll c a => Sys2Proof.Machine.execVsll c a s
  | .vsrl c a => Sys2Proof.Machine.execVsrl c a s
  | .vsra c a => Sys2Proof.Machine.execVsra c a s
  | .vwmul c a => Sys2Proof.Machine.execVwmul c a s
  | .vwmulu c a => Sys2Proof.Machine.execVwmulu c a s
  | .vwmacc c a => Sys2Proof.Machine.execVwmacc c a s
  | .vwmaccu c a => Sys2Proof.Machine.execVwmaccu c a s
  | .vwacc c a => Sys2Proof.Machine.execVwacc c a s
  | .dot4 c a => Sys2Proof.Machine.execDot4 c a s
  | .dot2 c a => Sys2Proof.Machine.execDot2 c a s
  | .dotd c a => Sys2Proof.Machine.execDotd c a s
  | .vcmpeq c a => Sys2Proof.Machine.execVcmpeq c a s
  | .vcmpne c a => Sys2Proof.Machine.execVcmpne c a s
  | .vcmplt c a => Sys2Proof.Machine.execVcmplt c a s
  | .vcmple c a => Sys2Proof.Machine.execVcmple c a s
  | .vcmpltu c a => Sys2Proof.Machine.execVcmpltu c a s
  | .vcmpleu c a => Sys2Proof.Machine.execVcmpleu c a s
  | .vcmpgt c a => Sys2Proof.Machine.execVcmpgt c a s
  | .vcmpge c a => Sys2Proof.Machine.execVcmpge c a s
  | .vcmpgtu c a => Sys2Proof.Machine.execVcmpgtu c a s
  | .vcmpgeu c a => Sys2Proof.Machine.execVcmpgeu c a s
  | .vfadd c a => Sys2Proof.Machine.execVfadd c a s
  | .vfsub c a => Sys2Proof.Machine.execVfsub c a s
  | .vfmul c a => Sys2Proof.Machine.execVfmul c a s
  | .vfdiv c a => Sys2Proof.Machine.execVfdiv c a s
  | .vfma c a => Sys2Proof.Machine.execVfma c a s
  | .vfmin c a => Sys2Proof.Machine.execVfmin c a s
  | .vfmax c a => Sys2Proof.Machine.execVfmax c a s
  | .vfcmpeq c a => Sys2Proof.Machine.execVfcmpeq c a s
  | .vfcmplt c a => Sys2Proof.Machine.execVfcmplt c a s
  | .vfcmple c a => Sys2Proof.Machine.execVfcmple c a s
  | .vfcvtfi c a => Sys2Proof.Machine.execVfcvtfi c a s
  | .vfcvtif c a => Sys2Proof.Machine.execVfcvtif c a s
  | .vmv c a => Sys2Proof.Machine.execVmv c a s
  | .vmerge c a => Sys2Proof.Machine.execVmerge c a s
  | .vslidedn c a => Sys2Proof.Machine.execVslidedn c a s
  | .vslideup c a => Sys2Proof.Machine.execVslideup c a s
  | .vcompress c a => Sys2Proof.Machine.execVcompress c a s
  | .vext c a => Sys2Proof.Machine.execVext c a s
  | .vredsum c a => Sys2Proof.Machine.execVredsum c a s
  | .vredmin c a => Sys2Proof.Machine.execVredmin c a s
  | .vredmax c a => Sys2Proof.Machine.execVredmax c a s
  | .vredminu c a => Sys2Proof.Machine.execVredminu c a s
  | .vredmaxu c a => Sys2Proof.Machine.execVredmaxu c a s
  | .vfredosum c a => Sys2Proof.Machine.execVfredosum c a s
  | .vld c a seen => Sys2Proof.Machine.execVld c a seen s
  | .vst c a nf => Sys2Proof.Machine.execVst c a nf s
  | .vdeal2 c a seen => Sys2Proof.Machine.execVdeal2 c a seen s
  | .vdeal3 c a seen => Sys2Proof.Machine.execVdeal3 c a seen s
  | .vdeal4 c a seen => Sys2Proof.Machine.execVdeal4 c a seen s
  | .pand c pd ps1 ps2 => Sys2Proof.Machine.execPand c pd ps1 ps2 s
  | .por c pd ps1 ps2 => Sys2Proof.Machine.execPor c pd ps1 ps2 s
  | .pxor c pd ps1 ps2 => Sys2Proof.Machine.execPxor c pd ps1 ps2 s
  | .pandn c pd ps1 ps2 => Sys2Proof.Machine.execPandn c pd ps1 ps2 s
  | .pnot c pd ps1 => Sys2Proof.Machine.execPnot c pd ps1 s
  | .pcnt c gs ps1 => Sys2Proof.Machine.execPcnt c gs ps1 s
  | .pfirst c gs ps1 => Sys2Proof.Machine.execPfirst c gs ps1 s
  | .pwhile c pd gs => Sys2Proof.Machine.execPwhile c pd gs s
  | .pld c pd gs seen => Sys2Proof.Machine.execPld c pd gs seen s
  | .pldAdv c pd gs seen => Sys2Proof.Machine.execPldAdv c pd gs seen s
  | .pst c pd gs => Sys2Proof.Machine.execPst c pd gs s
  | .pstAdv c pd gs => Sys2Proof.Machine.execPstAdv c pd gs s
  | .svOperation c op sew sd ss1 ss2 => Sys2Proof.Machine.execSvOperation c op sew sd ss1 ss2 s
  | .scmp c r sew sd ss1 ss2 => Sys2Proof.Machine.execScmp c r sew sd ss1 ss2 s
  | .sfcmp c r sew sd ss1 ss2 => Sys2Proof.Machine.execSfcmp c r sew sd ss1 ss2 s
  | .sshuf c sew sd ss1 ss2 => Sys2Proof.Machine.execSshuf c sew sd ss1 ss2 s
  | .ssel c sew sd ss1 ss2 => Sys2Proof.Machine.execSsel c sew sd ss1 ss2 s
  | .sld c sd gs offset seen => Sys2Proof.Machine.execSld c sd gs offset seen s
  | .sst c sd gs offset => Sys2Proof.Machine.execSst c sd gs offset s
  | .coreModeWrite writer c value => Sys2Proof.Machine.execCoreModeWrite writer c value s
  | .chStart writer c addr => Sys2Proof.Machine.execChStart writer c addr s
  | .stop writer c => Sys2Proof.Machine.execStop writer c s
  | .descriptorFetch c => Sys2Proof.Machine.execDescriptorFetch c s
  | .burst readBusy writeBusy slotWait h => Sys2Proof.Machine.execBurst readBusy writeBusy slotWait h s
  | .lineRequest c data h => Sys2Proof.Machine.execLineRequest c data h s
  | .last c data => Sys2Proof.Machine.execLast c data s
  | .descriptorComplete c => Sys2Proof.Machine.execDescriptorComplete c s
  | .granuleFirstTouch g tag write => Sys2Proof.Machine.execGranuleFirstTouch g tag write s
  | .zeroFillComplete g => Sys2Proof.Machine.execZeroFillComplete g s
  | .backgroundInitialisation u => Sys2Proof.Machine.execBackgroundInitialisation u s
  | .ownershipChange g owner image => Sys2Proof.Machine.execOwnershipChange g owner image s
  | .refresh u bank => Sys2Proof.Machine.execRefresh u bank s
  | .refreshRateRead u hot => Sys2Proof.Machine.execRefreshRateRead u hot s
  | .temperatureLimit u celsius => Sys2Proof.Machine.execTemperatureLimit u celsius s
  | .rowClose u bank => Sys2Proof.Machine.execRowClose u bank s
  | .writeQueueDrain u => Sys2Proof.Machine.execWriteQueueDrain u s
  | .patrolScrub u finding => Sys2Proof.Machine.execPatrolScrub u finding s
  | .caParityAlert u replayed => Sys2Proof.Machine.execCaParityAlert u replayed s
  | .caRetraining u ok => Sys2Proof.Machine.execCaRetraining u ok s
  | .dqsTracking u => Sys2Proof.Machine.execDqsTracking u s
  | .zqCalibration u => Sys2Proof.Machine.execZqCalibration u s
  | .mbRead seq => Sys2Proof.Machine.execMbRead seq s
  | .mbWrite seq => Sys2Proof.Machine.execMbWrite seq s
  | .doeDictionaryRequest request => Sys2Proof.Machine.execDoeDictionaryRequest request s
  | .usdoRead client broadcast index sub => Sys2Proof.Machine.execUsdoRead client broadcast index sub s
  | .usdoWrite client broadcast index sub data => Sys2Proof.Machine.execUsdoWrite client broadcast index sub data s
  | .saveAll path value => Sys2Proof.Machine.execSaveAll path value s
  | .restoreAll path value => Sys2Proof.Machine.execRestoreAll path value s
  | .settingsSaveComplete verified => Sys2Proof.Machine.execSettingsSaveComplete verified s
  | .errorCountClear path value => Sys2Proof.Machine.execErrorCountClear path value s
  | .calendarTimeWrite path value => Sys2Proof.Machine.execCalendarTimeWrite path value s
  | .checkpointIdWrite path value => Sys2Proof.Machine.execCheckpointIdWrite path value s
  | .modeRequestMaintenance path => Sys2Proof.Machine.execModeRequestMaintenance path s
  | .maintenanceEntry => Sys2Proof.Machine.execMaintenanceEntry s
  | .modeRequestLeave path => Sys2Proof.Machine.execModeRequestLeave path s
  | .passRequestFull path failed failedCores failedPatterns => Sys2Proof.Machine.execPassRequestFull path failed failedCores failedPatterns s
  | .passRequestStart path => Sys2Proof.Machine.execPassRequestStart path s
  | .passRequestAbort path => Sys2Proof.Machine.execPassRequestAbort path s
  | .selfTestSession p segment segments outcome => Sys2Proof.Machine.execSelfTestSession p segment segments outcome s
  | .sessionRetry p => Sys2Proof.Machine.execSessionRetry p s
  | .passLate => Sys2Proof.Machine.execPassLate s
  | .package path offset data readBack => Sys2Proof.Machine.execPackage path offset data readBack s
  | .commit path readBack => Sys2Proof.Machine.execCommit path readBack s
  | .abort path => Sys2Proof.Machine.execAbort path s
  | .clear path value => Sys2Proof.Machine.execClear path value s
  | .heartwoodAppend => Sys2Proof.Machine.execHeartwoodAppend s
  | .nmtStart => Sys2Proof.Machine.execNmtStart s
  | .nmtStop => Sys2Proof.Machine.execNmtStop s
  | .nmtEnterPreOperational => Sys2Proof.Machine.execNmtEnterPreOperational s
  | .nmtResetCommunication => Sys2Proof.Machine.execNmtResetCommunication s
  | .nmtResetNode => Sys2Proof.Machine.execNmtResetNode s
  | .initialisationDone => Sys2Proof.Machine.execInitialisationDone s
  | .heartbeat => Sys2Proof.Machine.execHeartbeat s
  | .timeReceived ms days => Sys2Proof.Machine.execTimeReceived ms days s
  | .timeProduce => Sys2Proof.Machine.execTimeProduce s
  | .syncReceived counter => Sys2Proof.Machine.execSyncReceived counter s
  | .groupTpdoReceived nodeId data => Sys2Proof.Machine.execGroupTpdoReceived nodeId data s
  | .peerTimeout slot => Sys2Proof.Machine.execPeerTimeout slot s
  | .busOffRecovery => Sys2Proof.Machine.execBusOffRecovery s
  | .switchStateGlobal configuration => Sys2Proof.Machine.execSwitchStateGlobal configuration s
  | .switchStateSelective vendor product revision serial => Sys2Proof.Machine.execSwitchStateSelective vendor product revision serial s
  | .configureNodeId id => Sys2Proof.Machine.execConfigureNodeId id s
  | .configureBitTiming selector index => Sys2Proof.Machine.execConfigureBitTiming selector index s
  | .activateBitTiming delayMs => Sys2Proof.Machine.execActivateBitTiming delayMs s
  | .storeConfiguration => Sys2Proof.Machine.execStoreConfiguration s
  | .inquireIdentity service => Sys2Proof.Machine.execInquireIdentity service s
  | .getVersion => Sys2Proof.Machine.execGetVersion s
  | .getCapabilities => Sys2Proof.Machine.execGetCapabilities s
  | .negotiateAlgorithms p384 sha384 => Sys2Proof.Machine.execNegotiateAlgorithms p384 sha384 s
  | .getDigests => Sys2Proof.Machine.execGetDigests s
  | .getCertificate slot offset length => Sys2Proof.Machine.execGetCertificate slot offset length s
  | .challenge slot summary nonce => Sys2Proof.Machine.execChallenge slot summary nonce s
  | .getMeasurements index signed nonce => Sys2Proof.Machine.execGetMeasurements index signed nonce s
  | .unsupportedSpdmRequest code => Sys2Proof.Machine.execUnsupportedSpdmRequest code s
  | .linkUp speed flit => Sys2Proof.Machine.execLinkUp speed flit s
  | .canErrorPassive entered => Sys2Proof.Machine.execCanErrorPassive entered s
  | .canReceiveOverrun => Sys2Proof.Machine.execCanReceiveOverrun s
  | .canBusOff => Sys2Proof.Machine.execCanBusOff s
  | .emcyInhibitExpiry => Sys2Proof.Machine.execEmcyInhibitExpiry s

end Sys2Proof.Machine
end

