-- ==== Sys2Proof/Machine/Step.lean ====
section
/-! DEFINITION. One step: the command at the front of the queue, or, where none waits, one tick of CK_TICK. -/

namespace Sys2Proof.Machine

/-- Take the command at the front and run it with the queue's rest. With nothing waiting, one µs passes (DESIGN CHOICE,
the log's entry on the tick). -/
def step (s : State) : Host.Outcome State Fault Refusal :=
  match s.pending with
  | [] => .next (idle s)
  | c :: rest => exec c { s with pending := rest }

/-- Put the command that a word spells at the front of the queue. No row of the table has bits, so none is spelt. -/
def State.withFetchWord (s : State) (_nbits _w : Nat) : State := s

end Sys2Proof.Machine
end

