-- ==== Sys2Proof/Machine/RegRead.lean ====
section
/-! DEFINITION. What the registers behind the BARs read as (00_scope.md, R4, R10, R11; 10_host_queues.md, R399, R400,
R409 to R415, R447 to R450; 14, R598; the unit blocks of 03, R143; 06, R287; 09, R390; 12, R530; 13, R579). A read
changes nothing but by the latches of RSL_LOW_READ and LATCHED_HIGH_READ; the table of commands lists no other read. -/

namespace Sys2Proof.Machine

/-- The 32-bit word at an offset of a layout's bytes; past its end the layout is reserved. -/
def wordAt (b : Bytes) (o : Nat) : Nat := field b (o / 4 * 4) 4

/-! ## Queue control blocks and queue pages -/

/-- STATE of QSTAT (R411). -/
def QState.code : QState → Nat
  | .absent => 0
  | .disabled => 1
  | .active => 2
  | .draining => 3
  | .error => 4

/-- Taking is paused because 256 jobs of the queue are not final (R411, R425). -/
def jobLimit (s : State) (q : Nat) : Bool := decide (256 ≤ (jobsOn s q).length)

/-- QSTAT (R411). -/
def qstat (s : State) (q : Nat) : Nat :=
  let k := getQ s q
  k.state.code + b2n k.stall * 2 ^ 3 + b2n (jobLimit s q) * 2 ^ 4 + k.errCause.toNat * 2 ^ 8 + k.cfgCause.toNat * 2 ^ 12 +
    outstanding s q % 2 ^ 16 * 2 ^ 16

/-- Counters of a block from an offset on: 64-bit ones, then 32-bit ones, in the order of the overflow register. -/
def counterBytes (s : State) (b : CounterBlock) : Bytes :=
  let (wide, narrow, events) := blockShape b
  let low := (List.range wide).flatMap (fun i => natLe 8 (counterVal s b i))
  let mid := (List.range narrow).flatMap (fun i => natLe 4 (counterVal s b (wide + i)))
  let gap := match b with
    | .canopy _ => 8
    | _ => 4 * (narrow % 2)
  low ++ mid ++ List.replicate gap 0 ++ (List.range events).flatMap (fun i => natLe 8 (counterVal s b (wide + narrow + i)))

/-- Overflow register of a block. -/
def ovfOf (s : State) (b : CounterBlock) : Nat := (tblGet {} s.counters (blockKey b)).ovf.toNat

/-- A queue control block as read (R409); that of an ABSENT queue is zero. QCMD is write-only. -/
def queueBlock (s : State) (q : Nat) : Bytes :=
  let k := getQ s q
  let b : CounterBlock := .queue (Fin.ofNat 4097 q)
  if k.state = .absent then []
  else queueFields k ++ natLe 4 k.fetchIndex.toNat ++ natLe 4 k.cqConsSeen.toNat ++ natLe 4 0 ++ natLe 4 (qstat s q) ++
    natLe 4 k.errIndex.toNat ++ natLe 4 (ovfOf s b) ++ counterBytes s b

/-- A queue page as read (R415): DOORBELL, QCMD and the push window are write-only. -/
def queuePage (s : State) (q : Nat) : Bytes :=
  let k := getQ s q
  if k.state = .absent then []
  else natLe 8 0 ++ natLe 4 (qstat s q) ++ natLe 4 k.sqHead.toNat ++ natLe 4 k.errIndex.toNat

/-! ## Unit blocks -/

/-- Active scan tasks of the subchannels that a quay serves (R143). -/
def activeScans (s : State) (q : Nat) : Nat :=
  (s.scans.filter (fun e => e.2.active && (servedBy s q).contains e.2.sub)).length

/-- Copies of tables with entries in a bank (R287). -/
def copiesIn (s : State) (b : Nat) : Nat :=
  ((s.canopy.tables.flatMap (fun e => e.2.home :: e.2.mirror.toList)).filter (fun p => decide (p / 32768 = b))).length

/-- Valid entries of a bank (R287). -/
def entriesUsed (s : State) (b : Nat) : Nat :=
  (s.canopy.entries.filter (fun e => decide (e.1 / 32768 = b) && e.2.valid)).length

/-- The status register of a unit block (R143, R287, R390, R530, R579). -/
def unitStatus (s : State) : CounterBlock → Nat
  | .quay q => ((tblGet {} s.quays q.val).state.toNat) + activeScans s q.val * 2 ^ 4 + buddyOf q.val * 2 ^ 16
  | .canopy b => (tblGet {} s.canopy.banks b.val).state.toNat + copiesIn s b.val % 2 ^ 9 * 2 ^ 4 +
      entriesUsed s b.val * 2 ^ 16
  | .pilot => ((List.range 16).map (fun g => b2n (prefetchMode s g) * 2 ^ g)).sum + (s.pilot.tasks.filter (fun e => holdsPlace e.2)).length % 2 ^ 15 * 2 ^ 16
  | .memory n =>
    let x := tblGet {} s.dev.subs n.val
    x.state.toNat + x.tempBand.toNat * 2 ^ 3 + x.failedPackage.toNat * 2 ^ 5
  | .cranes => b2n s.eng.craneGh7 +
      (s.eng.channels.filter (fun e => e.2.state == .running || e.2.state == .stopping)).length * 2
  | .compression e => (tblGet 0 s.eng.compState e.val).toNat
  | .digest => s.eng.contexts.length + s.eng.keys.length * 2 ^ 7 + s.eng.digestState.toNat * 2 ^ 16
  | .queue _ => 0

/-- A unit counter block as read. Its control register is write-only but for FORCE_MODE of PCONTROL (R390). -/
def unitBlock (s : State) (b : CounterBlock) : Bytes :=
  match b with
  | .pilot =>
    natLe 4 (unitStatus s b) ++ natLe 4 (s.pilot.force.toNat * 4) ++ natLe 4 (ovfOf s b) ++ natLe 4 s.pilot.tick.toNat ++
      natLe 4 s.pilot.tune.toNat ++ natLe 4 s.pilot.select.toNat ++ natLe 8 0 ++ s.pilot.record ++ counterBytes s b
  | _ => natLe 4 (unitStatus s b) ++ natLe 4 0 ++ natLe 4 (ovfOf s b) ++ natLe 4 0 ++ counterBytes s b

/-! ## The manager registers, the mailbox, MSI-X and the event sources -/

/-- The manager registers (R400). -/
def managerBytes (s : State) : Bytes :=
  natLe 4 s.sys.mode.code ++
    natLe 4 (s.present.linkWidth.toNat % 32 + s.pcie.speed.val * 2 ^ 5 + b2n s.pcie.flit * 2 ^ 8) ++
    natLe 8 s.sys.time.toNat ++ natLe 8 s.pcie.apertureBase.toNat ++ natLe 4 (b2n s.pcie.apertureRefused)

/-- A word of the mailbox (R598). -/
def mailboxWord (m : Mailbox) (o : Nat) : Nat :=
  if o < 0x40 then
    wordAt (natLe 4 0 ++ natLe 2 m.state.toNat ++ natLe 2 m.seq.toNat ++ natLe 2 m.index.toNat ++ natLe 2 m.sub.toNat ++
      natLe 4 m.length.toNat ++ natLe 4 m.offset.toNat ++ natLe 4 (if m.state = 3 then m.abort.toNat else 0)) o
  else field ((List.range 4).map (fun i => tblGet 0 m.data (o - 0x40 + i))) 0 4

/-- A word of the MSI-X table (R447). -/
def msixWord (s : State) (o : Nat) : Nat :=
  let e := tblGet {} s.pcie.msix (o / 16)
  wordAt (natLe 8 e.addr.toNat ++ natLe 4 e.data.toNat ++ natLe 4 (b2n e.masked)) (o % 16)

/-- A word of a table of bits, bit `n` in word n / 32. -/
def bitWord (t : Tbl Bool) (w : Nat) : Nat :=
  ((List.range 32).map (fun i => b2n (tblGet false t (32 * w + i)) * 2 ^ i)).sum

/-- A word of BAR0 that a read may reach (R399): anything not assigned reads as zero (R11). -/
def bar0Word (s : State) (o : Nat) : Nat :=
  if o < 0x1000 then wordAt (managerBytes s) o
  else if o < 0x1100 then wordAt (queueBlock s 4096) (o % 0x1000)
  else if 0x2000 ≤ o ∧ o < 0x3000 then wordAt (queuePage s 4096) (o % 0x1000)
  else if 0x10000 ≤ o ∧ o < 0x20000 then mailboxWord s.dict.mailbox (o % 0x10000)
  else if 0x20000 ≤ o ∧ o < 0x28000 then msixWord s (o % 0x8000)
  else if 0x28000 ≤ o ∧ o < 0x28100 then bitWord s.pcie.msixPending (o % 0x100 / 4)
  else if 0x30000 ≤ o ∧ o < 0x30100 then bitWord s.pcie.esPending (o % 0x100 / 4)
  else if 0x31000 ≤ o ∧ o < 0x33000 then (tblGet 0 s.pcie.esSteer ((o - 0x31000) / 4)).toNat
  else if 0x100000 ≤ o ∧ o < 0x200000 then wordAt (queueBlock s (o % 0x100000 / 0x100)) (o % 0x100)
  else match unitBlockAt o with
    | some (b, off) => wordAt (unitBlock s b) off
    | none => 0

/-- A read of BAR0, where the function answers it: MODE alone after a second lockstep mismatch (16, R667), the mailbox
and ES_PENDING in HOLD (01, R27, R30). -/
def readBar0 (s : State) (o : Nat) : Option (BitVec 32) :=
  let reach := s.pcie.linkUp && !s.pcie.d3hot
  let open_ :=
    if s.sys.holdDead then reach && decide (o / 4 = 0)
    else if 0x10000 ≤ o ∧ o < 0x20000 then mailboxOpen s
    else if 0x30000 ≤ o ∧ o < 0x30100 then pendingOpen s
    else barOpen s
  if open_ then some (BitVec.ofNat 32 (bar0Word s o)) else none

/-- The fields of a berth page ahead of its queue pages (R414). -/
def berthPage (s : State) (b : Nat) : Bytes :=
  let x := getB s b
  natLe 1 x.state.code ++ natLe 3 s.sys.mode.code ++ natLe 4 x.queueCount.toNat ++
    natLe 4 ((List.range 3).map (fun i => b2n (tblGet false s.pcie.esPending (3 * b + i)) * 2 ^ i)).sum ++
    natLe 4 x.queueErrors.toNat

/-- A word of BAR2: the page of a berth that does not exist reads as zero (R414). -/
def bar2Word (s : State) (o : Nat) : Nat :=
  let b := o / 0x10000
  let x := getB s b
  let p := o % 0x10000
  if 512 ≤ b ∨ x.state = .absent then 0
  else if p < 0x8000 then wordAt (berthPage s b) p
  else if p / 0x1000 - 8 < x.queueCount.toNat then wordAt (queuePage s (8 * b + (p / 0x1000 - 8))) (p % 0x1000)
  else 0

/-- A read of BAR2. -/
def readBar2 (s : State) (o : Nat) : Option (BitVec 32) :=
  if barOpen s then some (BitVec.ofNat 32 (bar2Word s o)) else none

/-! ## DOE Discovery -/

/-- The protocols of the DOE mailbox in the order DOE Discovery lists them (R392, R600): vendor ID and object type. That
Discovery and CMA/SPDM have vendor ID 1 and types 0 and 1 is the base specification's (PRESUMED). -/
def doeProtocols : List (Nat × Nat) := [(1, 0), (1, 1), (Config.pciVendorId.toNat, 1)]

/-- The answer of DOE Discovery to an index: vendor ID, object type, and the next index, 0 after the last. -/
def doeDiscovery (index : Nat) : Option (BitVec 32) :=
  (doeProtocols[index]?).map (fun p =>
    BitVec.ofNat 32 (p.1 + p.2 * 2 ^ 16 + (if index + 1 < doeProtocols.length then index + 1 else 0) * 2 ^ 24))

end Sys2Proof.Machine
end

