-- ==== Sys2Proof/WellFormed.lean ====
section
/-! DEFINITION. Commands as a sender can form them: operands whose parts agree with one another. What depends on the
state of the machine is no matter of form; the meanings look at it. -/

namespace Sys2Proof

/-- A range of host memory whose reads fail is not empty, and one that times out does so at least once (13, R552). -/
def HostFault.wf (f : HostFault) : Bool := decide (f.lo < f.hi) && (f.kind != .timeout || decide (1 ≤ f.times))

/-- Every failing range of a view is well formed. -/
def HostView.wf (h : HostView) : Bool := h.faults.all HostFault.wf

/-- A batch that EXPR code builds has as many values in each column as it has rows (04, R160). -/
def ExprOut.wf (o : ExprOut) : Bool := o.columns.all (fun c => decide (c.length = o.rows.val))

/-- Every batch that a return hands over is well formed. -/
def ExprStep.wf : ExprStep → Bool
  | .enter => true
  | .call _ _ => true
  | .back => true
  | .returned outs => outs.all ExprOut.wf

/-- The register is a g register. -/
def Reg.isG : Reg → Bool
  | .g _ => true
  | .f _ => false

/-- An f register is loaded and stored with 4 or 8 bytes only (07, R292). -/
def Reg.fits (r : Reg) (size : MemSize) : Bool := r.isG || size == .b4 || size == .b8

/-- A conversion between formats has two formats (07, R292, R294). -/
def FpInstr.wf : FpInstr → Bool
  | .convert src dst _ _ => src != dst
  | .arith _ _ _ _ _ => true
  | .fma _ _ _ _ _ => true
  | .sqrt _ _ _ => true
  | .compare _ _ _ _ _ _ => true
  | .toInt _ _ _ _ _ => true
  | .ofInt _ _ _ _ _ => true
  | .moveToF _ _ _ => true
  | .moveToG _ _ _ => true

/-- A node-ID on the CAN bus (14, R590, R606). -/
def clientOk (id : BitVec 8) : Bool := decide (1 ≤ id.toNat) && decide (id.toNat ≤ 127)

/-- The command is one that a sender can form. -/
def Instr.wf (i : Instr) : Bool :=
  match i with
  | .powerInputRise => true
  | .inputBelowReset => true
  | .perstNLow => true
  | .perstNHigh => true
  | .inputBelowWarning _ => true
  | .warningEpisodeEnd _ _ => true
  | .romBankSelect _ _ => true
  | .tisumStart => true
  | .bootWatchdogExpiry => true
  | .dramTrainingComplete outcomes => decide (outcomes.length ≤ 32)
  | .serviceReady _ _ _ => true
  | .harbourmasterLockstepMismatch => true
  | .untoleratedFault _ => true
  | .unitRetirement _ _ => true
  | .thermalLevelChange _ _ _ => true
  | .jtagAttach _ => true
  | .linkDown => true
  | .linkWidthChange width => width == 4 || width == 8
  | .d3hotEntry => true
  | .d0Return => true
  | .configurationRequest _ => true
  | .bar4Access _ length wdata => (wdata.map (fun d => decide (d.length = length.val))).getD true
  | .registerWrite _ offset _ _ => decide (offset % 4 = 0)
  | .rslLowRead _ _ => true
  | .latchedHighRead _ _ => true
  | .clearStats _ _ => true
  | .clearPerf _ _ => true
  | .esPendingClear _ _ _ => true
  | .esSteerWrite _ _ => true
  | .msixUnmask _ => true
  | .taskSel _ => true
  | .doorbell _ => true
  | .pushIndex _ _ => true
  | .pushData _ offset data => decide (1 ≤ data.length) && decide (offset.val + data.length ≤ 256)
  | .enable _ => true
  | .disable _ => true
  | .restart _ => true
  | .queueClearStats _ _ => true
  | .clearTags _ => true
  | .indexReadComplete _ host => host.wf
  | .indexPollExpiry _ => true
  | .holdPollExpiry _ => true
  | .entryTake _ h => h.wf
  | .entryStart _ => true
  | .jobFinal _ => true
  | .intHoldoffExpiry _ => true
  | .progressWrite _ => true
  | .nop _ => true
  | .queueFence _ => true
  | .fenceRelease _ => true
  | .loadImage _ h => h.wf
  | .unloadImage _ => true
  | .slotUnloadComplete _ _ => true
  | .run _ h => h.wf
  | .runPlacement _ => true
  | .cancel _ => true
  | .timeLimitExpiry _ => true
  | .putBlocks _ h => h.wf
  | .getBlocks _ => true
  | .move _ h => h.wf
  | .fill _ => true
  | .compress _ => true
  | .decompress _ h => h.wf
  | .frameComplete _ _ _ _ h => h.wf
  | .digestStart _ h => h.wf
  | .digestContinue _ h => h.wf
  | .digestFinish _ h => h.wf
  | .digestOneshot _ h => h.wf
  | .digestAbort _ => true
  | .digestVerify _ h _ => h.wf
  | .fragmentComplete _ _ h => h.wf
  | .setKeyLoad _ h => h.wf
  | .setKeyErase _ => true
  | .canopyLoadCreate _ h => h.wf
  | .canopyLoadReplace _ h => h.wf
  | .canopyLoadDrop _ => true
  | .tableDropComplete _ _ => true
  | .canopyUpdate _ h => h.wf
  | .patternLoadCreate _ h => h.wf
  | .patternLoadReplace _ h => h.wf
  | .berthFreeze _ => true
  | .freezeComplete _ => true
  | .freezeTimeout _ => true
  | .berthSaveState _ => true
  | .berthSaveGranules _ h => h.wf
  | .berthRestoreState _ h => h.wf
  | .berthRestoreGranules _ h => h.wf
  | .berthThaw _ => true
  | .dirtyLogStart _ => true
  | .dirtyLogStop _ => true
  | .dirtyLogSync _ h => h.wf
  | .fetchBitmap _ => true
  | .dirtyRingReread _ h => h.wf
  | .berthFault _ => true
  | .create _ => true
  | .destroy _ => true
  | .clearFault _ => true
  | .granuleExtentsWrite _ _ data => decide (data.length ≤ 65472)
  | .scanTaskHandoff _ => true
  | .blockRead _ _ => true
  | .headerRead _ => true
  | .blockEvaluate _ _ => true
  | .inflateComplete _ _ => true
  | .longValueRead _ => true
  | .batchEgress _ _ => true
  | .gatherGroup _ _ _ => true
  | .quayFailure _ _ => true
  | .buddyTakeover _ => true
  | .edgeCreditReturn _ _ _ => true
  | .batchArrival _ _ _ _ => true
  | .exprCall _ _ _ _ r => r.wf
  | .exchangeBatch _ _ _ => true
  | .fixedUnitBatch _ _ _ _ => true
  | .emitBatch _ _ => true
  | .search _ _ => true
  | .searchComplete _ => true
  | .patternStep _ _ => true
  | .updateSlotWrite _ _ => true
  | .parityScanRead _ _ _ => true
  | .parityErrorReload _ => true
  | .bankReload _ => true
  | .getw _ _ _ _ => true
  | .donew _ _ _ => true
  | .setev _ _ _ => true
  | .waitcAll _ _ => true
  | .waitcAny _ _ => true
  | .eventPulse _ _ _ => true
  | .delayExpiry _ => true
  | .prefetchFill _ => true
  | .dispatchModeSwitch _ _ => true
  | .coreFailure _ _ => true
  | .groveFailure _ _ => true
  | .runtimeTick _ => true
  | .interrupt _ _ => true
  | .integerAlu _ _ _ _ _ _ => true
  | .multiplyDivide _ _ _ _ _ => true
  | .scalarLoad _ d size isSigned _ _ _ => d.fits size && (d.isG || !isSigned)
  | .scalarStore _ r size _ _ => r.fits size
  | .storeVisible _ => true
  | .accessTimeout _ _ => true
  | .branch _ _ => true
  | .floatingPoint _ i => i.wf
  | .ldx _ _ _ _ => true
  | .stx _ _ _ _ _ => true
  | .fence _ => true
  | .ecall _ => true
  | .ebreak _ => true
  | .eret _ => true
  | .csrr _ _ _ => true
  | .csrw _ _ _ => true
  | .iflush _ => true
  | .wfi _ => true
  | .setvl _ _ _ _ _ => true
  | .vadd _ _ => true
  | .vsub _ _ => true
  | .vmin _ _ => true
  | .vmax _ _ => true
  | .vminu _ _ => true
  | .vmaxu _ _ => true
  | .vmul _ _ => true
  | .vmulh _ _ => true
  | .vmacc _ _ => true
  | .vand _ _ => true
  | .vor _ _ => true
  | .vxor _ _ => true
  | .vsll _ _ => true
  | .vsrl _ _ => true
  | .vsra _ _ => true
  | .vwmul _ _ => true
  | .vwmulu _ _ => true
  | .vwmacc _ _ => true
  | .vwmaccu _ _ => true
  | .vwacc _ _ => true
  | .dot4 _ _ => true
  | .dot2 _ _ => true
  | .dotd _ _ => true
  | .vcmpeq _ _ => true
  | .vcmpne _ _ => true
  | .vcmplt _ _ => true
  | .vcmple _ _ => true
  | .vcmpltu _ _ => true
  | .vcmpleu _ _ => true
  | .vcmpgt _ _ => true
  | .vcmpge _ _ => true
  | .vcmpgtu _ _ => true
  | .vcmpgeu _ _ => true
  | .vfadd _ _ => true
  | .vfsub _ _ => true
  | .vfmul _ _ => true
  | .vfdiv _ _ => true
  | .vfma _ _ => true
  | .vfmin _ _ => true
  | .vfmax _ _ => true
  | .vfcmpeq _ _ => true
  | .vfcmplt _ _ => true
  | .vfcmple _ _ => true
  | .vfcvtfi _ _ => true
  | .vfcvtif _ _ => true
  | .vmv _ _ => true
  | .vmerge _ _ => true
  | .vslidedn _ _ => true
  | .vslideup _ _ => true
  | .vcompress _ _ => true
  | .vext _ _ => true
  | .vredsum _ _ => true
  | .vredmin _ _ => true
  | .vredmax _ _ => true
  | .vredminu _ _ => true
  | .vredmaxu _ _ => true
  | .vfredosum _ _ => true
  | .vld _ _ _ => true
  | .vst _ _ _ => true
  | .vdeal2 _ _ _ => true
  | .vdeal3 _ _ _ => true
  | .vdeal4 _ _ _ => true
  | .pand _ _ _ _ => true
  | .por _ _ _ _ => true
  | .pxor _ _ _ _ => true
  | .pandn _ _ _ _ => true
  | .pnot _ _ _ => true
  | .pcnt _ _ _ => true
  | .pfirst _ _ _ => true
  | .pwhile _ _ _ => true
  | .pld _ _ _ _ => true
  | .pldAdv _ _ _ _ => true
  | .pst _ _ _ => true
  | .pstAdv _ _ _ => true
  | .svOperation _ _ _ _ _ _ => true
  | .scmp _ _ _ _ _ _ => true
  | .sfcmp _ _ _ _ _ _ => true
  | .sshuf _ _ _ _ _ => true
  | .ssel _ _ _ _ _ => true
  | .sld _ _ _ _ _ => true
  | .sst _ _ _ _ => true
  | .coreModeWrite _ _ _ => true
  | .chStart _ _ _ => true
  | .stop _ _ => true
  | .descriptorFetch _ => true
  | .burst _ _ _ h => h.wf
  | .lineRequest _ data h => decide (data.length ≤ 4096) && h.wf
  | .last _ data => decide (data.length ≤ 4096)
  | .descriptorComplete _ => true
  | .granuleFirstTouch _ _ _ => true
  | .zeroFillComplete _ => true
  | .backgroundInitialisation _ => true
  | .ownershipChange _ _ _ => true
  | .refresh _ _ => true
  | .refreshRateRead _ _ => true
  | .temperatureLimit _ _ => true
  | .rowClose _ _ => true
  | .writeQueueDrain _ => true
  | .patrolScrub _ _ => true
  | .caParityAlert _ _ => true
  | .caRetraining _ _ => true
  | .dqsTracking _ => true
  | .zqCalibration _ => true
  | .mbRead _ => true
  | .mbWrite _ => true
  | .doeDictionaryRequest _ => true
  | .usdoRead client _ _ _ => clientOk client
  | .usdoWrite client _ _ _ _ => clientOk client
  | .saveAll _ _ => true
  | .restoreAll _ _ => true
  | .settingsSaveComplete _ => true
  | .errorCountClear _ _ => true
  | .calendarTimeWrite _ _ => true
  | .checkpointIdWrite _ _ => true
  | .modeRequestMaintenance _ => true
  | .maintenanceEntry => true
  | .modeRequestLeave _ => true
  | .passRequestFull _ _ _ _ => true
  | .passRequestStart _ => true
  | .passRequestAbort _ => true
  | .selfTestSession _ _ segments _ => decide (1 ≤ segments.val)
  | .sessionRetry _ => true
  | .passLate => true
  | .package _ _ data _ => decide (data.length ≤ 65472)
  | .commit _ _ => true
  | .abort _ => true
  | .clear _ _ => true
  | .heartwoodAppend => true
  | .nmtStart => true
  | .nmtStop => true
  | .nmtEnterPreOperational => true
  | .nmtResetCommunication => true
  | .nmtResetNode => true
  | .initialisationDone => true
  | .heartbeat => true
  | .timeReceived ms _ => decide (ms.toNat < 2 ^ 28)
  | .timeProduce => true
  | .syncReceived _ => true
  | .groupTpdoReceived nodeId data => clientOk nodeId && decide (data.length ≤ 64)
  | .peerTimeout _ => true
  | .busOffRecovery => true
  | .switchStateGlobal _ => true
  | .switchStateSelective _ _ _ _ => true
  | .configureNodeId _ => true
  | .configureBitTiming _ _ => true
  | .activateBitTiming _ => true
  | .storeConfiguration => true
  | .inquireIdentity _ => true
  | .getVersion => true
  | .getCapabilities => true
  | .negotiateAlgorithms _ _ => true
  | .getDigests => true
  | .getCertificate _ _ _ => true
  | .challenge _ _ _ => true
  | .getMeasurements _ _ _ => true
  | .unsupportedSpdmRequest _ => true
  | .linkUp speed flit => speed != 0 && speed != 7 && (speed != 6 || flit)
  | .canErrorPassive _ => true
  | .canReceiveOverrun => true
  | .canBusOff => true
  | .emcyInhibitExpiry => true

end Sys2Proof
end

