-- ==== Sys2Proof/Machine/Vunal.lean ====
section
/-! DEFINITION. The instruction words of a Vunal core (07_vunal_cores.md, R292, R300, R304, R305, R312, R321 to R325; 08,
R344, R348): what a word stands for, the words that are reserved, and the execution of the word at a core's pc. -/

namespace Sys2Proof.Machine

/-- What an instruction's step takes from outside the word: the instant as of which its loads are satisfied (08, R338),
and the cycles that Pilot's counters add (09, R390). -/
structure Measured where
  seen : Nat := 0
  held : BitVec 32 := 0
  readyWait : BitVec 32 := 0
  cycles : BitVec 32 := 0
  deriving DecidableEq, Repr

/-! ## Fields -/

/-- A register field of five bits, of four, and a predicate field. -/
def reg5 (w lo : Nat) : Fin 32 := Fin.ofNat 32 (w >>> lo)
def reg4 (w lo : Nat) : Fin 16 := Fin.ofNat 16 (w >>> lo)
def pred3 (w lo : Nat) : Fin 8 := Fin.ofNat 8 (w >>> lo)

/-- The fields of a VR, VX or VI word (R304). -/
def vectorFields (form : VForm) (w : Nat) : VArgs := ⟨form, reg5 w 21, reg5 w 16, reg5 w 11, pred3 w 8⟩

/-- The fields of a VM word (R312). -/
def memoryFields (w : Nat) : VMem := ⟨reg5 w 21, reg5 w 16, reg5 w 11, pred3 w 8, bitOf w 5⟩

/-! ## Long vectors (R305, R312) -/

/-- The integer operations of R305 by FUNCT. -/
def integerFunct (c : Fin 129) (a : VArgs) (funct : Nat) : Option Instr :=
  match funct with
  | 0x00 => some (.vadd c a)
  | 0x01 => some (.vsub c a)
  | 0x02 => some (.vmin c a)
  | 0x03 => some (.vmax c a)
  | 0x04 => some (.vminu c a)
  | 0x05 => some (.vmaxu c a)
  | 0x06 => some (.vmul c a)
  | 0x07 => some (.vmulh c a)
  | 0x08 => some (.vmacc c a)
  | 0x09 => some (.vand c a)
  | 0x0A => some (.vor c a)
  | 0x0B => some (.vxor c a)
  | 0x0C => some (.vsll c a)
  | 0x0D => some (.vsrl c a)
  | 0x0E => some (.vsra c a)
  | 0x10 => some (.vwmul c a)
  | 0x11 => some (.vwmulu c a)
  | 0x12 => some (.vwmacc c a)
  | 0x13 => some (.vwmaccu c a)
  | 0x14 => some (.vwacc c a)
  | 0x18 => some (.dot4 c a)
  | 0x19 => some (.dot2 c a)
  | 0x1A => some (.dotd c a)
  | 0x20 => some (.vcmpeq c a)
  | 0x21 => some (.vcmpne c a)
  | 0x22 => some (.vcmplt c a)
  | 0x23 => some (.vcmple c a)
  | 0x24 => some (.vcmpltu c a)
  | 0x25 => some (.vcmpleu c a)
  | 0x26 => some (.vcmpgt c a)
  | 0x27 => some (.vcmpge c a)
  | 0x28 => some (.vcmpgtu c a)
  | 0x29 => some (.vcmpgeu c a)
  | _ => none

/-- The float operations, movement and reductions of R305 by FUNCT. -/
def otherFunct (c : Fin 129) (a : VArgs) (funct : Nat) : Option Instr :=
  match funct with
  | 0x30 => some (.vfadd c a)
  | 0x31 => some (.vfsub c a)
  | 0x32 => some (.vfmul c a)
  | 0x33 => some (.vfdiv c a)
  | 0x34 => some (.vfma c a)
  | 0x35 => some (.vfmin c a)
  | 0x36 => some (.vfmax c a)
  | 0x37 => some (.vfcmpeq c a)
  | 0x38 => some (.vfcmplt c a)
  | 0x39 => some (.vfcmple c a)
  | 0x3A => some (.vfcvtfi c a)
  | 0x3B => some (.vfcvtif c a)
  | 0x40 => some (.vmv c a)
  | 0x41 => some (.vmerge c a)
  | 0x42 => some (.vslidedn c a)
  | 0x43 => some (.vslideup c a)
  | 0x44 => some (.vcompress c a)
  | 0x45 => some (.vext c a)
  | 0x48 => some (.vredsum c a)
  | 0x49 => some (.vredmin c a)
  | 0x4A => some (.vredmax c a)
  | 0x4B => some (.vredminu c a)
  | 0x4C => some (.vredmaxu c a)
  | 0x4D => some (.vfredosum c a)
  | _ => none

/-- A VR, VX or VI word (R304, R305). The forms and widths of a FUNCT are the instruction's own check. -/
def vectorWord (c : Fin 129) (form : VForm) (w : Nat) : Option Instr :=
  let a := vectorFields form w
  if bitsOf w 0 8 < 0x30 then integerFunct c a (bitsOf w 0 8) else otherFunct c a (bitsOf w 0 8)

/-- SETVL (R300). -/
def setvlWord (c : Fin 129) (w : Nat) : Option Instr :=
  if bitsOf w 0 11 = 0 then some (.setvl c (reg5 w 21) (reg5 w 16) (pred3 w 13) (Fin.ofNat 4 (w >>> 11))) else none

/-- A load of the VM format (R312, R314). -/
def loadWord (c : Fin 129) (m : Measured) (w : Nat) : Option Instr :=
  let a := memoryFields w
  if bitsOf w 0 5 ≠ 0 then none
  else match bitsOf w 6 2 with
    | 0 => some (.vld c a m.seen)
    | 1 => some (.vdeal2 c a m.seen)
    | 2 => some (.vdeal3 c a m.seen)
    | _ => some (.vdeal4 c a m.seen)

/-- A store of the VM format (R312). -/
def storeWord (c : Fin 129) (w : Nat) : Option Instr :=
  if bitsOf w 0 5 = 0 then some (.vst c (memoryFields w) (Fin.ofNat 4 (w >>> 6))) else none

/-- A predicate word (R321). -/
def predWord (c : Fin 129) (m : Measured) (w : Nat) : Option Instr :=
  let pd := pred3 w 23
  let ps1 := pred3 w 20
  let ps2 := pred3 w 17
  let gs := reg5 w 12
  if bitsOf w 8 4 ≠ 0 then none
  else match bitsOf w 0 8 with
    | 0x00 => some (.pand c pd ps1 ps2)
    | 0x01 => some (.por c pd ps1 ps2)
    | 0x02 => some (.pxor c pd ps1 ps2)
    | 0x03 => some (.pandn c pd ps1 ps2)
    | 0x04 => some (.pnot c pd ps1)
    | 0x08 => some (.pcnt c gs ps1)
    | 0x09 => some (.pfirst c gs ps1)
    | 0x0A => some (.pwhile c pd gs)
    | 0x10 => some (.pld c pd gs m.seen)
    | 0x11 => some (.pldAdv c pd gs m.seen)
    | 0x12 => some (.pst c pd gs)
    | 0x13 => some (.pstAdv c pd gs)
    | _ => none

/-! ## Short vectors (R323, R324) -/

/-- The operations that short vectors share with R305. -/
def shortOp (funct : Nat) : Option LaneOp :=
  match funct with
  | 0x00 => some .add
  | 0x01 => some .sub
  | 0x02 => some .min
  | 0x03 => some .max
  | 0x04 => some .minu
  | 0x05 => some .maxu
  | 0x06 => some .mul
  | 0x07 => some .mulh
  | 0x08 => some .macc
  | 0x09 => some .and
  | 0x0A => some .or
  | 0x0B => some .xor
  | 0x0C => some .sll
  | 0x0D => some .srl
  | 0x0E => some .sra
  | 0x30 => some .fadd
  | 0x31 => some .fsub
  | 0x32 => some .fmul
  | 0x33 => some .fdiv
  | 0x34 => some .fma
  | 0x35 => some .fmin
  | 0x36 => some .fmax
  | 0x40 => some .mv
  | _ => none

/-- Relation of a compare by its number from 0x20 (R305). -/
def relOf (n : Nat) : Option Rel := [Rel.eq, .ne, .lt, .le, .ltu, .leu, .gt, .ge, .gtu, .geu][n]?

/-- A short vector word (R323). -/
def shortWord (c : Fin 129) (w : Nat) : Option Instr :=
  let sd := reg4 w 22
  let ss1 := reg4 w 18
  let ss2 := reg4 w 14
  let sew : Fin 4 := Fin.ofNat 4 (w >>> 12)
  let funct := bitsOf w 0 8
  if bitsOf w 8 4 ≠ 0 then none
  else if funct = 0x50 then some (.sshuf c sew sd ss1 ss2)
  else if funct = 0x51 then some (.ssel c sew sd ss1 ss2)
  else if 0x20 ≤ funct ∧ funct < 0x2A then (relOf (funct - 0x20)).map (fun r => .scmp c r sew sd ss1 ss2)
  else if 0x37 ≤ funct ∧ funct < 0x3A then [FRel.eq, .lt, .le][funct - 0x37]?.map (fun r => .sfcmp c r sew sd ss1 ss2)
  else (shortOp funct).map (fun op => .svOperation c op sew sd ss1 ss2)

/-- A short vector load or store (R324). -/
def shortMemory (c : Fin 129) (m : Measured) (w : Nat) : Option Instr :=
  let sd := reg4 w 22
  let gs := reg5 w 17
  let offset := BitVec.ofNat 12 (w >>> 5)
  if bitsOf w 0 4 ≠ 0 then none
  else if bitOf w 4 then some (.sst c sd gs offset) else some (.sld c sd gs offset m.seen)

/-! ## Exclusives, FENCE and Pilot (08, R344, R348; R325) -/

/-- LDX and STX (08, R344). -/
def exclusiveWord (c : Fin 129) (w : Nat) : Option Instr :=
  if bitsOf w 2 9 ≠ 0 then none
  else if bitOf w 0 then some (.stx c (reg5 w 21) (reg5 w 16) (reg5 w 11) (bitOf w 1))
  else if bitsOf w 11 5 = 0 then some (.ldx c (reg5 w 21) (reg5 w 16) (bitOf w 1)) else none

/-- A Pilot word: a field that the instruction does not use is zero (R325). -/
def pilotWord (c : Fin 129) (m : Measured) (w : Nat) : Option Instr :=
  let gd := reg5 w 21
  let gs1 := reg5 w 16
  let gs2 := reg5 w 11
  if bitsOf w 8 3 ≠ 0 then none
  else match bitsOf w 0 8 with
    | 1 => if gs1 = 0 ∧ gs2 = 0 then some (.getw c gd m.held m.readyWait) else none
    | 2 => if gd = 0 ∧ gs2 = 0 then some (.donew c gs1 m.cycles) else none
    | 3 => if gd = 0 then some (.setev c gs1 gs2) else none
    | 4 => if gd = 0 ∧ gs2 = 0 then some (.waitcAll c gs1) else none
    | 5 => if gd = 0 ∧ gs2 = 0 then some (.waitcAny c gs1) else none
    | _ => none

/-! ## The scalar base (R292) -/

/-- An instruction of the scalar base on a core, in the class that MAJOR selects. -/
def scalarOf (c : Fin 129) (major : Nat) : Instr → Bool
  | .integerAlu d _ _ _ _ _ => decide (d = c ∧ major ≤ 0x07)
  | .multiplyDivide d _ _ _ _ => decide (d = c ∧ 0x08 ≤ major ∧ major ≤ 0x0B)
  | .scalarLoad d _ _ _ _ _ _ => decide (d = c ∧ 0x0C ≤ major ∧ major ≤ 0x0F)
  | .scalarStore d _ _ _ _ => decide (d = c ∧ 0x0C ≤ major ∧ major ≤ 0x0F)
  | .branch d _ => decide (d = c ∧ 0x10 ≤ major ∧ major ≤ 0x13)
  | .floatingPoint d _ => decide (d = c ∧ 0x16 ≤ major ∧ major ≤ 0x1B)
  | .ecall d => decide (d = c ∧ 0x1C ≤ major ∧ major ≤ 0x1F)
  | .ebreak d => decide (d = c ∧ 0x1C ≤ major ∧ major ≤ 0x1F)
  | .eret d => decide (d = c ∧ 0x1C ≤ major ∧ major ≤ 0x1F)
  | .csrr d _ _ => decide (d = c ∧ 0x1C ≤ major ∧ major ≤ 0x1F)
  | .csrw d _ _ => decide (d = c ∧ 0x1C ≤ major ∧ major ≤ 0x1F)
  | .iflush d => decide (d = c ∧ 0x1C ≤ major ∧ major ≤ 0x1F)
  | .wfi d => decide (d = c ∧ 0x1C ≤ major ∧ major ≤ 0x1F)
  | _ => false

/-- A load with the instant as of which it is satisfied. -/
def withSeen (m : Measured) : Instr → Instr
  | .scalarLoad c d size isSigned base offset _ => .scalarLoad c d size isSigned base offset m.seen
  | i => i

/-- A word of the scalar base. Its formats beside MAJOR are not stated: which instruction of the class the word stands
for, if any, is open (Config.scalarWord). -/
def scalarWord (c : Fin 129) (m : Measured) (w : Nat) : Option Instr :=
  match Config.scalarWord c (BitVec.ofNat 32 w) with
  | some i => if scalarOf c (bitsOf w 26 6) i && i.wf then some (withSeen m i) else none
  | none => none

/-! ## A word -/

/-- The instruction a word stands for; none where the word is reserved (R292). -/
def wordInstr (c : Fin 129) (m : Measured) (word : BitVec 32) : Option Instr :=
  let w := word.toNat
  let major := bitsOf w 26 6
  if w = 0 then none
  else if major = 0x14 then exclusiveWord c w
  else if major = 0x15 then if bitsOf w 0 26 = 0 then some (.fence c) else none
  else if major ≤ 0x1F then scalarWord c m w
  else match major with
    | 0x30 => vectorWord c .r w
    | 0x31 => vectorWord c .x w
    | 0x32 => vectorWord c .i w
    | 0x33 => setvlWord c w
    | 0x34 => loadWord c m w
    | 0x35 => storeWord c w
    | 0x36 => predWord c m w
    | 0x38 => shortWord c w
    | 0x39 => shortMemory c m w
    | 0x3C => pilotWord c m w
    | _ => none

/-- A core executes a word: its instruction, or ILLEGAL_INSTRUCTION (R292). -/
def runWord (c : Fin 129) (m : Measured) (word : BitVec 32) (s : State) : Host.Outcome State Fault Refusal :=
  match wordInstr c m word with
  | some i => exec i s
  | none => .next (coreStep c s (fun _ => illegal c s))

/-- The word that a core fetches: memory at its pc as it was when IFLUSH last ran on it (R295), little-endian. -/
def fetchedWord (c : Fin 129) (s : State) : BitVec 32 :=
  let k := getCore s c.val
  BitVec.ofNat 32 (leNat ((List.range 4).map (fun i => byteAt s k.codeSeen (k.pc.toNat + i))))

/-- A core executes the instruction at its pc (R292, R295). -/
def coreTurn (c : Fin 129) (m : Measured) (s : State) : Host.Outcome State Fault Refusal := runWord c m (fetchedWord c s) s

end Sys2Proof.Machine
end

