-- ==== Sys2Proof/Safety.lean ====
section
/-! DEFINITION. What counts as a safe run, and the words in which the statements speak of states: a core that executes
its instruction, the state with one part put in place of another, what a vector instruction leaves in its destination. -/

namespace Sys2Proof.Machine

/-! ## Safe runs -/

/-- The machine makes `n` steps and meets neither a fault nor a refusal. -/
def SafeRun (n : Nat) (s : State) : Prop := ∃ t, Sys2Proof.core.run n s = .next t

/-! ## Cores -/

/-- Core `c` executes the instruction at its pc: it runs, it does not wait, and the fetch is from a normal region that
is executable at its level and readable with its tag, and meets no poisoned line and no failed subchannel (07, R289; 08,
R334, R336, R350; 12, R501). -/
def coreReady (s : State) (c : Fin 129) : Prop :=
  coreRuns s c = true ∧ (getCore s c.val).waiting = .none ∧
  ∃ r, regionFor (getCore s c.val) (getCore s c.val).pc.toNat 4 = some r ∧ regionDevice r = false ∧
    regionExec r (getCore s c.val).level.toNat = true ∧
    refusal s (coreTag s c.val (getCore s c.val).pc.toNat) false (getCore s c.val).pc.toNat 4 = none ∧
    fetchFails s (getCore s c.val).pc.toNat = false

/-- The core is ready at pipeline or runtime level. -/
def vectorReady (s : State) (c : Fin 129) : Prop := coreReady s c ∧ 1 ≤ (getCore s c.val).level.toNat

/-- The core is ready at runtime level. -/
def runtimeReady (s : State) (c : Fin 129) : Prop := coreReady s c ∧ (getCore s c.val).level = 2

/-- Core `c` owes nothing to memory: its store buffer is empty and no error of a store waits to be raised. -/
def coreQuiet (s : State) (c : Fin 129) : Prop :=
  (getCore s c.val).buffer = [] ∧ (getCore s c.val).pendingError = none

/-- The state with core `c`'s part replaced; everything else is as before. -/
def withCore (c : Fin 129) (k : Core) (s : State) : State := { s with cores := tblSet s.cores c.val k }

/-- The entries that a store of the bytes `v` at `a` puts in core `c`'s buffer: one for each part within an aligned
8-byte piece, in ascending order (08, R342). -/
def buffered (s : State) (c : Fin 129) (a : Nat) (v : Bytes) : List BufferedStore :=
  (storePieces (v.length + 1) a v).map (fun p => ⟨p.1, p.2, coreTag s c.val p.1, false⟩)

/-- The buffer of a core has room for `n` entries more (08, R339). -/
def hasRoom (k : Core) (n : Nat) : Prop := entryCount k.buffer + n ≤ 32

/-- What a core's registers are after an instruction that only writes vector registers: the elements chosen by `on`
hold `val`, every other element of the group and every register without a chosen element is as before, the pc has
gone on, and nothing else has changed but FCSR and VSTAT.SOV, which the caller says. -/
def lanesWritten (k k' : Core) (vd w : Nat) (on : Nat → Prop) (val : Nat → Nat) : Prop :=
  k' = { k with v := k'.v, fcsr := k'.fcsr, sov := k'.sov, pc := k.pc + 4 } ∧
  (∀ i, on i → getElem k' vd w i = val i) ∧
  (∀ i, ¬ on i → getElem k' vd w i = getElem k vd w i) ∧
  (∀ r, (∀ i, on i → r ≠ vd + i * w / 512) → tblGet 0 k'.v r = tblGet 0 k.v r)

/-- Element `i` is active: below VL, with its governing bit 1 (07, R301, R303). -/
def isActive (k : Core) (pg : Fin 8) (i : Nat) : Prop := i < k.vl.toNat ∧ (getP k pg).getLsbD i = true

/-- A long vector instruction that is ready and legal (`ok`) completes: the lanes `on` of the group at `vd` hold `val`,
FCSR is `flags`, and VSTAT.SOV is set besides where `sov` holds. -/
def lanesAnswer (s : State) (c : Fin 129) (i : Instr) (ok : Bool) (vd w : Nat) (on : Nat → Prop) (val : Nat → Nat)
    (flags : BitVec 8) (sov : Prop) : Prop :=
  vectorReady s c → ok = true → ∃ k', exec i s = .next (withCore c k' s) ∧
    lanesWritten (getCore s c.val) k' vd w on val ∧ k'.fcsr = flags ∧
    (k'.sov = true ↔ (getCore s c.val).sov = true ∨ sov)

/-- An exact sum that 128 bits do not hold (07, R311). -/
def outOf128 (z : Int) : Prop := z < -2 ^ 127 ∨ 2 ^ 127 - 1 < z

/-- An instruction that computes each active lane from its operands a and b and the destination's old element by `f`,
defined for the forms `fs` and the codes of EW up to `hi`; `z` is the sum that may leave 128 bits (07, R301, R303,
R305, R311). -/
def laneInstr (s : State) (c : Fin 129) (a : VArgs) (i : Instr) (fs : List VForm) (hi : Nat)
    (f : (w x y d : Nat) → Nat) (z : Option (Int → Int → Int)) : Prop :=
  let k := getCore s c.val
  let w := elemBits k
  lanesAnswer s c i (lanewiseOk fs 0 hi a k) a.vd.val w (isActive k a.pg)
    (fun j => f w (getElem k a.vs1.val w j) (operandB k a w j) (getElem k a.vd.val w j)) k.fcsr
    (∃ g, z = some g ∧ w = 128 ∧ ∃ j, isActive k a.pg j ∧
      outOf128 (g (signed w (getElem k a.vs1.val w j)) (signed w (operandB k a w j))))

/-- The same with a destination of twice the element width (07, R306, R310). `two` says whether there is an operand b. -/
def wideInstr (s : State) (c : Fin 129) (a : VArgs) (i : Instr) (fs : List VForm) (two : Bool)
    (f : (w x y d : Nat) → Nat) (sov : (w x d : Nat) → Prop) : Prop :=
  let k := getCore s c.val
  let w := elemBits k
  lanesAnswer s c i (apartOk fs 0 3 (wideRegs k) two a k) a.vd.val (2 * w) (isActive k a.pg)
    (fun j => f w (getElem k a.vs1.val w j) (if two then operandB k a w j else 0) (getElem k a.vd.val (2 * w) j)) k.fcsr
    (∃ j, isActive k a.pg j ∧ sov w (getElem k a.vs1.val w j) (getElem k a.vd.val (2 * w) j))

/-- What a core's registers are after a compare: of predicate `pd` the bits chosen by `on` hold `val`, every other bit
and register is as before but FCSR, and the pc has gone on. -/
def bitsWritten (k k' : Core) (pd : Nat) (on val : Nat → Prop) : Prop :=
  k' = { k with p := k'.p, fcsr := k'.fcsr, pc := k.pc + 4 } ∧
  (∀ i, i < 512 → on i → ((tblGet 0 k'.p pd).getLsbD i = true ↔ val i)) ∧
  (∀ i, ¬ on i → (tblGet 0 k'.p pd).getLsbD i = (tblGet 0 k.p pd).getLsbD i) ∧
  (∀ r, r ≠ pd → tblGet 0 k'.p r = tblGet 0 k.p r)

/-- An integer compare that writes the relation `r` of its operands (07, R305). -/
def compareInstr (s : State) (c : Fin 129) (a : VArgs) (i : Instr) (r : (w x y : Nat) → Prop) : Prop :=
  let k := getCore s c.val
  let w := elemBits k
  vectorReady s c → compareOk [.r, .x, .i] 0 4 a k = true →
  ∃ k', exec i s = .next (withCore c k' s) ∧ k'.fcsr = k.fcsr ∧
    bitsWritten k k' a.vd.val (isActive k a.pg) (fun j => r w (getElem k a.vs1.val w j) (operandB k a w j))

/-- A quiet float compare that writes a relation of its operands and accumulates its flags (07, R305). -/
def floatCompareInstr (s : State) (c : Fin 129) (a : VArgs) (i : Instr) (r : FRel) : Prop :=
  let k := getCore s c.val
  let w := elemBits k
  let f := fun j => fcompare (fmtOf w) r true (getElem k a.vs1.val w j) (operandB k a w j)
  vectorReady s c → compareOk [.r, .x] 2 3 a k = true →
  ∃ k', exec i s = .next (withCore c k' s) ∧
    k'.fcsr = (activeElems k a.pg).foldl (fun z j => flagsInto z (f j).2) k.fcsr ∧
    bitsWritten k k' a.vd.val (isActive k a.pg) (fun j => (f j).1 = true)

/-- A floating-point lane instruction: each active lane holds `f` of its operands, and FCSR gathers `fl` of each. -/
def floatLaneInstr (s : State) (c : Fin 129) (a : VArgs) (i : Instr) (ok : Bool) (f : (x y d : Nat) → Nat)
    (fl : (x y d : Nat) → FFlags) : Prop :=
  let k := getCore s c.val
  let w := elemBits k
  let at_ {α : Type} (g : Nat → Nat → Nat → α) (j : Nat) : α :=
    g (getElem k a.vs1.val w j) (operandB k a w j) (getElem k a.vd.val w j)
  lanesAnswer s c i ok a.vd.val w (isActive k a.pg) (fun j => at_ f j % 2 ^ w)
    ((activeElems k a.pg).foldl (fun z j => flagsInto z (at_ fl j)) k.fcsr) False

/-! ## Exceptions -/

/-- Core `c` and its state as an exception leaves them (07, R328): the cause, the level, the pc and the faulting
address recorded, the core at runtime level at the handler, its reservation lost. -/
def trapped (s : State) (c : Fin 129) (cause : Nat) (addr : Word) : State :=
  let k := getCore s c.val
  withCore c { k with
    excCause := BitVec.ofNat 8 cause, excLevel := k.level, excElement := 0, excPc := k.pc, excAddr := addr, level := 2,
    pc := Config.runtimeEntry, reservation := none, waiting := .none } s

/-- The instruction takes an exception of that cause and has no other effect, on a core that owes nothing to memory;
where pipeline-level code of a RUN job raised it, the job ends FAILED besides, with the code of R330 and the offset of
the pc in the image's code as position; where a user function raised it, with STAGE(USER) at the row it was called for
(04, R155). -/
def takesException (s : State) (c : Fin 129) (i : Instr) (cause : Nat) (addr : Word) : Prop :=
  let k := getCore s c.val
  coreQuiet s c →
    (1 < k.level.toNat ∨ coreJob s c.val = none ∨ 5 < cause → exec i s = .next (trapped s c cause addr)) ∧
    (∀ j r, k.level = 1 → coreJob s c.val = some j → tblFind s.runs j = some r → 1 ≤ cause → cause ≤ 5 →
      exec i s = .next (endFailed j (0x0600 + cause) (k.pc - BitVec.ofNat 64 r.codeBase).toNat
        (trapped s c cause addr))) ∧
    (∀ j, k.level = 0 → coreJob s c.val = some j → 1 ≤ cause → cause ≤ 5 →
      exec i s = .next (endFailed j 0x0311 ((k.user.map (·.row)).getD 0) (trapped s c cause addr)))

/-- The instructions on long vectors that change only registers. -/
def longVectorInstrs (c : Fin 129) (a : VArgs) : List Instr :=
  [.vadd c a, .vsub c a, .vmin c a, .vmax c a, .vminu c a, .vmaxu c a, .vmul c a, .vmulh c a, .vmacc c a, .vand c a,
   .vor c a, .vxor c a, .vsll c a, .vsrl c a, .vsra c a, .vwmul c a, .vwmulu c a, .vwmacc c a, .vwmaccu c a,
   .vwacc c a, .dot4 c a, .dot2 c a, .dotd c a, .vcmpeq c a, .vcmpne c a, .vcmplt c a, .vcmple c a, .vcmpltu c a,
   .vcmpleu c a, .vcmpgt c a, .vcmpge c a, .vcmpgtu c a, .vcmpgeu c a, .vfadd c a, .vfsub c a, .vfmul c a, .vfdiv c a,
   .vfma c a, .vfmin c a, .vfmax c a, .vfcmpeq c a, .vfcmplt c a, .vfcmple c a, .vfcvtfi c a, .vfcvtif c a, .vmv c a,
   .vmerge c a, .vslidedn c a, .vslideup c a, .vcompress c a, .vext c a, .vredsum c a, .vredmin c a, .vredmax c a,
   .vredminu c a, .vredmaxu c a, .vfredosum c a]

/-! ## Tasks -/

/-- The state with one task record replaced. -/
def withTask (t : Nat) (x : Task) (s : State) : State :=
  { s with pilot := { s.pilot with tasks := tblSet s.pilot.tasks t x } }

/-- The task's record as a release leaves it, before its condition is looked at (09, R360, R364): WAITING, with the mask
and mode that the item committed, if it did. -/
def releasedTask (x : Task) (w : Option WaitCommit) : Task :=
  { x with state := .waiting, mask := (w.map (·.mask)).getD x.mask, any := (w.map (·.any)).getD x.any }

/-- The wait condition of a task holds (09, R362). -/
def waitTrue (x : Task) : Prop := if x.any then x.flags &&& x.mask ≠ 0 else x.flags &&& x.mask = x.mask

/-- The wait condition of a task holds, or STOP is set (09, R360, R362, R366). -/
def wakes (x : Task) : Prop := waitTrue x ∨ x.flags.getLsbD 30 = true

/-- The record of a task released with its condition false: with the delay it committed entered where its berth has a
place left, waiting for one otherwise (09, R377, R379, R380). -/
def delayedTask (s : State) (j : Nat) (x : Task) (d : BitVec 24) : Task :=
  if d = 0 then x
  else if delaysHeld (withTask j x s) x.berth < delayAllowance s x.berth then
    { x with expiry := some (s.pilot.tick + d.setWidth 32) }
  else { x with delayWaits := some d }

/-- The record of a task made READY, its age from now (09, R360). -/
def readied (s : State) (x : Task) : Task :=
  { x with state := .ready, readyAt := s.sys.time, readyOrder := s.pilot.order }

/-- The work handle of task `t` with record `x` as R381 of 09 lays it out. -/
def handleBits (t : Nat) (x : Task) (fired : BitVec 32) : BitVec 64 :=
  fired ++ BitVec.ofNat 3 x.priority.val ++ BitVec.ofNat 1 (if x.flow.isSome then 1 else 0) ++
    BitVec.ofNat 12 ((x.flow.map (·.val)).getD 0) ++ BitVec.ofNat 16 t

/-- A core goes on with a work item whose handle is in `gd`; no older value of memory is seen after it (07, R326). -/
def goesOnWith (c : Fin 129) (gd : Fin 32) (i : Item) (s : State) : State :=
  let k := getCore s c.val
  withCore c (next (setG gd i.handle { k with item := some i, waiting := .none, floor := s.dev.now })) s

/-! ## Queues, jobs, messages -/

/-- The state with one queue's record replaced. -/
def withQueue (q : Nat) (k : Queue) (s : State) : State := { s with queues := tblSet s.queues q k }

/-- The state with one job's record replaced. -/
def withJobAs (j : Nat) (x : Job) (s : State) : State := { s with jobs := tblSet s.jobs j x }

/-- The state with one berth's record replaced. -/
def withBerth (b : Nat) (x : Berth) (s : State) : State := { s with berths := tblSet s.berths b x }

/-- The function once the message of vector `v` has been asked for: none in HOLD (01, R30), waiting in D3hot (10, R395),
held back by its mask (10, R447), lost while the link is down (10, R396), otherwise sent. -/
def afterMessage (v : Nat) (s : State) : Pcie :=
  let e := tblGet {} s.pcie.msix v
  if hostActive s = false then s.pcie
  else if s.pcie.d3hot then { s.pcie with msixHeld := s.pcie.msixHeld ++ [v] }
  else if e.masked ∨ s.pcie.functionMask ∨ s.pcie.msixEnable = false then
    { s.pcie with msixPending := tblSet s.pcie.msixPending v true }
  else if s.pcie.linkUp then { s.pcie with msixSent := v :: s.pcie.msixSent } else s.pcie

/-- Host writes of a berth, or of the manager context, go straight to host memory: they are made at all, the link is up,
the function is in D0, and for the berth no dirty log runs and no write waits behind one (11, R484). -/
def writesPass (s : State) (b : Option (Fin 512)) : Prop :=
  hostActive s = true ∧ s.pcie.linkUp = true ∧ s.pcie.d3hot = false ∧
    ∀ x, b = some x → (getB s x.val).dirty.running = false ∧ (getB s x.val).dirty.held = []

end Sys2Proof.Machine
end

