-- ==== Sys2Proof/Certificates/Slice0/Obligations.lean ====
section
/-! DEFINITION. The statements about the module. -/

open Sys2Proof Sys2Proof.Machine

/-- The lane-by-lane integer operations of the long vectors: every active element of vd holds the result, every other
element and register is as before (07, R301, R303, R305, R311). -/
def Obligations.IntegerLanesHoldTheirResults : Prop :=
  ∀ (s : State) (c : Fin 129) (a : VArgs),
    laneInstr s c a (.vadd c a) [.r, .x, .i] 4 (fun w x y _ => (x + y) % 2 ^ w) (some (fun x y => x + y)) ∧
    laneInstr s c a (.vsub c a) [.r, .x] 4 (fun w x y _ => (x + (2 ^ w - y)) % 2 ^ w) (some (fun x y => x - y)) ∧
    laneInstr s c a (.vmin c a) [.r, .x] 4 (fun w x y _ => if signed w y < signed w x then y else x) none ∧
    laneInstr s c a (.vmax c a) [.r, .x] 4 (fun w x y _ => if signed w x < signed w y then y else x) none ∧
    laneInstr s c a (.vminu c a) [.r, .x] 4 (fun _ x y _ => min x y) none ∧
    laneInstr s c a (.vmaxu c a) [.r, .x] 4 (fun _ x y _ => max x y) none ∧
    laneInstr s c a (.vmul c a) [.r, .x] 3 (fun w x y _ => x * y % 2 ^ w) none ∧
    laneInstr s c a (.vmulh c a) [.r, .x] 3 (fun w x y _ => unsigned w (signed w x * signed w y / 2 ^ w)) none ∧
    laneInstr s c a (.vmacc c a) [.r, .x] 3 (fun w x y d => (d + x * y) % 2 ^ w) none ∧
    laneInstr s c a (.vand c a) [.r, .x, .i] 3 (fun _ x y _ => x &&& y) none ∧
    laneInstr s c a (.vor c a) [.r, .x, .i] 3 (fun _ x y _ => x ||| y) none ∧
    laneInstr s c a (.vxor c a) [.r, .x, .i] 3 (fun _ x y _ => x ^^^ y) none ∧
    laneInstr s c a (.vsll c a) [.r, .x, .i] 3 (fun w x y _ => x * 2 ^ (y % w) % 2 ^ w) none ∧
    laneInstr s c a (.vsrl c a) [.r, .x, .i] 3 (fun w x y _ => x / 2 ^ (y % w)) none ∧
    laneInstr s c a (.vsra c a) [.r, .x, .i] 3 (fun w x y _ => unsigned w (signed w x / 2 ^ (y % w))) none

/-- The widening and dot operations: lanes of the wider destination hold the products and sums (07, R303, R306 to
R311). What the model chose: log entry 95. -/
def Obligations.WideLanesHoldTheirResults : Prop :=
  ∀ (s : State) (c : Fin 129) (a : VArgs),
    let k := getCore s c.val
    let never := fun (_ _ _ : Nat) => False
    wideInstr s c a (.vwmul c a) [.r, .x] true (fun w x y _ => unsigned (2 * w) (signed w x * signed w y)) never ∧
    wideInstr s c a (.vwmulu c a) [.r, .x] true (fun _ x y _ => x * y) never ∧
    wideInstr s c a (.vwmacc c a) [.r, .x] true
      (fun w x y d => unsigned (2 * w) (d + signed w x * signed w y)) never ∧
    wideInstr s c a (.vwmaccu c a) [.r, .x] true (fun w x y d => (d + x * y) % 2 ^ (2 * w)) never ∧
    wideInstr s c a (.vwacc c a) [.r] false (fun w x _ d => unsigned (2 * w) (d + signed w x))
      (fun w x d => 2 * w = 128 ∧ outOf128 (signed 128 d + signed w x)) ∧
    lanesAnswer s c (.dot4 c a) (apartOk [.r] 0 0 (groupRegs k) true a k) a.vd.val 32 (fun j => 4 * j < k.vl.toNat)
      (fun j => unsigned 32 (getElem k a.vd.val 32 j + dotSum k a 8 4 j)) k.fcsr False ∧
    lanesAnswer s c (.dot2 c a) (apartOk [.r] 1 1 (wideRegs k) true a k) a.vd.val 64 (fun j => 2 * j < k.vl.toNat)
      (fun j => unsigned 64 (getElem k a.vd.val 64 j + dotSum k a 16 2 j)) k.fcsr False ∧
    lanesAnswer s c (.dotd c a) (apartOk [.r] 3 3 (wideRegs k) true a k) a.vd.val 128 (isActive k a.pg)
      (fun j => unsigned 128 (getElem k a.vd.val 128 j +
        signed 64 (getElem k a.vs1.val 64 j) * signed 64 (getElem k a.src.val 64 j))) k.fcsr
      (∃ j, isActive k a.pg j ∧ outOf128 (signed 128 (getElem k a.vd.val 128 j) +
        signed 64 (getElem k a.vs1.val 64 j) * signed 64 (getElem k a.src.val 64 j)))

/-- The compares of the long vectors: every active bit of pd holds the relation, every other bit is as before (07, R301
to R303, R305). -/
def Obligations.ComparesWriteTheirPredicate : Prop :=
  ∀ (s : State) (c : Fin 129) (a : VArgs),
    compareInstr s c a (.vcmpeq c a) (fun _ x y => x = y) ∧
    compareInstr s c a (.vcmpne c a) (fun _ x y => x ≠ y) ∧
    compareInstr s c a (.vcmplt c a) (fun w x y => signed w x < signed w y) ∧
    compareInstr s c a (.vcmple c a) (fun w x y => signed w x ≤ signed w y) ∧
    compareInstr s c a (.vcmpltu c a) (fun _ x y => x < y) ∧
    compareInstr s c a (.vcmpleu c a) (fun _ x y => x ≤ y) ∧
    compareInstr s c a (.vcmpgt c a) (fun w x y => signed w x > signed w y) ∧
    compareInstr s c a (.vcmpge c a) (fun w x y => signed w x ≥ signed w y) ∧
    compareInstr s c a (.vcmpgtu c a) (fun _ x y => x > y) ∧
    compareInstr s c a (.vcmpgeu c a) (fun _ x y => x ≥ y) ∧
    floatCompareInstr s c a (.vfcmpeq c a) .eq ∧
    floatCompareInstr s c a (.vfcmplt c a) .lt ∧
    floatCompareInstr s c a (.vfcmple c a) .le

/-- Floating-point lanes: every active element holds the IEEE result and FCSR gathers the flags of the active lanes
(07, R301, R303, R305; R109 for the order of VFMIN and VFMAX). What the model chose: log entries 90, 92. -/
def Obligations.FloatLanesHoldTheirResults : Prop :=
  ∀ (s : State) (c : Fin 129) (a : VArgs),
    let k := getCore s c.val
    let fmt := fmtOf (elemBits k)
    let keep := fun (_ _ _ : Nat) => ({} : FFlags)
    let two := lanewiseOk [.r, .x] 2 3 a k
    let one := oneSourceOk 2 3 a k
    floatLaneInstr s c a (.vfadd c a) two (fun x y _ => (fadd fmt .nearest 0 x y false).1)
      (fun x y _ => (fadd fmt .nearest 0 x y false).2) ∧
    floatLaneInstr s c a (.vfsub c a) two (fun x y _ => (fadd fmt .nearest 1 x y true).1)
      (fun x y _ => (fadd fmt .nearest 1 x y true).2) ∧
    floatLaneInstr s c a (.vfmul c a) two (fun x y _ => (fmul fmt .nearest x y).1)
      (fun x y _ => (fmul fmt .nearest x y).2) ∧
    floatLaneInstr s c a (.vfdiv c a) two (fun x y _ => (fdiv fmt .nearest x y).1)
      (fun x y _ => (fdiv fmt .nearest x y).2) ∧
    floatLaneInstr s c a (.vfma c a) two (fun x y d => (ffma fmt .nearest x y d).1)
      (fun x y d => (ffma fmt .nearest x y d).2) ∧
    floatLaneInstr s c a (.vfmin c a) two (fun x y _ => if forderKey fmt y < forderKey fmt x then y else x) keep ∧
    floatLaneInstr s c a (.vfmax c a) two (fun x y _ => if forderKey fmt x < forderKey fmt y then y else x) keep ∧
    floatLaneInstr s c a (.vfcvtfi c a) one (fun x _ _ => (ftoInt fmt .zero true (elemBits k) true x).1)
      (fun x _ _ => (ftoInt fmt .zero true (elemBits k) true x).2) ∧
    floatLaneInstr s c a (.vfcvtif c a) one (fun x _ _ => (fofInt fmt .nearest true (elemBits k) x).1)
      (fun x _ _ => (fofInt fmt .nearest true (elemBits k) x).2)

/-- Moves of the long vectors, and VEXT (07, R301, R303, R305). -/
def Obligations.MovesPlaceTheirElements : Prop :=
  ∀ (s : State) (c : Fin 129) (a : VArgs),
    let k := getCore s c.val
    let w := elemBits k
    let on := isActive k a.pg
    let b := operandB k a w 0
    lanesAnswer s c (.vmv c a)
      (if a.form = .r then oneSourceOk 0 4 a k else widthIn 0 4 k && aligned a.vd (groupRegs k)) a.vd.val w on
      (fun j => if a.form = .r then getElem k a.vs1.val w j else operandB k a w j) k.fcsr False ∧
    lanesAnswer s c (.vmerge c a) (lanewiseOk [.r] 0 4 a k) a.vd.val w (fun j => j < k.vl.toNat)
      (fun j => if (getP k a.pg).getLsbD j then getElem k a.vs1.val w j else getElem k a.src.val w j) k.fcsr False ∧
    lanesAnswer s c (.vslidedn c a) (lanewiseOk [.x, .i] 0 4 a k) a.vd.val w on
      (fun j => if j + b < vlmax k.ew.toNat k.vg.toNat then getElem k a.vs1.val w (j + b) else 0) k.fcsr False ∧
    lanesAnswer s c (.vslideup c a) (lanewiseOk [.x, .i] 0 4 a k) a.vd.val w (fun j => on j ∧ b ≤ j)
      (fun j => getElem k a.vs1.val w (j - b)) k.fcsr False ∧
    lanesAnswer s c (.vcompress c a) (oneSourceOk 0 4 a k) a.vd.val w (fun j => j < (activeElems k a.pg).length)
      (fun j => getElem k a.vs1.val w ((activeElems k a.pg).getD j 0)) k.fcsr False ∧
    (vectorReady s c → formIn [.x] a = true → k.ew.toNat ≤ 4 → aligned a.vs1 (groupRegs k) = true →
      exec (.vext c a) s = .next (withCore c (next (if k.vl = 0 then k else setG a.vd
        (if scalarLane k a.src w < k.vl.toNat then BitVec.ofNat 64 (getElem k a.vs1.val w (scalarLane k a.src w))
          else 0) k)) s))

/-- Reductions: vd[0] holds vs2[0] combined with the active elements of vs1 in element order; with VL 0 nothing is
written (07, R301, R303, R305, R311). -/
def Obligations.ReductionsFoldTheirElements : Prop :=
  ∀ (s : State) (c : Fin 129) (a : VArgs),
    let k := getCore s c.val
    let w := elemBits k
    let on := fun j : Nat => k.vl ≠ 0 ∧ j = 0
    let first := getElem k a.src.val w 0
    let xs := (activeElems k a.pg).map (getElem k a.vs1.val w)
    let total := signed w first + (xs.map (signed w)).sum
    let reduce := fun i (f : Nat → Nat → Nat) =>
      lanesAnswer s c i (reduceOk 0 4 a k) a.vd.val w on (fun _ => xs.foldl f first) k.fcsr False
    let fsum := xs.foldl (fun (r : Nat × FFlags) x =>
      ((fadd (fmtOf w) .nearest 0 r.1 x false).1, r.2.or (fadd (fmtOf w) .nearest 0 r.1 x false).2)) (first, {})
    lanesAnswer s c (.vredsum c a) (reduceOk 0 4 a k) a.vd.val w on (fun _ => unsigned w total) k.fcsr
      (k.vl ≠ 0 ∧ w = 128 ∧ outOf128 total) ∧
    reduce (.vredmin c a) (fun m x => if signed w x < signed w m then x else m) ∧
    reduce (.vredmax c a) (fun m x => if signed w m < signed w x then x else m) ∧
    reduce (.vredminu c a) min ∧
    reduce (.vredmaxu c a) max ∧
    lanesAnswer s c (.vfredosum c a) (reduceOk 2 3 a k) a.vd.val w on (fun _ => fsum.1 % 2 ^ w)
      (if k.vl = 0 then k.fcsr else flagsInto k.fcsr fsum.2) False

/-- Integer instructions of the scalar base: results wrap, 32-bit forms act on bits 31:0 and sign-extend, divisions by
zero have their stated results, g0 takes nothing, and nothing but the destination and the pc changes (07, R292, R293).
A shift by the width or more writes a free value. What the model chose: log entry 88. -/
def Obligations.ScalarIntegerResults : Prop :=
  ∀ (s : State) (c : Fin 129) (d a b : Fin 32) (src : Src),
    let k := getCore s c.val
    let x := getG k a
    let y := srcValue k src
    let z := getG k b
    let x32 := x.setWidth 32
    let y32 := y.setWidth 32
    let alu := fun op word r => exec (.integerAlu c op word d a src) s = .next (withCore c (next (setG d r k)) s)
    let mul := fun op r => exec (.multiplyDivide c op d a b) s = .next (withCore c (next (setG d r k)) s)
    coreReady s c →
      getG k 0 = 0 ∧ setG 0 x k = k ∧
      alu .add false (x + y) ∧ alu .sub false (x - y) ∧ alu .and false (x &&& y) ∧ alu .or false (x ||| y) ∧
      alu .xor false (x ^^^ y) ∧
      (y.toNat < 64 → alu .shl false (x <<< y) ∧ alu .shr false (x >>> y) ∧ alu .sar false (x.sshiftRight' y)) ∧
      (y.toNat < 32 → alu .shl true ((x32 <<< y).signExtend 64) ∧ alu .shr true ((x32 >>> y).signExtend 64) ∧
        alu .sar true ((x32.sshiftRight' y).signExtend 64)) ∧
      alu .add true ((x32 + y32).signExtend 64) ∧ alu .sub true ((x32 - y32).signExtend 64) ∧
      (∀ r : Rel, alu (.set r) false (if relHolds r 64 x.toNat y.toNat then 1 else 0) ∧
        alu (.set r) true (if relHolds r 32 x32.toNat y32.toNat then 1 else 0)) ∧
      (∀ op word, ∃ r, alu op word r) ∧
      mul .low (x * z) ∧
      mul .highSigned (((x.signExtend 128 * z.signExtend 128) >>> 64).setWidth 64) ∧
      mul .highUnsigned (((x.setWidth 128 * z.setWidth 128) >>> 64).setWidth 64) ∧
      (z = 0 → mul .quotSigned (BitVec.allOnes 64) ∧ mul .quotUnsigned (BitVec.allOnes 64) ∧
        mul .remSigned x ∧ mul .remUnsigned x) ∧
      (z ≠ 0 → mul .quotSigned (x.sdiv z) ∧ mul .quotUnsigned (x / z) ∧
        mul .remSigned (x.srem z) ∧ mul .remUnsigned (x % z))

/-- Branches and jumps (07, R292): a compare-and-branch goes on by its offset where the relation holds, a jump writes
the address after it to its link register. Targets are multiples of 4 here; where a register jump to another address
goes is left open. What the model chose: log entry 89. -/
def Obligations.BranchesGoWhereTheySay : Prop :=
  ∀ (s : State) (c : Fin 129) (r : Rel) (d a b : Fin 32) (near : BitVec 23) (far : BitVec 64),
    let k := getCore s c.val
    let there := k.pc + near.signExtend 64
    coreReady s c →
      (relHolds r 64 (getG k a).toNat (getG k b).toNat = true → there.toNat % 4 = 0 →
        exec (.branch c (.cond r a b near)) s = .next (withCore c { k with pc := there } s)) ∧
      (relHolds r 64 (getG k a).toNat (getG k b).toNat = false →
        exec (.branch c (.cond r a b near)) s = .next (withCore c { k with pc := k.pc + 4 } s)) ∧
      (there.toNat % 4 = 0 →
        exec (.branch c (.link d near)) s = .next (withCore c { setG d (k.pc + 4) k with pc := there } s)) ∧
      ((getG k a + far).toNat % 4 = 0 →
        exec (.branch c (.register d a far)) s =
          .next (withCore c { setG d (k.pc + 4) k with pc := getG k a + far } s)) ∧
      (∃ pc, exec (.branch c (.register d a far)) s = .next (withCore c { setG d (k.pc + 4) k with pc := pc } s))

/-- Scalar floating point (07, R292, R294): the result of the IEEE operation in the rounding of FCSR[7:5], a binary32
result with bits 63:32 zero, the flags gathered in FCSR, and nothing else changed. What the model chose: log entries
90, 91, 92. -/
def Obligations.ScalarFloatResults : Prop :=
  ∀ (s : State) (c : Fin 129) (fmt : FFmt) (d a b e : Fin 32) (isSigned wide quiet : Bool) (rel : FRel),
    let k := getCore s c.val
    let r := fcsrRound k.fcsr
    let v := fun n : Fin 32 => (getF k n.val).toNat % 2 ^ fmtBits fmt
    let writes := fun i (res : FRes) => exec (.floatingPoint c i) s = .next (withCore c
      { k with f := tblSet k.f d.val (BitVec.ofNat 64 res.1), fcsr := flagsInto k.fcsr res.2, pc := k.pc + 4 } s)
    let gives := fun i (w : Word) (x : FFlags) => exec (.floatingPoint c i) s = .next (withCore c
      (next (setG d w { k with fcsr := flagsInto k.fcsr x })) s)
    coreReady s c →
      writes (.arith .add fmt d a b) (fadd fmt r 0 (v a) (v b) false) ∧
      writes (.arith .sub fmt d a b) (fadd fmt r 1 (v a) (v b) true) ∧
      writes (.arith .mul fmt d a b) (fmul fmt r (v a) (v b)) ∧
      writes (.arith .div fmt d a b) (fdiv fmt r (v a) (v b)) ∧
      writes (.fma fmt d a b e) (ffma fmt r (v a) (v b) (v e)) ∧
      writes (.sqrt fmt d a) (fsqrt fmt r (v a)) ∧
      writes (.ofInt fmt isSigned wide d a) (fofInt fmt r isSigned (if wide then 64 else 32) (getG k a).toNat) ∧
      (∀ dst, writes (.convert fmt dst d a) (fconvert fmt dst r (v a))) ∧
      gives (.compare rel quiet fmt d a b) (if (fcompare fmt rel quiet (v a) (v b)).1 then 1 else 0)
        (fcompare fmt rel quiet (v a) (v b)).2 ∧
      gives (.toInt fmt isSigned wide d a)
        (widenInt isSigned wide (ftoInt fmt r isSigned (if wide then 64 else 32) false (v a)).1)
        (ftoInt fmt r isSigned (if wide then 64 else 32) false (v a)).2 ∧
      exec (.floatingPoint c (.moveToG .b64 d a)) s = .next (withCore c (next (setG d (getF k a.val) k)) s) ∧
      exec (.floatingPoint c (.moveToF .b64 d a)) s = .next (withCore c (next (setF d.val (getG k a) k)) s) ∧
      exec (.floatingPoint c (.moveToF .b32 d a)) s =
        .next (withCore c (next (setF d.val (((getG k a).setWidth 32).setWidth 64) k)) s) ∧
      (∃ w : Word, w.setWidth 32 = (getF k a.val).setWidth 32 ∧
        exec (.floatingPoint c (.moveToG .b32 d a)) s = .next (withCore c (next (setG d w k)) s))

/-- A load of a core from normal memory (08, R338, R340, R341): bytes that one store of its buffer covers come from
the youngest such store; with no store of its buffer on them they are the bytes of memory at one instant that is not
older than the core has already seen, and memory itself is unchanged. With `seen` at the present they are the present
bytes. What the model chose: log entry 83. -/
def Obligations.LoadsAnswerBytesOfMemory : Prop :=
  ∀ (s t : State) (c : Fin 129) (a n seen : Nat) (d : Bytes),
    normalLoad c a n seen s = (.ok d, t) →
      (∀ i b, (overlapping (getCore s c.val) a n).getLast? = some (i, b) → b.addr ≤ a →
        a + n ≤ b.addr + b.data.length → d = slice b.data (a - b.addr) n ∧ t = s) ∧
      (overlapping (getCore s c.val) a n = [] →
        t.dev.mem = s.dev.mem ∧ t.dev.now = s.dev.now ∧
        (∃ at_, at_ ≤ s.dev.now ∧ d = (List.range n).map (fun i => byteAt s at_ (a + i)) ∧
          (∀ i, i < n → at_ = s.dev.now ∨
            (tblGet 0 (getCore s c.val).bounds (a + i) ≤ at_ ∧ (getCore s c.val).floor ≤ at_ ∧ seen ≤ at_)) ∧
          (∀ i, i < n → tblGet 0 (getCore t c.val).bounds (a + i) = at_)) ∧
        ((∀ e ∈ s.dev.history, e.1 ≤ s.dev.now) → s.dev.now ≤ seen → d = devBytes s a n))

/-- A write that memory accepts (12, R501; 08, R339): exactly the bytes written change, they are visible at one new
instant, and a berth's write lies in granules of that berth that are not held back for its image. What the model
chose: log entry 11. -/
def Obligations.WritesChangeTheirBytesAlone : Prop :=
  ∀ (s t : State) (core : Option Nat) (tag : Option (Fin 512)) (hint : Bool) (a : Nat) (data r : Bytes),
    devWriteBy core tag hint a data s = (.ok r, t) →
      (∀ x, memGet 0 t.dev.mem x = if a ≤ x ∧ x < a + data.length then data.getD (x - a) 0 else memGet 0 s.dev.mem x) ∧
      t.dev.now = s.dev.now + 1 ∧ a + data.length ≤ installedBytes s ∧
      (∀ b, tag = some b → ∀ g ∈ granulesOf a data.length, (ownOf s g).owner = .berth b ∧ (ownOf s g).image = false)

/-- Scalar loads, LDX and FENCE (08, R340, R345, R348; 07, R294): the register takes the loaded bytes extended as the
form says, LDX also sets the reservation on the 64-byte granule, and nothing else of the core changes; a forbidden or
misaligned access raises its exception. What the model chose: log entry 83. -/
def Obligations.ScalarLoadsTakeTheirBytes : Prop :=
  ∀ (s t : State) (c : Fin 129) (r base : Fin 32) (size : MemSize) (isSigned wide : Bool) (offset : BitVec 64) (seen : Nat)
    (d : Bytes),
    let k := getCore s c.val
    let a := scalarAddr k base offset
    let n := sizeBytes size
    let x := (getG k base).toNat
    let m := if wide then 8 else 4
    coreReady s c →
      (accessType k false false a n = .ok false → normalLoad c a n seen s = (.ok d, t) →
        exec (.scalarLoad c (.g r) size isSigned base offset seen) s = .next (withCore c (next (setG r
          (if isSigned then BitVec.ofInt 64 (signed (8 * d.length) (leNat d)) else BitVec.ofNat 64 (leNat d))
          (getCore t c.val))) t) ∧
        exec (.scalarLoad c (.f r) size isSigned base offset seen) s =
          .next (withCore c (next (setF r.val (BitVec.ofNat 64 (leNat d)) (getCore t c.val))) t)) ∧
      (accessType k false false a n = .ok true → coreQuiet s c → deviceLoad c a n s = (.ok d, t) →
        getCore t c.val = k → exec (.scalarLoad c (.g r) size isSigned base offset seen) s =
          .next (withCore c (next (setG r (extendLoad isSigned d) { k with floor := t.dev.now })) t)) ∧
      (∀ e, accessType k false false a n = .error e →
        exec (.scalarLoad c (.g r) size isSigned base offset seen) s = .next (raise c e 0 (BitVec.ofNat 64 a) s)) ∧
      (x % m = 0 → accessType k false true x m = .ok false → normalLoad c x m s.dev.now s = (.ok d, t) →
        exec (.ldx c r base wide) s = .next (withCore c (next (setG r (BitVec.ofNat 64 (leNat d))
          { getCore t c.val with reservation := some (x / 64) })) t)) ∧
      (x % m ≠ 0 → exec (.ldx c r base wide) s = .next (raise c 2 0 (BitVec.ofNat 64 x) s) ∧
        exec (.stx c r base r wide) s = .next (raise c 2 0 (BitVec.ofNat 64 x) s)) ∧
      (coreQuiet s c → exec (.fence c) s = .next (withCore c { k with pc := k.pc + 4, floor := s.dev.now } s))

/-- Scalar stores, STX and the moment a store becomes visible (08, R334, R339, R342, R345): a store waits in the
buffer as its pieces within aligned 8-byte pieces, an STX without the reservation stores nothing and answers 1, every
STX clears the reservation, and STORE_VISIBLE writes the oldest store to memory. What the model chose: log entry 93. -/
def Obligations.ScalarStoresPassTheBuffer : Prop :=
  ∀ (s t : State) (c : Fin 129) (src : Reg) (d base data : Fin 32) (size : MemSize) (wide : Bool) (offset : BitVec 64),
    let k := getCore s c.val
    let a := scalarAddr k base offset
    let v := natLe (sizeBytes size) (storedReg k src).toNat
    let x := (getG k base).toNat
    let m := if wide then 8 else 4
    let w := natLe m (getG k data).toNat
    (coreReady s c → hasRoom k (buffered s c a v).length → accessType k true false a (sizeBytes size) = .ok false →
      exec (.scalarStore c src size base offset) s =
        .next (withCore c { k with buffer := k.buffer ++ buffered s c a v, pc := k.pc + 4 } s) ∧
      ((buffered s c a v).flatMap (fun p => p.data)) = v) ∧
    (coreReady s c → x % m = 0 → k.reservation ≠ some (x / 64) → inDevice k x m = false →
      exec (.stx c d base data wide) s = .next (withCore c (next (setG d 1 { k with reservation := none })) s)) ∧
    (coreReady s c → x % m = 0 → k.reservation ≠ some (x / 64) → inDevice k x m = true →
      exec (.stx c d base data wide) s = .next (raise c 3 0 (getG k base) s)) ∧
    (coreReady s c → x % m = 0 → k.reservation = some (x / 64) → accessType k true true x m = .ok false →
      hasRoom k (buffered s c x w).length →
      exec (.stx c d base data wide) s = .next (withCore c (next (setG d 0
        { k with buffer := k.buffer ++ buffered s c x w, reservation := none })) s)) ∧
    (∀ b rest r, k.buffer = b :: rest → b.joined = false →
      devWriteBy (some c.val) b.tag false b.addr b.data (withCore c { k with buffer := rest } s) = (.ok r, t) →
      ∃ u, exec (.storeVisible c) s = .next u ∧ u.dev = t.dev ∧ (getCore u c.val).buffer = rest) ∧
    (k.buffer = [] → exec (.storeVisible c) s = .next s)

/-- Vector loads and stores (07, R312 to R315, R320): a load whose active elements can all be read sets element i of
group k to field k of record i and touches no other element; a store whose active elements may all be written puts
their bytes in the buffer; ADV advances gs; an access that fails changes no register and raises the exception of its
lowest-numbered element; a deal load without STRUCT_EN, past register 31, or a VST with fields is illegal. What the
model chose: log entry 227. -/
def Obligations.VectorMemoryMovesElements : Prop :=
  ∀ (s t : State) (c : Fin 129) (a : VMem) (seen : Nat) (nf : Fin 4) (l : List (Nat × Nat × Nat)) (f : ElemFault),
    let k := getCore s c.val
    let w := elemBits k
    let load := fun i fields =>
      (aligned a.vd (groupRegs k) = true → (fields = 1 ∨ k.structEn = true ∧ a.vd.val + fields * groupRegs k ≤ 32) →
        (elemLoads c (w / 8) seen (dealList k a fields) [] s = (.ok l, t) →
          exec i s = .next (withCore c (next (advance a fields
            (l.foldl (fun k e => setElem e.2.1 w e.1 e.2.2 k) (getCore t c.val)))) t) ∧
          l.map (fun e => (e.1, e.2.1)) = (dealList k a fields).map (fun e => (e.1, e.2.1)) ∧
          ((∀ e ∈ dealList k a fields, overlapping k e.2.2 (w / 8) = []) → (∀ e ∈ s.dev.history, e.1 ≤ s.dev.now) →
            s.dev.now ≤ seen → l.map (fun e => e.2.2) =
              (dealList k a fields).map (fun e => leNat (devBytes s e.2.2 (w / 8))))) ∧
        (elemLoads c (w / 8) seen (dealList k a fields) [] s = (.error f, t) →
          exec i s = .next (elemFail c f t) ∧ (getCore t c.val).v = k.v ∧ (getCore t c.val).g = k.g)) ∧
      (aligned a.vd (groupRegs k) = false ∨ 1 < fields ∧ (k.structEn = false ∨ 32 < a.vd.val + fields * groupRegs k) →
        exec i s = .next (raise c 1 0 0 s))
    vectorReady s c →
      load (.vld c a seen) 1 ∧ load (.vdeal2 c a seen) 2 ∧ load (.vdeal3 c a seen) 3 ∧ load (.vdeal4 c a seen) 4 ∧
      (∀ i x y, (i, x, y) ∈ dealList k a 3 ↔ ∃ g, g < 3 ∧ isActive k a.pg i ∧ x = a.vd.val + g * groupRegs k ∧
        y = ((getG k a.gs + getG k a.gi).toNat + (i * 3 + g) * (w / 8)) % 2 ^ 64) ∧
      (nf.val ≠ 0 ∨ aligned a.vd (groupRegs k) = false → exec (.vst c a nf) s = .next (raise c 1 0 0 s)) ∧
      (aligned a.vd (groupRegs k) = true → storeFault k a = some f →
        exec (.vst c a 0) s = .next (elemFail c f s)) ∧
      (aligned a.vd (groupRegs k) = true → storeFault k a = none →
        ∃ (u : State) (more gone : List BufferedStore), exec (.vst c a 0) s = .next u ∧
          k.buffer ++ more = gone ++ (getCore u c.val).buffer ∧
          (getCore u c.val).g = (advance a 1 k).g ∧ (getCore u c.val).v = k.v ∧ (getCore u c.val).pc = k.pc + 4 ∧
          (hasRoom k more.length → u = withCore c (next (advance a 1 { k with buffer := k.buffer ++ more })) s) ∧
          more.flatMap (fun b => (List.range b.data.length).zipWith (fun i v => (b.addr + i, v)) b.data) =
            (activeElems k a.pg).flatMap (fun i => (List.range (w / 8)).zipWith
              (fun j v => (((getG k a.gs + getG k a.gi).toNat + i * (w / 8)) % 2 ^ 64 + j) % 2 ^ 64 |> fun x => (x, v))
              (natLe (w / 8) (getElem k a.vd.val w i))))

/-- Predicate operations (07, R301, R302, R321): bits below VL take the result and the rest stay, counts and indices
go to a g register, loads and stores move ⌈VL/8⌉ bytes, and p0 is no destination. That PCNT and PFIRST write 0 at VL 0
is the model's choice (log entry 94). What the model chose: log entry 96. -/
def Obligations.PredicatesAnswerBelowVl : Prop :=
  ∀ (s t : State) (c : Fin 129) (pd p q : Fin 8) (g : Fin 32) (seen : Nat) (d : Bytes),
    let k := getCore s c.val
    let n := (k.vl.toNat + 7) / 8
    let a := (getG k g).toNat
    let out := natLe n ((getP k pd).toNat % 2 ^ k.vl.toNat)
    let writes := fun i (f : Nat → Bool) =>
      (pd ≠ 0 → ∃ k', exec i s = .next (withCore c k' s) ∧ k'.fcsr = k.fcsr ∧
        bitsWritten k k' pd.val (fun j => j < k.vl.toNat) (fun j => f j = true)) ∧
      (pd = 0 → exec i s = .next (raise c 1 0 0 s))
    let bit := fun (x : Fin 8) j => (getP k x).getLsbD j
    vectorReady s c →
      writes (.pand c pd p q) (fun j => bit p j && bit q j) ∧ writes (.por c pd p q) (fun j => bit p j || bit q j) ∧
      writes (.pxor c pd p q) (fun j => bit p j ^^ bit q j) ∧ writes (.pandn c pd p q) (fun j => bit p j && !bit q j) ∧
      writes (.pnot c pd p) (fun j => !bit p j) ∧ writes (.pwhile c pd g) (fun j => decide (j < a)) ∧
      exec (.pcnt c g p) s = .next (withCore c (next (setG g
        (BitVec.ofNat 64 ((List.range k.vl.toNat).filter (bit p)).length) k)) s) ∧
      (∃ i, i ≤ k.vl.toNat ∧ (∀ j, j < i → bit p j = false) ∧ (i < k.vl.toNat → bit p i = true) ∧
        exec (.pfirst c g p) s = .next (withCore c (next (setG g (BitVec.ofNat 64 i) k)) s)) ∧
      (pd ≠ 0 → k.vl ≠ 0 → accessType k false true a n = .ok false → normalLoad c a n seen s = (.ok d, t) →
        ∃ k', exec (.pld c pd g seen) s = .next (withCore c k' t) ∧ k'.fcsr = (getCore t c.val).fcsr ∧
          bitsWritten (getCore t c.val) k' pd.val (fun j => j < k.vl.toNat) (fun j => (leNat d).testBit j = true) ∧
          exec (.pldAdv c pd g seen) s =
            .next (withCore c (setG g (getG k' g + BitVec.ofNat 64 n) k') t)) ∧
      (k.vl ≠ 0 → accessType k true true a n = .ok false → hasRoom k (buffered s c a out).length →
        (buffered s c a out).flatMap (fun b => b.data) = out ∧
        exec (.pst c pd g) s = .next (withCore c { k with buffer := k.buffer ++ buffered s c a out, pc := k.pc + 4 } s) ∧
        exec (.pstAdv c pd g) s = .next (withCore c (next (setG g (getG k g + BitVec.ofNat 64 n)
          { k with buffer := k.buffer ++ buffered s c a out })) s)) ∧
      (k.vl = 0 → pd ≠ 0 → ∀ i ∈ [Instr.pld c pd g seen, .pldAdv c pd g seen, .pst c pd g, .pstAdv c pd g],
        exec i s = .next (withCore c (next k) s))

/-- Short vectors (07, R322 to R324): lane i of sd is the operation on lanes i of the sources, masks for the compares,
bytes chosen for SSHUF, bits chosen for SSEL; the pair of f registers holds the 128 bits and nothing else changes but
FCSR. SLD and SST move 16 bytes. -/
def Obligations.ShortVectorsActOnLanes : Prop :=
  ∀ (s t : State) (c : Fin 129) (op : LaneOp) (r : Rel) (fr : FRel) (sew : Fin 4) (d x y : Fin 16) (g : Fin 32)
    (offset : BitVec 12) (seen : Nat) (data : Bytes),
    let k := getCore s c.val
    let w := 8 * 2 ^ sew.val
    let a := (getG k g + 16 * offset.signExtend 64).toNat
    let lanes := fun i (w : Nat) (fcsr : BitVec 8) (f : Nat → Nat) => ∃ k', exec i s = .next (withCore c k' s) ∧
      k' = { k with f := k'.f, fcsr := fcsr, pc := k.pc + 4 } ∧
      (∀ j, j < 128 / w → shortLane (getS k' d) w j = f j % 2 ^ w) ∧
      (∀ n, n / 2 ≠ d.val → getF k' n = getF k n)
    let la := fun (n : Fin 16) j => shortLane (getS k n) w j
    coreReady s c →
      (shortOk op sew = true → lanes (.svOperation c op sew d x y) w
        ((List.range (128 / w)).foldl (fun z j => flagsInto z (laneResult op w (la x j) (la y j) (la d j)).flags) k.fcsr)
        (fun j => (laneResult op w (la x j) (la y j) (la d j)).value)) ∧
      (shortOk op sew = false → exec (.svOperation c op sew d x y) s = .next (raise c 1 0 0 s)) ∧
      lanes (.scmp c r sew d x y) w k.fcsr (fun j => if relHolds r w (la x j) (la y j) then 2 ^ w - 1 else 0) ∧
      (2 ≤ sew.val → lanes (.sfcmp c fr sew d x y) w
        ((List.range (128 / w)).foldl (fun z j => flagsInto z (fcompare (fmtOf w) fr true (la x j) (la y j)).2) k.fcsr)
        (fun j => if (fcompare (fmtOf w) fr true (la x j) (la y j)).1 then 2 ^ w - 1 else 0)) ∧
      (sew.val < 2 → exec (.sfcmp c fr sew d x y) s = .next (raise c 1 0 0 s)) ∧
      lanes (.sshuf c sew d x y) 8 k.fcsr (fun j => if shortLane (getS k y) 8 j < 16
        then shortLane (getS k x) 8 (shortLane (getS k y) 8 j) else 0) ∧
      lanes (.ssel c sew d x y) 128 k.fcsr (fun _ =>
        ((BitVec.ofNat 128 (getS k x) &&& BitVec.ofNat 128 (getS k d)) |||
          (BitVec.ofNat 128 (getS k y) &&& ~~~BitVec.ofNat 128 (getS k d))).toNat) ∧
      (accessType k false true a 16 = .ok false → normalLoad c a 16 seen s = (.ok data, t) →
        exec (.sld c d g offset seen) s = .next (withCore c (next (setS d (leNat data) (getCore t c.val))) t)) ∧
      (accessType k true true a 16 = .ok false → hasRoom k (buffered s c a (natLe 16 (getS k d))).length →
        exec (.sst c d g offset) s = .next (withCore c
          { k with buffer := k.buffer ++ buffered s c a (natLe 16 (getS k d)), pc := k.pc + 4 } s))

/-- What raises an exception on a core that is ready, and what taking it does (07, R289, R299, R300, R305, R328, R329,
R330; 08, R344); the instruction a word spells runs, and a reserved word raises ILLEGAL_INSTRUCTION (07, R292, R300,
R304, R312, R321, R323 to R325; 08, R344, R348). What the model chose: log entries 77, 84, 217. -/
def Obligations.ExceptionsEnterTheRuntime : Prop :=
  ∀ (s : State) (c : Fin 129) (a : VArgs) (m : VMem) (g h : Fin 32) (r : Reg) (size : MemSize) (sg wide : Bool)
    (offset : BitVec 64) (seen cause : Nat) (number : BitVec 12) (ew p q : Fin 8) (vg : Fin 4) (x y : BitVec 32)
    (u : Measured) (d e f : Fin 16) (off : BitVec 12),
    let k := getCore s c.val
    let at_ := getG k g + offset
    let ex := getG k g
    let word := fun (major : Nat) (l : List (Nat × Nat)) => BitVec.ofNat 32 (major * 2 ^ 26 + (l.map (fun z => z.1 * 2 ^ z.2)).sum)
    let lanes := [(a.vd.val, 21), (a.vs1.val, 16), (a.src.val, 11), (a.pg.val, 8)]
    let memory := [(m.vd.val, 21), (m.gs.val, 16), (m.gi.val, 11), (m.pg.val, 8), (b2n m.adv, 5)]
    (∀ z ∈ [(word 0x30 lanes, Instr.vadd c { a with form := .r }), (word 0x31 ((0x25, 0) :: lanes), .vcmpleu c { a with form := .x }),
        (word 0x32 ((0x09, 0) :: lanes), .vand c { a with form := .i }), (word 0x30 ((0x4D, 0) :: lanes), .vfredosum c { a with form := .r }),
        (word 0x33 [(g.val, 21), (h.val, 16), (ew.val, 13), (vg.val, 11)], .setvl c g h ew vg),
        (word 0x34 memory, .vld c m u.seen), (word 0x34 ((2, 6) :: memory), .vdeal3 c m u.seen), (word 0x35 memory, .vst c m 0),
        (word 0x36 [(p.val, 23), (q.val, 20), (3, 17), (0x03, 0)], .pandn c p q 3),
        (word 0x36 [(p.val, 23), (g.val, 12), (0x11, 0)], .pldAdv c p g u.seen),
        (word 0x38 [(d.val, 22), (e.val, 18), (f.val, 14), (vg.val, 12), (0x50, 0)], .sshuf c vg d e f),
        (word 0x38 [(d.val, 22), (e.val, 18), (f.val, 14), (vg.val, 12), (0x24, 0)], .scmp c .ltu vg d e f),
        (word 0x39 [(d.val, 22), (g.val, 17), (off.toNat, 5)], .sld c d g off u.seen),
        (word 0x39 [(d.val, 22), (g.val, 17), (off.toNat, 5), (1, 4)], .sst c d g off),
        (word 0x3C [(g.val, 21), (1, 0)], .getw c g u.held u.readyWait), (word 0x3C [(g.val, 16), (2, 0)], .donew c g u.cycles),
        (word 0x3C [(g.val, 16), (h.val, 11), (3, 0)], .setev c g h), (word 0x14 [(h.val, 21), (g.val, 16), (b2n wide, 1)], .ldx c h g wide),
        (word 0x14 [(h.val, 21), (g.val, 16), (h.val, 11), (b2n wide, 1), (1, 0)], .stx c h g h wide),
        (0x54000000, .fence c)], runWord c u z.1 s = exec z.2 s) ∧
    (coreReady s c → ∀ z ∈ [0, word 0x20 lanes, word 0x2F lanes, word 0x37 lanes, word 0x3A [], word 0x3F [], word 0x30 ((0x0F, 0) :: lanes),
        word 0x31 ((0x50, 0) :: lanes), word 0x33 [(g.val, 21), (h.val, 16), (ew.val, 13), (1, 10)], word 0x34 ((1, 4) :: memory),
        word 0x35 ((1, 0) :: memory), word 0x36 [(p.val, 23), (1, 11)], word 0x36 [(p.val, 23), (0x14, 0)],
        word 0x38 [(d.val, 22), (1, 8)], word 0x38 [(d.val, 22), (0x10, 0)], word 0x39 [(d.val, 22), (1, 3)], word 0x3C [],
        word 0x3C [(g.val, 16), (1, 11), (2, 0)], word 0x14 [(h.val, 21), (1, 2)], word 0x14 [(h.val, 21), (1, 11)], 0x54000001],
      runWord c u z s = .next (raise c 1 0 0 s)) ∧
    (coreRuns s c = true → k.waiting = .none →
      (∀ r, regionFor k k.pc.toNat 4 = some r → regionDevice r = true ∨ regionExec r k.level.toNat = false) →
      ∀ i ∈ [Instr.ecall c, .fence c, .integerAlu c .add false g g (.reg h)], takesException s c i 3 0) ∧
    (coreReady s c →
      takesException s c (.ebreak c) 5 0 ∧
      takesException s c (.ecall c) (if k.level = 2 then 1 else 6) 0 ∧
      (k.level.toNat < 2 → ∀ i ∈ [Instr.eret c, .iflush c, .wfi c, .getw c g x y, .donew c g x, .setev c g h,
        .waitcAll c g, .waitcAny c g], takesException s c i 1 0) ∧
      (k.level = 0 → ∀ i ∈ longVectorInstrs c a ++ [.setvl c g h ew vg, .vld c m seen, .vdeal2 c m seen,
        .vdeal3 c m seen, .vdeal4 c m seen, .vst c m 0, .pand c 1 2 3, .por c 1 2 3, .pxor c 1 2 3, .pandn c 1 2 3, .pnot c 1 2,
        .pcnt c g 1, .pfirst c g 1, .pwhile c 1 g, .pld c 1 g seen, .pldAdv c 1 g seen, .pst c 1 g, .pstAdv c 1 g],
          takesException s c i 1 0) ∧
      (a.vd.val % 2 ^ k.vg.toNat ≠ 0 → ∀ i ∈ [Instr.vadd c a, .vsub c a, .vmin c a, .vmax c a, .vmul c a, .vmacc c a,
        .vand c a, .vsll c a, .vfadd c a, .vfma c a, .vmerge c a, .vslideup c a], takesException s c i 1 0) ∧
      (a.vd = 0 → ∀ i ∈ [Instr.vcmpeq c a, .vcmpne c a, .vcmplt c a, .vcmple c a, .vcmpltu c a, .vcmpleu c a,
        .vcmpgt c a, .vcmpge c a, .vcmpgtu c a, .vcmpgeu c a, .vfcmpeq c a, .vfcmplt c a, .vfcmple c a],
          takesException s c i 1 0) ∧
      (5 ≤ ew.val → takesException s c (.setvl c g h ew vg) 1 0) ∧
      (number.toNat ∉ [0x000, 0x001, 0x010, 0x011, 0x100, 0x101, 0x102, 0x110] →
        takesException s c (.csrr c g number) 1 0 ∧ takesException s c (.csrw c number g) 1 0) ∧
      (∀ n ∈ [0x100, 0x101, 0x102, 0x110], k.level.toNat < 2 →
        takesException s c (.csrr c g n) 1 0 ∧ takesException s c (.csrw c n g) 1 0) ∧
      (∀ n ∈ [0x010, 0x011], k.level = 0 →
        takesException s c (.csrr c g n) 1 0 ∧ takesException s c (.csrw c n g) 1 0) ∧
      (4 < ex.toNat % 8 ∨ 512 * 2 ^ (ex.toNat / 8 % 4) / (8 * 2 ^ (ex.toNat % 8)) < ex.toNat / 32 % 1024 →
        takesException s c (.csrw c 0x010 g) 1 0) ∧
      (accessType k false false at_.toNat (sizeBytes size) = .error cause →
        takesException s c (.scalarLoad c r size sg g offset seen) cause at_) ∧
      (accessType k true false at_.toNat (sizeBytes size) = .error cause →
        takesException s c (.scalarStore c r size g offset) cause at_) ∧
      (ex.toNat % (if wide then 8 else 4) ≠ 0 →
        takesException s c (.ldx c h g wide) 2 ex ∧ takesException s c (.stx c h g h wide) 2 ex))

/-- The system registers of a core (07, R296, R298, R299, R311, R316, R328): what CSRR reads at the levels that may,
and what CSRW leaves, with read-only fields as they were. That EXC_PC and EXC_ADDR take a write is the model's choice
(log entry 79). What the model chose: log entries 228, 229. -/
def Obligations.SystemRegistersHoldTheirValues : Prop :=
  ∀ (s : State) (c : Fin 129) (gd gs : Fin 32),
    let k := getCore s c.val
    let v := getG k gs
    let reads := fun (n : BitVec 12) l (w : Word) => l ≤ k.level.toNat →
      exec (.csrr c gd n) s = .next (withCore c (next (setG gd w k)) s)
    let writes := fun (n : BitVec 12) l (k' : Core) => l ≤ k.level.toNat →
      exec (.csrw c n gs) s = .next (withCore c (next k') s)
    coreReady s c →
      reads 0x000 0 (k.fcsr.setWidth 64) ∧
      reads 0x001 0 s.sys.cycle ∧
      reads 0x010 1 ((k.vl ++ k.vg ++ k.ew).setWidth 64) ∧
      reads 0x011 1 (if k.sov then 1 else 0) ∧
      reads 0x100 2 ((k.excElement ++ k.excLevel ++ k.excCause).setWidth 64) ∧
      reads 0x101 2 k.excPc ∧
      reads 0x102 2 k.excAddr ∧
      reads 0x110 2 (BitVec.ofNat 64 (c.val * 2 + if k.structEn then 1 else 0)) ∧
      writes 0x000 0 { k with fcsr := v.extractLsb' 0 8 } ∧
      writes 0x001 0 k ∧
      (v.toNat % 8 ≤ 4 → v.toNat / 32 % 1024 ≤ 512 * 2 ^ (v.toNat / 8 % 4) / (8 * 2 ^ (v.toNat % 8)) →
        writes 0x010 1 { k with ew := v.extractLsb' 0 3, vg := v.extractLsb' 3 2, vl := v.extractLsb' 5 10 }) ∧
      writes 0x011 1 { k with sov := k.sov && !(v.getLsbD 0) } ∧
      writes 0x100 2 k ∧
      writes 0x101 2 { k with excPc := v } ∧
      writes 0x102 2 { k with excAddr := v } ∧
      writes 0x110 2 k

/-- The rest of the system class, interrupts, and time-outs of accesses (07, R292, R295, R300, R317, R318, R327, R332;
08, R350, R351; 16, R660). The CAUSE of an interrupt is open. What the model chose: log entries 74, 76, 80, 86, 87,
103, 233. -/
def Obligations.SystemInstructionsAct : Prop :=
  ∀ (s : State) (c w : Fin 129) (gd gs : Fin 32) (ew : Fin 8) (vg : Fin 4) (value : BitVec 64),
    let k := getCore s c.val
    let n := min (getG k gs).toNat (512 * 2 ^ vg.val / (8 * 2 ^ ew.val))
    let interrupted := fun cause => { k with
      excCause := cause, excLevel := k.level, excElement := 0, excPc := k.pc, excAddr := 0, reservation := none,
      waiting := .none, interrupt := false }
    let used := { s with sys := { s.sys with fresh := s.sys.fresh + 1 } }
    let blockOf := fun c : Fin 129 => 0x20000100000 + 0x1000 * c.val
    let marked := { s with dev := { s.dev with failed := setBit s.dev.failed (locate s value.toNat).1 true } }
    (vectorReady s c → ew.val < 5 → exec (.setvl c gd gs ew vg) s = .next (withCore c (next (setG gd (BitVec.ofNat 64 n)
      { k with ew := BitVec.ofNat 3 ew.val, vg := BitVec.ofNat 2 vg.val, vl := BitVec.ofNat 10 n })) s)) ∧
    (runtimeReady s c →
      exec (.eret c) s = .next (withCore c { k with pc := k.excPc, level := k.excLevel } s) ∧
      exec (.iflush c) s = .next (withCore c { k with codeSeen := s.dev.now, pc := k.pc + 4 } s) ∧
      exec (.wfi c) s = .next (withCore c
        { k with waiting := if k.interrupt then .none else .wfi, pc := k.pc + 4 } s)) ∧
    (coreRuns s c = true → coreQuiet s c → ∃ cause,
      exec (.interrupt c false) s = .next (withCore c
        { interrupted cause with level := 2, pc := Config.runtimeEntry } used) ∧
      (k.waiting ≠ .getw ∨ k.slot ≠ none → exec (.interrupt c true) s = exec (.interrupt c false) s) ∧
      exec (.runtimeTick c) s = .next (withCore c { interrupted cause with watchdog := s.sys.time } used)) ∧
    (runtimeReady s 128 → coreQuiet s 128 → accessType (getCore s 128) true false (blockOf c) 8 = .ok true →
      coreTag s 128 (blockOf c) = none → regAnswers s (blockOf c) (.mode c.val) = true →
      let on := if value.getLsbD 0 ∧ s.sys.mode ≠ .boot ∧ s.sys.mode ≠ .maintenance then k.structEn
        else value.getLsbD 0
      let u := withCore c { k with structEn := on } s
      ∃ t, exec (.coreModeWrite 128 c value) s = .next t ∧
        getCore t 128 = { getCore u 128 with floor := s.dev.now, pc := (getCore u 128).pc + 4 } ∧
        (getCore t c.val).structEn = on ∧ { t with cores := s.cores } = s ∧
        (∀ i, i ≠ c.val → i ≠ 128 → getCore t i = getCore s i)) ∧
    (w ≠ 128 → coreReady s w → accessType (getCore s w) true false (blockOf c) 8 = .ok true →
      coreTag s w.val (blockOf c) = none →
      takesException s w (.coreModeWrite w c value) 4 (BitVec.ofNat 64 (blockOf c))) ∧
    (∀ e, coreReady s w → accessType (getCore s w) true false (blockOf c) 8 = .error e →
      takesException s w (.coreModeWrite w c value) e (BitVec.ofNat 64 (blockOf c))) ∧
    (value.toNat < installedBytes s → coreReady marked c → coreQuiet s c → 1 < k.level.toNat →
      exec (.accessTimeout c (some value)) s = .next (trapped marked c 4 value)) ∧
    (∀ b rest, k.buffer = b :: rest → b.joined = false → b.data ≠ [] → b.addr = value.toNat →
      refusal s b.tag true b.addr b.data.length = none →
      exec (.accessTimeout c none) s = .next (withCore c
        { k with buffer := rest, pendingError := k.pendingError.orElse (fun _ => some value) } marked))

/-- GETW (07, R325 to R327; 09, R360, R363, R379, R381, R384): the item held, the item of the prefetch slot, or the
task that the dispatcher chooses, whose consumed flags the handle reports; with none to give, the core waits. What the
model chose: log entries 81, 100. -/
def Obligations.WorkItemsAreHandedOver : Prop :=
  ∀ (s u : State) (c : Fin 129) (gd : Fin 32) (held wait : BitVec 32) (i : Item) (t : Nat),
    let k := getCore s c.val
    let s0 := count .pilot 10 wait.toNat (count .pilot 9 held.toNat s)
    let x := getT u t
    let fired := x.flags &&& (x.mask ||| 0x40000000)
    let asks := (runtimeReady s c ∧ k.item = none) ∨ (coreRuns s c = true ∧ k.waiting = .getw)
    (runtimeReady s c → k.item = some i →
      exec (.getw c gd held wait) s = .next (withCore c (next (setG gd i.handle k)) s)) ∧
    (asks → k.slot = some i → exec (.getw c gd held wait) s = .next (itemBegins i (goesOnWith c gd i (count .pilot 11 1
      (withTask i.task.toNat { getT s0 i.task.toNat with state := .running, lastCore := BitVec.ofNat 8 c.val }
        (withCore c { k with slot := none } s0)))))) ∧
    (asks → k.slot = none → choose (c.val / 8) c.val s0 = (none, u) →
      exec (.getw c gd held wait) s = .next (withCore c { getCore u c.val with waiting := .getw } u)) ∧
    (asks → k.slot = none → choose (c.val / 8) c.val s0 = (some t, u) →
      t < 65536 → ∃ v, exec (.getw c gd held wait) s =
          .next (itemBegins ⟨BitVec.ofNat 16 t, handleBits t x fired⟩ (goesOnWith c gd ⟨BitVec.ofNat 16 t, handleBits t x fired⟩ v)) ∧
        (getT v t).state = .running ∧ (getT v t).flags = x.flags &&& ~~~fired ∧
        ((∀ e ∈ u.pilot.tasks, e.2.delayWaits = none) ∨ (x.expiry = none ∧ x.frozenDelay = none) →
          getT v t = { x with
            state := .running, flags := x.flags &&& ~~~fired, lastCore := BitVec.ofNat 8 c.val, expiry := none,
            delayWaits := none, frozenDelay := none } ∧
          ∀ j, j ≠ t → getT v j = getT u j) ∧
        v.cores = u.cores ∧ v.runs = u.runs ∧ v.jobs = u.jobs) ∧
    (coreRuns s c = true → k.waiting = .getw → k.slot = none → choose (c.val / 8) c.val s = (some t, u) → t < 65536 →
      ∃ v, exec (.interrupt c true) s = .next (takeInterrupt c.val
          (onCore c.val (fun k => { k with level := 2, pc := Config.runtimeEntry }))
          (itemBegins ⟨BitVec.ofNat 16 t, handleBits t x fired⟩ v)) ∧
        getCore v c.val = { getCore u c.val with item := some ⟨BitVec.ofNat 16 t, handleBits t x fired⟩ } ∧
        (getT v t).state = .running ∧ (getT v t).flags = x.flags &&& ~~~fired)

/-- DONEW and WAITC (07, R326, R327; 09, R360, R364, R365, R372, R377, R380): the item is released, its task READY
where its condition holds and WAITING otherwise, with its delay entered or waiting for a place. What the model chose:
log entries 99, 100, 97. -/
def Obligations.WorkItemsAreReleased : Prop :=
  ∀ (s : State) (c : Fin 129) (gs : Fin 32) (cycles : BitVec 32) (i : Item) (any : Bool),
    let k := getCore s c.val
    let v := getG k gs
    let u := itemEnds i s
    let j := i.task.toNat
    let x := releasedTask (getT u j) (getCore u c.val).commit
    let y := delayedTask u j x (((getCore u c.val).commit.map (·.delay)).getD 0)
    let waitc := if any then Instr.waitcAny c gs else .waitcAll c gs
    runtimeReady s c → coreQuiet s c →
      (k.item = some i → i.handle = v → ∃ t, exec (.donew c gs cycles) s = .next t ∧
        getCore t c.val = { getCore u c.val with
          item := none, commit := none, user := none, pc := (getCore u c.val).pc + 4 } ∧
        ((getT u j).doomed = true → getT t j = {}) ∧
        ((getT u j).doomed = false →
          (waitTrue x → getT t j = readied u x) ∧
          (¬ waitTrue x → x.flags.getLsbD 30 = true → getT t j = readied u y) ∧
          (¬ wakes x → getT t j = y)) ∧
        (∀ n, n ≠ j → getT t n = getT u n) ∧
        (∀ b, (getT u j).berth = some b → balanceOf t (getT u j).grove.val b.val =
          balanceOf u (getT u j).grove.val b.val - (cycles.toNat : Int))) ∧
      ((∀ i, k.item = some i → i.handle ≠ v) → takesException s c (.donew c gs cycles) 7 0) ∧
      (v.toNat / 2 ^ 56 = 0 → k.item.isSome → exec waitc s = .next (withCore c (next
        { k with commit := some ⟨v.extractLsb' 0 32, any, v.extractLsb' 32 24⟩ }) s)) ∧
      (v.toNat / 2 ^ 56 = 0 → k.item = none → exec waitc s = .next (withCore c (next k) s)) ∧
      (v.toNat / 2 ^ 56 ≠ 0 → exec waitc s = .next (withCore c (next k) (count .pilot 6 1 s)))

/-- Event pulses (07, R325, R326; 09, R360, R361, R366 to R369, R377, R380): a pulse of the task's berth or of the
device sets the flag once, and a WAITING task whose condition then holds becomes READY; any other pulse is only
counted. Flag 31 is the timer's alone. What the model chose: log entries 98, 232. -/
def Obligations.EventsSetFlags : Prop :=
  ∀ (s t : State) (c : Fin 129) (g h : Fin 32) (task : BitVec 16) (flag : Fin 32) (source : Option (Fin 512)),
    let k := getCore s c.val
    let x := getT s task.toNat
    let set := { x with flags := x.flags ||| (1#32 <<< flag.val) }
    let pulsed := exec (.eventPulse task flag source) s = .next t
    (flag.val = 31 → (pulsed ↔ t = s)) ∧
    (flag.val ≠ 31 → x.state = .free ∨ (∃ b, source = some b ∧ x.berth ≠ some b) → (pulsed ↔ t = count .pilot 6 1 s)) ∧
    (flag.val ≠ 31 → x.state ≠ .free → source = none ∨ source = x.berth →
      (x.flags.getLsbD flag.val = true → (pulsed ↔ t = count .pilot 2 1 s)) ∧
      (x.flags.getLsbD flag.val = false → (x.state ≠ .waiting ∨ ¬ wakes set) →
        (pulsed ↔ t = withTask task.toNat set (count .pilot 1 1 s))) ∧
      (x.flags.getLsbD flag.val = false → x.state = .waiting → wakes set → ∃ t, exec (.eventPulse task flag source) s = .next t ∧
        getT t task.toNat = { set with state := .ready, readyAt := s.sys.time, readyOrder := s.pilot.order } ∧
        (∀ n, n ≠ task.toNat → getT t n = getT s n) ∧ t.cores = s.cores)) ∧
    (runtimeReady s c → coreQuiet s c → (getG k g).toNat % 2 ^ 16 = task.toNat → (getG k h).toNat % 32 = flag.val →
      source = (match k.item with | some i => (getT s i.task.toNat).berth | none => none) →
      ∃ u, exec (.eventPulse task flag source) s = .next u ∧
        exec (.setev c g h) s = .next (withCore c (next (getCore u c.val)) u)) ∧
    (x.expiry = none → exec (.delayExpiry task) s = .next s) ∧
    (∀ e, x.expiry = some e → 0 < (e - s.pilot.tick).toNat → (e - s.pilot.tick).toNat < 2 ^ 31 →
      exec (.delayExpiry task) s = .next s) ∧
    (∀ e o d, x.expiry = some e → o ∈ s.pilot.tasks → o.2.grove = x.grove → o.2.expiry = some d →
      0 < (e - d).toNat → (e - d).toNat < 2 ^ 31 → exec (.delayExpiry task) s = .next s) ∧
    (∀ e, x.expiry = some e → (s.pilot.tick - e).toNat < 2 ^ 31 → x.state ≠ .free →
      (∀ o ∈ s.pilot.tasks, ∀ d, o.2.grove = x.grove → o.2.expiry = some d → d = e ∨ 2 ^ 31 ≤ (e - d).toNat) →
      ∃ t, exec (.delayExpiry task) s = .next t ∧ (getT t task.toNat).flags = x.flags ||| (1#32 <<< 31) ∧
        ((∀ e ∈ s.pilot.tasks, e.2.delayWaits = none) → (getT t task.toNat).expiry = none ∧ ∀ n, n ≠ task.toNat → getT t n = getT s n))

/-- The dispatch choice (09, R359, R371 to R375; 16, R666; 17, R710): a READY task of the grove whose flow is free and
goes to its oldest task at that priority; device tasks first; a berth with a positive balance, and within it the highest
priority. No task of a FROZEN berth is chosen (11, R464, R474). What the model chose: log entry 201. -/
def Obligations.DispatchersChooseByTheRules : Prop :=
  ∀ (s u : State) (g core t : Nat), choose g core s = (some t, u) →
    s.sys.thermal ≠ 3 ∧ hostActive s = true ∧
    ∃ x, (t, x) ∈ s.pilot.tasks ∧ x.state = .ready ∧ x.grove.val = g ∧
      (∀ b, x.berth = some b → (getB s b.val).state ≠ .frozen) ∧
      (∀ f, x.flow = some f → ∀ o ∈ s.pilot.tasks, o.2.flow = some f →
        o.2.state ≠ .running ∧ o.2.state ≠ .prefetched ∧
        (o.2.state = .ready → o.2.grove.val = g → o.2.berth = x.berth → o.2.priority = x.priority →
          x.readyOrder ≤ o.2.readyOrder)) ∧
      (x.berth = none → ∀ o ∈ s.pilot.tasks, o.2.state = .ready → o.2.grove.val = g → o.2.berth = none → o.2.flow = none →
        o.2.priority ≤ x.priority ∧ (o.2.priority = x.priority → x.readyOrder ≤ o.2.readyOrder)) ∧
      (∀ b, x.berth = some b →
        (∀ o ∈ s.pilot.tasks, o.2.state = .ready → o.2.grove.val = g → o.2.flow = none → o.2.berth ≠ none) ∧
        0 < balanceOf u g b.val ∧
        (∀ o ∈ s.pilot.tasks, o.2.state = .ready → o.2.grove.val = g → o.2.berth = some b → o.2.priority ≤ x.priority))

/-- Prefetch slots and the switch of dispatch modes (09, R360, R363, R379, R381 to R383, R390): a grove in PREFETCH
mode fills the empty slot of a core with the choice for it; the mean of what the 256 items of a window were held decides
the mode, those still held as `standing` counts them. FORCE_MODE 1 and 2 override the switching. What the model chose:
log entry 100. -/
def Obligations.PrefetchSlotsAndModes : Prop :=
  ∀ (s u : State) (c : Fin 128) (g : Fin 16) (t : Nat) (standing : BitVec 64),
    let cc : Fin 129 := ⟨c.val, Nat.lt_succ_of_lt c.isLt⟩
    let k := getCore s c.val
    let group := c.val / 8
    let on := s.pilot.force = 2 ∨ (s.pilot.force ≠ 1 ∧ s.pilot.prefetch.getLsbD group = true)
    let x := getT u t
    let fired := x.flags &&& (x.mask ||| 0x40000000)
    let enter := s.pilot.tune.toNat / 2 ^ 8 % 256
    let exit := s.pilot.tune.toNat / 2 ^ 16 % 256
    let exit1 := if exit ≤ enter then enter + 1 else exit
    let window := tblGet [] s.pilot.windows g.val
    let held := ((window.take 256).map (fun e => e.2.getD 0)).sum + standing.toNat
    let switched := fun b : Bool => { s with pilot := { s.pilot with
      windows := tblSet s.pilot.windows g.val (window.drop 256), prefetch := setBit s.pilot.prefetch g.val b } }
    (¬ on ∨ k.slot ≠ none ∨ coreRuns s cc = false → exec (.prefetchFill c) s = .next s) ∧
    (on → k.slot = none → coreRuns s cc = true → choose group c.val s = (none, u) →
      exec (.prefetchFill c) s = .next u) ∧
    (on → k.slot = none → coreRuns s cc = true → choose group c.val s = (some t, u) → t < 65536 →
      ∃ v, exec (.prefetchFill c) s = .next v ∧
        getCore v c.val = { getCore u c.val with slot := some ⟨BitVec.ofNat 16 t, handleBits t x fired⟩ } ∧
        (getT v t).state = .prefetched ∧ (getT v t).flags = x.flags &&& ~~~fired ∧
        ((∀ e ∈ u.pilot.tasks, e.2.delayWaits = none) ∨ (x.expiry = none ∧ x.frozenDelay = none) →
          getT v t = { x with
            state := .prefetched, flags := x.flags &&& ~~~fired, expiry := none, delayWaits := none,
            frozenDelay := none } ∧
          ∀ j, j ≠ t → getT v j = getT u j)) ∧
    (window.length < 256 → exec (.dispatchModeSwitch g standing) s = .next s) ∧
    (256 ≤ window.length →
      (held < enter * 256 * 256 → exec (.dispatchModeSwitch g standing) s = .next (switched true)) ∧
      (exit1 * 256 * 256 < held → exec (.dispatchModeSwitch g standing) s = .next (switched false)) ∧
      (enter * 256 * 256 ≤ held → held ≤ exit1 * 256 * 256 →
        exec (.dispatchModeSwitch g standing) s = .next (switched (s.pilot.prefetch.getLsbD g.val))))

/-- A step with commands waiting is the meaning of the first of them on the state with the rest of the queue. What the
model chose: log entry 2. -/
def Obligations.StepTakesTheFrontCommand : Prop :=
  ∀ (s : State) (c : Instr) (rest : List Instr), s.pending = c :: rest → step s = exec c { s with pending := rest }

/-- A step on an empty queue is one µs (the model's choice, log entry 3): the counters of 00 and 17 that CK_TICK and
CK_CORE drive go on, and in RESET the module leaves for BOOT once the input is in range and PERST_N is high (15, R616). -/
def Obligations.IdleStepIsOneMicrosecond : Prop :=
  ∀ s : State, s.pending = [] →
    (s.sys.mode ≠ .reset → step s = .next { s with
      sys := { s.sys with
        time := s.sys.time + 1, cycle := s.sys.cycle + 2200, upUs := s.sys.upUs + 1,
        calendar := s.sys.calendar.map (· + 1) },
      pilot := { s.pilot with tick := s.pilot.tick + 1 } }) ∧
    (s.sys.mode = .reset → s.sys.inputInRange = false → step s = .next s) ∧
    (s.sys.mode = .reset → s.sys.inputInRange = true → s.sys.perstHigh = false →
      step s = .next { s with sys := { s.sys with upUs := s.sys.upUs + 1 } }) ∧
    (s.sys.mode = .reset → s.sys.inputInRange = true → s.sys.perstHigh = true →
      ∃ t, step s = .next t ∧ t.sys.mode = .boot ∧ t.sys.upUs = s.sys.upUs + 1 ∧ t.mram = s.mram ∧ t.flash = s.flash ∧
        t.log = s.log ∧ t.dev = s.dev ∧ t.cores = s.cores ∧ t.host = s.host)

/-- The block never stops: every step answers a next state, with the command it took gone from the queue and the
others in their order. What the model chose: log entry 1. -/
def Obligations.EveryStepGoesOn : Prop := ∀ s : State, ∃ t, step s = .next t ∧ t.pending = s.pending.tail

/-- Every run is safe, however many steps it makes. What the model chose: log entry 1. -/
def Obligations.EveryRunIsSafe : Prop := ∀ (n : Nat) (s : State), SafeRun n s

/-- Device memory, host memory and the two firmware banks keep their canonical form at every step, no byte of memory
is recorded as written in the future, and no number of a free value is used twice. What the model chose: log entries
5, 11, 12. -/
def Obligations.EveryStepKeepsTheMemories : Prop :=
  ∀ s t : State, step s = .next t → (memoriesWf s → memoriesWf t) ∧ s.sys.fresh ≤ t.sys.fresh

/-- State.reset meets that invariant, and holds what the spec says of RESET: the mode, counters with their OVF bits
(00, R17), the event sources (10, R449), the queues (10, R443), berths (11, R457), ownership (12, R499), crane channels (13, Channel
registers), the mailbox and the status words (14, R596, R598), calendar time (14, R607) and the Manifest registers
(15, R631, R633). What the model chose: log entries 22, 23. -/
def Obligations.ResetLeavesTheSpecValues : Prop :=
  let s := State.reset
  memoriesWf s ∧ s.pending = [] ∧ s.sys.mode = .reset ∧ s.sys.holdCause = 0 ∧ s.sys.modeStatus = 0 ∧ s.sys.time = 0 ∧
  (calendarNow s).getLsbD 63 = true ∧ s.sys.timeSource = 0 ∧
  (∀ b i, counterVal s b i = 0 ∧ (tblGet {} s.counters (blockKey b)).ovf = 0) ∧
  (∀ n, tblGet false s.pcie.esPending n = false ∧ tblGet 0 s.pcie.esSteer n = 0) ∧ s.pcie.apertureBase = 0 ∧
  (∀ b, (getB s b).state = .absent ∧ (getB s b).queueCount = 1 ∧ (getB s b).taskQuota = 64 ∧ (getB s b).shareWeight = 100 ∧
    (getB s b).vectorCount = 1 ∧ (getB s b).digest = List.replicate 48 0 ∧ (getB s b).measurements = []) ∧
  (∀ g, tblGet {} s.dev.own g = { owner := .free, init := false, image := false, filling := false }) ∧
  (getQ s 4096).state = .disabled ∧ (∀ q, q ≠ 4096 → (getQ s q).state = .absent) ∧
  (∀ c, (getCh s c).state = .idle) ∧ s.dict.mailbox.state = 0 ∧ s.dict.storeStatus = 0 ∧ s.dict.errors = [] ∧ s.fw.status = 0 ∧
  (∀ k, manifestReg s k = List.replicate 48 0) ∧ s.manifest.eventCount = 0 ∧ s.manifest.events = []

/-- Counters (00, R13, R15, R16; 03, R143; 10, R410): at its largest value a SATURATE counter stays and an EVENT
counter wraps, and either sets its OVF bit; a clear zeroes the counters of its class with their OVF bits, and a count
in the same cycle comes after it. What the model chose: log entry 26. -/
def Obligations.CountersOverflowAndClear : Prop :=
  ∀ (s t : State) (b : CounterBlock) (q : Fin 4097) (i j n : Nat) (r : Fin 32) (r7 : Fin 7),
    let level := (blockShape b).1 + (blockShape b).2.1
    let top := if i < (blockShape b).1 then 2 ^ 64 - 1 else if i < level then 2 ^ 32 - 1 else 2 ^ 48 - 1
    let v := counterVal s b i + n
    let ovf := fun (s : State) (b : CounterBlock) (i : Nat) => (tblGet {} s.counters (blockKey b)).ovf.getLsbD i
    let cleared := fun c (b : CounterBlock) (which : Nat → Prop) => ∃ t, exec c s = .next t ∧
      (∀ j, (which j → counterVal t b j = 0) ∧ (¬ which j → counterVal t b j = counterVal s b j)) ∧
      (∀ j, (which j → ovf t b j = false) ∧ (¬ which j → ovf t b j = ovf s b j)) ∧
      { t with counters := s.counters } = s ∧
      (∀ k, k ≠ blockKey b → tblGet {} t.counters k = tblGet {} s.counters k)
    let counted := fun c (b : CounterBlock) i => ∃ t, exec c s = .next t ∧ counterVal t b i = 1 ∧ ovf t b i = false
    (0 < n → t = count b i n s →
      (v ≤ top → counterVal t b i = v ∧ ovf t b i = ovf s b i) ∧
      (top < v → i < 32 → ovf t b i = true ∧ counterVal t b i = if i < level then top else v % (top + 1)) ∧
      (top < v → level ≤ i → ∀ e, blockSource b = some e → tblGet false t.pcie.esPending e = true) ∧
      (j ≠ i → counterVal t b j = counterVal s b j)) ∧
    (barOpen s = true →
      cleared (.clearStats b none) b (fun j => j < level) ∧ cleared (.clearPerf b none) b (fun j => level ≤ j) ∧
      cleared (.queueClearStats q none) (.queue q) (fun _ => True) ∧
      (r.val < level → counted (.clearStats b (some r)) b r.val) ∧
      (level ≤ r.val → counted (.clearPerf b (some r)) b r.val) ∧
      counted (.queueClearStats q (some r7)) (.queue q) r7.val) ∧
    (barOpen s = false → ∀ c ∈ [Instr.clearStats b none, .clearPerf b none, .queueClearStats q none],
      exec c s = .next s)

/-- A 32-bit register write through a BAR (00, R4, R10, R11; 09, R390; 10, R399, R400, R409, R414): enabled bytes of
RW fields take the value, ones clear W1C fields, and nothing else changes; and what a register reads as: RO, RW and
W1C fields their value, write-only, reserved and unassigned ones zero. What the model chose: log entries 24, 26, 230,
234, 240. -/
def Obligations.RegisterWritesReachTheirFields : Prop :=
  ∀ (s : State) (v : BitVec 32) (en : BitVec 4) (o q b i : Nat),
    let write := fun sp o en => exec (.registerWrite sp o v en) s
    let k := getQ s q
    let pcie := fun p => Host.Outcome.next { s with pcie := p }
    let queue := fun k => Host.Outcome.next { s with queues := tblSet s.queues q k }
    let berth := fun x => Host.Outcome.next { s with berths := tblSet s.berths b x }
    let y := getB s b
    let reads := fun o (x : Nat) => readBar0 s o = some (BitVec.ofNat 32 x)
    let pages := fun o (x : Nat) => readBar2 s (0x10000 * b + o) = some (BitVec.ofNat 32 x)
    (barOpen s = false → readBar2 s o = none ∧ (s.sys.holdDead = false → readBar0 s 0 = none)) ∧
    (barOpen s = true → s.sys.holdDead = false → reads 0 s.sys.mode.code ∧ reads 8 s.sys.time.toNat ∧
      reads 0xC (s.sys.time.toNat / 2 ^ 32) ∧ reads 0x10 s.pcie.apertureBase.toNat ∧
      reads 0x14 (s.pcie.apertureBase.toNat / 2 ^ 32) ∧ reads 0x18 (b2n s.pcie.apertureRefused) ∧
      (0x1C ≤ o → o < 0x1000 ∨ 0x1100 ≤ o ∧ o < 0x2000 → reads o 0) ∧ reads 0x306004 (s.pilot.force.toNat * 4) ∧
      reads 0x306010 s.pilot.tune.toNat ∧ (i < 64 → reads (0x31000 + 4 * i) (tblGet 0 s.pcie.esSteer i).toNat) ∧
      (q < 4096 → k.state ≠ .absent → reads (0x100000 + 0x100 * q) k.sqBase.toNat ∧
        reads (0x100000 + 0x100 * q + 0x20) k.sqHead.toNat ∧ reads (0x100000 + 0x100 * q + 0x28) k.fetchIndex.toNat ∧
        reads (0x100000 + 0x100 * q + 0x30) 0 ∧ reads (0x100000 + 0x100 * q + 0x38) k.errIndex.toNat ∧
        reads (0x100000 + 0x100 * q + 0x3C) (ovfOf s (.queue (Fin.ofNat 4097 q)))) ∧
      (q < 4096 → k.state = .absent → i < 0x100 → reads (0x100000 + 0x100 * q + i) 0) ∧
      (b < 512 → y.state ≠ .absent → pages 0 (y.state.code + 2 ^ 8 * s.sys.mode.code) ∧ pages 4 y.queueCount.toNat ∧
        pages 0xC y.queueErrors.toNat ∧ (0x10 ≤ o → o < 0x8000 → pages o 0) ∧
        (i < 8 → i < y.queueCount.toNat → (getQ s (8 * b + i)).state ≠ .absent →
          pages (0x8000 + 0x1000 * i + 0xC) (getQ s (8 * b + i)).sqHead.toNat ∧ pages (0x8000 + 0x1000 * i) 0)) ∧
      (b < 512 → y.state = .absent → o < 0x10000 → pages o 0)) ∧
    (barOpen s = true →
      write .bar0 0x10 0xF = pcie { s.pcie with apertureBase := s.pcie.apertureBase.extractLsb' 32 32 ++ v } ∧
      write .bar0 0x14 0xF = pcie { s.pcie with apertureBase := v ++ s.pcie.apertureBase.extractLsb' 0 32 } ∧
      write .bar0 0x18 0xF = pcie { s.pcie with apertureRefused := s.pcie.apertureRefused && !v.getLsbD 0 } ∧
      (∃ p, write .bar0 0x10 en = pcie p ∧ p = { s.pcie with apertureBase := p.apertureBase } ∧
        p.apertureBase.extractLsb' 32 32 = s.pcie.apertureBase.extractLsb' 32 32 ∧
        (i < 4 → p.apertureBase.extractLsb' (8 * i) 8 =
          if en.getLsbD i then v.extractLsb' (8 * i) 8 else s.pcie.apertureBase.extractLsb' (8 * i) 8)) ∧
      write .bar0 0x306004 0xF = .next { s with pilot := { s.pilot with force := v.extractLsb' 2 2 } } ∧
      write .bar0 0x306010 0xF = .next { s with pilot := { s.pilot with tune := v &&& 0x00FFFFFF } } ∧
      (o < 0x10 ∨ (0x1C ≤ o ∧ o < 0x1000) → write .bar0 o en = .next s) ∧
      (q < 4096 → k.state ≠ .disabled → i < 0x28 → write .bar0 (0x100000 + 0x100 * q + i) en = .next s) ∧
      (q < 4096 → k.state = .disabled →
        write .bar0 (0x100000 + 0x100 * q) 0xF = queue { k with sqBase := k.sqBase.extractLsb' 32 32 ++ v } ∧
        write .bar0 (0x100000 + 0x100 * q + 0xC) 0xF = queue { k with cqBase := v ++ k.cqBase.extractLsb' 0 32 } ∧
        write .bar0 (0x100000 + 0x100 * q + 0x10) 0xF = queue { k with indexAddr := k.indexAddr.extractLsb' 32 32 ++ v } ∧
        write .bar0 (0x100000 + 0x100 * q + 0x18) 0xF = queue { k with
          sqOrder := v.extractLsb' 0 8, cqOrder := v.extractLsb' 8 8, vector := v.extractLsb' 16 16 } ∧
        write .bar0 (0x100000 + 0x100 * q + 0x1C) 0xF = queue { k with
          holdoff := v.extractLsb' 0 16, poll := v.extractLsb' 16 16 } ∧
        write .bar0 (0x100000 + 0x100 * q + 0x20) 0xF = queue { k with sqHead := v } ∧
        write .bar0 (0x100000 + 0x100 * q + 0x24) 0xF = queue { k with cqProd := v }) ∧
      (b < 512 → (getB s b).state ≠ .absent →
        write .bar2 (0x10000 * b + 0xC) 0xF = berth { getB s b with
          queueErrors := (getB s b).queueErrors &&& ~~~(v.extractLsb' 0 8) } ∧
        (v.getLsbD 0 = true → write .bar2 (0x10000 * b + 8) 0xF =
          pcie { s.pcie with esPending := tblSet s.pcie.esPending (3 * b) false })))

/-- The high-word latches of the two access paths (00, R19, R20), and the snapshot of a task that a write of TASK_SEL
takes (09, R390). What the model chose: log entry 25. -/
def Obligations.LowReadsLatchHighWords : Prop :=
  ∀ (s : State) (path : AccessPath) (r o : RslRegister) (v value : BitVec 32),
    let held := fun (s : State) p => match p with
      | AccessPath.pcie => s.pcie.latchPcie
      | .harbourmaster => s.pcie.latchHarbour
    let live := match r with
      | .deviceTime => s.sys.time.toNat
      | .counter b n => counterVal s b n.val
    let answers := fun c (x : Nat) l => ∃ t, exec c s = .next t ∧ t.sys.readAnswer = BitVec.ofNat 64 x ∧
      t.sys.readRefused = false ∧ t.sys.retryStatus = false ∧ held t path = l ∧
      (∀ p, p ≠ path → held t p = held s p) ∧
      { t with
        sys := { t.sys with readAnswer := s.sys.readAnswer, readRefused := s.sys.readRefused, retryStatus := s.sys.retryStatus },
        pcie := { t.pcie with latchPcie := s.pcie.latchPcie, latchHarbour := s.pcie.latchHarbour } } = s
    (pathOpen s path = true → rslWide r = true →
      answers (.rslLowRead path r) (live % 2 ^ 32) (some (r, BitVec.ofNat 32 (live / 2 ^ 32))) ∧
      (held s path = some (r, v) → answers (.latchedHighRead path r) v.toNat none) ∧
      (held s path = none → answers (.latchedHighRead path r) (live / 2 ^ 32 % 2 ^ 32) none) ∧
      (o ≠ r → held s path = some (o, v) →
        answers (.latchedHighRead path r) (live / 2 ^ 32 % 2 ^ 32) (some (o, v)))) ∧
    (barOpen s = true → exec (.taskSel value) s = .next { s with pilot := { s.pilot with
      select := value.extractLsb' 0 16, record := taskRecord (getT s (value.toNat % 2 ^ 16)) } })

/-- Event sources and MSI-X (10, R447 to R450; 01, R30): a W1C write clears its bits before the raises of the same
cycle, a rising bit signals the vector of an enabled source, enabling a source whose bit is set signals at once, and
an unmasked vector sends the message that its mask held back. What the model chose: log entry 30. -/
def Obligations.EventSourcesSignalTheirVectors : Prop :=
  ∀ (s : State) (w : Fin 64) (i : Fin 32) (n v : Fin 2048) (value mask : BitVec 32) (j : Nat),
    let pending := fun (s : State) n => tblGet false s.pcie.esPending n
    let m := 32 * w.val + i.val
    let one : BitVec 32 := 1#32 <<< i.val
    let steer := tblGet 0 s.pcie.esSteer m
    let new : BitVec 16 := value.extractLsb' 0 16 &&& 0x87FF
    let e := tblGet {} s.pcie.msix v.val
    let opened := { s with pcie := { s.pcie with msix := tblSet s.pcie.msix v.val { e with masked := false } } }
    let steered := { s with pcie := { s.pcie with esSteer := tblSet s.pcie.esSteer n.val new } }
    let free := { opened with pcie := { opened.pcie with msixPending := tblSet s.pcie.msixPending v.val false } }
    barOpen s = true →
      (∃ t, exec (.esPendingClear w mask 0) s = .next t ∧ { t with pcie := s.pcie } = s ∧
        { t.pcie with esPending := s.pcie.esPending } = s.pcie ∧
        pending t m = (pending s m && !mask.getLsbD i.val) ∧ (j / 32 ≠ w.val → pending t j = pending s j)) ∧
      (pending s m = false ∨ mask.getLsbD i.val = true → ∃ u t, exec (.esPendingClear w mask 0) s = .next u ∧
        exec (.esPendingClear w mask one) s = .next t ∧
        { t with pcie := s.pcie } = s ∧
        t.pcie = if steer.getLsbD 15 then afterMessage (steer.toNat % 2048)
            { u with pcie := { u.pcie with esPending := tblSet u.pcie.esPending m true } }
          else { u.pcie with esPending := tblSet u.pcie.esPending m true }) ∧
      (pending s m = true → mask.getLsbD i.val = false → ∃ u, exec (.esPendingClear w mask 0) s = .next u ∧
        exec (.esPendingClear w mask one) s = .next { u with pcie := { u.pcie with
          esPending := tblSet u.pcie.esPending m true } }) ∧
      exec (.esSteerWrite n value) s = .next
        (if new.getLsbD 15 = true ∧ (tblGet 0 s.pcie.esSteer n.val).getLsbD 15 = false ∧ pending s n.val = true then
          { steered with pcie := afterMessage (new.toNat % 2048) steered }
        else steered) ∧
      exec (.msixUnmask v) s = .next
        (if tblGet false s.pcie.msixPending v.val = true ∧ s.pcie.functionMask = false ∧ s.pcie.msixEnable = true then
          { free with pcie := { free.pcie with msixSent := v.val :: s.pcie.msixSent } }
        else opened)

/-- The states of a queue and the reads of its index block (10, R406, R410, R412, R413, R416, R417, R423, R441; 11,
R465): ENABLE, DISABLE, RESTART, doorbells, polls, CLEAR_TAGS, and what a read that returns does. What the model
chose: log entries 37, 38, 239. -/
def Obligations.QueuesFollowTheirTable : Prop :=
  ∀ (s : State) (q : Fin 4097) (h : HostView),
    let k := getQ s q.val
    let berth := queueBerth q.val
    let s0 := hostSync h s
    let block := hostBytes s0 (hostKey s berth) k.indexAddr.toNat 64
    let prod := BitVec.ofNat 32 (field block 0 4)
    let cons := BitVec.ofNat 32 (field block 8 4)
    let openBerth := ∀ b, berth = some b → (getB s b.val).state = .active
    let aligned := fun (a : BitVec 64) n => a ≠ 0 ∧ a.toNat % n = 0
    let order := fun (o : BitVec 8) => 4 ≤ o.toNat ∧ o.toNat ≤ 16
    let placed := aligned k.sqBase 64 ∧ aligned k.cqBase 64 ∧ aligned k.indexAddr 128
    let orders := order k.sqOrder ∧ order k.cqOrder
    let ownVector := ∀ b, berth = some b → (getB s b.val).vectorBase.toNat ≤ k.vector.toNat ∧
      k.vector.toNat < (getB s b.val).vectorBase.toNat + (getB s b.val).vectorCount.toNat
    let issued := fun k : Queue => if k.reading then { k with readAgain := true } else { k with reading := true }
    let asked := fun k : Queue => if mayTake s q.val then issued k else { k with kept := true }
    let only := fun t => ∀ r, r ≠ q.val → getQ t r = getQ s r
    let refused := fun n => exec (.enable q) s = .next (withQueue q.val { k with cfgCause := n } s)
    let back := { k with reading := k.readAgain, readAgain := false }
    let errs := fun i cause (k' : Queue) => ∃ t, exec i s = .next t ∧ getQ t q.val = { k' with
        state := .error, errCause := cause, errIndex := k.sqHead, taken := none, fetchIndex := k.sqHead, stall := false,
        pushed := [], pushValid := false, consUnknown := k'.consUnknown || decide (cause = 6) } ∧ only t ∧
      tblGet false t.pcie.esPending (if q.val = 4096 then 1600 else 3 * (q.val / 8)) = true ∧
      (∀ b, berth = some b → (getB t b.val).queueErrors.getLsbD (q.val % 8) = true)
    (barOpen s = true →
      (k.state = .disabled → openBerth → placed → orders → ownVector → ∃ t, exec (.enable q) s = .next t ∧
        getQ t q.val = { k with
          state := .active, cfgCause := 0, fetchIndex := k.sqHead, sqProd := k.sqHead, unread := true,
          consUnknown := true, reading := true, readAgain := false } ∧ only t ∧
        (writesPass s berth → t.host.mem = storeHost (hostKey s berth) (k.indexAddr.toNat + 0x48) (natLe 4 k.cqProd.toNat)
          (storeHost (hostKey s berth) (k.indexAddr.toNat + 0x40) (natLe 4 k.sqHead.toNat) s.host.mem))) ∧
      (k.state = .disabled → (¬ openBerth → refused 4) ∧ (openBerth → ¬ placed → refused 1) ∧
        (openBerth → placed → ¬ orders → refused 2) ∧ (openBerth → placed → orders → ¬ ownVector → refused 3)) ∧
      (openBerth → k.state = .active ∨ k.state = .error → exec (.disable q) s = .next (withQueue q.val { k with
        state := if (∀ e ∈ s.jobs, e.2.queue ≠ q.val) ∧ k.hold = [] then .disabled else .draining,
        errCause := 0, taken := none, fetchIndex := k.sqHead, stall := false, pushed := [], pushValid := false } s)) ∧
      (openBerth → k.state = .error → exec (.restart q) s = .next (withQueue q.val (issued { k with
        state := .active, errCause := 0, fetchIndex := k.sqHead, unread := true }) s)) ∧
      (k.state.live = true → ∃ t, exec (.doorbell q) s = .next t ∧ getQ t q.val = asked k ∧ only t ∧
        t = { s with counters := t.counters, queues := t.queues } ∧
        (counterVal s (.queue q) 4 < 2 ^ 64 - 1 → counterVal t (.queue q) 4 = counterVal s (.queue q) 4 + 1)) ∧
      (k.state = .disabled → exec (.clearTags q) s = .next (withQueue q.val { k with tags := [] } s))) ∧
    (k.state.live = true → k.poll ≠ 0 → exec (.indexPollExpiry q) s = .next (withQueue q.val (issued k) s)) ∧
    (k.state.live = true → k.hold ≠ [] → k.reading = false →
      exec (.holdPollExpiry q) s = .next (withQueue q.val { k with reading := true } s)) ∧
    (k.reading = true → hostBlocked s = false → k.state = .active → s0.host.faults = [] →
      ((prod - k.sqHead).toNat ≤ 2 ^ k.sqOrder.toNat → (prod - k.fetchIndex).toNat < 2 ^ 31 →
        (k.cqProd - cons).toNat ≤ 2 ^ k.cqOrder.toNat → ∃ t, exec (.indexReadComplete q h) s = .next t ∧
          only t ∧ t.jobs = s.jobs ∧ ∃ k', getQ t q.val = k' ∧ k' = { back with
            sqProd := prod, cqConsSeen := cons, consUnknown := false, unread := k.unread && k.readAgain,
            hold := k'.hold, cqProd := k'.cqProd, stall := k'.stall, lastSignal := k'.lastSignal, signalWaits := k'.signalWaits } ∧
          (k.hold = [] → k'.hold = [] ∧ k'.cqProd = k.cqProd)) ∧
      (2 ^ k.sqOrder.toNat < (prod - k.sqHead).toNat ∨ 2 ^ 31 < (prod - k.fetchIndex).toNat →
        (2 ^ k.cqOrder.toNat < (k.cqProd - cons).toNat → errs (.indexReadComplete q h) 5 back) ∧
        ((k.cqProd - cons).toNat ≤ 2 ^ k.cqOrder.toNat → ∃ t, exec (.indexReadComplete q h) s = .next t ∧ only t ∧
          (getQ t q.val).state = .error ∧ (getQ t q.val).errCause = 5 ∧ (getQ t q.val).cqConsSeen = cons)) ∧
      ((prod - k.sqHead).toNat ≤ 2 ^ k.sqOrder.toNat → (prod - k.fetchIndex).toNat < 2 ^ 31 →
        2 ^ k.cqOrder.toNat < (k.cqProd - cons).toNat → errs (.indexReadComplete q h) 6 back)) ∧
    (k.reading = true → hostBlocked s = false → k.state = .active →
      (∃ f ∈ s0.host.faults, (faultAt (hostKey s berth) k.indexAddr.toNat 64 f).isSome = true ∧
        (f.kind = .timeout → 3 ≤ f.times)) → errs (.indexReadComplete q h) 7 back) ∧
    (k.reading = true → hostBlocked s = false → k.state = .draining ∨ k.state = .error → s0.host.faults = [] →
      (k.cqProd - cons).toNat ≤ 2 ^ k.cqOrder.toNat → ∃ t, exec (.indexReadComplete q h) s = .next t ∧ only t ∧
        (getQ t q.val).cqConsSeen = cons ∧ (getQ t q.val).consUnknown = false ∧ (getQ t q.val).sqProd = k.sqProd ∧
        (getQ t q.val).unread = k.unread)

/-- Pushed granules, the taking of an entry and its start (10, R408, R418, R419, R421 to R423, R425 to R429, R431,
R433; 04, R171, R172): the acceptance of LOAD_IMAGE makes its slot LOADING, that of UNLOAD_IMAGE makes it UNLOADING.
The completions of entries that are not executed go through the hold. What the model chose: log entries 33, 34, 36,
224, 235. -/
def Obligations.EntriesAreTakenAndStarted : Prop :=
  ∀ (s : State) (q : Fin 4097) (index : BitVec 32) (o : Fin 256) (data : Bytes) (h : HostView) (t : Taken) (i : Nat),
    let k := getQ s q.val
    let berth := queueBerth q.val
    let key := hostKey s berth
    let s0 := hostSync h s
    let avail := fun x => (pushedAt k x).isSome || belowProd k x
    let granule := fun x : BitVec 32 =>
      (pushedAt k x).getD (hostBytes s0 key (k.sqBase.toNat + 64 * (x.toNat % 2 ^ k.sqOrder.toNat)) 64)
    let hdr := granule k.fetchIndex
    let n := field hdr 1 1
    let known := if q.val = 4096 then [0x01, 0x02, 0x40, 0x41, 0x42, 0x43, 0x44] else
      [0x01, 0x02, 0x10, 0x11, 0x12, 0x13, 0x20, 0x21, 0x22, 0x23, 0x30, 0x31, 0x32, 0x33, 0x34, 0x38, 0x39, 0x3A]
    let cause := if ¬ known.contains (field hdr 0 1) then 1 else if n = 0 ∨ 64 < n ∨ 2 ^ k.sqOrder.toNat < n then 2
      else if 2 ≤ field hdr 2 2 ∨ field hdr 4 4 ≠ 0 then 3
      else if ∃ i < n, avail (k.fetchIndex + BitVec.ofNat 32 i) = false then 4 else 0
    let takes := k.state = .active ∧ mayTake s q.val = true ∧ k.unread = false ∧ k.consUnknown = false ∧ k.taken = none ∧
      k.fence = none ∧ avail k.fetchIndex = true ∧ hostBlocked s = false ∧ s0.host.faults = []
    let tag := field t.bytes 8 8
    let addr := field t.bytes 16 8
    let head := t.index + BitVec.ofNat 32 (field t.bytes 1 1)
    let starts := k.state = .active ∧ mayTake s q.val = true ∧ k.taken = some t ∧ k.fence = none ∧
      (s.jobs.filter (fun e => decide (e.2.queue = q.val))).length < 256 ∧
      (s.jobs.filter (fun e => decide (e.2.queue = q.val))).length + k.hold.length <
        2 ^ k.cqOrder.toNat - (k.cqProd - k.cqConsSeen).toNat + 64
    let x : Job := { queue := q.val, berth := berth, tag := tag, statusAddr := addr, entry := t.bytes,
                     opcode := field t.bytes 0 1, sqIndex := t.index, notify := bitOf (field t.bytes 2 2) 0,
                     tAccepted := s.sys.time }
    let block := natLe 1 1 ++ natLe 1 x.opcode ++ natLe 1 (queueField q.val) ++ [0, 0, 0, 0, 0] ++ natLe 8 tag ++
      List.replicate 32 0 ++ natLe 8 s.sys.time.toNat ++ List.replicate 8 0
    let ends := fun (c : Completion) tags => postable s q.val = false → ∃ u, exec (.entryStart q) s = .next u ∧
      (getQ u q.val).hold = k.hold ++ [c] ∧ (getQ u q.val).tags = tags ∧ (getQ u q.val).sqHead = head ∧
      (getQ u q.val).taken = none ∧ u.jobs = s.jobs ∧
      (writesPass s berth → u.host.mem = storeHost key (k.indexAddr.toNat + 0x40) (natLe 4 head.toNat) s.host.mem)
    let c : Completion := { tag := tag, statusAddr := addr, state := 5, opcode := x.opcode, origState := 0,
                            fault := 0x0102, sqIndex := t.index, notify := x.notify }
    (barOpen s = true → k.state ≠ .absent →
      exec (.pushIndex q index) s = .next (withQueue q.val
        { k with pushBase := index, pushed := [], pushValid := true } s) ∧
      (k.pushValid = true → o.val + data.length ≤ 256 → ∃ p, exec (.pushData q o data) s =
        .next (withQueue q.val { k with pushed := p } s) ∧ tblFind p i =
          if o.val ≤ i ∧ i < o.val + data.length then data[i - o.val]? else tblFind k.pushed i)) ∧
    (takes → cause = 0 → ∃ u, exec (.entryTake q h) s = .next u ∧
      getQ u q.val = { k with
        taken := some ⟨(List.range n).flatMap (fun i => granule (k.fetchIndex + BitVec.ofNat 32 i)), k.fetchIndex⟩,
        fetchIndex := k.fetchIndex + BitVec.ofNat 32 n, stall := !(spaceFor s q.val) } ∧
      u = { s0 with queues := u.queues, counters := u.counters } ∧ (∀ r, r ≠ q.val → getQ u r = getQ s r)) ∧
    (takes → cause ≠ 0 → ∃ u, exec (.entryTake q h) s = .next u ∧
      getQ u q.val = { k with
        state := .error, errCause := BitVec.ofNat 4 cause, errIndex := k.sqHead, fetchIndex := k.sqHead, stall := false,
        pushed := [], pushValid := false } ∧ (∀ r, r ≠ q.val → getQ u r = getQ s r)) ∧
    (starts → (∀ e ∈ k.tags, e.tag ≠ tag) → addr ≠ 0 → addr % 64 = 0 → ∃ u, exec (.entryStart q) s = .next u ∧
      u.jobs = tblSet s.jobs s.nextJob x ∧ u.nextJob = s.nextJob + 1 ∧
      (getQ u q.val).sqHead = head ∧ (getQ u q.val).taken = none ∧
      (getQ u q.val).tags = (⟨tag, addr, 1, 0⟩ :: k.tags).take 256 ∧
      (getQ u q.val).fence = (if x.opcode = 2 then some s.nextJob else none) ∧
      (∀ b, berth = some b → x.opcode = 0x10 → loadImageFault s x = none → (getSlot s b.val (field t.bytes 0x24 1)).state = .empty →
        ∃ gs, getSlot u b.val (field t.bytes 0x24 1) = {
            state := .loading, addr := field t.bytes 0x28 8, length := field t.bytes 0x20 4, granules := gs,
            loadJob := some s.nextJob } ∧
          ((∀ g ∈ granulesOf (field t.bytes 0x28 8) (field t.bytes 0x20 4),
              (ownOf s g).owner = .berth b ∧ (ownOf s g).image = false) →
            gs = granulesOf (field t.bytes 0x28 8) (field t.bytes 0x20 4) ∧ ∀ g ∈ gs, (ownOf u g).image = true)) ∧
      (∀ b, berth = some b → x.opcode = 0x11 → unloadImageFault x = none → (getSlot s b.val (field t.bytes 0x18 1)).state = .loaded →
        let k' := getSlot u b.val (field t.bytes 0x18 1)
        k'.state = .unloading ∧ k'.unloadJob = some s.nextJob ∧ ∀ e ∈ s.jobs, e.2.berth = some b → e.2.opcode = 0x12 →
          field e.2.entry 0x2C 1 = field t.bytes 0x18 1 → e.1 ∈ k'.users) ∧
      (writesPass s berth → u.host.mem = storeHost key (k.indexAddr.toNat + 0x40) (natLe 4 head.toNat)
        (storeHost key addr block s.host.mem))) ∧
    (starts → (∀ e ∈ k.tags, e.tag ≠ tag) → addr = 0 ∨ addr % 64 ≠ 0 →
      ends c ((⟨tag, addr, 5, 0x0102⟩ :: k.tags).take 256)) ∧
    (starts → ∀ e, k.tags.find? (fun e => decide (e.tag = tag)) = some e → (∀ j ∈ s.jobs, j.2.queue = q.val → j.2.tag ≠ tag) →
      ends { c with statusAddr := e.statusAddr, state := 7, origState := e.state, fault := e.fault } k.tags)

/-- How jobs end (10, R426, R431 to R433, R436 to R440, R444 to R446, R451): NOP and QUEUE_FENCE, PROGRESS, the final
status block, the completion, and the signal after a holdoff. What the model chose: log entries 39, 41, 35. -/
def Obligations.JobsBecomeFinal : Prop :=
  ∀ (s : State) (q : Fin 4097) (j o : Nat) (x : Job) (e : JobEnd),
    let ends := fun i f p => exec i s = .next (withJobAs j { x with result := some ⟨if f = 0 then 4 else 5, f, p⟩ } s)
    let zeros := fun lo => ∀ i, lo ≤ i → i < 0x40 → x.entry.getD i 0 = 0
    let firstOdd := fun lo => lo ≤ o ∧ o < 0x40 ∧ x.entry.getD o 0 ≠ 0 ∧ ∀ i, lo ≤ i → i < o → x.entry.getD i 0 = 0
    let scope := field x.entry 0x18 1
    let covers := fun q' => if scope = 1 then (x.berth.map (fun b => 8 * b.val ≤ q' ∧ q' < 8 * b.val + 8)).getD False else q' = x.queue
    let soundFence := field x.entry 1 1 = 1 ∧ (scope = 0 ∨ (scope = 1 ∧ x.berth.isSome)) ∧ field x.entry 0x19 1 ≤ 1 ∧ zeros 0x1A
    let key := hostKey s x.berth
    let k := getQ s x.queue
    let kq := getQ s q.val
    let done : Completion := { tag := x.tag, statusAddr := x.statusAddr, state := e.state, opcode := x.opcode, origState := 0,
                               fault := e.fault, sqIndex := x.sqIndex, notify := x.notify }
    (getJ s j = some x → workable s x = true → x.opcode = 0x01 →
      (field x.entry 1 1 = 1 → zeros 0x18 → ends (.nop j) 0 0) ∧
      (field x.entry 1 1 ≠ 1 → ends (.nop j) 0x0103 1) ∧
      (field x.entry 1 1 = 1 → firstOdd 0x18 → ends (.nop j) 0x0103 o)) ∧
    (getJ s j = some x → workable s x = true → x.opcode = 0x02 → x.begun = false →
      (soundFence → x.state = 1 → writesPass s x.berth → x.silent = false → ∃ t, exec (.queueFence j) s = .next t ∧
        getJ t j = some { x with begun := true, state := 2 } ∧ (∀ i, i ≠ j → getJ t i = getJ s i) ∧
        t.host.mem = storeHost key x.statusAddr ([2, 2, BitVec.ofNat 8 (queueField x.queue), 0, 0, 0, 0, 0]) s.host.mem) ∧
      (field x.entry 1 1 ≠ 1 → ∃ t, exec (.queueFence j) s = .next t ∧
        getJ t j = some { x with result := some ⟨5, 0x0103, 1⟩ } ∧ (getQ t x.queue).fence = none)) ∧
    (getJ s j = some x → workable s x = true → x.opcode = 0x02 → x.begun = true → soundFence →
      (∀ i ∈ s.jobs, i.1 < j → ¬ covers i.2.queue) →
      ((field x.entry 0x19 1 = 0 ∨ ∀ r, covers r → ∀ b ∈ (getQ s r).bad, j ≤ b.1) →
        ∃ t, exec (.fenceRelease j) s = .next t ∧ getJ t j = some { x with result := some ⟨4, 0, 0⟩ } ∧
        getQ t x.queue = { k with fence := none }) ∧
      (∀ r b, field x.entry 0x19 1 = 1 → covers r → b ∈ (getQ s r).bad → b.1 < j →
        (∀ r' b', covers r' → b' ∈ (getQ s r').bad → b' = b ∨ b.1 < b'.1) →
        ∃ t, exec (.fenceRelease j) s = .next t ∧ getJ t j = some { x with result := some ⟨5, 0x0104, b.2⟩ } ∧
        getQ t x.queue = { k with fence := none })) ∧
    (getJ s j = some x → workable s x = true → x.progress ≠ x.progressWritten → writesPass s x.berth → x.silent = false →
      exec (.progressWrite j) s = .next (withJobAs j { x with progressWritten := x.progress } { s with
        host := { s.host with mem := storeHost key (x.statusAddr + 0x28) (natLe 4 x.progress) s.host.mem } })) ∧
    (kq.signalWaits = true → (∀ b, queueBerth q.val = some b → (getB s b.val).dirty.held = []) →
      exec (.intHoldoffExpiry q) s = .next (withQueue q.val { kq with signalWaits := false, lastSignal := some s.sys.time }
        { s with pcie := afterMessage kq.vector.toNat s })) ∧
    (getJ s j = some x → x.result = some e → hostActive s = true → (∀ b, x.berth = some b → (getB s b.val).state ≠ .frozen) →
      ∃ t, exec (.jobFinal j) s = .next t ∧ getJ t j = none ∧ (∀ i, i ≠ j → getJ t i = getJ s i) ∧
        (∀ i, tblFind t.runs i = if i = j then none else tblFind s.runs i) ∧
        (∀ n, (getT s n).job = some j → (getT s n).state ≠ .free → (getT t n).job ≠ some j) ∧
        (e.state ≠ 4 → (getQ t x.queue).bad = k.bad ++ [(j, x.tag)]) ∧ (e.state = 4 → (getQ t x.queue).bad = k.bad) ∧
        (getQ t x.queue).tags = k.tags.map
          (fun y => if y.tag = x.tag then { y with state := e.state, fault := e.fault } else y) ∧
        (x.silent = true → (getQ t x.queue).hold = k.hold ∧ t.host = s.host) ∧
        (x.silent = false → postable s x.queue = false → (getQ t x.queue).hold = k.hold ++ [done]) ∧
        (x.silent = false → writesPass s x.berth → x.berth = queueBerth x.queue → k.hold = [] → postable s x.queue = true →
          (getQ t x.queue).hold = [] ∧ (getQ t x.queue).cqProd = k.cqProd + 1 ∧
          t.host.mem = storeHost key (k.indexAddr.toNat + 0x48) (natLe 4 (k.cqProd.toNat + 1))
            (storeHost key (k.cqBase.toNat + 32 * (k.cqProd.toNat % 2 ^ k.cqOrder.toNat))
              (completionBytes done k.cqProd.toNat k.cqOrder.toNat)
              (storeHost key x.statusAddr (statusWord x e.state e.fault)
                (storeHost key (x.statusAddr + 0x10) (statusRest x e.position s.sys.time.toNat) s.host.mem)))))

/-- The link and the power states of the function (10, R395, R396, R423; 16, R663): what is lost when the link goes
down, what waits in D3hot and what goes out on the return to D0. What the model chose: log entries 31, 32. -/
def Obligations.LinkAndPowerActOnTheFunction : Prop :=
  ∀ (s : State) (q j : Nat) (x : Job) (width : BitVec 8) (w : HeldWrite) (speed : Fin 8) (flit : Bool),
    let unlogged := ∀ b, (getB s b).dirty.held = []
    (s.pcie.linkUp = true → ∃ t, exec .linkDown s = .next t ∧
      t.pcie.linkUp = false ∧ t.pcie.d3hot = false ∧ t.pcie.held = [] ∧ t.pcie.msixHeld = [] ∧
      t.host = s.host ∧ t.dev = s.dev ∧
      (getJ s j = some x → getJ t j = some { x with cancelled := true, silent := true, result := some ⟨6, 0, 0⟩ }) ∧
      ((getQ s q).state.live = true → q < 4097 → (getQ t q).state = .error ∧ (getQ t q).errCause = 8 ∧
        (getQ t q).errIndex = (getQ s q).sqHead ∧ (getQ t q).taken = none ∧ (getQ t q).pushValid = false ∧
        (getQ t q).reading = false ∧ (getQ t q).tags = (getQ s q).tags) ∧
      ((getQ s q).state.live = false → getQ t q = getQ s q)) ∧
    (s.sys.mode ≠ .reset → s.pcie.linkUp = false → ∃ t, exec (.linkUp speed flit) s = .next t ∧
      t.pcie = { s.pcie with linkUp := true, speed := speed, flit := flit || decide (speed = 6) } ∧
      t.host = s.host ∧ t.jobs = s.jobs ∧ ((getQ s q).state.live = false ∨ (getQ s q).hold = [] → getQ t q = getQ s q)) ∧
    (s.pcie.linkUp = true → width = 8 ∨ width = 4 → width.toNat < s.present.linkWidth.toNat →
      exec (.linkWidthChange width) s = .next { logRecord 0x4001 0x0B00 s.present.linkWidth.toNat width.toNat 0 s with
        present := { s.present with linkWidth := width } }) ∧
    (s.pcie.linkUp = true → exec .d3hotEntry s = .next { s with pcie := { s.pcie with d3hot := true } }) ∧
    (s.pcie.d3hot = true → hostActive s = false →
      exec .d0Return s = .next { s with pcie := { s.pcie with d3hot := false, held := [], msixHeld := [] } }) ∧
    (s.pcie.d3hot = true → unlogged → s.pcie.msixHeld = [] → s.pcie.held = [] →
      exec .d0Return s = .next { s with pcie := { s.pcie with d3hot := false } }) ∧
    (s.pcie.d3hot = true → hostActive s = true → unlogged → s.pcie.msixHeld = [] → s.pcie.held = [w] → w.key = 0 →
      exec .d0Return s = .next { s with
        pcie := { s.pcie with d3hot := false, held := [] },
        host := { s.host with mem := storeHost 0 w.addr w.data s.host.mem } }) ∧
    (s.pcie.d3hot = true → hostActive s = true → unlogged → s.pcie.msixHeld = [q] → s.pcie.held = [] →
      exec .d0Return s = .next { s with
        pcie := afterMessage q { s with pcie := { s.pcie with d3hot := false, msixHeld := [] } } })

/-- Configuration requests and the BAR4 aperture (10, R392, R397, R401, R402, R447; 01, R27). What the model chose:
log entries 26, 27, 28, 29, 236, 237. -/
def Obligations.ConfigurationAndApertureAnswer : Prop :=
  ∀ (s : State) (v : BitVec 32) (n : Fin 6) (o : BitVec 36) (len : Fin 4097) (data : Bytes),
    let reads := fun r (x : BitVec 32) => exec (.configurationRequest (.read r)) s = .next { s with
      sys := { s.sys with readAnswer := x.setWidth 64, readRefused := false, retryStatus := false } }
    let writes := fun r p => exec (.configurationRequest (.write r v)) s = .next { s with
      sys := { s.sys with retryStatus := false }, pcie := p }
    let a := s.pcie.apertureBase.toNat + o.toNat
    let logged := { s.pcie with
      apertureRefused := true, aerUncorrectable := s.pcie.aerUncorrectable ||| BitVec.twoPow 32 20,
      aerCorrectable := s.pcie.aerCorrectable ||| BitVec.twoPow 32 13 }
    let deviceOwned := fun n => ∃ g ∈ granulesOf a n, (ownOf s g).owner = .device ∨ (ownOf s g).image = true
    (s.pcie.linkUp = true → s.sys.mode ≠ .reset →
      (s.sys.mode = .boot → s.sys.tisum = false → ∀ r, exec (.configurationRequest r) s = .next { s with
        sys := { s.sys with readAnswer := 0, readRefused := false, retryStatus := true } }) ∧
      (s.sys.mode ≠ .boot ∨ s.sys.tisum = true →
        reads .deviceId 0x9400 ∧ reads .classCode 0x120000 ∧ reads .headerType 0 ∧
        reads .vendorId (Config.pciVendorId.setWidth 32) ∧ reads .command (tblGet 0 s.pcie.config 6) ∧
        (s.pcie.functionMask = false → s.pcie.msixEnable = true → reads .msixControl 0x87FF) ∧
        (s.pcie.bar4Size = 0x10000000 → reads .barSize 0x0824) ∧
        (tblGet 0 s.pcie.config 0 = 0xFFFFFFFF → reads (.bar 0) 0xFF000004) ∧
        (tblGet 0 s.pcie.config 2 = 0xFFFFFFFF → reads (.bar 2) 0xFE00000C) ∧
        reads .aerUncorrectable s.pcie.aerUncorrectable ∧ reads .aerCorrectable s.pcie.aerCorrectable ∧
        writes .aerUncorrectable { s.pcie with aerUncorrectable := s.pcie.aerUncorrectable &&& ~~~v } ∧
        writes .aerCorrectable { s.pcie with aerCorrectable := s.pcie.aerCorrectable &&& ~~~v } ∧
        (v.toNat / 2 ^ 5 % 8 = 1 → v.toNat / 2 ^ 12 % 8 = 5 → writes .deviceControl { s.pcie with
          relaxedOrder := v.getLsbD 4, maxPayload := 256, maxRead := 4096 }) ∧
        writes .command { s.pcie with config := tblSet s.pcie.config 6 v } ∧
        writes (.bar n) { s.pcie with config := tblSet s.pcie.config n.val v } ∧
        (v.toNat / 2 ^ 8 % 64 = 16 → writes .barSize { s.pcie with bar4Size := 2 ^ 36 }) ∧
        (v.toNat / 2 ^ 8 % 64 = 7 → writes .barSize s.pcie))) ∧
    (barOpen s = true → 0 < len.val → o.toNat + len.val ≤ s.pcie.bar4Size →
      (installedBytes s < a + len.val ∨ deviceOwned len.val → ∃ t, exec (.bar4Access o len none) s = .next t ∧
        t.sys.readRefused = true ∧ t.pcie = logged ∧ t.dev = s.dev) ∧
      (a + len.val ≤ installedBytes s → ¬ deviceOwned len.val → refusal s none false a len.val = none →
        deadAt s a len.val = none → (∀ g ∈ granulesOf a len.val, (ownOf s g).init = true) →
        s.dev.poison = [] → s.dev.flaws = [] → ∃ t, exec (.bar4Access o len none) s = .next t ∧
        t.dict.answer = ⟨memRead 0 s.dev.mem a len.val, 0⟩ ∧ t.sys.readRefused = false ∧ t.dev.mem = s.dev.mem ∧
        t.pcie.apertureRefused = s.pcie.apertureRefused ∧ t.host = s.host)) ∧
    (barOpen s = true → data ≠ [] → o.toNat + data.length ≤ s.pcie.bar4Size →
      (installedBytes s < a + data.length ∨ deviceOwned data.length → ∃ t, exec (.bar4Access o len (some data)) s = .next t ∧
        t.sys.readRefused = false ∧ t.pcie = logged ∧ t.dev = s.dev) ∧
      (a + data.length ≤ installedBytes s → ¬ deviceOwned data.length → refusal s none true a data.length = none →
        deadAt s a data.length = none → (∀ g ∈ granulesOf a data.length, (ownOf s g).init = true) → s.dev.poison = [] → ∀ i,
        ∃ t, exec (.bar4Access o len (some data)) s = .next t ∧
        memGet 0 t.dev.mem i = (if a ≤ i ∧ i < a + data.length then data.getD (i - a) 0 else memGet 0 s.dev.mem i) ∧
        t.pcie.apertureRefused = s.pcie.apertureRefused ∧ t.host = s.host))

/-- Failures and retirement (03, R139, R140, R142; 09, R389; 12, R525; 16, R660, R661, R665 to R670): what a failed
unit leaves, the record of the failure, DEGRADED, and the faults that lead to HOLD. What the model chose: log entries
50, 51, 133, 134, 135, 190, 207. -/
def Obligations.FailedUnitsAreRetired : Prop :=
  ∀ (s : State) (c : Fin 128) (d : Nat) (g : Fin 16) (q : Fin 32) (b : Fin 16) (ch : Fin 64) (p : Fin 78) (m : Fin 4) (a : Nat)
    (cc : CoreFault) (gc : GroveFault) (cause : BitVec 16) (f : FatalFault),
    let up := s.sys.tisum = true ∧ s.sys.mode ≠ .reset ∧ s.sys.mode ≠ .hold
    let room := s.mram.logFull = false ∧ s.log.queue.length ≤ 1000
    let k := getCore s c.val
    let degraded := fun (t : State) => t.sys.mode = if s.sys.mode = .service then .degraded else s.sys.mode
    let records := fun (t : State) r => room → [r] <+: t.log.queue.drop s.log.queue.length ∧ s.log.queue <+: t.log.queue
    let holds := fun i cause => ∃ t, exec i s = .next t ∧ t.sys.mode = .hold ∧ t.sys.holdCause = cause
    let buddy := q.val ^^^ 1
    let buddyOk := s.present.quays.getLsbD buddy = true ∧ (getQuay s buddy).state = 0 ∧ s.present.subchannels.getLsbD buddy = true
    let serves := s.present.quays.getLsbD q.val = true ∧ ((getQuay s q.val).state = 0 ∨ (getQuay s q.val).state = 1)
    (up → s.present.cores.getLsbD c.val = true → k.isolated = false →
      d / 8 = c.val / 8 → d ≠ c.val → s.present.cores.getLsbD d = true →
      ∃ t, exec (.coreFailure c cc) s = .next t ∧ (getCore t c.val).isolated = true ∧ (getCore t c.val).item = none ∧
        (getCore t c.val).slot = none ∧ t.present = { s.present with cores := setBit s.present.cores c.val false } ∧
        t.mram.retired = { s.mram.retired with cores := setBit s.mram.retired.cores c.val true } ∧ degraded t ∧
        records t (makeRecord 0x3001 (0x0300 + c.val) c.val (coreCause cc) (k.excPc.toNat % 2 ^ 32) s) ∧
        (∀ i, k.item = some i → k.slot = none → (getT s i.task.toNat).doomed = false → (getT s i.task.toNat).job = none →
          getT t i.task.toNat = { getT s i.task.toNat with
            state := .ready, flags := (getT s i.task.toNat).flags ||| i.handle.extractLsb' 32 32 })) ∧
    (up → s.present.groves.getLsbD g.val = true → setBit s.present.groves g.val false ≠ 0 →
      ∃ t, exec (.groveFailure g gc) s = .next t ∧ t.present = { s.present with groves := setBit s.present.groves g.val false } ∧
        t.mram.retired = { s.mram.retired with parts := setBit s.mram.retired.parts (32 + g.val) true } ∧ degraded t ∧
        records t (makeRecord 0x3002 (0x0200 + g.val) g.val (groveCause gc) 0 s) ∧
        ∀ i < 8, (getCore t (8 * g.val + i)).isolated = true ∧ (getCore t (8 * g.val + i)).item = none) ∧
    (up → serves → buddyOk → ∃ t, exec (.quayFailure q cause) s = .next t ∧
      (getQuay t q.val).state = 3 ∧ (getQuay t q.val).handing = true ∧ (getQuay t buddy).state = 1 ∧
      t.present = { s.present with quays := setBit s.present.quays q.val false } ∧ degraded t ∧
      records t (makeRecord 0x3003 (0x0100 + q.val) q.val buddy cause.toNat s)) ∧
    (up → serves → ¬ buddyOk → holds (.quayFailure q cause) 0x2021) ∧
    ((getQuay s q.val).handing = true → (getQuay s buddy).state = 1 → ∃ t, exec (.buddyTakeover q) s = .next t ∧
      getQuay t q.val = { getQuay s q.val with handing := false } ∧
      t = { s with quays := t.quays, scans := t.scans } ∧
      t.scans = s.scans.map (fun e => if e.2.sub = q.val ∧ e.2.active = true then (e.1, resetScan s e.2) else e)) ∧
    (up → s.present.channels.getLsbD ch.val = true → 8 ≤ popCount (setBit s.present.channels ch.val false) →
      ∃ t, exec (.unitRetirement (.channel ch) cause) s = .next t ∧
        t.present = { s.present with channels := setBit s.present.channels ch.val false } ∧ degraded t ∧
        t.mram.retired = { s.mram.retired with channels := setBit s.mram.retired.channels ch.val true }) ∧
    (up → s.present.banks.getLsbD b.val = true → s.mram.retired.parts.getLsbD (48 + b.val) = false →
      ∃ t, exec (.unitRetirement (.part ⟨48 + b.val, by omega⟩) cause) s = .next t ∧ (getBank t b.val).state = 3 ∧
        t.present = { s.present with banks := setBit s.present.banks b.val false } ∧ degraded t) ∧
    (up → s.present.subchannels.getLsbD q.val = true → s.mram.retired.subchannels.getLsbD q.val = false →
      ∃ t, exec (.unitRetirement (.subchannel q) cause) s = .next t ∧ t.present = s.present ∧ t.sys = s.sys ∧
        t.mram.retired = { s.mram.retired with subchannels := setBit s.mram.retired.subchannels q.val true }) ∧
    (up → 68 ≤ p.val → s.mram.retired.parts.getLsbD p.val = false → holds (.unitRetirement (.part p) cause) 0x3012) ∧
    (up → ∀ e ∈ [(FatalFault.tisumException, 0x3013#16), (.mesh m, 0x3011), (.subchannelLost q, 0x2021), (.ownershipTable a, 0x2010),
      (.lastCore, 0x3012), (.lastChannels, 0x3012)], holds (.untoleratedFault e.1) e.2) ∧
    (up → 68 ≤ p.val → holds (.untoleratedFault (.unitFailed p)) 0x3012) ∧
    (s.sys.tisum = false → exec (.untoleratedFault f) s = .next s) ∧
    (s.sys.mode ≠ .reset → s.sys.mode ≠ .hold → ∃ t, exec .harbourmasterLockstepMismatch s = .next t ∧ t.sys.mode = .hold ∧
      t.sys.holdCause = 0x3010 ∧ t.sys.mismatches = s.sys.mismatches + 1 ∧
      t.sys.holdDead = (s.sys.holdDead || decide (1 ≤ s.sys.mismatches))) ∧
    (s.sys.mode = .hold → 1 ≤ s.sys.mismatches → exec .harbourmasterLockstepMismatch s = .next { s with
      sys := { s.sys with mismatches := s.sys.mismatches + 1, holdDead := true } })

/-- Image and RUN jobs (04, R171 to R186, R196; 09, R358, R387; 11, R469, R470): loading, unloading, the start of a
run, placement, CANCEL and TIME_LIMIT. What the model chose: log entries 40, 55, 56, 57, 58, 64, 224. -/
def Obligations.RunsAreLoadedPlacedAndEnded : Prop :=
  ∀ (s : State) (j u : Nat) (x y : Job) (b : Fin 512) (h : HostView) (im : Image) (slot : Fin 64) (r : Run) (bytes : Bytes)
    (dirs : Tbl (List Directory)) (tags : List Nat) (sets : Tbl EmitSet) (s1 s2 s3 : State),
    let s0 := hostSync h s
    let zeros := fun o n => ∀ i, o ≤ i → i < o + n → x.entry.getD i 0 = 0
    let f := fun o n => field x.entry o n
    let job := fun op => getJ s j = some x ∧ x.berth = some b ∧ workable s x = true ∧ x.opcode = op
    let hosted := hostBlocked s0 = false ∧ s0.host.faults = []
    let ends := fun i st c p => ∃ t, exec i s = .next t ∧ (getJ t j).map (·.result) = some (some ⟨st, c, p⟩)
    let gs := granulesOf (f 0x28 8) (f 0x20 4)
    let image := hostBytes (beginJob j s0) (hostKey s (some b)) (f 0x18 8) (f 0x20 4)
    let owned := fun gs => ∀ g ∈ gs, (ownOf s g).owner = .berth b ∧ (ownOf s g).image = false
    let record := [1, BitVec.ofNat 8 (f 0x24 1), 0, 0] ++ natLe 4 (getB s b.val).measurementCount.toNat ++
      natLe 8 im.imageId ++ sha384 image
    let kl := getSlot s b.val (f 0x24 1)
    let sound := f 1 1 = 1 ∧ f 0x18 8 % 64 = 0 ∧ f 0x24 1 ≤ 63 ∧ zeros 0x25 3 ∧
      f 0x28 8 % granuleBytes = 0 ∧ f 0x28 8 + max (granuleBytes * ceilDiv (f 0x20 4) granuleBytes) 1 ≤ interBytes s ∧
      zeros 0x30 16
    let loads := job 0x10 ∧ hosted ∧ sound ∧ s.dev.failed = 0 ∧ s.dev.poison = [] ∧
      f 0x28 8 + f 0x20 4 ≤ installedBytes s ∧
      kl = { state := .loading, addr := f 0x28 8, length := f 0x20 4, granules := gs, loadJob := some j }
    let unloads := job 0x11 ∧ f 1 1 = 1 ∧ f 0x18 1 ≤ 63 ∧ zeros 0x19 39
    let k := getSlot s b.val slot.val
    let ks := getSlot s b.val (f 0x2C 1)
    let loadedBefore := ∀ l, ks.loadJob = some l → l < j
    let mayRun := (ks.state = .loaded ∧ loadedBefore) ∨ (ks.state = .unloading ∧ j ∈ ks.users)
    let runs := job 0x12 ∧ hosted ∧ getR s j = none ∧ f 0x2C 1 ≤ 63 ∧ f 0x18 8 % 64 = 0 ∧ f 0x20 8 % granuleBytes = 0 ∧
      f 0x28 4 ≠ 0 ∧ f 0x20 8 + granuleBytes * f 0x28 4 ≤ interBytes s ∧ zeros 0x2E 2 ∧ zeros 0x3C 4
    let need := (instList s r.image).length
    let unplaced := job 0x12 ∧ getR s j = some r ∧ r.placed = false ∧ taking s x = true
    let active := fun (e : Nat × Job) => e.1 ≠ j ∧ e.2.berth = some b ∧ e.2.tag = f 0x18 8 ∧ 1 ≤ e.2.state ∧ e.2.state ≤ 3 ∧
      e.2.result = none
    (loads → checkImage image (f 0x20 4) s.fw.runtimeVersion.toNat = .ok im → ∃ t, exec (.loadImage j h) s = .next t ∧
      (getJ t j).map (·.result) = some (some ⟨4, 0, 0⟩) ∧
      (∃ now, getSlot t b.val (f 0x24 1) = { kl with
        state := .loaded, imageId := im.imageId, measurement := sha384 image, loadedAt := now }) ∧
      (∀ g ∈ gs, (ownOf t g).owner = .berth b ∧ (ownOf t g).image = true) ∧
      (∀ i < f 0x20 4, memGet 0 t.dev.mem (f 0x28 8 + i) = image.getD i 0) ∧
      (getB t b.val).measurementCount = (getB s b.val).measurementCount + 1 ∧
      (getB t b.val).digest = sha384 ((getB s b.val).digest ++ record)) ∧
    (∀ c p, loads → checkImage image (f 0x20 4) s.fw.runtimeVersion.toNat = .error (c, p) → ∃ t,
      exec (.loadImage j h) s = .next t ∧ (getJ t j).map (·.result) = some (some ⟨5, c, p⟩) ∧
      getSlot t b.val (f 0x24 1) = kl) ∧
    (job 0x10 → hosted → sound → kl.state ≠ .loading ∨ kl.loadJob ≠ some j → ends (.loadImage j h) 5 0x0305 (f 0x24 1)) ∧
    (∀ z, getJ s j = some x → x.berth = some b → x.result = some z → hostActive s = true →
      (getB s b.val).state ≠ .frozen → k.state = .loading → k.loadJob = some j → ∃ t, exec (.jobFinal j) s = .next t ∧
        getSlot t b.val slot.val = {} ∧ ∀ g ∈ k.granules, (ownOf t g).image = false) ∧
    (job 0x10 → hosted → f 1 1 = 1 → f 0x18 8 % 64 = 0 → 63 < f 0x24 1 → ends (.loadImage j h) 5 0x0305 (f 0x24 1)) ∧
    (unloads → (getSlot s b.val (f 0x18 1)).unloadJob = some j → exec (.unloadImage j) s = .next (beginJob j s)) ∧
    (unloads → (getSlot s b.val (f 0x18 1)).unloadJob ≠ some j → ends (.unloadImage j) 5 0x0305 (f 0x18 1)) ∧
    (k.state = .unloading → (∀ u ∈ k.users, getJ s u = none) → k.unloadJob = some j → getJ s j = some x → x.result = none →
      ∃ t, exec (.slotUnloadComplete b slot) s = .next t ∧ getSlot t b.val slot.val = {} ∧
        getJ t j = some { x with result := some ⟨4, 0, 0⟩ } ∧ t.dev.mem = s.dev.mem ∧
        ∀ g ∈ k.granules, granuleBytes * g < reserveBase s → (ownOf t g).owner = .berth b ∧ (ownOf t g).image = false) ∧
    (runs → mayRun → devRead none false ks.addr ks.length s0 = (.ok bytes, s1) →
      checkImage bytes ks.length s.fw.runtimeVersion.toNat = .ok im →
      (∀ p, paramFault x im = some p → ends (.run j h) 5 0x0307 p) ∧
      (∀ p, paramFault x im = none → tableWaits s1 b j im = false → nullDir x im.stages = some p →
        owned (granulesOf (f 0x20 8) (granuleBytes * f 0x28 4)) → ends (.run j h) 5 0x0308 p) ∧
      (paramFault x im = none → tableWaits s1 b j im = false → nullDir x im.stages = none →
        owned (granulesOf (f 0x20 8) (granuleBytes * f 0x28 4)) → allSnapshots b x (numbered im.stages)
          (devWrite (some b) false (f 0x20 8) (constCopy x im bytes) s1).2 = (.ok dirs, s2) →
        (∀ p, bindTables s2 b j im = .error p → ends (.run j h) 5 0x0308 p) ∧
        (bindTables s2 b j im = .ok tags → readDescriptor b (f 0x18 8) im s2 = (.ok sets, s3) → ∃ t, exec (.run j h) s = .next t ∧
          (getJ t j).map (·.result) = some none ∧ j ∈ (getSlot t b.val (f 0x2C 1)).users ∧ ∃ r', getR t j = some r' ∧
          r' = { slot := f 0x2C 1, image := { im with stages := im.stages.map (bindStage x) }, codeBase := ks.addr + im.codeAt,
                 resultAddr := f 0x18 8, scratchAddr := f 0x20 8, scratchLength := granuleBytes * f 0x28 4,
                 rowLimit := f 0x30 8, timeLimit := f 0x38 4, dirs := dirs, tags := tags, sets := sets }))) ∧
    (runs → ks.state = .loading → loadedBefore → exec (.run j h) s = .next s0) ∧
    (runs → ¬ mayRun → ¬ (ks.state = .loading ∧ loadedBefore) → ends (.run j h) 5 0x0305 (f 0x2C 1)) ∧
    (unplaced → (getB s b.val).taskQuota.toNat < need → ends (.runPlacement j) 5 0x030D need) ∧
    (unplaced → canPlace s b r.image = true →
      (∀ e ∈ s.runs, e.1 < j → e.2.placed = false → ∀ z, getJ s e.1 = some z → z.berth = some b → z.result.isSome = true) →
      ∃ t, exec (.runPlacement j) s = .next t ∧ (getR t j).map (·.placed) = some true ∧
        (getR t j).map (·.started) = some s.sys.time ∧
        (getR t j).map (·.counts) = some (r.image.stages.map (stageCount s)) ∧
        (x.begun = false → x.state = 1 → (getJ t j).map (·.state) = some 2) ∧
        ∀ n ∈ freeTasks s need, (getT t n).job = some j ∧ (getT t n).berth = some b ∧
          ((getT t n).state = .waiting ∨ (getT t n).state = .ready)) ∧
    (job 0x13 → f 1 1 = 1 → zeros 0x20 32 →
      ((∀ e ∈ s.jobs, ¬ active e) → ends (.cancel j) 5 0x0312 0) ∧
      (getJ s u = some y → active (u, y) → (∀ e ∈ s.jobs, active e → e.1 = u) → ∃ t, exec (.cancel j) s = .next t ∧
        (getJ t j).map (·.result) = some (some ⟨4, 0, 0⟩) ∧
        getJ t u = some { y with cancelled := true, result := some ⟨6, 0, 0⟩ } ∧
        ∀ n, (getT s n).job = some u → (getT s n).state ≠ .free → (getT t n).flags.getLsbD 30 = true)) ∧
    (getJ s j = some x → getR s j = some r → taking s x = true → r.placed = true → r.timeLimit ≠ 0 →
      1000 * r.timeLimit ≤ x.timeUsed + (s.sys.time - r.started).toNat → ∃ t, exec (.timeLimitExpiry j) s = .next t ∧
        getJ t j = some { x with result := some ⟨5, 0x030F, r.timeLimit⟩ } ∧
        ∀ n, (getT s n).job = some j → (getT s n).state ≠ .free → (getT t n).flags.getLsbD 30 = true)

/-- Batches between and in stages (04, R154 to R156, R159, R163 to R165, R167, R169, R182, R191 to R193; 05, R198,
R228; 07, R290, R291, R295; 09, R369): credit, arrival, EXPR, EXCHANGE, the units beside the cores and EMIT. What the
model chose: log entries 48, 60, 61, 63, 220, 221, 222, 223. -/
def Obligations.StagesPassBatches : Prop :=
  ∀ (s : State) (j : Nat) (st : Fin 256) (i : Fin 16) (port : Fin 4) (edge : Fin 1024) (producer : Fin 32) (x : Job) (r : Run)
    (g : Stage) (n : Inst) (a : Arrived) (q : List Arrived) (e : Edge) (fl : Flight) (k : Nat) (c : Nat) (o : ExprOut)
    (orders : List (List Nat)) (keys users : List Nat) (skeys : List SortKey) (set : Nat) (y : EmitSet) (fn : Fin 64)
    (row : BitVec 64) (u : UserCall) (b : Fin 512) (rest : List Nat) (code : Nat),
    let onPlace := getJ s j = some x ∧ getR s j = some r ∧ r.image.stages[st.val]? = some g ∧ taking s x = true ∧
      r.placed = true ∧ i.val < instCount r st.val ∧ getI r st.val i.val = n
    let settled := n.owed = [] ∧ ∀ o ∈ n.out, o.batch.buffer.isSome = true
    let placed := onPlace ∧ n.queue = a :: q ∧ settled
    let runs := (getT s n.task).state = .running
    let inst := fun t => (getR t j).map (fun r => getI r st.val i.val)
    let ends := fun c code p => ∃ t, exec c s = .next t ∧ getJ t j = some { x with result := some ⟨5, code, p⟩ }
    let plain := fun cols rows => ∀ row ∈ rows, ∀ c ∈ cols, ∀ a n p, List.getD row c Value.null ≠ .long a n p
    let done := n.finished ++ [creditCode a.edge a.producer]
    let schema := inputSchema r st 0
    let rows := emitTakes r y (batchSelected a.batch)
    let kc := getCore s c
    let expr := g.body = .expr users ∧ holderOf s n.task = some c ∧ runs
    let reg := fun (t : State) m => tblGet 0 (getCore t c).g m
    let freg := fun (t : State) m => tblGet 0 (getCore t c).f m
    let keyed := (batchSelected a.batch).map (fun r => (inlineCols s (skeys.map (·.column)) r, r))
    (getR s j = some r → getI r st.val i.val = n → n.finished = code :: rest → n.heldFin ≤ rest.length → ∃ t r',
      exec (.edgeCreditReturn j st i) s = .next t ∧ getR t j = some r' ∧
      (∀ m, tblGet 0 r'.used m = if m = code / 32 * 32 + i.val then tblGet 0 r.used m - 1 else tblGet 0 r.used m) ∧
      getI r' st.val i.val = { n with finished := rest } ∧
      (∀ e p, r.image.edges[code / 32]? = some e → r.image.stages[e.src]? = some p → p.kind ≠ 1 → e.port < 4 →
        (getT s (getI r e.src (code % 32)).task).state ≠ .free →
        (getT t (getI r e.src (code % 32)).task).flags.getLsbD (4 + e.port) = true)) ∧
    (getR s j = some r → r.image.edges[edge.val]? = some e → r.mesh[k]? = some fl →
      r.mesh.findIdx? (fun f => decide (f.edge = edge.val) && decide (f.inst = i.val) && decide (f.producer = producer.val)) = some k →
      ∃ t r', exec (.batchArrival j edge i producer) s = .next t ∧ getR t j = some r' ∧ r'.mesh = r.mesh.eraseIdx k ∧
        getI r' e.dst i.val = { getI r e.dst i.val with
          queue := (getI r e.dst i.val).queue ++ [⟨edge.val, producer.val, fl.batch⟩] } ∧
        (e.dstPort < 4 → (getT s (getI r e.dst i.val).task).state ≠ .free →
          (getT t (getI r e.dst i.val).task).flags.getLsbD e.dstPort = true)) ∧
    (placed → expr → (∀ a o, n.work ≠ .inHand a o) → inEdge r st.val port.val = some (a.edge, e) → outCovered r n = true →
      kc.level = 2 → ∃ t, exec (.exprCall j st i port .enter) s = .next t ∧ inst t = some { n with
          queue := q, work := .inHand a [], taken := if n.before.isSome then n.taken ++ [a] else [a] } ∧
        (getCore t c).pc = BitVec.ofNat 64 (r.codeBase + g.entry) ∧ (getCore t c).level = 1 ∧ (getCore t c).ew = 0 ∧
        (getCore t c).vg = 0 ∧ (getCore t c).vl = 0 ∧ (getCore t c).sov = false ∧
        reg t 10 = BitVec.ofNat 64 ((a.batch.buffer.map (·.1)).getD 0) ∧ reg t 11 = BitVec.ofNat 64 port.val ∧
        reg t 12 = BitVec.ofNat 64 r.scratchAddr ∧ reg t 13 = Config.storeArea n.grove j st.val i.val ∧
        reg t 14 = Config.buildArea n.grove j st.val i.val ∧ (∀ m, m < 10 ∨ 14 < m → reg t m = tblGet 0 kc.g m) ∧
        (∀ b, x.berth = some b → kc.codeSeen < (getSlot s b.val r.slot).loadedAt → (getCore t c).codeSeen = s.dev.now)) ∧
    (onPlace → expr → n.work = .inHand a [] → kc.level = 2 → kc.excCause = 6 →
      (kc.excLevel = 1 → users[fn.val]? = some k → ∃ t, exec (.exprCall j st i port (.call fn row)) s = .next t ∧
        (getCore t c).level = 0 ∧ (getCore t c).pc = BitVec.ofNat 64 (r.codeBase + k) ∧
        (getCore t c).user = some ⟨kc.g, kc.f, kc.excPc + 4, row.toNat⟩ ∧
        (∀ m, reg t m = if 10 ≤ m ∧ m ≤ 15 then tblGet 0 kc.g m else 0) ∧
        ∀ m, freg t m = if m < 8 then tblGet 0 kc.f m else 0) ∧
      (kc.excLevel = 0 → kc.user = some u → ∃ t, exec (.exprCall j st i port .back) s = .next t ∧
        (getCore t c).level = 1 ∧ (getCore t c).pc = u.pc ∧ (getCore t c).user = none ∧
        (∀ m, reg t m = if m = 10 ∨ m = 11 then tblGet 0 kc.g m else tblGet 0 u.g m) ∧
        ∀ m, freg t m = if m < 4 then tblGet 0 kc.f m else tblGet 0 u.f m)) ∧
    (onPlace → settled → expr → n.work = .inHand a [] → kc.level = 1 →
      let fault := (tblGet 0 kc.g 10).toNat % 2 ^ 32
      let mask := (tblGet 0 kc.g 11).toNat
      let seq := tblGet 0 n.seqs o.port.val
      let batch := exprBatch (g.schemas.getD o.port.val []) o
      (fault ≠ 0 → ends (.exprCall j st i port (.returned [o])) 0x0310 fault) ∧
      (fault = 0 → o.port.val < g.outPorts → mask / 2 ^ o.port.val % 2 = 1 → (batchBytes batch).length ≤ 8388608 →
        a.batch.last = false → inputEnded r st.val i.val = false → ∃ t n' place,
          exec (.exprCall j st i port (.returned [o])) s = .next t ∧ inst t = some n' ∧ n'.work = .idle ∧
          n'.queue = n.queue ∧ n'.out = n.out ++ [⟨plainTargets r st.val o.port.val i.val,
            { batch with stage := st.val, inst := i.val, seq := seq, buffer := place }⟩] ∧
          n'.seqs = tblSet n.seqs o.port.val ((seq + 1) % 2 ^ 32) ∧ (place.isSome = true → n'.finished = done) ∧
          (getCore t c).level = 2)) ∧
    (placed → g.body = .exchange true keys → runs → outCovered r n = true → a.batch.last = false →
      inputEnded r st.val i.val = false → ∃ t n' place, exec (.exchangeBatch j st i) s = .next t ∧ inst t = some n' ∧
        n'.queue = q ∧ n'.out = n.out ++ [⟨allTargets r st.val 0,
          { a.batch with stage := st.val, inst := i.val, seq := tblGet 0 n.seqs 0, buffer := place }⟩]) ∧
    (placed → g.body = .exchange false keys → outCovered r n = true → unitTurn s j st.val i.val g n = true →
      plain keys (batchSelected a.batch) → inputEnded r st.val i.val = false → a.batch.last = false →
      exec (.exchangeBatch j st i) s = .next (finishBatch j st.val i.val a
        ((outEdges r st.val 0).foldl (fun s e => (List.range (instCount r e.2.dst)).foldl (fun s k =>
          pushRows j st.val i.val 0 [(e.1, k)] (g.schemas.getD 0 []) ((batchSelected a.batch).filter (fun row => decide
            ((keyHash (keyOf schema keys row)).toNat / 2 ^ 32 * instCount r e.2.dst / 2 ^ 32 = k))) s) s)
          (takeBatch j st.val i.val a q (onI j st.val i.val (fun n => { n with turn := none }) s))))) ∧
    (onPlace → n.turn = none → exec (.fixedUnitBatch j st i orders) s = .next s) ∧
    (placed → g.body = .sort skeys → n.work = .idle → unitTurn s j st.val i.val g n = true →
      plain (skeys.map (·.column)) (batchSelected a.batch) → a.batch.last = false → inputEnded r st.val i.val = false →
      runLength schema skeys keyed ≤ g.groveStore → ∃ t,
        exec (.fixedUnitBatch j st i orders) s = .next t ∧ inst t = some { n with
          queue := q, work := .run keyed [], finished := done, turn := none,
          heldFin := n.heldFin + (if n.before.isSome then 1 else 0),
          taken := if n.before.isSome then n.taken ++ [a] else [] } ∧
        ((getT s n.task).state ≠ .free → (getT t n.task).flags.getLsbD 8 = true) ∧ getJ t j = some x) ∧
    (placed → i.val = 0 → g.body = .emit set → x.berth = some b → runs → n.taken = [] →
      (freeChannel s false).isSome = true → tblFind r.sets set = some y →
      y.recorded ≠ some (a.edge, a.producer, a.batch.seq) →
      (rows ≠ [] → emitOverflow y schema rows = true → ends (.emitBatch j st) 0x030B set) ∧
      (∀ c p, rows ≠ [] → emitOverflow y schema rows = false → emitFault y schema rows = some (c, p) →
        ends (.emitBatch j st) c p) ∧
      (rows = [] ∨ (emitOverflow y schema rows = false ∧ emitFault y schema rows = none) →
        plain (List.range schema.length) rows →
        ∃ t r' y', exec (.emitBatch j st) s = .next t ∧ getR t j = some r' ∧ tblFind r'.sets set = some y' ∧
          y'.rows = y.rows + rows.length ∧ y'.recorded = some (a.edge, a.producer, a.batch.seq) ∧
          y'.stopped = (y.stopped || (decide (r.rowLimit ≠ 0) && decide (r.rowLimit ≤ y.rows + rows.length))) ∧
          (getJ t j).map (fun z => (z.rows, z.bytes)) = some (runTotals r') ∧
          (getI r' st.val 0).queue = q ∧ (getI r' st.val 0).finished = done))

/-- Jobs that move bytes (02, R74, R81 to R85, R89, R90; 13, R554 to R556, R578): PUT_BLOCKS, GET_BLOCKS, MOVE and
FILL leave at the destination what stood at the source, and report it. What the model chose: log entries 52, 53, 209,
211, 212, 213, 214, 215, 238. -/
def Obligations.JobsMoveBytes : Prop :=
  ∀ (s : State) (j : Nat) (x : Job) (b : Fin 512) (h : HostView) (k : Nat),
    let s0 := hostSync h s
    let begun := beginJob j s0
    let key := hostKey s (some b)
    let f := fun o n => field x.entry o n
    let zeros := fun o n => ∀ i, o ≤ i → i < o + n → x.entry.getD i 0 = 0
    let job := fun op => getJ s j = some x ∧ x.berth = some b ∧ workable s x = true ∧ x.opcode = op ∧ x.begun = false ∧ f 1 1 = 1
    let hosted := hostBlocked s0 = false ∧ s0.host.faults = []
    let whole := s.dev.failed = 0 ∧ s.dev.poison = [] ∧ s.dev.flaws = []
    let mayRead := fun a n => refusal s (some b) false a n = none ∧ a + n ≤ installedBytes s
    let mayWrite := fun a n => refusal s (some b) true a n = none ∧ a + n ≤ installedBytes s
    let apart := fun a n => writesPass s (some b) ∧ ∀ i < n, ∀ k < 64, (a + i) % 2 ^ 64 ≠ (x.statusAddr + k) % 2 ^ 64
    let ends := fun i st c p => ∃ t, exec i s = .next t ∧ (getJ t j).map (·.result) = some (some ⟨st, c, p⟩)
    let done := fun i n (held : State → Nat → Prop) => ∃ t, exec i s = .next t ∧
      (getJ t j).map (fun y => (y.result, y.bytes)) = some (some ⟨4, 0, 0⟩, n) ∧ ∀ i < n, held t i
    let dev := fun (s : State) a => memGet 0 s.dev.mem a
    let hdr := parseHeader (hostBytes begun key (f 0x18 8) 64)
    (job 0x20 → hosted → whole → f 0x18 8 % 64 = 0 → f 0x24 1 ≤ 31 → s.present.subchannels.getLsbD (f 0x24 1) = true →
      f 0x25 1 = 0 → f 0x26 2 = 0 → f 0x30 8 = 0 → f 0x38 8 = 0 → f 0x28 8 % 64 = 0 →
      localBase s (f 0x24 1) ≤ f 0x28 8 → f 0x28 8 + f 0x20 4 ≤ localBase s (f 0x24 1) + localBytes s →
      f 0x20 4 % 64 = 0 → 64 ≤ f 0x20 4 → headerOk hdr true = true → BlockHeader.footprint hdr = f 0x20 4 →
      mayWrite (f 0x28 8) (f 0x20 4) → x.bytes = 0 → done (.putBlocks j h) (f 0x20 4) (fun t i =>
        dev t (f 0x28 8 + i) = hostByte begun key (f 0x18 8 + i) ∧
        (getJ t j).map (fun y => (y.rows, y.progress)) = some (x.rows + hdr.rowCount, x.progress + 1))) ∧
    (getJ s j = some x → x.berth = some b → workable s x = true → x.opcode = 0x20 →
      (f 1 1 ≠ 1 → ends (.putBlocks j h) 5 0x0209 1) ∧
      (f 1 1 = 1 → f 0x18 8 % 64 ≠ 0 → ends (.putBlocks j h) 5 0x0209 0x18) ∧
      (f 1 1 = 1 → f 0x18 8 % 64 = 0 → f 0x20 4 % 64 ≠ 0 → ends (.putBlocks j h) 5 0x0209 0x20)) ∧
    (job 0x21 → whole → f 0x18 8 % 64 = 0 → f 0x24 1 = 0 → f 0x25 3 = 0 → f 0x28 8 % 64 = 0 → zeros 0x30 16 →
      f 0x20 4 % 64 = 0 → 64 ≤ f 0x20 4 → f 0x20 4 ≤ 4096 → mayRead (f 0x18 8) (f 0x20 4) → apart (f 0x28 8) (f 0x20 4) →
      x.bytes = 0 →
      done (.getBlocks j) (f 0x20 4) (fun t i => hostByte t key (f 0x28 8 + i) = dev s (f 0x18 8 + i))) ∧
    (job 0x22 → hosted → whole → zeros 0x31 15 → 1 ≤ f 0x28 8 → f 0x28 8 ≤ 4096 → x.bytes = 0 →
      (f 0x30 1 = 0 → mayWrite (f 0x20 8) (f 0x28 8) → done (.move j h) (f 0x28 8) (fun t i =>
        dev t (f 0x20 8 + i) = hostByte begun key (f 0x18 8 + i))) ∧
      (f 0x30 1 = 1 → mayRead (f 0x18 8) (f 0x28 8) → apart (f 0x20 8) (f 0x28 8) → done (.move j h) (f 0x28 8) (fun t i =>
        hostByte t key (f 0x20 8 + i) = dev s (f 0x18 8 + i))) ∧
      (f 0x30 1 = 2 → mayRead (f 0x18 8) (f 0x28 8) → mayWrite (f 0x20 8) (f 0x28 8) →
        f 0x18 8 + f 0x28 8 ≤ f 0x20 8 ∨ f 0x20 8 + f 0x28 8 ≤ f 0x18 8 → done (.move j h) (f 0x28 8) (fun t i =>
        dev t (f 0x20 8 + i) = dev s (f 0x18 8 + i))) ∧
      (f 0x30 1 = 2 → mayRead (f 0x18 8) (f 0x28 8) → mayWrite (f 0x20 8) (f 0x28 8) →
        f 0x20 8 < f 0x18 8 + f 0x28 8 → f 0x18 8 < f 0x20 8 + f 0x28 8 → ends (.move j h) 5 0x0802 0x18) ∧
      (f 0x30 1 = 3 → apart (f 0x20 8) (f 0x28 8) → done (.move j h) (f 0x28 8) (fun t i =>
        hostByte t key (f 0x20 8 + i) = hostByte begun key (f 0x18 8 + i)))) ∧
    (job 0x23 → zeros 0x31 15 → 1 ≤ f 0x20 8 → f 0x20 8 ≤ 0x1000000000 → x.bytes = 0 →
      (f 0x30 1 = 0 → whole → mayWrite (f 0x18 8) (f 0x20 8) → done (.fill j) (f 0x20 8) (fun t i =>
        dev t (f 0x18 8 + i) = x.entry.getD (0x28 + i % 8) 0 ∧
        (k < f 0x18 8 ∨ f 0x18 8 + f 0x20 8 ≤ k → dev t k = dev s k))) ∧
      (f 0x30 1 = 1 → f 0x20 8 ≤ 4096 → apart (f 0x18 8) (f 0x20 8) → done (.fill j) (f 0x20 8) (fun t i =>
        hostByte t key (f 0x18 8 + i) = x.entry.getD (0x28 + i % 8) 0)))

/-- Scans and gathers of the quays (02, R67, R69 to R71; 03, R94 to R103, R116 to R127, R129, R130, R133, R134, R717,
R718; 04, R163, R164): a scan task is handed over, opens its groups, reads, inflates and evaluates blocks, reads long
values and sends its batches, and the lanes of a gather have their values, where memory is sound and the blocks keep
their rules; a block that breaks one ends the job. What the model chose: log entries 42, 43, 46, 204, 205, 208, 209,
210, 215, 216, 218, 219, 220. -/
def Obligations.ScansTurnBlocksIntoBatches : Prop :=
  ∀ (s : State) (t : Nat) (x : ScanTask) (r : Run) (p : ScanPlan) (y : Job) (q sub : Fin 32) (busy : BitVec 32) (g : ScanGroup)
    (h : Hand) (hb pl : Bytes) (vs : List Value) (c k a n row i : Nat) (e : DirEntry) (surplus : Bool) (st : Option Nat)
    (o : Outgoing) (rest : List (Option Nat × Outgoing)) (orest : List Outgoing) (j : Nat) (stage : Fin 256) (inst : Fin 16)
    (u : Inst) (gs : Stage) (arr : Arrived) (outs : List (Option Value)) (lanes : List Nat) (dir : Directory)
    (col ty sc pp na : Nat),
    let serving := getScan s t = some x ∧ planOf s x = some (r, p) ∧ getJ s x.job = some y ∧
      servingQuay s x.sub = some q.val ∧ x.active = true ∧ taking s y = true ∧ s.sys.thermal ≠ 3
    let whole := s.dev.failed = 0 ∧ s.dev.poison = [] ∧ s.dev.flaws = []
    let readable := fun a n => refusal s y.berth false a n = none
    let after := fun i (ok : ScanTask → Prop) => ∃ v z, exec i s = .next v ∧ getScan v t = some z ∧ ok z
    let fails := fun i j code pos => ∃ v, exec i s = .next v ∧ (getJ v j).map (·.result) = some (some ⟨5, code, pos⟩)
    let first := x.stripes.headD 0
    let group := x.stripes.takeWhile (fun st => decide (p.blockOf 0 st = p.blockOf 0 first))
    let wanted := headersWanted p x.opened group
    let entry := fun b : Nat × Nat => ((p.dir b.1).entries[b.2]?).getD ⟨0, 0, 0, 0, 0⟩
    let header := fun b => devBytes s (entry b).address 64
    let sound := fun b => ((p.dir b.1).entries[b.2]?).isSome = true ∧ readable (entry b).address 64 ∧
      headerFault s (p.dir b.1) b.2 (entry b) (parseHeader (header b)) = none
    let packed := fun b : Bytes => (parseHeader b).packing = 1 ∨ (parseHeader b).packing = 2
    let hd := parseHeader h.stored
    let stored := (h.stored.drop 64).take hd.storedLength
    let pos := fun i => valPattern ((batchRow arr.batch i).getD col .null)
    let gh := parseHeader (devBytes s e.address 64)
    let gp := (devBytes s (e.address + 64) (BlockHeader.footprint gh - 64)).take gh.storedLength
    let outs1 := (nextLanes outs).foldl (fun l i => l.set i (some (vs.getD (pos i - e.firstRow) .null))) outs
    (getScan s t = some x → x.sub = sub.val → x.active = false → getJ s x.job = some y → taking s y = true →
      (servingQuay s sub.val).isSome = true → x.stage < 256 →
      (s.scans.filter (fun o => decide (o.2.sub = sub.val) && o.2.active)).length < 32 →
      (∀ o ∈ s.scans, o.1 ≠ t → o.2.sub = sub.val → o.2.active = false →
        x.job < o.2.job ∨ (x.job = o.2.job ∧ x.stage < o.2.stage)) →
      exec (.scanTaskHandoff sub) s = .next { s with scans := tblSet s.scans t { x with active := true } }) ∧
    (serving → whole → x.ready.length < 2 → x.opened.cands = [] → x.opened.hand = none → x.lastBuilt = false →
      x.stripes ≠ [] → (∀ b ∈ wanted, sound b) → after (.headerRead t) (fun z =>
        z.stripes = x.stripes.drop group.length ∧ z.watermark = x.watermark ∧ ∃ g, z.group = some g ∧
        g.headers = x.opened.headers ++ wanted.map (fun b => (b.1, b.2, header b)) ∧
        ∀ st ∈ g.cands, st ∈ group ∧ ruledOut p g.headers st = false)) ∧
    (serving → x.ready.length < 2 → x.opened.cands = [] → x.opened.hand = none → x.lastBuilt = false → x.stripes = [] →
      after (.headerRead t) (fun z => z.lastBuilt = true ∧ ∃ place, z.ready = x.ready ++ [(none,
        ⟨allTargets r x.stage 0, { lastBatch x.stage x.sub 0 (scanSchema r x) with
          seq := (x.seq + x.ready.length) % 2 ^ 32, buffer := place }⟩)])) ∧
    (∀ f, serving → whole → y.result = none → x.ready.length < 2 → x.opened.cands = [] → x.opened.hand = none →
      x.lastBuilt = false → x.stripes ≠ [] → wanted.head? = some (c, k) → (p.dir c).entries[k]? = some e →
      readable e.address 64 → headerFault s (p.dir c) k e (parseHeader (devBytes s e.address 64)) = some f →
      fails (.headerRead t) x.job f.1 f.2) ∧
    (serving → whole → x.sub = q.val → s.scans = [(t, x)] → x.group = some g → scanNeed p x = .block c k →
      (p.dir c).entries[k]? = some e → g.headers.find? (fun h => decide (h.1 = c) && decide (h.2.1 = k)) = some (c, k, hb) →
      readable (e.address + 64) (BlockHeader.footprint (parseHeader hb) - 64) → after (.blockRead q busy) (fun z =>
        z.ready = x.ready ∧ z.group = some { g with hand := some {
          column := c, index := k,
          stored := hb ++ devBytes s (e.address + 64) (BlockHeader.footprint (parseHeader hb) - 64),
          inflating := decide (packed hb) } })) ∧
    (serving → x.group = some g → g.hand = some h → h.inflating = true → t ∈ (inflating s q.val).take 16 →
      (∀ b, unpackPayload hd stored = .ok b → after (.inflateComplete t busy) (fun z =>
        z = { x with group := some { g with hand := some { h with inflating := false } } })) ∧
      (unpackPayload hd stored = .error (c, k) → y.result = none → fails (.inflateComplete t busy) x.job c k)) ∧
    (serving → x.group = some g → g.hand = some h → h.inflating = false → x.ready.length < 2 →
      BlockHeader.twoPass hd = false ∨ h.again = true → BlockHeader.dictRef hd = false ∨ BlockHeader.allNull hd = true →
      (checkPayload hd stored = (.ok pl, surplus) → decodeValues (interBytes s) hd [] pl = .ok vs →
        after (.blockEvaluate t busy) (fun z => ∃ g' kb, z.group = some g' ∧ kb ∈ g'.values ∧ kb.column = h.column ∧
          kb.index = h.index ∧ kb.values = vs ∧ g'.hand = none ∧ ∀ st ∈ g'.cands, st ∈ g.cands) ∧
        (counterVal s (.quay q) 10 + 1 < 2 ^ 32 → ∃ v, exec (.blockEvaluate t busy) s = .next v ∧
          counterVal v (.quay q) 10 = counterVal s (.quay q) 10 + (if surplus then 1 else 0))) ∧
      (y.result = none → checkPayload hd stored = (.error (c, k), surplus) → fails (.blockEvaluate t busy) x.job c k) ∧
      (y.result = none → checkPayload hd stored = (.ok pl, surplus) → decodeValues (interBytes s) hd [] pl = .error (c, k) →
        fails (.blockEvaluate t busy) x.job c k)) ∧
    (serving → x.group = some g → scanNeed p x = .long a n row →
      (longOk (interBytes s) a n = false → y.result = none → fails (.longValueRead t) x.job 0x0206 row) ∧
      (whole → longOk (interBytes s) a n = true → readable a n → after (.longValueRead t) (fun z =>
        ∃ g', z.group = some g' ∧ (a, n, devBytes s a n) ∈ g'.longs))) ∧
    (serving → x.ready = (st, o) :: rest → o.batch.buffer.isSome = true →
      let sent := r.mesh ++ o.targets.map (fun t => ⟨t.1, t.2, x.sub, o.batch⟩)
      (creditFor r o.targets = false → exec (.batchEgress (.scan t) busy) s = .next (count (.quay q) 19 busy.toNat s)) ∧
      (creditFor r o.targets = true → o.batch.last = true → ∃ v, exec (.batchEgress (.scan t) busy) s = .next v ∧
        getScan v t = none ∧ (getR v x.job).map (·.mesh) = some sent) ∧
      (creditFor r o.targets = true → o.batch.last = false → after (.batchEgress (.scan t) busy) (fun z =>
        rest <+: z.ready ∧ z.watermark = (st.map (· + 1)).getD x.watermark ∧ z.seq = (x.seq + 1) % 2 ^ 32) ∧
        ∃ v, exec (.batchEgress (.scan t) busy) s = .next v ∧ (getR v x.job).map (·.mesh) = some sent)) ∧
    (getJ s j = some y → getR s j = some r → taking s y = true → getI r stage.val inst.val = u → u.out = o :: orest →
      (∀ o ∈ u.out, o.batch.buffer.isSome = true) → u.owed = [] → u.heldOut ≤ orest.length → creditFor r o.targets = true →
      ∃ v r', exec (.batchEgress (.unit j stage inst) busy) s = .next v ∧
        getR v j = some r' ∧ getI r' stage.val inst.val = { u with out := orest } ∧
        r'.mesh = r.mesh ++ o.targets.map (fun t => ⟨t.1, t.2, inst.val, o.batch⟩)) ∧
    (getJ s j = some y → getR s j = some r → r.image.stages[stage.val]? = some gs → taking s y = true → r.placed = true →
      inst.val < instCount r stage.val → getI r stage.val inst.val = u → gs.body = .fetch pp na col ty sc false →
      u.work = .inHand arr outs → (tblGet [] r.dirs stage.val).head? = some dir → s.sys.thermal ≠ 3 →
      nextLanes outs = i :: lanes →
      (Directory.entryOf dir (pos i) = none → y.result = none → servingQuay s ((presentSubs s).headD 0) = some q.val →
        fails (.gatherGroup j stage inst) j 0x0210 (pos i)) ∧
      (whole → (∀ m ∈ i :: lanes, Directory.entryOf dir (pos m) = some (k, e)) → servingQuay s e.subchannel = some q.val →
        readable e.address (max 64 e.footprint) → readable e.address 64 → headerFault s dir k e gh = none →
        readable (e.address + 64) (BlockHeader.footprint gh - 64) → BlockHeader.twoPass gh = false →
        BlockHeader.dictRef gh = false ∨ BlockHeader.allNull gh = true → checkPayload gh gp = (.ok pl, surplus) →
        decodeValues (interBytes s) gh [] pl = .ok vs → ∃ v, exec (.gatherGroup j stage inst) s = .next v ∧
          ((∃ o ∈ outs1, o = none) → getJ v j = some y ∧
            (getR v j).map (fun r => (getI r stage.val inst.val).work) = some (.inHand arr outs1)) ∧
          ((∀ o ∈ outs1, o.isSome = true) → u.queue = [] → 0 < arr.batch.rows →
            (batchBytes (withColumn arr.batch ty sc outs1)).length ≤ 8388608 → ∃ r' out, getR v j = some r' ∧
            out ∈ (getI r' stage.val inst.val).out ∧ out.batch.rows = arr.batch.rows ∧
            out.batch.columns = arr.batch.columns ++ [⟨ty, sc, outs1.map (fun v => v.getD .null)⟩])))

/-- Canopy tables (06, R242 to R247, R259, R260 to R271, R277 to R281): creation and replacement from load records or
a pattern image, DROP and its completion, and updates in order. A CREATE whose records all fit leaves a READY table
whose copies hold exactly its entries. What the model chose: log entries 66, 67, 68, 69, 70. -/
def Obligations.CanopyTablesAreLoadedAndDropped : Prop :=
  ∀ (s s1 s3 : State) (j : Nat) (x y : Job) (b : Fin 512) (h : HostView) (bytes : Bytes) (tag k c d : Nat)
    (t : CTable) (ps : Places) (slots home : Nat) (mirror : Option Nat) (ops : List MicroOp) (id : Fin 256),
    let s0 := hostSync h s
    let f := fun o n => field x.entry o n
    let job := fun op => getJ s j = some x ∧ x.berth = some b ∧ workable s x = true ∧ x.opcode = op ∧ x.begun = false
    let hosted := hostBlocked s0 = false ∧ changeWaits s0 b j (f 0x24 1) = false
    let ends := fun i st c p => ∃ u, exec i s = .next u ∧ (getJ u j).map (·.result) = some (some ⟨st, c, p⟩) ∧
      u.canopy = s.canopy
    let read := fun n => hostRead (some b) (f 0x18 8) n (beginJob j s0)
    let lt := lookupTable b x
    let placed := fun (u : State) (base tag : Nat) (ps : Places) (n : Nat) => ∀ k < n,
      entryAt u (base + k) = ((tblFind ps k).map (fun e => { e with tag := tag })).getD { tag := tag }
    let tableIs := fun (u : State) (tag : Nat) (z : CTable) (ps : Places) => tblFind u.canopy.tables tag = some z ∧
      placed u z.home tag ps z.capacity ∧ (∀ m, z.mirror = some m → placed u m tag ps z.capacity)
    let loads := job 0x38 ∧ hosted ∧ canopyLoadFault x = none
    let readIn := fun u => hostRead (some b) (f 0x18 8) (64 * f 0x20 4) (beginJob j u) = (.ok bytes, s1)
    let recs := loadRecords lt.capacity tag lt.fields 0 0 [] (chunks 64 (f 0x20 4) bytes)
    let pat := job 0x3A ∧ hosted ∧ patternLoadFault x = none
    let pt := patternTable b x bytes
    let found := tableOf s b (f 0x24 1) = some (tag, t) ∧ tblFind s.canopy.tables tag = some t
    (loads → f 0x25 1 = 1 →
      (∀ c p, createFault s0 b lt.id (entriesAsked lt) 0 = some (c, p) → ends (.canopyLoadCreate j h) 5 c p) ∧
      (createFault s0 b lt.id (entriesAsked lt) 0 = none →
        (placeTable lt.capacity lt.mirrorAsked s0 = none → ends (.canopyLoadCreate j h) 5 0x0503 0) ∧
        (placeTable lt.capacity lt.mirrorAsked s0 = some (home, mirror, s3) → freeTag s3 = tag → readIn s3 →
          (recs = (ps, slots, k, some c) → ∃ u, exec (.canopyLoadCreate j h) s = .next u ∧ u.canopy = s3.canopy ∧
            (getJ u j).map (fun z => (z.result, z.rows)) = some (some ⟨5, c, k⟩, x.rows + k)) ∧
          (recs = (ps, slots, k, none) → ∃ u, exec (.canopyLoadCreate j h) s = .next u ∧
            tableIs u tag { lt with home := home, mirror := mirror } ps ∧
            (getJ u j).map (fun z => (z.result, z.rows)) = some (some ⟨4, 0, 0⟩, x.rows + f 0x20 4))))) ∧
    (loads → f 0x25 1 = 2 →
      (tableOf s b (f 0x24 1) = none → ends (.canopyLoadReplace j h) 5 0x0505 (f 0x24 1)) ∧
      (found → t.pattern = true → ends (.canopyLoadReplace j h) 5 0x0507 (f 0x24 1)) ∧
      (found → t.pattern = false → t.state = .ready → t.fields = lt.fields → quotaFault s0 b (entriesAsked lt) 0 = none →
        placeTable lt.capacity lt.mirrorAsked s0 = some (home, mirror, s3) → freeTag s3 = d → readIn s3 →
        loadRecords lt.capacity d lt.fields 0 0 [] (chunks 64 (f 0x20 4) bytes) = (ps, slots, k, none) →
        ∃ u, exec (.canopyLoadReplace j h) s = .next u ∧
          tblFind u.canopy.tables tag = some { lt with home := home, mirror := mirror, users := t.users } ∧
          (getJ u j).map (fun z => (z.result, z.rows)) = some (some ⟨4, 0, 0⟩, x.rows + f 0x20 4))) ∧
    (job 0x38 → changeWaits s b j (f 0x24 1) = false → canopyLoadFault x = none → f 0x25 1 = 3 →
      (tableOf s b (f 0x24 1) = none → ends (.canopyLoadDrop j) 5 0x0505 (f 0x24 1)) ∧
      (found → t.state = .ready → ∃ u, exec (.canopyLoadDrop j) s = .next u ∧ (getJ u j).map (·.result) = some none ∧
        tblFind u.canopy.tables tag = some { t with state := .dropping, dropJob := some j }) ∧
      (found → t.state = .unavailable → ∃ u, exec (.canopyLoadDrop j) s = .next u ∧
        (getJ u j).map (·.result) = some (some ⟨4, 0, 0⟩) ∧ tblFind u.canopy.tables tag = none)) ∧
    (tableOf s b id.val = some (tag, t) → tblFind s.canopy.tables tag = some t → t.state = .dropping → t.dropJob = some j →
      getJ s j = some y → y.result = none → tableHolders s b j id.val t = [] → ∃ u, exec (.tableDropComplete b id) s = .next u ∧
        tblFind u.canopy.tables tag = none ∧ (getJ u j).map (·.result) = some (some ⟨4, 0, 0⟩) ∧
        ∀ base ∈ copiesOf t, ∀ k < t.capacity, entryAt u (base + k) = { tag := 0xFFFF }) ∧
    (job 0x39 → hosted → f 1 1 = 1 → f 0x18 8 % 64 = 0 → 1 ≤ f 0x20 4 → f 0x20 4 ≤ 65536 →
      (∀ i, 0x25 ≤ i → i < 0x40 → x.entry.getD i 0 = 0) →
      (tableOf s b (f 0x24 1) = none → ends (.canopyUpdate j h) 5 0x0505 (f 0x24 1)) ∧
      (found → t.pattern = true → ends (.canopyUpdate j h) 5 0x0507 (f 0x24 1)) ∧
      (found → t.pattern = false → t.state ≠ .ready → ends (.canopyUpdate j h) 5 0x0505 (f 0x24 1)) ∧
      (found → t.pattern = false → t.state = .ready → readIn s0 → ∃ u, exec (.canopyUpdate j h) s = .next u ∧
        (getJ u j).map (·.result) = some none ∧ u.canopy.entries = s.canopy.entries ∧
        tblFind u.canopy.tables tag = some { t with updates := t.updates ++ [(j, 0, chunks 64 (f 0x20 4) bytes)] })) ∧
    (pat → f 0x25 1 = 1 → createFault s0 b (f 0x24 1) 0 0 = none → read (f 0x20 4) = (.ok bytes, s1) →
      (∀ o, (patternTests bytes (f 0x20 4)).find? (fun t => !t.1) = some (false, o) → ends (.patternLoadCreate j h) 5 0x0508 o) ∧
      ((∀ t ∈ patternTests bytes (f 0x20 4), t.1 = true) → freeTag s1 = tag →
        insertAll pt.capacity [] (patternEntries bytes tag) = some (ops, ps) →
        quotaFault s1 b (entriesAsked pt) pt.states = none →
        placeTable pt.capacity pt.mirrorAsked s1 = some (home, mirror, s3) → ∃ u, exec (.patternLoadCreate j h) s = .next u ∧
          tableIs u tag { pt with home := home, mirror := mirror } ps ∧
          (getJ u j).map (fun z => (z.result, z.rows)) = some (some ⟨4, 0, 0⟩, x.rows) ∧
          (getB u b.val).measurementCount = (getB s b.val).measurementCount + 1)) ∧
    (pat → f 0x25 1 = 2 →
      (tableOf s b (f 0x24 1) = none → ends (.patternLoadReplace j h) 5 0x0505 (f 0x24 1)) ∧
      (found → t.pattern = false → ends (.patternLoadReplace j h) 5 0x0507 (f 0x24 1)) ∧
      (found → t.pattern = true → t.state = .ready → read (f 0x20 4) = (.ok bytes, s1) →
        (∀ t ∈ patternTests bytes (f 0x20 4), t.1 = true) → freeTag s1 = d →
        insertAll pt.capacity [] (patternEntries bytes d) = some (ops, ps) →
        quotaFault s1 b (entriesAsked pt) pt.states = none →
        placeTable pt.capacity pt.mirrorAsked s1 = some (home, mirror, s3) → ∃ u, exec (.patternLoadReplace j h) s = .next u ∧
          tblFind u.canopy.tables tag = some { pt with home := home, mirror := mirror, users := t.users } ∧
          (getJ u j).map (·.result) = some (some ⟨4, 0, 0⟩) ∧
          (getB u b.val).measurementCount = (getB s b.val).measurementCount + 1))

/-- The Canopy banks (06, R238, R239, R241, R248 to R250, R256, R257, R272 to R276, R279, R282): a search finds the
lowest-placed entry that matches, outcomes reach their rows, pattern engines step, update slots write, the parity scan
moves on, and entries and banks come back from the shadow. What the model chose: log entries 71, 72, 73, 225, 226. -/
def Obligations.CanopyBanksSearchAndReload : Prop :=
  ∀ (s : State) (b : Fin 16) (t : CTable) (q : Search) (p k base : Nat) (f : Flying) (fs : List Flying) (r : Run)
    (a : Arrived) (outs : List (Option Value)) (x : Text) (c : Byte) (cs : Bytes) (m : Bool) (op : MicroOp)
    (rest : List (Bool × MicroOp)) (j n tag : Nat) (y : Job) (rec : Bytes) (more : List (Nat × Nat × List Bytes)) (w : Bool),
    let B := getBank s b.val
    let serves := s.present.banks.getLsbD b.val = true ∧ B.state = 0
    let after := fun i (z : Bank) => ∃ u, exec i s = .next u ∧ getBank u b.val = z ∧ u.canopy.tables = s.canopy.tables ∧
      u.canopy.entries = s.canopy.entries
    let matchesAt := fun key k => k < t.capacity ∧ keyMatches key (entryAt s (base + k)) = true ∧ t.excluded ≠ some (m, k)
    let wins := fun key k => matchesAt key k ∧ ∀ i < k, ¬ matchesAt key i
    let ties := fun key k => ∃ i, i ≠ k ∧ matchesAt key i ∧
      maskLength (entryAt s (base + i)).mask = maskLength (entryAt s (base + k)).mask
    let copy := tblFind s.canopy.tables tag = some t ∧ m = decide (bankOf t.home ≠ b.val) ∧ base = copyBase t m
    let idle := serves ∧ B.bad = none
    let inHand := fun (g : Nat) st i => getR s g = some r ∧ (getI r st i).work = .inHand a outs ∧
      (getI r st i).searches = [] ∧ (getI r st i).texts = []
    let delivered := fun i g st inst row v => ∃ u r', exec i s = .next u ∧ getR u g = some r' ∧
      (getI r' st inst).work = .inHand a (outs.set row (some v))
    let key := patternKey x.state c
    let text := idle ∧ B.waiting = [] ∧ B.texts = [x] ∧ x.tag = tag ∧ copy ∧ x.rest = c :: cs
    let back := fun (u : State) p => entryAt u p = parseShadow (devBytes s (shadowAt s p) 64)
    let place := match op with | .copy _ d => d | .write d _ => d | .delete d => d | .setResult d _ => d
    let slot := serves ∧ updateFor s b.val = some (tag, t) ∧ tblFind s.canopy.tables tag = some t
    (idle → B.waiting = [q] → B.texts = [] → q.tag = tag → copy →
      ((∀ k, ¬ matchesAt q.key k) → ∃ bal, after (.search b w) { B with
        waiting := [], flying := B.flying ++ [⟨q, false, false, 0⟩], balance := bal, lastTag := tag }) ∧
      (wins q.key k → ∃ bal multi, (multi = true ↔ ties q.key k) ∧ after (.search b true) { B with
        waiting := [], flying := B.flying ++ [⟨q, true, multi, (entryAt s (base + k)).result⟩], balance := bal, lastTag := tag }) ∧
      (wins q.key k → ∃ bal, after (.search b false) { B with bad := some (base + k), balance := bal, lastTag := tag })) ∧
    (B.flying = f :: fs → ∃ u, exec (.searchComplete b) s = .next u ∧ (getBank u b.val).flying = fs ∧
      u.canopy.tables = s.canopy.tables ∧ u.canopy.entries = s.canopy.entries) ∧
    (B.flying = f :: fs → inHand f.search.job f.search.stage f.search.inst →
      delivered (.searchComplete b) f.search.job f.search.stage f.search.inst f.search.row
        (if f.hit then .num f.result else .null)) ∧
    (text → (∀ k, ¬ matchesAt key k) → inHand x.job x.stage x.inst →
      delivered (.patternStep b w) x.job x.stage x.inst x.row (.num 0)) ∧
    (text → wins key k → bitOf (entryAt s (base + k)).result 17 = true → inHand x.job x.stage x.inst →
      delivered (.patternStep b true) x.job x.stage x.inst x.row (.num 1)) ∧
    (text → wins key k → bitOf (entryAt s (base + k)).result 17 = false → cs = [] → inHand x.job x.stage x.inst →
      delivered (.patternStep b true) x.job x.stage x.inst x.row (.num (b2n (bitOf (entryAt s (base + k)).result 16)))) ∧
    (text → wins key k → bitOf (entryAt s (base + k)).result 17 = false → cs ≠ [] → ∃ bal, after (.patternStep b true) { B with
      texts := [{ x with rest := cs, state := (entryAt s (base + k)).result % 65536,
                         accept := bitOf (entryAt s (base + k)).result 16 }]
      balance := bal, lastTag := tag }) ∧
    (slot → t.ops = (m, op) :: rest → rest ≠ [] → base = copyBase t m → ∃ u, exec (.updateSlotWrite b w) s = .next u ∧
      (∃ ex, tblFind u.canopy.tables tag = some { t with ops := rest, excluded := ex } ∧
        ex = match op with | .copy _ d => some (m, d) | .write _ _ => none | _ => t.excluded) ∧
      entryAt u (base + place) = (match op with
        | .copy d _ => entryAt s (base + d)
        | .write _ e => e
        | .delete _ => { tag := tag }
        | .setResult d v => { entryAt s (base + d) with result := v }) ∧
      (∀ i, i ≠ base + place → entryAt u i = entryAt s i) ∧
      u.dev = (devPut (shadowAt s (base + place)) (shadowBytes (entryAt u (base + place))) s).dev) ∧
    (slot → t.ops = [(m, op)] → t.updates = (j, n, [rec]) :: more → getJ s j = some y → y.result = none →
      ∃ u, exec (.updateSlotWrite b w) s = .next u ∧
        (getJ u j).map (fun z => (z.result, z.rows)) = some (some ⟨4, 0, 0⟩, y.rows + 1) ∧
        (tblFind u.canopy.tables tag).map (fun z => (z.ops, z.updates)) = some ([], more)) ∧
    (slot → t.ops = [] → t.updates = (j, n, [rec]) :: more → getJ s j = some y → y.result = none →
      recordOps false t.capacity tag t.fields (placesOf s t.home t.capacity) rec = .error k →
      ∃ u, exec (.updateSlotWrite b w) s = .next u ∧ (getJ u j).map (fun z => (z.result, z.rows)) = some (some ⟨5, k, n⟩, y.rows) ∧
        u.canopy.entries = s.canopy.entries) ∧
    (idle → after (.parityScanRead b true w) { B with scan := (B.scan + 1) % 32768 } ∧
      after (.parityScanRead b false w) { B with scan := (B.scan + 1) % 32768, bad := some (b.val * 32768 + B.scan) }) ∧
    (B.bad = some p → ∃ u, exec (.parityErrorReload b) s = .next u ∧ back u p ∧ (getBank u b.val).bad = none ∧
      (∀ i, i ≠ p → entryAt u i = entryAt s i) ∧ (s.mram.logFull = false → s.log.queue.length < 1024 → ∃ z,
        u.log.queue = s.log.queue ++ [z] ∧ z.code = 0x3004)) ∧
    (B.state = 2 → ∃ u, exec (.bankReload b) s = .next u ∧ getBank u b.val = { B with state := 0 } ∧
      (∀ i < 32768, back u (b.val * 32768 + i)) ∧ ∀ i, i / 32768 ≠ b.val → entryAt u i = entryAt s i)

/-- Berths (11, R456 to R461, R464, R466 to R468): CREATE gives a berth its granules and queues, a failed CREATE
changes its status alone, DESTROY leaves nothing of it but its parameters and fault registers, CLEAR_FAULT lets it go
on, and an ownership violation makes it FAULTED and ends its jobs. What the model chose: log entries 115, 116. -/
def Obligations.BerthsComeAndGo : Prop :=
  ∀ (s : State) (b : Fin 512) (offset : BitVec 32) (data : Bytes) (v : Violation) (vs : List Violation) (j code : Nat) (x : Job),
    let B := getB s b.val
    let others := fun (t : State) => ∀ c, c ≠ b.val → getB t c = getB s c
    let refused := fun i code => ∃ t, exec i s = .next t ∧ t = withBerth b.val { B with commandStatus := BitVec.ofNat 16 code }
      { s with pcie := t.pcie } ∧ tblGet false t.pcie.esPending 1650 = true
    let answers := fun i (code : BitVec 32) (s' : State) => exec i s = .next { s' with dict := { s'.dict with answer := ⟨[], code⟩ } }
    (s.sys.tisum = true → createCode s b.val = none → ∃ t, exec (.create b) s = .next t ∧ others t ∧
      getB t b.val = { B with
        state := .active, faultCode := 0, faultAddress := 0, faultCount := 0, measurementCount := 0, measurements := [],
        digest := List.replicate 48 0, queueErrors := 0, slots := [], dirty := {}, freeze := none, commandStatus := 2 } ∧
      (∀ g, g ∈ granulesIn (extentsOf B) → (ownOf t g).owner = .berth b ∧ (ownOf t g).init = (ownOf s g).init) ∧
      (∀ g, g ∉ granulesIn (extentsOf B) → ownOf t g = ownOf s g) ∧ t.dev.mem = s.dev.mem ∧
      (∀ k < B.queueCount.toNat, getQ t (8 * b.val + k) = { state := .disabled }) ∧
      (∀ q, q / 8 ≠ b.val → B.queueCount.toNat ≤ 8 → getQ t q = getQ s q) ∧
      tblGet false t.pcie.esPending 1650 = true) ∧
    (s.sys.tisum = true → createCode s b.val = some code → refused (.create b) code) ∧
    (s.sys.tisum = true → B.state ≠ .absent → refused (.create b) 0x8001) ∧
    (s.sys.tisum = true → B.state = .absent → (s.sys.mode = .boot ∨ s.sys.mode = .hold ∨ s.sys.mode = .reset) →
      refused (.create b) 0x8002) ∧
    (s.sys.tisum = true → B.state = .absent → commandMode s = true → (B.pasid = 0 ∨ 0xFFFFF < B.pasid.toNat ∨
      ∃ c ∈ existing s, c.2.pasid = B.pasid) → refused (.create b) 0x8003) ∧
    (s.sys.tisum = true → B.state = .absent → refused (.destroy b) 0x8001) ∧
    (s.sys.tisum = true → B.state ≠ .absent → commandMode s = true → ∃ t, exec (.destroy b) s = .next t ∧ others t ∧
      getB t b.val = { B with
        state := .absent, slots := [], dirty := {}, freeze := none, queueErrors := 0, commandStatus := 2 } ∧
      (∀ g, (ownOf t g).owner ≠ .berth b) ∧ (∀ k < 8, getQ t (8 * b.val + k) = {}) ∧
      (∀ j x, getJ t j = some x → x.berth ≠ some b) ∧ (∀ e ∈ t.canopy.tables, e.2.berth ≠ b) ∧
      (∀ e ∈ t.eng.contexts, e.1 / 64 ≠ b.val) ∧ (∀ e ∈ t.eng.keys, e.1 / 256 ≠ b.val) ∧
      (∀ i < 3, tblGet false t.pcie.esPending (3 * b.val + i) = false ∧
        (tblGet 0 t.pcie.esSteer (3 * b.val + i)).getLsbD 15 = false)) ∧
    (s.sys.tisum = true → B.state ≠ .faulted → refused (.clearFault b) 0x8001) ∧
    (s.sys.tisum = true → B.state = .faulted → commandMode s = true → ∃ t, exec (.clearFault b) s = .next t ∧ others t ∧
      getB t b.val = { B with state := .active, commandStatus := 2 } ∧ t.jobs = s.jobs ∧ t.dev = s.dev) ∧
    (s.sys.tisum = true →
      (data.length % 8 ≠ 0 → answers (.granuleExtentsWrite b offset data) 0x06070010 s) ∧
      (B.state = .absent → data.length % 8 = 0 → offset = 0 → 8 ≤ data.length → data.length ≤ 512 →
        answers (.granuleExtentsWrite b offset data) 0 (withBerth b.val { B with extents := data } s)) ∧
      (B.state = .absent → data.length % 8 = 0 → offset.toNat = B.extents.length → offset ≠ 0 →
        8 ≤ B.extents.length + data.length → B.extents.length + data.length ≤ 512 →
        answers (.granuleExtentsWrite b offset data) 0 (withBerth b.val { B with extents := B.extents ++ data } s)) ∧
      (B.state ≠ .absent → data.length % 8 = 0 → offset = 0 → 8 ≤ data.length → data.length ≤ 512 →
        answers (.granuleExtentsWrite b offset data) 0x08000022 s)) ∧
    (s.violations = v :: vs → v.berth = b → B.state = .active → ∃ t, exec (.berthFault false) s = .next t ∧
      t.violations = vs ∧ (getB t b.val).state = .faulted ∧ (getB t b.val).faultCode = 0x0701 ∧
      (getB t b.val).faultAddress = BitVec.ofNat 64 v.addr ∧
      (getB t b.val).faultCount.toNat = min (B.faultCount.toNat + 1) 0xFFFFFFFF ∧
      tblGet false t.pcie.esPending (3 * b.val + 1) = true ∧ t.dev.mem = s.dev.mem ∧
      (getJ s j = some x → x.berth = some b → x.result = none → getJ t j = none) ∧
      (s.mram.logFull = false → s.log.queue.length < 1024 → ∃ r, t.log.queue = s.log.queue ++ [r] ∧ r.code = 0x5001 ∧
        r.source = BitVec.ofNat 16 (0x1000 + b.val)) ∧
      (jobsOf s b = [(j, x)] → getJ s j = some x → x.result = none → isMigration x = false → v.job = some j →
        (getQ t x.queue).tags = (getQ s x.queue).tags.map
          (fun y => if y.tag = x.tag then { y with state := 5, fault := 0x0701 } else y)) ∧
      (jobsOf s b = [(j, x)] → getJ s j = some x → x.result = none → isMigration x = false → v.job ≠ some j →
        (getQ t x.queue).tags = (getQ s x.queue).tags.map
          (fun y => if y.tag = x.tag then { y with state := 5, fault := 0x0702 } else y))) ∧
    (s.violations = v :: vs → v.berth = b → (B.state = .faulted ∨ B.state = .frozen) →
      exec (.berthFault false) s = .next (withBerth b.val { B with
        faultCount := BitVec.ofNat 32 (min (B.faultCount.toNat + 1) 0xFFFFFFFF) } { s with violations := vs }))

/-- Migration of a berth (11, R471 to R474, R478 to R487; 09, R388): freeze, its completion and its timeout, thaw,
saving and restoring of the state image and of granules, and dirty logging. What the model chose: log entries 119,
120, 122, 123, 124, 231, 241, 242. -/
def Obligations.BerthsMoveByMigrationJobs : Prop :=
  ∀ (s s1 s2 : State) (j : Nat) (x y : Job) (b : Fin 512) (h : HostView) (fz : Freeze) (g : Nat) (l : Bytes) (v : SavedBerth) (n : Nat),
    let B := getB s b.val
    let s0 := hostSync h s
    let f := fun o n => field x.entry o n
    let zeros := fun o n => ∀ i, o ≤ i → i < o + n → x.entry.getD i 0 = 0
    let mig := fun op => getJ s j = some x ∧ workable s x = true ∧ x.opcode = op ∧ x.berth = none ∧ x.begun = false ∧
      migWaits s j x = false ∧ f 1 1 = 1 ∧ f 0x18 2 = b.val
    let ends := fun i st c p => ∃ t, exec i s = .next t ∧ (getJ t j).map (·.result) = some (some ⟨st, c, p⟩) ∧ getB t b.val = B
    let after := fun i r (z : Berth) => ∃ t, exec i s = .next t ∧ (getJ t j).map (·.result) = some r ∧ getB t b.val = z
    let did := fun i (held : State → Prop) => ∃ t, exec i s = .next t ∧ (getJ t j).map (·.result) = some (some ⟨4, 0, 0⟩) ∧ held t
    let done : Option JobEnd := some ⟨4, 0, 0⟩
    let freezes := mig 0x40 ∧ zeros 0x1A 2 ∧ f 0x1C 4 ≤ 60000 ∧ zeros 0x20 32
    let part0 := f 0x1A 1 = 0 ∧ zeros 0x1B 5 ∧ f 0x20 8 % 64 = 0 ∧ f 0x30 8 = 0 ∧ zeros 0x38 8
    let part1 := fun n => f 0x1A 1 = 1 ∧ zeros 0x1B 1 ∧ f 0x1C 4 = n ∧ 1 ≤ n ∧ n ≤ 524288 ∧ f 0x20 8 % 64 = 0 ∧
      f 0x28 8 = granuleBytes * n ∧ f 0x30 8 % 64 = 0 ∧ zeros 0x38 8
    let apart := fun a n => writesPass s none ∧ ∀ i < n, ∀ k < 64, (a + i) % 2 ^ 64 ≠ (x.statusAddr + k) % 2 ^ 64
    let hosted := hostBlocked s0 = false ∧ s0.host.faults = []
    let listed := leNat (hostBytes (migStarted x 1 (beginJob j s0)) 0 (f 0x30 8) 4) = g
    let whole := s.dev.failed = 0 ∧ s.dev.poison = [] ∧ s.dev.flaws = [] ∧ refusal s none true (granuleBytes * g) granuleBytes = none
    let dirty := fun op running => mig 0x44 ∧ f 0x1A 1 = op ∧ zeros 0x1C 4 ∧ (op ≠ 4 → f 0x30 8 = 0) ∧ zeros 0x38 8 ∧
      (op ≠ 1 → f 0x1B 1 = 0 ∧ f 0x20 8 = 0 ∧ f 0x28 8 = 0) ∧ B.state ≠ .absent ∧ B.migrationMode = 1 ∧ B.dirty.running = running
    let consIn := fun u => BitVec.ofNat 32 (leNat (hostBytes u 0 B.dirty.indexAddr 4))
    (freezes → B.state = .active →
      after (.berthFreeze j) none { B with state := .freezing, freeze := some ⟨j,
        s.sys.time.toNat + (if f 0x1C 4 = 0 then 1000 else f 0x1C 4) * 1000, s.sys.time.toNat⟩ }) ∧
    (freezes → B.state ≠ .active → ends (.berthFreeze j) 5 0x0710 B.state.code) ∧
    (B.state = .freezing → B.freeze = some fz → fz.job = j → getJ s j = some y → y.result = none →
      (quiet s b = true → after (.freezeComplete b) done { B with state := .frozen, freeze := none }) ∧
      (quiet s b = false → exec (.freezeComplete b) s = .next s) ∧
      (∀ t o, quiet s b = true → (getT s t).berth = some b → (getT s t).expiry = some o → ∃ u,
        exec (.freezeComplete b) s = .next u ∧ (getT u t).expiry = none ∧ (getT u t).frozenDelay = some
          (if 0 < (o - s.pilot.tick).toNat ∧ (o - s.pilot.tick).toNat < 2 ^ 31 then o - s.pilot.tick else 0)) ∧
      (fz.deadline ≤ s.sys.time.toNat → after (.freezeTimeout b) (some ⟨5, 0x0712, tasksRunning s b⟩)
        { B with state := .active, freeze := none })) ∧
    (mig 0x43 → zeros 0x1A 38 →
      (B.state ≠ .frozen → ends (.berthThaw j) 5 0x0710 B.state.code) ∧
      (B.state = .frozen → serving s = false → ends (.berthThaw j) 5 0x0711 s.sys.mode.code) ∧
      (B.state = .frozen → serving s = true → after (.berthThaw j) done { B with state := .active }) ∧
      (∀ t o, B.state = .frozen → serving s = true → (getT s t).berth = some b → (getT s t).state ≠ .free →
        (getT s t).frozenDelay = some o → ∃ u, exec (.berthThaw j) s = .next u ∧
          (getT u t).expiry = some (s.pilot.tick + o) ∧ (getT u t).frozenDelay = none)) ∧
    (mig 0x41 → part0 →
      (B.state ≠ .frozen → ends (.berthSaveState j) 5 0x0710 B.state.code) ∧
      (B.state = .frozen → f 0x28 8 < (stateImage s b).length →
        ends (.berthSaveState j) 5 0x0713 (stateImage s b).length) ∧
      (B.state = .frozen → (stateImage s b).length ≤ f 0x28 8 → apart (f 0x20 8) (stateImage s b).length →
        did (.berthSaveState j) (fun t => (getJ t j).map (·.bytes) = some (x.bytes + (stateImage s b).length) ∧
          ∀ i < (stateImage s b).length, hostByte t 0 (f 0x20 8 + i) = (stateImage s b).getD i 0))) ∧
    (mig 0x41 → part1 1 → hosted → listed → B.state = .frozen →
      ((ownOf s g).owner ≠ .berth b → ends (.berthSaveGranules j h) 5 0x0716 0) ∧
      ((ownOf s g).owner = .berth b → whole → apart (f 0x20 8) granuleBytes →
        did (.berthSaveGranules j h) (fun t =>
          (getJ t j).map (fun z => (z.rows, z.bytes)) = some (x.rows + 1, x.bytes + granuleBytes) ∧
          ∀ i < granuleBytes, hostByte t 0 (f 0x20 8 + i) =
            if (ownOf s g).init then memGet 0 s.dev.mem (granuleBytes * g + i) else 0))) ∧
    (mig 0x41 → part1 n → B.state = .active → (B.migrationMode ≠ 1 ∨ B.dirty.running = false) →
      ends (.berthSaveGranules j h) 5 0x0710 1) ∧
    (mig 0x42 → part1 1 → hosted → listed → B.state = .frozen →
      ((ownOf s g).owner ≠ .berth b → ends (.berthRestoreGranules j h) 5 0x0716 0) ∧
      ((ownOf s g).owner = .berth b → whole → did (.berthRestoreGranules j h) (fun t =>
        (getJ t j).map (fun z => (z.rows, z.bytes)) = some (x.rows + 1, x.bytes + granuleBytes) ∧
        (∀ i < granuleBytes, memGet 0 t.dev.mem (granuleBytes * g + i) =
          hostByte (migStarted x 1 (beginJob j s0)) 0 (f 0x20 8 + i)) ∧
        (B.dirty.running = true → tblGet false (getB t b.val).dirty.bitmap g = true)))) ∧
    (mig 0x42 → part0 →
      (mayRestore s0 b = false → ends (.berthRestoreState j h) 5 0x0710 B.state.code) ∧
      (mayRestore s0 b = true → hostBlocked s0 = false →
        hostRead none (f 0x20 8) (f 0x28 8) (migStarted x (f 0x28 8) (beginJob j s0)) = (.ok l, s1) →
        (∀ o, imageFault l (f 0x28 8) = some o → ends (.berthRestoreState j h) 5 0x0714 o) ∧
        (imageFault l (f 0x28 8) = none → Config.readSections l = some v →
          (∀ o, matchFault s1 b l v = some o → ends (.berthRestoreState j h) 5 0x0715 o) ∧
          (matchFault s1 b l v = none → restoreBerth b v s1 = none → ends (.berthRestoreState j h) 5 0x0503 0) ∧
          (matchFault s1 b l v = none → restoreBerth b v s1 = some s2 → getJ s2 j = getJ s1 j →
            did (.berthRestoreState j h) (fun t => (getB t b.val).state = .frozen ∧
              (getB t b.val).measurements = v.measurements ∧ (getB t b.val).shareWeight = B.shareWeight ∧
              (getB t b.val).pasid = B.pasid))))) ∧
    (dirty 1 false → 10 ≤ f 0x1B 1 → f 0x1B 1 ≤ 20 → f 0x20 8 % 64 = 0 → f 0x28 8 % 128 = 0 →
      after (.dirtyLogStart j) done { B with dirty :=
        { running := true, ringAddr := f 0x20 8, ringOrder := f 0x1B 1, indexAddr := f 0x28 8, held := B.dirty.held } }) ∧
    (dirty 1 true → 10 ≤ f 0x1B 1 → f 0x1B 1 ≤ 20 → f 0x20 8 % 64 = 0 → f 0x28 8 % 128 = 0 →
      ends (.dirtyLogStart j) 5 0x0710 B.state.code) ∧
    (dirty 2 true → after (.dirtyLogStop j) done { B with dirty := { B.dirty with
      running := false, held := if hostBlocked s then B.dirty.held else [] } }) ∧
    (dirty 2 false → ends (.dirtyLogStop j) 5 0x0710 B.state.code) ∧
    (dirty 3 true → hosted → B.dirty.held = [] → after (.dirtyLogSync j h) done { B with dirty := { B.dirty with
      cons := consIn (migStarted x 0 (beginJob j s0)), filter := [] } }) ∧
    (dirty 4 true → f 0x30 8 % 64 = 0 → writesPass s none → did (.fetchBitmap j) (fun t =>
      getB t b.val = { B with dirty := { B.dirty with bitmap := [] } } ∧
      ∀ i < 65536, ∀ k < 8, (hostByte t 0 (f 0x30 8 + i)).getLsbD k = tblGet false B.dirty.bitmap (8 * i + k))) ∧
    (hosted → B.dirty.held ≠ [] → ∃ t, exec (.dirtyRingReread b h) s = .next t ∧
      (getB t b.val).dirty.cons = consIn s0)

/-- The memory controllers (12, R499, R503 to R506, R510 to R514, R516, R517, R519 to R524, R526, R528): zero-fill,
ownership, refresh, temperature, rows, writes, scrub, alerts and retraining, and the layout of memory at boot. What
the model chose: log entries 126, 129, 130, 131, 132. -/
def Obligations.MemoryControllersDoTheirWork : Prop :=
  ∀ (s : State) (x bank : Fin 32) (g : Fin 524288) (tag owner : Option (Fin 512)) (write image hot replayed : Bool) (n : Nat)
    (celsius : BitVec 32) (finding : ScrubFinding) (p : Fin 5) (outcomes : List TrainOutcome),
    let c := getSub s x.val
    let e := ownOf s g.val
    let up := subUp s x.val = true
    let withSub := fun (z : Subchannel) => { s with dev := { s.dev with subs := tblSet s.dev.subs x.val z } }
    let gives := fun i (z : Subchannel) => exec i s = .next (withSub z)
    let logged := fun (t : State) code p1 => s.mram.logFull = false → s.log.queue.length < 1024 → ∃ r,
      t.log.queue = s.log.queue ++ [r] ∧ r.code = code ∧ r.p0 = BitVec.ofNat 32 x.val ∧ r.p1 = p1
    let mine := fun h => granuleExists s h = true ∧ (granuleSubs s h).contains x.val = true ∧ (ownOf s h).init = false ∧
      (tblGet 0 s.dev.parts h).getLsbD x.val = false
    let line := lineAt s x.val c.scrubLine
    let scrubs := up ∧ (ownOf s (line / 32768)).init = true ∧ line ∉ s.dev.poison
    let scrubbed := fun (t : State) => (getSub t x.val).scrubLine = (c.scrubLine + 1) % subLines ∧ t.dev.mem = s.dev.mem
    let trains := s.sys.mode = .boot ∧ s.sys.tisum = true ∧ s.sys.laidOut = false
    let goes := fun h => wouldRetire s outcomes h = true
    (memoryUp s = true → granuleExists s g.val = true → e.init = false → e.filling = false →
      (tagPasses tag write e = true → exec (.granuleFirstTouch g tag write) s = .next
        { s with dev := { s.dev with own := tblSet s.dev.own g.val { e with filling := true } } }) ∧
      (tagPasses tag write e = false → exec (.granuleFirstTouch g tag write) s = .next s)) ∧
    (memoryUp s = true → e.init = false → e.filling = true → ∃ t, exec (.zeroFillComplete g) s = .next t ∧
      ownOf t g.val = { e with init := true, filling := false } ∧ (∀ h, h ≠ g.val → ownOf t h = ownOf s h) ∧
      t.dev.mem = s.dev.mem ∧ ∀ l, l ∈ t.dev.poison ↔ l ∈ s.dev.poison ∧ l / 32768 ≠ g.val) ∧
    (up → mine n → c.initNext ≤ n → (∀ h, c.initNext ≤ h → h < n → ¬ mine h) →
      ∃ t, exec (.backgroundInitialisation x) s = .next t ∧ getSub t x.val = { c with initNext := n + 1 } ∧
        ((∃ y ∈ granuleSubs s n, y ≠ x.val ∧ (tblGet 0 s.dev.parts n).getLsbD y = false) →
          (ownOf t n).init = false ∧ (tblGet 0 t.dev.parts n).getLsbD x.val = true) ∧
        ((∀ y ∈ granuleSubs s n, y ≠ x.val → (tblGet 0 s.dev.parts n).getLsbD y = true) → (ownOf t n).init = true)) ∧
    (memoryUp s = true → granuleExists s g.val = true →
      (granuleBytes * g.val < reserveBase s ∨ interBytes s ≤ granuleBytes * g.val) → ∃ t, exec (.ownershipChange g owner image) s = .next t ∧
      ownOf t g.val = (match owner with | some b => { e with owner := .berth b, image := image } | none => {}) ∧
      (∀ h, h ≠ g.val → ownOf t h = ownOf s h) ∧
      ∀ a, memGet 0 t.dev.mem a = if owner = none ∧ a / granuleBytes = g.val then 0 else memGet 0 s.dev.mem a) ∧
    (up →
      gives (.refresh x bank) { c with openRows := tblErase c.openRows bank.val, refreshes := c.refreshes + 1 } ∧
      gives (.rowClose x bank) { c with openRows := tblErase c.openRows bank.val } ∧
      gives (.writeQueueDrain x) { c with writeQueue := [] } ∧ gives (.dqsTracking x) { c with tracked := c.tracked + 1 } ∧
      gives (.zqCalibration x) { c with calibrated := c.calibrated + 1 } ∧
      gives (.refreshRateRead x hot) { c with tempBand := if c.tempBand = 2 then 2 else if hot then 1 else 0 }) ∧
    (up → c.tempBand ≠ 2 → 95 ≤ celsius.toInt → ∃ t, exec (.temperatureLimit x celsius) s = .next t ∧
      getSub t x.val = { c with tempBand := 2 } ∧ logged t 0x2030 celsius) ∧
    (up → c.tempBand = 2 → celsius.toInt < 90 → ∃ t, exec (.temperatureLimit x celsius) s = .next t ∧
      getSub t x.val = { c with tempBand := if 85 ≤ celsius.toInt then 1 else 0 } ∧ logged t 0x2031 celsius) ∧
    (up → ((c.tempBand = 2 ∧ 90 ≤ celsius.toInt) ∨ (c.tempBand ≠ 2 ∧ celsius.toInt < 95)) →
      exec (.temperatureLimit x celsius) s = .next s) ∧
    (scrubs → tblFind s.dev.flaws line = none →
      (∃ t, exec (.patrolScrub x .clean) s = .next t ∧ scrubbed t ∧ t.dev.poison = s.dev.poison) ∧
      (∃ t, exec (.patrolScrub x (.correctable p)) s = .next t ∧ scrubbed t ∧ t.dev.poison = s.dev.poison ∧
        ∃ y d, (p.val, line, s.sys.time.toNat) ∈ (getSub t y).corrected ∧ y = (locate s d).1 ∧ d = line * 64) ∧
      (∃ t, exec (.patrolScrub x .uncorrectable) s = .next t ∧ scrubbed t ∧ t.dev.poison = line :: s.dev.poison ∧
        logged t 0x2010 (BitVec.ofNat 32 (line * 64 % 2 ^ 32)))) ∧
    (scrubs → tblFind s.dev.flaws line = some none → ∃ t, exec (.patrolScrub x finding) s = .next t ∧ scrubbed t ∧
      t.dev.poison = line :: s.dev.poison) ∧
    (up → c.failedRetrains = 0 → c.alerts + 1 < 4 → ∃ t, exec (.caParityAlert x replayed) s = .next t ∧
      getSub t x.val = { c with alerts := if replayed then 0 else c.alerts + 1 } ∧ t.log = s.log) ∧
    (up → c.failedRetrains = 0 → 4 ≤ c.alerts + 1 → ∃ t, exec (.caParityAlert x replayed) s = .next t ∧
      getSub t x.val = { c with alerts := c.alerts + 1, state := if c.state = 0 then 1 else c.state } ∧
      logged t 0x2020 (BitVec.ofNat 32 (c.alerts + 1))) ∧
    (up → 4 ≤ c.alerts →
      gives (.caRetraining x true) { c with alerts := 0, failedRetrains := 0, state := if c.state = 1 then 0 else c.state } ∧
      (c.failedRetrains + 1 < 3 → ∃ t, exec (.caRetraining x false) s = .next t ∧
        getSub t x.val = { c with failedRetrains := c.failedRetrains + 1 } ∧ t.sys = s.sys) ∧
      (3 ≤ c.failedRetrains + 1 → s.sys.mode ≠ .hold → ∃ t, exec (.caRetraining x false) s = .next t ∧
        t.sys.mode = .hold ∧ t.sys.holdCause = 0x2021 ∧ t.mram.retired.subchannels.getLsbD x.val = true)) ∧
    (trains → (∀ h < 32, ¬ goes h) → layoutRefused s [] = false → ∃ t, exec (.dramTrainingComplete outcomes) s = .next t ∧
      t.sys = { s.sys with laidOut := true } ∧ t.present = s.present ∧ t.dev.shareGib = settingActive s 0x2300 1) ∧
    (trains → goes x.val → (∀ h < 32, h ≠ x.val → ¬ goes h) → layoutRefused s [x.val] = false →
      ∃ t, exec (.dramTrainingComplete outcomes) s = .next t ∧ t.sys.laidOut = true ∧ t.sys.mode = .boot ∧
        (∀ h < 32, t.present.subchannels.getLsbD h = (s.present.subchannels.getLsbD h && decide (h ≠ x.val))) ∧
        t.present.quays.getLsbD x.val = false ∧ t.mram.retired.subchannels.getLsbD x.val = true ∧
        t.dev.shareGib = settingActive s 0x2300 1) ∧
    (trains → (∃ h < 32, ∃ k < 32, h ≠ k ∧ goes h ∧ goes k) → ∃ t, exec (.dramTrainingComplete outcomes) s = .next t ∧
      t.sys.mode = .hold ∧ t.sys.holdCause = 0x2021 ∧ t.sys.laidOut = false ∧ t.present = s.present)

/-- Compression and digest jobs (13, R557 to R564, R566 to R576): frames are cut, worked on by any engine and
committed in order; messages hold their places, and their digests, verdicts and key slots are what FIPS 180-4 and
198-1 make of the bytes. What the model chose: log entries 104, 105, 106, 107, 108, 109, 203. -/
def Obligations.FramesAndDigestsAreComputed : Prop :=
  ∀ (s s1 : State) (j c p a len k i : Nat) (x : Job) (b : Fin 512) (h : HostView) (l : List (Nat × Nat)) (tail : Option (Nat × Nat))
    (fj : FrameJob) (place : Nat × Nat) (e : Fin 4) (busy : BitVec 32) (raw : Bytes) (m : Context) (slot : KeySlot) (agree : Bool)
    (d : DigestJob) (rest : List (Nat × Nat × Nat)) (lane : Fin 16),
    let s0 := hostSync h s
    let f := fun o n => field x.entry o n
    let key := hostKey s (some b)
    let job := fun op => getJ s j = some x ∧ x.berth = some b ∧ workable s x = true ∧ x.opcode = op
    let fresh := fun op => job op ∧ x.begun = false
    let hosted := hostBlocked s0 = false ∧ s0.host.faults = []
    let ends := fun i st c p => ∃ t, exec i s = .next t ∧ (getJ t j).map (·.result) = some (some ⟨st, c, p⟩)
    let done : Option JobEnd := some ⟨4, 0, 0⟩
    let apart := fun a n => writesPass s (some b) ∧ ∀ i < n, ∀ k < 64, (a + i) % 2 ^ 64 ≠ (x.statusAddr + k) % 2 ^ 64
    let holds := fun (t : State) a (bytes : Bytes) => ∀ i < bytes.length, hostByte t key (a + i) = bytes.getD i 0
    let lone := getFrames s j = some fj ∧ fj.frames = [place] ∧ fj.next = 0 ∧ fj.out = 0 ∧ fj.raw = 0 ∧ fj.skip = 0 ∧ fj.done = [] ∧
      fj.tail = none ∧ engineServes s e.val = true ∧ f 0x28 8 = 0 ∧ frameLocation x = 0 ∧ x.rows = 0 ∧ x.bytes = 0
    let input := hostBytes s0 key (f 0x18 8 + place.1) place.2
    let frame := frameBytes (buildFrame (f 0x38 1) (f 0x39 1) input)
    let places := (getB s b.val).digestContexts.toNat
    let slots := (getB s b.val).keySlots.toNat
    let dig := fun op ph => fresh op ∧ digestFault x = none ∧ digestPhase x = ph ∧ digestPlace x = p ∧ p < places ∧
      placeQueue s b j p = [] ∧ f 0x28 2 = 0
    let after := fun i (ok : State → Prop) => ∃ t, exec i s = .next t ∧ (getJ t j).map (·.result) = some done ∧ ok t
    let held := getContext s b.val p = some m ∧ m.alg = f 0x2A 1 ∧ m.job = none
    let expected := hostBytes (beginJob j s0) key (f 0x30 8) (f 0x38 1)
    let same := decide ((messageDigest m).take (f 0x38 1) = expected)
    (fresh 0x30 →
      (compressFault x = some (c, p) → ends (.compress j) 5 c p) ∧
      (compressFault x = none → s.present.compression = 0 → ends (.compress j) 5 0x0901 64) ∧
      (compressFault x = none → s.present.compression ≠ 0 → ∃ t, exec (.compress j) s = .next t ∧
        getFrames t j = some { compress := true, frames := cutInput (f 0x38 1 * 1024) (f 0x30 4) } ∧
        (getJ t j).map (fun y => (y.result, y.begun)) = some (none, true))) ∧
    (fresh 0x31 →
      (decompressFault x = some (c, p) → ends (.decompress j h) 5 c p) ∧
      (decompressFault x = none → s.present.compression ≠ 0 → hosted → f 0x28 8 = 0 →
        cutStream x (f 0x30 4 / 16 + 2) 0 0 none [] (beginJob j s0) = (.frames l tail, s1) →
        (l ≠ [] → ∃ t, exec (.decompress j h) s = .next t ∧ (getJ t j).map (fun y => (y.result, y.begun)) = some (none, true) ∧
          getFrames t j = some { compress := false, frames := l, tail := tail }) ∧
        (∀ c p, l = [] → tail = some (c, p) → ends (.decompress j h) 5 c p))) ∧
    (job 0x30 → lone → hosted → fj.compress = true → frame.length ≤ f 0x34 4 → apart (f 0x20 8) frame.length →
      after (.frameComplete j 0 e busy h) (fun t => holds t (f 0x20 8) frame ∧
        (getJ t j).map (fun y => (y.rows, y.bytes)) = some (1, frame.length))) ∧
    (job 0x30 → lone → hosted → fj.compress = true → f 0x34 4 < frame.length → ends (.frameComplete j 0 e busy h) 5 0x0804 0) ∧
    (job 0x31 → lone → hosted → fj.compress = false →
      (∀ z, decodeFrame input (decide (f 0x30 4 ≤ place.1 + 16 + roundUp (field input 4 4) 8)) fj.base = z → z.fault = none →
        z.bytes = raw → raw.length ≤ f 0x34 4 → apart (f 0x20 8) raw.length →
        after (.frameComplete j 0 e busy h) (fun t => holds t (f 0x20 8) raw ∧
          (getJ t j).map (fun y => (y.rows, y.bytes)) = some (1, raw.length))) ∧
      (∀ z, decodeFrame input (decide (f 0x30 4 ≤ place.1 + 16 + roundUp (field input 4 4) 8)) fj.base = z →
        z.fault = some (c, p) → ends (.frameComplete j 0 e busy h) 5 c p)) ∧
    ((job 0x30 ∨ job 0x31) → getFrames s j = some fj → fj.frames[k]? = some place → fj.next < k → fj.next < fj.frames.length →
      tblFind fj.done fj.next = none → tblFind fj.done k = none → engineServes s e.val = true → hosted → frameLocation x = 0 →
      ∃ t y, exec (.frameComplete j k e busy h) s = .next t ∧ (getJ t j).map (fun y => (y.result, y.rows)) = some (none, x.rows) ∧
        getFrames t j = some { fj with done := tblSet fj.done k y } ∧ t.host.mem = s0.host.mem) ∧
    (dig 0x32 1 → getContext s b.val p = none →
      (takesKey x = false → after (.digestStart j h) (fun t => getContext t b.val p =
        some { alg := f 0x2A 1, state := shaInit (hashOf (f 0x2A 1)), job := some j })) ∧
      (takesKey x = true → f 0x2D 1 < slots → tblFind s.eng.keys (slotKey b.val (f 0x2D 1)) = some slot → slot.alg = f 0x2A 1 →
        after (.digestStart j h) (fun t => getContext t b.val p =
          some { alg := f 0x2A 1, state := slot.inner, outer := some slot.outer, job := some j })) ∧
      (takesKey x = true → (slots ≤ f 0x2D 1 ∨ tblFind s.eng.keys (slotKey b.val (f 0x2D 1)) = none) →
        ends (.digestStart j h) 5 0x0811 (f 0x2D 1))) ∧
    (dig 0x32 1 → getContext s b.val p = some m → ∃ t, exec (.digestStart j h) s = .next t ∧ getContext t b.val p = some m ∧
      (getJ t j).map (fun y => (y.result, y.begun)) = some (none, false)) ∧
    (dig 0x32 0 → held → after (.digestContinue j h) (fun t => getContext t b.val p = some { m with job := some j })) ∧
    (dig 0x32 0 → getContext s b.val p = none → ends (.digestContinue j h) 5 0x0810 p) ∧
    (dig 0x32 2 → held → apart (f 0x20 8) (messageDigest m).length → after (.digestFinish j h) (fun t =>
      getContext t b.val p = none ∧ holds t (f 0x20 8) (messageDigest m))) ∧
    (dig 0x32 3 → takesKey x = false → getContext s b.val p = none → apart (f 0x20 8) 64 → after (.digestOneshot j h) (fun t =>
      getContext t b.val p = none ∧
      holds t (f 0x20 8) (shaFinal (hashOf (f 0x2A 1)) (shaInit (hashOf (f 0x2A 1)))))) ∧
    (dig 0x32 4 → held → after (.digestAbort j) (fun t => getContext t b.val p = none ∧ t.host.mem = (beginJob j s).host.mem)) ∧
    (dig 0x33 2 → held → hosted → f 0x2E 1 = 0 → apart (f 0x20 8) 16 →
      (agree = true → after (.digestVerify j h agree) (fun t => getContext t b.val p = none ∧
        holds t (f 0x20 8) (verdictBytes x same same))) ∧
      (agree = false → ∃ t z, exec (.digestVerify j h agree) s = .next t ∧
        (getJ t j).map (·.result) = some (some ⟨5, 0x0814, 0⟩) ∧ holds t (f 0x20 8) (verdictBytes x z (!z)) ∧
        (s.mram.logFull = false → s.log.queue.length < 1024 → t.log.queue.length = s.log.queue.length + 1))) ∧
    ((job 0x32 ∨ job 0x33) → hosted → f 0x2E 1 = 0 → fragmentWaiters s = [(j, b.val, d, min len 16384)] →
      getDigestJob s j = some d → d.fragments = (a, len, i) :: rest → 1 ≤ len → (16384 < len ∨ rest ≠ []) →
      getContext s b.val d.place = some m → ∃ t, exec (.fragmentComplete lane busy h) s = .next t ∧
        getContext t b.val d.place = some { m with
          state := shaUpdate (hashOf m.alg) m.state (hostBytes s0 key a (min len 16384)) } ∧
        (getDigestJob t j).map (·.fragments) = some (if 16384 < len then (a + 16384, len - 16384, i) :: rest else rest) ∧
        (getJ t j).map (fun y => (y.result, y.bytes)) = some (none, x.bytes + min len 16384)) ∧
    (job 0x34 → f 0x23 1 = 1 → x.begun = false →
      (keyFault s0 b x = some (c, p) → ends (.setKeyLoad j h) 5 c p) ∧
      (keyFault s0 b x = none → hosted → after (.setKeyLoad j h) (fun t => tblFind t.eng.keys (slotKey b.val (f 0x22 1)) =
        some (keySlotOf (f 0x24 1) (hostBytes (beginJob j s0) key (f 0x18 8) (f 0x20 2)))))) ∧
    (job 0x34 → f 0x23 1 = 2 → keyFault s b x = none → after (.setKeyErase j) (fun t =>
      tblFind t.eng.keys (slotKey b.val (f 0x22 1)) = none ∧
      ∀ k, k ≠ slotKey b.val (f 0x22 1) → tblFind t.eng.keys k = tblFind s.eng.keys k))

/-- Crane channels (13, R538 to R541, R545, R547 to R552): start and stop, the checks of a descriptor, bursts of COPY
and FILL, request lines with LAST and SURPLUS, and the write-back that ends a descriptor. What the model chose: log
entries 111, 112, 113, 242. -/
def Obligations.CraneChannelsMoveBursts : Prop :=
  ∀ (s : State) (c : Fin 64) (w : Fin 129) (addr : BitVec 64) (bytes data : Bytes) (d : Descriptor) (r wb z : BitVec 32) (h : HostView) (code i : Nat)
    (surplus : Bool) (b : Fin 512) (t : Task),
    let k := getCh s c.val
    let s0 := hostSync h s
    let block := fun o => 0x20000200000 + 0x40 * c.val + o
    let stores := fun a n => runtimeReady s w ∧ coreQuiet s w ∧ accessType (getCore s w.val) true false a n = .ok true ∧
      coreTag s w.val a = none ∧ regAnswers s a (.channel c.val ((a - block 0) / 8)) = true
    let gives := fun i (z : Channel) => exec i s = .next (withCore w
      (next { getCore s w.val with floor := s.dev.now })
      { s with eng := { s.eng with channels := tblSet s.eng.channels c.val z } })
    let after := fun i (z : Channel) => ∃ t, exec i s = .next t ∧ getCh t c.val = z
    let run := cranesRun s = true
    let whole := s.dev.failed = 0 ∧ s.dev.poison = [] ∧ s.dev.flaws = []
    let reads := fun a n => refusal s d.tag false a n = none ∧ a + n ≤ installedBytes s
    let writes := fun a n => refusal s d.tag true a n = none ∧ a + n ≤ installedBytes s
    let n := burstBytes k d
    let busy := run ∧ k.state = .running ∧ k.fetch = false ∧ k.ending = none ∧ k.desc = some d
    let alone := s.eng.channels = [(c.val, k)]
    let moved := fun m extra => { k with
      done := k.done + BitVec.ofNat 64 m, waitSince := s.sys.time.toNat,
      ending := if d.length ≤ (k.done + BitVec.ofNat 64 m).toNat then some (1, extra) else none }
    let stored := fun (t : State) a (v : Bytes) => ∀ i < v.length, memGet 0 t.dev.mem (a + i) = v.getD i 0
    let isMem := fun a n (v : Bytes) => v.length = n ∧ ∀ i < n, v.getD i 0 = memGet 0 s.dev.mem (a + i)
    let ended := run ∧ k.ending = some (code, surplus) ∧ k.desc = some d
    let status := k.current.toNat + 0x38
    (stores (block 0) 8 → k.state = .idle ∨ k.state = .halted → gives (.chStart w c addr)
      { k with state := .running, current := addr, done := 0, desc := none, fetch := true, ending := none }) ∧
    (stores (block 0) 8 → k.state = .running ∨ k.state = .stopping → exec (.chStart w c addr) s =
      .next (withCore w (next { getCore s w.val with floor := s.dev.now }) s)) ∧
    (stores (block 0xC) 4 → k.state = .running → gives (.stop w c) { k with
      state := .stopping, ending := if k.fetch || k.ending.isSome then k.ending else some (3, false) }) ∧
    (stores (block 0xC) 4 → k.state ≠ .running → exec (.stop w c) s =
      .next (withCore w (next { getCore s w.val with floor := s.dev.now }) s)) ∧
    (coreReady s w → coreQuiet s w → ∀ e, accessType (getCore s w.val) true false (block 0) 8 = .error e →
      takesException s w (.chStart w c addr) e (BitVec.ofNat 64 (block 0))) ∧
    (run → k.fetch = true → whole → refusal s none false k.current.toNat 64 = none → isMem k.current.toNat 64 bytes →
      (descriptorOk bytes = true → after (.descriptorFetch c) { k with
        desc := some (parseDescriptor bytes), fetch := false, done := 0, waitSince := s.sys.time.toNat,
        ending := if k.state = .stopping then some (3, false) else none }) ∧
      (descriptorOk bytes = false → after (.descriptorFetch c) { k with
        desc := some (parseDescriptor bytes), fetch := false, done := 0, waitSince := s.sys.time.toNat,
        ending := some (7, false) })) ∧
    (run → k.fetch = true → refusal s none false k.current.toNat 64 ≠ none → after (.descriptorFetch c) { k with
      desc := none, fetch := false, done := 0, ending := some (5, false), failAddr := k.current.toNat }) ∧
    (busy → alone → whole → d.op = 1 → d.srcKind = 0 → d.dstKind = 0 → reads (d.src + k.done.toNat) n → writes (d.dst + k.done.toNat) n →
      isMem (d.src + k.done.toNat) n data → ∃ t, exec (.burst r wb z h) s = .next t ∧ getCh t c.val = moved n false ∧
        stored t (d.dst + k.done.toNat) data ∧ ∀ a, (a < d.dst + k.done.toNat ∨ d.dst + k.done.toNat + n ≤ a) →
          memGet 0 t.dev.mem a = memGet 0 s.dev.mem a) ∧
    (busy → alone → whole → d.op = 2 → d.srcKind = 0 → d.dstKind = 0 → writes (d.dst + k.done.toNat) n →
      ∃ t, exec (.burst r wb z h) s = .next t ∧ getCh t c.val = moved n false ∧
        ∀ i < n, memGet 0 t.dev.mem (d.dst + k.done.toNat + i) = (natLe 8 d.fill).getD ((k.done.toNat + i) % 8) 0) ∧
    (busy → alone → d.op = 1 → d.srcKind = 0 → d.dstKind ≠ 2 → d.tag = some b →
      refusal s (some b) false (d.src + k.done.toNat) n = some (.violation i) → ∃ t, exec (.burst r wb z h) s = .next t ∧
        (getCh t c.val).ending = some (6, false) ∧ (getCh t c.val).done = k.done ∧ t.dev.mem = s.dev.mem ∧
        t.violations = s.violations ++ [⟨b, i, (getT s d.pulseTask).job⟩]) ∧
    (busy → whole → d.srcKind = 2 → d.dstKind = 0 → data.length = n → writes (d.dst + k.done.toNat) n →
      ∃ t, exec (.lineRequest c data h) s = .next t ∧ getCh t c.val = moved n true ∧ stored t (d.dst + k.done.toNat) data) ∧
    (busy → d.srcKind = 2 → data.length ≠ n → exec (.lineRequest c data h) s = .next s0) ∧
    (busy → whole → d.op = 1 → d.srcKind = 0 → d.dstKind = 2 → reads (d.src + k.done.toNat) n →
      ∃ t, exec (.lineRequest c data h) s = .next t ∧ getCh t c.val = moved n false ∧ t.dev.mem = s.dev.mem) ∧
    (busy → whole → d.srcKind = 2 → d.dstKind = 0 → data.length ≤ n → writes (d.dst + k.done.toNat) data.length →
      1 ≤ data.length → k.done.toNat + data.length < d.length → d.length < 2 ^ 32 → ∃ t, exec (.last c data) s = .next t ∧
        getCh t c.val = { moved data.length false with ending := some (2, false) } ∧ stored t (d.dst + k.done.toNat) data) ∧
    (ended → whole → k.current.toNat % 64 = 0 → refusal s none true status 8 = none →
      let out := if k.state = .stopping ∧ code ≤ 3 then 3 else code
      let last := { k with ending := none, lastCode := BitVec.ofNat 8 out, lastSurplus := surplus && decide (out = 1) }
      ∃ u, exec (.descriptorComplete c) s = .next u ∧
        stored u status (natLe 4 k.done.toNat ++ natLe 2 (out + b2n (surplus && decide (out = 1)) * 256) ++ [0, 0]) ∧
        (4 ≤ out → getCh u c.val = { last with state := .halted }) ∧
        (out = 1 → d.next ≠ 0 → getCh u c.val = { last with current := BitVec.ofNat 64 d.next, fetch := true, desc := none }) ∧
        (out < 4 → (out ≠ 1 ∨ d.next = 0) → getCh u c.val = { last with state := .idle }) ∧
        ((bitOf d.flags 1 = true ∨ out ≠ 1) → d.tag = some b → getT s d.pulseTask = t → t.state ≠ .free → t.berth = some b →
          d.pulseFlag < 30 → (getT u d.pulseTask).flags.getLsbD d.pulseFlag = true) ∧
        (bitOf d.flags 1 = false → out = 1 → u.pilot = s.pilot))

/-- The three paths of the object dictionary (14, R582 to R587, R590, R598 to R600, R603; 15, R630): reads and writes
answer with the entry's bytes or the abort code, a stored entry keeps what is written to it, and the paths differ in
their role. What the model chose: log entries 154, 155, 158, 162. -/
def Obligations.DictionaryPathsReadAndWrite : Prop :=
  ∀ (s : State) (seq : BitVec 16) (client sub : BitVec 8) (index : BitVec 16) (offset n a : BitVec 32) (bytes v : Bytes) (e : Setting),
    let m := s.dict.mailbox
    let idle := mailboxOpen s = true ∧ m.state ≠ 1
    let at_ := fun i j => m.index.toNat = i ∧ m.sub.toNat = j
    let live := s.sys.holdRom = false
    let same := fun (t : State) => { t with pcie := s.pcie, dict := { t.dict with mailbox := m } } = s
    let after := fun i (ok : State → Prop) => ∃ t, exec i s = .next t ∧ t.dict.mailbox.seq = seq ∧
      tblGet false t.pcie.esPending 1648 = true ∧ ok t
    let reads := fun (b : Bytes) => after (.mbRead seq) (fun t => t.dict.mailbox.state = 2 ∧ t.dict.mailbox.abort = 0 ∧
      t.dict.mailbox.length = BitVec.ofNat 32 b.length ∧ (∀ i < b.length, tblGet 0 t.dict.mailbox.data i = b.getD i 0) ∧ same t)
    let fails := fun i c => after i (fun t => t.dict.mailbox.state = 3 ∧ t.dict.mailbox.abort = c ∧ same t)
    let request := fun (op : Byte) (n : Nat) => [op] ++ natLe 1 sub.toNat ++ natLe 2 index.toNat ++ natLe 4 offset.toNat ++ natLe 4 n ++ natLe 4 0
    let response := fun (op : Byte) (d : Bytes) (c : BitVec 32) => [op] ++ natLe 1 sub.toNat ++ natLe 2 index.toNat ++
      natLe 4 offset.toNat ++ natLe 4 d.length ++ natLe 4 c.toNat ++ padTo (roundUp d.length 4) d
    let answers := fun i (d : Bytes) c => ∃ t, exec i s = .next t ∧ t.dict.answer = ⟨d, c⟩ ∧
      { t with dict := { t.dict with answer := s.dict.answer } } = s
    let replies := fun i (r : Bytes) => exec i s = .next { s with dict := { s.dict with doeResponse := r } }
    let node := canActive s = true ∧ (s.can.sessions.filter (fun c => c != client)).length < 4
    let r := roleOf s .usdo
    let setting := settingAt index.toNat sub.toNat = some e
    let set := fun (t : State) => tblGet 0 t.dict.settings (entryKey e.index e.sub) = leNat v ∧ settingVal t e.index e.sub = leNat v ∧
      ∀ k, k ≠ entryKey e.index e.sub → tblFind t.dict.settings k = tblFind s.dict.settings k
    (idle → dictGet s .mgr m.index.toNat m.sub.toNat m.offset.toNat = .ok bytes → reads bytes) ∧
    (idle → dictGet s .mgr m.index.toNat m.sub.toNat m.offset.toNat = .error a → fails (.mbRead seq) a) ∧
    (idle → at_ 0x2001 0 → reads (natLe 1 s.sys.mode.code)) ∧
    (idle → live → at_ 0x1008 0 → reads (asciiBytes "GH9400")) ∧
    (idle → live → at_ 0x1003 0 → reads (natLe 1 s.dict.errors.length)) ∧
    (idle → live → (at_ 0x1004 m.sub.toNat ∨ at_ 0x6000 m.sub.toNat) → fails (.mbRead seq) 0x06020000) ∧
    (idle → live → at_ 0x2001 1 → fails (.mbRead seq) 0x06090011) ∧
    (idle → s.sys.holdRom = true → at_ 0x2001 m.sub.toNat → m.sub ≠ 0 → fails (.mbRead seq) 0x06090011) ∧
    (idle → s.sys.holdRom = true → at_ 0x1008 m.sub.toNat → fails (.mbRead seq) 0x06020000) ∧
    (idle → live → at_ 0x3000 2 → fails (.mbRead seq) 0x06010001) ∧
    (idle → live → (at_ 0x2001 0 ∨ at_ 0x1008 0) → fails (.mbWrite seq) 0x06010002) ∧
    (idle → live → setting → at_ index.toNat sub.toNat → m.length.toNat ≠ e.size → fails (.mbWrite seq) 0x06070010) ∧
    (idle → live → setting → at_ index.toNat sub.toNat → m.length.toNat = e.size → mailboxData m e.size = v →
      (settingOk e (leNat v) = true → after (.mbWrite seq) (fun t => t.dict.mailbox.state = 2 ∧ t.dict.mailbox.abort = 0 ∧ set t)) ∧
      (settingOk e (leNat v) = false → fails (.mbWrite seq) 0x06090030)) ∧
    (mailboxOpen s = true → m.state = 1 → exec (.mbRead seq) s = .next s ∧ exec (.mbWrite seq) s = .next s) ∧
    (doeOpen s = true → n.toNat ≤ 65472 →
      (dictGet s .mgr index.toNat sub.toNat offset.toNat = .ok bytes →
        replies (.doeDictionaryRequest (request 1 n.toNat)) (response 0x81 bytes 0)) ∧
      (dictGet s .mgr index.toNat sub.toNat offset.toNat = .error a →
        replies (.doeDictionaryRequest (request 1 n.toNat)) (response 0x81 [] a))) ∧
    (doeOpen s = true → setting → v.length = e.size → settingOk e (leNat v) = true →
      ∃ t, exec (.doeDictionaryRequest (request 2 v.length ++ padTo (roundUp v.length 4) v)) s = .next t ∧
        t.dict.doeResponse = response 0x82 [] 0 ∧ set t) ∧
    (doeOpen s = true → bytes.length < 16 → ∃ t, exec (.doeDictionaryRequest bytes) s = .next t ∧
      field t.dict.doeResponse 12 4 = 0x08000020 ∧ { t with dict := { t.dict with doeResponse := s.dict.doeResponse } } = s) ∧
    (node → dictGet s r index.toNat sub.toNat 0 = .ok bytes → answers (.usdoRead client false index sub) bytes 0) ∧
    (node → dictGet s r index.toNat sub.toNat 0 = .error a → answers (.usdoRead client false index sub) [] a) ∧
    (node → live → setting → v.length = e.size → settingOk e (leNat v) = true → settingVal s 0x2010 0 = 1 → index ≠ 0x2010 →
      ((index.toNat < 0x3000 ∨ index = 0x4100) → ∃ t, exec (.usdoWrite client false index sub v) s = .next t ∧
        t.dict.answer = ⟨[], 0⟩ ∧ set t) ∧
      (index = 0x5280 → answers (.usdoWrite client false index sub v) [] 0x06010000)) ∧
    (node → live → setting → settingVal s 0x2010 0 ≠ 1 → answers (.usdoWrite client false index sub v) [] 0x06010000) ∧
    (node → live → settingVal s 0x2010 0 = 1 → index = 0x2010 → sub = 0 →
      answers (.usdoWrite client false index sub v) [] 0x06010000) ∧
    (node → live → index = 0x5310 → sub = 1 → answers (.usdoRead client false index sub) [] 0x06010000) ∧
    (canActive s = true → 4 ≤ (s.can.sessions.filter (fun c => c != client)).length →
      answers (.usdoRead client false index sub) [] 0x08000022 ∧ answers (.usdoWrite client false index sub v) [] 0x08000022) ∧
    (exec (.usdoRead client true index sub) s = .next s ∧ exec (.usdoWrite client true index sub v) s = .next s)

/-- Writes that start a save or act at once, by each path, and the completion of a save (14, R584, R585, R593 to R597,
R606, R608, R614): who may write, the abort codes, the bank written, calendar time, the checkpoint marker. What the
model chose: log entries 160, 169, 170, 152, 151. -/
def Obligations.SavesAndEntryWritesAct : Prop :=
  ∀ (s : State) (p : DictPath) (w : BitVec 32) (c : BitVec 8) (d : BitVec 64) (v : Save),
    let live := pathServes s p = true ∧ s.sys.holdRom = false
    let may := roleOf s p ≠ .obs
    let clean := fun (t : State) (x : Dict) => { t with
      pcie := s.pcie, dict := { t.dict with mailbox := s.dict.mailbox, answer := s.dict.answer } } = { s with dict := x }
    let told := fun (t : State) (a : BitVec 32) => t.dict.answer = ⟨[], a⟩ ∧
      (p = .mailbox → t.dict.mailbox.state = (if a = 0 then 2 else 3) ∧ t.dict.mailbox.abort = a ∧
        tblGet false t.pcie.esPending 1648 = true)
    let gives := fun i (x : Dict) => ∃ t, exec i s = .next t ∧ told t 0 ∧ clean t x
    let refuses := fun i a => ∃ t, exec i s = .next t ∧ told t a ∧ clean t s.dict
    let starts := fun i (k : Fin 2) => gives i { s.dict with
      storeStatus := 1
      save := some { kind := k, body := if k = 0 then settingsBody s.dict.settings else [],
                     fingerprint := fingerprintOf (settingIn s.dict.settings), writing := s.sys.episode.isNone, lss := false } }
    let free := s.dict.storeStatus ≠ 1
    let target : Fin 2 := if s.dict.activeBank = 0 then 1 else 0
    let q : BitVec 32 := if s.dict.activeBank = 0xFF then 1 else s.dict.storeSequence + 1
    let ends := fun b (ok : State → Prop) => ∃ t, exec (.settingsSaveComplete b) s = .next t ∧ t.dict.save = none ∧
      t.dict.settings = s.dict.settings ∧ t.dict.effective = s.dict.effective ∧ t.queues = s.queues ∧ t.dev = s.dev ∧
      bankOfMram t.mram (1 - target) = bankOfMram s.mram (1 - target) ∧ ok t
    let answered := fun (t : State) (b : Byte) => (v.lss = true → t.can.sent = ⟨0x7E4, [0x17, b, 0, 0, 0, 0, 0, 0]⟩ :: s.can.sent) ∧
      (v.lss = false → tblGet false t.pcie.esPending 1650 = true ∧ t.can = s.can)
    (live → may → w = 0x65766173 → free → starts (.saveAll p w) 0) ∧
    (live → may → w = 0x64616F6C → free → starts (.restoreAll p w) 1) ∧
    (live → may → w ≠ 0x65766173 → refuses (.saveAll p w) 0x08000020) ∧
    (live → may → w ≠ 0x64616F6C → refuses (.restoreAll p w) 0x08000020) ∧
    (live → may → ¬ free → w = 0x65766173 → refuses (.saveAll p w) 0x08000022) ∧
    (live → may → ¬ free → w = 0x64616F6C → refuses (.restoreAll p w) 0x08000022) ∧
    (live → may → c = 0 → gives (.errorCountClear p c) { s.dict with errors := [] }) ∧
    (live → may → c ≠ 0 → refuses (.errorCountClear p c) 0x06090030) ∧
    (live → may → gives (.checkpointIdWrite p w) { s.dict with checkpoint := w }) ∧
    (live → ¬ may → refuses (.saveAll p w) 0x06010000 ∧ refuses (.restoreAll p w) 0x06010000 ∧
      refuses (.errorCountClear p c) 0x06010000 ∧ refuses (.checkpointIdWrite p w) 0x06010000) ∧
    (live → p = .usdo → refuses (.calendarTimeWrite p d) 0x06010000) ∧
    (live → p ≠ .usdo → bitOf (settingVal s 0x1012 0) 31 = true → refuses (.calendarTimeWrite p d) 0x08000022) ∧
    (live → p ≠ .usdo → bitOf (settingVal s 0x1012 0) 31 = false → ∃ t, exec (.calendarTimeWrite p d) s = .next t ∧ told t 0 ∧
      t.sys.calendar = some (d.toNat * 1000) ∧
      t.sys.timeSource = (if bitOf (settingVal s 0x1012 0) 30 then 3 else 2) ∧
      { t.sys with calendar := s.sys.calendar, timeSource := s.sys.timeSource } = s.sys ∧
      (s.mram.logFull = false → s.log.queue.length < 1024 → t.log.queue = s.log.queue ++
        [⟨d, 0x0220, 0, (calendarNow s).setWidth 32, d.setWidth 32, BitVec.setWidth 32 t.sys.timeSource⟩])) ∧
    (s.dict.save = some v → v.writing = true → v.body.length ≤ 65504 →
      ends true (fun t => t.dict.storeStatus = 2 ∧ t.dict.activeBank = BitVec.ofNat 8 target.val ∧ t.dict.storeSequence = q ∧
        (t.dict.defaultsPending = true ↔ v.kind = 1) ∧
        bankValid (bankOfMram t.mram target) = true ∧ bankSequence (bankOfMram t.mram target) = q.toNat ∧
        slice (bankOfMram t.mram target) 32 v.body.length = v.body ∧ answered t 0 ∧
        (s.mram.logFull = false → s.log.queue.length < 1024 → t.log.queue = s.log.queue ++
          [⟨calendarNow s, 0x0230, 0, BitVec.ofNat 32 target.val, q, BitVec.ofNat 32 v.body.length⟩]))) ∧
    (s.dict.save = some v → v.writing = true → ends false (fun t => t.dict.storeStatus = 0x8001 ∧
      t.dict.activeBank = s.dict.activeBank ∧ t.dict.storeSequence = s.dict.storeSequence ∧
      bankValid (bankOfMram t.mram target) = false ∧ answered t 2)) ∧
    (s.dict.save = some v → v.writing = false → exec (.settingsSaveComplete true) s = .next s) ∧
    (pathServes s p = false → exec (.saveAll p w) s = .next s ∧ exec (.calendarTimeWrite p d) s = .next s)

/-- The CANopen FD node on its bus (14, R601, R602, R604, R605): the NMT transitions, what a reset of communication
brings back, the boot-up message, heartbeats and group TPDOs, EMCY messages and the bus's errors. The state bytes of a
heartbeat are those of CiA 301, which the spec names and does not repeat. What the model chose: log entries 163, 164,
165, 166, 168, 150. -/
def Obligations.CanNodeFollowsItsStates : Prop :=
  ∀ (s : State) (f : CanFrame) (rest : List CanFrame) (k : Nat),
    let n := s.can
    let on := canOn s = true
    let put := fun (x : CanNode) => { s with can := x }
    let gives := fun i (x : CanNode) => exec i s = .next (put x)
    let active := n.nmt = .preOperational ∨ n.nmt = .operational
    let communication := 0x1000 * 256 ≤ k ∧ k < 0x2000 * 256
    let apartFrom := fun (t : State) => { t with
      can := s.can, dict := { s.dict with saved := t.dict.saved }, log := s.log, pcie := s.pcie, mram := s.mram } = s
    let reset := fun i (ok : State → Prop) => ∃ t, exec i s = .next t ∧ t.can.nmt = .initialisation ∧
      t.can.nodeId = BitVec.ofNat 8 (settingVal s 0x2020 3) ∧ t.can.dataRate = BitVec.ofNat 8 (settingVal s 0x2020 4) ∧
      (communication → (s.dict.saved.map (·.1)).Nodup → tblFind t.dict.settings k = tblFind s.dict.saved k) ∧
      (¬ communication → tblFind t.dict.settings k = tblFind s.dict.settings k) ∧
      t.dict.effective = s.dict.effective ∧ apartFrom t ∧ ok t
    let boot : CanFrame := ⟨0x700 + n.nodeId.toNat, [0]⟩
    let started : CanNode := { n with
      nmt := if settingVal s 0x2011 0 = 1 then .operational else .preOperational, sent := boot :: n.sent }
    let beat := fun (b : Byte) => (⟨0x700 + n.nodeId.toNat, [b]⟩ : CanFrame)
    let emcy := fun (code : Nat) => (⟨0x80 + n.nodeId.toNat, natLe 2 code ++ natLe 1 (n.errorRegister ||| 0x10).toNat ++ [0, 0] ++
      natLe 2 0x0C00 ++ natLe 1 s.sys.mode.code⟩ : CanFrame)
    let errors := fun (code : BitVec 32) => (code :: s.dict.errors).take 8
    let after := fun i (ok : State → Prop) => ∃ t, exec i s = .next t ∧ t.dict.settings = s.dict.settings ∧
      { t with can := s.can, dict := s.dict } = s ∧ ok t
    let sends := fun (t : State) (l : List CanFrame) => t.can.sent = l ++ n.sent
    (on → (n.nmt = .preOperational ∨ n.nmt = .stopped) → gives .nmtStart { n with nmt := .operational }) ∧
    (on → active → gives .nmtStop { n with nmt := .stopped, emcyHeld := [] }) ∧
    (on → (n.nmt = .operational ∨ n.nmt = .stopped) → gives .nmtEnterPreOperational { n with nmt := .preOperational }) ∧
    ((n.nmt = .initialisation ∨ n.nmt = .operational) → exec .nmtStart s = .next s) ∧
    (on → reset .nmtResetCommunication (fun _ => True)) ∧
    (on → reset .nmtResetNode (fun t => t.dict.errors = [])) ∧
    (on → n.nmt = .initialisation →
      ((n.emcyHeld = [] ∨ n.inhibited = true) → gives .initialisationDone started) ∧
      (n.emcyHeld = f :: rest → n.inhibited = false → inhibitTime s ≠ 0 → gives .initialisationDone
        { started with emcyHeld := rest, inhibited := true, sent := f :: boot :: n.sent }) ∧
      (n.inhibited = false → inhibitTime s = 0 → gives .initialisationDone
        { started with emcyHeld := [], sent := n.emcyHeld.reverse ++ boot :: n.sent })) ∧
    (on → active →
      (n.emcyHeld = [] → gives .emcyInhibitExpiry { n with inhibited := false }) ∧
      (n.emcyHeld = f :: rest → inhibitTime s ≠ 0 → gives .emcyInhibitExpiry
        { n with emcyHeld := rest, inhibited := true, sent := f :: n.sent })) ∧
    (on → heartbeatTime s ≠ 0 →
      (n.nmt = .stopped → gives .heartbeat { n with sent := beat 4 :: n.sent }) ∧
      (n.nmt = .preOperational → gives .heartbeat { n with sent := beat 127 :: n.sent }) ∧
      (n.nmt = .operational → groupId s = 0 → gives .heartbeat { n with sent := beat 5 :: n.sent }) ∧
      (n.nmt = .operational → groupId s ≠ 0 → gives .heartbeat { n with sent := ⟨0x180 + n.nodeId.toNat,
        [1] ++ natLe 1 (groupId s) ++ natLe 1 (memberSlot s) ++ natLe 1 s.sys.mode.code ++ natLe 4 s.fw.version.toNat ++
          (fingerprint s).take 8 ++ natLe 8 (calendarNow s).toNat⟩ :: beat 5 :: n.sent })) ∧
    (heartbeatTime s = 0 → exec .heartbeat s = .next s) ∧
    (on → n.passive = false → after (.canErrorPassive true) (fun t => t.can.passive = true ∧ t.can.errorRegister = n.errorRegister ||| 0x10 ∧
      0x8120 ∈ t.can.conditions ∧ t.dict.errors = errors 0x8120 ∧
      (active → n.inhibited = false → sends t [emcy 0x8120] ∧ t.can.inhibited = decide (inhibitTime s ≠ 0)) ∧
      (active → n.inhibited = true → t.can.emcyHeld = n.emcyHeld ++ [emcy 0x8120] ∧ sends t []) ∧
      (n.nmt = .stopped → sends t [] ∧ t.can.emcyHeld = n.emcyHeld))) ∧
    (on → n.passive = true → n.conditions = [0x8120] → after (.canErrorPassive false) (fun t => t.can.passive = false ∧
      t.can.conditions = [] ∧ t.can.errorRegister = n.errorRegister &&& 0xEF ∧ t.dict.errors = s.dict.errors ∧
      (active → n.inhibited = false → sends t [⟨0x80 + n.nodeId.toNat, [0, 0] ++ natLe 1 (n.errorRegister &&& 0xEF).toNat ++ [0, 0] ++
        natLe 2 0x0C00 ++ natLe 1 s.sys.mode.code⟩]))) ∧
    (on → after .canReceiveOverrun (fun t => t.can.errorRegister = n.errorRegister ∧ t.can.conditions = n.conditions ∧
      t.dict.errors = errors 0x8110 ∧ (active → n.inhibited = false → sends t [emcy 0x8110]))) ∧
    (on → n.passive = false → gives .canBusOff { n with busOff := true }) ∧
    (on → n.passive = true → after .canBusOff (fun t => t.can.busOff = true ∧ t.can.passive = false ∧ t.can.nmt = n.nmt ∧ sends t [])) ∧
    (n.busOff = true → after .busOffRecovery (fun t => t.can.busOff = false ∧ t.can.nmt = n.nmt ∧ t.dict.errors = errors 0x8140 ∧
      (active → n.inhibited = false → n.emcyHeld = [] → sends t [emcy 0x8140])))

/-- LSS, TIME and SYNC, and the module group on the bus (14, R606 to R608, R610 to R614). Layouts of LSS answers are
those of CiA 305, which the spec names and does not repeat. What the model chose: log entries 166, 167, 170, 171, 172,
173. -/
def Obligations.GroupAndClockFollowTheBus : Prop :=
  ∀ (s : State) (id selector index service : BitVec 8) (ms vendor product revision serial : BitVec 32) (days delay : BitVec 16)
    (slot : Fin 8) (mode : BitVec 8) (version : BitVec 32) (time : BitVec 64) (print data : Bytes) (c : Option (BitVec 8)),
    let n := s.can
    let on := canOn s = true
    let lss := on ∧ n.lssConfiguring = true
    let cob := settingVal s 0x1012 0
    let now := calendarNow s
    let putCan := fun (x : CanNode) => { s with can := x }
    let answer := fun (b : Bytes) => { n with sent := ⟨0x7E4, b⟩ :: n.sent }
    let logged := fun (t : State) (r : HwRecord) => s.mram.logFull = false → s.log.queue.length < 1024 →
      t.log.queue = s.log.queue ++ [r]
    let pends := fun i sub v b => ∃ t, exec i s = .next t ∧ t.can = answer [b, 0, 0, 0, 0, 0, 0, 0] ∧
      settingVal t 0x2020 sub = v ∧ t.can.nodeId = n.nodeId ∧ { t with can := n, dict := s.dict } = s ∧
      { t.dict with settings := s.dict.settings } = s.dict
    let stays := fun i b => exec i s = .next (putCan (answer [b, 1, 0, 0, 0, 0, 0, 0]))
    let started : Save := { kind := 0, body := settingsBody s.dict.settings, fingerprint := fingerprintOf (settingIn s.dict.settings),
                            writing := s.sys.episode.isNone, lss := true }
    let same := fun (t : State) => t.dict.settings = s.dict.settings ∧ t.dict.effective = s.dict.effective ∧ t.dict.saved = s.dict.saved ∧
      { t with can := n, dict := s.dict, log := s.log, pcie := s.pcie, mram := s.mram } = s
    let bits := fun (t : State) =>
      (t.dict.groupStatus.getLsbD 0 = true ↔ t.dict.peers ≠ [] ∧ (reference t).2 ≠ (fingerprint t).take 8) ∧
      (t.dict.groupStatus.getLsbD 1 = true ↔ ∃ e ∈ t.dict.peers, e.2.version ≠ t.fw.version) ∧
      (t.dict.groupStatus.getLsbD 2 = true ↔ t.dict.peers ≠ [] ∧ 10 < timeSpread t) ∧
      (t.dict.groupStatus.getLsbD 3 = true ↔ ∃ e ∈ t.dict.peers, e.2.mode.toNat ≠ t.sys.mode.code)
    let frame := fun (length : Nat) => ([1] ++ natLe 1 (groupId s) ++ natLe 1 slot.val ++ natLe 1 mode.toNat ++ natLe 4 version.toNat ++
      print ++ natLe 8 time.toNat).take length
    let spread : Option Int := if time.getLsbD 63 = true ∨ s.sys.calendar = none then none else some ((time.toNat : Int) - (now.toNat : Int))
    (on → ∀ b, exec (.switchStateGlobal b) s = .next (putCan { n with lssConfiguring := b })) ∧
    (on → n.lssConfiguring = false → [Config.vendorId, 0x9400, s.fw.version, Config.serial] = [vendor, product, revision, serial] →
      exec (.switchStateSelective vendor product revision serial) s =
        .next (putCan { answer [0x44, 0, 0, 0, 0, 0, 0, 0] with lssConfiguring := true })) ∧
    ([Config.vendorId, 0x9400, s.fw.version, Config.serial] ≠ [vendor, product, revision, serial] →
      exec (.switchStateSelective vendor product revision serial) s = .next s) ∧
    (lss → 1 ≤ id.toNat → id.toNat ≤ 127 → pends (.configureNodeId id) 3 id.toNat 0x11) ∧
    (lss → (id = 0 ∨ 127 < id.toNat) → stays (.configureNodeId id) 0x11) ∧
    (lss → selector = 0x80 → index.toNat ≤ 1 → pends (.configureBitTiming selector index) 4 index.toNat 0x13) ∧
    (lss → (selector ≠ 0x80 ∨ 1 < index.toNat) → stays (.configureBitTiming selector index) 0x13) ∧
    (exec (.activateBitTiming delay) s = .next s) ∧
    (lss → s.dict.storeStatus ≠ 1 → exec .storeConfiguration s =
      .next { s with dict := { s.dict with storeStatus := 1, save := some started } }) ∧
    (lss → 0x5A ≤ service.toNat → service.toNat ≤ 0x5D → ∃ w : BitVec 32,
      [Config.vendorId, 0x9400, s.fw.version, Config.serial][service.toNat - 0x5A]? = some w ∧
      exec (.inquireIdentity service) s = .next (putCan (answer ([service] ++ natLe 4 w.toNat ++ [0, 0, 0])))) ∧
    (lss → exec (.inquireIdentity 0x5E) s = .next (putCan (answer [0x5E, n.nodeId, 0, 0, 0, 0, 0, 0]))) ∧
    (on → n.lssConfiguring = false → exec (.configureNodeId id) s = .next s ∧ exec (.inquireIdentity service) s = .next s ∧
      exec .storeConfiguration s = .next s) ∧
    (canActive s = true → bitOf cob 31 = true → ∃ t, exec (.timeReceived ms days) s = .next t ∧
      let m := days.toNat * 86400000 + ms.toNat % 2 ^ 28
      t.sys = { s.sys with calendar := some (m * 1000), timeSource := 1 } ∧ { t with sys := s.sys, log := s.log, mram := s.mram } = s ∧
      logged t ⟨BitVec.ofNat 64 m, 0x0220, 0, now.setWidth 32, BitVec.ofNat 32 m, 1⟩) ∧
    ((bitOf cob 31 = false ∨ n.nmt = .stopped) → exec (.timeReceived ms days) s = .next s) ∧
    (on → n.nmt = .operational → bitOf cob 30 = true → now.getLsbD 63 = false → exec .timeProduce s = .next (putCan { n with
      sent := ⟨cob % 2048, natLe 4 (now.toNat % 86400000) ++ natLe 2 (now.toNat / 86400000)⟩ :: n.sent })) ∧
    (canActive s = true → s.dict.checkpoint ≠ 0 → ∃ t, exec (.syncReceived c) s = .next t ∧ t.dict = { s.dict with checkpoint := 0 } ∧
      { t with dict := s.dict, log := s.log, mram := s.mram } = s ∧
      logged t ⟨now, if s.dict.groupStatus.getLsbD 0 then 0x0201 else 0x0200, 0, s.dict.checkpoint,
        ((c.map (fun x => x.setWidth 32)).getD 0xFFFFFFFF), BitVec.ofNat 32 (groupId s + memberSlot s * 256)⟩) ∧
    (s.dict.checkpoint = 0 → exec (.syncReceived c) s = .next s) ∧
    (on → n.nmt = .operational → groupId s ≠ 0 → id ≠ 0 → settingVal s 0x2101 (slot.val + 1) = id.toNat → groupId s < 256 → print.length = 8 →
      ∃ t, exec (.groupTpdoReceived id (frame 24)) s = .next t ∧ tblFind t.dict.peers slot.val = some ⟨mode, version, print, spread⟩ ∧
        (∀ k, k ≠ slot.val → tblFind t.dict.peers k = tblFind s.dict.peers k) ∧ bits t ∧ same t ∧
        (t.dict.groupStatus ≠ s.dict.groupStatus → tblGet false t.pcie.esPending 1649 = true)) ∧
    (∀ l, l < 24 → exec (.groupTpdoReceived id (frame l)) s = .next s) ∧
    ((data.length ≠ 24 ∨ field data 1 1 ≠ groupId s ∨ (∀ x < 8, settingVal s 0x2101 (x + 1) ≠ id.toNat) ∨
      settingVal s 0x2101 (field data 2 1 + 1) ≠ id.toNat) → exec (.groupTpdoReceived id data) s = .next s) ∧
    (tblFind s.dict.peers slot.val ≠ none → ∃ t, exec (.peerTimeout slot) s = .next t ∧ tblFind t.dict.peers slot.val = none ∧
      (∀ k, k ≠ slot.val → tblFind t.dict.peers k = tblFind s.dict.peers k) ∧ bits t ∧ same t ∧
      (t.dict.groupStatus ≠ s.dict.groupStatus → tblGet false t.pcie.esPending 1649 = true))

/-- RESET, its release, the ROM, Tisum's start and service-ready (15, R616 to R618, R623, R624, R629, R630, R637,
R639, R642, R643, R646, R648, R649; 16, R667, R670; 12, R516; 17, R691, R693): what a reset leaves, which bank boots,
what is measured, and the mode that BOOT ends in. What the model chose: log entries 18, 136, 137, 138, 139, 178, 141,
145. -/
def Obligations.BootRunsFromResetToService : Prop :=
  ∀ (s : State) (parts : BitVec 78) (cores : BitVec 128) (ms : BitVec 32) (e : Fin 4) (p : Fin 78) (c : Fin 129),
    let y := s.sys
    let now := calendarNow s
    let resetBy := fun (t : State) cause m => t.sys.mode = .reset ∧ t.sys.resetCause = cause ∧ t.sys.time = 0 ∧
      t.sys.calendar = none ∧ t.sys.tisum = false ∧ t.sys.episode = none ∧ (s.dict.save = none → t.mram = m) ∧
      { t with pending := [], mram := {}, flash := {}, host := {}, dev := {}, sys := {} } = State.reset ∧
      t.pending = s.pending ∧ t.flash = s.flash ∧ t.host = s.host
    let runs := y.mode ≠ .reset
    let released := fun (t : State) => t.sys.mode = .boot ∧ t.sys.inputInRange = true ∧ t.sys.perstHigh = true ∧
      t.sys.railsUp = true ∧ { t with sys := y, pcie := s.pcie } = s
    let rom := y.mode = .boot ∧ y.tisum = false ∧ s.fw.selected = false
    let bank := fun (k : Fin 2) => flashBank s.flash k
    let valid := fun k => firmwareValid (bank k) = true
    let ok := fun k => valid k ∧ bootFails s.mram k < 3
    let sequence := fun k => field (memRead 0xFF (bank k) 0 128) 4 4
    let section_ := fun k => sha384 (sectionBytes (bank s.fw.booted) (headerBytes (bank s.fw.booted)) k)
    let boots := fun k => ∃ t, exec (.romBankSelect true true) s = .next t ∧ t.fw.selected = true ∧ t.fw.booted = k ∧
      t.fw.sequence = BitVec.ofNat 32 (sequence k) ∧ t.sys = y ∧ t.flash = s.flash ∧
      manifestReg t 0 = sha384 (manifestReg s 0 ++ sha384 (sectionBytes (bank k) (headerBytes (bank k)) 0))
    let holds := fun i cause (ok : State → Prop) => ∃ t, exec i s = .next t ∧ t.sys.mode = .hold ∧ t.sys.holdCause = cause ∧
      t.flash.bankA = s.flash.bankA ∧ t.flash.bankB = s.flash.bankB ∧ ok t
    let tisum := s.fw.selected = true ∧ y.tisum = false ∧ y.holdRom = false ∧ y.holdDead = false
    let agrees := fun k => (crc32c (sectionBytes (bank s.fw.booted) (headerBytes (bank s.fw.booted)) k)).toNat =
      sectionCheck (headerBytes (bank s.fw.booted)) k
    let measured := fun (t : State) k => manifestReg t k = sha384 (manifestReg s k ++ section_ k)
    let failures := fun (t : State) v => bootFails t.mram s.fw.booted = v ∧
      bootFails t.mram (otherBank s.fw.booted) = bootFails s.mram (otherBank s.fw.booted)
    let fails := fun i => ∃ t m, exec i s = .next t ∧ resetBy t 4 m ∧ failures t (min (bootFails s.mram s.fw.booted + 1) 255)
    let ready := y.mode = .boot ∧ y.tisum = true ∧ y.laidOut = true ∧ s.mram.retired.parts = 0 ∧ s.mram.retired.cores = 0
    let ends := fun (m : Mode) => ∃ t, exec (.serviceReady parts cores ms) s = .next t ∧ t.sys.mode = m ∧ t.sys.watchdog = false ∧
      t.sys.bootTimeMs = ms ∧ failures t 0 ∧ (getCore t c.val).structEn = decide (m = .maintenance) ∧
      (s.sys.episode = none → t.flash.trained = s.flash.trained ||| s.dev.retrained ∧ t.dev.retrained = 0) ∧
      tblGet false t.pcie.esPending 1651 = true ∧
      (s.mram.logFull = false → s.log.queue.length < 1000 → ∃ mid, t.log.queue = s.log.queue ++ mid ++
        [⟨now, 0x0002, 0, BitVec.ofNat 32 s.fw.booted.val, s.fw.sequence, ms⟩] ∧
        (⟨now, 0x0001, 0, 1, BitVec.ofNat 32 m.code, 4⟩ : HwRecord) ∈ mid)
    (runs → ∃ t, exec .perstNLow s = .next t ∧ resetBy t 3 s.mram ∧ t.sys.perstHigh = false ∧
      t.sys.railsUp = y.railsUp ∧ t.sys.inputInRange = y.inputInRange) ∧
    (runs → ∃ t, exec .inputBelowReset s = .next t ∧ resetBy t 2 s.mram ∧ t.sys.inputInRange = false ∧ t.sys.railsUp = false ∧
      t.sys.upUs = 0 ∧ t.sys.pins.can = .busNeutral) ∧
    (runs → ∀ v, s.dict.save = some v → v.writing = true → ∃ t, exec .perstNLow s = .next t ∧
      bankValid (bankOfMram t.mram (saveTarget s).1) = false ∧
      bankOfMram t.mram (1 - (saveTarget s).1) = bankOfMram s.mram (1 - (saveTarget s).1)) ∧
    (y.mode = .reset → y.inputInRange = false → y.perstHigh = true → ∃ t, exec .powerInputRise s = .next t ∧ released t) ∧
    (y.mode = .reset → y.inputInRange = false → y.perstHigh = false → exec .powerInputRise s =
      .next { s with sys := { y with inputInRange := true } }) ∧
    (y.mode = .reset → y.inputInRange = true → ∃ t, exec .perstNHigh s = .next t ∧ released t) ∧
    (rom → ok 0 → ok 1 → boots (if wrapLater 32 (sequence 1) (sequence 0) then 1 else 0)) ∧
    (rom → ∀ k, ok k → ¬ ok (otherBank k) → boots k) ∧
    (rom → (∀ k, ¬ ok k) → (∃ k, valid k) → holds (.romBankSelect true true) 0x0005 (fun t => t.sys.holdRom = true)) ∧
    (rom → (∀ k, ¬ valid k) → holds (.romBankSelect true true) 0x0004 (fun t => t.sys.holdRom = true)) ∧
    (rom → ∀ b, holds (.romBankSelect false b) 0x3010 (fun _ => True)) ∧
    (rom → holds (.romBankSelect true false) 0x3012 (fun _ => True)) ∧
    (tisum → y.mode = .boot → (∀ k, 1 ≤ k → k ≤ 3 → agrees k) → ∃ t, exec .tisumStart s = .next t ∧ t.sys.tisum = true ∧
      t.sys.watchdog = true ∧ t.sys.mode = .boot ∧ t.can.nmt = .initialisation ∧
      t.can.nodeId = BitVec.ofNat 8 (settingVal t 0x2020 3) ∧ t.dict.settings = (bootSettings s.mram).1 ∧
      t.dict.effective = (bootSettings s.mram).1 ∧ measured t 1 ∧ measured t 2 ∧ measured t 3 ∧
      manifestReg t 4 = sha384 (manifestReg s 4 ++ fingerprint t) ∧ (getCore t c.val).structEn = true ∧
      t.mram.retired = (if s.mram.retiredOk then s.mram.retired else if s.flash.retiredOk then s.flash.retired else {}) ∧
      t.present.quays = ~~~(t.mram.retired.parts.extractLsb' 0 32) ∧ t.present.groves = ~~~(t.mram.retired.parts.extractLsb' 32 16) ∧
      t.present.banks = ~~~(t.mram.retired.parts.extractLsb' 48 16) ∧ t.present.cores = ~~~t.mram.retired.cores ∧
      t.log.next = scanLog s.mram ∧
      (s.mram.logFull = false → s.log.queue.length < 1024 → ∃ rest, t.log.queue = s.log.queue ++
        ⟨now, 0x0003, 0, y.resetCause.setWidth 32, s.mram.bootFailsA.setWidth 32, s.mram.bootFailsB.setWidth 32⟩ :: rest)) ∧
    (tisum → y.mode = .hold → agrees 1 → ∃ t, exec .tisumStart s = .next t ∧ t.sys.tisum = true ∧ t.sys.watchdog = false ∧
      t.sys.mode = .hold ∧ measured t 1 ∧ manifestReg t 2 = manifestReg s 2) ∧
    (tisum → y.mode = .boot → (∃ k, 1 ≤ k ∧ k ≤ 3 ∧ ¬ agrees k) → fails .tisumStart) ∧
    (y.mode = .boot → y.watchdog = true → fails .bootWatchdogExpiry) ∧
    (ready → parts = 0 → cores = 0 → settingVal s 0x5280 3 ≠ 1 → ends (if someRetired s then .degraded else .service)) ∧
    (ready → parts = 0 → cores = 0 → settingVal s 0x5280 3 = 1 → ends .maintenance) ∧
    (ready → parts = BitVec.twoPow 78 (64 + e.val) → cores = 0 → s.present.compression.getLsbD e.val = true →
      settingVal s 0x5280 3 ≠ 1 → ∃ t, exec (.serviceReady parts cores ms) s = .next t ∧ t.sys.mode = .degraded ∧
        t.mram.retired.parts = BitVec.twoPow 80 (64 + e.val) ∧ t.present.compression.getLsbD e.val = false ∧
        tblGet false t.pcie.esPending 1653 = true) ∧
    (ready → 68 ≤ p.val → parts = BitVec.twoPow 78 p.val → cores = 0 →
      holds (.serviceReady parts cores ms) 0x3012 (fun t => t.sys.bootTimeMs = y.bootTimeMs))

/-- Mode requests, supply episodes, thermal levels and JTAG attaches (01, R29; 15, R631, R637 to R642; 16, R686 to
R688, R657; 17, R707, R710, R711): what each changes, records, measures and signals. What the model chose: log entries
160, 189, 142, 188, 190, 186. -/
def Obligations.ModesFollowRequestsAndSupply : Prop :=
  ∀ (s : State) (p : DictPath) (q : Nat) (k : Queue) (e : Episode) (v : Save) (mv lowest below celsius sensor : BitVec 32)
    (level : Fin 4) (r : BitVec 128) (n : Fin 4) (c : Fin 129),
    let y := s.sys
    let now := calendarNow s
    let live := pathServes s p = true ∧ y.holdRom = false
    let told := fun (t : State) (a : BitVec 32) => t.dict.answer = ⟨[], a⟩ ∧
      (p = .mailbox → t.dict.mailbox.state = (if a = 0 then 2 else 3) ∧ t.dict.mailbox.abort = a ∧
        tblGet false t.pcie.esPending 1648 = true)
    let refuses := fun i a => ∃ t, exec i s = .next t ∧ told t a ∧
      { t with pcie := s.pcie, dict := { t.dict with mailbox := s.dict.mailbox, answer := s.dict.answer } } = s
    let pends := fun (t : State) i => tblGet false t.pcie.esPending i = true
    let room := s.mram.logFull = false ∧ s.log.queue.length < 1000
    let first := fun (t : State) (h : HwRecord) => room → ∃ l, t.log.queue = s.log.queue ++ h :: l
    let after := fun i (ok : State → Prop) => ∃ t, exec i s = .next t ∧ ok t
    let record1 : HwRecord := ⟨now, 0x0001, 0, BitVec.ofNat 32 y.mode.code, 2, 1⟩
    let none_ := s.mram.retired.parts = 0 ∧ s.mram.retired.cores = 0
    let whole := s.mram.retired.cores = 0 ∧ s.mram.retired.channels = 0 ∧ s.mram.retired.subchannels = 0 ∧
      s.present.subchannels = BitVec.allOnes 32 ∧ s.present.quays = BitVec.allOnes 32
    let leaves := fun m (ok : State → Prop) => after (.modeRequestLeave p) (fun t => t.sys.mode = m ∧ t.sys.modeStatus = 2 ∧
      (getCore t c.val).structEn = false ∧ pends t 1650 ∧ pends t 1651 ∧ told t 0 ∧ t.jobs = s.jobs ∧ t.berths = s.berths ∧
      first t ⟨now, 0x0001, 0, 2, BitVec.ofNat 32 m.code, 1⟩ ∧ ok t)
    let awake := y.mode ≠ .reset ∧ y.holdDead = false
    let old := y.thermal
    let sends := canActive s = true ∧ s.can.inhibited = false
    let emcy := fun (code : Nat) (reg : BitVec 8) => (⟨0x80 + s.can.nodeId.toNat, natLe 2 code ++ natLe 1 reg.toNat ++ natLe 2 0x1010 ++
      natLe 2 0x0E00 ++ natLe 1 y.mode.code⟩ : CanFrame)
    (live → p ≠ .usdo → serving s = true → y.modeStatus ≠ 1 → after (.modeRequestMaintenance p) (fun t => told t 0 ∧
      t.sys = { y with modeStatus := 1, draining := true } ∧ t.jobs = s.jobs ∧
      (q < 4096 → tblFind s.queues q = some k → tblFind t.queues q =
        some { k with taken := none, fetchIndex := k.sqHead, stall := false, pushed := [], pushValid := false }) ∧
      (4096 ≤ q → tblFind t.queues q = tblFind s.queues q))) ∧
    (live → p ≠ .usdo → (serving s = false ∨ y.modeStatus = 1) → refuses (.modeRequestMaintenance p) 0x08000022) ∧
    (live → p ≠ .usdo → (y.mode ≠ .maintenance ∨ y.modeStatus = 1) → refuses (.modeRequestLeave p) 0x08000022) ∧
    (live → p = .usdo → refuses (.modeRequestMaintenance p) 0x06010000 ∧ refuses (.modeRequestLeave p) 0x06010000) ∧
    (y.draining = true → y.modeStatus = 1 → serving s = true → startedJobs s = [] → after .maintenanceEntry (fun t =>
      t.sys.mode = .maintenance ∧ t.sys.modeStatus = 2 ∧ t.sys.draining = false ∧ (getCore t c.val).structEn = true ∧
      pends t 1650 ∧ pends t 1651 ∧ t.bist.pass = 0 ∧ t.jobs = s.jobs ∧ t.berths = s.berths ∧
      (s.bist.pass ≠ 0 → t.bist.status = 0x8001) ∧
      (s.bist.pass = 0 → first t record1 ∧
        manifestReg t 11 = sha384 (manifestReg s 11 ++ sha384 (recordBytes (nextSequence s) record1))))) ∧
    (startedJobs s ≠ [] → exec .maintenanceEntry s = .next s) ∧
    (live → p ≠ .usdo → y.mode = .maintenance → y.modeStatus ≠ 1 → none_ →
      leaves (if someRetired s then .degraded else .service) (fun _ => True)) ∧
    (live → p ≠ .usdo → y.mode = .maintenance → y.modeStatus ≠ 1 → whole → s.mram.retired.parts = BitVec.twoPow 80 (64 + n.val) →
      s.bist.passed.parts.getLsbD (64 + n.val) = true →
      ∃ t, exec (.modeRequestLeave p) s = .next t ∧ t.sys.mode = .service ∧ t.mram.retired.parts = 0 ∧
        t.present.compression.getLsbD n.val = true ∧ tblGet 0 t.eng.compState n.val = 0) ∧
    (awake → y.episode = none → after (.inputBelowWarning mv) (fun t => t.sys = { y with episode := some ⟨mv.toNat, 1⟩ } ∧
      pends t 1655 ∧ 0x3100 ∈ t.can.conditions ∧ t.can.errorRegister = s.can.errorRegister ||| 0x04 ∧
      first t ⟨now, 0x1001, 0x0E00, mv, 0, 0⟩)) ∧
    (awake → y.episode = some e → exec (.inputBelowWarning mv) s = .next { s with
      sys := { y with episode := some ⟨min e.lowestMv mv.toNat, e.falls + 1⟩ } }) ∧
    (y.episode = some e → s.fw.commitWaits = none → after (.warningEpisodeEnd lowest below) (fun t => t.sys = { y with episode := none } ∧
      0x3100 ∉ t.can.conditions ∧
      first t ⟨now, 0x1002, 0x0E00, BitVec.ofNat 32 (min e.lowestMv lowest.toNat), below, BitVec.ofNat 32 e.falls⟩ ∧
      (s.dict.save = some v → t.dict.save = some { v with writing := true }) ∧ (s.dict.save = none → t.dict.save = none) ∧
      (y.tisum = true → t.flash.retired = s.mram.retired) ∧
      (serving s = true → t.flash.trained = s.flash.trained ||| s.dev.retrained))) ∧
    (y.episode = none → exec (.warningEpisodeEnd lowest below) s = .next s) ∧
    (awake → ((old < level ∧ (95 + 5 * level.val : Int) ≤ celsius.toInt) ∨ (level < old ∧ celsius.toInt < (95 + 5 * level.val : Int))) →
      after (.thermalLevelChange celsius level sensor) (fun t => t.sys = { y with thermal := level, pins := t.sys.pins } ∧
        (t.sys.pins.thermN = .low ↔ level ≠ 0) ∧ pends t 1656 ∧
        first t ⟨now, 0x1010, 0x0E00, celsius, BitVec.ofNat 32 level.val, sensor⟩ ∧
        { t with sys := y, can := s.can, dict := { s.dict with settings := t.dict.settings }, log := s.log, mram := s.mram, pcie := s.pcie } = s ∧
        (old = 0 → 0x4200 ∈ t.can.conditions ∧ t.can.errorRegister = s.can.errorRegister ||| 0x08 ∧
          t.dict.errors = (0x10104200 :: s.dict.errors).take 8 ∧
          (sends → t.can.sent = emcy 0x4200 (s.can.errorRegister ||| 0x08) :: s.can.sent)) ∧
        (level = 0 → 0x4200 ∉ t.can.conditions ∧ (s.can.conditions = [0x4200] → t.can.errorRegister = s.can.errorRegister &&& 0xF7 ∧
          (sends → t.can.sent = emcy 0 (s.can.errorRegister &&& 0xF7) :: s.can.sent))) ∧
        (old ≠ 0 → level ≠ 0 → t.can = s.can))) ∧
    (y.mode ≠ .reset → after (.jtagAttach r) (fun t => t.sys = { y with attaches := y.attaches + 1 } ∧
      manifestReg t 10 = sha384 (manifestReg s 10 ++ sha384 (natLe 16 r.toNat)) ∧
      t.manifest.eventCount = s.manifest.eventCount + 1 ∧ first t ⟨now, 0x7003, 0, BitVec.ofNat 32 (y.attaches + 1), 0, 0⟩ ∧
      { t with sys := y, manifest := s.manifest, log := s.log, mram := s.mram } = s))

/-- Self-test (14, R585; 16, R645, R647, R650, R651, R655, R657, R658, R668, R685): requests through PASS_REQUEST,
sessions and their outcomes, retries, a late pass. That a session is one step is the model's choice (log entry 181).
What the model chose: log entries 182, 183, 184, 185, 186, 187. -/
def Obligations.SelfTestRunsSessionsAndPasses : Prop :=
  ∀ (s : State) (path : DictPath) (failed : BitVec 77) (cores : BitVec 128) (patterns : BitVec 32) (p : Fin 78) (f n : Fin 64)
    (o : SegmentOutcome) (q : Nat) (z : Nat × Nat × Nat) (k : Fin 16) (c : Fin 128),
    let b := s.bist
    let now := calendarNow s
    let live := pathServes s path = true ∧ s.sys.holdRom = false ∧ roleOf s path ≠ .obs
    let told := fun (t : State) (a : BitVec 32) => t.dict.answer = ⟨[], a⟩ ∧
      (path = .mailbox → t.dict.mailbox.state = (if a = 0 then 2 else 3) ∧ t.dict.mailbox.abort = a)
    let refuses := fun i => ∃ t, exec i s = .next t ∧ told t 0x08000022 ∧
      { t with pcie := s.pcie, dict := { t.dict with mailbox := s.dict.mailbox, answer := s.dict.answer } } = s
    let pends := fun (t : State) i => tblGet false t.pcie.esPending i = true
    let first := fun (t : State) (l : List HwRecord) => s.mram.logFull = false → s.log.queue.length < 900 →
      ∃ m, t.log.queue = s.log.queue ++ l ++ m
    let after := fun i (ok : State → Prop) => ∃ t, exec i s = .next t ∧ ok t
    let full := .passRequestFull path failed cores patterns
    let session := Instr.selfTestSession p f n o
    let due := serving s = true ∧ partPresent s p.val = true ∧ b.pass = 2 ∧ 1 ≤ n.val ∧ f.val + n.val ≤ serviceSegments p.val ∧
      resultOf s p.val = z ∧ z.2.1 = f.val ∧ (z.1 = 0 ∨ z.1 = 4) ∧ p.val ∉ b.waiting
    let starts := due ∧ sessionReady (moveWork p.val s) p.val = true
    let code := if f.val + n.val = serviceSegments p.val then 1 else 4
    let more := fun i => min (b.sessions + i) (2 ^ 64 - 1)
    let bad := fun i run => (⟨now, 0x6010, BitVec.ofNat 16 (partSource p.val), BitVec.ofNat 32 p.val, BitVec.ofNat 32 i, run⟩ : HwRecord)
    let last := f.val + n.val - 1
    let others := fun (t : State) => ∀ x, x ≠ p.val → resultOf t x = resultOf s x
    let calm := 32 ≤ p.val ∨ ∀ x ∈ s.scans, x.2.sub ≠ p.val
    (live → serving s = true → b.status ≠ 1 → serviceParts s ≠ [] → after (.passRequestStart path) (fun t => told t 0 ∧
      t.bist.pass = 2 ∧ t.bist.asked = true ∧ t.bist.status = 1 ∧ t.bist.progress = 0 ∧ t.bist.waiting = [] ∧
      resultOf t q = (0, 0, (resultOf s q).2.2) ∧
      first t [⟨now, 0x6001, 0, 2, BitVec.ofNat 32 (serviceParts s).length, 0⟩] ∧
      { t with bist := b, dict := s.dict, pcie := s.pcie, log := s.log, mram := s.mram } = s)) ∧
    (live → (serving s = false ∨ b.status = 1) → refuses (.passRequestStart path)) ∧
    (live → b.pass ≠ 0 → faultable s = true → after (.passRequestAbort path) (fun t => told t 0 ∧ t.bist.pass = 0 ∧
      t.bist.status = 0x8001 ∧ t.bist.lastPassEnd = now ∧ pends t 1654 ∧ (b.asked = true → pends t 1650) ∧
      t.bist.results = b.results ∧ t.bist.sessions = b.sessions ∧
      { t with bist := b, dict := s.dict, pcie := s.pcie, log := s.log, mram := s.mram } = s)) ∧
    (live → b.pass = 0 → refuses (.passRequestAbort path)) ∧
    (live → (s.sys.mode ≠ .maintenance ∨ b.status = 1) → refuses full) ∧
    (live → s.sys.mode = .maintenance → b.status ≠ 1 → failed = 0 → cores = 0 → after full (fun t => told t 0 ∧ t.bist.status = 2 ∧
      t.bist.pass = 0 ∧ t.bist.progress = 77 ∧ t.bist.lastPassEnd = now ∧ t.sys = s.sys ∧ t.jobs = s.jobs ∧ t.present = s.present ∧
      (q < 77 → resultOf t q = (1, allSegments q, (resultOf s q).2.2) ∧ t.bist.passed.parts.getLsbD q = true) ∧
      t.bist.passed.cores = BitVec.allOnes 128 ∧ pends t 1650 ∧ pends t 1654 ∧
      (q < 32 → patterns.getLsbD q = false → s.present.subchannels.getLsbD q = false → s.mram.retired.subchannels.getLsbD q = true →
        t.mram.retired.subchannels.getLsbD q = false ∧ t.mram.retired.parts.getLsbD q = false) ∧
      (q < 32 → patterns.getLsbD q = true → t.mram.retired.subchannels.getLsbD q = s.mram.retired.subchannels.getLsbD q))) ∧
    (live → s.sys.mode = .maintenance → b.status ≠ 1 → 68 ≤ p.val → p.val < 77 → s.mram.retired.parts.getLsbD p.val = false →
      failed = BitVec.twoPow 77 p.val → after full (fun t => t.sys.mode = .hold ∧ t.sys.holdCause = 0x3012 ∧ (resultOf t p.val).1 = 2)) ∧
    (starts → o = .pass → after session (fun t => resultOf t p.val = (code, f.val + n.val, z.2.2) ∧ others t ∧
      t.bist.sessions = more 1 ∧ t.bist.mismatches = b.mismatches ∧ (calm → t.mram.retired = s.mram.retired ∧ t.sys = s.sys) ∧
      (48 ≤ p.val → p.val < 64 → (getBank t (p.val - 48)).state = 2) ∧ (p.val < 32 → t.scans = (handOver p.val s).scans) ∧
      (32 ≤ p.val → p.val < 48 → c.val / 8 = p.val - 32 → (getCore t c.val).slot = none) ∧
      (code = 4 → t.bist.pass = 2 ∧ (calm → t.log = s.log ∧ t.pcie = s.pcie)))) ∧
    (starts → o = .abandoned → after session (fun t => resultOf t p.val = z ∧ others t ∧ t.bist.sessions = b.sessions ∧
      t.bist.mismatches = b.mismatches ∧ (48 ≤ p.val → p.val < 64 → (getBank t (p.val - 48)).state = 2))) ∧
    (starts → o = .failOnce → after session (fun t => resultOf t p.val = (code, f.val + n.val, min (z.2.2 + 1) 65535) ∧ others t ∧
      t.bist.sessions = more 2 ∧ t.bist.mismatches = min (b.mismatches + 1) (2 ^ 32 - 1) ∧
      (calm → t.mram.retired = s.mram.retired ∧ t.sys = s.sys ∧ first t [bad last 1, { bad last 0 with code := 0x6011 }]))) ∧
    (starts → o = .failTwice → 64 ≤ p.val → after session (fun t =>
      resultOf t p.val = (2, f.val + n.val, min (z.2.2 + 2) 65535) ∧ others t ∧ t.bist.sessions = more 2 ∧
      t.bist.mismatches = min (b.mismatches + 2) (2 ^ 32 - 1) ∧ t.mram.retired.parts.getLsbD p.val = true ∧
      t.present.compression.getLsbD (p.val - 64) = false ∧ tblGet 0 t.eng.compState (p.val - 64) = 2 ∧
      t.sys.mode = .degraded ∧ t.bist.retiredInPass = true ∧ pends t 1653 ∧ first t [bad last 1, bad last 2])) ∧
    (due → ((calm ∧ sessionReady (moveWork p.val s) p.val = false) ∨ ((p.val < 32 ∨ 48 ≤ p.val) ∧ sessionReady s p.val = false)) →
      after session (fun t => t.bist = { b with waiting := b.waiting ++ [p.val] } ∧
      t.mram = s.mram ∧ t.sys = s.sys ∧ t.log = s.log)) ∧
    ((serving s = false ∨ partPresent s p.val = false ∨ b.pass = 1) → exec session s = .next s) ∧
    (b.pass = 0 → settingVal s 0x4100 4 = 0 → exec session s = .next s) ∧
    (exec (.sessionRetry p) s = .next { s with bist := { b with waiting := b.waiting.filter (fun x => decide (x ≠ p.val)) } }) ∧
    (serving s = true → b.pass = 2 → b.late = false → b.waiting = [] → unfinished s ≠ [] → after .passLate (fun t => t.bist.late = true ∧
      t.bist.pass = 2 ∧ t.bist.results = b.results ∧
      first t [⟨now, 0x6003, 0, BitVec.ofNat 32 (unfinished s).length, 0, 0⟩])) ∧
    (serving s = true → b.pass = 2 → b.late = false → b.waiting = [32 + k.val] → resultOf s (32 + k.val) = (0, 0, z.2.2) → after .passLate (fun t =>
      resultOf t (32 + k.val) = (3, 0, z.2.2) ∧ t.bist.waiting = [] ∧ ∀ x, x ≠ 32 + k.val → resultOf t x = resultOf s x)) ∧
    ((serving s = false ∨ b.pass ≠ 2 ∨ b.late = true) → exec .passLate s = .next s)

/-- Firmware packages and the Heartwood log (15, R622, R625 to R628, R631; 16, R676 to R678, R680, R681, R683): what
PACKAGE, COMMIT and ABORT leave in flash and in the entries, how a record reaches its slot, and what a clear leaves.
What the model chose: log entries 174, 175, 176, 177, 179, 180. -/
def Obligations.FirmwareAndLogAreWritten : Prop :=
  ∀ (s : State) (p : DictPath) (offset value : BitVec 32) (data : Bytes) (ok : Bool) (a i : Nat) (r : HwRecord) (rest : List HwRecord),
    let f := s.fw
    let now := calendarNow s
    let live := pathServes s p = true ∧ p ≠ .usdo
    let told := fun (t : State) (a : BitVec 32) => t.dict.answer = ⟨[], a⟩ ∧
      (p = .mailbox → t.dict.mailbox.state = (if a = 0 then 2 else 3) ∧ t.dict.mailbox.abort = a)
    let refuses := fun i c => ∃ t, exec i s = .next t ∧ told t c ∧
      { t with pcie := s.pcie, dict := { t.dict with mailbox := s.dict.mailbox, answer := s.dict.answer } } = s
    let pends := fun (t : State) i => tblGet false t.pcie.esPending i = true
    let room := s.mram.logFull = false ∧ s.log.queue.length < 1024
    let after := fun i (ok : State → Prop) => ∃ t, exec i s = .next t ∧ told t 0 ∧
      flashBank t.flash f.booted = flashBank s.flash f.booted ∧ t.sys.mode = s.sys.mode ∧ t.jobs = s.jobs ∧ t.dev = s.dev ∧ ok t
    let bank := fun (t : State) => flashBank t.flash (otherBank f.booted)
    let byte := fun (t : State) a => memGet 0xFF (bank t) a
    let idle := live ∧ f.status ≠ 1
    let new := offset.toNat + data.length
    let fits := new ≤ 64 * 2 ^ 20
    let package := Instr.package p offset data ok
    let held := f.held.take 128
    let sound := headerRules held = true
    let agrees := sectionsAgree (bank s) held = true
    let ends := fun (t : State) (c : BitVec 16) => t.fw.status = c ∧ pends t 1650
    let calm := s.sys.episode = none
    let log := live ∧ s.sys.holdRom = false
    let serves := tisumServes s = true
    let next := s.log.next
    (idle → fits → offset = 0 → ok = true → after package (fun t => ends t 2 ∧ t.fw.inactiveState = 3 ∧ t.fw.inactiveVersion = 0 ∧
      t.fw.held = data.take 4096 ∧ t.fw.bytesWritten = BitVec.ofNat 32 data.length ∧ t.fw.started = true ∧
      byte t a = if a < 4096 then 0xFF else data.getD a 0xFF)) ∧
    (idle → fits → 4096 ≤ offset.toNat → offset = f.bytesWritten → f.started = true → ok = true → after package (fun t => ends t 2 ∧
      t.fw.held = f.held.take 4096 ∧ t.fw.bytesWritten = BitVec.ofNat 32 new ∧ t.fw.inactiveState = f.inactiveState ∧
      byte t a = if offset.toNat ≤ a ∧ a < new then data.getD (a - offset.toNat) 0 else byte s a)) ∧
    (idle → fits → offset = 0 → ok = false → after package (fun t => ends t 0x8003 ∧ t.fw.inactiveState = 3)) ∧
    (live → fits → offset ≠ 0 → (offset ≠ f.bytesWritten ∨ f.started = false) → refuses package 0x08000020) ∧
    (live → ¬ fits → refuses package 0x06070010) ∧
    (live → f.status = 1 → refuses (.commit p ok) 0x08000022 ∧ refuses (.abort p) 0x08000022 ∧
      (fits → offset = 0 → refuses package 0x08000022)) ∧
    (pathServes s p = true → p = .usdo → s.sys.holdRom = false → refuses package 0x06010000 ∧ refuses (.commit p ok) 0x06010000 ∧
      refuses (.abort p) 0x06010000 ∧ refuses (.clear p value) 0x06010000) ∧
    (idle → calm → f.started = true → sound → agrees → ok = true → after (.commit p ok) (fun t => ends t 2 ∧ t.fw.inactiveState = 2 ∧
      firmwareValid (bank t) = true ∧ firmwareSequence (bank t) = (f.sequence + 1).toNat ∧
      bootFails t.mram (otherBank f.booted) = 0 ∧ bootFails t.mram f.booted = bootFails s.mram f.booted ∧
      (128 ≤ a → byte t a = byte s a) ∧ manifestReg t 8 = sha384 (manifestReg s 8 ++ sha384 (headerBytes (bank t))) ∧
      (room → t.log.queue = s.log.queue ++ [⟨now, 0x7001, 0, BitVec.ofNat 32 (otherBank f.booted).val, f.sequence + 1,
        t.fw.inactiveVersion⟩]))) ∧
    (idle → calm → f.started = false → after (.commit p ok) (fun t => ends t 0x8004 ∧ t.flash = s.flash)) ∧
    (idle → calm → f.started = true → ¬ sound → after (.commit p ok) (fun t => ends t 0x8001 ∧ t.flash = s.flash)) ∧
    (idle → calm → f.started = true → sound → ¬ agrees → after (.commit p ok) (fun t => ends t 0x8002 ∧ t.flash = s.flash)) ∧
    (idle → calm → f.started = true → sound → agrees → ok = false → after (.commit p ok) (fun t => ends t 0x8003 ∧
      (127 ≤ a → byte t a = byte s a) ∧ t.manifest = s.manifest ∧ t.log = s.log)) ∧
    (idle → ¬ calm → after (.commit p ok) (fun t => t.fw = { f with status := 1, commitWaits := some ok } ∧ t.flash = s.flash)) ∧
    (idle → after (.abort p) (fun t => t.fw.inactiveState = 0 ∧ t.fw.started = false ∧ firmwareValid (bank t) = false ∧
      (4096 ≤ a → byte t a = byte s a) ∧ t.log = s.log)) ∧
    (log → value ≠ 0x65706977 → refuses (.clear p value) 0x08000020) ∧
    (log → value = 0x65706977 → s.log.clearStatus = 1 → refuses (.clear p value) 0x08000022) ∧
    (log → value = 0x65706977 → s.log.clearStatus ≠ 1 → after (.clear p value) (fun t => t.log = { s.log with next := 1, clearStatus := 2 } ∧
      t.mram.baseSequence = s.mram.baseSequence + BitVec.ofNat 32 next ∧ t.mram.dropped = 0 ∧ t.mram.logFull = false ∧
      hwSlot t.mram 0 = recordBytes t.mram.baseSequence ⟨now, 0x0010, 0, s.mram.baseSequence, BitVec.ofNat 32 next, s.mram.dropped⟩ ∧
      slotTrusted t.mram 0 = true ∧ (1 ≤ i → i < next → slotTrusted t.mram i = false) ∧ 0xFF04 ∉ t.can.conditions ∧ pends t 1650)) ∧
    (serves → s.log.queue = r :: rest → s.mram.logFull = false → next < 131072 → ∃ t, exec .heartwoodAppend s = .next t ∧
      slotTrusted t.mram next = true ∧ hwSlot t.mram next = recordBytes (s.mram.baseSequence + BitVec.ofNat 32 next) r ∧
      (∀ i, i ≠ next → hwSlot t.mram i = hwSlot s.mram i) ∧ t.log.next = next + 1 ∧ t.mram.baseSequence = s.mram.baseSequence ∧
      (next + 1 = 131072 → t.mram.logFull = true ∧ pends t 1652 ∧ 0xFF04 ∈ t.can.conditions ∧ t.log.queue = rest) ∧
      (next + 1 < 131072 → t.mram.logFull = false ∧ t.pcie = s.pcie ∧ t.can = s.can ∧
        ((rest ≠ [] ∨ s.log.lost = 0) → t.log.queue = rest ∧ t.log.lost = s.log.lost) ∧
        (rest = [] → s.log.lost ≠ 0 → t.log.queue = [⟨now, 0x0011, 0, BitVec.ofNat 32 s.log.lost, 0, 0⟩] ∧ t.log.lost = 0))) ∧
    (serves → s.log.queue = r :: rest → s.mram.logFull = true → exec .heartwoodAppend s = .next { s with
      log := { s.log with queue := rest }
      mram := { s.mram with dropped := if s.mram.dropped = BitVec.allOnes 32 then s.mram.dropped else s.mram.dropped + 1 } }) ∧
    (s.log.queue = [] → exec .heartwoodAppend s = .next s)

/-- The SPDM responder (15, R634 to R636): each request's answer, the order of the negotiation, and what is measured.
Layouts and codes are those of DSP0274, which the spec names and does not repeat. What the model chose: log entries
191, 192. -/
def Obligations.SpdmAnswersWhatIsMeasured : Prop :=
  ∀ (s : State) (a b : Bool) (slot : Fin 16) (offset length : BitVec 16) (index summary code : BitVec 8) (nonce : BitVec 256) (i : Nat),
    let p := s.spdm
    let open_ := doeOpen s = true
    let ready := open_ ∧ p.version = true ∧ p.capabilities = true ∧ p.algorithms = true
    let put := fun (x : Spdm) => { s with spdm := x }
    let joins := fun (r : Bytes) => { p with response := r, transcript := p.transcript ++ r }
    let errs := fun i (c d : Byte) => exec i s = .next (put { p with response := [0x13, 0x7F, c, d] })
    let chain := s.flash.certChain
    let part := (chain.drop offset.toNat).take length.toNat
    let fresh := fun (x : Spdm) => { s with spdm := x, sys := { s.sys with fresh := s.sys.fresh + 1 } }
    let own := (List.finRange 32).map (Config.nonce s.sys.fresh)
    let signed := fun (r : Bytes) => { p with
      response := r ++ (List.finRange 96).map (Config.signature (p.transcript ++ natLe 32 nonce.toNat ++ r) p.signatures)
      transcript := [], signatures := p.signatures + 1 }
    let block := fun i (t : Byte) (v : Bytes) => natLe 1 i ++ [1] ++ natLe 2 (v.length + 3) ++ [t] ++ natLe 2 v.length ++ v
    let digests := (List.range 512).flatMap (fun b => if (getB s b).state = .absent then List.replicate 48 0 else (getB s b).digest)
    let blocks := (List.range 4).flatMap (fun k => block (k + 1) 0x01 (manifestReg s k)) ++ block 5 0x03 (manifestReg s 4) ++
      (List.range 11).flatMap (fun k => block (k + 6) 0x04 (manifestReg s (k + 5))) ++
      block 0x11 0x00 ((List.finRange 48).map Config.romDigest) ++ block 0x12 0x84 s.manifest.events.flatten ++ block 0x13 0x84 digests
    let body := fun (n : Nat) (total : Byte) (d : Bytes) => [0x13, 0x60, total, 0] ++ natLe 1 n ++ natLe 3 d.length ++ d ++ own ++
      natLe 2 0 ++ List.replicate 8 0
    let measures := fun (n : Nat) (total : Byte) (d : Bytes) => ready →
      (a = true → exec (.getMeasurements index a nonce) s = .next (fresh (signed (body n total d)))) ∧
      (a = false → exec (.getMeasurements index a nonce) s = .next (fresh (joins (body n total d))))
    let proof_ := fun (h : Bytes) => [0x13, 0x03, 0, 1] ++ sha384 chain ++ own ++ h ++ natLe 2 0 ++ List.replicate 8 0
    (open_ → exec .getVersion s = .next (put { p with
      version := true, capabilities := false, algorithms := false, transcript := [0x10, 0x04, 0, 0, 0, 1, 0x00, 0x13]
      response := [0x10, 0x04, 0, 0, 0, 1, 0x00, 0x13] })) ∧
    (open_ → p.version = true → exec .getCapabilities s = .next (put { joins ([0x13, 0x61, 0, 0, 0, Config.spdmLimits.1, 0, 0] ++
      natLe 4 0x36 ++ natLe 4 Config.spdmLimits.2.1.toNat ++ natLe 4 Config.spdmLimits.2.2.toNat) with capabilities := true })) ∧
    (open_ → p.version = true → p.capabilities = true → exec (.negotiateAlgorithms a b) s = .next (put { joins ([0x13, 0x63, 0, 0] ++
      natLe 2 36 ++ [1, 0] ++ natLe 4 (if b then 4 else 0) ++ natLe 4 (if a then 0x80 else 0) ++ natLe 4 (if b then 2 else 0) ++
      List.replicate 16 0) with algorithms := a && b })) ∧
    (ready → exec .getDigests s = .next (put (joins ([0x13, 0x01, 1, 1] ++ sha384 chain)))) ∧
    (ready → slot = 0 → offset.toNat < chain.length → exec (.getCertificate slot offset length) s = .next (put (joins
      ([0x13, 0x02, 0, 0] ++ natLe 2 part.length ++ natLe 2 (chain.length - offset.toNat - part.length) ++ part)))) ∧
    (ready → (slot ≠ 0 ∨ chain.length ≤ offset.toNat) → errs (.getCertificate slot offset length) 0x01 0) ∧
    (ready → slot = 0 → summary = 0 → exec (.challenge slot summary nonce) s = .next (fresh (signed (proof_ [])))) ∧
    (ready → slot = 0 → summary = 0xFF → exec (.challenge slot summary nonce) s = .next (fresh (signed (proof_ (sha384 blocks))))) ∧
    (ready → slot = 0 → summary = 1 → exec (.challenge slot summary nonce) s = .next (fresh (signed (proof_
      (sha384 ((measurementIndices.filter Config.tcbIndex).flatMap (measurementBlock s))))))) ∧
    (ready → (slot ≠ 0 ∨ (summary ≠ 0 ∧ summary ≠ 1 ∧ summary ≠ 0xFF)) → errs (.challenge slot summary nonce) 0x01 0) ∧
    (index = 0 → measures 0 0x13 []) ∧
    (index = 0xFF → measures 19 0 blocks) ∧
    (1 ≤ i → i ≤ 4 → index = BitVec.ofNat 8 i → measures 1 0 (block i 0x01 (manifestReg s (i - 1)))) ∧
    (index = 5 → measures 1 0 (block 5 0x03 (manifestReg s 4))) ∧
    (6 ≤ i → i ≤ 16 → index = BitVec.ofNat 8 i → measures 1 0 (block i 0x04 (manifestReg s (i - 1)))) ∧
    (index = 0x11 → measures 1 0 (block 0x11 0x00 ((List.finRange 48).map Config.romDigest))) ∧
    (index = 0x12 → measures 1 0 (block 0x12 0x84 s.manifest.events.flatten)) ∧
    (index = 0x13 → measures 1 0 (block 0x13 0x84 digests)) ∧
    (ready → 0x13 < index.toNat → index ≠ 0xFF → errs (.getMeasurements index a nonce) 0x01 0) ∧
    (open_ → errs (.unsupportedSpdmRequest code) 0x07 code) ∧
    (open_ → p.version = false → errs .getCapabilities 0x04 0) ∧
    (open_ → (p.version = false ∨ p.capabilities = false) → errs (.negotiateAlgorithms a b) 0x04 0) ∧
    (open_ → ¬ ready → errs .getDigests 0x04 0 ∧ errs (.getCertificate slot offset length) 0x04 0 ∧
      errs (.challenge slot summary nonce) 0x04 0 ∧ errs (.getMeasurements index a nonce) 0x04 0) ∧
    (doeOpen s = false → exec .getVersion s = .next s ∧ exec (.unsupportedSpdmRequest code) s = .next s)
end

