-- ==== Sys2Proof/Decode.lean ====
section
/-! DEFINITION. The commands that the table gives bits to: none, so no word spells a command. -/

namespace Sys2Proof

/-- The command a word spells by the table's bits. Every row of spec/opcode_table.json has an empty list of fields. -/
def decodeTableWord (_nbits _w : Nat) : Option Instr := none

end Sys2Proof
end

