-- ==== Sys2Proof/Laws/Mem.lean ====
section
/-! SUPPORT. Sparse tables and byte memory: what a read answers after a write, and that every operation on memory keeps
the canonical form. -/

namespace Sys2Proof.Machine

/-! ## Tables -/

/-- Numbers strictly rising: the form in which every table of the state is kept. -/
abbrev tblWf {α : Type} (t : Tbl α) : Prop := t.Pairwise (fun x y => x.1 < y.1)

theorem mem_tblSet {α : Type} {t : Tbl α} {k : Nat} {v : α} {e : Nat × α} (h : e ∈ tblSet t k v) :
    e = (k, v) ∨ e ∈ t := by
  induction t with
  | nil => simpa [tblSet] using h
  | cons x t ih =>
    obtain ⟨j, w⟩ := x
    simp only [tblSet] at h
    split at h
    · rcases List.mem_cons.1 h with h | h
      · exact .inl h
      · exact .inr (List.mem_cons_of_mem _ h)
    · split at h
      · rcases List.mem_cons.1 h with h | h
        · exact .inl h
        · exact .inr h
      · rcases List.mem_cons.1 h with h | h
        · exact .inr (h ▸ List.mem_cons_self ..)
        · rcases ih h with h | h
          · exact .inl h
          · exact .inr (List.mem_cons_of_mem _ h)

theorem tblSet_wf {α : Type} {t : Tbl α} (k : Nat) (v : α) (h : tblWf t) : tblWf (tblSet t k v) := by
  induction t with
  | nil => simp [tblSet, tblWf]
  | cons x t ih =>
    obtain ⟨j, w⟩ := x
    have hj := List.pairwise_cons.1 h
    simp only [tblSet]
    split
    · next e => subst e; exact List.pairwise_cons.2 hj
    · split
      · next hlt =>
        refine List.pairwise_cons.2 ⟨fun e he => ?_, h⟩
        rcases List.mem_cons.1 he with he | he
        · subst he; exact hlt
        · exact Nat.lt_trans hlt (hj.1 e he)
      · refine List.pairwise_cons.2 ⟨fun e he => ?_, ih hj.2⟩
        rcases mem_tblSet he with he | he
        · subst he; simp only; omega
        · exact hj.1 e he

theorem tblErase_wf {α : Type} {t : Tbl α} (k : Nat) (h : tblWf t) : tblWf (tblErase t k) := h.filter _

/-- Reading back what was written. -/
@[simp] theorem tblGet_tblSet_self {α : Type} (d : α) (t : Tbl α) (k : Nat) (v : α) :
    tblGet d (tblSet t k v) k = v := by
  induction t with
  | nil => simp [tblSet, tblGet]
  | cons x t ih =>
    obtain ⟨j, w⟩ := x
    simp only [tblSet]
    split
    · simp [tblGet]
    · split
      · simp [tblGet]
      · next h _ => simp [tblGet, h, ih]

/-- A write leaves every other number alone. -/
theorem tblGet_tblSet_of_ne {α : Type} (d : α) (t : Tbl α) {k j : Nat} (v : α) (h : j ≠ k) :
    tblGet d (tblSet t k v) j = tblGet d t j := by
  induction t with
  | nil => simp [tblSet, tblGet, h]
  | cons x t ih =>
    obtain ⟨i, w⟩ := x
    simp only [tblSet]
    split
    · next e => subst e; simp [tblGet, h]
    · split
      · simp [tblGet, h]
      · simp only [tblGet, ih]

theorem tblGet_tblSet {α : Type} (d : α) (t : Tbl α) (k j : Nat) (v : α) :
    tblGet d (tblSet t k v) j = if j = k then v else tblGet d t j := by
  split
  · next h => subst h; simp
  · next h => exact tblGet_tblSet_of_ne d t v h

@[simp] theorem tblGet_tblMod_self {α : Type} (d : α) (t : Tbl α) (k : Nat) (f : α → α) :
    tblGet d (tblMod d t k f) k = f (tblGet d t k) := by simp [tblMod]

theorem tblGet_tblMod_of_ne {α : Type} (d : α) (t : Tbl α) {k j : Nat} (f : α → α) (h : j ≠ k) :
    tblGet d (tblMod d t k f) j = tblGet d t j := by simp [tblMod, tblGet_tblSet_of_ne _ _ _ h]

/-- Writing twice at one number is writing once. -/
@[simp] theorem tblSet_tblSet {α : Type} (t : Tbl α) (k : Nat) (v w : α) :
    tblSet (tblSet t k v) k w = tblSet t k w := by
  induction t with
  | nil => simp [tblSet]
  | cons x t ih =>
    obtain ⟨j, u⟩ := x
    simp only [tblSet]
    split
    · simp [tblSet]
    · split
      · simp [tblSet]
      · next h _ => simp_all [tblSet]

theorem tblGet_of_not_mem {α : Type} (d : α) (t : Tbl α) (k : Nat) (h : ∀ e ∈ t, e.1 ≠ k) : tblGet d t k = d := by
  induction t with
  | nil => rfl
  | cons x t ih =>
    obtain ⟨j, w⟩ := x
    have : k ≠ j := fun e => h (j, w) (List.mem_cons_self ..) e.symm
    simp only [tblGet, this, if_false]
    exact ih fun e he => h e (List.mem_cons_of_mem _ he)

theorem tblGet_tblErase (d : α) (t : Tbl α) (k j : Nat) :
    tblGet d (tblErase t k) j = if j = k then d else tblGet d t j := by
  induction t with
  | nil => simp [tblErase, tblGet]
  | cons x t ih =>
    obtain ⟨i, w⟩ := x
    unfold tblErase at ih ⊢
    simp only [List.filter_cons]
    by_cases hi : i = k
    · subst hi
      simp only [decide_true, Bool.not_true, Bool.false_eq_true, if_false, ih, tblGet]
      split <;> simp_all
    · simp only [hi, decide_false, Bool.not_false, if_true, tblGet, ih]
      by_cases hj : j = i
      · subst hj; simp [hi]
      · simp [hj]

/-! ## Memory -/

theorem memSet_wf {d : Byte} {m : List Host.Cell} (a : Nat) (v : Byte) (h : memWf d m) : memWf d (memSet d m a v) := by
  unfold memSet
  split
  · exact ⟨h.1.filter _, fun c hc => h.2 c (List.mem_filter.1 hc).1⟩
  · next hv =>
    refine ⟨tblSet_wf a v h.1, fun c hc => ?_⟩
    rcases mem_tblSet hc with hc | hc
    · subst hc; exact hv
    · exact h.2 c hc

theorem memWrite_wf {d : Byte} (b : Bytes) {m : List Host.Cell} (a : Nat) (h : memWf d m) :
    memWf d (memWrite d m a b) := by
  induction b generalizing m a with
  | nil => exact h
  | cons x t ih => exact ih (a + 1) (memSet_wf a x h)

theorem memClear_wf {d : Byte} {m : List Host.Cell} (a n : Nat) (h : memWf d m) : memWf d (memClear m a n) :=
  ⟨h.1.filter _, fun c hc => h.2 c (List.mem_filter.1 hc).1⟩

/-- A byte read after a byte written. -/
theorem memGet_memSet (d : Byte) (m : List Host.Cell) (a x : Nat) (v : Byte) :
    memGet d (memSet d m a v) x = if x = a then v else memGet d m x := by
  unfold memGet memSet
  split
  · next h => subst h; exact tblGet_tblErase ..
  · exact tblGet_tblSet ..

/-- Bytes below or above a written string are unchanged. -/
theorem memGet_memWrite_outside (d : Byte) (b : Bytes) (m : List Host.Cell) (a x : Nat)
    (h : x < a ∨ a + b.length ≤ x) : memGet d (memWrite d m a b) x = memGet d m x := by
  induction b generalizing m a with
  | nil => rfl
  | cons y t ih =>
    simp only [List.length_cons] at h
    rw [memWrite, ih _ _ (by omega), memGet_memSet, if_neg (by omega)]

/-- The bytes of a written string read back. -/
theorem memGet_memWrite_inside (d : Byte) (b : Bytes) (m : List Host.Cell) (a i : Nat) (h : i < b.length) :
    memGet d (memWrite d m a b) (a + i) = b[i] := by
  induction b generalizing m a i with
  | nil => exact absurd h (by simp)
  | cons y t ih =>
    cases i with
    | zero =>
      rw [memWrite, Nat.add_zero, memGet_memWrite_outside _ _ _ _ _ (by omega), memGet_memSet]
      simp
    | succ i =>
      have := ih (memSet d m a y) (a + 1) i (by simpa using h)
      rw [memWrite, show a + (i + 1) = a + 1 + i by omega, this]
      rfl

theorem memRead_length (d : Byte) (m : List Host.Cell) (a n : Nat) : (memRead d m a n).length = n := by
  induction n generalizing a with
  | zero => rfl
  | succ n ih => simp [memRead, ih]

/-- Reading a written string gives it back. -/
theorem memRead_memWrite (d : Byte) (m : List Host.Cell) (a : Nat) (b : Bytes) :
    memRead d (memWrite d m a b) a b.length = b := by
  have key : ∀ (t p : Bytes), p ++ t = b →
      memRead d (memWrite d m a b) (a + p.length) t.length = t := by
    intro t
    induction t with
    | nil => intro p _; rfl
    | cons x t ih =>
      intro p hp
      have hx : p.length < b.length := by rw [← hp]; simp
      have h1 := memGet_memWrite_inside d b m a p.length hx
      have h2 := ih (p ++ [x]) (by simpa using hp)
      rw [List.length_append, List.length_singleton, ← Nat.add_assoc] at h2
      simp only [List.length_cons, memRead, h1, h2]
      congr 1
      simp [← hp]
  simpa using key b [] rfl

theorem mem_zipWith {α β γ : Type} {f : α → β → γ} {l : List α} {m : List β} {e : γ} (h : e ∈ List.zipWith f l m) :
    ∃ x y, x ∈ l ∧ y ∈ m ∧ f x y = e := by
  induction l generalizing m with
  | nil => simp at h
  | cons x l ih =>
    cases m with
    | nil => simp at h
    | cons y m =>
      rcases List.mem_cons.1 (by simpa using h) with rfl | h
      · exact ⟨x, y, List.mem_cons_self .., List.mem_cons_self .., rfl⟩
      · obtain ⟨a, b, h1, h2, h3⟩ := ih h
        exact ⟨a, b, List.mem_cons_of_mem _ h1, List.mem_cons_of_mem _ h2, h3⟩

end Sys2Proof.Machine
end

