-- ==== Sys2Proof/Laws/Lanes.lean ====
section
/-! SUPPORT. Elements of a register group: what reading one gives after others are written. -/

namespace Sys2Proof.Machine

/-- A number with the `w` bits from bit `o` replaced: the field, and what lies below and above it. -/
theorem field_replace {x m o w p q : Nat} (hm : m < 2 ^ w)
    (hq : q = x % 2 ^ o + m * 2 ^ o + x / 2 ^ (o + w) * 2 ^ (o + w)) :
    (p + w ≤ o → q / 2 ^ p % 2 ^ w = x / 2 ^ p % 2 ^ w) ∧ (o + w ≤ p → q / 2 ^ p = x / 2 ^ p) ∧
      q / 2 ^ o % 2 ^ w = m := by
  have hlow : x % 2 ^ o < 2 ^ o := Nat.mod_lt _ (Nat.two_pow_pos o)
  have h2 : 2 ^ (o + w) = 2 ^ o * 2 ^ w := Nat.pow_add ..
  have q2 : q = x % 2 ^ o + 2 ^ o * (m + 2 ^ w * (x / 2 ^ (o + w))) := by
    rw [hq, Nat.mul_add, ← Nat.mul_assoc, ← h2, Nat.mul_comm m, Nat.mul_comm (2 ^ (o + w)), Nat.add_assoc]
  have q1 : q / 2 ^ o = m + 2 ^ w * (x / 2 ^ (o + w)) := by
    rw [q2, Nat.add_mul_div_left _ _ (Nat.two_pow_pos o), Nat.div_eq_of_lt hlow, Nat.zero_add]
  have q0 : q % 2 ^ o = x % 2 ^ o := by rw [q2, Nat.add_mul_mod_self_left, Nat.mod_mod]
  refine ⟨fun hp => ?_, fun hp => ?_, ?_⟩
  · have e (y : Nat) : y / 2 ^ p % 2 ^ w = y % 2 ^ o / 2 ^ p % 2 ^ w := by
      obtain ⟨d, rfl⟩ : ∃ d, o = p + w + d := ⟨o - (p + w), by omega⟩
      rw [Nat.pow_add, Nat.pow_add, Nat.mul_assoc, Nat.mod_mul_right_div_self, Nat.mod_mul_right_mod]
    rw [e q, e x, q0]
  · obtain ⟨d, rfl⟩ : ∃ d, p = o + w + d := ⟨p - (o + w), by omega⟩
    rw [Nat.pow_add, ← Nat.div_div_eq_div_mul, ← Nat.div_div_eq_div_mul, h2, ← Nat.div_div_eq_div_mul, q1, ← h2,
      Nat.add_mul_div_left _ _ (Nat.two_pow_pos w), Nat.div_eq_of_lt hm, Nat.zero_add]
  · rw [q1, Nat.add_mul_mod_self_left, Nat.mod_eq_of_lt hm]

/-- The replaced number fits where the old one did. -/
theorem field_replace_lt {x m o w n : Nat} (hm : m < 2 ^ w) (hn : o + w ≤ n) (hx : x < 2 ^ n) :
    x % 2 ^ o + m * 2 ^ o + x / 2 ^ (o + w) * 2 ^ (o + w) < 2 ^ n := by
  have hlow : x % 2 ^ o < 2 ^ o := Nat.mod_lt _ (Nat.two_pow_pos o)
  have h2 : 2 ^ (o + w) = 2 ^ w * 2 ^ o := by rw [Nat.add_comm]; exact Nat.pow_add ..
  obtain ⟨d, rfl⟩ : ∃ d, n = o + w + d := ⟨n - (o + w), by omega⟩
  have hd : x / 2 ^ (o + w) < 2 ^ d := by
    rw [Nat.div_lt_iff_lt_mul (Nat.two_pow_pos _), Nat.mul_comm, ← Nat.pow_add]; exact hx
  have h1 : x % 2 ^ o + m * 2 ^ o < 2 ^ (o + w) := by
    rw [h2]
    calc _ < (m + 1) * 2 ^ o := by rw [Nat.succ_mul]; omega
      _ ≤ _ := Nat.mul_le_mul_right _ hm
  rw [Nat.pow_add 2 (o + w) d]
  calc _ < (x / 2 ^ (o + w) + 1) * 2 ^ (o + w) := by rw [Nat.succ_mul]; omega
    _ ≤ 2 ^ d * 2 ^ (o + w) := Nat.mul_le_mul_right _ hd
    _ = _ := Nat.mul_comm ..

/-- Elements of a width that divides 512 lie each within one register. -/
theorem elem_offset {w i : Nat} (hw : 0 < w) (hd : 512 % w = 0) :
    i * w % 512 + w ≤ 512 ∧ i * w % 512 % w = 0 := by
  obtain ⟨c, hc⟩ := Nat.dvd_of_mod_eq_zero hd
  have hc0 : 0 < c := Nat.pos_of_ne_zero (by rintro rfl; omega)
  rw [hc, Nat.mul_comm i w, Nat.mul_mod_mul_left]
  have := Nat.mod_lt i hc0
  constructor
  · calc w * (i % c) + w = w * (i % c + 1) := by rw [Nat.mul_succ]
      _ ≤ w * c := Nat.mul_le_mul_left _ this
  · exact Nat.mul_mod_right ..

/-- Element `j` after element `i` is written. -/
theorem getElem_setElem {n w i j v : Nat} {k : Core} (hw : 0 < w) (hd : 512 % w = 0) :
    getElem (setElem n w i v k) n w j = if j = i then v % 2 ^ w else getElem k n w j := by
  have hi := elem_offset (i := i) hw hd
  have hj := elem_offset (i := j) hw hd
  have hm : v % 2 ^ w < 2 ^ w := Nat.mod_lt _ (Nat.two_pow_pos w)
  simp only [getElem, setElem]
  by_cases hr : n + j * w / 512 = n + i * w / 512
  · rw [hr, tblGet_tblSet_self, BitVec.toNat_ofNat,
      Nat.mod_eq_of_lt (field_replace_lt hm hi.1 (tblGet 0 k.v (n + i * w / 512)).isLt)]
    by_cases hij : j = i
    · subst hij
      rw [if_pos rfl]
      exact (field_replace (p := 0) hm rfl).2.2
    · rw [if_neg hij]
      have hne : j * w % 512 ≠ i * w % 512 := fun h => hij (Nat.eq_of_mul_eq_mul_right hw (by
        have := Nat.div_add_mod (i * w) 512
        have := Nat.div_add_mod (j * w) 512
        omega))
      obtain ⟨x, hx⟩ := Nat.dvd_of_mod_eq_zero hi.2
      obtain ⟨y, hy⟩ := Nat.dvd_of_mod_eq_zero hj.2
      rcases Nat.lt_or_gt_of_ne hne with h | h
      · refine (field_replace hm rfl).1 ?_
        rw [hx, hy] at h ⊢
        have := Nat.mul_le_mul_left w (Nat.succ_le_of_lt (Nat.lt_of_mul_lt_mul_left h))
        rwa [Nat.mul_succ] at this
      · rw [(field_replace hm rfl).2.1 ?_]
        rw [hx, hy] at h ⊢
        have := Nat.mul_le_mul_left w (Nat.succ_le_of_lt (Nat.lt_of_mul_lt_mul_left h))
        rwa [Nat.mul_succ] at this
  · rw [tblGet_tblSet_of_ne _ _ _ hr, if_neg (by rintro rfl; exact hr rfl)]

@[simp] theorem setElem_ew (n w i v : Nat) (k : Core) : (setElem n w i v k).ew = k.ew := rfl
@[simp] theorem setElem_vg (n w i v : Nat) (k : Core) : (setElem n w i v k).vg = k.vg := rfl
@[simp] theorem setElem_vl (n w i v : Nat) (k : Core) : (setElem n w i v k).vl = k.vl := rfl

/-- A write of elements touches the vector registers alone. -/
theorem setElems_eq (n w : Nat) (l : List (Nat × Nat)) (k : Core) :
    setElems n w l k = { k with v := (setElems n w l k).v } := by
  induction l generalizing k with
  | nil => rfl
  | cons e l ih => exact ih (setElem n w e.1 e.2 k)

/-- A register that holds none of the elements written keeps its value. -/
theorem setElems_other {n w : Nat} {l : List (Nat × Nat)} {k : Core} {r : Nat} {d : BitVec 512}
    (h : ∀ e ∈ l, r ≠ n + e.1 * w / 512) : tblGet d (setElems n w l k).v r = tblGet d k.v r := by
  induction l generalizing k with
  | nil => rfl
  | cons e l ih =>
    refine (ih (k := setElem n w e.1 e.2 k) (fun e he => h e (List.mem_cons_of_mem _ he))).trans ?_
    exact tblGet_tblSet_of_ne _ _ _ (h e (List.mem_cons_self ..))

/-- Element `j` after a list of elements with distinct numbers is written. -/
theorem getElem_setElems {n w : Nat} {is : List Nat} {f : Nat → Nat} {k : Core} {j : Nat} (hw : 0 < w)
    (hd : 512 % w = 0) :
    getElem (setElems n w (is.map (fun i => (i, f i))) k) n w j =
      if j ∈ is then f j % 2 ^ w else getElem k n w j := by
  induction is generalizing k with
  | nil => rfl
  | cons i t ih =>
    refine (ih (k := setElem n w i (f i) k)).trans ?_
    rw [getElem_setElem hw hd]
    by_cases h1 : j ∈ t
    · simp [h1]
    · by_cases h2 : j = i
      · simp [h2]
      · simp [h1, h2]

/-- Each of the five flags has a bit of FCSR of its own, whatever their order. -/
theorem flagPlaces_perm (o : Fin 5 × Fin 4 × Fin 3 × Fin 2) : (flagPlaces o).Perm (List.range 5) := by
  obtain ⟨a, b, c, d⟩ := o
  revert a b c d
  decide

end Sys2Proof.Machine
end

