-- ==== Sys2Proof/Laws/Core.lean ====
section
/-! SUPPORT. What an instruction of a core does once it is known to execute, and what the shared operations of the long
vectors leave in their destination. -/

namespace Sys2Proof.Machine

variable {s : State} {c : Fin 129} {k : Core}

theorem coreStep_of_ready {body : Core → State} (h : coreReady s c) : coreStep c s body = body (getCore s c.val) := by
  obtain ⟨h1, h2, r, h3, h4, h5, h6, h7⟩ := h
  simp only [coreStep, h1, h2, fetched, h3, h4, h5, h6, h7, and_self, if_true, Bool.not_true, Bool.or_self, Bool.false_eq_true,
    if_false]

theorem atLevel_of_ready {body : Core → State} {n : Nat} (h : coreReady s c) (hl : n ≤ (getCore s c.val).level.toNat) :
    atLevel n c s body = body (getCore s c.val) := by
  simp only [atLevel, coreStep_of_ready h, Nat.not_lt.2 hl, if_false]

theorem finish_eq (f : Core → Core) : finish c f s = withCore c (next (f (getCore s c.val))) s := rfl

theorem longVector_of_ready {ok : Core → Bool} {body : Core → Core} (h : vectorReady s c)
    (ho : ok (getCore s c.val) = true) :
    longVector c s ok body = withCore c (next (body (getCore s c.val))) s := by
  simp only [longVector, atLevel_of_ready h.1 h.2, ho, if_true, finish_eq]

theorem mem_activeElems {pg : Fin 8} {i : Nat} : i ∈ activeElems k pg ↔ isActive k pg i := by
  simp [activeElems, isActive]

/-- Element widths divide the 512 bits of a register. -/
theorem widthOf_divides {n : Nat} (h : n ≤ 6) : 0 < widthOf n ∧ 512 % widthOf n = 0 := by
  have : ∀ n, n ≤ 6 → 0 < widthOf n ∧ 512 % widthOf n = 0 := by decide
  exact this n h

theorem elemBits_divides (h : k.ew.toNat ≤ 4) : 0 < elemBits k ∧ 512 % elemBits k = 0 :=
  widthOf_divides (by omega)

theorem writeLanes_eq (n w : Nat) (l : List (Nat × LaneRes)) (k : Core) :
    writeLanes n w l k = { k with
      v := (setElems n w (l.map (fun e => (e.1, e.2.value))) k).v
      fcsr := l.foldl (fun f e => flagsInto f e.2.flags) k.fcsr
      sov := k.sov || l.any (fun e => e.2.sov) } := by
  unfold writeLanes; rw [setElems_eq]

/-- Lanes written by number, seen from their elements. -/
theorem lanes_of_setElems {is : List Nat} {on : Nat → Prop} {f : Nat → Nat} {vd w : Nat} {x : BitVec 8} {y : Bool}
    (hw : 0 < w) (hd : 512 % w = 0) (hon : ∀ i, i ∈ is ↔ on i) :
    lanesWritten k (next { k with v := (setElems vd w (is.map (fun i => (i, f i))) k).v, fcsr := x, sov := y }) vd w on
      (fun i => f i % 2 ^ w) := by
  refine ⟨rfl, fun i hi => ?_, fun i hi => ?_, fun r hr => ?_⟩
  · exact (getElem_setElems hw hd).trans (if_pos ((hon i).2 hi))
  · exact (getElem_setElems hw hd).trans (if_neg (fun h => hi ((hon i).1 h)))
  · refine setElems_other (fun e he => ?_)
    obtain ⟨i, hi, rfl⟩ := List.mem_map.1 he
    exact hr i ((hon i).1 hi)

theorem lanesWritten.congr {k' : Core} {vd w : Nat} {on : Nat → Prop} {f g : Nat → Nat}
    (h : lanesWritten k k' vd w on f) (e : ∀ i, on i → f i = g i) : lanesWritten k k' vd w on g :=
  ⟨h.1, fun i hi => (h.2.1 i hi).trans (e i hi), h.2.2⟩

theorem getElem_lt (k : Core) (n w i : Nat) : getElem k n w i < 2 ^ w := Nat.mod_lt _ (Nat.two_pow_pos w)

theorem unsigned_lt (w : Nat) (z : Int) : unsigned w z < 2 ^ w := by
  have h : (0 : Int) < ((2 ^ w : Nat) : Int) := Int.natCast_pos.2 (Nat.two_pow_pos w)
  have h1 := Int.emod_lt_of_pos z h
  have h2 := Int.emod_nonneg z (Int.ne_of_gt h)
  unfold unsigned
  rw [show (2 ^ w : Int) = ((2 ^ w : Nat) : Int) by simp]
  omega

theorem signed_emod (w n : Nat) : signed w n % 2 ^ w = (n : Int) % 2 ^ w := by
  unfold signed
  simp only
  split <;> simp

theorem unsigned_eq {w : Nat} {z : Int} {n : Nat} (h : z % 2 ^ w = (n : Int) % 2 ^ w) : unsigned w z = n % 2 ^ w := by
  rw [unsigned, h, ← Int.toNat_natCast (n % 2 ^ w)]
  congr 1

theorem operandB_lt (k : Core) (a : VArgs) (w i : Nat) : operandB k a w i < 2 ^ w := by
  unfold operandB
  split
  · exact getElem_lt ..
  · unfold scalarLane
    split
    · next h => subst h; exact unsigned_lt ..
    · exact Nat.mod_lt _ (Nat.two_pow_pos w)
  · exact unsigned_lt ..

theorem setBits_getLsbD {is : List Nat} {f : Nat → Bool} {v : BitVec 512} {j : Nat} :
    ((is.map (fun i => (i, f i))).foldl (fun v e => setBit v e.1 e.2) v).getLsbD j =
      if j ∈ is ∧ j < 512 then f j else v.getLsbD j := by
  induction is generalizing v with
  | nil => simp
  | cons i t ih =>
    rw [List.map_cons, List.foldl_cons, ih]
    by_cases h1 : j ∈ t ∧ j < 512
    · simp [h1]
    · rw [if_neg h1]
      by_cases h2 : j = i ∧ j < 512
      · obtain ⟨rfl, h3⟩ := h2
        simp only [List.mem_cons, true_or, h3, and_self, if_true]
        unfold setBit
        cases f j <;> simp [h3]
      · have : ¬ (j ∈ i :: t ∧ j < 512) := by
          simp only [List.mem_cons]; intro h; rcases h.1 with h4 | h4
          · exact h2 ⟨h4, h.2⟩
          · exact h1 ⟨h4, h.2⟩
        rw [if_neg this]
        unfold setBit
        by_cases h3 : j < 512
        · have h4 : j ≠ i := fun e => h2 ⟨e, h3⟩
          split <;> simp [h3]
          all_goals (intro h5; omega)
        · split <;> simp [BitVec.getLsbD_of_ge, Nat.not_lt.1 h3]

/-- Bits of a predicate written by number. -/
theorem bits_of_setPredBits {is : List Nat} {on val : Nat → Prop} {f : Nat → Bool} {pd : Nat} {x : BitVec 8}
    (hon : ∀ i, i ∈ is ↔ on i) (hv : ∀ i, on i → (f i = true ↔ val i)) :
    bitsWritten k (next { setPredBits pd (is.map (fun i => (i, f i))) k with fcsr := x }) pd on val := by
  refine ⟨rfl, fun i hi ho => ?_, fun i hi => ?_, fun r hr => tblGet_tblSet_of_ne _ _ _ hr⟩
  · rw [← hv i ho]
    simp only [next, setPredBits, tblMod, tblGet_tblSet_self, setBits_getLsbD, (hon i).2 ho, hi, and_self, if_true]
  · have : i ∉ is := fun h => hi ((hon i).1 h)
    simp only [next, setPredBits, tblMod, tblGet_tblSet_self, setBits_getLsbD, this, false_and, if_false]

/-- An instruction that writes lanes by number, as it completes. -/
theorem longVector_lanes {ok : Core → Bool} {vd w : Core → Nat} {is : Core → List Nat} {r : Core → Nat → LaneRes}
    {on : Nat → Prop} (h : vectorReady s c) (ho : ok (getCore s c.val) = true)
    (hw : 0 < w (getCore s c.val) ∧ 512 % w (getCore s c.val) = 0) (hon : ∀ i, i ∈ is (getCore s c.val) ↔ on i) :
    let k := getCore s c.val
    ∃ k', longVector c s ok (fun k => writeLanes (vd k) (w k) ((is k).map (fun i => (i, r k i))) k) = withCore c k' s ∧
      lanesWritten k k' (vd k) (w k) on (fun i => (r k i).value % 2 ^ w k) ∧
      k'.fcsr = (is k).foldl (fun f i => flagsInto f (r k i).flags) k.fcsr ∧
      (k'.sov = true ↔ k.sov = true ∨ ∃ i, on i ∧ (r k i).sov = true) := by
  intro k
  refine ⟨_, longVector_of_ready h ho, ?_⟩
  rw [writeLanes_eq]
  simp only [List.map_map, Function.comp_def, List.foldl_map, List.any_map]
  exact ⟨lanes_of_setElems hw.1 hw.2 hon, rfl, by simp only [next, Bool.or_eq_true, List.any_eq_true, hon]; rfl⟩

/-- The same for an instruction that only moves elements. -/
theorem longVector_moves {ok : Core → Bool} {vd w : Core → Nat} {is : Core → List Nat} {r : Core → Nat → Nat}
    {on : Nat → Prop} (h : vectorReady s c) (ho : ok (getCore s c.val) = true)
    (hw : 0 < w (getCore s c.val) ∧ 512 % w (getCore s c.val) = 0) (hon : ∀ i, i ∈ is (getCore s c.val) ↔ on i) :
    let k := getCore s c.val
    ∃ k', longVector c s ok (fun k => setElems (vd k) (w k) ((is k).map (fun i => (i, r k i))) k) = withCore c k' s ∧
      lanesWritten k k' (vd k) (w k) on (fun i => r k i % 2 ^ w k) ∧ k'.fcsr = k.fcsr ∧
      (k'.sov = true ↔ k.sov = true ∨ False) := by
  intro k
  refine ⟨_, longVector_of_ready h ho, ?_⟩
  rw [setElems_eq]
  exact ⟨lanes_of_setElems hw.1 hw.2 hon, rfl, by simp [next, k]⟩

/-- No flag, nothing accumulated. -/
@[simp] theorem flagsInto_none (x : BitVec 8) : flagsInto x {} = x := by
  have h : ∀ (l : List Nat) (m : List Bool), (∀ b ∈ m, b = false) →
      (l.zip m).foldl (fun v (e : Nat × Bool) => if e.2 then v ||| (1#8 <<< e.1) else v) x = x := by
    intro l
    induction l with
    | nil => exact fun _ _ => rfl
    | cons a l ih =>
      intro m hm
      cases m with
      | nil => rfl
      | cons y m =>
        simp only [List.zip_cons_cons, List.foldl_cons, hm y (List.mem_cons_self ..), Bool.false_eq_true, if_false]
        exact ih m (fun b hb => hm b (List.mem_cons_of_mem _ hb))
  exact h _ _ (by simp)

theorem noFlags {l : List Nat} {r : Nat → FFlags} {x : BitVec 8} (h : ∀ i, r i = {}) :
    l.foldl (fun f i => flagsInto f (r i)) x = x := by
  simp only [h]
  induction l with
  | nil => rfl
  | cons y l ih => simpa [List.foldl] using ih

end Sys2Proof.Machine
end

