-- ==== Sys2Proof/Laws/DevMemory.lean ====
section
/-! SUPPORT. What reads and writes of device memory leave alone: `SameBytes b s` says that `s` has the memory, its
history and the cores of `b`. -/

namespace Sys2Proof.Machine

def SameBytes (b s : State) : Prop :=
  s.dev.mem = b.dev.mem ∧ s.dev.history = b.dev.history ∧ s.dev.now = b.dev.now ∧ s.cores = b.cores

variable {b s : State}

theorem SameBytes.refl (s : State) : SameBytes s s := ⟨rfl, rfl, rfl, rfl⟩

theorem SameBytes.congrDev {t : State} (h : SameBytes b s) (h1 : t.dev.mem = s.dev.mem)
    (h2 : t.dev.history = s.dev.history) (h3 : t.dev.now = s.dev.now) (h4 : t.cores = s.cores) : SameBytes b t := by
  unfold SameBytes at *; rw [h1, h2, h3, h4]; exact h

theorem sameBytes_foldl {α : Type} {f : State → α → State} {l : List α} (hf : ∀ t x, SameBytes b t → SameBytes b (f t x))
    (h : SameBytes b s) : SameBytes b (l.foldl f s) := by
  induction l generalizing s with
  | nil => exact h
  | cons x l ih => exact ih (hf s x h)

theorem sendMsix_same {v : Nat} (h : SameBytes b s) : SameBytes b (sendMsix v s) := by
  unfold sendMsix; dsimp only; split
  · exact h
  · split <;> exact h

theorem raiseSource_same {n : Nat} (h : SameBytes b s) : SameBytes b (raiseSource n s) := by
  unfold raiseSource signalVector; dsimp only; split
  · split
    · exact h
    · split
      · exact h
      · exact sendMsix_same h
  · exact h

theorem count_same {x : CounterBlock} {i n : Nat} (h : SameBytes b s) : SameBytes b (count x i n s) := by
  unfold count; dsimp only; split
  · exact h
  · split
    · split
      · exact raiseSource_same h
      · exact h
    · exact h

theorem logRecord_same {a c d e f : Nat} (h : SameBytes b s) : SameBytes b (logRecord a c d e f s) := by
  unfold logRecord queueRecord; split
  · exact h
  · split <;> exact h

theorem copyRetired_same (h : SameBytes b s) : SameBytes b (copyRetired s) := by
  unfold copyRetired; split <;> exact h

theorem markSub_same {x p : Nat} (h : SameBytes b s) : SameBytes b (markSub x p s) := by
  unfold markSub markRetired; dsimp only; split
  · exact h
  · exact logRecord_same (copyRetired_same h)

theorem noteCorrection_same {p l : Nat} {r : Bool} (h : SameBytes b s) : SameBytes b (noteCorrection p l r s) := by
  have hc := count_same (x := .memory (Fin.ofNat 32 (locate s (l * 64)).1)) (i := 4) (n := 1) h
  unfold noteCorrection countMem; dsimp only; split
  · exact markSub_same hc
  · exact hc

theorem fillGranule_same {g : Nat} (h : SameBytes b s) : SameBytes b (fillGranule g s) := by
  unfold fillGranule; exact sameBytes_foldl (fun _ _ => count_same) h

theorem touchGranules_same {a n : Nat} (h : SameBytes b s) : SameBytes b (touchGranules a n s) :=
  sameBytes_foldl (fun _ _ ht => by
    split
    · exact ht
    · exact fillGranule_same ht) h

theorem touchRow_same {o : Bool} {a : Nat} (h : SameBytes b s) : SameBytes b (touchRow o a s) := by
  unfold touchRow
  exact SameBytes.congrDev (count_same h) rfl rfl rfl rfl

theorem traffic_same {w o : Bool} {a n : Nat} (h : SameBytes b s) : SameBytes b (traffic w o a n s) := by
  unfold traffic
  exact sameBytes_foldl (fun _ _ ht => touchRow_same (count_same ht)) h

theorem readLine_same {l : Nat} (h : SameBytes b s) : SameBytes b (readLine l s).2 := by
  unfold readLine; dsimp only; split
  · exact count_same h
  · split
    · exact h
    · split
      · exact noteCorrection_same h
      · exact count_same (s := onDev _ s) h

theorem readLines_same {l : List Nat} (h : SameBytes b s) : SameBytes b (readLines l s).2 := by
  induction l generalizing s with
  | nil => exact h
  | cons x l ih =>
    have hx := readLine_same (l := x) h
    unfold readLines; split
    · next e => rw [e] at hx; exact ih hx
    · next e => rw [e] at hx; exact hx

/-- A read of device memory changes no byte of it, nor its history, nor a core. -/
theorem devRead_same {tag : Option (Fin 512)} {o : Bool} {a n : Nat} (h : SameBytes b s) :
    SameBytes b (devRead tag o a n s).2 := by
  unfold devRead; split
  · exact h
  · split
    · exact h
    · have hl := readLines_same (l := linesOf a n) (traffic_same (w := false) (o := o) (a := a) (n := n)
        (touchGranules_same (a := a) (n := n) h))
      dsimp only; split
      · next e => rw [e] at hl; exact hl
      · next e => rw [e] at hl; exact hl

/-- An access passes just where it lies in memory and every granule it touches admits its tag. -/
theorem refusal_none_iff {tag : Option (Fin 512)} {w : Bool} {a n : Nat} :
    refusal s tag w a n = none ↔ a + n ≤ installedBytes s ∧ ∀ g ∈ granulesOf a n, tagPasses tag w (ownOf s g) = true := by
  have key : refusal s tag w a n = none ↔ firstRefused s tag w a n = none := by
    unfold refusal; split
    · next e => simp [e]
    · next e => simp [e]
  rw [key]; unfold firstRefused; split
  · next g e =>
    refine ⟨fun h => by simp at h, fun ⟨h, all⟩ => ?_⟩
    have hm : min n (installedBytes s - a) = n := by omega
    rw [hm] at e
    have h1 := List.find?_some e
    simp [all g (List.mem_of_find?_eq_some e)] at h1
  · next e =>
    by_cases h : installedBytes s < a + n
    · simp [h, Nat.not_le.2 h]
    · have hm : min n (installedBytes s - a) = n := by omega
      rw [hm] at e
      simp only [if_neg h, true_iff]
      exact ⟨by omega, by simpa using e⟩

/-- What it answers is the bytes of memory. -/
theorem devRead_data {tag : Option (Fin 512)} {o : Bool} {a n : Nat} {d : Bytes} {t : State}
    (h : devRead tag o a n s = (.ok d, t)) : d = devBytes s a n ∧ SameBytes s t := by
  have hs := devRead_same (tag := tag) (o := o) (a := a) (n := n) (SameBytes.refl s)
  rw [h] at hs
  refine ⟨?_, hs⟩
  unfold devRead at h
  split at h
  · next r hr => 
    simp only [Prod.mk.injEq] at h
    unfold refusal at hr
    split at hr
    · simp at hr
    · simp only [Option.some.injEq] at hr
      subst hr
      split at h <;> simp at h
  · split at h
    · simp at h
    · dsimp only at h
      split at h
      · simp at h
      · simp only [Prod.mk.injEq, DevResult.ok.injEq] at h
        rw [← h.1, h.2, devBytes, devBytes, hs.1]

end Sys2Proof.Machine
end

