-- ==== Sys2Proof/Laws/CoreMemory.lean ====
section
/-! SUPPORT. Loads and stores of a core: what the buffer and memory hold afterwards, and what of the core is left as it
was. -/

namespace Sys2Proof.Machine

variable {s t : State} {c : Fin 129} {k k' : Core}

@[simp] theorem withCore_get : getCore (withCore c k s) c.val = k := by simp [getCore, withCore]
@[simp] theorem withCore_with : withCore c k' (withCore c k s) = withCore c k' s := by simp [withCore]
theorem onCore_eq (f : Core → Core) : onCore c.val f s = withCore c (f (getCore s c.val)) s := rfl

@[simp] theorem natLe_length (n v : Nat) : (natLe n v).length = n := by
  induction n generalizing v with
  | zero => rfl
  | succ n ih => simp [natLe, ih]

/-! ## A quiet core -/

theorem drain_quiet (h : coreQuiet s c) : drain c.val s = s := by
  unfold drain; rw [h.1]; rfl

theorem pendingOr_quiet {go : State → State} (h : coreQuiet s c) : pendingOr c.val (drain c.val s) go = go s := by
  rw [drain_quiet h]; unfold pendingOr; rw [h.2]

/-! ## Loads -/

theorem loadThen_normal {a n seen : Nat} {vec : Bool} {go : Bytes → State → State} {d : Bytes}
    (h : accessType (getCore s c.val) false vec a n = .ok false) (hn : normalLoad c a n seen s = (.ok d, t)) :
    loadThen c a n seen vec s go = go d t := by
  simp only [loadThen, h, hn]

/-! ## Stores -/

theorem storeThen_normal {a : Nat} {data : Bytes} {vec : Bool} {go : State → State}
    (h : accessType (getCore s c.val) true vec a data.length = .ok false) :
    storeThen c a data vec s go = go (bufferPieces c a data s) := by
  simp only [storeThen, h]

theorem bufferStore_room {p : BufferedStore} (h : entryCount (getCore s c.val).buffer + 1 ≤ 32) :
    bufferStore c.val p s = withCore c { getCore s c.val with buffer := (getCore s c.val).buffer ++ [p] } s := by
  unfold bufferStore
  rw [if_neg (by omega)]
  rfl

theorem entryCount_append (l m : List BufferedStore) : entryCount (l ++ m) = entryCount l + entryCount m := by
  simp [entryCount, List.filter_append]

theorem entryCount_le (l : List BufferedStore) : entryCount l ≤ l.length := List.length_filter_le ..

/-- Stores put in the buffer one by one, where there is room for all. -/
theorem finish_buffer (f : Core → Core) (ps : List BufferedStore) (h : hasRoom (getCore s c.val) ps.length) :
    finish c f (ps.foldl (fun s p => bufferStore c.val p s) s) =
      withCore c (next (f { getCore s c.val with buffer := (getCore s c.val).buffer ++ ps })) s := by
  have go : ∀ (ps : List BufferedStore) (k : Core), hasRoom k ps.length →
      ps.foldl (fun s p => bufferStore c.val p s) (withCore c k s) =
        withCore c { k with buffer := k.buffer ++ ps } s := by
    intro ps
    induction ps with
    | nil => intro k _; simp
    | cons p ps ih =>
      intro k h
      simp only [hasRoom, List.length_cons] at h
      rw [List.foldl_cons, bufferStore_room (by rw [withCore_get]; omega), withCore_get, withCore_with, ih]
      · simp
      · simp only [hasRoom, entryCount_append]
        have := entryCount_le [p]
        simp only [List.length_singleton] at this
        omega
  cases ps with
  | nil => simp [finish_eq]
  | cons p ps =>
    simp only [hasRoom, List.length_cons] at h
    rw [List.foldl_cons, bufferStore_room (by omega), go _ _ ?_, finish_eq, withCore_get, withCore_with]
    · simp
    · simp only [hasRoom, entryCount_append]
      have := entryCount_le [p]
      simp only [List.length_singleton] at this
      omega

/-- A store of normal memory put in the buffer, where there is room for its pieces. -/
theorem finish_bufferPieces (f : Core → Core) (a : Nat) (v : Bytes)
    (h : hasRoom (getCore s c.val) (buffered s c a v).length) :
    finish c f (bufferPieces c a v s) =
      withCore c (next (f { getCore s c.val with buffer := (getCore s c.val).buffer ++ buffered s c a v })) s := by
  have tags : ∀ (l : List (Nat × Bytes)) (u : State), (∀ p ∈ l, coreTag u c.val p.1 = coreTag s c.val p.1) →
      hasRoom (getCore u c.val) l.length →
      l.foldl (fun s p => bufferStore c.val ⟨p.1, p.2, coreTag s c.val p.1, false⟩ s) u =
        (l.map (fun p => (⟨p.1, p.2, coreTag s c.val p.1, false⟩ : BufferedStore))).foldl
          (fun s p => bufferStore c.val p s) u := by
    intro l
    induction l with
    | nil => intros; rfl
    | cons x l ih =>
      intro u h1 h2
      simp only [hasRoom, List.length_cons] at h2
      rw [List.foldl_cons, List.map_cons, List.foldl_cons, h1 x (List.mem_cons_self ..)]
      have hb := bufferStore_room (c := c) (s := u) (p := ⟨x.1, x.2, coreTag s c.val x.1, false⟩) (by omega)
      apply ih
      · intro p hp
        rw [← h1 p (List.mem_cons_of_mem _ hp), hb]
        unfold coreTag; rw [withCore_get]; rfl
      · rw [hb, withCore_get]
        simp only [hasRoom, entryCount_append]
        have := entryCount_le [(⟨x.1, x.2, coreTag s c.val x.1, false⟩ : BufferedStore)]
        simp only [List.length_singleton] at this
        omega
  rw [bufferPieces, tags _ _ (fun _ _ => rfl) (by simpa [buffered] using h)]
  exact finish_buffer f (buffered s c a v) h

theorem storePieces_data {fuel a : Nat} {d : Bytes} (h : d.length < fuel) :
    (storePieces fuel a d).flatMap (fun p => p.2) = d := by
  induction fuel generalizing a d with
  | zero => omega
  | succ f ih =>
    unfold storePieces
    split
    · next h' => simp [List.isEmpty_iff.1 h']
    · next h' =>
      have hp : 0 < d.length := List.length_pos_iff.2 (by simpa using h')
      dsimp only
      rw [List.flatMap_cons, ih (by simp; omega), List.take_append_drop]

theorem buffered_data (a : Nat) (v : Bytes) : (buffered s c a v).flatMap (fun b => b.data) = v := by
  rw [buffered, List.flatMap_map]
  exact storePieces_data (by omega)

/-! ## What memory operations leave of a core -/

/-- A core but for its buffer, the bounds of its loads and a pending store error. -/
def coreRest (k : Core) : Core := { k with buffer := [], bounds := [], pendingError := none }

theorem tblGet_map {α : Type} {d : α} {f : Nat × α → Nat × α} {l : Tbl α} {i : Nat}
    (h1 : ∀ e, (f e).1 = e.1) (h2 : ∀ e, e.1 = i → (f e).2 = e.2) : tblGet d (l.map f) i = tblGet d l i := by
  induction l with
  | nil => rfl
  | cons e l ih =>
    obtain ⟨j, v⟩ := e
    have e1 := h1 (j, v)
    rw [List.map_cons, show f (j, v) = (j, (f (j, v)).2) from Prod.ext e1 rfl]
    simp only [tblGet, ih]
    split
    · next h => exact h2 (j, v) h.symm
    · rfl

theorem dropReservations_own {ls : List Nat} : getCore (dropReservations (some c.val) ls s) c.val = getCore s c.val := by
  unfold dropReservations getCore
  refine tblGet_map (fun e => ?_) (fun e he => ?_)
  · split
    · rfl
    · split <;> rfl
  · split
    · rfl
    · simp [he]

theorem storeDev_own {a : Nat} {d : Bytes} : getCore (storeDev (some c.val) a d s) c.val = getCore s c.val := by
  unfold storeDev; exact dropReservations_own

theorem getCore_foldl {α : Type} {f : State → α → State} {l : List α} {i : Nat}
    (hf : ∀ t x, getCore (f t x) i = getCore t i) : getCore (l.foldl f s) i = getCore s i := by
  induction l generalizing s with
  | nil => rfl
  | cons x l ih => rw [List.foldl_cons, ih, hf]

theorem storeExcept_own {sk : List Nat} {a : Nat} {d : Bytes} :
    getCore (storeExcept (some c.val) sk a d s) c.val = getCore s c.val := by
  unfold storeExcept; split
  · exact storeDev_own
  · refine getCore_foldl (fun t x => ?_)
    split
    · rfl
    · exact storeDev_own

theorem markDirty_core {tag : Option (Fin 512)} {gs : List Nat} {i : Nat} : getCore (markDirty tag gs s) i = getCore s i := by
  unfold markDirty; split
  · rfl
  · split <;> rfl

/-- A core's own write leaves the core as it is. -/
theorem devWriteBy_own {tag : Option (Fin 512)} {o : Bool} {a : Nat} {d : Bytes} :
    getCore (devWriteBy (some c.val) tag o a d s).2 c.val = getCore s c.val := by
  unfold devWriteBy; dsimp only
  split
  · rfl
  · split
    · rfl
    · have hs := traffic_same (w := true) (o := o) (a := a) (n := d.length)
        (touchGranules_same (a := a) (n := d.length) (SameBytes.refl s))
      have fin : ∀ (sk : List Nat) (pf : DevMem → List Nat) (ff : DevMem → Tbl (Option (Fin 5))),
          getCore (markDirty tag (granulesOf a d.length) ((linesOf a d.length).foldl (fun s l => queueLine l s)
            (storeExcept (some c.val) sk a d (onDev (fun d => { d with poison := pf d, flaws := ff d })
              (traffic true o a d.length (touchGranules a d.length s)))))) c.val = getCore s c.val := by
        intro sk pf ff
        rw [markDirty_core, getCore_foldl (f := fun s l => queueLine l s) (fun _ _ => rfl), storeExcept_own]
        unfold getCore onDev; rw [hs.2.2.2]
      split <;> exact fin ..

theorem partLeaves_rest : coreRest (getCore (partLeaves c.val s) c.val) = coreRest (getCore s c.val) ∧
    (getCore (partLeaves c.val s) c.val).buffer = (getCore s c.val).buffer.drop 1 := by
  unfold partLeaves
  split
  · next h => simp [h]
  · next x l h =>
    have hw := devWriteBy_own (c := c) (tag := x.tag) (o := false) (a := x.addr) (d := x.data)
      (s := onCore c.val (fun k => { k with buffer := l }) s)
    rw [onCore_eq, withCore_get] at hw
    dsimp only
    split
    · next e =>
      rw [onCore_eq] at e; rw [e] at hw
      unfold boundNow; rw [onCore_eq, withCore_get, hw]; simp [h, coreRest]
    · next e =>
      rw [onCore_eq] at e; rw [e] at hw
      split
      · refine (show coreRest (getCore _ c.val) = _ ∧ (getCore _ c.val).buffer = _ from ?_)
        rw [show getCore (noteViolation _ _ _ _) c.val = _ from hw]; simp [h, coreRest]
      · rw [hw]; simp [h, coreRest]
    · next e =>
      rw [onCore_eq] at e; rw [e] at hw
      rw [onCore_eq, withCore_get, hw]; simp [h, coreRest]

theorem repeat_partLeaves (n : Nat) : coreRest (getCore (Nat.repeat (partLeaves c.val) n s) c.val) = coreRest (getCore s c.val) ∧
    (getCore (Nat.repeat (partLeaves c.val) n s) c.val).buffer = (getCore s c.val).buffer.drop n := by
  induction n with
  | zero => simp [Nat.repeat]
  | succ n ih =>
    simp only [Nat.repeat]
    rw [partLeaves_rest.1, partLeaves_rest.2, ih.1, ih.2, List.drop_drop]
    exact ⟨rfl, rfl⟩

/-- Once the buffer has drained it is empty. -/
theorem drain_buffer : (getCore (drain c.val s) c.val).buffer = [] := by
  unfold drain; rw [(repeat_partLeaves _).2]; simp

theorem drain_rest : coreRest (getCore (drain c.val s) c.val) = coreRest (getCore s c.val) := (repeat_partLeaves _).1

theorem storeLeaves_rest : coreRest (getCore (storeLeaves c.val s) c.val) = coreRest (getCore s c.val) ∧
    ∃ n, (getCore (storeLeaves c.val s) c.val).buffer = (getCore s c.val).buffer.drop n :=
  ⟨(repeat_partLeaves _).1, _, (repeat_partLeaves _).2⟩

theorem drainTo_rest {n : Nat} : coreRest (getCore (drainTo c.val n s) c.val) = coreRest (getCore s c.val) := by
  unfold drainTo
  generalize (getCore s c.val).buffer.length = m
  induction m with
  | zero => rfl
  | succ m ih =>
    simp only [Nat.repeat]
    split
    · rw [storeLeaves_rest.1, ih]
    · exact ih

theorem memoryLoad_rest {a n seen : Nat} :
    coreRest (getCore (memoryLoad c a n seen s).2 c.val) = coreRest (getCore s c.val) ∧
      (getCore (memoryLoad c a n seen s).2 c.val).buffer = (getCore s c.val).buffer := by
  have hs := devRead_same (tag := coreTag s c.val a) (o := false) (a := a) (n := n) (SameBytes.refl s)
  have hc : getCore (devRead (coreTag s c.val a) false a n s).2 c.val = getCore s c.val := by
    unfold getCore; rw [hs.2.2.2]
  unfold memoryLoad; dsimp only
  split
  · next e => rw [e] at hc; dsimp only; rw [onCore_eq, withCore_get, hc]; exact ⟨rfl, rfl⟩
  · next e => rw [e] at hc; dsimp only; rw [hc]; exact ⟨rfl, rfl⟩
  · next e => rw [e] at hc; dsimp only; rw [hc]; exact ⟨rfl, rfl⟩

/-- A load leaves the core's registers as they are. -/
theorem normalLoad_rest {a n seen : Nat} :
    coreRest (getCore (normalLoad c a n seen s).2 c.val) = coreRest (getCore s c.val) := by
  unfold normalLoad
  split
  · split
    · rfl
    · rw [memoryLoad_rest.1, drainTo_rest]
  · exact memoryLoad_rest.1

theorem elemLoads_rest {n seen : Nat} {l got : List (Nat × Nat × Nat)} :
    coreRest (getCore (elemLoads c n seen l got s).2 c.val) = coreRest (getCore s c.val) := by
  induction l generalizing got s with
  | nil => rfl
  | cons e l ih =>
    obtain ⟨i, base, a⟩ := e
    have hl : coreRest (getCore (elemLoad c a n seen s).2 c.val) = coreRest (getCore s c.val) := by
      unfold elemLoad; split
      · rfl
      · exact normalLoad_rest
    unfold elemLoads
    split
    · next h => rw [h] at hl; rw [ih, hl]
    · next h => rw [h] at hl; exact hl

theorem bufferStore_rest {p : BufferedStore} :
    coreRest (getCore (bufferStore c.val p s) c.val) = coreRest (getCore s c.val) ∧
      ∃ n, (getCore (bufferStore c.val p s) c.val).buffer = (getCore s c.val).buffer.drop n ++ [p] := by
  unfold bufferStore; dsimp only; rw [onCore_eq, withCore_get]
  split
  · obtain ⟨h1, n, h2⟩ := storeLeaves_rest (c := c) (s := s)
    exact ⟨h1, n, by rw [h2]⟩
  · exact ⟨rfl, 0, rfl⟩

/-- Stores put in the buffer one by one: what has left is the oldest part. -/
theorem bufferStores_rest (ps : List BufferedStore) :
    coreRest (getCore (ps.foldl (fun s p => bufferStore c.val p s) s) c.val) = coreRest (getCore s c.val) ∧
      ∃ gone, (getCore s c.val).buffer ++ ps =
        gone ++ (getCore (ps.foldl (fun s p => bufferStore c.val p s) s) c.val).buffer := by
  induction ps generalizing s with
  | nil => exact ⟨rfl, [], by simp⟩
  | cons p ps ih =>
    rw [List.foldl_cons]
    obtain ⟨h1, n, h2⟩ := bufferStore_rest (c := c) (s := s) (p := p)
    obtain ⟨h3, gone, h4⟩ := ih (s := bufferStore c.val p s)
    refine ⟨h3.trans h1, (getCore s c.val).buffer.take n ++ gone, ?_⟩
    rw [List.append_assoc, ← h4, h2, List.append_assoc, List.singleton_append, ← List.append_assoc,
      List.take_append_drop]

end Sys2Proof.Machine
end

