-- ==== Sys2Proof/Laws/CoreSystem.lean ====
section
/-! SUPPORT. The system class of a core: exceptions taken by a core that owes nothing to memory, system registers,
interrupts. -/

namespace Sys2Proof.Machine

variable {s : State} {c : Fin 129}

/-! ## A core's part of the state -/

theorem get_onCore {i : Nat} (f : Core → Core) (s : State) : getCore (onCore i f s) i = f (getCore s i) :=
  tblGet_tblMod_self ..
theorem get_onCore_ne {i j : Nat} (f : Core → Core) (s : State) (h : j ≠ i) :
    getCore (onCore i f s) j = getCore s j := tblGet_tblMod_of_ne _ _ _ h
theorem onCore_with (f : Core → Core) (k : Core) : onCore c.val f (withCore c k s) = withCore c (f k) s := by
  rw [onCore_eq, withCore_get, withCore_with]

/-! ## Exceptions -/

theorem raise_quiet {cause : Nat} {addr : Word} (q : coreQuiet s c) :
    raise c cause 0 addr s = enter c.val cause 0 addr s := pendingOr_quiet q

theorem enter_eq (cause : Nat) (addr : Word) : enter c.val cause 0 addr s =
    (match coreJob s c.val, coreFaultCode cause with
    | some j, some code =>
      if (getCore s c.val).level = 1 then
        match tblFind s.runs j with
        | some r => endFailed j code (((getCore s c.val).pc - BitVec.ofNat 64 r.codeBase).toNat) (trapped s c cause addr)
        | none => trapped s c cause addr
      else if (getCore s c.val).level = 0 then
        endFailed j 0x0311 (((getCore s c.val).user.map (·.row)).getD 0) (trapped s c cause addr)
      else trapped s c cause addr
    | _, _ => trapped s c cause addr) := rfl

theorem enter_other {cause : Nat} {addr : Word} (h : 1 < (getCore s c.val).level.toNat) :
    enter c.val cause 0 addr s = trapped s c cause addr := by
  have h1 : (getCore s c.val).level ≠ 1 := fun e => absurd h (by rw [e]; decide)
  have h0 : (getCore s c.val).level ≠ 0 := fun e => absurd h (by rw [e]; decide)
  rw [enter_eq]
  split
  · rw [if_neg h1, if_neg h0]
  · rfl

theorem takes_of_raise {i : Instr} {cause : Nat} {addr : Word} (h : exec i s = .next (raise c cause 0 addr s)) :
    takesException s c i cause addr := by
  intro q
  have code : 1 ≤ cause → cause ≤ 5 → coreFaultCode cause = some (0x0600 + cause) := fun h1 h5 => by
    have : cause = 1 ∨ cause = 2 ∨ cause = 3 ∨ cause = 4 ∨ cause = 5 := by omega
    rcases this with rfl|rfl|rfl|rfl|rfl <;> rfl
  rw [h, raise_quiet q]
  refine ⟨fun hh => ?_, fun j r hl hj hr h1 h5 => ?_, fun j hl hj h1 h5 => ?_⟩
  · congr 1
    rcases hh with hh | hh | hh
    · exact enter_other hh
    · rw [enter_eq, hh]
    · have : coreFaultCode cause = none := by
        unfold coreFaultCode; split <;> first | omega | rfl
      rw [enter_eq, this]; split <;> first | rfl | contradiction
  · rw [enter_eq, code h1 h5, hj]
    simp only
    rw [if_pos hl, hr]
  · rw [enter_eq, code h1 h5, hj]
    simp only
    rw [if_neg (by rw [hl]; decide), if_pos hl]

theorem takes_low {i : Instr} {n : Nat} {body : Core → State} (h : coreReady s c) (hl : (getCore s c.val).level.toNat < n)
    (e : exec i s = .next (atLevel n c s body)) : takesException s c i 1 0 := by
  refine takes_of_raise (e.trans (congrArg _ ?_))
  unfold atLevel; rw [coreStep_of_ready h, if_pos hl]; rfl

theorem takes_bad {i : Instr} {ok : Core → Bool} {body : Core → Core} (h : coreReady s c)
    (e : exec i s = .next (longVector c s ok body)) (ho : ok (getCore s c.val) = false) : takesException s c i 1 0 := by
  refine takes_of_raise (e.trans (congrArg _ ?_))
  unfold longVector atLevel; rw [coreStep_of_ready h]; simp only [ho]
  split <;> rfl

theorem takes_step {i : Instr} {body : Core → State} {n : Nat} {w : Word} (h : coreReady s c)
    (e : exec i s = .next (coreStep c s body)) (ho : body (getCore s c.val) = raise c n 0 w s) : takesException s c i n w := by
  refine takes_of_raise (e.trans (congrArg _ ?_))
  rw [coreStep_of_ready h, ho]

/-! ## System registers -/

theorem step_of {i : Instr} {body : Core → State} {t : State} (h : coreReady s c)
    (e : exec i s = .next (coreStep c s body)) (ho : body (getCore s c.val) = t) : exec i s = .next t := by
  rw [e, coreStep_of_ready h, ho]

theorem csrr_of {gd : Fin 32} {n : BitVec 12} {w : Word} (h : coreReady s c)
    (e : sysRead s.sys.cycle c (getCore s c.val).level.toNat n.toNat (getCore s c.val) = some w) :
    exec (.csrr c gd n) s = .next (withCore c (next (setG gd w (getCore s c.val))) s) := by
  refine step_of h rfl ?_
  show (match sysRead s.sys.cycle c (getCore s c.val).level.toNat n.toNat (getCore s c.val) with | some v => _ | none => _) = _
  rw [e]; rfl

theorem csrw_of {gs : Fin 32} {n : BitVec 12} {k' : Core} (h : coreReady s c)
    (e : (sysRead s.sys.cycle c (getCore s c.val).level.toNat n.toNat (getCore s c.val)).isNone = false)
    (e2 : sysWrite n.toNat (getG (getCore s c.val) gs) (getCore s c.val) = some k') :
    exec (.csrw c n gs) s = .next (withCore c (next k') s) := by
  refine step_of h rfl ?_
  show (if (sysRead s.sys.cycle c (getCore s c.val).level.toNat n.toNat (getCore s c.val)).isNone = true then _ else
    match sysWrite n.toNat (getG (getCore s c.val) gs) (getCore s c.val) with | some v => _ | none => _) = _
  rw [e, e2]; rfl

theorem app_toNat {a b : Nat} (x : BitVec a) (y : BitVec b) : (x ++ y).toNat = x.toNat * 2 ^ b + y.toNat := by
  rw [BitVec.toNat_append, Nat.shiftLeft_eq, Nat.mul_comm, ← Nat.two_pow_add_eq_or_of_lt y.isLt]

theorem of_toNat {w : Nat} (x : BitVec w) (n : Nat) (h : n = x.toNat) : BitVec.ofNat 64 n = x.setWidth 64 := by
  rw [h]; exact BitVec.ofNat_toNat 64 x

/-! ## Interrupts and time-outs -/

/-- A memory address is of one of the 32 subchannels. -/
theorem locate_lt (s : State) (a : Nat) : (locate s a).1 < 32 := by
  have h : ∀ i, (presentSubs s).getD i 0 < 32 := by
    intro i
    rw [List.getD_eq_getElem?_getD]
    cases e : (presentSubs s)[i]? with
    | none => decide
    | some x =>
      have := List.mem_of_getElem? e
      simp only [presentSubs, bitList, List.mem_filter, List.mem_range] at this
      exact this.1
  unfold locate
  simp only
  split <;> exact h _

theorem pieces_head (a n : Nat) (h : n ≠ 0) : ∃ m l, piecesOf a n = (a, m) :: l := by
  unfold piecesOf
  show ∃ m l, chunkPieces (n / 256 + 1 + 1) a n = _
  unfold chunkPieces
  rw [if_neg h]
  exact ⟨_, _, rfl⟩

theorem quiet_int {body : State → State} (q : coreQuiet s c) : takeInterrupt c.val body s = body (recordInterrupt c.val s) := by
  unfold takeInterrupt
  simp only [drain_quiet q, q.2]

end Sys2Proof.Machine
end

