-- ==== Sys2Proof/Laws/State.lean ====
section
/-! SUPPORT. One lemma for each field of the state and each update of one part of it. -/

namespace Sys2Proof.Machine

variable (s : State)

/-! ## onSys -/

@[simp] theorem onSys_sys (f : Sys → Sys) : (onSys f s).sys = f s.sys := rfl
@[simp] theorem onSys_pending (f : Sys → Sys) : (onSys f s).pending = s.pending := rfl
@[simp] theorem onSys_present (f : Sys → Sys) : (onSys f s).present = s.present := rfl
@[simp] theorem onSys_mram (f : Sys → Sys) : (onSys f s).mram = s.mram := rfl
@[simp] theorem onSys_flash (f : Sys → Sys) : (onSys f s).flash = s.flash := rfl
@[simp] theorem onSys_log (f : Sys → Sys) : (onSys f s).log = s.log := rfl
@[simp] theorem onSys_fw (f : Sys → Sys) : (onSys f s).fw = s.fw := rfl
@[simp] theorem onSys_manifest (f : Sys → Sys) : (onSys f s).manifest = s.manifest := rfl
@[simp] theorem onSys_spdm (f : Sys → Sys) : (onSys f s).spdm = s.spdm := rfl
@[simp] theorem onSys_pcie (f : Sys → Sys) : (onSys f s).pcie = s.pcie := rfl
@[simp] theorem onSys_host (f : Sys → Sys) : (onSys f s).host = s.host := rfl
@[simp] theorem onSys_counters (f : Sys → Sys) : (onSys f s).counters = s.counters := rfl
@[simp] theorem onSys_dict (f : Sys → Sys) : (onSys f s).dict = s.dict := rfl
@[simp] theorem onSys_can (f : Sys → Sys) : (onSys f s).can = s.can := rfl
@[simp] theorem onSys_bist (f : Sys → Sys) : (onSys f s).bist = s.bist := rfl
@[simp] theorem onSys_dev (f : Sys → Sys) : (onSys f s).dev = s.dev := rfl
@[simp] theorem onSys_violations (f : Sys → Sys) : (onSys f s).violations = s.violations := rfl
@[simp] theorem onSys_queues (f : Sys → Sys) : (onSys f s).queues = s.queues := rfl
@[simp] theorem onSys_jobs (f : Sys → Sys) : (onSys f s).jobs = s.jobs := rfl
@[simp] theorem onSys_nextJob (f : Sys → Sys) : (onSys f s).nextJob = s.nextJob := rfl
@[simp] theorem onSys_berths (f : Sys → Sys) : (onSys f s).berths = s.berths := rfl
@[simp] theorem onSys_eng (f : Sys → Sys) : (onSys f s).eng = s.eng := rfl
@[simp] theorem onSys_cores (f : Sys → Sys) : (onSys f s).cores = s.cores := rfl
@[simp] theorem onSys_pilot (f : Sys → Sys) : (onSys f s).pilot = s.pilot := rfl
@[simp] theorem onSys_runs (f : Sys → Sys) : (onSys f s).runs = s.runs := rfl
@[simp] theorem onSys_scans (f : Sys → Sys) : (onSys f s).scans = s.scans := rfl
@[simp] theorem onSys_nextScan (f : Sys → Sys) : (onSys f s).nextScan = s.nextScan := rfl
@[simp] theorem onSys_quays (f : Sys → Sys) : (onSys f s).quays = s.quays := rfl
@[simp] theorem onSys_canopy (f : Sys → Sys) : (onSys f s).canopy = s.canopy := rfl

/-! ## onPresent -/

@[simp] theorem onPresent_present (f : Present → Present) : (onPresent f s).present = f s.present := rfl
@[simp] theorem onPresent_pending (f : Present → Present) : (onPresent f s).pending = s.pending := rfl
@[simp] theorem onPresent_sys (f : Present → Present) : (onPresent f s).sys = s.sys := rfl
@[simp] theorem onPresent_mram (f : Present → Present) : (onPresent f s).mram = s.mram := rfl
@[simp] theorem onPresent_flash (f : Present → Present) : (onPresent f s).flash = s.flash := rfl
@[simp] theorem onPresent_log (f : Present → Present) : (onPresent f s).log = s.log := rfl
@[simp] theorem onPresent_fw (f : Present → Present) : (onPresent f s).fw = s.fw := rfl
@[simp] theorem onPresent_manifest (f : Present → Present) : (onPresent f s).manifest = s.manifest := rfl
@[simp] theorem onPresent_spdm (f : Present → Present) : (onPresent f s).spdm = s.spdm := rfl
@[simp] theorem onPresent_pcie (f : Present → Present) : (onPresent f s).pcie = s.pcie := rfl
@[simp] theorem onPresent_host (f : Present → Present) : (onPresent f s).host = s.host := rfl
@[simp] theorem onPresent_counters (f : Present → Present) : (onPresent f s).counters = s.counters := rfl
@[simp] theorem onPresent_dict (f : Present → Present) : (onPresent f s).dict = s.dict := rfl
@[simp] theorem onPresent_can (f : Present → Present) : (onPresent f s).can = s.can := rfl
@[simp] theorem onPresent_bist (f : Present → Present) : (onPresent f s).bist = s.bist := rfl
@[simp] theorem onPresent_dev (f : Present → Present) : (onPresent f s).dev = s.dev := rfl
@[simp] theorem onPresent_violations (f : Present → Present) : (onPresent f s).violations = s.violations := rfl
@[simp] theorem onPresent_queues (f : Present → Present) : (onPresent f s).queues = s.queues := rfl
@[simp] theorem onPresent_jobs (f : Present → Present) : (onPresent f s).jobs = s.jobs := rfl
@[simp] theorem onPresent_nextJob (f : Present → Present) : (onPresent f s).nextJob = s.nextJob := rfl
@[simp] theorem onPresent_berths (f : Present → Present) : (onPresent f s).berths = s.berths := rfl
@[simp] theorem onPresent_eng (f : Present → Present) : (onPresent f s).eng = s.eng := rfl
@[simp] theorem onPresent_cores (f : Present → Present) : (onPresent f s).cores = s.cores := rfl
@[simp] theorem onPresent_pilot (f : Present → Present) : (onPresent f s).pilot = s.pilot := rfl
@[simp] theorem onPresent_runs (f : Present → Present) : (onPresent f s).runs = s.runs := rfl
@[simp] theorem onPresent_scans (f : Present → Present) : (onPresent f s).scans = s.scans := rfl
@[simp] theorem onPresent_nextScan (f : Present → Present) : (onPresent f s).nextScan = s.nextScan := rfl
@[simp] theorem onPresent_quays (f : Present → Present) : (onPresent f s).quays = s.quays := rfl
@[simp] theorem onPresent_canopy (f : Present → Present) : (onPresent f s).canopy = s.canopy := rfl

/-! ## onMram -/

@[simp] theorem onMram_mram (f : Mram → Mram) : (onMram f s).mram = f s.mram := rfl
@[simp] theorem onMram_pending (f : Mram → Mram) : (onMram f s).pending = s.pending := rfl
@[simp] theorem onMram_sys (f : Mram → Mram) : (onMram f s).sys = s.sys := rfl
@[simp] theorem onMram_present (f : Mram → Mram) : (onMram f s).present = s.present := rfl
@[simp] theorem onMram_flash (f : Mram → Mram) : (onMram f s).flash = s.flash := rfl
@[simp] theorem onMram_log (f : Mram → Mram) : (onMram f s).log = s.log := rfl
@[simp] theorem onMram_fw (f : Mram → Mram) : (onMram f s).fw = s.fw := rfl
@[simp] theorem onMram_manifest (f : Mram → Mram) : (onMram f s).manifest = s.manifest := rfl
@[simp] theorem onMram_spdm (f : Mram → Mram) : (onMram f s).spdm = s.spdm := rfl
@[simp] theorem onMram_pcie (f : Mram → Mram) : (onMram f s).pcie = s.pcie := rfl
@[simp] theorem onMram_host (f : Mram → Mram) : (onMram f s).host = s.host := rfl
@[simp] theorem onMram_counters (f : Mram → Mram) : (onMram f s).counters = s.counters := rfl
@[simp] theorem onMram_dict (f : Mram → Mram) : (onMram f s).dict = s.dict := rfl
@[simp] theorem onMram_can (f : Mram → Mram) : (onMram f s).can = s.can := rfl
@[simp] theorem onMram_bist (f : Mram → Mram) : (onMram f s).bist = s.bist := rfl
@[simp] theorem onMram_dev (f : Mram → Mram) : (onMram f s).dev = s.dev := rfl
@[simp] theorem onMram_violations (f : Mram → Mram) : (onMram f s).violations = s.violations := rfl
@[simp] theorem onMram_queues (f : Mram → Mram) : (onMram f s).queues = s.queues := rfl
@[simp] theorem onMram_jobs (f : Mram → Mram) : (onMram f s).jobs = s.jobs := rfl
@[simp] theorem onMram_nextJob (f : Mram → Mram) : (onMram f s).nextJob = s.nextJob := rfl
@[simp] theorem onMram_berths (f : Mram → Mram) : (onMram f s).berths = s.berths := rfl
@[simp] theorem onMram_eng (f : Mram → Mram) : (onMram f s).eng = s.eng := rfl
@[simp] theorem onMram_cores (f : Mram → Mram) : (onMram f s).cores = s.cores := rfl
@[simp] theorem onMram_pilot (f : Mram → Mram) : (onMram f s).pilot = s.pilot := rfl
@[simp] theorem onMram_runs (f : Mram → Mram) : (onMram f s).runs = s.runs := rfl
@[simp] theorem onMram_scans (f : Mram → Mram) : (onMram f s).scans = s.scans := rfl
@[simp] theorem onMram_nextScan (f : Mram → Mram) : (onMram f s).nextScan = s.nextScan := rfl
@[simp] theorem onMram_quays (f : Mram → Mram) : (onMram f s).quays = s.quays := rfl
@[simp] theorem onMram_canopy (f : Mram → Mram) : (onMram f s).canopy = s.canopy := rfl

/-! ## onFlash -/

@[simp] theorem onFlash_flash (f : Flash → Flash) : (onFlash f s).flash = f s.flash := rfl
@[simp] theorem onFlash_pending (f : Flash → Flash) : (onFlash f s).pending = s.pending := rfl
@[simp] theorem onFlash_sys (f : Flash → Flash) : (onFlash f s).sys = s.sys := rfl
@[simp] theorem onFlash_present (f : Flash → Flash) : (onFlash f s).present = s.present := rfl
@[simp] theorem onFlash_mram (f : Flash → Flash) : (onFlash f s).mram = s.mram := rfl
@[simp] theorem onFlash_log (f : Flash → Flash) : (onFlash f s).log = s.log := rfl
@[simp] theorem onFlash_fw (f : Flash → Flash) : (onFlash f s).fw = s.fw := rfl
@[simp] theorem onFlash_manifest (f : Flash → Flash) : (onFlash f s).manifest = s.manifest := rfl
@[simp] theorem onFlash_spdm (f : Flash → Flash) : (onFlash f s).spdm = s.spdm := rfl
@[simp] theorem onFlash_pcie (f : Flash → Flash) : (onFlash f s).pcie = s.pcie := rfl
@[simp] theorem onFlash_host (f : Flash → Flash) : (onFlash f s).host = s.host := rfl
@[simp] theorem onFlash_counters (f : Flash → Flash) : (onFlash f s).counters = s.counters := rfl
@[simp] theorem onFlash_dict (f : Flash → Flash) : (onFlash f s).dict = s.dict := rfl
@[simp] theorem onFlash_can (f : Flash → Flash) : (onFlash f s).can = s.can := rfl
@[simp] theorem onFlash_bist (f : Flash → Flash) : (onFlash f s).bist = s.bist := rfl
@[simp] theorem onFlash_dev (f : Flash → Flash) : (onFlash f s).dev = s.dev := rfl
@[simp] theorem onFlash_violations (f : Flash → Flash) : (onFlash f s).violations = s.violations := rfl
@[simp] theorem onFlash_queues (f : Flash → Flash) : (onFlash f s).queues = s.queues := rfl
@[simp] theorem onFlash_jobs (f : Flash → Flash) : (onFlash f s).jobs = s.jobs := rfl
@[simp] theorem onFlash_nextJob (f : Flash → Flash) : (onFlash f s).nextJob = s.nextJob := rfl
@[simp] theorem onFlash_berths (f : Flash → Flash) : (onFlash f s).berths = s.berths := rfl
@[simp] theorem onFlash_eng (f : Flash → Flash) : (onFlash f s).eng = s.eng := rfl
@[simp] theorem onFlash_cores (f : Flash → Flash) : (onFlash f s).cores = s.cores := rfl
@[simp] theorem onFlash_pilot (f : Flash → Flash) : (onFlash f s).pilot = s.pilot := rfl
@[simp] theorem onFlash_runs (f : Flash → Flash) : (onFlash f s).runs = s.runs := rfl
@[simp] theorem onFlash_scans (f : Flash → Flash) : (onFlash f s).scans = s.scans := rfl
@[simp] theorem onFlash_nextScan (f : Flash → Flash) : (onFlash f s).nextScan = s.nextScan := rfl
@[simp] theorem onFlash_quays (f : Flash → Flash) : (onFlash f s).quays = s.quays := rfl
@[simp] theorem onFlash_canopy (f : Flash → Flash) : (onFlash f s).canopy = s.canopy := rfl

/-! ## onLog -/

@[simp] theorem onLog_log (f : LogQueue → LogQueue) : (onLog f s).log = f s.log := rfl
@[simp] theorem onLog_pending (f : LogQueue → LogQueue) : (onLog f s).pending = s.pending := rfl
@[simp] theorem onLog_sys (f : LogQueue → LogQueue) : (onLog f s).sys = s.sys := rfl
@[simp] theorem onLog_present (f : LogQueue → LogQueue) : (onLog f s).present = s.present := rfl
@[simp] theorem onLog_mram (f : LogQueue → LogQueue) : (onLog f s).mram = s.mram := rfl
@[simp] theorem onLog_flash (f : LogQueue → LogQueue) : (onLog f s).flash = s.flash := rfl
@[simp] theorem onLog_fw (f : LogQueue → LogQueue) : (onLog f s).fw = s.fw := rfl
@[simp] theorem onLog_manifest (f : LogQueue → LogQueue) : (onLog f s).manifest = s.manifest := rfl
@[simp] theorem onLog_spdm (f : LogQueue → LogQueue) : (onLog f s).spdm = s.spdm := rfl
@[simp] theorem onLog_pcie (f : LogQueue → LogQueue) : (onLog f s).pcie = s.pcie := rfl
@[simp] theorem onLog_host (f : LogQueue → LogQueue) : (onLog f s).host = s.host := rfl
@[simp] theorem onLog_counters (f : LogQueue → LogQueue) : (onLog f s).counters = s.counters := rfl
@[simp] theorem onLog_dict (f : LogQueue → LogQueue) : (onLog f s).dict = s.dict := rfl
@[simp] theorem onLog_can (f : LogQueue → LogQueue) : (onLog f s).can = s.can := rfl
@[simp] theorem onLog_bist (f : LogQueue → LogQueue) : (onLog f s).bist = s.bist := rfl
@[simp] theorem onLog_dev (f : LogQueue → LogQueue) : (onLog f s).dev = s.dev := rfl
@[simp] theorem onLog_violations (f : LogQueue → LogQueue) : (onLog f s).violations = s.violations := rfl
@[simp] theorem onLog_queues (f : LogQueue → LogQueue) : (onLog f s).queues = s.queues := rfl
@[simp] theorem onLog_jobs (f : LogQueue → LogQueue) : (onLog f s).jobs = s.jobs := rfl
@[simp] theorem onLog_nextJob (f : LogQueue → LogQueue) : (onLog f s).nextJob = s.nextJob := rfl
@[simp] theorem onLog_berths (f : LogQueue → LogQueue) : (onLog f s).berths = s.berths := rfl
@[simp] theorem onLog_eng (f : LogQueue → LogQueue) : (onLog f s).eng = s.eng := rfl
@[simp] theorem onLog_cores (f : LogQueue → LogQueue) : (onLog f s).cores = s.cores := rfl
@[simp] theorem onLog_pilot (f : LogQueue → LogQueue) : (onLog f s).pilot = s.pilot := rfl
@[simp] theorem onLog_runs (f : LogQueue → LogQueue) : (onLog f s).runs = s.runs := rfl
@[simp] theorem onLog_scans (f : LogQueue → LogQueue) : (onLog f s).scans = s.scans := rfl
@[simp] theorem onLog_nextScan (f : LogQueue → LogQueue) : (onLog f s).nextScan = s.nextScan := rfl
@[simp] theorem onLog_quays (f : LogQueue → LogQueue) : (onLog f s).quays = s.quays := rfl
@[simp] theorem onLog_canopy (f : LogQueue → LogQueue) : (onLog f s).canopy = s.canopy := rfl

/-! ## onFw -/

@[simp] theorem onFw_fw (f : Firmware → Firmware) : (onFw f s).fw = f s.fw := rfl
@[simp] theorem onFw_pending (f : Firmware → Firmware) : (onFw f s).pending = s.pending := rfl
@[simp] theorem onFw_sys (f : Firmware → Firmware) : (onFw f s).sys = s.sys := rfl
@[simp] theorem onFw_present (f : Firmware → Firmware) : (onFw f s).present = s.present := rfl
@[simp] theorem onFw_mram (f : Firmware → Firmware) : (onFw f s).mram = s.mram := rfl
@[simp] theorem onFw_flash (f : Firmware → Firmware) : (onFw f s).flash = s.flash := rfl
@[simp] theorem onFw_log (f : Firmware → Firmware) : (onFw f s).log = s.log := rfl
@[simp] theorem onFw_manifest (f : Firmware → Firmware) : (onFw f s).manifest = s.manifest := rfl
@[simp] theorem onFw_spdm (f : Firmware → Firmware) : (onFw f s).spdm = s.spdm := rfl
@[simp] theorem onFw_pcie (f : Firmware → Firmware) : (onFw f s).pcie = s.pcie := rfl
@[simp] theorem onFw_host (f : Firmware → Firmware) : (onFw f s).host = s.host := rfl
@[simp] theorem onFw_counters (f : Firmware → Firmware) : (onFw f s).counters = s.counters := rfl
@[simp] theorem onFw_dict (f : Firmware → Firmware) : (onFw f s).dict = s.dict := rfl
@[simp] theorem onFw_can (f : Firmware → Firmware) : (onFw f s).can = s.can := rfl
@[simp] theorem onFw_bist (f : Firmware → Firmware) : (onFw f s).bist = s.bist := rfl
@[simp] theorem onFw_dev (f : Firmware → Firmware) : (onFw f s).dev = s.dev := rfl
@[simp] theorem onFw_violations (f : Firmware → Firmware) : (onFw f s).violations = s.violations := rfl
@[simp] theorem onFw_queues (f : Firmware → Firmware) : (onFw f s).queues = s.queues := rfl
@[simp] theorem onFw_jobs (f : Firmware → Firmware) : (onFw f s).jobs = s.jobs := rfl
@[simp] theorem onFw_nextJob (f : Firmware → Firmware) : (onFw f s).nextJob = s.nextJob := rfl
@[simp] theorem onFw_berths (f : Firmware → Firmware) : (onFw f s).berths = s.berths := rfl
@[simp] theorem onFw_eng (f : Firmware → Firmware) : (onFw f s).eng = s.eng := rfl
@[simp] theorem onFw_cores (f : Firmware → Firmware) : (onFw f s).cores = s.cores := rfl
@[simp] theorem onFw_pilot (f : Firmware → Firmware) : (onFw f s).pilot = s.pilot := rfl
@[simp] theorem onFw_runs (f : Firmware → Firmware) : (onFw f s).runs = s.runs := rfl
@[simp] theorem onFw_scans (f : Firmware → Firmware) : (onFw f s).scans = s.scans := rfl
@[simp] theorem onFw_nextScan (f : Firmware → Firmware) : (onFw f s).nextScan = s.nextScan := rfl
@[simp] theorem onFw_quays (f : Firmware → Firmware) : (onFw f s).quays = s.quays := rfl
@[simp] theorem onFw_canopy (f : Firmware → Firmware) : (onFw f s).canopy = s.canopy := rfl

/-! ## onManifest -/

@[simp] theorem onManifest_manifest (f : Manifest → Manifest) : (onManifest f s).manifest = f s.manifest := rfl
@[simp] theorem onManifest_pending (f : Manifest → Manifest) : (onManifest f s).pending = s.pending := rfl
@[simp] theorem onManifest_sys (f : Manifest → Manifest) : (onManifest f s).sys = s.sys := rfl
@[simp] theorem onManifest_present (f : Manifest → Manifest) : (onManifest f s).present = s.present := rfl
@[simp] theorem onManifest_mram (f : Manifest → Manifest) : (onManifest f s).mram = s.mram := rfl
@[simp] theorem onManifest_flash (f : Manifest → Manifest) : (onManifest f s).flash = s.flash := rfl
@[simp] theorem onManifest_log (f : Manifest → Manifest) : (onManifest f s).log = s.log := rfl
@[simp] theorem onManifest_fw (f : Manifest → Manifest) : (onManifest f s).fw = s.fw := rfl
@[simp] theorem onManifest_spdm (f : Manifest → Manifest) : (onManifest f s).spdm = s.spdm := rfl
@[simp] theorem onManifest_pcie (f : Manifest → Manifest) : (onManifest f s).pcie = s.pcie := rfl
@[simp] theorem onManifest_host (f : Manifest → Manifest) : (onManifest f s).host = s.host := rfl
@[simp] theorem onManifest_counters (f : Manifest → Manifest) : (onManifest f s).counters = s.counters := rfl
@[simp] theorem onManifest_dict (f : Manifest → Manifest) : (onManifest f s).dict = s.dict := rfl
@[simp] theorem onManifest_can (f : Manifest → Manifest) : (onManifest f s).can = s.can := rfl
@[simp] theorem onManifest_bist (f : Manifest → Manifest) : (onManifest f s).bist = s.bist := rfl
@[simp] theorem onManifest_dev (f : Manifest → Manifest) : (onManifest f s).dev = s.dev := rfl
@[simp] theorem onManifest_violations (f : Manifest → Manifest) : (onManifest f s).violations = s.violations := rfl
@[simp] theorem onManifest_queues (f : Manifest → Manifest) : (onManifest f s).queues = s.queues := rfl
@[simp] theorem onManifest_jobs (f : Manifest → Manifest) : (onManifest f s).jobs = s.jobs := rfl
@[simp] theorem onManifest_nextJob (f : Manifest → Manifest) : (onManifest f s).nextJob = s.nextJob := rfl
@[simp] theorem onManifest_berths (f : Manifest → Manifest) : (onManifest f s).berths = s.berths := rfl
@[simp] theorem onManifest_eng (f : Manifest → Manifest) : (onManifest f s).eng = s.eng := rfl
@[simp] theorem onManifest_cores (f : Manifest → Manifest) : (onManifest f s).cores = s.cores := rfl
@[simp] theorem onManifest_pilot (f : Manifest → Manifest) : (onManifest f s).pilot = s.pilot := rfl
@[simp] theorem onManifest_runs (f : Manifest → Manifest) : (onManifest f s).runs = s.runs := rfl
@[simp] theorem onManifest_scans (f : Manifest → Manifest) : (onManifest f s).scans = s.scans := rfl
@[simp] theorem onManifest_nextScan (f : Manifest → Manifest) : (onManifest f s).nextScan = s.nextScan := rfl
@[simp] theorem onManifest_quays (f : Manifest → Manifest) : (onManifest f s).quays = s.quays := rfl
@[simp] theorem onManifest_canopy (f : Manifest → Manifest) : (onManifest f s).canopy = s.canopy := rfl

/-! ## onSpdm -/

@[simp] theorem onSpdm_spdm (f : Spdm → Spdm) : (onSpdm f s).spdm = f s.spdm := rfl
@[simp] theorem onSpdm_pending (f : Spdm → Spdm) : (onSpdm f s).pending = s.pending := rfl
@[simp] theorem onSpdm_sys (f : Spdm → Spdm) : (onSpdm f s).sys = s.sys := rfl
@[simp] theorem onSpdm_present (f : Spdm → Spdm) : (onSpdm f s).present = s.present := rfl
@[simp] theorem onSpdm_mram (f : Spdm → Spdm) : (onSpdm f s).mram = s.mram := rfl
@[simp] theorem onSpdm_flash (f : Spdm → Spdm) : (onSpdm f s).flash = s.flash := rfl
@[simp] theorem onSpdm_log (f : Spdm → Spdm) : (onSpdm f s).log = s.log := rfl
@[simp] theorem onSpdm_fw (f : Spdm → Spdm) : (onSpdm f s).fw = s.fw := rfl
@[simp] theorem onSpdm_manifest (f : Spdm → Spdm) : (onSpdm f s).manifest = s.manifest := rfl
@[simp] theorem onSpdm_pcie (f : Spdm → Spdm) : (onSpdm f s).pcie = s.pcie := rfl
@[simp] theorem onSpdm_host (f : Spdm → Spdm) : (onSpdm f s).host = s.host := rfl
@[simp] theorem onSpdm_counters (f : Spdm → Spdm) : (onSpdm f s).counters = s.counters := rfl
@[simp] theorem onSpdm_dict (f : Spdm → Spdm) : (onSpdm f s).dict = s.dict := rfl
@[simp] theorem onSpdm_can (f : Spdm → Spdm) : (onSpdm f s).can = s.can := rfl
@[simp] theorem onSpdm_bist (f : Spdm → Spdm) : (onSpdm f s).bist = s.bist := rfl
@[simp] theorem onSpdm_dev (f : Spdm → Spdm) : (onSpdm f s).dev = s.dev := rfl
@[simp] theorem onSpdm_violations (f : Spdm → Spdm) : (onSpdm f s).violations = s.violations := rfl
@[simp] theorem onSpdm_queues (f : Spdm → Spdm) : (onSpdm f s).queues = s.queues := rfl
@[simp] theorem onSpdm_jobs (f : Spdm → Spdm) : (onSpdm f s).jobs = s.jobs := rfl
@[simp] theorem onSpdm_nextJob (f : Spdm → Spdm) : (onSpdm f s).nextJob = s.nextJob := rfl
@[simp] theorem onSpdm_berths (f : Spdm → Spdm) : (onSpdm f s).berths = s.berths := rfl
@[simp] theorem onSpdm_eng (f : Spdm → Spdm) : (onSpdm f s).eng = s.eng := rfl
@[simp] theorem onSpdm_cores (f : Spdm → Spdm) : (onSpdm f s).cores = s.cores := rfl
@[simp] theorem onSpdm_pilot (f : Spdm → Spdm) : (onSpdm f s).pilot = s.pilot := rfl
@[simp] theorem onSpdm_runs (f : Spdm → Spdm) : (onSpdm f s).runs = s.runs := rfl
@[simp] theorem onSpdm_scans (f : Spdm → Spdm) : (onSpdm f s).scans = s.scans := rfl
@[simp] theorem onSpdm_nextScan (f : Spdm → Spdm) : (onSpdm f s).nextScan = s.nextScan := rfl
@[simp] theorem onSpdm_quays (f : Spdm → Spdm) : (onSpdm f s).quays = s.quays := rfl
@[simp] theorem onSpdm_canopy (f : Spdm → Spdm) : (onSpdm f s).canopy = s.canopy := rfl

/-! ## onPcie -/

@[simp] theorem onPcie_pcie (f : Pcie → Pcie) : (onPcie f s).pcie = f s.pcie := rfl
@[simp] theorem onPcie_pending (f : Pcie → Pcie) : (onPcie f s).pending = s.pending := rfl
@[simp] theorem onPcie_sys (f : Pcie → Pcie) : (onPcie f s).sys = s.sys := rfl
@[simp] theorem onPcie_present (f : Pcie → Pcie) : (onPcie f s).present = s.present := rfl
@[simp] theorem onPcie_mram (f : Pcie → Pcie) : (onPcie f s).mram = s.mram := rfl
@[simp] theorem onPcie_flash (f : Pcie → Pcie) : (onPcie f s).flash = s.flash := rfl
@[simp] theorem onPcie_log (f : Pcie → Pcie) : (onPcie f s).log = s.log := rfl
@[simp] theorem onPcie_fw (f : Pcie → Pcie) : (onPcie f s).fw = s.fw := rfl
@[simp] theorem onPcie_manifest (f : Pcie → Pcie) : (onPcie f s).manifest = s.manifest := rfl
@[simp] theorem onPcie_spdm (f : Pcie → Pcie) : (onPcie f s).spdm = s.spdm := rfl
@[simp] theorem onPcie_host (f : Pcie → Pcie) : (onPcie f s).host = s.host := rfl
@[simp] theorem onPcie_counters (f : Pcie → Pcie) : (onPcie f s).counters = s.counters := rfl
@[simp] theorem onPcie_dict (f : Pcie → Pcie) : (onPcie f s).dict = s.dict := rfl
@[simp] theorem onPcie_can (f : Pcie → Pcie) : (onPcie f s).can = s.can := rfl
@[simp] theorem onPcie_bist (f : Pcie → Pcie) : (onPcie f s).bist = s.bist := rfl
@[simp] theorem onPcie_dev (f : Pcie → Pcie) : (onPcie f s).dev = s.dev := rfl
@[simp] theorem onPcie_violations (f : Pcie → Pcie) : (onPcie f s).violations = s.violations := rfl
@[simp] theorem onPcie_queues (f : Pcie → Pcie) : (onPcie f s).queues = s.queues := rfl
@[simp] theorem onPcie_jobs (f : Pcie → Pcie) : (onPcie f s).jobs = s.jobs := rfl
@[simp] theorem onPcie_nextJob (f : Pcie → Pcie) : (onPcie f s).nextJob = s.nextJob := rfl
@[simp] theorem onPcie_berths (f : Pcie → Pcie) : (onPcie f s).berths = s.berths := rfl
@[simp] theorem onPcie_eng (f : Pcie → Pcie) : (onPcie f s).eng = s.eng := rfl
@[simp] theorem onPcie_cores (f : Pcie → Pcie) : (onPcie f s).cores = s.cores := rfl
@[simp] theorem onPcie_pilot (f : Pcie → Pcie) : (onPcie f s).pilot = s.pilot := rfl
@[simp] theorem onPcie_runs (f : Pcie → Pcie) : (onPcie f s).runs = s.runs := rfl
@[simp] theorem onPcie_scans (f : Pcie → Pcie) : (onPcie f s).scans = s.scans := rfl
@[simp] theorem onPcie_nextScan (f : Pcie → Pcie) : (onPcie f s).nextScan = s.nextScan := rfl
@[simp] theorem onPcie_quays (f : Pcie → Pcie) : (onPcie f s).quays = s.quays := rfl
@[simp] theorem onPcie_canopy (f : Pcie → Pcie) : (onPcie f s).canopy = s.canopy := rfl

/-! ## onHost -/

@[simp] theorem onHost_host (f : HostSide → HostSide) : (onHost f s).host = f s.host := rfl
@[simp] theorem onHost_pending (f : HostSide → HostSide) : (onHost f s).pending = s.pending := rfl
@[simp] theorem onHost_sys (f : HostSide → HostSide) : (onHost f s).sys = s.sys := rfl
@[simp] theorem onHost_present (f : HostSide → HostSide) : (onHost f s).present = s.present := rfl
@[simp] theorem onHost_mram (f : HostSide → HostSide) : (onHost f s).mram = s.mram := rfl
@[simp] theorem onHost_flash (f : HostSide → HostSide) : (onHost f s).flash = s.flash := rfl
@[simp] theorem onHost_log (f : HostSide → HostSide) : (onHost f s).log = s.log := rfl
@[simp] theorem onHost_fw (f : HostSide → HostSide) : (onHost f s).fw = s.fw := rfl
@[simp] theorem onHost_manifest (f : HostSide → HostSide) : (onHost f s).manifest = s.manifest := rfl
@[simp] theorem onHost_spdm (f : HostSide → HostSide) : (onHost f s).spdm = s.spdm := rfl
@[simp] theorem onHost_pcie (f : HostSide → HostSide) : (onHost f s).pcie = s.pcie := rfl
@[simp] theorem onHost_counters (f : HostSide → HostSide) : (onHost f s).counters = s.counters := rfl
@[simp] theorem onHost_dict (f : HostSide → HostSide) : (onHost f s).dict = s.dict := rfl
@[simp] theorem onHost_can (f : HostSide → HostSide) : (onHost f s).can = s.can := rfl
@[simp] theorem onHost_bist (f : HostSide → HostSide) : (onHost f s).bist = s.bist := rfl
@[simp] theorem onHost_dev (f : HostSide → HostSide) : (onHost f s).dev = s.dev := rfl
@[simp] theorem onHost_violations (f : HostSide → HostSide) : (onHost f s).violations = s.violations := rfl
@[simp] theorem onHost_queues (f : HostSide → HostSide) : (onHost f s).queues = s.queues := rfl
@[simp] theorem onHost_jobs (f : HostSide → HostSide) : (onHost f s).jobs = s.jobs := rfl
@[simp] theorem onHost_nextJob (f : HostSide → HostSide) : (onHost f s).nextJob = s.nextJob := rfl
@[simp] theorem onHost_berths (f : HostSide → HostSide) : (onHost f s).berths = s.berths := rfl
@[simp] theorem onHost_eng (f : HostSide → HostSide) : (onHost f s).eng = s.eng := rfl
@[simp] theorem onHost_cores (f : HostSide → HostSide) : (onHost f s).cores = s.cores := rfl
@[simp] theorem onHost_pilot (f : HostSide → HostSide) : (onHost f s).pilot = s.pilot := rfl
@[simp] theorem onHost_runs (f : HostSide → HostSide) : (onHost f s).runs = s.runs := rfl
@[simp] theorem onHost_scans (f : HostSide → HostSide) : (onHost f s).scans = s.scans := rfl
@[simp] theorem onHost_nextScan (f : HostSide → HostSide) : (onHost f s).nextScan = s.nextScan := rfl
@[simp] theorem onHost_quays (f : HostSide → HostSide) : (onHost f s).quays = s.quays := rfl
@[simp] theorem onHost_canopy (f : HostSide → HostSide) : (onHost f s).canopy = s.canopy := rfl

/-! ## onDict -/

@[simp] theorem onDict_dict (f : Dict → Dict) : (onDict f s).dict = f s.dict := rfl
@[simp] theorem onDict_pending (f : Dict → Dict) : (onDict f s).pending = s.pending := rfl
@[simp] theorem onDict_sys (f : Dict → Dict) : (onDict f s).sys = s.sys := rfl
@[simp] theorem onDict_present (f : Dict → Dict) : (onDict f s).present = s.present := rfl
@[simp] theorem onDict_mram (f : Dict → Dict) : (onDict f s).mram = s.mram := rfl
@[simp] theorem onDict_flash (f : Dict → Dict) : (onDict f s).flash = s.flash := rfl
@[simp] theorem onDict_log (f : Dict → Dict) : (onDict f s).log = s.log := rfl
@[simp] theorem onDict_fw (f : Dict → Dict) : (onDict f s).fw = s.fw := rfl
@[simp] theorem onDict_manifest (f : Dict → Dict) : (onDict f s).manifest = s.manifest := rfl
@[simp] theorem onDict_spdm (f : Dict → Dict) : (onDict f s).spdm = s.spdm := rfl
@[simp] theorem onDict_pcie (f : Dict → Dict) : (onDict f s).pcie = s.pcie := rfl
@[simp] theorem onDict_host (f : Dict → Dict) : (onDict f s).host = s.host := rfl
@[simp] theorem onDict_counters (f : Dict → Dict) : (onDict f s).counters = s.counters := rfl
@[simp] theorem onDict_can (f : Dict → Dict) : (onDict f s).can = s.can := rfl
@[simp] theorem onDict_bist (f : Dict → Dict) : (onDict f s).bist = s.bist := rfl
@[simp] theorem onDict_dev (f : Dict → Dict) : (onDict f s).dev = s.dev := rfl
@[simp] theorem onDict_violations (f : Dict → Dict) : (onDict f s).violations = s.violations := rfl
@[simp] theorem onDict_queues (f : Dict → Dict) : (onDict f s).queues = s.queues := rfl
@[simp] theorem onDict_jobs (f : Dict → Dict) : (onDict f s).jobs = s.jobs := rfl
@[simp] theorem onDict_nextJob (f : Dict → Dict) : (onDict f s).nextJob = s.nextJob := rfl
@[simp] theorem onDict_berths (f : Dict → Dict) : (onDict f s).berths = s.berths := rfl
@[simp] theorem onDict_eng (f : Dict → Dict) : (onDict f s).eng = s.eng := rfl
@[simp] theorem onDict_cores (f : Dict → Dict) : (onDict f s).cores = s.cores := rfl
@[simp] theorem onDict_pilot (f : Dict → Dict) : (onDict f s).pilot = s.pilot := rfl
@[simp] theorem onDict_runs (f : Dict → Dict) : (onDict f s).runs = s.runs := rfl
@[simp] theorem onDict_scans (f : Dict → Dict) : (onDict f s).scans = s.scans := rfl
@[simp] theorem onDict_nextScan (f : Dict → Dict) : (onDict f s).nextScan = s.nextScan := rfl
@[simp] theorem onDict_quays (f : Dict → Dict) : (onDict f s).quays = s.quays := rfl
@[simp] theorem onDict_canopy (f : Dict → Dict) : (onDict f s).canopy = s.canopy := rfl

/-! ## onCan -/

@[simp] theorem onCan_can (f : CanNode → CanNode) : (onCan f s).can = f s.can := rfl
@[simp] theorem onCan_pending (f : CanNode → CanNode) : (onCan f s).pending = s.pending := rfl
@[simp] theorem onCan_sys (f : CanNode → CanNode) : (onCan f s).sys = s.sys := rfl
@[simp] theorem onCan_present (f : CanNode → CanNode) : (onCan f s).present = s.present := rfl
@[simp] theorem onCan_mram (f : CanNode → CanNode) : (onCan f s).mram = s.mram := rfl
@[simp] theorem onCan_flash (f : CanNode → CanNode) : (onCan f s).flash = s.flash := rfl
@[simp] theorem onCan_log (f : CanNode → CanNode) : (onCan f s).log = s.log := rfl
@[simp] theorem onCan_fw (f : CanNode → CanNode) : (onCan f s).fw = s.fw := rfl
@[simp] theorem onCan_manifest (f : CanNode → CanNode) : (onCan f s).manifest = s.manifest := rfl
@[simp] theorem onCan_spdm (f : CanNode → CanNode) : (onCan f s).spdm = s.spdm := rfl
@[simp] theorem onCan_pcie (f : CanNode → CanNode) : (onCan f s).pcie = s.pcie := rfl
@[simp] theorem onCan_host (f : CanNode → CanNode) : (onCan f s).host = s.host := rfl
@[simp] theorem onCan_counters (f : CanNode → CanNode) : (onCan f s).counters = s.counters := rfl
@[simp] theorem onCan_dict (f : CanNode → CanNode) : (onCan f s).dict = s.dict := rfl
@[simp] theorem onCan_bist (f : CanNode → CanNode) : (onCan f s).bist = s.bist := rfl
@[simp] theorem onCan_dev (f : CanNode → CanNode) : (onCan f s).dev = s.dev := rfl
@[simp] theorem onCan_violations (f : CanNode → CanNode) : (onCan f s).violations = s.violations := rfl
@[simp] theorem onCan_queues (f : CanNode → CanNode) : (onCan f s).queues = s.queues := rfl
@[simp] theorem onCan_jobs (f : CanNode → CanNode) : (onCan f s).jobs = s.jobs := rfl
@[simp] theorem onCan_nextJob (f : CanNode → CanNode) : (onCan f s).nextJob = s.nextJob := rfl
@[simp] theorem onCan_berths (f : CanNode → CanNode) : (onCan f s).berths = s.berths := rfl
@[simp] theorem onCan_eng (f : CanNode → CanNode) : (onCan f s).eng = s.eng := rfl
@[simp] theorem onCan_cores (f : CanNode → CanNode) : (onCan f s).cores = s.cores := rfl
@[simp] theorem onCan_pilot (f : CanNode → CanNode) : (onCan f s).pilot = s.pilot := rfl
@[simp] theorem onCan_runs (f : CanNode → CanNode) : (onCan f s).runs = s.runs := rfl
@[simp] theorem onCan_scans (f : CanNode → CanNode) : (onCan f s).scans = s.scans := rfl
@[simp] theorem onCan_nextScan (f : CanNode → CanNode) : (onCan f s).nextScan = s.nextScan := rfl
@[simp] theorem onCan_quays (f : CanNode → CanNode) : (onCan f s).quays = s.quays := rfl
@[simp] theorem onCan_canopy (f : CanNode → CanNode) : (onCan f s).canopy = s.canopy := rfl

/-! ## onBist -/

@[simp] theorem onBist_bist (f : SelfTest → SelfTest) : (onBist f s).bist = f s.bist := rfl
@[simp] theorem onBist_pending (f : SelfTest → SelfTest) : (onBist f s).pending = s.pending := rfl
@[simp] theorem onBist_sys (f : SelfTest → SelfTest) : (onBist f s).sys = s.sys := rfl
@[simp] theorem onBist_present (f : SelfTest → SelfTest) : (onBist f s).present = s.present := rfl
@[simp] theorem onBist_mram (f : SelfTest → SelfTest) : (onBist f s).mram = s.mram := rfl
@[simp] theorem onBist_flash (f : SelfTest → SelfTest) : (onBist f s).flash = s.flash := rfl
@[simp] theorem onBist_log (f : SelfTest → SelfTest) : (onBist f s).log = s.log := rfl
@[simp] theorem onBist_fw (f : SelfTest → SelfTest) : (onBist f s).fw = s.fw := rfl
@[simp] theorem onBist_manifest (f : SelfTest → SelfTest) : (onBist f s).manifest = s.manifest := rfl
@[simp] theorem onBist_spdm (f : SelfTest → SelfTest) : (onBist f s).spdm = s.spdm := rfl
@[simp] theorem onBist_pcie (f : SelfTest → SelfTest) : (onBist f s).pcie = s.pcie := rfl
@[simp] theorem onBist_host (f : SelfTest → SelfTest) : (onBist f s).host = s.host := rfl
@[simp] theorem onBist_counters (f : SelfTest → SelfTest) : (onBist f s).counters = s.counters := rfl
@[simp] theorem onBist_dict (f : SelfTest → SelfTest) : (onBist f s).dict = s.dict := rfl
@[simp] theorem onBist_can (f : SelfTest → SelfTest) : (onBist f s).can = s.can := rfl
@[simp] theorem onBist_dev (f : SelfTest → SelfTest) : (onBist f s).dev = s.dev := rfl
@[simp] theorem onBist_violations (f : SelfTest → SelfTest) : (onBist f s).violations = s.violations := rfl
@[simp] theorem onBist_queues (f : SelfTest → SelfTest) : (onBist f s).queues = s.queues := rfl
@[simp] theorem onBist_jobs (f : SelfTest → SelfTest) : (onBist f s).jobs = s.jobs := rfl
@[simp] theorem onBist_nextJob (f : SelfTest → SelfTest) : (onBist f s).nextJob = s.nextJob := rfl
@[simp] theorem onBist_berths (f : SelfTest → SelfTest) : (onBist f s).berths = s.berths := rfl
@[simp] theorem onBist_eng (f : SelfTest → SelfTest) : (onBist f s).eng = s.eng := rfl
@[simp] theorem onBist_cores (f : SelfTest → SelfTest) : (onBist f s).cores = s.cores := rfl
@[simp] theorem onBist_pilot (f : SelfTest → SelfTest) : (onBist f s).pilot = s.pilot := rfl
@[simp] theorem onBist_runs (f : SelfTest → SelfTest) : (onBist f s).runs = s.runs := rfl
@[simp] theorem onBist_scans (f : SelfTest → SelfTest) : (onBist f s).scans = s.scans := rfl
@[simp] theorem onBist_nextScan (f : SelfTest → SelfTest) : (onBist f s).nextScan = s.nextScan := rfl
@[simp] theorem onBist_quays (f : SelfTest → SelfTest) : (onBist f s).quays = s.quays := rfl
@[simp] theorem onBist_canopy (f : SelfTest → SelfTest) : (onBist f s).canopy = s.canopy := rfl

/-! ## onDev -/

@[simp] theorem onDev_dev (f : DevMem → DevMem) : (onDev f s).dev = f s.dev := rfl
@[simp] theorem onDev_pending (f : DevMem → DevMem) : (onDev f s).pending = s.pending := rfl
@[simp] theorem onDev_sys (f : DevMem → DevMem) : (onDev f s).sys = s.sys := rfl
@[simp] theorem onDev_present (f : DevMem → DevMem) : (onDev f s).present = s.present := rfl
@[simp] theorem onDev_mram (f : DevMem → DevMem) : (onDev f s).mram = s.mram := rfl
@[simp] theorem onDev_flash (f : DevMem → DevMem) : (onDev f s).flash = s.flash := rfl
@[simp] theorem onDev_log (f : DevMem → DevMem) : (onDev f s).log = s.log := rfl
@[simp] theorem onDev_fw (f : DevMem → DevMem) : (onDev f s).fw = s.fw := rfl
@[simp] theorem onDev_manifest (f : DevMem → DevMem) : (onDev f s).manifest = s.manifest := rfl
@[simp] theorem onDev_spdm (f : DevMem → DevMem) : (onDev f s).spdm = s.spdm := rfl
@[simp] theorem onDev_pcie (f : DevMem → DevMem) : (onDev f s).pcie = s.pcie := rfl
@[simp] theorem onDev_host (f : DevMem → DevMem) : (onDev f s).host = s.host := rfl
@[simp] theorem onDev_counters (f : DevMem → DevMem) : (onDev f s).counters = s.counters := rfl
@[simp] theorem onDev_dict (f : DevMem → DevMem) : (onDev f s).dict = s.dict := rfl
@[simp] theorem onDev_can (f : DevMem → DevMem) : (onDev f s).can = s.can := rfl
@[simp] theorem onDev_bist (f : DevMem → DevMem) : (onDev f s).bist = s.bist := rfl
@[simp] theorem onDev_violations (f : DevMem → DevMem) : (onDev f s).violations = s.violations := rfl
@[simp] theorem onDev_queues (f : DevMem → DevMem) : (onDev f s).queues = s.queues := rfl
@[simp] theorem onDev_jobs (f : DevMem → DevMem) : (onDev f s).jobs = s.jobs := rfl
@[simp] theorem onDev_nextJob (f : DevMem → DevMem) : (onDev f s).nextJob = s.nextJob := rfl
@[simp] theorem onDev_berths (f : DevMem → DevMem) : (onDev f s).berths = s.berths := rfl
@[simp] theorem onDev_eng (f : DevMem → DevMem) : (onDev f s).eng = s.eng := rfl
@[simp] theorem onDev_cores (f : DevMem → DevMem) : (onDev f s).cores = s.cores := rfl
@[simp] theorem onDev_pilot (f : DevMem → DevMem) : (onDev f s).pilot = s.pilot := rfl
@[simp] theorem onDev_runs (f : DevMem → DevMem) : (onDev f s).runs = s.runs := rfl
@[simp] theorem onDev_scans (f : DevMem → DevMem) : (onDev f s).scans = s.scans := rfl
@[simp] theorem onDev_nextScan (f : DevMem → DevMem) : (onDev f s).nextScan = s.nextScan := rfl
@[simp] theorem onDev_quays (f : DevMem → DevMem) : (onDev f s).quays = s.quays := rfl
@[simp] theorem onDev_canopy (f : DevMem → DevMem) : (onDev f s).canopy = s.canopy := rfl

/-! ## onEng -/

@[simp] theorem onEng_eng (f : Engines → Engines) : (onEng f s).eng = f s.eng := rfl
@[simp] theorem onEng_pending (f : Engines → Engines) : (onEng f s).pending = s.pending := rfl
@[simp] theorem onEng_sys (f : Engines → Engines) : (onEng f s).sys = s.sys := rfl
@[simp] theorem onEng_present (f : Engines → Engines) : (onEng f s).present = s.present := rfl
@[simp] theorem onEng_mram (f : Engines → Engines) : (onEng f s).mram = s.mram := rfl
@[simp] theorem onEng_flash (f : Engines → Engines) : (onEng f s).flash = s.flash := rfl
@[simp] theorem onEng_log (f : Engines → Engines) : (onEng f s).log = s.log := rfl
@[simp] theorem onEng_fw (f : Engines → Engines) : (onEng f s).fw = s.fw := rfl
@[simp] theorem onEng_manifest (f : Engines → Engines) : (onEng f s).manifest = s.manifest := rfl
@[simp] theorem onEng_spdm (f : Engines → Engines) : (onEng f s).spdm = s.spdm := rfl
@[simp] theorem onEng_pcie (f : Engines → Engines) : (onEng f s).pcie = s.pcie := rfl
@[simp] theorem onEng_host (f : Engines → Engines) : (onEng f s).host = s.host := rfl
@[simp] theorem onEng_counters (f : Engines → Engines) : (onEng f s).counters = s.counters := rfl
@[simp] theorem onEng_dict (f : Engines → Engines) : (onEng f s).dict = s.dict := rfl
@[simp] theorem onEng_can (f : Engines → Engines) : (onEng f s).can = s.can := rfl
@[simp] theorem onEng_bist (f : Engines → Engines) : (onEng f s).bist = s.bist := rfl
@[simp] theorem onEng_dev (f : Engines → Engines) : (onEng f s).dev = s.dev := rfl
@[simp] theorem onEng_violations (f : Engines → Engines) : (onEng f s).violations = s.violations := rfl
@[simp] theorem onEng_queues (f : Engines → Engines) : (onEng f s).queues = s.queues := rfl
@[simp] theorem onEng_jobs (f : Engines → Engines) : (onEng f s).jobs = s.jobs := rfl
@[simp] theorem onEng_nextJob (f : Engines → Engines) : (onEng f s).nextJob = s.nextJob := rfl
@[simp] theorem onEng_berths (f : Engines → Engines) : (onEng f s).berths = s.berths := rfl
@[simp] theorem onEng_cores (f : Engines → Engines) : (onEng f s).cores = s.cores := rfl
@[simp] theorem onEng_pilot (f : Engines → Engines) : (onEng f s).pilot = s.pilot := rfl
@[simp] theorem onEng_runs (f : Engines → Engines) : (onEng f s).runs = s.runs := rfl
@[simp] theorem onEng_scans (f : Engines → Engines) : (onEng f s).scans = s.scans := rfl
@[simp] theorem onEng_nextScan (f : Engines → Engines) : (onEng f s).nextScan = s.nextScan := rfl
@[simp] theorem onEng_quays (f : Engines → Engines) : (onEng f s).quays = s.quays := rfl
@[simp] theorem onEng_canopy (f : Engines → Engines) : (onEng f s).canopy = s.canopy := rfl

/-! ## onPilot -/

@[simp] theorem onPilot_pilot (f : Pilot → Pilot) : (onPilot f s).pilot = f s.pilot := rfl
@[simp] theorem onPilot_pending (f : Pilot → Pilot) : (onPilot f s).pending = s.pending := rfl
@[simp] theorem onPilot_sys (f : Pilot → Pilot) : (onPilot f s).sys = s.sys := rfl
@[simp] theorem onPilot_present (f : Pilot → Pilot) : (onPilot f s).present = s.present := rfl
@[simp] theorem onPilot_mram (f : Pilot → Pilot) : (onPilot f s).mram = s.mram := rfl
@[simp] theorem onPilot_flash (f : Pilot → Pilot) : (onPilot f s).flash = s.flash := rfl
@[simp] theorem onPilot_log (f : Pilot → Pilot) : (onPilot f s).log = s.log := rfl
@[simp] theorem onPilot_fw (f : Pilot → Pilot) : (onPilot f s).fw = s.fw := rfl
@[simp] theorem onPilot_manifest (f : Pilot → Pilot) : (onPilot f s).manifest = s.manifest := rfl
@[simp] theorem onPilot_spdm (f : Pilot → Pilot) : (onPilot f s).spdm = s.spdm := rfl
@[simp] theorem onPilot_pcie (f : Pilot → Pilot) : (onPilot f s).pcie = s.pcie := rfl
@[simp] theorem onPilot_host (f : Pilot → Pilot) : (onPilot f s).host = s.host := rfl
@[simp] theorem onPilot_counters (f : Pilot → Pilot) : (onPilot f s).counters = s.counters := rfl
@[simp] theorem onPilot_dict (f : Pilot → Pilot) : (onPilot f s).dict = s.dict := rfl
@[simp] theorem onPilot_can (f : Pilot → Pilot) : (onPilot f s).can = s.can := rfl
@[simp] theorem onPilot_bist (f : Pilot → Pilot) : (onPilot f s).bist = s.bist := rfl
@[simp] theorem onPilot_dev (f : Pilot → Pilot) : (onPilot f s).dev = s.dev := rfl
@[simp] theorem onPilot_violations (f : Pilot → Pilot) : (onPilot f s).violations = s.violations := rfl
@[simp] theorem onPilot_queues (f : Pilot → Pilot) : (onPilot f s).queues = s.queues := rfl
@[simp] theorem onPilot_jobs (f : Pilot → Pilot) : (onPilot f s).jobs = s.jobs := rfl
@[simp] theorem onPilot_nextJob (f : Pilot → Pilot) : (onPilot f s).nextJob = s.nextJob := rfl
@[simp] theorem onPilot_berths (f : Pilot → Pilot) : (onPilot f s).berths = s.berths := rfl
@[simp] theorem onPilot_eng (f : Pilot → Pilot) : (onPilot f s).eng = s.eng := rfl
@[simp] theorem onPilot_cores (f : Pilot → Pilot) : (onPilot f s).cores = s.cores := rfl
@[simp] theorem onPilot_runs (f : Pilot → Pilot) : (onPilot f s).runs = s.runs := rfl
@[simp] theorem onPilot_scans (f : Pilot → Pilot) : (onPilot f s).scans = s.scans := rfl
@[simp] theorem onPilot_nextScan (f : Pilot → Pilot) : (onPilot f s).nextScan = s.nextScan := rfl
@[simp] theorem onPilot_quays (f : Pilot → Pilot) : (onPilot f s).quays = s.quays := rfl
@[simp] theorem onPilot_canopy (f : Pilot → Pilot) : (onPilot f s).canopy = s.canopy := rfl

/-! ## onCanopy -/

@[simp] theorem onCanopy_canopy (f : Canopy → Canopy) : (onCanopy f s).canopy = f s.canopy := rfl
@[simp] theorem onCanopy_pending (f : Canopy → Canopy) : (onCanopy f s).pending = s.pending := rfl
@[simp] theorem onCanopy_sys (f : Canopy → Canopy) : (onCanopy f s).sys = s.sys := rfl
@[simp] theorem onCanopy_present (f : Canopy → Canopy) : (onCanopy f s).present = s.present := rfl
@[simp] theorem onCanopy_mram (f : Canopy → Canopy) : (onCanopy f s).mram = s.mram := rfl
@[simp] theorem onCanopy_flash (f : Canopy → Canopy) : (onCanopy f s).flash = s.flash := rfl
@[simp] theorem onCanopy_log (f : Canopy → Canopy) : (onCanopy f s).log = s.log := rfl
@[simp] theorem onCanopy_fw (f : Canopy → Canopy) : (onCanopy f s).fw = s.fw := rfl
@[simp] theorem onCanopy_manifest (f : Canopy → Canopy) : (onCanopy f s).manifest = s.manifest := rfl
@[simp] theorem onCanopy_spdm (f : Canopy → Canopy) : (onCanopy f s).spdm = s.spdm := rfl
@[simp] theorem onCanopy_pcie (f : Canopy → Canopy) : (onCanopy f s).pcie = s.pcie := rfl
@[simp] theorem onCanopy_host (f : Canopy → Canopy) : (onCanopy f s).host = s.host := rfl
@[simp] theorem onCanopy_counters (f : Canopy → Canopy) : (onCanopy f s).counters = s.counters := rfl
@[simp] theorem onCanopy_dict (f : Canopy → Canopy) : (onCanopy f s).dict = s.dict := rfl
@[simp] theorem onCanopy_can (f : Canopy → Canopy) : (onCanopy f s).can = s.can := rfl
@[simp] theorem onCanopy_bist (f : Canopy → Canopy) : (onCanopy f s).bist = s.bist := rfl
@[simp] theorem onCanopy_dev (f : Canopy → Canopy) : (onCanopy f s).dev = s.dev := rfl
@[simp] theorem onCanopy_violations (f : Canopy → Canopy) : (onCanopy f s).violations = s.violations := rfl
@[simp] theorem onCanopy_queues (f : Canopy → Canopy) : (onCanopy f s).queues = s.queues := rfl
@[simp] theorem onCanopy_jobs (f : Canopy → Canopy) : (onCanopy f s).jobs = s.jobs := rfl
@[simp] theorem onCanopy_nextJob (f : Canopy → Canopy) : (onCanopy f s).nextJob = s.nextJob := rfl
@[simp] theorem onCanopy_berths (f : Canopy → Canopy) : (onCanopy f s).berths = s.berths := rfl
@[simp] theorem onCanopy_eng (f : Canopy → Canopy) : (onCanopy f s).eng = s.eng := rfl
@[simp] theorem onCanopy_cores (f : Canopy → Canopy) : (onCanopy f s).cores = s.cores := rfl
@[simp] theorem onCanopy_pilot (f : Canopy → Canopy) : (onCanopy f s).pilot = s.pilot := rfl
@[simp] theorem onCanopy_runs (f : Canopy → Canopy) : (onCanopy f s).runs = s.runs := rfl
@[simp] theorem onCanopy_scans (f : Canopy → Canopy) : (onCanopy f s).scans = s.scans := rfl
@[simp] theorem onCanopy_nextScan (f : Canopy → Canopy) : (onCanopy f s).nextScan = s.nextScan := rfl
@[simp] theorem onCanopy_quays (f : Canopy → Canopy) : (onCanopy f s).quays = s.quays := rfl

/-! ## onQ -/

@[simp] theorem onQ_queues (i : Nat) (f : Queue → Queue) : (onQ i f s).queues = tblMod {} s.queues i f := rfl
@[simp] theorem onQ_pending (i : Nat) (f : Queue → Queue) : (onQ i f s).pending = s.pending := rfl
@[simp] theorem onQ_sys (i : Nat) (f : Queue → Queue) : (onQ i f s).sys = s.sys := rfl
@[simp] theorem onQ_present (i : Nat) (f : Queue → Queue) : (onQ i f s).present = s.present := rfl
@[simp] theorem onQ_mram (i : Nat) (f : Queue → Queue) : (onQ i f s).mram = s.mram := rfl
@[simp] theorem onQ_flash (i : Nat) (f : Queue → Queue) : (onQ i f s).flash = s.flash := rfl
@[simp] theorem onQ_log (i : Nat) (f : Queue → Queue) : (onQ i f s).log = s.log := rfl
@[simp] theorem onQ_fw (i : Nat) (f : Queue → Queue) : (onQ i f s).fw = s.fw := rfl
@[simp] theorem onQ_manifest (i : Nat) (f : Queue → Queue) : (onQ i f s).manifest = s.manifest := rfl
@[simp] theorem onQ_spdm (i : Nat) (f : Queue → Queue) : (onQ i f s).spdm = s.spdm := rfl
@[simp] theorem onQ_pcie (i : Nat) (f : Queue → Queue) : (onQ i f s).pcie = s.pcie := rfl
@[simp] theorem onQ_host (i : Nat) (f : Queue → Queue) : (onQ i f s).host = s.host := rfl
@[simp] theorem onQ_counters (i : Nat) (f : Queue → Queue) : (onQ i f s).counters = s.counters := rfl
@[simp] theorem onQ_dict (i : Nat) (f : Queue → Queue) : (onQ i f s).dict = s.dict := rfl
@[simp] theorem onQ_can (i : Nat) (f : Queue → Queue) : (onQ i f s).can = s.can := rfl
@[simp] theorem onQ_bist (i : Nat) (f : Queue → Queue) : (onQ i f s).bist = s.bist := rfl
@[simp] theorem onQ_dev (i : Nat) (f : Queue → Queue) : (onQ i f s).dev = s.dev := rfl
@[simp] theorem onQ_violations (i : Nat) (f : Queue → Queue) : (onQ i f s).violations = s.violations := rfl
@[simp] theorem onQ_jobs (i : Nat) (f : Queue → Queue) : (onQ i f s).jobs = s.jobs := rfl
@[simp] theorem onQ_nextJob (i : Nat) (f : Queue → Queue) : (onQ i f s).nextJob = s.nextJob := rfl
@[simp] theorem onQ_berths (i : Nat) (f : Queue → Queue) : (onQ i f s).berths = s.berths := rfl
@[simp] theorem onQ_eng (i : Nat) (f : Queue → Queue) : (onQ i f s).eng = s.eng := rfl
@[simp] theorem onQ_cores (i : Nat) (f : Queue → Queue) : (onQ i f s).cores = s.cores := rfl
@[simp] theorem onQ_pilot (i : Nat) (f : Queue → Queue) : (onQ i f s).pilot = s.pilot := rfl
@[simp] theorem onQ_runs (i : Nat) (f : Queue → Queue) : (onQ i f s).runs = s.runs := rfl
@[simp] theorem onQ_scans (i : Nat) (f : Queue → Queue) : (onQ i f s).scans = s.scans := rfl
@[simp] theorem onQ_nextScan (i : Nat) (f : Queue → Queue) : (onQ i f s).nextScan = s.nextScan := rfl
@[simp] theorem onQ_quays (i : Nat) (f : Queue → Queue) : (onQ i f s).quays = s.quays := rfl
@[simp] theorem onQ_canopy (i : Nat) (f : Queue → Queue) : (onQ i f s).canopy = s.canopy := rfl

/-! ## onB -/

@[simp] theorem onB_berths (i : Nat) (f : Berth → Berth) : (onB i f s).berths = tblMod {} s.berths i f := rfl
@[simp] theorem onB_pending (i : Nat) (f : Berth → Berth) : (onB i f s).pending = s.pending := rfl
@[simp] theorem onB_sys (i : Nat) (f : Berth → Berth) : (onB i f s).sys = s.sys := rfl
@[simp] theorem onB_present (i : Nat) (f : Berth → Berth) : (onB i f s).present = s.present := rfl
@[simp] theorem onB_mram (i : Nat) (f : Berth → Berth) : (onB i f s).mram = s.mram := rfl
@[simp] theorem onB_flash (i : Nat) (f : Berth → Berth) : (onB i f s).flash = s.flash := rfl
@[simp] theorem onB_log (i : Nat) (f : Berth → Berth) : (onB i f s).log = s.log := rfl
@[simp] theorem onB_fw (i : Nat) (f : Berth → Berth) : (onB i f s).fw = s.fw := rfl
@[simp] theorem onB_manifest (i : Nat) (f : Berth → Berth) : (onB i f s).manifest = s.manifest := rfl
@[simp] theorem onB_spdm (i : Nat) (f : Berth → Berth) : (onB i f s).spdm = s.spdm := rfl
@[simp] theorem onB_pcie (i : Nat) (f : Berth → Berth) : (onB i f s).pcie = s.pcie := rfl
@[simp] theorem onB_host (i : Nat) (f : Berth → Berth) : (onB i f s).host = s.host := rfl
@[simp] theorem onB_counters (i : Nat) (f : Berth → Berth) : (onB i f s).counters = s.counters := rfl
@[simp] theorem onB_dict (i : Nat) (f : Berth → Berth) : (onB i f s).dict = s.dict := rfl
@[simp] theorem onB_can (i : Nat) (f : Berth → Berth) : (onB i f s).can = s.can := rfl
@[simp] theorem onB_bist (i : Nat) (f : Berth → Berth) : (onB i f s).bist = s.bist := rfl
@[simp] theorem onB_dev (i : Nat) (f : Berth → Berth) : (onB i f s).dev = s.dev := rfl
@[simp] theorem onB_violations (i : Nat) (f : Berth → Berth) : (onB i f s).violations = s.violations := rfl
@[simp] theorem onB_queues (i : Nat) (f : Berth → Berth) : (onB i f s).queues = s.queues := rfl
@[simp] theorem onB_jobs (i : Nat) (f : Berth → Berth) : (onB i f s).jobs = s.jobs := rfl
@[simp] theorem onB_nextJob (i : Nat) (f : Berth → Berth) : (onB i f s).nextJob = s.nextJob := rfl
@[simp] theorem onB_eng (i : Nat) (f : Berth → Berth) : (onB i f s).eng = s.eng := rfl
@[simp] theorem onB_cores (i : Nat) (f : Berth → Berth) : (onB i f s).cores = s.cores := rfl
@[simp] theorem onB_pilot (i : Nat) (f : Berth → Berth) : (onB i f s).pilot = s.pilot := rfl
@[simp] theorem onB_runs (i : Nat) (f : Berth → Berth) : (onB i f s).runs = s.runs := rfl
@[simp] theorem onB_scans (i : Nat) (f : Berth → Berth) : (onB i f s).scans = s.scans := rfl
@[simp] theorem onB_nextScan (i : Nat) (f : Berth → Berth) : (onB i f s).nextScan = s.nextScan := rfl
@[simp] theorem onB_quays (i : Nat) (f : Berth → Berth) : (onB i f s).quays = s.quays := rfl
@[simp] theorem onB_canopy (i : Nat) (f : Berth → Berth) : (onB i f s).canopy = s.canopy := rfl

/-! ## onCore -/

@[simp] theorem onCore_cores (i : Nat) (f : Core → Core) : (onCore i f s).cores = tblMod {} s.cores i f := rfl
@[simp] theorem onCore_pending (i : Nat) (f : Core → Core) : (onCore i f s).pending = s.pending := rfl
@[simp] theorem onCore_sys (i : Nat) (f : Core → Core) : (onCore i f s).sys = s.sys := rfl
@[simp] theorem onCore_present (i : Nat) (f : Core → Core) : (onCore i f s).present = s.present := rfl
@[simp] theorem onCore_mram (i : Nat) (f : Core → Core) : (onCore i f s).mram = s.mram := rfl
@[simp] theorem onCore_flash (i : Nat) (f : Core → Core) : (onCore i f s).flash = s.flash := rfl
@[simp] theorem onCore_log (i : Nat) (f : Core → Core) : (onCore i f s).log = s.log := rfl
@[simp] theorem onCore_fw (i : Nat) (f : Core → Core) : (onCore i f s).fw = s.fw := rfl
@[simp] theorem onCore_manifest (i : Nat) (f : Core → Core) : (onCore i f s).manifest = s.manifest := rfl
@[simp] theorem onCore_spdm (i : Nat) (f : Core → Core) : (onCore i f s).spdm = s.spdm := rfl
@[simp] theorem onCore_pcie (i : Nat) (f : Core → Core) : (onCore i f s).pcie = s.pcie := rfl
@[simp] theorem onCore_host (i : Nat) (f : Core → Core) : (onCore i f s).host = s.host := rfl
@[simp] theorem onCore_counters (i : Nat) (f : Core → Core) : (onCore i f s).counters = s.counters := rfl
@[simp] theorem onCore_dict (i : Nat) (f : Core → Core) : (onCore i f s).dict = s.dict := rfl
@[simp] theorem onCore_can (i : Nat) (f : Core → Core) : (onCore i f s).can = s.can := rfl
@[simp] theorem onCore_bist (i : Nat) (f : Core → Core) : (onCore i f s).bist = s.bist := rfl
@[simp] theorem onCore_dev (i : Nat) (f : Core → Core) : (onCore i f s).dev = s.dev := rfl
@[simp] theorem onCore_violations (i : Nat) (f : Core → Core) : (onCore i f s).violations = s.violations := rfl
@[simp] theorem onCore_queues (i : Nat) (f : Core → Core) : (onCore i f s).queues = s.queues := rfl
@[simp] theorem onCore_jobs (i : Nat) (f : Core → Core) : (onCore i f s).jobs = s.jobs := rfl
@[simp] theorem onCore_nextJob (i : Nat) (f : Core → Core) : (onCore i f s).nextJob = s.nextJob := rfl
@[simp] theorem onCore_berths (i : Nat) (f : Core → Core) : (onCore i f s).berths = s.berths := rfl
@[simp] theorem onCore_eng (i : Nat) (f : Core → Core) : (onCore i f s).eng = s.eng := rfl
@[simp] theorem onCore_pilot (i : Nat) (f : Core → Core) : (onCore i f s).pilot = s.pilot := rfl
@[simp] theorem onCore_runs (i : Nat) (f : Core → Core) : (onCore i f s).runs = s.runs := rfl
@[simp] theorem onCore_scans (i : Nat) (f : Core → Core) : (onCore i f s).scans = s.scans := rfl
@[simp] theorem onCore_nextScan (i : Nat) (f : Core → Core) : (onCore i f s).nextScan = s.nextScan := rfl
@[simp] theorem onCore_quays (i : Nat) (f : Core → Core) : (onCore i f s).quays = s.quays := rfl
@[simp] theorem onCore_canopy (i : Nat) (f : Core → Core) : (onCore i f s).canopy = s.canopy := rfl

/-! ## onQuay -/

@[simp] theorem onQuay_quays (i : Nat) (f : Quay → Quay) : (onQuay i f s).quays = tblMod {} s.quays i f := rfl
@[simp] theorem onQuay_pending (i : Nat) (f : Quay → Quay) : (onQuay i f s).pending = s.pending := rfl
@[simp] theorem onQuay_sys (i : Nat) (f : Quay → Quay) : (onQuay i f s).sys = s.sys := rfl
@[simp] theorem onQuay_present (i : Nat) (f : Quay → Quay) : (onQuay i f s).present = s.present := rfl
@[simp] theorem onQuay_mram (i : Nat) (f : Quay → Quay) : (onQuay i f s).mram = s.mram := rfl
@[simp] theorem onQuay_flash (i : Nat) (f : Quay → Quay) : (onQuay i f s).flash = s.flash := rfl
@[simp] theorem onQuay_log (i : Nat) (f : Quay → Quay) : (onQuay i f s).log = s.log := rfl
@[simp] theorem onQuay_fw (i : Nat) (f : Quay → Quay) : (onQuay i f s).fw = s.fw := rfl
@[simp] theorem onQuay_manifest (i : Nat) (f : Quay → Quay) : (onQuay i f s).manifest = s.manifest := rfl
@[simp] theorem onQuay_spdm (i : Nat) (f : Quay → Quay) : (onQuay i f s).spdm = s.spdm := rfl
@[simp] theorem onQuay_pcie (i : Nat) (f : Quay → Quay) : (onQuay i f s).pcie = s.pcie := rfl
@[simp] theorem onQuay_host (i : Nat) (f : Quay → Quay) : (onQuay i f s).host = s.host := rfl
@[simp] theorem onQuay_counters (i : Nat) (f : Quay → Quay) : (onQuay i f s).counters = s.counters := rfl
@[simp] theorem onQuay_dict (i : Nat) (f : Quay → Quay) : (onQuay i f s).dict = s.dict := rfl
@[simp] theorem onQuay_can (i : Nat) (f : Quay → Quay) : (onQuay i f s).can = s.can := rfl
@[simp] theorem onQuay_bist (i : Nat) (f : Quay → Quay) : (onQuay i f s).bist = s.bist := rfl
@[simp] theorem onQuay_dev (i : Nat) (f : Quay → Quay) : (onQuay i f s).dev = s.dev := rfl
@[simp] theorem onQuay_violations (i : Nat) (f : Quay → Quay) : (onQuay i f s).violations = s.violations := rfl
@[simp] theorem onQuay_queues (i : Nat) (f : Quay → Quay) : (onQuay i f s).queues = s.queues := rfl
@[simp] theorem onQuay_jobs (i : Nat) (f : Quay → Quay) : (onQuay i f s).jobs = s.jobs := rfl
@[simp] theorem onQuay_nextJob (i : Nat) (f : Quay → Quay) : (onQuay i f s).nextJob = s.nextJob := rfl
@[simp] theorem onQuay_berths (i : Nat) (f : Quay → Quay) : (onQuay i f s).berths = s.berths := rfl
@[simp] theorem onQuay_eng (i : Nat) (f : Quay → Quay) : (onQuay i f s).eng = s.eng := rfl
@[simp] theorem onQuay_cores (i : Nat) (f : Quay → Quay) : (onQuay i f s).cores = s.cores := rfl
@[simp] theorem onQuay_pilot (i : Nat) (f : Quay → Quay) : (onQuay i f s).pilot = s.pilot := rfl
@[simp] theorem onQuay_runs (i : Nat) (f : Quay → Quay) : (onQuay i f s).runs = s.runs := rfl
@[simp] theorem onQuay_scans (i : Nat) (f : Quay → Quay) : (onQuay i f s).scans = s.scans := rfl
@[simp] theorem onQuay_nextScan (i : Nat) (f : Quay → Quay) : (onQuay i f s).nextScan = s.nextScan := rfl
@[simp] theorem onQuay_canopy (i : Nat) (f : Quay → Quay) : (onQuay i f s).canopy = s.canopy := rfl

/-! ## onT -/

@[simp] theorem onT_pending (t : Nat) (f : Task → Task) : (onT t f s).pending = s.pending := rfl
@[simp] theorem onT_sys (t : Nat) (f : Task → Task) : (onT t f s).sys = s.sys := rfl
@[simp] theorem onT_present (t : Nat) (f : Task → Task) : (onT t f s).present = s.present := rfl
@[simp] theorem onT_mram (t : Nat) (f : Task → Task) : (onT t f s).mram = s.mram := rfl
@[simp] theorem onT_flash (t : Nat) (f : Task → Task) : (onT t f s).flash = s.flash := rfl
@[simp] theorem onT_log (t : Nat) (f : Task → Task) : (onT t f s).log = s.log := rfl
@[simp] theorem onT_fw (t : Nat) (f : Task → Task) : (onT t f s).fw = s.fw := rfl
@[simp] theorem onT_manifest (t : Nat) (f : Task → Task) : (onT t f s).manifest = s.manifest := rfl
@[simp] theorem onT_spdm (t : Nat) (f : Task → Task) : (onT t f s).spdm = s.spdm := rfl
@[simp] theorem onT_pcie (t : Nat) (f : Task → Task) : (onT t f s).pcie = s.pcie := rfl
@[simp] theorem onT_host (t : Nat) (f : Task → Task) : (onT t f s).host = s.host := rfl
@[simp] theorem onT_counters (t : Nat) (f : Task → Task) : (onT t f s).counters = s.counters := rfl
@[simp] theorem onT_dict (t : Nat) (f : Task → Task) : (onT t f s).dict = s.dict := rfl
@[simp] theorem onT_can (t : Nat) (f : Task → Task) : (onT t f s).can = s.can := rfl
@[simp] theorem onT_bist (t : Nat) (f : Task → Task) : (onT t f s).bist = s.bist := rfl
@[simp] theorem onT_dev (t : Nat) (f : Task → Task) : (onT t f s).dev = s.dev := rfl
@[simp] theorem onT_violations (t : Nat) (f : Task → Task) : (onT t f s).violations = s.violations := rfl
@[simp] theorem onT_queues (t : Nat) (f : Task → Task) : (onT t f s).queues = s.queues := rfl
@[simp] theorem onT_jobs (t : Nat) (f : Task → Task) : (onT t f s).jobs = s.jobs := rfl
@[simp] theorem onT_nextJob (t : Nat) (f : Task → Task) : (onT t f s).nextJob = s.nextJob := rfl
@[simp] theorem onT_berths (t : Nat) (f : Task → Task) : (onT t f s).berths = s.berths := rfl
@[simp] theorem onT_eng (t : Nat) (f : Task → Task) : (onT t f s).eng = s.eng := rfl
@[simp] theorem onT_cores (t : Nat) (f : Task → Task) : (onT t f s).cores = s.cores := rfl
@[simp] theorem onT_runs (t : Nat) (f : Task → Task) : (onT t f s).runs = s.runs := rfl
@[simp] theorem onT_scans (t : Nat) (f : Task → Task) : (onT t f s).scans = s.scans := rfl
@[simp] theorem onT_nextScan (t : Nat) (f : Task → Task) : (onT t f s).nextScan = s.nextScan := rfl
@[simp] theorem onT_quays (t : Nat) (f : Task → Task) : (onT t f s).quays = s.quays := rfl
@[simp] theorem onT_canopy (t : Nat) (f : Task → Task) : (onT t f s).canopy = s.canopy := rfl

/-! ## onBank -/

@[simp] theorem onBank_pending (b : Nat) (f : Bank → Bank) : (onBank b f s).pending = s.pending := rfl
@[simp] theorem onBank_sys (b : Nat) (f : Bank → Bank) : (onBank b f s).sys = s.sys := rfl
@[simp] theorem onBank_present (b : Nat) (f : Bank → Bank) : (onBank b f s).present = s.present := rfl
@[simp] theorem onBank_mram (b : Nat) (f : Bank → Bank) : (onBank b f s).mram = s.mram := rfl
@[simp] theorem onBank_flash (b : Nat) (f : Bank → Bank) : (onBank b f s).flash = s.flash := rfl
@[simp] theorem onBank_log (b : Nat) (f : Bank → Bank) : (onBank b f s).log = s.log := rfl
@[simp] theorem onBank_fw (b : Nat) (f : Bank → Bank) : (onBank b f s).fw = s.fw := rfl
@[simp] theorem onBank_manifest (b : Nat) (f : Bank → Bank) : (onBank b f s).manifest = s.manifest := rfl
@[simp] theorem onBank_spdm (b : Nat) (f : Bank → Bank) : (onBank b f s).spdm = s.spdm := rfl
@[simp] theorem onBank_pcie (b : Nat) (f : Bank → Bank) : (onBank b f s).pcie = s.pcie := rfl
@[simp] theorem onBank_host (b : Nat) (f : Bank → Bank) : (onBank b f s).host = s.host := rfl
@[simp] theorem onBank_counters (b : Nat) (f : Bank → Bank) : (onBank b f s).counters = s.counters := rfl
@[simp] theorem onBank_dict (b : Nat) (f : Bank → Bank) : (onBank b f s).dict = s.dict := rfl
@[simp] theorem onBank_can (b : Nat) (f : Bank → Bank) : (onBank b f s).can = s.can := rfl
@[simp] theorem onBank_bist (b : Nat) (f : Bank → Bank) : (onBank b f s).bist = s.bist := rfl
@[simp] theorem onBank_dev (b : Nat) (f : Bank → Bank) : (onBank b f s).dev = s.dev := rfl
@[simp] theorem onBank_violations (b : Nat) (f : Bank → Bank) : (onBank b f s).violations = s.violations := rfl
@[simp] theorem onBank_queues (b : Nat) (f : Bank → Bank) : (onBank b f s).queues = s.queues := rfl
@[simp] theorem onBank_jobs (b : Nat) (f : Bank → Bank) : (onBank b f s).jobs = s.jobs := rfl
@[simp] theorem onBank_nextJob (b : Nat) (f : Bank → Bank) : (onBank b f s).nextJob = s.nextJob := rfl
@[simp] theorem onBank_berths (b : Nat) (f : Bank → Bank) : (onBank b f s).berths = s.berths := rfl
@[simp] theorem onBank_eng (b : Nat) (f : Bank → Bank) : (onBank b f s).eng = s.eng := rfl
@[simp] theorem onBank_cores (b : Nat) (f : Bank → Bank) : (onBank b f s).cores = s.cores := rfl
@[simp] theorem onBank_pilot (b : Nat) (f : Bank → Bank) : (onBank b f s).pilot = s.pilot := rfl
@[simp] theorem onBank_runs (b : Nat) (f : Bank → Bank) : (onBank b f s).runs = s.runs := rfl
@[simp] theorem onBank_scans (b : Nat) (f : Bank → Bank) : (onBank b f s).scans = s.scans := rfl
@[simp] theorem onBank_nextScan (b : Nat) (f : Bank → Bank) : (onBank b f s).nextScan = s.nextScan := rfl
@[simp] theorem onBank_quays (b : Nat) (f : Bank → Bank) : (onBank b f s).quays = s.quays := rfl

/-! ## onCh -/

@[simp] theorem onCh_pending (c : Nat) (f : Channel → Channel) : (onCh c f s).pending = s.pending := rfl
@[simp] theorem onCh_sys (c : Nat) (f : Channel → Channel) : (onCh c f s).sys = s.sys := rfl
@[simp] theorem onCh_present (c : Nat) (f : Channel → Channel) : (onCh c f s).present = s.present := rfl
@[simp] theorem onCh_mram (c : Nat) (f : Channel → Channel) : (onCh c f s).mram = s.mram := rfl
@[simp] theorem onCh_flash (c : Nat) (f : Channel → Channel) : (onCh c f s).flash = s.flash := rfl
@[simp] theorem onCh_log (c : Nat) (f : Channel → Channel) : (onCh c f s).log = s.log := rfl
@[simp] theorem onCh_fw (c : Nat) (f : Channel → Channel) : (onCh c f s).fw = s.fw := rfl
@[simp] theorem onCh_manifest (c : Nat) (f : Channel → Channel) : (onCh c f s).manifest = s.manifest := rfl
@[simp] theorem onCh_spdm (c : Nat) (f : Channel → Channel) : (onCh c f s).spdm = s.spdm := rfl
@[simp] theorem onCh_pcie (c : Nat) (f : Channel → Channel) : (onCh c f s).pcie = s.pcie := rfl
@[simp] theorem onCh_host (c : Nat) (f : Channel → Channel) : (onCh c f s).host = s.host := rfl
@[simp] theorem onCh_counters (c : Nat) (f : Channel → Channel) : (onCh c f s).counters = s.counters := rfl
@[simp] theorem onCh_dict (c : Nat) (f : Channel → Channel) : (onCh c f s).dict = s.dict := rfl
@[simp] theorem onCh_can (c : Nat) (f : Channel → Channel) : (onCh c f s).can = s.can := rfl
@[simp] theorem onCh_bist (c : Nat) (f : Channel → Channel) : (onCh c f s).bist = s.bist := rfl
@[simp] theorem onCh_dev (c : Nat) (f : Channel → Channel) : (onCh c f s).dev = s.dev := rfl
@[simp] theorem onCh_violations (c : Nat) (f : Channel → Channel) : (onCh c f s).violations = s.violations := rfl
@[simp] theorem onCh_queues (c : Nat) (f : Channel → Channel) : (onCh c f s).queues = s.queues := rfl
@[simp] theorem onCh_jobs (c : Nat) (f : Channel → Channel) : (onCh c f s).jobs = s.jobs := rfl
@[simp] theorem onCh_nextJob (c : Nat) (f : Channel → Channel) : (onCh c f s).nextJob = s.nextJob := rfl
@[simp] theorem onCh_berths (c : Nat) (f : Channel → Channel) : (onCh c f s).berths = s.berths := rfl
@[simp] theorem onCh_cores (c : Nat) (f : Channel → Channel) : (onCh c f s).cores = s.cores := rfl
@[simp] theorem onCh_pilot (c : Nat) (f : Channel → Channel) : (onCh c f s).pilot = s.pilot := rfl
@[simp] theorem onCh_runs (c : Nat) (f : Channel → Channel) : (onCh c f s).runs = s.runs := rfl
@[simp] theorem onCh_scans (c : Nat) (f : Channel → Channel) : (onCh c f s).scans = s.scans := rfl
@[simp] theorem onCh_nextScan (c : Nat) (f : Channel → Channel) : (onCh c f s).nextScan = s.nextScan := rfl
@[simp] theorem onCh_quays (c : Nat) (f : Channel → Channel) : (onCh c f s).quays = s.quays := rfl
@[simp] theorem onCh_canopy (c : Nat) (f : Channel → Channel) : (onCh c f s).canopy = s.canopy := rfl

/-! ## onSub -/

@[simp] theorem onSub_pending (x : Nat) (f : Subchannel → Subchannel) : (onSub x f s).pending = s.pending := rfl
@[simp] theorem onSub_sys (x : Nat) (f : Subchannel → Subchannel) : (onSub x f s).sys = s.sys := rfl
@[simp] theorem onSub_present (x : Nat) (f : Subchannel → Subchannel) : (onSub x f s).present = s.present := rfl
@[simp] theorem onSub_mram (x : Nat) (f : Subchannel → Subchannel) : (onSub x f s).mram = s.mram := rfl
@[simp] theorem onSub_flash (x : Nat) (f : Subchannel → Subchannel) : (onSub x f s).flash = s.flash := rfl
@[simp] theorem onSub_log (x : Nat) (f : Subchannel → Subchannel) : (onSub x f s).log = s.log := rfl
@[simp] theorem onSub_fw (x : Nat) (f : Subchannel → Subchannel) : (onSub x f s).fw = s.fw := rfl
@[simp] theorem onSub_manifest (x : Nat) (f : Subchannel → Subchannel) : (onSub x f s).manifest = s.manifest := rfl
@[simp] theorem onSub_spdm (x : Nat) (f : Subchannel → Subchannel) : (onSub x f s).spdm = s.spdm := rfl
@[simp] theorem onSub_pcie (x : Nat) (f : Subchannel → Subchannel) : (onSub x f s).pcie = s.pcie := rfl
@[simp] theorem onSub_host (x : Nat) (f : Subchannel → Subchannel) : (onSub x f s).host = s.host := rfl
@[simp] theorem onSub_counters (x : Nat) (f : Subchannel → Subchannel) : (onSub x f s).counters = s.counters := rfl
@[simp] theorem onSub_dict (x : Nat) (f : Subchannel → Subchannel) : (onSub x f s).dict = s.dict := rfl
@[simp] theorem onSub_can (x : Nat) (f : Subchannel → Subchannel) : (onSub x f s).can = s.can := rfl
@[simp] theorem onSub_bist (x : Nat) (f : Subchannel → Subchannel) : (onSub x f s).bist = s.bist := rfl
@[simp] theorem onSub_violations (x : Nat) (f : Subchannel → Subchannel) : (onSub x f s).violations = s.violations := rfl
@[simp] theorem onSub_queues (x : Nat) (f : Subchannel → Subchannel) : (onSub x f s).queues = s.queues := rfl
@[simp] theorem onSub_jobs (x : Nat) (f : Subchannel → Subchannel) : (onSub x f s).jobs = s.jobs := rfl
@[simp] theorem onSub_nextJob (x : Nat) (f : Subchannel → Subchannel) : (onSub x f s).nextJob = s.nextJob := rfl
@[simp] theorem onSub_berths (x : Nat) (f : Subchannel → Subchannel) : (onSub x f s).berths = s.berths := rfl
@[simp] theorem onSub_eng (x : Nat) (f : Subchannel → Subchannel) : (onSub x f s).eng = s.eng := rfl
@[simp] theorem onSub_cores (x : Nat) (f : Subchannel → Subchannel) : (onSub x f s).cores = s.cores := rfl
@[simp] theorem onSub_pilot (x : Nat) (f : Subchannel → Subchannel) : (onSub x f s).pilot = s.pilot := rfl
@[simp] theorem onSub_runs (x : Nat) (f : Subchannel → Subchannel) : (onSub x f s).runs = s.runs := rfl
@[simp] theorem onSub_scans (x : Nat) (f : Subchannel → Subchannel) : (onSub x f s).scans = s.scans := rfl
@[simp] theorem onSub_nextScan (x : Nat) (f : Subchannel → Subchannel) : (onSub x f s).nextScan = s.nextScan := rfl
@[simp] theorem onSub_quays (x : Nat) (f : Subchannel → Subchannel) : (onSub x f s).quays = s.quays := rfl
@[simp] theorem onSub_canopy (x : Nat) (f : Subchannel → Subchannel) : (onSub x f s).canopy = s.canopy := rfl

/-! ## withCore -/

@[simp] theorem withCore_pending (c : Fin 129) (k : Core) : (withCore c k s).pending = s.pending := rfl
@[simp] theorem withCore_sys (c : Fin 129) (k : Core) : (withCore c k s).sys = s.sys := rfl
@[simp] theorem withCore_present (c : Fin 129) (k : Core) : (withCore c k s).present = s.present := rfl
@[simp] theorem withCore_mram (c : Fin 129) (k : Core) : (withCore c k s).mram = s.mram := rfl
@[simp] theorem withCore_flash (c : Fin 129) (k : Core) : (withCore c k s).flash = s.flash := rfl
@[simp] theorem withCore_log (c : Fin 129) (k : Core) : (withCore c k s).log = s.log := rfl
@[simp] theorem withCore_fw (c : Fin 129) (k : Core) : (withCore c k s).fw = s.fw := rfl
@[simp] theorem withCore_manifest (c : Fin 129) (k : Core) : (withCore c k s).manifest = s.manifest := rfl
@[simp] theorem withCore_spdm (c : Fin 129) (k : Core) : (withCore c k s).spdm = s.spdm := rfl
@[simp] theorem withCore_pcie (c : Fin 129) (k : Core) : (withCore c k s).pcie = s.pcie := rfl
@[simp] theorem withCore_host (c : Fin 129) (k : Core) : (withCore c k s).host = s.host := rfl
@[simp] theorem withCore_counters (c : Fin 129) (k : Core) : (withCore c k s).counters = s.counters := rfl
@[simp] theorem withCore_dict (c : Fin 129) (k : Core) : (withCore c k s).dict = s.dict := rfl
@[simp] theorem withCore_can (c : Fin 129) (k : Core) : (withCore c k s).can = s.can := rfl
@[simp] theorem withCore_bist (c : Fin 129) (k : Core) : (withCore c k s).bist = s.bist := rfl
@[simp] theorem withCore_dev (c : Fin 129) (k : Core) : (withCore c k s).dev = s.dev := rfl
@[simp] theorem withCore_violations (c : Fin 129) (k : Core) : (withCore c k s).violations = s.violations := rfl
@[simp] theorem withCore_queues (c : Fin 129) (k : Core) : (withCore c k s).queues = s.queues := rfl
@[simp] theorem withCore_jobs (c : Fin 129) (k : Core) : (withCore c k s).jobs = s.jobs := rfl
@[simp] theorem withCore_nextJob (c : Fin 129) (k : Core) : (withCore c k s).nextJob = s.nextJob := rfl
@[simp] theorem withCore_berths (c : Fin 129) (k : Core) : (withCore c k s).berths = s.berths := rfl
@[simp] theorem withCore_eng (c : Fin 129) (k : Core) : (withCore c k s).eng = s.eng := rfl
@[simp] theorem withCore_pilot (c : Fin 129) (k : Core) : (withCore c k s).pilot = s.pilot := rfl
@[simp] theorem withCore_runs (c : Fin 129) (k : Core) : (withCore c k s).runs = s.runs := rfl
@[simp] theorem withCore_scans (c : Fin 129) (k : Core) : (withCore c k s).scans = s.scans := rfl
@[simp] theorem withCore_nextScan (c : Fin 129) (k : Core) : (withCore c k s).nextScan = s.nextScan := rfl
@[simp] theorem withCore_quays (c : Fin 129) (k : Core) : (withCore c k s).quays = s.quays := rfl
@[simp] theorem withCore_canopy (c : Fin 129) (k : Core) : (withCore c k s).canopy = s.canopy := rfl

/-! ## withTask -/

@[simp] theorem withTask_pending (t : Nat) (x : Task) : (withTask t x s).pending = s.pending := rfl
@[simp] theorem withTask_sys (t : Nat) (x : Task) : (withTask t x s).sys = s.sys := rfl
@[simp] theorem withTask_present (t : Nat) (x : Task) : (withTask t x s).present = s.present := rfl
@[simp] theorem withTask_mram (t : Nat) (x : Task) : (withTask t x s).mram = s.mram := rfl
@[simp] theorem withTask_flash (t : Nat) (x : Task) : (withTask t x s).flash = s.flash := rfl
@[simp] theorem withTask_log (t : Nat) (x : Task) : (withTask t x s).log = s.log := rfl
@[simp] theorem withTask_fw (t : Nat) (x : Task) : (withTask t x s).fw = s.fw := rfl
@[simp] theorem withTask_manifest (t : Nat) (x : Task) : (withTask t x s).manifest = s.manifest := rfl
@[simp] theorem withTask_spdm (t : Nat) (x : Task) : (withTask t x s).spdm = s.spdm := rfl
@[simp] theorem withTask_pcie (t : Nat) (x : Task) : (withTask t x s).pcie = s.pcie := rfl
@[simp] theorem withTask_host (t : Nat) (x : Task) : (withTask t x s).host = s.host := rfl
@[simp] theorem withTask_counters (t : Nat) (x : Task) : (withTask t x s).counters = s.counters := rfl
@[simp] theorem withTask_dict (t : Nat) (x : Task) : (withTask t x s).dict = s.dict := rfl
@[simp] theorem withTask_can (t : Nat) (x : Task) : (withTask t x s).can = s.can := rfl
@[simp] theorem withTask_bist (t : Nat) (x : Task) : (withTask t x s).bist = s.bist := rfl
@[simp] theorem withTask_dev (t : Nat) (x : Task) : (withTask t x s).dev = s.dev := rfl
@[simp] theorem withTask_violations (t : Nat) (x : Task) : (withTask t x s).violations = s.violations := rfl
@[simp] theorem withTask_queues (t : Nat) (x : Task) : (withTask t x s).queues = s.queues := rfl
@[simp] theorem withTask_jobs (t : Nat) (x : Task) : (withTask t x s).jobs = s.jobs := rfl
@[simp] theorem withTask_nextJob (t : Nat) (x : Task) : (withTask t x s).nextJob = s.nextJob := rfl
@[simp] theorem withTask_berths (t : Nat) (x : Task) : (withTask t x s).berths = s.berths := rfl
@[simp] theorem withTask_eng (t : Nat) (x : Task) : (withTask t x s).eng = s.eng := rfl
@[simp] theorem withTask_cores (t : Nat) (x : Task) : (withTask t x s).cores = s.cores := rfl
@[simp] theorem withTask_runs (t : Nat) (x : Task) : (withTask t x s).runs = s.runs := rfl
@[simp] theorem withTask_scans (t : Nat) (x : Task) : (withTask t x s).scans = s.scans := rfl
@[simp] theorem withTask_nextScan (t : Nat) (x : Task) : (withTask t x s).nextScan = s.nextScan := rfl
@[simp] theorem withTask_quays (t : Nat) (x : Task) : (withTask t x s).quays = s.quays := rfl
@[simp] theorem withTask_canopy (t : Nat) (x : Task) : (withTask t x s).canopy = s.canopy := rfl

/-! ## onTable -/

@[simp] theorem onTable_pending (t : Nat) (f : CTable → CTable) : (onTable t f s).pending = s.pending := by unfold onTable; split <;> rfl
@[simp] theorem onTable_sys (t : Nat) (f : CTable → CTable) : (onTable t f s).sys = s.sys := by unfold onTable; split <;> rfl
@[simp] theorem onTable_present (t : Nat) (f : CTable → CTable) : (onTable t f s).present = s.present := by unfold onTable; split <;> rfl
@[simp] theorem onTable_mram (t : Nat) (f : CTable → CTable) : (onTable t f s).mram = s.mram := by unfold onTable; split <;> rfl
@[simp] theorem onTable_flash (t : Nat) (f : CTable → CTable) : (onTable t f s).flash = s.flash := by unfold onTable; split <;> rfl
@[simp] theorem onTable_log (t : Nat) (f : CTable → CTable) : (onTable t f s).log = s.log := by unfold onTable; split <;> rfl
@[simp] theorem onTable_fw (t : Nat) (f : CTable → CTable) : (onTable t f s).fw = s.fw := by unfold onTable; split <;> rfl
@[simp] theorem onTable_manifest (t : Nat) (f : CTable → CTable) : (onTable t f s).manifest = s.manifest := by unfold onTable; split <;> rfl
@[simp] theorem onTable_spdm (t : Nat) (f : CTable → CTable) : (onTable t f s).spdm = s.spdm := by unfold onTable; split <;> rfl
@[simp] theorem onTable_pcie (t : Nat) (f : CTable → CTable) : (onTable t f s).pcie = s.pcie := by unfold onTable; split <;> rfl
@[simp] theorem onTable_host (t : Nat) (f : CTable → CTable) : (onTable t f s).host = s.host := by unfold onTable; split <;> rfl
@[simp] theorem onTable_counters (t : Nat) (f : CTable → CTable) : (onTable t f s).counters = s.counters := by unfold onTable; split <;> rfl
@[simp] theorem onTable_dict (t : Nat) (f : CTable → CTable) : (onTable t f s).dict = s.dict := by unfold onTable; split <;> rfl
@[simp] theorem onTable_can (t : Nat) (f : CTable → CTable) : (onTable t f s).can = s.can := by unfold onTable; split <;> rfl
@[simp] theorem onTable_bist (t : Nat) (f : CTable → CTable) : (onTable t f s).bist = s.bist := by unfold onTable; split <;> rfl
@[simp] theorem onTable_dev (t : Nat) (f : CTable → CTable) : (onTable t f s).dev = s.dev := by unfold onTable; split <;> rfl
@[simp] theorem onTable_violations (t : Nat) (f : CTable → CTable) : (onTable t f s).violations = s.violations := by unfold onTable; split <;> rfl
@[simp] theorem onTable_queues (t : Nat) (f : CTable → CTable) : (onTable t f s).queues = s.queues := by unfold onTable; split <;> rfl
@[simp] theorem onTable_jobs (t : Nat) (f : CTable → CTable) : (onTable t f s).jobs = s.jobs := by unfold onTable; split <;> rfl
@[simp] theorem onTable_nextJob (t : Nat) (f : CTable → CTable) : (onTable t f s).nextJob = s.nextJob := by unfold onTable; split <;> rfl
@[simp] theorem onTable_berths (t : Nat) (f : CTable → CTable) : (onTable t f s).berths = s.berths := by unfold onTable; split <;> rfl
@[simp] theorem onTable_eng (t : Nat) (f : CTable → CTable) : (onTable t f s).eng = s.eng := by unfold onTable; split <;> rfl
@[simp] theorem onTable_cores (t : Nat) (f : CTable → CTable) : (onTable t f s).cores = s.cores := by unfold onTable; split <;> rfl
@[simp] theorem onTable_pilot (t : Nat) (f : CTable → CTable) : (onTable t f s).pilot = s.pilot := by unfold onTable; split <;> rfl
@[simp] theorem onTable_runs (t : Nat) (f : CTable → CTable) : (onTable t f s).runs = s.runs := by unfold onTable; split <;> rfl
@[simp] theorem onTable_scans (t : Nat) (f : CTable → CTable) : (onTable t f s).scans = s.scans := by unfold onTable; split <;> rfl
@[simp] theorem onTable_nextScan (t : Nat) (f : CTable → CTable) : (onTable t f s).nextScan = s.nextScan := by unfold onTable; split <;> rfl
@[simp] theorem onTable_quays (t : Nat) (f : CTable → CTable) : (onTable t f s).quays = s.quays := by unfold onTable; split <;> rfl

/-! ## onJ -/

@[simp] theorem onJ_pending (j : Nat) (f : Job → Job) : (onJ j f s).pending = s.pending := by unfold onJ; split <;> rfl
@[simp] theorem onJ_sys (j : Nat) (f : Job → Job) : (onJ j f s).sys = s.sys := by unfold onJ; split <;> rfl
@[simp] theorem onJ_present (j : Nat) (f : Job → Job) : (onJ j f s).present = s.present := by unfold onJ; split <;> rfl
@[simp] theorem onJ_mram (j : Nat) (f : Job → Job) : (onJ j f s).mram = s.mram := by unfold onJ; split <;> rfl
@[simp] theorem onJ_flash (j : Nat) (f : Job → Job) : (onJ j f s).flash = s.flash := by unfold onJ; split <;> rfl
@[simp] theorem onJ_log (j : Nat) (f : Job → Job) : (onJ j f s).log = s.log := by unfold onJ; split <;> rfl
@[simp] theorem onJ_fw (j : Nat) (f : Job → Job) : (onJ j f s).fw = s.fw := by unfold onJ; split <;> rfl
@[simp] theorem onJ_manifest (j : Nat) (f : Job → Job) : (onJ j f s).manifest = s.manifest := by unfold onJ; split <;> rfl
@[simp] theorem onJ_spdm (j : Nat) (f : Job → Job) : (onJ j f s).spdm = s.spdm := by unfold onJ; split <;> rfl
@[simp] theorem onJ_pcie (j : Nat) (f : Job → Job) : (onJ j f s).pcie = s.pcie := by unfold onJ; split <;> rfl
@[simp] theorem onJ_host (j : Nat) (f : Job → Job) : (onJ j f s).host = s.host := by unfold onJ; split <;> rfl
@[simp] theorem onJ_counters (j : Nat) (f : Job → Job) : (onJ j f s).counters = s.counters := by unfold onJ; split <;> rfl
@[simp] theorem onJ_dict (j : Nat) (f : Job → Job) : (onJ j f s).dict = s.dict := by unfold onJ; split <;> rfl
@[simp] theorem onJ_can (j : Nat) (f : Job → Job) : (onJ j f s).can = s.can := by unfold onJ; split <;> rfl
@[simp] theorem onJ_bist (j : Nat) (f : Job → Job) : (onJ j f s).bist = s.bist := by unfold onJ; split <;> rfl
@[simp] theorem onJ_dev (j : Nat) (f : Job → Job) : (onJ j f s).dev = s.dev := by unfold onJ; split <;> rfl
@[simp] theorem onJ_violations (j : Nat) (f : Job → Job) : (onJ j f s).violations = s.violations := by unfold onJ; split <;> rfl
@[simp] theorem onJ_queues (j : Nat) (f : Job → Job) : (onJ j f s).queues = s.queues := by unfold onJ; split <;> rfl
@[simp] theorem onJ_nextJob (j : Nat) (f : Job → Job) : (onJ j f s).nextJob = s.nextJob := by unfold onJ; split <;> rfl
@[simp] theorem onJ_berths (j : Nat) (f : Job → Job) : (onJ j f s).berths = s.berths := by unfold onJ; split <;> rfl
@[simp] theorem onJ_eng (j : Nat) (f : Job → Job) : (onJ j f s).eng = s.eng := by unfold onJ; split <;> rfl
@[simp] theorem onJ_cores (j : Nat) (f : Job → Job) : (onJ j f s).cores = s.cores := by unfold onJ; split <;> rfl
@[simp] theorem onJ_pilot (j : Nat) (f : Job → Job) : (onJ j f s).pilot = s.pilot := by unfold onJ; split <;> rfl
@[simp] theorem onJ_runs (j : Nat) (f : Job → Job) : (onJ j f s).runs = s.runs := by unfold onJ; split <;> rfl
@[simp] theorem onJ_scans (j : Nat) (f : Job → Job) : (onJ j f s).scans = s.scans := by unfold onJ; split <;> rfl
@[simp] theorem onJ_nextScan (j : Nat) (f : Job → Job) : (onJ j f s).nextScan = s.nextScan := by unfold onJ; split <;> rfl
@[simp] theorem onJ_quays (j : Nat) (f : Job → Job) : (onJ j f s).quays = s.quays := by unfold onJ; split <;> rfl
@[simp] theorem onJ_canopy (j : Nat) (f : Job → Job) : (onJ j f s).canopy = s.canopy := by unfold onJ; split <;> rfl

/-! ## onScan -/

@[simp] theorem onScan_pending (t : Nat) (f : ScanTask → ScanTask) : (onScan t f s).pending = s.pending := by unfold onScan; split <;> rfl
@[simp] theorem onScan_sys (t : Nat) (f : ScanTask → ScanTask) : (onScan t f s).sys = s.sys := by unfold onScan; split <;> rfl
@[simp] theorem onScan_present (t : Nat) (f : ScanTask → ScanTask) : (onScan t f s).present = s.present := by unfold onScan; split <;> rfl
@[simp] theorem onScan_mram (t : Nat) (f : ScanTask → ScanTask) : (onScan t f s).mram = s.mram := by unfold onScan; split <;> rfl
@[simp] theorem onScan_flash (t : Nat) (f : ScanTask → ScanTask) : (onScan t f s).flash = s.flash := by unfold onScan; split <;> rfl
@[simp] theorem onScan_log (t : Nat) (f : ScanTask → ScanTask) : (onScan t f s).log = s.log := by unfold onScan; split <;> rfl
@[simp] theorem onScan_fw (t : Nat) (f : ScanTask → ScanTask) : (onScan t f s).fw = s.fw := by unfold onScan; split <;> rfl
@[simp] theorem onScan_manifest (t : Nat) (f : ScanTask → ScanTask) : (onScan t f s).manifest = s.manifest := by unfold onScan; split <;> rfl
@[simp] theorem onScan_spdm (t : Nat) (f : ScanTask → ScanTask) : (onScan t f s).spdm = s.spdm := by unfold onScan; split <;> rfl
@[simp] theorem onScan_pcie (t : Nat) (f : ScanTask → ScanTask) : (onScan t f s).pcie = s.pcie := by unfold onScan; split <;> rfl
@[simp] theorem onScan_host (t : Nat) (f : ScanTask → ScanTask) : (onScan t f s).host = s.host := by unfold onScan; split <;> rfl
@[simp] theorem onScan_counters (t : Nat) (f : ScanTask → ScanTask) : (onScan t f s).counters = s.counters := by unfold onScan; split <;> rfl
@[simp] theorem onScan_dict (t : Nat) (f : ScanTask → ScanTask) : (onScan t f s).dict = s.dict := by unfold onScan; split <;> rfl
@[simp] theorem onScan_can (t : Nat) (f : ScanTask → ScanTask) : (onScan t f s).can = s.can := by unfold onScan; split <;> rfl
@[simp] theorem onScan_bist (t : Nat) (f : ScanTask → ScanTask) : (onScan t f s).bist = s.bist := by unfold onScan; split <;> rfl
@[simp] theorem onScan_dev (t : Nat) (f : ScanTask → ScanTask) : (onScan t f s).dev = s.dev := by unfold onScan; split <;> rfl
@[simp] theorem onScan_violations (t : Nat) (f : ScanTask → ScanTask) : (onScan t f s).violations = s.violations := by unfold onScan; split <;> rfl
@[simp] theorem onScan_queues (t : Nat) (f : ScanTask → ScanTask) : (onScan t f s).queues = s.queues := by unfold onScan; split <;> rfl
@[simp] theorem onScan_jobs (t : Nat) (f : ScanTask → ScanTask) : (onScan t f s).jobs = s.jobs := by unfold onScan; split <;> rfl
@[simp] theorem onScan_nextJob (t : Nat) (f : ScanTask → ScanTask) : (onScan t f s).nextJob = s.nextJob := by unfold onScan; split <;> rfl
@[simp] theorem onScan_berths (t : Nat) (f : ScanTask → ScanTask) : (onScan t f s).berths = s.berths := by unfold onScan; split <;> rfl
@[simp] theorem onScan_eng (t : Nat) (f : ScanTask → ScanTask) : (onScan t f s).eng = s.eng := by unfold onScan; split <;> rfl
@[simp] theorem onScan_cores (t : Nat) (f : ScanTask → ScanTask) : (onScan t f s).cores = s.cores := by unfold onScan; split <;> rfl
@[simp] theorem onScan_pilot (t : Nat) (f : ScanTask → ScanTask) : (onScan t f s).pilot = s.pilot := by unfold onScan; split <;> rfl
@[simp] theorem onScan_runs (t : Nat) (f : ScanTask → ScanTask) : (onScan t f s).runs = s.runs := by unfold onScan; split <;> rfl
@[simp] theorem onScan_nextScan (t : Nat) (f : ScanTask → ScanTask) : (onScan t f s).nextScan = s.nextScan := by unfold onScan; split <;> rfl
@[simp] theorem onScan_quays (t : Nat) (f : ScanTask → ScanTask) : (onScan t f s).quays = s.quays := by unfold onScan; split <;> rfl
@[simp] theorem onScan_canopy (t : Nat) (f : ScanTask → ScanTask) : (onScan t f s).canopy = s.canopy := by unfold onScan; split <;> rfl

/-! ## onR -/

@[simp] theorem onR_pending (j : Nat) (f : Run → Run) : (onR j f s).pending = s.pending := by unfold onR; split <;> rfl
@[simp] theorem onR_sys (j : Nat) (f : Run → Run) : (onR j f s).sys = s.sys := by unfold onR; split <;> rfl
@[simp] theorem onR_present (j : Nat) (f : Run → Run) : (onR j f s).present = s.present := by unfold onR; split <;> rfl
@[simp] theorem onR_mram (j : Nat) (f : Run → Run) : (onR j f s).mram = s.mram := by unfold onR; split <;> rfl
@[simp] theorem onR_flash (j : Nat) (f : Run → Run) : (onR j f s).flash = s.flash := by unfold onR; split <;> rfl
@[simp] theorem onR_log (j : Nat) (f : Run → Run) : (onR j f s).log = s.log := by unfold onR; split <;> rfl
@[simp] theorem onR_fw (j : Nat) (f : Run → Run) : (onR j f s).fw = s.fw := by unfold onR; split <;> rfl
@[simp] theorem onR_manifest (j : Nat) (f : Run → Run) : (onR j f s).manifest = s.manifest := by unfold onR; split <;> rfl
@[simp] theorem onR_spdm (j : Nat) (f : Run → Run) : (onR j f s).spdm = s.spdm := by unfold onR; split <;> rfl
@[simp] theorem onR_pcie (j : Nat) (f : Run → Run) : (onR j f s).pcie = s.pcie := by unfold onR; split <;> rfl
@[simp] theorem onR_host (j : Nat) (f : Run → Run) : (onR j f s).host = s.host := by unfold onR; split <;> rfl
@[simp] theorem onR_counters (j : Nat) (f : Run → Run) : (onR j f s).counters = s.counters := by unfold onR; split <;> rfl
@[simp] theorem onR_dict (j : Nat) (f : Run → Run) : (onR j f s).dict = s.dict := by unfold onR; split <;> rfl
@[simp] theorem onR_can (j : Nat) (f : Run → Run) : (onR j f s).can = s.can := by unfold onR; split <;> rfl
@[simp] theorem onR_bist (j : Nat) (f : Run → Run) : (onR j f s).bist = s.bist := by unfold onR; split <;> rfl
@[simp] theorem onR_dev (j : Nat) (f : Run → Run) : (onR j f s).dev = s.dev := by unfold onR; split <;> rfl
@[simp] theorem onR_violations (j : Nat) (f : Run → Run) : (onR j f s).violations = s.violations := by unfold onR; split <;> rfl
@[simp] theorem onR_queues (j : Nat) (f : Run → Run) : (onR j f s).queues = s.queues := by unfold onR; split <;> rfl
@[simp] theorem onR_jobs (j : Nat) (f : Run → Run) : (onR j f s).jobs = s.jobs := by unfold onR; split <;> rfl
@[simp] theorem onR_nextJob (j : Nat) (f : Run → Run) : (onR j f s).nextJob = s.nextJob := by unfold onR; split <;> rfl
@[simp] theorem onR_berths (j : Nat) (f : Run → Run) : (onR j f s).berths = s.berths := by unfold onR; split <;> rfl
@[simp] theorem onR_eng (j : Nat) (f : Run → Run) : (onR j f s).eng = s.eng := by unfold onR; split <;> rfl
@[simp] theorem onR_cores (j : Nat) (f : Run → Run) : (onR j f s).cores = s.cores := by unfold onR; split <;> rfl
@[simp] theorem onR_pilot (j : Nat) (f : Run → Run) : (onR j f s).pilot = s.pilot := by unfold onR; split <;> rfl
@[simp] theorem onR_scans (j : Nat) (f : Run → Run) : (onR j f s).scans = s.scans := by unfold onR; split <;> rfl
@[simp] theorem onR_nextScan (j : Nat) (f : Run → Run) : (onR j f s).nextScan = s.nextScan := by unfold onR; split <;> rfl
@[simp] theorem onR_quays (j : Nat) (f : Run → Run) : (onR j f s).quays = s.quays := by unfold onR; split <;> rfl
@[simp] theorem onR_canopy (j : Nat) (f : Run → Run) : (onR j f s).canopy = s.canopy := by unfold onR; split <;> rfl

end Sys2Proof.Machine
end

