-- ==== Sys2Proof/Laws/Shared.lean ====
section
/-! SUPPORT. What the shared operations touch, said once for each as a record update, and the fields they leave alone. -/

namespace Sys2Proof.Machine

variable (s : State)

theorem onJ_frame (j : Nat) (f : Job → Job) : onJ j f s = { s with jobs := (onJ j f s).jobs } := by
  unfold onJ; split <;> rfl
theorem onR_frame (j : Nat) (f : Run → Run) : onR j f s = { s with runs := (onR j f s).runs } := by
  unfold onR; split <;> rfl
theorem onScan_frame (j : Nat) (f : ScanTask → ScanTask) : onScan j f s = { s with scans := (onScan j f s).scans } := by
  unfold onScan; split <;> rfl
theorem onTable_frame (j : Nat) (f : CTable → CTable) : onTable j f s = { s with canopy := (onTable j f s).canopy } := by
  unfold onTable; split <;> rfl

/-! ## sendMsix -/

theorem sendMsix_frame (v : Nat) : sendMsix v s =
    { s with pcie := (sendMsix v s).pcie } := by
  unfold sendMsix; simp only; split
  · rfl
  · split <;> rfl
@[simp] theorem sendMsix_pending (v : Nat) : (sendMsix v s).pending = s.pending := by rw [sendMsix_frame]
@[simp] theorem sendMsix_sys (v : Nat) : (sendMsix v s).sys = s.sys := by rw [sendMsix_frame]
@[simp] theorem sendMsix_present (v : Nat) : (sendMsix v s).present = s.present := by rw [sendMsix_frame]
@[simp] theorem sendMsix_mram (v : Nat) : (sendMsix v s).mram = s.mram := by rw [sendMsix_frame]
@[simp] theorem sendMsix_flash (v : Nat) : (sendMsix v s).flash = s.flash := by rw [sendMsix_frame]
@[simp] theorem sendMsix_log (v : Nat) : (sendMsix v s).log = s.log := by rw [sendMsix_frame]
@[simp] theorem sendMsix_fw (v : Nat) : (sendMsix v s).fw = s.fw := by rw [sendMsix_frame]
@[simp] theorem sendMsix_manifest (v : Nat) : (sendMsix v s).manifest = s.manifest := by rw [sendMsix_frame]
@[simp] theorem sendMsix_spdm (v : Nat) : (sendMsix v s).spdm = s.spdm := by rw [sendMsix_frame]
@[simp] theorem sendMsix_host (v : Nat) : (sendMsix v s).host = s.host := by rw [sendMsix_frame]
@[simp] theorem sendMsix_counters (v : Nat) : (sendMsix v s).counters = s.counters := by rw [sendMsix_frame]
@[simp] theorem sendMsix_dict (v : Nat) : (sendMsix v s).dict = s.dict := by rw [sendMsix_frame]
@[simp] theorem sendMsix_can (v : Nat) : (sendMsix v s).can = s.can := by rw [sendMsix_frame]
@[simp] theorem sendMsix_bist (v : Nat) : (sendMsix v s).bist = s.bist := by rw [sendMsix_frame]
@[simp] theorem sendMsix_dev (v : Nat) : (sendMsix v s).dev = s.dev := by rw [sendMsix_frame]
@[simp] theorem sendMsix_violations (v : Nat) : (sendMsix v s).violations = s.violations := by rw [sendMsix_frame]
@[simp] theorem sendMsix_queues (v : Nat) : (sendMsix v s).queues = s.queues := by rw [sendMsix_frame]
@[simp] theorem sendMsix_jobs (v : Nat) : (sendMsix v s).jobs = s.jobs := by rw [sendMsix_frame]
@[simp] theorem sendMsix_nextJob (v : Nat) : (sendMsix v s).nextJob = s.nextJob := by rw [sendMsix_frame]
@[simp] theorem sendMsix_berths (v : Nat) : (sendMsix v s).berths = s.berths := by rw [sendMsix_frame]
@[simp] theorem sendMsix_eng (v : Nat) : (sendMsix v s).eng = s.eng := by rw [sendMsix_frame]
@[simp] theorem sendMsix_cores (v : Nat) : (sendMsix v s).cores = s.cores := by rw [sendMsix_frame]
@[simp] theorem sendMsix_pilot (v : Nat) : (sendMsix v s).pilot = s.pilot := by rw [sendMsix_frame]
@[simp] theorem sendMsix_runs (v : Nat) : (sendMsix v s).runs = s.runs := by rw [sendMsix_frame]
@[simp] theorem sendMsix_scans (v : Nat) : (sendMsix v s).scans = s.scans := by rw [sendMsix_frame]
@[simp] theorem sendMsix_nextScan (v : Nat) : (sendMsix v s).nextScan = s.nextScan := by rw [sendMsix_frame]
@[simp] theorem sendMsix_quays (v : Nat) : (sendMsix v s).quays = s.quays := by rw [sendMsix_frame]
@[simp] theorem sendMsix_canopy (v : Nat) : (sendMsix v s).canopy = s.canopy := by rw [sendMsix_frame]

/-! ## signalVector -/

theorem signalVector_frame (v : Nat) : signalVector v s =
    { s with pcie := (signalVector v s).pcie } := by
  unfold signalVector; split
  · rfl
  · split
    · rfl
    · exact sendMsix_frame s v
@[simp] theorem signalVector_pending (v : Nat) : (signalVector v s).pending = s.pending := by rw [signalVector_frame]
@[simp] theorem signalVector_sys (v : Nat) : (signalVector v s).sys = s.sys := by rw [signalVector_frame]
@[simp] theorem signalVector_present (v : Nat) : (signalVector v s).present = s.present := by rw [signalVector_frame]
@[simp] theorem signalVector_mram (v : Nat) : (signalVector v s).mram = s.mram := by rw [signalVector_frame]
@[simp] theorem signalVector_flash (v : Nat) : (signalVector v s).flash = s.flash := by rw [signalVector_frame]
@[simp] theorem signalVector_log (v : Nat) : (signalVector v s).log = s.log := by rw [signalVector_frame]
@[simp] theorem signalVector_fw (v : Nat) : (signalVector v s).fw = s.fw := by rw [signalVector_frame]
@[simp] theorem signalVector_manifest (v : Nat) : (signalVector v s).manifest = s.manifest := by rw [signalVector_frame]
@[simp] theorem signalVector_spdm (v : Nat) : (signalVector v s).spdm = s.spdm := by rw [signalVector_frame]
@[simp] theorem signalVector_host (v : Nat) : (signalVector v s).host = s.host := by rw [signalVector_frame]
@[simp] theorem signalVector_counters (v : Nat) : (signalVector v s).counters = s.counters := by rw [signalVector_frame]
@[simp] theorem signalVector_dict (v : Nat) : (signalVector v s).dict = s.dict := by rw [signalVector_frame]
@[simp] theorem signalVector_can (v : Nat) : (signalVector v s).can = s.can := by rw [signalVector_frame]
@[simp] theorem signalVector_bist (v : Nat) : (signalVector v s).bist = s.bist := by rw [signalVector_frame]
@[simp] theorem signalVector_dev (v : Nat) : (signalVector v s).dev = s.dev := by rw [signalVector_frame]
@[simp] theorem signalVector_violations (v : Nat) : (signalVector v s).violations = s.violations := by rw [signalVector_frame]
@[simp] theorem signalVector_queues (v : Nat) : (signalVector v s).queues = s.queues := by rw [signalVector_frame]
@[simp] theorem signalVector_jobs (v : Nat) : (signalVector v s).jobs = s.jobs := by rw [signalVector_frame]
@[simp] theorem signalVector_nextJob (v : Nat) : (signalVector v s).nextJob = s.nextJob := by rw [signalVector_frame]
@[simp] theorem signalVector_berths (v : Nat) : (signalVector v s).berths = s.berths := by rw [signalVector_frame]
@[simp] theorem signalVector_eng (v : Nat) : (signalVector v s).eng = s.eng := by rw [signalVector_frame]
@[simp] theorem signalVector_cores (v : Nat) : (signalVector v s).cores = s.cores := by rw [signalVector_frame]
@[simp] theorem signalVector_pilot (v : Nat) : (signalVector v s).pilot = s.pilot := by rw [signalVector_frame]
@[simp] theorem signalVector_runs (v : Nat) : (signalVector v s).runs = s.runs := by rw [signalVector_frame]
@[simp] theorem signalVector_scans (v : Nat) : (signalVector v s).scans = s.scans := by rw [signalVector_frame]
@[simp] theorem signalVector_nextScan (v : Nat) : (signalVector v s).nextScan = s.nextScan := by rw [signalVector_frame]
@[simp] theorem signalVector_quays (v : Nat) : (signalVector v s).quays = s.quays := by rw [signalVector_frame]
@[simp] theorem signalVector_canopy (v : Nat) : (signalVector v s).canopy = s.canopy := by rw [signalVector_frame]

/-! ## raiseSource -/

theorem raiseSource_frame (n : Nat) : raiseSource n s =
    { s with pcie := (raiseSource n s).pcie } := by
  unfold raiseSource; simp only; split
  · rw [signalVector_frame]; rfl
  · rfl
@[simp] theorem raiseSource_pending (n : Nat) : (raiseSource n s).pending = s.pending := by rw [raiseSource_frame]
@[simp] theorem raiseSource_sys (n : Nat) : (raiseSource n s).sys = s.sys := by rw [raiseSource_frame]
@[simp] theorem raiseSource_present (n : Nat) : (raiseSource n s).present = s.present := by rw [raiseSource_frame]
@[simp] theorem raiseSource_mram (n : Nat) : (raiseSource n s).mram = s.mram := by rw [raiseSource_frame]
@[simp] theorem raiseSource_flash (n : Nat) : (raiseSource n s).flash = s.flash := by rw [raiseSource_frame]
@[simp] theorem raiseSource_log (n : Nat) : (raiseSource n s).log = s.log := by rw [raiseSource_frame]
@[simp] theorem raiseSource_fw (n : Nat) : (raiseSource n s).fw = s.fw := by rw [raiseSource_frame]
@[simp] theorem raiseSource_manifest (n : Nat) : (raiseSource n s).manifest = s.manifest := by rw [raiseSource_frame]
@[simp] theorem raiseSource_spdm (n : Nat) : (raiseSource n s).spdm = s.spdm := by rw [raiseSource_frame]
@[simp] theorem raiseSource_host (n : Nat) : (raiseSource n s).host = s.host := by rw [raiseSource_frame]
@[simp] theorem raiseSource_counters (n : Nat) : (raiseSource n s).counters = s.counters := by rw [raiseSource_frame]
@[simp] theorem raiseSource_dict (n : Nat) : (raiseSource n s).dict = s.dict := by rw [raiseSource_frame]
@[simp] theorem raiseSource_can (n : Nat) : (raiseSource n s).can = s.can := by rw [raiseSource_frame]
@[simp] theorem raiseSource_bist (n : Nat) : (raiseSource n s).bist = s.bist := by rw [raiseSource_frame]
@[simp] theorem raiseSource_dev (n : Nat) : (raiseSource n s).dev = s.dev := by rw [raiseSource_frame]
@[simp] theorem raiseSource_violations (n : Nat) : (raiseSource n s).violations = s.violations := by rw [raiseSource_frame]
@[simp] theorem raiseSource_queues (n : Nat) : (raiseSource n s).queues = s.queues := by rw [raiseSource_frame]
@[simp] theorem raiseSource_jobs (n : Nat) : (raiseSource n s).jobs = s.jobs := by rw [raiseSource_frame]
@[simp] theorem raiseSource_nextJob (n : Nat) : (raiseSource n s).nextJob = s.nextJob := by rw [raiseSource_frame]
@[simp] theorem raiseSource_berths (n : Nat) : (raiseSource n s).berths = s.berths := by rw [raiseSource_frame]
@[simp] theorem raiseSource_eng (n : Nat) : (raiseSource n s).eng = s.eng := by rw [raiseSource_frame]
@[simp] theorem raiseSource_cores (n : Nat) : (raiseSource n s).cores = s.cores := by rw [raiseSource_frame]
@[simp] theorem raiseSource_pilot (n : Nat) : (raiseSource n s).pilot = s.pilot := by rw [raiseSource_frame]
@[simp] theorem raiseSource_runs (n : Nat) : (raiseSource n s).runs = s.runs := by rw [raiseSource_frame]
@[simp] theorem raiseSource_scans (n : Nat) : (raiseSource n s).scans = s.scans := by rw [raiseSource_frame]
@[simp] theorem raiseSource_nextScan (n : Nat) : (raiseSource n s).nextScan = s.nextScan := by rw [raiseSource_frame]
@[simp] theorem raiseSource_quays (n : Nat) : (raiseSource n s).quays = s.quays := by rw [raiseSource_frame]
@[simp] theorem raiseSource_canopy (n : Nat) : (raiseSource n s).canopy = s.canopy := by rw [raiseSource_frame]

/-! ## count -/

theorem count_frame (b : CounterBlock) (i n : Nat) : count b i n s =
    { s with counters := (count b i n s).counters, pcie := (count b i n s).pcie } := by
  unfold count; simp only; split
  · rfl
  · split
    · split
      · rw [raiseSource_frame]
      · rfl
    · rfl
@[simp] theorem count_pending (b : CounterBlock) (i n : Nat) : (count b i n s).pending = s.pending := by rw [count_frame]
@[simp] theorem count_sys (b : CounterBlock) (i n : Nat) : (count b i n s).sys = s.sys := by rw [count_frame]
@[simp] theorem count_present (b : CounterBlock) (i n : Nat) : (count b i n s).present = s.present := by rw [count_frame]
@[simp] theorem count_mram (b : CounterBlock) (i n : Nat) : (count b i n s).mram = s.mram := by rw [count_frame]
@[simp] theorem count_flash (b : CounterBlock) (i n : Nat) : (count b i n s).flash = s.flash := by rw [count_frame]
@[simp] theorem count_log (b : CounterBlock) (i n : Nat) : (count b i n s).log = s.log := by rw [count_frame]
@[simp] theorem count_fw (b : CounterBlock) (i n : Nat) : (count b i n s).fw = s.fw := by rw [count_frame]
@[simp] theorem count_manifest (b : CounterBlock) (i n : Nat) : (count b i n s).manifest = s.manifest := by rw [count_frame]
@[simp] theorem count_spdm (b : CounterBlock) (i n : Nat) : (count b i n s).spdm = s.spdm := by rw [count_frame]
@[simp] theorem count_host (b : CounterBlock) (i n : Nat) : (count b i n s).host = s.host := by rw [count_frame]
@[simp] theorem count_dict (b : CounterBlock) (i n : Nat) : (count b i n s).dict = s.dict := by rw [count_frame]
@[simp] theorem count_can (b : CounterBlock) (i n : Nat) : (count b i n s).can = s.can := by rw [count_frame]
@[simp] theorem count_bist (b : CounterBlock) (i n : Nat) : (count b i n s).bist = s.bist := by rw [count_frame]
@[simp] theorem count_dev (b : CounterBlock) (i n : Nat) : (count b i n s).dev = s.dev := by rw [count_frame]
@[simp] theorem count_violations (b : CounterBlock) (i n : Nat) : (count b i n s).violations = s.violations := by rw [count_frame]
@[simp] theorem count_queues (b : CounterBlock) (i n : Nat) : (count b i n s).queues = s.queues := by rw [count_frame]
@[simp] theorem count_jobs (b : CounterBlock) (i n : Nat) : (count b i n s).jobs = s.jobs := by rw [count_frame]
@[simp] theorem count_nextJob (b : CounterBlock) (i n : Nat) : (count b i n s).nextJob = s.nextJob := by rw [count_frame]
@[simp] theorem count_berths (b : CounterBlock) (i n : Nat) : (count b i n s).berths = s.berths := by rw [count_frame]
@[simp] theorem count_eng (b : CounterBlock) (i n : Nat) : (count b i n s).eng = s.eng := by rw [count_frame]
@[simp] theorem count_cores (b : CounterBlock) (i n : Nat) : (count b i n s).cores = s.cores := by rw [count_frame]
@[simp] theorem count_pilot (b : CounterBlock) (i n : Nat) : (count b i n s).pilot = s.pilot := by rw [count_frame]
@[simp] theorem count_runs (b : CounterBlock) (i n : Nat) : (count b i n s).runs = s.runs := by rw [count_frame]
@[simp] theorem count_scans (b : CounterBlock) (i n : Nat) : (count b i n s).scans = s.scans := by rw [count_frame]
@[simp] theorem count_nextScan (b : CounterBlock) (i n : Nat) : (count b i n s).nextScan = s.nextScan := by rw [count_frame]
@[simp] theorem count_quays (b : CounterBlock) (i n : Nat) : (count b i n s).quays = s.quays := by rw [count_frame]
@[simp] theorem count_canopy (b : CounterBlock) (i n : Nat) : (count b i n s).canopy = s.canopy := by rw [count_frame]

/-! ## queueRecord -/

theorem queueRecord_frame (r : HwRecord) : queueRecord r s =
    { s with mram := (queueRecord r s).mram, log := (queueRecord r s).log } := by
  unfold queueRecord; split
  · rfl
  · split <;> rfl
@[simp] theorem queueRecord_pending (r : HwRecord) : (queueRecord r s).pending = s.pending := by rw [queueRecord_frame]
@[simp] theorem queueRecord_sys (r : HwRecord) : (queueRecord r s).sys = s.sys := by rw [queueRecord_frame]
@[simp] theorem queueRecord_present (r : HwRecord) : (queueRecord r s).present = s.present := by rw [queueRecord_frame]
@[simp] theorem queueRecord_flash (r : HwRecord) : (queueRecord r s).flash = s.flash := by rw [queueRecord_frame]
@[simp] theorem queueRecord_fw (r : HwRecord) : (queueRecord r s).fw = s.fw := by rw [queueRecord_frame]
@[simp] theorem queueRecord_manifest (r : HwRecord) : (queueRecord r s).manifest = s.manifest := by rw [queueRecord_frame]
@[simp] theorem queueRecord_spdm (r : HwRecord) : (queueRecord r s).spdm = s.spdm := by rw [queueRecord_frame]
@[simp] theorem queueRecord_pcie (r : HwRecord) : (queueRecord r s).pcie = s.pcie := by rw [queueRecord_frame]
@[simp] theorem queueRecord_host (r : HwRecord) : (queueRecord r s).host = s.host := by rw [queueRecord_frame]
@[simp] theorem queueRecord_counters (r : HwRecord) : (queueRecord r s).counters = s.counters := by rw [queueRecord_frame]
@[simp] theorem queueRecord_dict (r : HwRecord) : (queueRecord r s).dict = s.dict := by rw [queueRecord_frame]
@[simp] theorem queueRecord_can (r : HwRecord) : (queueRecord r s).can = s.can := by rw [queueRecord_frame]
@[simp] theorem queueRecord_bist (r : HwRecord) : (queueRecord r s).bist = s.bist := by rw [queueRecord_frame]
@[simp] theorem queueRecord_dev (r : HwRecord) : (queueRecord r s).dev = s.dev := by rw [queueRecord_frame]
@[simp] theorem queueRecord_violations (r : HwRecord) : (queueRecord r s).violations = s.violations := by rw [queueRecord_frame]
@[simp] theorem queueRecord_queues (r : HwRecord) : (queueRecord r s).queues = s.queues := by rw [queueRecord_frame]
@[simp] theorem queueRecord_jobs (r : HwRecord) : (queueRecord r s).jobs = s.jobs := by rw [queueRecord_frame]
@[simp] theorem queueRecord_nextJob (r : HwRecord) : (queueRecord r s).nextJob = s.nextJob := by rw [queueRecord_frame]
@[simp] theorem queueRecord_berths (r : HwRecord) : (queueRecord r s).berths = s.berths := by rw [queueRecord_frame]
@[simp] theorem queueRecord_eng (r : HwRecord) : (queueRecord r s).eng = s.eng := by rw [queueRecord_frame]
@[simp] theorem queueRecord_cores (r : HwRecord) : (queueRecord r s).cores = s.cores := by rw [queueRecord_frame]
@[simp] theorem queueRecord_pilot (r : HwRecord) : (queueRecord r s).pilot = s.pilot := by rw [queueRecord_frame]
@[simp] theorem queueRecord_runs (r : HwRecord) : (queueRecord r s).runs = s.runs := by rw [queueRecord_frame]
@[simp] theorem queueRecord_scans (r : HwRecord) : (queueRecord r s).scans = s.scans := by rw [queueRecord_frame]
@[simp] theorem queueRecord_nextScan (r : HwRecord) : (queueRecord r s).nextScan = s.nextScan := by rw [queueRecord_frame]
@[simp] theorem queueRecord_quays (r : HwRecord) : (queueRecord r s).quays = s.quays := by rw [queueRecord_frame]
@[simp] theorem queueRecord_canopy (r : HwRecord) : (queueRecord r s).canopy = s.canopy := by rw [queueRecord_frame]

/-! ## logRecord -/

theorem logRecord_frame (c x p q r : Nat) : logRecord c x p q r s =
    { s with mram := (logRecord c x p q r s).mram, log := (logRecord c x p q r s).log } := by
  exact queueRecord_frame ..
@[simp] theorem logRecord_pending (c x p q r : Nat) : (logRecord c x p q r s).pending = s.pending := by rw [logRecord_frame]
@[simp] theorem logRecord_sys (c x p q r : Nat) : (logRecord c x p q r s).sys = s.sys := by rw [logRecord_frame]
@[simp] theorem logRecord_present (c x p q r : Nat) : (logRecord c x p q r s).present = s.present := by rw [logRecord_frame]
@[simp] theorem logRecord_flash (c x p q r : Nat) : (logRecord c x p q r s).flash = s.flash := by rw [logRecord_frame]
@[simp] theorem logRecord_fw (c x p q r : Nat) : (logRecord c x p q r s).fw = s.fw := by rw [logRecord_frame]
@[simp] theorem logRecord_manifest (c x p q r : Nat) : (logRecord c x p q r s).manifest = s.manifest := by rw [logRecord_frame]
@[simp] theorem logRecord_spdm (c x p q r : Nat) : (logRecord c x p q r s).spdm = s.spdm := by rw [logRecord_frame]
@[simp] theorem logRecord_pcie (c x p q r : Nat) : (logRecord c x p q r s).pcie = s.pcie := by rw [logRecord_frame]
@[simp] theorem logRecord_host (c x p q r : Nat) : (logRecord c x p q r s).host = s.host := by rw [logRecord_frame]
@[simp] theorem logRecord_counters (c x p q r : Nat) : (logRecord c x p q r s).counters = s.counters := by rw [logRecord_frame]
@[simp] theorem logRecord_dict (c x p q r : Nat) : (logRecord c x p q r s).dict = s.dict := by rw [logRecord_frame]
@[simp] theorem logRecord_can (c x p q r : Nat) : (logRecord c x p q r s).can = s.can := by rw [logRecord_frame]
@[simp] theorem logRecord_bist (c x p q r : Nat) : (logRecord c x p q r s).bist = s.bist := by rw [logRecord_frame]
@[simp] theorem logRecord_dev (c x p q r : Nat) : (logRecord c x p q r s).dev = s.dev := by rw [logRecord_frame]
@[simp] theorem logRecord_violations (c x p q r : Nat) : (logRecord c x p q r s).violations = s.violations := by rw [logRecord_frame]
@[simp] theorem logRecord_queues (c x p q r : Nat) : (logRecord c x p q r s).queues = s.queues := by rw [logRecord_frame]
@[simp] theorem logRecord_jobs (c x p q r : Nat) : (logRecord c x p q r s).jobs = s.jobs := by rw [logRecord_frame]
@[simp] theorem logRecord_nextJob (c x p q r : Nat) : (logRecord c x p q r s).nextJob = s.nextJob := by rw [logRecord_frame]
@[simp] theorem logRecord_berths (c x p q r : Nat) : (logRecord c x p q r s).berths = s.berths := by rw [logRecord_frame]
@[simp] theorem logRecord_eng (c x p q r : Nat) : (logRecord c x p q r s).eng = s.eng := by rw [logRecord_frame]
@[simp] theorem logRecord_cores (c x p q r : Nat) : (logRecord c x p q r s).cores = s.cores := by rw [logRecord_frame]
@[simp] theorem logRecord_pilot (c x p q r : Nat) : (logRecord c x p q r s).pilot = s.pilot := by rw [logRecord_frame]
@[simp] theorem logRecord_runs (c x p q r : Nat) : (logRecord c x p q r s).runs = s.runs := by rw [logRecord_frame]
@[simp] theorem logRecord_scans (c x p q r : Nat) : (logRecord c x p q r s).scans = s.scans := by rw [logRecord_frame]
@[simp] theorem logRecord_nextScan (c x p q r : Nat) : (logRecord c x p q r s).nextScan = s.nextScan := by rw [logRecord_frame]
@[simp] theorem logRecord_quays (c x p q r : Nat) : (logRecord c x p q r s).quays = s.quays := by rw [logRecord_frame]
@[simp] theorem logRecord_canopy (c x p q r : Nat) : (logRecord c x p q r s).canopy = s.canopy := by rw [logRecord_frame]

/-! ## emcyFrame -/

theorem emcyFrame_frame (f : CanFrame) : emcyFrame f s =
    { s with can := (emcyFrame f s).can } := by
  unfold emcyFrame; split
  · split <;> rfl
  · split <;> rfl
@[simp] theorem emcyFrame_pending (f : CanFrame) : (emcyFrame f s).pending = s.pending := by rw [emcyFrame_frame]
@[simp] theorem emcyFrame_sys (f : CanFrame) : (emcyFrame f s).sys = s.sys := by rw [emcyFrame_frame]
@[simp] theorem emcyFrame_present (f : CanFrame) : (emcyFrame f s).present = s.present := by rw [emcyFrame_frame]
@[simp] theorem emcyFrame_mram (f : CanFrame) : (emcyFrame f s).mram = s.mram := by rw [emcyFrame_frame]
@[simp] theorem emcyFrame_flash (f : CanFrame) : (emcyFrame f s).flash = s.flash := by rw [emcyFrame_frame]
@[simp] theorem emcyFrame_log (f : CanFrame) : (emcyFrame f s).log = s.log := by rw [emcyFrame_frame]
@[simp] theorem emcyFrame_fw (f : CanFrame) : (emcyFrame f s).fw = s.fw := by rw [emcyFrame_frame]
@[simp] theorem emcyFrame_manifest (f : CanFrame) : (emcyFrame f s).manifest = s.manifest := by rw [emcyFrame_frame]
@[simp] theorem emcyFrame_spdm (f : CanFrame) : (emcyFrame f s).spdm = s.spdm := by rw [emcyFrame_frame]
@[simp] theorem emcyFrame_pcie (f : CanFrame) : (emcyFrame f s).pcie = s.pcie := by rw [emcyFrame_frame]
@[simp] theorem emcyFrame_host (f : CanFrame) : (emcyFrame f s).host = s.host := by rw [emcyFrame_frame]
@[simp] theorem emcyFrame_counters (f : CanFrame) : (emcyFrame f s).counters = s.counters := by rw [emcyFrame_frame]
@[simp] theorem emcyFrame_dict (f : CanFrame) : (emcyFrame f s).dict = s.dict := by rw [emcyFrame_frame]
@[simp] theorem emcyFrame_bist (f : CanFrame) : (emcyFrame f s).bist = s.bist := by rw [emcyFrame_frame]
@[simp] theorem emcyFrame_dev (f : CanFrame) : (emcyFrame f s).dev = s.dev := by rw [emcyFrame_frame]
@[simp] theorem emcyFrame_violations (f : CanFrame) : (emcyFrame f s).violations = s.violations := by rw [emcyFrame_frame]
@[simp] theorem emcyFrame_queues (f : CanFrame) : (emcyFrame f s).queues = s.queues := by rw [emcyFrame_frame]
@[simp] theorem emcyFrame_jobs (f : CanFrame) : (emcyFrame f s).jobs = s.jobs := by rw [emcyFrame_frame]
@[simp] theorem emcyFrame_nextJob (f : CanFrame) : (emcyFrame f s).nextJob = s.nextJob := by rw [emcyFrame_frame]
@[simp] theorem emcyFrame_berths (f : CanFrame) : (emcyFrame f s).berths = s.berths := by rw [emcyFrame_frame]
@[simp] theorem emcyFrame_eng (f : CanFrame) : (emcyFrame f s).eng = s.eng := by rw [emcyFrame_frame]
@[simp] theorem emcyFrame_cores (f : CanFrame) : (emcyFrame f s).cores = s.cores := by rw [emcyFrame_frame]
@[simp] theorem emcyFrame_pilot (f : CanFrame) : (emcyFrame f s).pilot = s.pilot := by rw [emcyFrame_frame]
@[simp] theorem emcyFrame_runs (f : CanFrame) : (emcyFrame f s).runs = s.runs := by rw [emcyFrame_frame]
@[simp] theorem emcyFrame_scans (f : CanFrame) : (emcyFrame f s).scans = s.scans := by rw [emcyFrame_frame]
@[simp] theorem emcyFrame_nextScan (f : CanFrame) : (emcyFrame f s).nextScan = s.nextScan := by rw [emcyFrame_frame]
@[simp] theorem emcyFrame_quays (f : CanFrame) : (emcyFrame f s).quays = s.quays := by rw [emcyFrame_frame]
@[simp] theorem emcyFrame_canopy (f : CanFrame) : (emcyFrame f s).canopy = s.canopy := by rw [emcyFrame_frame]

/-! ## emcySend -/

theorem emcySend_frame (c h x : Nat) : emcySend c h x s =
    { s with dict := (emcySend c h x s).dict, can := (emcySend c h x s).can } := by
  unfold emcySend; simp only; split
  · rw [emcyFrame_frame]
  · rw [emcyFrame_frame]; rfl
@[simp] theorem emcySend_pending (c h x : Nat) : (emcySend c h x s).pending = s.pending := by rw [emcySend_frame]
@[simp] theorem emcySend_sys (c h x : Nat) : (emcySend c h x s).sys = s.sys := by rw [emcySend_frame]
@[simp] theorem emcySend_present (c h x : Nat) : (emcySend c h x s).present = s.present := by rw [emcySend_frame]
@[simp] theorem emcySend_mram (c h x : Nat) : (emcySend c h x s).mram = s.mram := by rw [emcySend_frame]
@[simp] theorem emcySend_flash (c h x : Nat) : (emcySend c h x s).flash = s.flash := by rw [emcySend_frame]
@[simp] theorem emcySend_log (c h x : Nat) : (emcySend c h x s).log = s.log := by rw [emcySend_frame]
@[simp] theorem emcySend_fw (c h x : Nat) : (emcySend c h x s).fw = s.fw := by rw [emcySend_frame]
@[simp] theorem emcySend_manifest (c h x : Nat) : (emcySend c h x s).manifest = s.manifest := by rw [emcySend_frame]
@[simp] theorem emcySend_spdm (c h x : Nat) : (emcySend c h x s).spdm = s.spdm := by rw [emcySend_frame]
@[simp] theorem emcySend_pcie (c h x : Nat) : (emcySend c h x s).pcie = s.pcie := by rw [emcySend_frame]
@[simp] theorem emcySend_host (c h x : Nat) : (emcySend c h x s).host = s.host := by rw [emcySend_frame]
@[simp] theorem emcySend_counters (c h x : Nat) : (emcySend c h x s).counters = s.counters := by rw [emcySend_frame]
@[simp] theorem emcySend_bist (c h x : Nat) : (emcySend c h x s).bist = s.bist := by rw [emcySend_frame]
@[simp] theorem emcySend_dev (c h x : Nat) : (emcySend c h x s).dev = s.dev := by rw [emcySend_frame]
@[simp] theorem emcySend_violations (c h x : Nat) : (emcySend c h x s).violations = s.violations := by rw [emcySend_frame]
@[simp] theorem emcySend_queues (c h x : Nat) : (emcySend c h x s).queues = s.queues := by rw [emcySend_frame]
@[simp] theorem emcySend_jobs (c h x : Nat) : (emcySend c h x s).jobs = s.jobs := by rw [emcySend_frame]
@[simp] theorem emcySend_nextJob (c h x : Nat) : (emcySend c h x s).nextJob = s.nextJob := by rw [emcySend_frame]
@[simp] theorem emcySend_berths (c h x : Nat) : (emcySend c h x s).berths = s.berths := by rw [emcySend_frame]
@[simp] theorem emcySend_eng (c h x : Nat) : (emcySend c h x s).eng = s.eng := by rw [emcySend_frame]
@[simp] theorem emcySend_cores (c h x : Nat) : (emcySend c h x s).cores = s.cores := by rw [emcySend_frame]
@[simp] theorem emcySend_pilot (c h x : Nat) : (emcySend c h x s).pilot = s.pilot := by rw [emcySend_frame]
@[simp] theorem emcySend_runs (c h x : Nat) : (emcySend c h x s).runs = s.runs := by rw [emcySend_frame]
@[simp] theorem emcySend_scans (c h x : Nat) : (emcySend c h x s).scans = s.scans := by rw [emcySend_frame]
@[simp] theorem emcySend_nextScan (c h x : Nat) : (emcySend c h x s).nextScan = s.nextScan := by rw [emcySend_frame]
@[simp] theorem emcySend_quays (c h x : Nat) : (emcySend c h x s).quays = s.quays := by rw [emcySend_frame]
@[simp] theorem emcySend_canopy (c h x : Nat) : (emcySend c h x s).canopy = s.canopy := by rw [emcySend_frame]

/-! ## emcyRaise -/

theorem emcyRaise_frame (c h x : Nat) : emcyRaise c h x s =
    { s with dict := (emcyRaise c h x s).dict, can := (emcyRaise c h x s).can } := by
  unfold emcyRaise; rw [emcySend_frame]; rfl
@[simp] theorem emcyRaise_pending (c h x : Nat) : (emcyRaise c h x s).pending = s.pending := by rw [emcyRaise_frame]
@[simp] theorem emcyRaise_sys (c h x : Nat) : (emcyRaise c h x s).sys = s.sys := by rw [emcyRaise_frame]
@[simp] theorem emcyRaise_present (c h x : Nat) : (emcyRaise c h x s).present = s.present := by rw [emcyRaise_frame]
@[simp] theorem emcyRaise_mram (c h x : Nat) : (emcyRaise c h x s).mram = s.mram := by rw [emcyRaise_frame]
@[simp] theorem emcyRaise_flash (c h x : Nat) : (emcyRaise c h x s).flash = s.flash := by rw [emcyRaise_frame]
@[simp] theorem emcyRaise_log (c h x : Nat) : (emcyRaise c h x s).log = s.log := by rw [emcyRaise_frame]
@[simp] theorem emcyRaise_fw (c h x : Nat) : (emcyRaise c h x s).fw = s.fw := by rw [emcyRaise_frame]
@[simp] theorem emcyRaise_manifest (c h x : Nat) : (emcyRaise c h x s).manifest = s.manifest := by rw [emcyRaise_frame]
@[simp] theorem emcyRaise_spdm (c h x : Nat) : (emcyRaise c h x s).spdm = s.spdm := by rw [emcyRaise_frame]
@[simp] theorem emcyRaise_pcie (c h x : Nat) : (emcyRaise c h x s).pcie = s.pcie := by rw [emcyRaise_frame]
@[simp] theorem emcyRaise_host (c h x : Nat) : (emcyRaise c h x s).host = s.host := by rw [emcyRaise_frame]
@[simp] theorem emcyRaise_counters (c h x : Nat) : (emcyRaise c h x s).counters = s.counters := by rw [emcyRaise_frame]
@[simp] theorem emcyRaise_bist (c h x : Nat) : (emcyRaise c h x s).bist = s.bist := by rw [emcyRaise_frame]
@[simp] theorem emcyRaise_dev (c h x : Nat) : (emcyRaise c h x s).dev = s.dev := by rw [emcyRaise_frame]
@[simp] theorem emcyRaise_violations (c h x : Nat) : (emcyRaise c h x s).violations = s.violations := by rw [emcyRaise_frame]
@[simp] theorem emcyRaise_queues (c h x : Nat) : (emcyRaise c h x s).queues = s.queues := by rw [emcyRaise_frame]
@[simp] theorem emcyRaise_jobs (c h x : Nat) : (emcyRaise c h x s).jobs = s.jobs := by rw [emcyRaise_frame]
@[simp] theorem emcyRaise_nextJob (c h x : Nat) : (emcyRaise c h x s).nextJob = s.nextJob := by rw [emcyRaise_frame]
@[simp] theorem emcyRaise_berths (c h x : Nat) : (emcyRaise c h x s).berths = s.berths := by rw [emcyRaise_frame]
@[simp] theorem emcyRaise_eng (c h x : Nat) : (emcyRaise c h x s).eng = s.eng := by rw [emcyRaise_frame]
@[simp] theorem emcyRaise_cores (c h x : Nat) : (emcyRaise c h x s).cores = s.cores := by rw [emcyRaise_frame]
@[simp] theorem emcyRaise_pilot (c h x : Nat) : (emcyRaise c h x s).pilot = s.pilot := by rw [emcyRaise_frame]
@[simp] theorem emcyRaise_runs (c h x : Nat) : (emcyRaise c h x s).runs = s.runs := by rw [emcyRaise_frame]
@[simp] theorem emcyRaise_scans (c h x : Nat) : (emcyRaise c h x s).scans = s.scans := by rw [emcyRaise_frame]
@[simp] theorem emcyRaise_nextScan (c h x : Nat) : (emcyRaise c h x s).nextScan = s.nextScan := by rw [emcyRaise_frame]
@[simp] theorem emcyRaise_quays (c h x : Nat) : (emcyRaise c h x s).quays = s.quays := by rw [emcyRaise_frame]
@[simp] theorem emcyRaise_canopy (c h x : Nat) : (emcyRaise c h x s).canopy = s.canopy := by rw [emcyRaise_frame]

/-! ## emcyOnce -/

theorem emcyOnce_frame (c h x : Nat) : emcyOnce c h x s =
    { s with dict := (emcyOnce c h x s).dict, can := (emcyOnce c h x s).can } := by
  unfold emcyOnce; simp only; rw [emcySend_frame]; rfl
@[simp] theorem emcyOnce_pending (c h x : Nat) : (emcyOnce c h x s).pending = s.pending := by rw [emcyOnce_frame]
@[simp] theorem emcyOnce_sys (c h x : Nat) : (emcyOnce c h x s).sys = s.sys := by rw [emcyOnce_frame]
@[simp] theorem emcyOnce_present (c h x : Nat) : (emcyOnce c h x s).present = s.present := by rw [emcyOnce_frame]
@[simp] theorem emcyOnce_mram (c h x : Nat) : (emcyOnce c h x s).mram = s.mram := by rw [emcyOnce_frame]
@[simp] theorem emcyOnce_flash (c h x : Nat) : (emcyOnce c h x s).flash = s.flash := by rw [emcyOnce_frame]
@[simp] theorem emcyOnce_log (c h x : Nat) : (emcyOnce c h x s).log = s.log := by rw [emcyOnce_frame]
@[simp] theorem emcyOnce_fw (c h x : Nat) : (emcyOnce c h x s).fw = s.fw := by rw [emcyOnce_frame]
@[simp] theorem emcyOnce_manifest (c h x : Nat) : (emcyOnce c h x s).manifest = s.manifest := by rw [emcyOnce_frame]
@[simp] theorem emcyOnce_spdm (c h x : Nat) : (emcyOnce c h x s).spdm = s.spdm := by rw [emcyOnce_frame]
@[simp] theorem emcyOnce_pcie (c h x : Nat) : (emcyOnce c h x s).pcie = s.pcie := by rw [emcyOnce_frame]
@[simp] theorem emcyOnce_host (c h x : Nat) : (emcyOnce c h x s).host = s.host := by rw [emcyOnce_frame]
@[simp] theorem emcyOnce_counters (c h x : Nat) : (emcyOnce c h x s).counters = s.counters := by rw [emcyOnce_frame]
@[simp] theorem emcyOnce_bist (c h x : Nat) : (emcyOnce c h x s).bist = s.bist := by rw [emcyOnce_frame]
@[simp] theorem emcyOnce_dev (c h x : Nat) : (emcyOnce c h x s).dev = s.dev := by rw [emcyOnce_frame]
@[simp] theorem emcyOnce_violations (c h x : Nat) : (emcyOnce c h x s).violations = s.violations := by rw [emcyOnce_frame]
@[simp] theorem emcyOnce_queues (c h x : Nat) : (emcyOnce c h x s).queues = s.queues := by rw [emcyOnce_frame]
@[simp] theorem emcyOnce_jobs (c h x : Nat) : (emcyOnce c h x s).jobs = s.jobs := by rw [emcyOnce_frame]
@[simp] theorem emcyOnce_nextJob (c h x : Nat) : (emcyOnce c h x s).nextJob = s.nextJob := by rw [emcyOnce_frame]
@[simp] theorem emcyOnce_berths (c h x : Nat) : (emcyOnce c h x s).berths = s.berths := by rw [emcyOnce_frame]
@[simp] theorem emcyOnce_eng (c h x : Nat) : (emcyOnce c h x s).eng = s.eng := by rw [emcyOnce_frame]
@[simp] theorem emcyOnce_cores (c h x : Nat) : (emcyOnce c h x s).cores = s.cores := by rw [emcyOnce_frame]
@[simp] theorem emcyOnce_pilot (c h x : Nat) : (emcyOnce c h x s).pilot = s.pilot := by rw [emcyOnce_frame]
@[simp] theorem emcyOnce_runs (c h x : Nat) : (emcyOnce c h x s).runs = s.runs := by rw [emcyOnce_frame]
@[simp] theorem emcyOnce_scans (c h x : Nat) : (emcyOnce c h x s).scans = s.scans := by rw [emcyOnce_frame]
@[simp] theorem emcyOnce_nextScan (c h x : Nat) : (emcyOnce c h x s).nextScan = s.nextScan := by rw [emcyOnce_frame]
@[simp] theorem emcyOnce_quays (c h x : Nat) : (emcyOnce c h x s).quays = s.quays := by rw [emcyOnce_frame]
@[simp] theorem emcyOnce_canopy (c h x : Nat) : (emcyOnce c h x s).canopy = s.canopy := by rw [emcyOnce_frame]

/-! ## emcyClear -/

theorem emcyClear_frame (c h x : Nat) : emcyClear c h x s =
    { s with dict := (emcyClear c h x s).dict, can := (emcyClear c h x s).can } := by
  unfold emcyClear; split
  · simp only; split
    · rfl
    · rw [emcySend_frame]; rfl
  · rfl
@[simp] theorem emcyClear_pending (c h x : Nat) : (emcyClear c h x s).pending = s.pending := by rw [emcyClear_frame]
@[simp] theorem emcyClear_sys (c h x : Nat) : (emcyClear c h x s).sys = s.sys := by rw [emcyClear_frame]
@[simp] theorem emcyClear_present (c h x : Nat) : (emcyClear c h x s).present = s.present := by rw [emcyClear_frame]
@[simp] theorem emcyClear_mram (c h x : Nat) : (emcyClear c h x s).mram = s.mram := by rw [emcyClear_frame]
@[simp] theorem emcyClear_flash (c h x : Nat) : (emcyClear c h x s).flash = s.flash := by rw [emcyClear_frame]
@[simp] theorem emcyClear_log (c h x : Nat) : (emcyClear c h x s).log = s.log := by rw [emcyClear_frame]
@[simp] theorem emcyClear_fw (c h x : Nat) : (emcyClear c h x s).fw = s.fw := by rw [emcyClear_frame]
@[simp] theorem emcyClear_manifest (c h x : Nat) : (emcyClear c h x s).manifest = s.manifest := by rw [emcyClear_frame]
@[simp] theorem emcyClear_spdm (c h x : Nat) : (emcyClear c h x s).spdm = s.spdm := by rw [emcyClear_frame]
@[simp] theorem emcyClear_pcie (c h x : Nat) : (emcyClear c h x s).pcie = s.pcie := by rw [emcyClear_frame]
@[simp] theorem emcyClear_host (c h x : Nat) : (emcyClear c h x s).host = s.host := by rw [emcyClear_frame]
@[simp] theorem emcyClear_counters (c h x : Nat) : (emcyClear c h x s).counters = s.counters := by rw [emcyClear_frame]
@[simp] theorem emcyClear_bist (c h x : Nat) : (emcyClear c h x s).bist = s.bist := by rw [emcyClear_frame]
@[simp] theorem emcyClear_dev (c h x : Nat) : (emcyClear c h x s).dev = s.dev := by rw [emcyClear_frame]
@[simp] theorem emcyClear_violations (c h x : Nat) : (emcyClear c h x s).violations = s.violations := by rw [emcyClear_frame]
@[simp] theorem emcyClear_queues (c h x : Nat) : (emcyClear c h x s).queues = s.queues := by rw [emcyClear_frame]
@[simp] theorem emcyClear_jobs (c h x : Nat) : (emcyClear c h x s).jobs = s.jobs := by rw [emcyClear_frame]
@[simp] theorem emcyClear_nextJob (c h x : Nat) : (emcyClear c h x s).nextJob = s.nextJob := by rw [emcyClear_frame]
@[simp] theorem emcyClear_berths (c h x : Nat) : (emcyClear c h x s).berths = s.berths := by rw [emcyClear_frame]
@[simp] theorem emcyClear_eng (c h x : Nat) : (emcyClear c h x s).eng = s.eng := by rw [emcyClear_frame]
@[simp] theorem emcyClear_cores (c h x : Nat) : (emcyClear c h x s).cores = s.cores := by rw [emcyClear_frame]
@[simp] theorem emcyClear_pilot (c h x : Nat) : (emcyClear c h x s).pilot = s.pilot := by rw [emcyClear_frame]
@[simp] theorem emcyClear_runs (c h x : Nat) : (emcyClear c h x s).runs = s.runs := by rw [emcyClear_frame]
@[simp] theorem emcyClear_scans (c h x : Nat) : (emcyClear c h x s).scans = s.scans := by rw [emcyClear_frame]
@[simp] theorem emcyClear_nextScan (c h x : Nat) : (emcyClear c h x s).nextScan = s.nextScan := by rw [emcyClear_frame]
@[simp] theorem emcyClear_quays (c h x : Nat) : (emcyClear c h x s).quays = s.quays := by rw [emcyClear_frame]
@[simp] theorem emcyClear_canopy (c h x : Nat) : (emcyClear c h x s).canopy = s.canopy := by rw [emcyClear_frame]

/-! ## setMode -/

theorem setMode_frame (m : Mode) (c : Nat) : setMode m c s =
    { s with sys := (setMode m c s).sys, mram := (setMode m c s).mram, log := (setMode m c s).log, pcie := (setMode m c s).pcie } := by
  unfold setMode syncPins; rw [raiseSource_frame, logRecord_frame]; rfl
@[simp] theorem setMode_pending (m : Mode) (c : Nat) : (setMode m c s).pending = s.pending := by rw [setMode_frame]
@[simp] theorem setMode_present (m : Mode) (c : Nat) : (setMode m c s).present = s.present := by rw [setMode_frame]
@[simp] theorem setMode_flash (m : Mode) (c : Nat) : (setMode m c s).flash = s.flash := by rw [setMode_frame]
@[simp] theorem setMode_fw (m : Mode) (c : Nat) : (setMode m c s).fw = s.fw := by rw [setMode_frame]
@[simp] theorem setMode_manifest (m : Mode) (c : Nat) : (setMode m c s).manifest = s.manifest := by rw [setMode_frame]
@[simp] theorem setMode_spdm (m : Mode) (c : Nat) : (setMode m c s).spdm = s.spdm := by rw [setMode_frame]
@[simp] theorem setMode_host (m : Mode) (c : Nat) : (setMode m c s).host = s.host := by rw [setMode_frame]
@[simp] theorem setMode_counters (m : Mode) (c : Nat) : (setMode m c s).counters = s.counters := by rw [setMode_frame]
@[simp] theorem setMode_dict (m : Mode) (c : Nat) : (setMode m c s).dict = s.dict := by rw [setMode_frame]
@[simp] theorem setMode_can (m : Mode) (c : Nat) : (setMode m c s).can = s.can := by rw [setMode_frame]
@[simp] theorem setMode_bist (m : Mode) (c : Nat) : (setMode m c s).bist = s.bist := by rw [setMode_frame]
@[simp] theorem setMode_dev (m : Mode) (c : Nat) : (setMode m c s).dev = s.dev := by rw [setMode_frame]
@[simp] theorem setMode_violations (m : Mode) (c : Nat) : (setMode m c s).violations = s.violations := by rw [setMode_frame]
@[simp] theorem setMode_queues (m : Mode) (c : Nat) : (setMode m c s).queues = s.queues := by rw [setMode_frame]
@[simp] theorem setMode_jobs (m : Mode) (c : Nat) : (setMode m c s).jobs = s.jobs := by rw [setMode_frame]
@[simp] theorem setMode_nextJob (m : Mode) (c : Nat) : (setMode m c s).nextJob = s.nextJob := by rw [setMode_frame]
@[simp] theorem setMode_berths (m : Mode) (c : Nat) : (setMode m c s).berths = s.berths := by rw [setMode_frame]
@[simp] theorem setMode_eng (m : Mode) (c : Nat) : (setMode m c s).eng = s.eng := by rw [setMode_frame]
@[simp] theorem setMode_cores (m : Mode) (c : Nat) : (setMode m c s).cores = s.cores := by rw [setMode_frame]
@[simp] theorem setMode_pilot (m : Mode) (c : Nat) : (setMode m c s).pilot = s.pilot := by rw [setMode_frame]
@[simp] theorem setMode_runs (m : Mode) (c : Nat) : (setMode m c s).runs = s.runs := by rw [setMode_frame]
@[simp] theorem setMode_scans (m : Mode) (c : Nat) : (setMode m c s).scans = s.scans := by rw [setMode_frame]
@[simp] theorem setMode_nextScan (m : Mode) (c : Nat) : (setMode m c s).nextScan = s.nextScan := by rw [setMode_frame]
@[simp] theorem setMode_quays (m : Mode) (c : Nat) : (setMode m c s).quays = s.quays := by rw [setMode_frame]
@[simp] theorem setMode_canopy (m : Mode) (c : Nat) : (setMode m c s).canopy = s.canopy := by rw [setMode_frame]

/-! ## extend -/

theorem extend_frame (k : Nat) (d : Bytes) (c : BitVec 16) : extend k d c s =
    { s with manifest := (extend k d c s).manifest } := by
  rfl
@[simp] theorem extend_pending (k : Nat) (d : Bytes) (c : BitVec 16) : (extend k d c s).pending = s.pending := by rw [extend_frame]
@[simp] theorem extend_sys (k : Nat) (d : Bytes) (c : BitVec 16) : (extend k d c s).sys = s.sys := by rw [extend_frame]
@[simp] theorem extend_present (k : Nat) (d : Bytes) (c : BitVec 16) : (extend k d c s).present = s.present := by rw [extend_frame]
@[simp] theorem extend_mram (k : Nat) (d : Bytes) (c : BitVec 16) : (extend k d c s).mram = s.mram := by rw [extend_frame]
@[simp] theorem extend_flash (k : Nat) (d : Bytes) (c : BitVec 16) : (extend k d c s).flash = s.flash := by rw [extend_frame]
@[simp] theorem extend_log (k : Nat) (d : Bytes) (c : BitVec 16) : (extend k d c s).log = s.log := by rw [extend_frame]
@[simp] theorem extend_fw (k : Nat) (d : Bytes) (c : BitVec 16) : (extend k d c s).fw = s.fw := by rw [extend_frame]
@[simp] theorem extend_spdm (k : Nat) (d : Bytes) (c : BitVec 16) : (extend k d c s).spdm = s.spdm := by rw [extend_frame]
@[simp] theorem extend_pcie (k : Nat) (d : Bytes) (c : BitVec 16) : (extend k d c s).pcie = s.pcie := by rw [extend_frame]
@[simp] theorem extend_host (k : Nat) (d : Bytes) (c : BitVec 16) : (extend k d c s).host = s.host := by rw [extend_frame]
@[simp] theorem extend_counters (k : Nat) (d : Bytes) (c : BitVec 16) : (extend k d c s).counters = s.counters := by rw [extend_frame]
@[simp] theorem extend_dict (k : Nat) (d : Bytes) (c : BitVec 16) : (extend k d c s).dict = s.dict := by rw [extend_frame]
@[simp] theorem extend_can (k : Nat) (d : Bytes) (c : BitVec 16) : (extend k d c s).can = s.can := by rw [extend_frame]
@[simp] theorem extend_bist (k : Nat) (d : Bytes) (c : BitVec 16) : (extend k d c s).bist = s.bist := by rw [extend_frame]
@[simp] theorem extend_dev (k : Nat) (d : Bytes) (c : BitVec 16) : (extend k d c s).dev = s.dev := by rw [extend_frame]
@[simp] theorem extend_violations (k : Nat) (d : Bytes) (c : BitVec 16) : (extend k d c s).violations = s.violations := by rw [extend_frame]
@[simp] theorem extend_queues (k : Nat) (d : Bytes) (c : BitVec 16) : (extend k d c s).queues = s.queues := by rw [extend_frame]
@[simp] theorem extend_jobs (k : Nat) (d : Bytes) (c : BitVec 16) : (extend k d c s).jobs = s.jobs := by rw [extend_frame]
@[simp] theorem extend_nextJob (k : Nat) (d : Bytes) (c : BitVec 16) : (extend k d c s).nextJob = s.nextJob := by rw [extend_frame]
@[simp] theorem extend_berths (k : Nat) (d : Bytes) (c : BitVec 16) : (extend k d c s).berths = s.berths := by rw [extend_frame]
@[simp] theorem extend_eng (k : Nat) (d : Bytes) (c : BitVec 16) : (extend k d c s).eng = s.eng := by rw [extend_frame]
@[simp] theorem extend_cores (k : Nat) (d : Bytes) (c : BitVec 16) : (extend k d c s).cores = s.cores := by rw [extend_frame]
@[simp] theorem extend_pilot (k : Nat) (d : Bytes) (c : BitVec 16) : (extend k d c s).pilot = s.pilot := by rw [extend_frame]
@[simp] theorem extend_runs (k : Nat) (d : Bytes) (c : BitVec 16) : (extend k d c s).runs = s.runs := by rw [extend_frame]
@[simp] theorem extend_scans (k : Nat) (d : Bytes) (c : BitVec 16) : (extend k d c s).scans = s.scans := by rw [extend_frame]
@[simp] theorem extend_nextScan (k : Nat) (d : Bytes) (c : BitVec 16) : (extend k d c s).nextScan = s.nextScan := by rw [extend_frame]
@[simp] theorem extend_quays (k : Nat) (d : Bytes) (c : BitVec 16) : (extend k d c s).quays = s.quays := by rw [extend_frame]
@[simp] theorem extend_canopy (k : Nat) (d : Bytes) (c : BitVec 16) : (extend k d c s).canopy = s.canopy := by rw [extend_frame]

/-! ## dirtyRecord -/

theorem dirtyRecord_frame (b p : Nat) : dirtyRecord b p s =
    { s with host := (dirtyRecord b p s).host, berths := (dirtyRecord b p s).berths } := by
  rfl
@[simp] theorem dirtyRecord_pending (b p : Nat) : (dirtyRecord b p s).pending = s.pending := by rw [dirtyRecord_frame]
@[simp] theorem dirtyRecord_sys (b p : Nat) : (dirtyRecord b p s).sys = s.sys := by rw [dirtyRecord_frame]
@[simp] theorem dirtyRecord_present (b p : Nat) : (dirtyRecord b p s).present = s.present := by rw [dirtyRecord_frame]
@[simp] theorem dirtyRecord_mram (b p : Nat) : (dirtyRecord b p s).mram = s.mram := by rw [dirtyRecord_frame]
@[simp] theorem dirtyRecord_flash (b p : Nat) : (dirtyRecord b p s).flash = s.flash := by rw [dirtyRecord_frame]
@[simp] theorem dirtyRecord_log (b p : Nat) : (dirtyRecord b p s).log = s.log := by rw [dirtyRecord_frame]
@[simp] theorem dirtyRecord_fw (b p : Nat) : (dirtyRecord b p s).fw = s.fw := by rw [dirtyRecord_frame]
@[simp] theorem dirtyRecord_manifest (b p : Nat) : (dirtyRecord b p s).manifest = s.manifest := by rw [dirtyRecord_frame]
@[simp] theorem dirtyRecord_spdm (b p : Nat) : (dirtyRecord b p s).spdm = s.spdm := by rw [dirtyRecord_frame]
@[simp] theorem dirtyRecord_pcie (b p : Nat) : (dirtyRecord b p s).pcie = s.pcie := by rw [dirtyRecord_frame]
@[simp] theorem dirtyRecord_counters (b p : Nat) : (dirtyRecord b p s).counters = s.counters := by rw [dirtyRecord_frame]
@[simp] theorem dirtyRecord_dict (b p : Nat) : (dirtyRecord b p s).dict = s.dict := by rw [dirtyRecord_frame]
@[simp] theorem dirtyRecord_can (b p : Nat) : (dirtyRecord b p s).can = s.can := by rw [dirtyRecord_frame]
@[simp] theorem dirtyRecord_bist (b p : Nat) : (dirtyRecord b p s).bist = s.bist := by rw [dirtyRecord_frame]
@[simp] theorem dirtyRecord_dev (b p : Nat) : (dirtyRecord b p s).dev = s.dev := by rw [dirtyRecord_frame]
@[simp] theorem dirtyRecord_violations (b p : Nat) : (dirtyRecord b p s).violations = s.violations := by rw [dirtyRecord_frame]
@[simp] theorem dirtyRecord_queues (b p : Nat) : (dirtyRecord b p s).queues = s.queues := by rw [dirtyRecord_frame]
@[simp] theorem dirtyRecord_jobs (b p : Nat) : (dirtyRecord b p s).jobs = s.jobs := by rw [dirtyRecord_frame]
@[simp] theorem dirtyRecord_nextJob (b p : Nat) : (dirtyRecord b p s).nextJob = s.nextJob := by rw [dirtyRecord_frame]
@[simp] theorem dirtyRecord_eng (b p : Nat) : (dirtyRecord b p s).eng = s.eng := by rw [dirtyRecord_frame]
@[simp] theorem dirtyRecord_cores (b p : Nat) : (dirtyRecord b p s).cores = s.cores := by rw [dirtyRecord_frame]
@[simp] theorem dirtyRecord_pilot (b p : Nat) : (dirtyRecord b p s).pilot = s.pilot := by rw [dirtyRecord_frame]
@[simp] theorem dirtyRecord_runs (b p : Nat) : (dirtyRecord b p s).runs = s.runs := by rw [dirtyRecord_frame]
@[simp] theorem dirtyRecord_scans (b p : Nat) : (dirtyRecord b p s).scans = s.scans := by rw [dirtyRecord_frame]
@[simp] theorem dirtyRecord_nextScan (b p : Nat) : (dirtyRecord b p s).nextScan = s.nextScan := by rw [dirtyRecord_frame]
@[simp] theorem dirtyRecord_quays (b p : Nat) : (dirtyRecord b p s).quays = s.quays := by rw [dirtyRecord_frame]
@[simp] theorem dirtyRecord_canopy (b p : Nat) : (dirtyRecord b p s).canopy = s.canopy := by rw [dirtyRecord_frame]

theorem dirtyRecords_frame (b : Nat) (l : List Nat) : l.foldl (fun s p => dirtyRecord b p s) s =
    { s with
      host := (l.foldl (fun s p => dirtyRecord b p s) s).host
      berths := (l.foldl (fun s p => dirtyRecord b p s) s).berths } := by
  induction l generalizing s with
  | nil => rfl
  | cons p l ih => rw [List.foldl_cons, ih]; rfl

/-! ## berthWrite -/

theorem berthWrite_frame (b a : Nat) (d : Bytes) : berthWrite b a d s =
    { s with host := (berthWrite b a d s).host, berths := (berthWrite b a d s).berths, pcie := (berthWrite b a d s).pcie } := by
  unfold berthWrite; simp only; split
  · rfl
  · split
    · rfl
    · split
      · rw [raiseSource_frame]; rfl
      · rw [dirtyRecords_frame]; rfl
@[simp] theorem berthWrite_pending (b a : Nat) (d : Bytes) : (berthWrite b a d s).pending = s.pending := by rw [berthWrite_frame]
@[simp] theorem berthWrite_sys (b a : Nat) (d : Bytes) : (berthWrite b a d s).sys = s.sys := by rw [berthWrite_frame]
@[simp] theorem berthWrite_present (b a : Nat) (d : Bytes) : (berthWrite b a d s).present = s.present := by rw [berthWrite_frame]
@[simp] theorem berthWrite_mram (b a : Nat) (d : Bytes) : (berthWrite b a d s).mram = s.mram := by rw [berthWrite_frame]
@[simp] theorem berthWrite_flash (b a : Nat) (d : Bytes) : (berthWrite b a d s).flash = s.flash := by rw [berthWrite_frame]
@[simp] theorem berthWrite_log (b a : Nat) (d : Bytes) : (berthWrite b a d s).log = s.log := by rw [berthWrite_frame]
@[simp] theorem berthWrite_fw (b a : Nat) (d : Bytes) : (berthWrite b a d s).fw = s.fw := by rw [berthWrite_frame]
@[simp] theorem berthWrite_manifest (b a : Nat) (d : Bytes) : (berthWrite b a d s).manifest = s.manifest := by rw [berthWrite_frame]
@[simp] theorem berthWrite_spdm (b a : Nat) (d : Bytes) : (berthWrite b a d s).spdm = s.spdm := by rw [berthWrite_frame]
@[simp] theorem berthWrite_counters (b a : Nat) (d : Bytes) : (berthWrite b a d s).counters = s.counters := by rw [berthWrite_frame]
@[simp] theorem berthWrite_dict (b a : Nat) (d : Bytes) : (berthWrite b a d s).dict = s.dict := by rw [berthWrite_frame]
@[simp] theorem berthWrite_can (b a : Nat) (d : Bytes) : (berthWrite b a d s).can = s.can := by rw [berthWrite_frame]
@[simp] theorem berthWrite_bist (b a : Nat) (d : Bytes) : (berthWrite b a d s).bist = s.bist := by rw [berthWrite_frame]
@[simp] theorem berthWrite_dev (b a : Nat) (d : Bytes) : (berthWrite b a d s).dev = s.dev := by rw [berthWrite_frame]
@[simp] theorem berthWrite_violations (b a : Nat) (d : Bytes) : (berthWrite b a d s).violations = s.violations := by rw [berthWrite_frame]
@[simp] theorem berthWrite_queues (b a : Nat) (d : Bytes) : (berthWrite b a d s).queues = s.queues := by rw [berthWrite_frame]
@[simp] theorem berthWrite_jobs (b a : Nat) (d : Bytes) : (berthWrite b a d s).jobs = s.jobs := by rw [berthWrite_frame]
@[simp] theorem berthWrite_nextJob (b a : Nat) (d : Bytes) : (berthWrite b a d s).nextJob = s.nextJob := by rw [berthWrite_frame]
@[simp] theorem berthWrite_eng (b a : Nat) (d : Bytes) : (berthWrite b a d s).eng = s.eng := by rw [berthWrite_frame]
@[simp] theorem berthWrite_cores (b a : Nat) (d : Bytes) : (berthWrite b a d s).cores = s.cores := by rw [berthWrite_frame]
@[simp] theorem berthWrite_pilot (b a : Nat) (d : Bytes) : (berthWrite b a d s).pilot = s.pilot := by rw [berthWrite_frame]
@[simp] theorem berthWrite_runs (b a : Nat) (d : Bytes) : (berthWrite b a d s).runs = s.runs := by rw [berthWrite_frame]
@[simp] theorem berthWrite_scans (b a : Nat) (d : Bytes) : (berthWrite b a d s).scans = s.scans := by rw [berthWrite_frame]
@[simp] theorem berthWrite_nextScan (b a : Nat) (d : Bytes) : (berthWrite b a d s).nextScan = s.nextScan := by rw [berthWrite_frame]
@[simp] theorem berthWrite_quays (b a : Nat) (d : Bytes) : (berthWrite b a d s).quays = s.quays := by rw [berthWrite_frame]
@[simp] theorem berthWrite_canopy (b a : Nat) (d : Bytes) : (berthWrite b a d s).canopy = s.canopy := by rw [berthWrite_frame]

/-! ## hostWrite -/

theorem hostWrite_frame (b : Option (Fin 512)) (a : Nat) (d : Bytes) : hostWrite b a d s =
    { s with host := (hostWrite b a d s).host, berths := (hostWrite b a d s).berths, pcie := (hostWrite b a d s).pcie } := by
  unfold hostWrite; split
  · rfl
  · split
    · rfl
    · split
      · rfl
      · exact berthWrite_frame ..
@[simp] theorem hostWrite_pending (b : Option (Fin 512)) (a : Nat) (d : Bytes) : (hostWrite b a d s).pending = s.pending := by rw [hostWrite_frame]
@[simp] theorem hostWrite_sys (b : Option (Fin 512)) (a : Nat) (d : Bytes) : (hostWrite b a d s).sys = s.sys := by rw [hostWrite_frame]
@[simp] theorem hostWrite_present (b : Option (Fin 512)) (a : Nat) (d : Bytes) : (hostWrite b a d s).present = s.present := by rw [hostWrite_frame]
@[simp] theorem hostWrite_mram (b : Option (Fin 512)) (a : Nat) (d : Bytes) : (hostWrite b a d s).mram = s.mram := by rw [hostWrite_frame]
@[simp] theorem hostWrite_flash (b : Option (Fin 512)) (a : Nat) (d : Bytes) : (hostWrite b a d s).flash = s.flash := by rw [hostWrite_frame]
@[simp] theorem hostWrite_log (b : Option (Fin 512)) (a : Nat) (d : Bytes) : (hostWrite b a d s).log = s.log := by rw [hostWrite_frame]
@[simp] theorem hostWrite_fw (b : Option (Fin 512)) (a : Nat) (d : Bytes) : (hostWrite b a d s).fw = s.fw := by rw [hostWrite_frame]
@[simp] theorem hostWrite_manifest (b : Option (Fin 512)) (a : Nat) (d : Bytes) : (hostWrite b a d s).manifest = s.manifest := by rw [hostWrite_frame]
@[simp] theorem hostWrite_spdm (b : Option (Fin 512)) (a : Nat) (d : Bytes) : (hostWrite b a d s).spdm = s.spdm := by rw [hostWrite_frame]
@[simp] theorem hostWrite_counters (b : Option (Fin 512)) (a : Nat) (d : Bytes) : (hostWrite b a d s).counters = s.counters := by rw [hostWrite_frame]
@[simp] theorem hostWrite_dict (b : Option (Fin 512)) (a : Nat) (d : Bytes) : (hostWrite b a d s).dict = s.dict := by rw [hostWrite_frame]
@[simp] theorem hostWrite_can (b : Option (Fin 512)) (a : Nat) (d : Bytes) : (hostWrite b a d s).can = s.can := by rw [hostWrite_frame]
@[simp] theorem hostWrite_bist (b : Option (Fin 512)) (a : Nat) (d : Bytes) : (hostWrite b a d s).bist = s.bist := by rw [hostWrite_frame]
@[simp] theorem hostWrite_dev (b : Option (Fin 512)) (a : Nat) (d : Bytes) : (hostWrite b a d s).dev = s.dev := by rw [hostWrite_frame]
@[simp] theorem hostWrite_violations (b : Option (Fin 512)) (a : Nat) (d : Bytes) : (hostWrite b a d s).violations = s.violations := by rw [hostWrite_frame]
@[simp] theorem hostWrite_queues (b : Option (Fin 512)) (a : Nat) (d : Bytes) : (hostWrite b a d s).queues = s.queues := by rw [hostWrite_frame]
@[simp] theorem hostWrite_jobs (b : Option (Fin 512)) (a : Nat) (d : Bytes) : (hostWrite b a d s).jobs = s.jobs := by rw [hostWrite_frame]
@[simp] theorem hostWrite_nextJob (b : Option (Fin 512)) (a : Nat) (d : Bytes) : (hostWrite b a d s).nextJob = s.nextJob := by rw [hostWrite_frame]
@[simp] theorem hostWrite_eng (b : Option (Fin 512)) (a : Nat) (d : Bytes) : (hostWrite b a d s).eng = s.eng := by rw [hostWrite_frame]
@[simp] theorem hostWrite_cores (b : Option (Fin 512)) (a : Nat) (d : Bytes) : (hostWrite b a d s).cores = s.cores := by rw [hostWrite_frame]
@[simp] theorem hostWrite_pilot (b : Option (Fin 512)) (a : Nat) (d : Bytes) : (hostWrite b a d s).pilot = s.pilot := by rw [hostWrite_frame]
@[simp] theorem hostWrite_runs (b : Option (Fin 512)) (a : Nat) (d : Bytes) : (hostWrite b a d s).runs = s.runs := by rw [hostWrite_frame]
@[simp] theorem hostWrite_scans (b : Option (Fin 512)) (a : Nat) (d : Bytes) : (hostWrite b a d s).scans = s.scans := by rw [hostWrite_frame]
@[simp] theorem hostWrite_nextScan (b : Option (Fin 512)) (a : Nat) (d : Bytes) : (hostWrite b a d s).nextScan = s.nextScan := by rw [hostWrite_frame]
@[simp] theorem hostWrite_quays (b : Option (Fin 512)) (a : Nat) (d : Bytes) : (hostWrite b a d s).quays = s.quays := by rw [hostWrite_frame]
@[simp] theorem hostWrite_canopy (b : Option (Fin 512)) (a : Nat) (d : Bytes) : (hostWrite b a d s).canopy = s.canopy := by rw [hostWrite_frame]

/-! ## statusWrite -/

theorem statusWrite_frame (x : Job) (o : Nat) (d : Bytes) : statusWrite x o d s =
    { s with host := (statusWrite x o d s).host, berths := (statusWrite x o d s).berths, pcie := (statusWrite x o d s).pcie } := by
  unfold statusWrite; split
  · rfl
  · exact hostWrite_frame ..
@[simp] theorem statusWrite_pending (x : Job) (o : Nat) (d : Bytes) : (statusWrite x o d s).pending = s.pending := by rw [statusWrite_frame]
@[simp] theorem statusWrite_sys (x : Job) (o : Nat) (d : Bytes) : (statusWrite x o d s).sys = s.sys := by rw [statusWrite_frame]
@[simp] theorem statusWrite_present (x : Job) (o : Nat) (d : Bytes) : (statusWrite x o d s).present = s.present := by rw [statusWrite_frame]
@[simp] theorem statusWrite_mram (x : Job) (o : Nat) (d : Bytes) : (statusWrite x o d s).mram = s.mram := by rw [statusWrite_frame]
@[simp] theorem statusWrite_flash (x : Job) (o : Nat) (d : Bytes) : (statusWrite x o d s).flash = s.flash := by rw [statusWrite_frame]
@[simp] theorem statusWrite_log (x : Job) (o : Nat) (d : Bytes) : (statusWrite x o d s).log = s.log := by rw [statusWrite_frame]
@[simp] theorem statusWrite_fw (x : Job) (o : Nat) (d : Bytes) : (statusWrite x o d s).fw = s.fw := by rw [statusWrite_frame]
@[simp] theorem statusWrite_manifest (x : Job) (o : Nat) (d : Bytes) : (statusWrite x o d s).manifest = s.manifest := by rw [statusWrite_frame]
@[simp] theorem statusWrite_spdm (x : Job) (o : Nat) (d : Bytes) : (statusWrite x o d s).spdm = s.spdm := by rw [statusWrite_frame]
@[simp] theorem statusWrite_counters (x : Job) (o : Nat) (d : Bytes) : (statusWrite x o d s).counters = s.counters := by rw [statusWrite_frame]
@[simp] theorem statusWrite_dict (x : Job) (o : Nat) (d : Bytes) : (statusWrite x o d s).dict = s.dict := by rw [statusWrite_frame]
@[simp] theorem statusWrite_can (x : Job) (o : Nat) (d : Bytes) : (statusWrite x o d s).can = s.can := by rw [statusWrite_frame]
@[simp] theorem statusWrite_bist (x : Job) (o : Nat) (d : Bytes) : (statusWrite x o d s).bist = s.bist := by rw [statusWrite_frame]
@[simp] theorem statusWrite_dev (x : Job) (o : Nat) (d : Bytes) : (statusWrite x o d s).dev = s.dev := by rw [statusWrite_frame]
@[simp] theorem statusWrite_violations (x : Job) (o : Nat) (d : Bytes) : (statusWrite x o d s).violations = s.violations := by rw [statusWrite_frame]
@[simp] theorem statusWrite_queues (x : Job) (o : Nat) (d : Bytes) : (statusWrite x o d s).queues = s.queues := by rw [statusWrite_frame]
@[simp] theorem statusWrite_jobs (x : Job) (o : Nat) (d : Bytes) : (statusWrite x o d s).jobs = s.jobs := by rw [statusWrite_frame]
@[simp] theorem statusWrite_nextJob (x : Job) (o : Nat) (d : Bytes) : (statusWrite x o d s).nextJob = s.nextJob := by rw [statusWrite_frame]
@[simp] theorem statusWrite_eng (x : Job) (o : Nat) (d : Bytes) : (statusWrite x o d s).eng = s.eng := by rw [statusWrite_frame]
@[simp] theorem statusWrite_cores (x : Job) (o : Nat) (d : Bytes) : (statusWrite x o d s).cores = s.cores := by rw [statusWrite_frame]
@[simp] theorem statusWrite_pilot (x : Job) (o : Nat) (d : Bytes) : (statusWrite x o d s).pilot = s.pilot := by rw [statusWrite_frame]
@[simp] theorem statusWrite_runs (x : Job) (o : Nat) (d : Bytes) : (statusWrite x o d s).runs = s.runs := by rw [statusWrite_frame]
@[simp] theorem statusWrite_scans (x : Job) (o : Nat) (d : Bytes) : (statusWrite x o d s).scans = s.scans := by rw [statusWrite_frame]
@[simp] theorem statusWrite_nextScan (x : Job) (o : Nat) (d : Bytes) : (statusWrite x o d s).nextScan = s.nextScan := by rw [statusWrite_frame]
@[simp] theorem statusWrite_quays (x : Job) (o : Nat) (d : Bytes) : (statusWrite x o d s).quays = s.quays := by rw [statusWrite_frame]
@[simp] theorem statusWrite_canopy (x : Job) (o : Nat) (d : Bytes) : (statusWrite x o d s).canopy = s.canopy := by rw [statusWrite_frame]

/-! ## setJobState -/

theorem setJobState_frame (j st : Nat) : setJobState j st s =
    { s with host := (setJobState j st s).host, berths := (setJobState j st s).berths, pcie := (setJobState j st s).pcie, jobs := (setJobState j st s).jobs } := by
  unfold setJobState; split
  · rfl
  · split
    · rw [onJ_frame, statusWrite_frame]
    · rfl
@[simp] theorem setJobState_pending (j st : Nat) : (setJobState j st s).pending = s.pending := by rw [setJobState_frame]
@[simp] theorem setJobState_sys (j st : Nat) : (setJobState j st s).sys = s.sys := by rw [setJobState_frame]
@[simp] theorem setJobState_present (j st : Nat) : (setJobState j st s).present = s.present := by rw [setJobState_frame]
@[simp] theorem setJobState_mram (j st : Nat) : (setJobState j st s).mram = s.mram := by rw [setJobState_frame]
@[simp] theorem setJobState_flash (j st : Nat) : (setJobState j st s).flash = s.flash := by rw [setJobState_frame]
@[simp] theorem setJobState_log (j st : Nat) : (setJobState j st s).log = s.log := by rw [setJobState_frame]
@[simp] theorem setJobState_fw (j st : Nat) : (setJobState j st s).fw = s.fw := by rw [setJobState_frame]
@[simp] theorem setJobState_manifest (j st : Nat) : (setJobState j st s).manifest = s.manifest := by rw [setJobState_frame]
@[simp] theorem setJobState_spdm (j st : Nat) : (setJobState j st s).spdm = s.spdm := by rw [setJobState_frame]
@[simp] theorem setJobState_counters (j st : Nat) : (setJobState j st s).counters = s.counters := by rw [setJobState_frame]
@[simp] theorem setJobState_dict (j st : Nat) : (setJobState j st s).dict = s.dict := by rw [setJobState_frame]
@[simp] theorem setJobState_can (j st : Nat) : (setJobState j st s).can = s.can := by rw [setJobState_frame]
@[simp] theorem setJobState_bist (j st : Nat) : (setJobState j st s).bist = s.bist := by rw [setJobState_frame]
@[simp] theorem setJobState_dev (j st : Nat) : (setJobState j st s).dev = s.dev := by rw [setJobState_frame]
@[simp] theorem setJobState_violations (j st : Nat) : (setJobState j st s).violations = s.violations := by rw [setJobState_frame]
@[simp] theorem setJobState_queues (j st : Nat) : (setJobState j st s).queues = s.queues := by rw [setJobState_frame]
@[simp] theorem setJobState_nextJob (j st : Nat) : (setJobState j st s).nextJob = s.nextJob := by rw [setJobState_frame]
@[simp] theorem setJobState_eng (j st : Nat) : (setJobState j st s).eng = s.eng := by rw [setJobState_frame]
@[simp] theorem setJobState_cores (j st : Nat) : (setJobState j st s).cores = s.cores := by rw [setJobState_frame]
@[simp] theorem setJobState_pilot (j st : Nat) : (setJobState j st s).pilot = s.pilot := by rw [setJobState_frame]
@[simp] theorem setJobState_runs (j st : Nat) : (setJobState j st s).runs = s.runs := by rw [setJobState_frame]
@[simp] theorem setJobState_scans (j st : Nat) : (setJobState j st s).scans = s.scans := by rw [setJobState_frame]
@[simp] theorem setJobState_nextScan (j st : Nat) : (setJobState j st s).nextScan = s.nextScan := by rw [setJobState_frame]
@[simp] theorem setJobState_quays (j st : Nat) : (setJobState j st s).quays = s.quays := by rw [setJobState_frame]
@[simp] theorem setJobState_canopy (j st : Nat) : (setJobState j st s).canopy = s.canopy := by rw [setJobState_frame]

/-! ## beginJob -/

theorem beginJob_frame (j : Nat) : beginJob j s =
    { s with host := (beginJob j s).host, berths := (beginJob j s).berths, pcie := (beginJob j s).pcie, jobs := (beginJob j s).jobs } := by
  unfold beginJob; split
  · rfl
  · split
    · rfl
    · rw [setJobState_frame, onJ_frame]
@[simp] theorem beginJob_pending (j : Nat) : (beginJob j s).pending = s.pending := by rw [beginJob_frame]
@[simp] theorem beginJob_sys (j : Nat) : (beginJob j s).sys = s.sys := by rw [beginJob_frame]
@[simp] theorem beginJob_present (j : Nat) : (beginJob j s).present = s.present := by rw [beginJob_frame]
@[simp] theorem beginJob_mram (j : Nat) : (beginJob j s).mram = s.mram := by rw [beginJob_frame]
@[simp] theorem beginJob_flash (j : Nat) : (beginJob j s).flash = s.flash := by rw [beginJob_frame]
@[simp] theorem beginJob_log (j : Nat) : (beginJob j s).log = s.log := by rw [beginJob_frame]
@[simp] theorem beginJob_fw (j : Nat) : (beginJob j s).fw = s.fw := by rw [beginJob_frame]
@[simp] theorem beginJob_manifest (j : Nat) : (beginJob j s).manifest = s.manifest := by rw [beginJob_frame]
@[simp] theorem beginJob_spdm (j : Nat) : (beginJob j s).spdm = s.spdm := by rw [beginJob_frame]
@[simp] theorem beginJob_counters (j : Nat) : (beginJob j s).counters = s.counters := by rw [beginJob_frame]
@[simp] theorem beginJob_dict (j : Nat) : (beginJob j s).dict = s.dict := by rw [beginJob_frame]
@[simp] theorem beginJob_can (j : Nat) : (beginJob j s).can = s.can := by rw [beginJob_frame]
@[simp] theorem beginJob_bist (j : Nat) : (beginJob j s).bist = s.bist := by rw [beginJob_frame]
@[simp] theorem beginJob_dev (j : Nat) : (beginJob j s).dev = s.dev := by rw [beginJob_frame]
@[simp] theorem beginJob_violations (j : Nat) : (beginJob j s).violations = s.violations := by rw [beginJob_frame]
@[simp] theorem beginJob_queues (j : Nat) : (beginJob j s).queues = s.queues := by rw [beginJob_frame]
@[simp] theorem beginJob_nextJob (j : Nat) : (beginJob j s).nextJob = s.nextJob := by rw [beginJob_frame]
@[simp] theorem beginJob_eng (j : Nat) : (beginJob j s).eng = s.eng := by rw [beginJob_frame]
@[simp] theorem beginJob_cores (j : Nat) : (beginJob j s).cores = s.cores := by rw [beginJob_frame]
@[simp] theorem beginJob_pilot (j : Nat) : (beginJob j s).pilot = s.pilot := by rw [beginJob_frame]
@[simp] theorem beginJob_runs (j : Nat) : (beginJob j s).runs = s.runs := by rw [beginJob_frame]
@[simp] theorem beginJob_scans (j : Nat) : (beginJob j s).scans = s.scans := by rw [beginJob_frame]
@[simp] theorem beginJob_nextScan (j : Nat) : (beginJob j s).nextScan = s.nextScan := by rw [beginJob_frame]
@[simp] theorem beginJob_quays (j : Nat) : (beginJob j s).quays = s.quays := by rw [beginJob_frame]
@[simp] theorem beginJob_canopy (j : Nat) : (beginJob j s).canopy = s.canopy := by rw [beginJob_frame]

/-! ## advanceJob -/

theorem advanceJob_frame (j r b : Nat) : advanceJob j r b s =
    { s with host := (advanceJob j r b s).host, berths := (advanceJob j r b s).berths, pcie := (advanceJob j r b s).pcie, jobs := (advanceJob j r b s).jobs } := by
  unfold advanceJob; split
  · rfl
  · simp only; split
    · rw [onJ_frame]
    · rw [setJobState_frame, statusWrite_frame, onJ_frame]
@[simp] theorem advanceJob_pending (j r b : Nat) : (advanceJob j r b s).pending = s.pending := by rw [advanceJob_frame]
@[simp] theorem advanceJob_sys (j r b : Nat) : (advanceJob j r b s).sys = s.sys := by rw [advanceJob_frame]
@[simp] theorem advanceJob_present (j r b : Nat) : (advanceJob j r b s).present = s.present := by rw [advanceJob_frame]
@[simp] theorem advanceJob_mram (j r b : Nat) : (advanceJob j r b s).mram = s.mram := by rw [advanceJob_frame]
@[simp] theorem advanceJob_flash (j r b : Nat) : (advanceJob j r b s).flash = s.flash := by rw [advanceJob_frame]
@[simp] theorem advanceJob_log (j r b : Nat) : (advanceJob j r b s).log = s.log := by rw [advanceJob_frame]
@[simp] theorem advanceJob_fw (j r b : Nat) : (advanceJob j r b s).fw = s.fw := by rw [advanceJob_frame]
@[simp] theorem advanceJob_manifest (j r b : Nat) : (advanceJob j r b s).manifest = s.manifest := by rw [advanceJob_frame]
@[simp] theorem advanceJob_spdm (j r b : Nat) : (advanceJob j r b s).spdm = s.spdm := by rw [advanceJob_frame]
@[simp] theorem advanceJob_counters (j r b : Nat) : (advanceJob j r b s).counters = s.counters := by rw [advanceJob_frame]
@[simp] theorem advanceJob_dict (j r b : Nat) : (advanceJob j r b s).dict = s.dict := by rw [advanceJob_frame]
@[simp] theorem advanceJob_can (j r b : Nat) : (advanceJob j r b s).can = s.can := by rw [advanceJob_frame]
@[simp] theorem advanceJob_bist (j r b : Nat) : (advanceJob j r b s).bist = s.bist := by rw [advanceJob_frame]
@[simp] theorem advanceJob_dev (j r b : Nat) : (advanceJob j r b s).dev = s.dev := by rw [advanceJob_frame]
@[simp] theorem advanceJob_violations (j r b : Nat) : (advanceJob j r b s).violations = s.violations := by rw [advanceJob_frame]
@[simp] theorem advanceJob_queues (j r b : Nat) : (advanceJob j r b s).queues = s.queues := by rw [advanceJob_frame]
@[simp] theorem advanceJob_nextJob (j r b : Nat) : (advanceJob j r b s).nextJob = s.nextJob := by rw [advanceJob_frame]
@[simp] theorem advanceJob_eng (j r b : Nat) : (advanceJob j r b s).eng = s.eng := by rw [advanceJob_frame]
@[simp] theorem advanceJob_cores (j r b : Nat) : (advanceJob j r b s).cores = s.cores := by rw [advanceJob_frame]
@[simp] theorem advanceJob_pilot (j r b : Nat) : (advanceJob j r b s).pilot = s.pilot := by rw [advanceJob_frame]
@[simp] theorem advanceJob_runs (j r b : Nat) : (advanceJob j r b s).runs = s.runs := by rw [advanceJob_frame]
@[simp] theorem advanceJob_scans (j r b : Nat) : (advanceJob j r b s).scans = s.scans := by rw [advanceJob_frame]
@[simp] theorem advanceJob_nextScan (j r b : Nat) : (advanceJob j r b s).nextScan = s.nextScan := by rw [advanceJob_frame]
@[simp] theorem advanceJob_quays (j r b : Nat) : (advanceJob j r b s).quays = s.quays := by rw [advanceJob_frame]
@[simp] theorem advanceJob_canopy (j r b : Nat) : (advanceJob j r b s).canopy = s.canopy := by rw [advanceJob_frame]

/-! ## settle -/

theorem settle_frame (j : Nat) (e : JobEnd) : settle j e s =
    { s with jobs := (settle j e s).jobs } := by
  exact onJ_frame ..
@[simp] theorem settle_pending (j : Nat) (e : JobEnd) : (settle j e s).pending = s.pending := by rw [settle_frame]
@[simp] theorem settle_sys (j : Nat) (e : JobEnd) : (settle j e s).sys = s.sys := by rw [settle_frame]
@[simp] theorem settle_present (j : Nat) (e : JobEnd) : (settle j e s).present = s.present := by rw [settle_frame]
@[simp] theorem settle_mram (j : Nat) (e : JobEnd) : (settle j e s).mram = s.mram := by rw [settle_frame]
@[simp] theorem settle_flash (j : Nat) (e : JobEnd) : (settle j e s).flash = s.flash := by rw [settle_frame]
@[simp] theorem settle_log (j : Nat) (e : JobEnd) : (settle j e s).log = s.log := by rw [settle_frame]
@[simp] theorem settle_fw (j : Nat) (e : JobEnd) : (settle j e s).fw = s.fw := by rw [settle_frame]
@[simp] theorem settle_manifest (j : Nat) (e : JobEnd) : (settle j e s).manifest = s.manifest := by rw [settle_frame]
@[simp] theorem settle_spdm (j : Nat) (e : JobEnd) : (settle j e s).spdm = s.spdm := by rw [settle_frame]
@[simp] theorem settle_pcie (j : Nat) (e : JobEnd) : (settle j e s).pcie = s.pcie := by rw [settle_frame]
@[simp] theorem settle_host (j : Nat) (e : JobEnd) : (settle j e s).host = s.host := by rw [settle_frame]
@[simp] theorem settle_counters (j : Nat) (e : JobEnd) : (settle j e s).counters = s.counters := by rw [settle_frame]
@[simp] theorem settle_dict (j : Nat) (e : JobEnd) : (settle j e s).dict = s.dict := by rw [settle_frame]
@[simp] theorem settle_can (j : Nat) (e : JobEnd) : (settle j e s).can = s.can := by rw [settle_frame]
@[simp] theorem settle_bist (j : Nat) (e : JobEnd) : (settle j e s).bist = s.bist := by rw [settle_frame]
@[simp] theorem settle_dev (j : Nat) (e : JobEnd) : (settle j e s).dev = s.dev := by rw [settle_frame]
@[simp] theorem settle_violations (j : Nat) (e : JobEnd) : (settle j e s).violations = s.violations := by rw [settle_frame]
@[simp] theorem settle_queues (j : Nat) (e : JobEnd) : (settle j e s).queues = s.queues := by rw [settle_frame]
@[simp] theorem settle_nextJob (j : Nat) (e : JobEnd) : (settle j e s).nextJob = s.nextJob := by rw [settle_frame]
@[simp] theorem settle_berths (j : Nat) (e : JobEnd) : (settle j e s).berths = s.berths := by rw [settle_frame]
@[simp] theorem settle_eng (j : Nat) (e : JobEnd) : (settle j e s).eng = s.eng := by rw [settle_frame]
@[simp] theorem settle_cores (j : Nat) (e : JobEnd) : (settle j e s).cores = s.cores := by rw [settle_frame]
@[simp] theorem settle_pilot (j : Nat) (e : JobEnd) : (settle j e s).pilot = s.pilot := by rw [settle_frame]
@[simp] theorem settle_runs (j : Nat) (e : JobEnd) : (settle j e s).runs = s.runs := by rw [settle_frame]
@[simp] theorem settle_scans (j : Nat) (e : JobEnd) : (settle j e s).scans = s.scans := by rw [settle_frame]
@[simp] theorem settle_nextScan (j : Nat) (e : JobEnd) : (settle j e s).nextScan = s.nextScan := by rw [settle_frame]
@[simp] theorem settle_quays (j : Nat) (e : JobEnd) : (settle j e s).quays = s.quays := by rw [settle_frame]
@[simp] theorem settle_canopy (j : Nat) (e : JobEnd) : (settle j e s).canopy = s.canopy := by rw [settle_frame]

/-! ## addProgress -/

theorem addProgress_frame (j n : Nat) : addProgress j n s =
    { s with jobs := (addProgress j n s).jobs } := by
  exact onJ_frame ..
@[simp] theorem addProgress_pending (j n : Nat) : (addProgress j n s).pending = s.pending := by rw [addProgress_frame]
@[simp] theorem addProgress_sys (j n : Nat) : (addProgress j n s).sys = s.sys := by rw [addProgress_frame]
@[simp] theorem addProgress_present (j n : Nat) : (addProgress j n s).present = s.present := by rw [addProgress_frame]
@[simp] theorem addProgress_mram (j n : Nat) : (addProgress j n s).mram = s.mram := by rw [addProgress_frame]
@[simp] theorem addProgress_flash (j n : Nat) : (addProgress j n s).flash = s.flash := by rw [addProgress_frame]
@[simp] theorem addProgress_log (j n : Nat) : (addProgress j n s).log = s.log := by rw [addProgress_frame]
@[simp] theorem addProgress_fw (j n : Nat) : (addProgress j n s).fw = s.fw := by rw [addProgress_frame]
@[simp] theorem addProgress_manifest (j n : Nat) : (addProgress j n s).manifest = s.manifest := by rw [addProgress_frame]
@[simp] theorem addProgress_spdm (j n : Nat) : (addProgress j n s).spdm = s.spdm := by rw [addProgress_frame]
@[simp] theorem addProgress_pcie (j n : Nat) : (addProgress j n s).pcie = s.pcie := by rw [addProgress_frame]
@[simp] theorem addProgress_host (j n : Nat) : (addProgress j n s).host = s.host := by rw [addProgress_frame]
@[simp] theorem addProgress_counters (j n : Nat) : (addProgress j n s).counters = s.counters := by rw [addProgress_frame]
@[simp] theorem addProgress_dict (j n : Nat) : (addProgress j n s).dict = s.dict := by rw [addProgress_frame]
@[simp] theorem addProgress_can (j n : Nat) : (addProgress j n s).can = s.can := by rw [addProgress_frame]
@[simp] theorem addProgress_bist (j n : Nat) : (addProgress j n s).bist = s.bist := by rw [addProgress_frame]
@[simp] theorem addProgress_dev (j n : Nat) : (addProgress j n s).dev = s.dev := by rw [addProgress_frame]
@[simp] theorem addProgress_violations (j n : Nat) : (addProgress j n s).violations = s.violations := by rw [addProgress_frame]
@[simp] theorem addProgress_queues (j n : Nat) : (addProgress j n s).queues = s.queues := by rw [addProgress_frame]
@[simp] theorem addProgress_nextJob (j n : Nat) : (addProgress j n s).nextJob = s.nextJob := by rw [addProgress_frame]
@[simp] theorem addProgress_berths (j n : Nat) : (addProgress j n s).berths = s.berths := by rw [addProgress_frame]
@[simp] theorem addProgress_eng (j n : Nat) : (addProgress j n s).eng = s.eng := by rw [addProgress_frame]
@[simp] theorem addProgress_cores (j n : Nat) : (addProgress j n s).cores = s.cores := by rw [addProgress_frame]
@[simp] theorem addProgress_pilot (j n : Nat) : (addProgress j n s).pilot = s.pilot := by rw [addProgress_frame]
@[simp] theorem addProgress_runs (j n : Nat) : (addProgress j n s).runs = s.runs := by rw [addProgress_frame]
@[simp] theorem addProgress_scans (j n : Nat) : (addProgress j n s).scans = s.scans := by rw [addProgress_frame]
@[simp] theorem addProgress_nextScan (j n : Nat) : (addProgress j n s).nextScan = s.nextScan := by rw [addProgress_frame]
@[simp] theorem addProgress_quays (j n : Nat) : (addProgress j n s).quays = s.quays := by rw [addProgress_frame]
@[simp] theorem addProgress_canopy (j n : Nat) : (addProgress j n s).canopy = s.canopy := by rw [addProgress_frame]

/-! ## wake -/

theorem wake_frame (t : Nat) : wake t s =
    { s with pilot := (wake t s).pilot } := by
  unfold wake; simp only; split <;> rfl
@[simp] theorem wake_pending (t : Nat) : (wake t s).pending = s.pending := by rw [wake_frame]
@[simp] theorem wake_sys (t : Nat) : (wake t s).sys = s.sys := by rw [wake_frame]
@[simp] theorem wake_present (t : Nat) : (wake t s).present = s.present := by rw [wake_frame]
@[simp] theorem wake_mram (t : Nat) : (wake t s).mram = s.mram := by rw [wake_frame]
@[simp] theorem wake_flash (t : Nat) : (wake t s).flash = s.flash := by rw [wake_frame]
@[simp] theorem wake_log (t : Nat) : (wake t s).log = s.log := by rw [wake_frame]
@[simp] theorem wake_fw (t : Nat) : (wake t s).fw = s.fw := by rw [wake_frame]
@[simp] theorem wake_manifest (t : Nat) : (wake t s).manifest = s.manifest := by rw [wake_frame]
@[simp] theorem wake_spdm (t : Nat) : (wake t s).spdm = s.spdm := by rw [wake_frame]
@[simp] theorem wake_pcie (t : Nat) : (wake t s).pcie = s.pcie := by rw [wake_frame]
@[simp] theorem wake_host (t : Nat) : (wake t s).host = s.host := by rw [wake_frame]
@[simp] theorem wake_counters (t : Nat) : (wake t s).counters = s.counters := by rw [wake_frame]
@[simp] theorem wake_dict (t : Nat) : (wake t s).dict = s.dict := by rw [wake_frame]
@[simp] theorem wake_can (t : Nat) : (wake t s).can = s.can := by rw [wake_frame]
@[simp] theorem wake_bist (t : Nat) : (wake t s).bist = s.bist := by rw [wake_frame]
@[simp] theorem wake_dev (t : Nat) : (wake t s).dev = s.dev := by rw [wake_frame]
@[simp] theorem wake_violations (t : Nat) : (wake t s).violations = s.violations := by rw [wake_frame]
@[simp] theorem wake_queues (t : Nat) : (wake t s).queues = s.queues := by rw [wake_frame]
@[simp] theorem wake_jobs (t : Nat) : (wake t s).jobs = s.jobs := by rw [wake_frame]
@[simp] theorem wake_nextJob (t : Nat) : (wake t s).nextJob = s.nextJob := by rw [wake_frame]
@[simp] theorem wake_berths (t : Nat) : (wake t s).berths = s.berths := by rw [wake_frame]
@[simp] theorem wake_eng (t : Nat) : (wake t s).eng = s.eng := by rw [wake_frame]
@[simp] theorem wake_cores (t : Nat) : (wake t s).cores = s.cores := by rw [wake_frame]
@[simp] theorem wake_runs (t : Nat) : (wake t s).runs = s.runs := by rw [wake_frame]
@[simp] theorem wake_scans (t : Nat) : (wake t s).scans = s.scans := by rw [wake_frame]
@[simp] theorem wake_nextScan (t : Nat) : (wake t s).nextScan = s.nextScan := by rw [wake_frame]
@[simp] theorem wake_quays (t : Nat) : (wake t s).quays = s.quays := by rw [wake_frame]
@[simp] theorem wake_canopy (t : Nat) : (wake t s).canopy = s.canopy := by rw [wake_frame]

/-! ## pulse -/

theorem pulse_frame (t f : Nat) (x : Option (Fin 512)) : pulse t f x s =
    { s with pilot := (pulse t f x s).pilot, counters := (pulse t f x s).counters, pcie := (pulse t f x s).pcie } := by
  unfold pulse countP; simp only; split
  · rw [count_frame]
  · split
    · rw [count_frame]
    · rw [wake_frame]; unfold onT onPilot; rw [count_frame]
@[simp] theorem pulse_pending (t f : Nat) (x : Option (Fin 512)) : (pulse t f x s).pending = s.pending := by rw [pulse_frame]
@[simp] theorem pulse_sys (t f : Nat) (x : Option (Fin 512)) : (pulse t f x s).sys = s.sys := by rw [pulse_frame]
@[simp] theorem pulse_present (t f : Nat) (x : Option (Fin 512)) : (pulse t f x s).present = s.present := by rw [pulse_frame]
@[simp] theorem pulse_mram (t f : Nat) (x : Option (Fin 512)) : (pulse t f x s).mram = s.mram := by rw [pulse_frame]
@[simp] theorem pulse_flash (t f : Nat) (x : Option (Fin 512)) : (pulse t f x s).flash = s.flash := by rw [pulse_frame]
@[simp] theorem pulse_log (t f : Nat) (x : Option (Fin 512)) : (pulse t f x s).log = s.log := by rw [pulse_frame]
@[simp] theorem pulse_fw (t f : Nat) (x : Option (Fin 512)) : (pulse t f x s).fw = s.fw := by rw [pulse_frame]
@[simp] theorem pulse_manifest (t f : Nat) (x : Option (Fin 512)) : (pulse t f x s).manifest = s.manifest := by rw [pulse_frame]
@[simp] theorem pulse_spdm (t f : Nat) (x : Option (Fin 512)) : (pulse t f x s).spdm = s.spdm := by rw [pulse_frame]
@[simp] theorem pulse_host (t f : Nat) (x : Option (Fin 512)) : (pulse t f x s).host = s.host := by rw [pulse_frame]
@[simp] theorem pulse_dict (t f : Nat) (x : Option (Fin 512)) : (pulse t f x s).dict = s.dict := by rw [pulse_frame]
@[simp] theorem pulse_can (t f : Nat) (x : Option (Fin 512)) : (pulse t f x s).can = s.can := by rw [pulse_frame]
@[simp] theorem pulse_bist (t f : Nat) (x : Option (Fin 512)) : (pulse t f x s).bist = s.bist := by rw [pulse_frame]
@[simp] theorem pulse_dev (t f : Nat) (x : Option (Fin 512)) : (pulse t f x s).dev = s.dev := by rw [pulse_frame]
@[simp] theorem pulse_violations (t f : Nat) (x : Option (Fin 512)) : (pulse t f x s).violations = s.violations := by rw [pulse_frame]
@[simp] theorem pulse_queues (t f : Nat) (x : Option (Fin 512)) : (pulse t f x s).queues = s.queues := by rw [pulse_frame]
@[simp] theorem pulse_jobs (t f : Nat) (x : Option (Fin 512)) : (pulse t f x s).jobs = s.jobs := by rw [pulse_frame]
@[simp] theorem pulse_nextJob (t f : Nat) (x : Option (Fin 512)) : (pulse t f x s).nextJob = s.nextJob := by rw [pulse_frame]
@[simp] theorem pulse_berths (t f : Nat) (x : Option (Fin 512)) : (pulse t f x s).berths = s.berths := by rw [pulse_frame]
@[simp] theorem pulse_eng (t f : Nat) (x : Option (Fin 512)) : (pulse t f x s).eng = s.eng := by rw [pulse_frame]
@[simp] theorem pulse_cores (t f : Nat) (x : Option (Fin 512)) : (pulse t f x s).cores = s.cores := by rw [pulse_frame]
@[simp] theorem pulse_runs (t f : Nat) (x : Option (Fin 512)) : (pulse t f x s).runs = s.runs := by rw [pulse_frame]
@[simp] theorem pulse_scans (t f : Nat) (x : Option (Fin 512)) : (pulse t f x s).scans = s.scans := by rw [pulse_frame]
@[simp] theorem pulse_nextScan (t f : Nat) (x : Option (Fin 512)) : (pulse t f x s).nextScan = s.nextScan := by rw [pulse_frame]
@[simp] theorem pulse_quays (t f : Nat) (x : Option (Fin 512)) : (pulse t f x s).quays = s.quays := by rw [pulse_frame]
@[simp] theorem pulse_canopy (t f : Nat) (x : Option (Fin 512)) : (pulse t f x s).canopy = s.canopy := by rw [pulse_frame]

/-! ## Tasks -/

@[simp] theorem count_getT (b : CounterBlock) (i n t : Nat) : getT (count b i n s) t = getT s t := by simp [getT]
@[simp] theorem count_getCore (b : CounterBlock) (i n c : Nat) : getCore (count b i n s) c = getCore s c := by
  simp [getCore]
@[simp] theorem onT_self (t : Nat) (f : Task → Task) : getT (onT t f s) t = f (getT s t) := tblGet_tblMod_self ..
theorem onT_ne {t n : Nat} (f : Task → Task) (h : n ≠ t) : getT (onT t f s) n = getT s n :=
  tblGet_tblMod_of_ne _ _ _ h
theorem onPilot_getT {f : Pilot → Pilot} (h : (f s.pilot).tasks = s.pilot.tasks) (n : Nat) :
    getT (onPilot f s) n = getT s n := by unfold getT onPilot; rw [h]

end Sys2Proof.Machine
end

