-- ==== Sys2Proof/Laws/Counters.lean ====
section
/-! SUPPORT. Counters: what a count and a clear leave in their block. -/

namespace Sys2Proof.Machine

theorem tblGet_filter {α : Type} (d : α) (t : Tbl α) (p : Nat → Bool) (k : Nat) :
    tblGet d (t.filter (fun e => p e.1)) k = if p k then tblGet d t k else d := by
  induction t with
  | nil => simp [tblGet]
  | cons e t ih =>
    obtain ⟨j, v⟩ := e
    rw [List.filter_cons]
    by_cases hj : p j = true
    · rw [if_pos hj]
      unfold tblGet
      by_cases hk : k = j
      · subst hk; rw [if_pos rfl, if_pos hj, if_pos rfl]
      · rw [if_neg hk, if_neg hk]; exact ih
    · rw [if_neg hj, ih]
      by_cases hk : k = j
      · subst hk; rw [if_neg hj, if_neg hj]
      · conv => rhs; unfold tblGet
        rw [if_neg hk]

theorem setBit_getLsbD {w : Nat} (v : BitVec w) (i j : Nat) (b : Bool) :
    (setBit v i b).getLsbD j = if j = i ∧ i < w then b else v.getLsbD j := by
  by_cases hw : j < w
  · by_cases h : j = i
    · subst h
      rw [if_pos ⟨rfl, hw⟩]
      unfold setBit
      cases b <;> simp [hw]
    · rw [if_neg (fun e => h e.1)]
      unfold setBit
      cases b <;> simp [hw]
      all_goals (intros; omega)
  · have e : ∀ x : BitVec w, x.getLsbD j = false := fun x => BitVec.getLsbD_of_ge _ _ (by omega)
    rw [e, e, if_neg (by omega)]

theorem ovf_clear (p : Nat → Bool) (v : BitVec 32) (j : Nat) :
    ((List.range 32).foldl (fun v i => if p i then setBit v i false else v) v).getLsbD j = (if p j then false else v.getLsbD j) := by
  have go : ∀ l : List Nat, (∀ i ∈ l, i < 32) → ∀ v : BitVec 32,
      (l.foldl (fun v i => if p i then setBit v i false else v) v).getLsbD j =
      (if j ∈ l ∧ p j = true then false else v.getLsbD j) := by
    intro l
    induction l with
    | nil => intro _ v; simp
    | cons n l ih =>
      intro hl v
      rw [List.foldl_cons, ih (fun i hi => hl i (List.mem_cons_of_mem _ hi))]
      by_cases h : j ∈ l ∧ p j = true
      · rw [if_pos h, if_pos ⟨List.mem_cons_of_mem _ h.1, h.2⟩]
      · rw [if_neg h]
        by_cases hp : p n = true
        · rw [if_pos hp, setBit_getLsbD]
          by_cases hj : j = n
          · subst hj
            rw [if_pos ⟨rfl, hl j (List.mem_cons_self ..)⟩, if_pos ⟨List.mem_cons_self .., hp⟩]
          · rw [if_neg (fun e => hj e.1), if_neg]
            rintro ⟨h1, h2⟩
            rcases List.mem_cons.1 h1 with h1 | h1
            · exact hj h1
            · exact h ⟨h1, h2⟩
        · rw [if_neg hp, if_neg]
          rintro ⟨h1, h2⟩
          rcases List.mem_cons.1 h1 with h1 | h1
          · rw [h1] at h2; exact hp h2
          · exact h ⟨h1, h2⟩
  rw [go _ (fun i hi => List.mem_range.1 hi)]
  by_cases hj : j < 32
  · simp [hj]
  · have e : v.getLsbD j = false := BitVec.getLsbD_of_ge _ _ (by omega)
    rw [e]; simp

theorem clear_spec (s : State) (b : CounterBlock) (which : Nat → Bool) (j : Nat) :
    counterVal (clearCounters b which s) b j = (if which j then 0 else counterVal s b j) ∧
    (tblGet {} (clearCounters b which s).counters (blockKey b)).ovf.getLsbD j =
      (if which j then false else (tblGet {} s.counters (blockKey b)).ovf.getLsbD j) ∧
    { clearCounters b which s with counters := s.counters } = s ∧
    ∀ k, k ≠ blockKey b → tblGet {} (clearCounters b which s).counters k = tblGet {} s.counters k := by
  refine ⟨?_, ?_, rfl, fun k hk => tblGet_tblSet_of_ne _ _ _ hk⟩
  · unfold counterVal clearCounters
    simp only [tblGet_tblSet_self]
    rw [tblGet_filter (p := fun k => !(which k))]
    cases which j <;> rfl
  · unfold clearCounters
    simp only [tblGet_tblSet_self, ovf_clear]

theorem count_spec {s : State} {b : CounterBlock} {i n : Nat} (hn : 0 < n) :
    let v := counterVal s b i + n
    let c := tblGet {} (count b i n s).counters (blockKey b)
    let c0 := tblGet {} s.counters (blockKey b)
    (v ≤ counterMax b i → c = { c0 with vals := tblSet c0.vals i v }) ∧
    (counterMax b i < v → c = ⟨tblSet c0.vals i (if isEvent b i then v % (counterMax b i + 1) else counterMax b i), setBit c0.ovf i true⟩) ∧
    (counterMax b i < v → isEvent b i = true → ∀ e, blockSource b = some e → tblGet false (count b i n s).pcie.esPending e = true) := by
  intro v c c0
  have e : c = (countIn b i n c0).1 := by
    show tblGet {} (count b i n s).counters (blockKey b) = _
    unfold count
    rw [if_neg (by omega)]
    simp only
    split
    · split
      · rw [raiseSource_counters]; exact tblGet_tblSet_self ..
      · exact tblGet_tblSet_self ..
    · exact tblGet_tblSet_self ..
  have v' : v = tblGet 0 c0.vals i + n := rfl
  refine ⟨fun h => ?_, fun h => ?_, fun h he e2 hs => ?_⟩
  · rw [e]; unfold countIn; simp only [← v', if_pos h]
  · rw [e]; unfold countIn; simp only [← v']
    rw [if_neg (by omega)]
    cases isEvent b i <;> rfl
  · have r : (countIn b i n c0).2 = true := by
      unfold countIn; simp only [← v']
      rw [if_neg (by omega), he]; rfl
    have r' : (countIn b i n (tblGet {} s.counters (blockKey b))).2 = true := r
    unfold count
    rw [if_neg (by omega)]
    simp only [r', if_true, hs]
    have ss (v : Nat) (s : State) : (signalVector v s).pcie.esPending = s.pcie.esPending := by
      unfold signalVector
      split
      · rfl
      · split
        · rfl
        · unfold sendMsix; simp only; split
          · rfl
          · split <;> rfl
    unfold raiseSource
    simp only
    split
    · rw [ss]; exact tblGet_tblSet_self ..
    · exact tblGet_tblSet_self ..

end Sys2Proof.Machine
end

