-- ==== Sys2Proof/Laws/Keeps.lean ====
section
/-! SUPPORT. What no command undoes: `Keeps b s` says that, as against the state `b`, the state `s` has the same queue
of waiting commands, has taken no free value back, and has its memories in canonical form if `b` had. Each operation
on the state carries `Keeps b` from its argument to its result. -/

namespace Sys2Proof.Machine

/-- See the head of this file. -/
def Keeps (b s : State) : Prop :=
  (memoriesWf b → memoriesWf s) ∧ s.pending = b.pending ∧ b.sys.fresh ≤ s.sys.fresh

/-- The same of the state in a pair, an optional state and an answer. -/
def KPair {α : Type} (b : State) (p : α × State) : Prop := Keeps b p.2
def KOpt (b : State) : Option State → Prop
  | some s => Keeps b s
  | none => True
def KExc {ε : Type} (b : State) : Except ε State → Prop
  | .ok s => Keeps b s
  | .error _ => True

theorem Keeps.refl (s : State) : Keeps s s := ⟨id, rfl, Nat.le_refl _⟩

theorem KPair.of {α : Type} {b t : State} {a : α} {p : α × State} (h : KPair b p) (e : p = (a, t)) : Keeps b t := by
  subst e; exact h
theorem KPair.mk {α : Type} {b t : State} {a : α} (h : Keeps b t) : KPair b (a, t) := h
theorem KPair.snd {α : Type} {b : State} {p : α × State} (h : KPair b p) : Keeps b p.2 := h
theorem KOpt.of {b t : State} {o : Option State} (h : KOpt b o) (e : o = some t) : Keeps b t := by subst e; exact h
theorem KExc.of {ε : Type} {b t : State} {x : Except ε State} (h : KExc b x) (e : x = .ok t) : Keeps b t := by
  subst e; exact h
theorem KExc.error {ε : Type} {b : State} {e : ε} : KExc b (.error e) := trivial
theorem KExc.ok {ε : Type} {b t : State} (h : Keeps b t) : KExc (ε := ε) b (.ok t) := h
theorem KOpt.none {b : State} : KOpt b .none := trivial
theorem KOpt.some {b t : State} (h : Keeps b t) : KOpt b (.some t) := h
theorem KOpt.map {α : Type} {b : State} {o : Option α} {f : α → State} (h : ∀ x, Keeps b (f x)) : KOpt b (o.map f) := by
  cases o with
  | none => trivial
  | some x => exact h x

/-- An update of the other fields. -/
theorem Keeps.fields {b s : State}
    {x2 : Present} {x3 : Mram} {x5 : LogQueue} {x6 : Firmware} {x7 : Manifest} {x8 : Spdm} {x9 : Pcie} {x11 : Tbl
    Counters} {x12 : Dict} {x13 : CanNode} {x14 : SelfTest} {x16 : List Violation} {x17 : Tbl Queue} {x18 : Tbl
    Job} {x19 : Nat} {x20 : Tbl Berth} {x21 : Engines} {x22 : Tbl Core} {x23 : Pilot} {x24 : Tbl Run} {x25 : Tbl
    ScanTask} {x26 : Nat} {x27 : Tbl Quay} {x28 : Canopy}
    (h : Keeps b s) :
    Keeps b ⟨s.pending, s.sys, x2, x3, s.flash, x5, x6, x7, x8, x9, s.host, x11, x12, x13, x14, s.dev, x16, x17, x18, x19,
      x20, x21, x22, x23, x24, x25, x26, x27, x28⟩ := h

variable {b s : State}

theorem foldl_keeps {α : Type} {f : State → α → State} {l : List α} (hf : ∀ t x, Keeps b t → Keeps b (f t x))
    (h : Keeps b s) : Keeps b (l.foldl f s) := by
  induction l generalizing s with
  | nil => exact h
  | cons x l ih => exact ih (hf s x h)

theorem foldl_snd_keeps {α β : Type} {f : β × State → α → β × State} {l : List α} {p : β × State}
    (hf : ∀ t x, KPair b t → KPair b (f t x)) (h : KPair b p) : KPair b (l.foldl f p) := by
  induction l generalizing p with
  | nil => exact h
  | cons x l ih => exact ih (hf p x h)

theorem repeat_keeps {f : State → State} {n : Nat} (hf : ∀ t, Keeps b t → Keeps b (f t)) (h : Keeps b s) :
    Keeps b (Nat.repeat f n s) := by
  induction n with
  | zero => exact h
  | succ n ih => exact hf _ ih

/-- What a state keeps depends on these fields alone. -/
theorem Keeps.congr {t : State} (h : Keeps b s) (hp : t.pending = s.pending) (hy : s.sys.fresh ≤ t.sys.fresh)
    (hd : t.dev.mem = s.dev.mem) (hi : t.dev.history = s.dev.history) (hn : t.dev.now = s.dev.now) (hh : t.host.mem = s.host.mem) (ha : t.flash.bankA = s.flash.bankA)
    (hb : t.flash.bankB = s.flash.bankB) : Keeps b t := by
  unfold Keeps memoriesWf devWf at *
  rw [hp, hd, hi, hn, hh, ha, hb]
  exact ⟨h.1, h.2.1, Nat.le_trans h.2.2 hy⟩

theorem onSys_keeps {f : Sys → Sys} (hf : ∀ y, y.fresh ≤ (f y).fresh) (h : Keeps b s) : Keeps b (onSys f s) :=
  h.congr rfl (hf _) rfl rfl rfl rfl rfl rfl
theorem onDev_keeps {f : DevMem → DevMem} (hf : ∀ d, devWf d → devWf (f d)) (h : Keeps b s) :
    Keeps b (onDev f s) :=
  ⟨fun hb => let w := h.1 hb; ⟨hf _ w.1, w.2⟩, h.2⟩
theorem onHost_keeps {f : HostSide → HostSide} (hf : ∀ d, memWf 0 d.mem → memWf 0 (f d).mem) (h : Keeps b s) :
    Keeps b (onHost f s) :=
  ⟨fun hb => let w := h.1 hb; ⟨w.1, hf _ w.2.1, w.2.2⟩, h.2⟩
theorem onFlash_keeps {f : Flash → Flash} (hf : ∀ d, memWf 0xFF d.bankA → memWf 0xFF d.bankB →
    memWf 0xFF (f d).bankA ∧ memWf 0xFF (f d).bankB) (h : Keeps b s) : Keeps b (onFlash f s) :=
  ⟨fun hb => let w := h.1 hb; ⟨w.1, w.2.1, hf _ w.2.2.1 w.2.2.2⟩, h.2⟩
theorem onPresent_keeps {f : Present → Present} (h : Keeps b s) : Keeps b (onPresent f s) := h
theorem onMram_keeps {f : Mram → Mram} (h : Keeps b s) : Keeps b (onMram f s) := h
theorem onLog_keeps {f : LogQueue → LogQueue} (h : Keeps b s) : Keeps b (onLog f s) := h
theorem onFw_keeps {f : Firmware → Firmware} (h : Keeps b s) : Keeps b (onFw f s) := h
theorem onManifest_keeps {f : Manifest → Manifest} (h : Keeps b s) : Keeps b (onManifest f s) := h
theorem onSpdm_keeps {f : Spdm → Spdm} (h : Keeps b s) : Keeps b (onSpdm f s) := h
theorem onPcie_keeps {f : Pcie → Pcie} (h : Keeps b s) : Keeps b (onPcie f s) := h
theorem onDict_keeps {f : Dict → Dict} (h : Keeps b s) : Keeps b (onDict f s) := h
theorem onCan_keeps {f : CanNode → CanNode} (h : Keeps b s) : Keeps b (onCan f s) := h
theorem onBist_keeps {f : SelfTest → SelfTest} (h : Keeps b s) : Keeps b (onBist f s) := h
theorem onEng_keeps {f : Engines → Engines} (h : Keeps b s) : Keeps b (onEng f s) := h
theorem onPilot_keeps {f : Pilot → Pilot} (h : Keeps b s) : Keeps b (onPilot f s) := h
theorem onQ_keeps {q : Nat} {f : Queue → Queue} (h : Keeps b s) : Keeps b (onQ q f s) := h
theorem onB_keeps {n : Nat} {f : Berth → Berth} (h : Keeps b s) : Keeps b (onB n f s) := h
theorem onCore_keeps {c : Nat} {f : Core → Core} (h : Keeps b s) : Keeps b (onCore c f s) := h
theorem onJ_keeps {j : Nat} {f : Job → Job} (h : Keeps b s) : Keeps b (onJ j f s) := by
  unfold onJ; split <;> exact h
theorem takeFresh_keeps (h : Keeps b s) : KPair b (takeFresh s) := onSys_keeps (fun y => Nat.le_succ y.fresh) h

theorem storeHost_wf (key : Nat) (data : Bytes) {m : List Host.Cell} (a : Nat) (h : memWf 0 m) :
    memWf 0 (storeHost key a data m) := by
  induction data generalizing m a with
  | nil => exact h
  | cons x t ih => exact ih (a + 1) (memSet_wf _ x h)

theorem storeHost_foldl_wf (l : List (Nat × Nat × Bytes)) {m : List Host.Cell} (h : memWf 0 m) :
    memWf 0 (l.foldl (fun m w => storeHost w.1 w.2.1 w.2.2 m) m) := by
  induction l generalizing m with
  | nil => exact h
  | cons x l ih => exact ih (storeHost_wf x.1 x.2.2 x.2.1 h)

theorem hostSync_keeps {v : HostView} (h : Keeps b s) : Keeps b (hostSync v s) :=
  onHost_keeps (fun _ hd => storeHost_foldl_wf _ hd) h
theorem putHost_keeps {key a : Nat} {data : Bytes} (h : Keeps b s) : Keeps b (putHost key a data s) :=
  onHost_keeps (fun _ hd => storeHost_wf key data a hd) h

end Sys2Proof.Machine
end

