-- ==== Sys2Proof/Laws/KeepsJobs.lean ====
section
/-! SUPPORT. One lemma per operation on the state: what the shared operations, the queues and the jobs keep. -/

namespace Sys2Proof.Machine

variable {b : State}

theorem sendMsix_keeps {a0 a1} (h0 : Keeps b a1) :
    Keeps b (sendMsix a0 a1) := by
  unfold sendMsix
  try dsimp only
  with_reducible repeat' (first | assumption | apply onPcie_keeps | split)

theorem signalVector_keeps {a0 a1} (h0 : Keeps b a1) :
    Keeps b (signalVector a0 a1) := by
  unfold signalVector
  try dsimp only
  with_reducible repeat' (first | assumption | apply onPcie_keeps | apply sendMsix_keeps | split)

theorem raiseSource_keeps {a0 a1} (h0 : Keeps b a1) :
    Keeps b (raiseSource a0 a1) := by
  unfold raiseSource
  try dsimp only
  with_reducible repeat' (first | assumption | apply onPcie_keeps | apply signalVector_keeps | split)

theorem count_keeps {a0 a1 a2 a3} (h0 : Keeps b a3) :
    Keeps b (count a0 a1 a2 a3) := by
  unfold count
  try dsimp only
  with_reducible repeat' (first | assumption | apply raiseSource_keeps | split | apply Keeps.fields)

theorem queueRecord_keeps {a0 a1} (h0 : Keeps b a1) :
    Keeps b (queueRecord a0 a1) := by
  unfold queueRecord
  try dsimp only
  with_reducible repeat' (first | assumption | apply onMram_keeps | apply onLog_keeps | split)

theorem logRecord_keeps {a0 a1 a2 a3 a4 a5} (h0 : Keeps b a5) :
    Keeps b (logRecord a0 a1 a2 a3 a4 a5) := by
  unfold logRecord
  try dsimp only
  with_reducible repeat' (first | assumption | apply queueRecord_keeps)

theorem canSend_keeps {a0 a1} (h0 : Keeps b a1) :
    Keeps b (canSend a0 a1) := by
  unfold canSend
  try dsimp only
  with_reducible repeat' (first | assumption | apply onCan_keeps)

theorem emcyFrame_keeps {a0 a1} (h0 : Keeps b a1) :
    Keeps b (emcyFrame a0 a1) := by
  unfold emcyFrame
  try dsimp only
  with_reducible repeat' (first | assumption | apply onCan_keeps | apply canSend_keeps | split)

theorem emcySend_keeps {a0 a1 a2 a3} (h0 : Keeps b a3) :
    Keeps b (emcySend a0 a1 a2 a3) := by
  unfold emcySend
  try dsimp only
  with_reducible repeat' (first | assumption | apply onDict_keeps | apply emcyFrame_keeps | split)

theorem emcyRaise_keeps {a0 a1 a2 a3} (h0 : Keeps b a3) :
    Keeps b (emcyRaise a0 a1 a2 a3) := by
  unfold emcyRaise
  try dsimp only
  with_reducible repeat' (first | assumption | apply emcySend_keeps | apply onCan_keeps)

theorem emcyOnce_keeps {a0 a1 a2 a3} (h0 : Keeps b a3) :
    Keeps b (emcyOnce a0 a1 a2 a3) := by
  unfold emcyOnce
  try dsimp only
  with_reducible repeat' (first | assumption | apply onCan_keeps | apply emcySend_keeps)

theorem emcyClear_keeps {a0 a1 a2 a3} (h0 : Keeps b a3) :
    Keeps b (emcyClear a0 a1 a2 a3) := by
  unfold emcyClear
  try dsimp only
  with_reducible repeat' (first | assumption | apply onCan_keeps | apply emcySend_keeps | split)

theorem extend_keeps {a0 a1 a2 a3} (h0 : Keeps b a3) :
    Keeps b (extend a0 a1 a2 a3) := by
  unfold extend
  try dsimp only
  with_reducible repeat' (first | assumption | apply onManifest_keeps)

theorem syncPins_keeps {a0} (h0 : Keeps b a0) :
    Keeps b (syncPins a0) := by
  unfold syncPins
  try dsimp only
  with_reducible repeat' (first | assumption | apply onSys_keeps | (exact fun (_ : Sys) => Nat.le_refl _))

theorem setMode_keeps {a0 a1 a2} (h0 : Keeps b a2) :
    Keeps b (setMode a0 a1 a2) := by
  unfold setMode
  try dsimp only
  repeat' (first
    | with_reducible assumption
    | with_reducible apply raiseSource_keeps
    | with_reducible apply syncPins_keeps
    | with_reducible apply onSys_keeps
    | with_reducible apply logRecord_keeps
    | exact fun (_ : Sys) => Nat.le_refl _)

theorem dirtyRecord_keeps {a0 a1 a2} (h0 : Keeps b a2) :
    Keeps b (dirtyRecord a0 a1 a2) := by
  unfold dirtyRecord
  try dsimp only
  with_reducible repeat' (first | assumption | apply putHost_keeps | apply onB_keeps)

theorem berthWrite_keeps {a0 a1 a2 a3} (h0 : Keeps b a3) :
    Keeps b (berthWrite a0 a1 a2 a3) := by
  unfold berthWrite
  try dsimp only
  repeat' (first
    | with_reducible assumption
    | with_reducible apply putHost_keeps
    | with_reducible apply onB_keeps
    | with_reducible apply raiseSource_keeps
    | with_reducible apply dirtyRecord_keeps
    | with_reducible apply foldl_keeps
    | split
    | intro _)

theorem hostWrite_keeps {a0 a1 a2 a3} (h0 : Keeps b a3) :
    Keeps b (hostWrite a0 a1 a2 a3) := by
  unfold hostWrite
  try dsimp only
  repeat' (first
    | with_reducible assumption
    | with_reducible apply onPcie_keeps
    | with_reducible apply putHost_keeps
    | with_reducible apply berthWrite_keeps
    | split)

theorem hostRead_keeps {a0 a1 a2 a3} (h0 : Keeps b a3) :
    KPair b (hostRead a0 a1 a2 a3) := by
  unfold hostRead
  try dsimp only
  repeat' (first
    | with_reducible assumption
    | with_reducible apply onHost_keeps
    | with_reducible apply count_keeps
    | exact fun (_ : HostSide) h => h
    | split
    | with_reducible apply KPair.mk)

theorem setOwn_keeps {a0 a1 a2} (h0 : Keeps b a2) :
    Keeps b (setOwn a0 a1 a2) := by
  unfold setOwn
  try dsimp only
  with_reducible repeat' (first | assumption | apply onDev_keeps | (exact fun (_ : DevMem) h => h))

theorem countMem_keeps {a0 a1 a2 a3} (h0 : Keeps b a3) :
    Keeps b (countMem a0 a1 a2 a3) := by
  unfold countMem
  try dsimp only
  with_reducible repeat' (first | assumption | apply count_keeps)

theorem fillGranule_keeps {a0 a1} (h0 : Keeps b a1) :
    Keeps b (fillGranule a0 a1) := by
  unfold fillGranule
  try dsimp only
  repeat' (first
    | with_reducible assumption
    | with_reducible apply setOwn_keeps
    | with_reducible apply onDev_keeps
    | with_reducible apply countMem_keeps
    | exact fun (_ : DevMem) h => h
    | with_reducible apply foldl_keeps
    | intro _)

theorem touchGranules_keeps {a0 a1 a2} (h0 : Keeps b a2) :
    Keeps b (touchGranules a0 a1 a2) := by
  unfold touchGranules
  try dsimp only
  with_reducible repeat' (first | assumption | apply fillGranule_keeps | apply foldl_keeps | split | intro _)

theorem onSub_keeps {a0 a1 a2} (h0 : Keeps b a2) :
    Keeps b (onSub a0 a1 a2) := by
  unfold onSub
  try dsimp only
  with_reducible repeat' (first | assumption | apply onDev_keeps | (exact fun (_ : DevMem) h => h))

theorem touchRow_keeps {o a s} (h : Keeps b s) : Keeps b (touchRow o a s) := by
  unfold touchRow
  exact onSub_keeps (countMem_keeps h)

theorem copyRetired_keeps {a0} (h0 : Keeps b a0) :
    Keeps b (copyRetired a0) := by
  unfold copyRetired
  try dsimp only
  with_reducible repeat' (first | assumption | apply onFlash_keeps | (exact fun (_ : Flash) h k => ⟨h, k⟩) | split)

theorem markRetired_keeps {a0 a1} (h0 : Keeps b a1) :
    Keeps b (markRetired a0 a1) := by
  unfold markRetired
  try dsimp only
  with_reducible repeat' (first | assumption | apply copyRetired_keeps | apply onMram_keeps)

theorem markSub_keeps {a0 a1 a2} (h0 : Keeps b a2) :
    Keeps b (markSub a0 a1 a2) := by
  unfold markSub
  try dsimp only
  repeat' (first
    | with_reducible assumption
    | with_reducible apply onSub_keeps
    | with_reducible apply logRecord_keeps
    | with_reducible apply markRetired_keeps
    | split)

theorem noteCorrection_keeps {a0 a1 a2 a3} (h0 : Keeps b a3) :
    Keeps b (noteCorrection a0 a1 a2 a3) := by
  unfold noteCorrection
  try dsimp only
  with_reducible repeat' (first | assumption | apply onSub_keeps | apply countMem_keeps | apply markSub_keeps | split)

theorem poisonLine_keeps {a0 a1} (h0 : Keeps b a1) :
    Keeps b (poisonLine a0 a1) := by
  unfold poisonLine
  try dsimp only
  with_reducible repeat' (first | assumption | apply onDev_keeps | (exact fun (_ : DevMem) h => h))

theorem readLine_keeps {a0 a1} (h0 : Keeps b a1) :
    KPair b (readLine a0 a1) := by
  unfold readLine
  try dsimp only
  repeat' (first
    | with_reducible assumption
    | with_reducible apply countMem_keeps
    | with_reducible apply onDev_keeps
    | with_reducible apply noteCorrection_keeps
    | with_reducible apply poisonLine_keeps
    | exact fun (_ : DevMem) h => h
    | split
    | with_reducible apply KPair.mk)

theorem readLines_keeps : ∀ {l s}, Keeps b s → KPair b (readLines l s)
  | [], _, h => h
  | x :: t, s, h => by
    have h1 := readLine_keeps (a0 := x) h
    unfold readLines
    split
    · exact readLines_keeps (h1.of ‹_›)
    · exact KPair.mk (h1.of ‹_›)

theorem queueLine_keeps {a0 a1} (h0 : Keeps b a1) :
    Keeps b (queueLine a0 a1) := by
  unfold queueLine
  try dsimp only
  with_reducible repeat' (first | assumption | apply onSub_keeps)

theorem traffic_keeps {a0 a1 a2 a3 a4} (h0 : Keeps b a4) :
    Keeps b (traffic a0 a1 a2 a3 a4) := by
  unfold traffic
  try dsimp only
  repeat' (first
    | with_reducible assumption
    | with_reducible apply touchRow_keeps
    | with_reducible apply countMem_keeps
    | with_reducible apply foldl_keeps
    | split
    | intro _)

theorem devRead_keeps {t o a n s} (h : Keeps b s) : KPair b (devRead t o a n s) := by
  unfold devRead
  split
  · exact h
  · split
    · exact h
    · have h1 := readLines_keeps (l := linesOf a n) (traffic_keeps (a0 := false) (a1 := o) (a2 := a) (a3 := n)
        (touchGranules_keeps (a0 := a) (a1 := n) h))
      dsimp only
      split <;> exact KPair.mk (h1.of ‹_›)

theorem dropReservations_keeps {a0 a1 a2} (h0 : Keeps b a2) :
    Keeps b (dropReservations a0 a1 a2) := by
  unfold dropReservations
  try dsimp only
  with_reducible repeat' (first | assumption | apply Keeps.fields)

theorem storeDev_keeps {c a d s} (h : Keeps b s) : Keeps b (storeDev c a d s) := by
  unfold storeDev
  refine dropReservations_keeps ⟨fun hb => ?_, h.2⟩
  obtain ⟨⟨w1, w2⟩, w3⟩ := h.1 hb
  refine ⟨⟨memWrite_wf d a w1, fun e he => ?_⟩, w3⟩
  rcases List.mem_append.1 he with he | he
  · obtain ⟨i, v, _, _, rfl⟩ := mem_zipWith (List.mem_reverse.1 he)
    exact Nat.le_refl _
  · exact Nat.le_succ_of_le (w2 e he)

theorem markDirty_keeps {a0 a1 a2} (h0 : Keeps b a2) :
    Keeps b (markDirty a0 a1 a2) := by
  unfold markDirty
  try dsimp only
  with_reducible repeat' (first | assumption | apply onB_keeps | split)

theorem storeExcept_keeps {a0 a1 a2 a3 a4} (h0 : Keeps b a4) :
    Keeps b (storeExcept a0 a1 a2 a3 a4) := by
  unfold storeExcept
  try dsimp only
  with_reducible repeat' (first | assumption | apply storeDev_keeps | apply foldl_keeps | split | intro _)

theorem devWriteBy_keeps {c t o a d s} (h : Keeps b s) : KPair b (devWriteBy c t o a d s) := by
  unfold devWriteBy
  dsimp only
  split
  · exact h
  · split
    · exact h
    · split <;> exact KPair.mk (markDirty_keeps (foldl_keeps (fun _ _ => queueLine_keeps) (storeExcept_keeps
        (onDev_keeps (fun _ h => h) (traffic_keeps (touchGranules_keeps h))))))

theorem devWrite_keeps {a0 a1 a2 a3 a4} (h0 : Keeps b a4) :
    KPair b (devWrite a0 a1 a2 a3 a4) := by
  unfold devWrite
  try dsimp only
  with_reducible repeat' (first | assumption | apply devWriteBy_keeps)

theorem devPut_keeps {a d s} (h : Keeps b s) : Keeps b (devPut a d s) := (devWrite_keeps h).snd

theorem noteViolation_keeps {a0 a1 a2 a3} (h0 : Keeps b a3) :
    Keeps b (noteViolation a0 a1 a2 a3) := by
  unfold noteViolation
  try dsimp only
  with_reducible repeat' (first | assumption | apply Keeps.fields)

theorem freeGranule_keeps {g s} (h : Keeps b s) : Keeps b (freeGranule g s) :=
  onDev_keeps (fun _ hd => ⟨memClear_wf _ _ hd.1, hd.2⟩) h

theorem ownGranule_keeps {a0 a1 a2 a3} (h0 : Keeps b a3) :
    Keeps b (ownGranule a0 a1 a2 a3) := by
  unfold ownGranule
  try dsimp only
  with_reducible repeat' (first | assumption | apply setOwn_keeps)

theorem statusWrite_keeps {a0 a1 a2 a3} (h0 : Keeps b a3) :
    Keeps b (statusWrite a0 a1 a2 a3) := by
  unfold statusWrite
  try dsimp only
  with_reducible repeat' (first | assumption | apply hostWrite_keeps | split)

theorem setJobState_keeps {a0 a1 a2} (h0 : Keeps b a2) :
    Keeps b (setJobState a0 a1 a2) := by
  unfold setJobState
  try dsimp only
  with_reducible repeat' (first | assumption | apply onJ_keeps | apply statusWrite_keeps | split)

theorem beginJob_keeps {a0 a1} (h0 : Keeps b a1) :
    Keeps b (beginJob a0 a1) := by
  unfold beginJob
  try dsimp only
  with_reducible repeat' (first | assumption | apply setJobState_keeps | apply onJ_keeps | split)

theorem advanceJob_keeps {a0 a1 a2 a3} (h0 : Keeps b a3) :
    Keeps b (advanceJob a0 a1 a2 a3) := by
  unfold advanceJob
  try dsimp only
  repeat' (first
    | with_reducible assumption
    | with_reducible apply onJ_keeps
    | with_reducible apply setJobState_keeps
    | with_reducible apply statusWrite_keeps
    | split)

theorem advanceTo_keeps {a0 a1 a2 a3} (h0 : Keeps b a3) :
    Keeps b (advanceTo a0 a1 a2 a3) := by
  unfold advanceTo
  try dsimp only
  with_reducible repeat' (first | assumption | apply advanceJob_keeps | split)

theorem addProgress_keeps {a0 a1 a2} (h0 : Keeps b a2) :
    Keeps b (addProgress a0 a1 a2) := by
  unfold addProgress
  try dsimp only
  with_reducible repeat' (first | assumption | apply onJ_keeps)

theorem settle_keeps {a0 a1 a2} (h0 : Keeps b a2) :
    Keeps b (settle a0 a1 a2) := by
  unfold settle
  try dsimp only
  with_reducible repeat' (first | assumption | apply onJ_keeps)

theorem endDone_keeps {a0 a1} (h0 : Keeps b a1) :
    Keeps b (endDone a0 a1) := by
  unfold endDone
  try dsimp only
  with_reducible repeat' (first | assumption | apply settle_keeps)

theorem endFailed_keeps {a0 a1 a2 a3} (h0 : Keeps b a3) :
    Keeps b (endFailed a0 a1 a2 a3) := by
  unfold endFailed
  try dsimp only
  with_reducible repeat' (first | assumption | apply settle_keeps)

theorem endCancelled_keeps {a0 a1} (h0 : Keeps b a1) :
    Keeps b (endCancelled a0 a1) := by
  unfold endCancelled
  try dsimp only
  with_reducible repeat' (first | assumption | apply settle_keeps)

theorem withJob_keeps {a0 a1 a2 a3} (h0 : Keeps b a2) (h1 : ∀ x0, Keeps b (a3 x0)) :
    Keeps b (withJob a0 a1 a2 a3) := by
  unfold withJob
  try dsimp only
  with_reducible repeat' (first | assumption | apply h1 | split)

theorem onSlot_keeps {a0 a1 a2 a3} (h0 : Keeps b a3) :
    Keeps b (onSlot a0 a1 a2 a3) := by
  unfold onSlot
  try dsimp only
  with_reducible repeat' (first | assumption | apply onB_keeps)

theorem imageGranules_keeps {a0 a1 a2 a3} (h0 : Keeps b a3) :
    Keeps b (imageGranules a0 a1 a2 a3) := by
  unfold imageGranules
  try dsimp only
  with_reducible repeat' (first | assumption | apply ownGranule_keeps | apply foldl_keeps | intro _)

theorem emptySlot_keeps {a0 a1 a2} (h0 : Keeps b a2) :
    Keeps b (emptySlot a0 a1 a2) := by
  unfold emptySlot
  try dsimp only
  with_reducible repeat' (first | assumption | apply onSlot_keeps | apply imageGranules_keeps)

theorem acceptLoad_keeps {a0 a1 a2 a3} (h0 : Keeps b a3) :
    Keeps b (acceptLoad a0 a1 a2 a3) := by
  unfold acceptLoad
  try dsimp only
  with_reducible repeat' (first | assumption | apply onSlot_keeps | apply imageGranules_keeps | split)

theorem acceptUnload_keeps {a0 a1 a2 a3} (h0 : Keeps b a3) :
    Keeps b (acceptUnload a0 a1 a2 a3) := by
  unfold acceptUnload
  try dsimp only
  with_reducible repeat' (first | assumption | apply onSlot_keeps | split)

theorem acceptInSlots_keeps {a0 a1 a2} (h0 : Keeps b a2) :
    Keeps b (acceptInSlots a0 a1 a2) := by
  unfold acceptInSlots
  try dsimp only
  with_reducible repeat' (first | assumption | apply acceptLoad_keeps | apply acceptUnload_keeps | split)

theorem leaveLoading_keeps {a0 a1 a2} (h0 : Keeps b a2) :
    Keeps b (leaveLoading a0 a1 a2) := by
  unfold leaveLoading
  try dsimp only
  with_reducible repeat' (first | assumption | apply emptySlot_keeps | apply foldl_keeps | split | intro _)

theorem countK_keeps {a0 a1 a2 a3} (h0 : Keeps b a3) :
    Keeps b (countK a0 a1 a2 a3) := by
  unfold countK
  try dsimp only
  with_reducible repeat' (first | assumption | apply count_keeps)

theorem issueRead_keeps {a0 a1} (h0 : Keeps b a1) :
    Keeps b (issueRead a0 a1) := by
  unfold issueRead
  try dsimp only
  with_reducible repeat' (first | assumption | apply onQ_keeps)

theorem askRead_keeps {a0 a1} (h0 : Keeps b a1) :
    Keeps b (askRead a0 a1) := by
  unfold askRead
  try dsimp only
  with_reducible repeat' (first | assumption | apply issueRead_keeps | apply onQ_keeps | split)

theorem resumeQueue_keeps {a0 a1} (h0 : Keeps b a1) :
    Keeps b (resumeQueue a0 a1) := by
  unfold resumeQueue
  try dsimp only
  with_reducible repeat' (first | assumption | apply issueRead_keeps | apply onQ_keeps | split)

theorem resumeQueues_keeps {a0} (h0 : Keeps b a0) :
    Keeps b (resumeQueues a0) := by
  unfold resumeQueues
  try dsimp only
  with_reducible repeat' (first | assumption | apply resumeQueue_keeps | apply foldl_keeps | intro _)

theorem discardTaken_keeps {a0 a1} (h0 : Keeps b a1) :
    Keeps b (discardTaken a0 a1) := by
  unfold discardTaken
  try dsimp only
  with_reducible repeat' (first | assumption | apply onQ_keeps)

theorem discardPushed_keeps {a0 a1} (h0 : Keeps b a1) :
    Keeps b (discardPushed a0 a1) := by
  unfold discardPushed
  try dsimp only
  with_reducible repeat' (first | assumption | apply onQ_keeps | apply discardTaken_keeps)

theorem signalAfter_keeps {a0 a1 a2} (h0 : Keeps b a2) :
    Keeps b (signalAfter a0 a1 a2) := by
  unfold signalAfter
  try dsimp only
  with_reducible repeat' (first | assumption | apply signalVector_keeps | apply onB_keeps | split)

theorem notifyQueue_keeps {a0 a1} (h0 : Keeps b a1) :
    Keeps b (notifyQueue a0 a1) := by
  unfold notifyQueue
  try dsimp only
  with_reducible repeat' (first | assumption | apply onQ_keeps | apply signalAfter_keeps | split)

theorem postOne_keeps {a0 a1} (h0 : Keeps b a1) :
    Keeps b (postOne a0 a1) := by
  unfold postOne
  try dsimp only
  repeat' (first
    | with_reducible assumption
    | with_reducible apply hostWrite_keeps
    | with_reducible apply countK_keeps
    | with_reducible apply onQ_keeps
    | with_reducible apply notifyQueue_keeps
    | split)

theorem drainHold_keeps {a0 a1} (h0 : Keeps b a1) :
    Keeps b (drainHold a0 a1) := by
  unfold drainHold
  try dsimp only
  with_reducible repeat' (first | assumption | apply postOne_keeps | apply repeat_keeps)

theorem updateStall_keeps {a0 a1} (h0 : Keeps b a1) :
    Keeps b (updateStall a0 a1) := by
  unfold updateStall
  try dsimp only
  with_reducible repeat' (first | assumption | apply onQ_keeps | apply countK_keeps | split)

theorem queueDrained_keeps {a0 a1} (h0 : Keeps b a1) :
    Keeps b (queueDrained a0 a1) := by
  unfold queueDrained
  try dsimp only
  with_reducible repeat' (first | assumption | apply onQ_keeps | split)

theorem settleQueue_keeps {a0 a1} (h0 : Keeps b a1) :
    Keeps b (settleQueue a0 a1) := by
  unfold settleQueue
  try dsimp only
  repeat' (first
    | with_reducible assumption
    | with_reducible apply updateStall_keeps
    | with_reducible apply queueDrained_keeps
    | with_reducible apply drainHold_keeps)

theorem complete_keeps {a0 a1 a2} (h0 : Keeps b a2) :
    Keeps b (complete a0 a1 a2) := by
  unfold complete
  try dsimp only
  repeat' (first
    | with_reducible assumption
    | with_reducible apply settleQueue_keeps
    | with_reducible apply onQ_keeps
    | with_reducible apply issueRead_keeps
    | split)

theorem queueError_keeps {a0 a1 a2} (h0 : Keeps b a2) :
    Keeps b (queueError a0 a1 a2) := by
  unfold queueError
  try dsimp only
  repeat' (first
    | with_reducible assumption
    | with_reducible apply onQ_keeps
    | with_reducible apply discardPushed_keeps
    | with_reducible apply onB_keeps
    | with_reducible apply raiseSource_keeps
    | split)

theorem execDoorbell_keeps {a0 a1} (h0 : Keeps b a1) :
    ∀ t, execDoorbell a0 a1 = .next t → Keeps b t := by
  intro t e
  simp only [execDoorbell, Host.Outcome.next.injEq] at e
  subst e
  try dsimp only
  with_reducible repeat' (first | assumption | apply askRead_keeps | apply countK_keeps | split)

theorem execIndexPollExpiry_keeps {a0 a1} (h0 : Keeps b a1) :
    ∀ t, execIndexPollExpiry a0 a1 = .next t → Keeps b t := by
  intro t e
  simp only [execIndexPollExpiry, Host.Outcome.next.injEq] at e
  subst e
  try dsimp only
  with_reducible repeat' (first | assumption | apply issueRead_keeps | split)

theorem execHoldPollExpiry_keeps {a0 a1} (h0 : Keeps b a1) :
    ∀ t, execHoldPollExpiry a0 a1 = .next t → Keeps b t := by
  intro t e
  simp only [execHoldPollExpiry, Host.Outcome.next.injEq] at e
  subst e
  try dsimp only
  with_reducible repeat' (first | assumption | apply issueRead_keeps | split)

theorem takeCons_keeps {a0 a1 a2} (h0 : Keeps b a2) :
    Keeps b (takeCons a0 a1 a2) := by
  unfold takeCons
  try dsimp only
  with_reducible repeat' (first | assumption | apply settleQueue_keeps | apply onQ_keeps)

theorem indexRead_keeps {a0 a1 a2 a3} (h0 : Keeps b a3) :
    Keeps b (indexRead a0 a1 a2 a3) := by
  unfold indexRead
  try dsimp only
  repeat' (first
    | with_reducible assumption
    | with_reducible apply queueError_keeps
    | with_reducible apply takeCons_keeps
    | with_reducible apply onQ_keeps
    | split)

theorem execIndexReadComplete_keeps {a0 a1 a2} (h0 : Keeps b a2) :
    ∀ t, execIndexReadComplete a0 a1 a2 = .next t → Keeps b t := by
  intro t e
  simp only [execIndexReadComplete, Host.Outcome.next.injEq] at e
  subst e
  try dsimp only
  repeat' (first
    | with_reducible assumption
    | with_reducible apply hostSync_keeps
    | with_reducible apply hostRead_keeps
    | with_reducible apply onQ_keeps
    | with_reducible apply queueError_keeps
    | with_reducible apply indexRead_keeps
    | split
    | (with_reducible apply KPair.of; rotate_left; (with_reducible assumption)))

theorem execPushIndex_keeps {a0 a1 a2} (h0 : Keeps b a2) :
    ∀ t, execPushIndex a0 a1 a2 = .next t → Keeps b t := by
  intro t e
  simp only [execPushIndex, Host.Outcome.next.injEq] at e
  subst e
  try dsimp only
  with_reducible repeat' (first | assumption | apply onQ_keeps | split)

theorem execPushData_keeps {a0 a1 a2 a3} (h0 : Keeps b a3) :
    ∀ t, execPushData a0 a1 a2 a3 = .next t → Keeps b t := by
  intro t e
  simp only [execPushData, Host.Outcome.next.injEq] at e
  subst e
  try dsimp only
  with_reducible repeat' (first | assumption | apply onQ_keeps | split)

theorem entryGranule_keeps {a0 a1 a2 a3} (h0 : Keeps b a3) :
    KPair b (entryGranule a0 a1 a2 a3) := by
  unfold entryGranule
  try dsimp only
  with_reducible repeat' (first | assumption | apply hostRead_keeps | split | apply KPair.mk)

theorem entryGranules_keeps {q k} : ∀ {n i s}, Keeps b s → KPair b (entryGranules q k n i s)
  | 0, _, _, h => h
  | n + 1, i, s, h => by
    have h1 := entryGranule_keeps (a0 := q) (a1 := k) (a2 := i) h
    unfold entryGranules
    split
    · exact KPair.mk (h1.of ‹_›)
    · have h2 := entryGranules_keeps (q := q) (k := k) (n := n) (i := i + 1) (h1.of ‹_›)
      split <;> exact KPair.mk (h2.of ‹_›)

theorem takeEntry_keeps {a0 a1} (h0 : Keeps b a1) :
    Keeps b (takeEntry a0 a1) := by
  unfold takeEntry
  try dsimp only
  repeat' (first
    | with_reducible assumption
    | with_reducible apply entryGranule_keeps
    | with_reducible apply queueError_keeps
    | with_reducible apply entryGranules_keeps
    | with_reducible apply updateStall_keeps
    | with_reducible apply onQ_keeps
    | with_reducible apply countK_keeps
    | split
    | (with_reducible apply KPair.of; rotate_left; (with_reducible assumption)))

theorem execEntryTake_keeps {a0 a1 a2} (h0 : Keeps b a2) :
    ∀ t, execEntryTake a0 a1 a2 = .next t → Keeps b t := by
  intro t e
  simp only [execEntryTake, Host.Outcome.next.injEq] at e
  subst e
  try dsimp only
  with_reducible repeat' (first | assumption | apply hostSync_keeps | apply takeEntry_keeps | split)

theorem advanceHead_keeps {a0 a1 a2} (h0 : Keeps b a2) :
    Keeps b (advanceHead a0 a1 a2) := by
  unfold advanceHead
  try dsimp only
  with_reducible repeat' (first | assumption | apply onQ_keeps | apply hostWrite_keeps)

theorem pushTag_keeps {a0 a1 a2} (h0 : Keeps b a2) :
    Keeps b (pushTag a0 a1 a2) := by
  unfold pushTag
  try dsimp only
  with_reducible repeat' (first | assumption | apply onQ_keeps)

theorem closeTag_keeps {a0 a1 a2 a3 a4} (h0 : Keeps b a4) :
    Keeps b (closeTag a0 a1 a2 a3 a4) := by
  unfold closeTag
  try dsimp only
  with_reducible repeat' (first | assumption | apply onQ_keeps)

theorem acceptEntry_keeps {a0 a1 a2} (h0 : Keeps b a2) :
    Keeps b (acceptEntry a0 a1 a2) := by
  unfold acceptEntry
  try dsimp only
  repeat' (first
    | with_reducible assumption
    | with_reducible apply statusWrite_keeps
    | with_reducible apply countK_keeps
    | with_reducible apply pushTag_keeps
    | with_reducible apply acceptInSlots_keeps
    | with_reducible apply advanceHead_keeps
    | with_reducible apply onQ_keeps
    | split
    | with_reducible apply Keeps.fields)

theorem startEntry_keeps {a0 a1 a2} (h0 : Keeps b a2) :
    Keeps b (startEntry a0 a1 a2) := by
  unfold startEntry
  try dsimp only
  repeat' (first
    | with_reducible assumption
    | with_reducible apply complete_keeps
    | with_reducible apply advanceHead_keeps
    | with_reducible apply countK_keeps
    | with_reducible apply onQ_keeps
    | with_reducible apply pushTag_keeps
    | with_reducible apply acceptEntry_keeps
    | split
    | with_reducible apply Keeps.fields)

theorem execEntryStart_keeps {a0 a1} (h0 : Keeps b a1) :
    ∀ t, execEntryStart a0 a1 = .next t → Keeps b t := by
  intro t e
  simp only [execEntryStart, Host.Outcome.next.injEq] at e
  subst e
  try dsimp only
  with_reducible repeat' (first | assumption | apply updateStall_keeps | apply startEntry_keeps | split)

theorem enableQueue_keeps {a0 a1} (h0 : Keeps b a1) :
    Keeps b (enableQueue a0 a1) := by
  unfold enableQueue
  try dsimp only
  repeat' (first
    | with_reducible assumption
    | with_reducible apply onQ_keeps
    | with_reducible apply hostWrite_keeps
    | with_reducible apply issueRead_keeps
    | split)

theorem disableQueue_keeps {a0 a1} (h0 : Keeps b a1) :
    Keeps b (disableQueue a0 a1) := by
  unfold disableQueue
  try dsimp only
  repeat' (first
    | with_reducible assumption
    | with_reducible apply queueDrained_keeps
    | with_reducible apply onQ_keeps
    | with_reducible apply discardPushed_keeps
    | split)

theorem restartQueue_keeps {a0 a1} (h0 : Keeps b a1) :
    Keeps b (restartQueue a0 a1) := by
  unfold restartQueue
  try dsimp only
  with_reducible repeat' (first | assumption | apply issueRead_keeps | apply onQ_keeps | split)

theorem queueCommand_keeps {a0 a1 a2} (h0 : Keeps b a2) :
    Keeps b (queueCommand a0 a1 a2) := by
  unfold queueCommand
  try dsimp only
  repeat' (first
    | with_reducible assumption
    | with_reducible apply enableQueue_keeps
    | with_reducible apply disableQueue_keeps
    | with_reducible apply restartQueue_keeps
    | split)

theorem execEnable_keeps {a0 a1} (h0 : Keeps b a1) :
    ∀ t, execEnable a0 a1 = .next t → Keeps b t := by
  intro t e
  simp only [execEnable, Host.Outcome.next.injEq] at e
  subst e
  try dsimp only
  with_reducible repeat' (first | assumption | apply enableQueue_keeps | split)

theorem execDisable_keeps {a0 a1} (h0 : Keeps b a1) :
    ∀ t, execDisable a0 a1 = .next t → Keeps b t := by
  intro t e
  simp only [execDisable, Host.Outcome.next.injEq] at e
  subst e
  try dsimp only
  with_reducible repeat' (first | assumption | apply disableQueue_keeps | split)

theorem execRestart_keeps {a0 a1} (h0 : Keeps b a1) :
    ∀ t, execRestart a0 a1 = .next t → Keeps b t := by
  intro t e
  simp only [execRestart, Host.Outcome.next.injEq] at e
  subst e
  try dsimp only
  with_reducible repeat' (first | assumption | apply restartQueue_keeps | split)

theorem clearCounters_keeps {a0 a1 a2} (h0 : Keeps b a2) :
    Keeps b (clearCounters a0 a1 a2) := by
  unfold clearCounters
  try dsimp only
  with_reducible repeat' (first | assumption | apply Keeps.fields)

theorem clearThen_keeps {a0 a1 a2 a3} (h0 : Keeps b a3) :
    Keeps b (clearThen a0 a1 a2 a3) := by
  unfold clearThen
  try dsimp only
  with_reducible repeat' (first | assumption | apply count_keeps | apply clearCounters_keeps | split)

theorem execQueueClearStats_keeps {a0 a1 a2} (h0 : Keeps b a2) :
    ∀ t, execQueueClearStats a0 a1 a2 = .next t → Keeps b t := by
  intro t e
  simp only [execQueueClearStats, Host.Outcome.next.injEq] at e
  subst e
  try dsimp only
  with_reducible repeat' (first | assumption | apply clearThen_keeps | split)

theorem execClearTags_keeps {a0 a1} (h0 : Keeps b a1) :
    ∀ t, execClearTags a0 a1 = .next t → Keeps b t := by
  intro t e
  simp only [execClearTags, Host.Outcome.next.injEq] at e
  subst e
  try dsimp only
  with_reducible repeat' (first | assumption | apply onQ_keeps | split)

theorem execIntHoldoffExpiry_keeps {a0 a1} (h0 : Keeps b a1) :
    ∀ t, execIntHoldoffExpiry a0 a1 = .next t → Keeps b t := by
  intro t e
  simp only [execIntHoldoffExpiry, Host.Outcome.next.injEq] at e
  subst e
  try dsimp only
  with_reducible repeat' (first | assumption | apply signalAfter_keeps | apply onQ_keeps | split)

theorem execProgressWrite_keeps {a0 a1} (h0 : Keeps b a1) :
    ∀ t, execProgressWrite a0 a1 = .next t → Keeps b t := by
  intro t e
  simp only [execProgressWrite, Host.Outcome.next.injEq] at e
  subst e
  try dsimp only
  with_reducible repeat' (first | assumption | apply onJ_keeps | apply statusWrite_keeps | split)

theorem execNop_keeps {a0 a1} (h0 : Keeps b a1) :
    ∀ t, execNop a0 a1 = .next t → Keeps b t := by
  intro t e
  simp only [execNop, Host.Outcome.next.injEq] at e
  subst e
  try dsimp only
  repeat' (first
    | with_reducible assumption
    | with_reducible apply withJob_keeps
    | with_reducible apply endFailed_keeps
    | with_reducible apply endDone_keeps
    | split
    | intro _)

theorem execQueueFence_keeps {a0 a1} (h0 : Keeps b a1) :
    ∀ t, execQueueFence a0 a1 = .next t → Keeps b t := by
  intro t e
  simp only [execQueueFence, Host.Outcome.next.injEq] at e
  subst e
  try dsimp only
  repeat' (first
    | with_reducible assumption
    | with_reducible apply withJob_keeps
    | with_reducible apply onQ_keeps
    | with_reducible apply endFailed_keeps
    | with_reducible apply beginJob_keeps
    | split
    | intro _)

theorem execFenceRelease_keeps {a0 a1} (h0 : Keeps b a1) :
    ∀ t, execFenceRelease a0 a1 = .next t → Keeps b t := by
  intro t e
  simp only [execFenceRelease, Host.Outcome.next.injEq] at e
  subst e
  try dsimp only
  repeat' (first
    | with_reducible assumption
    | with_reducible apply withJob_keeps
    | with_reducible apply onQ_keeps
    | with_reducible apply endFailed_keeps
    | with_reducible apply endDone_keeps
    | split
    | intro _)

theorem onT_keeps {a0 a1 a2} (h0 : Keeps b a2) :
    Keeps b (onT a0 a1 a2) := by
  unfold onT
  try dsimp only
  with_reducible repeat' (first | assumption | apply onPilot_keeps)

theorem countP_keeps {a0 a1 a2} (h0 : Keeps b a2) :
    Keeps b (countP a0 a1 a2) := by
  unfold countP
  try dsimp only
  with_reducible repeat' (first | assumption | apply count_keeps)

theorem wake_keeps {a0 a1} (h0 : Keeps b a1) :
    Keeps b (wake a0 a1) := by
  unfold wake
  try dsimp only
  with_reducible repeat' (first | assumption | apply onPilot_keeps | apply onT_keeps | split)

theorem pulse_keeps {a0 a1 a2 a3} (h0 : Keeps b a3) :
    Keeps b (pulse a0 a1 a2 a3) := by
  unfold pulse
  try dsimp only
  with_reducible repeat' (first | assumption | apply countP_keeps | apply wake_keeps | apply onT_keeps | split)

theorem enterDelay_keeps {a0 a1 a2} (h0 : Keeps b a2) :
    Keeps b (enterDelay a0 a1 a2) := by
  unfold enterDelay
  try dsimp only
  with_reducible repeat' (first | assumption | apply countP_keeps | apply onT_keeps | split)

theorem grantDelay_keeps {a0 a1} (h0 : Keeps b a1) :
    Keeps b (grantDelay a0 a1) := by
  unfold grantDelay
  try dsimp only
  with_reducible repeat' (first | assumption | apply enterDelay_keeps | apply onT_keeps | split)

theorem dropDelay_keeps {a0 a1} (h0 : Keeps b a1) :
    Keeps b (dropDelay a0 a1) := by
  unfold dropDelay
  try dsimp only
  with_reducible repeat' (first | assumption | apply onT_keeps | apply grantDelay_keeps | split)

theorem addRounds_keeps {a0 a1 a2 a3} (h0 : Keeps b a3) :
    Keeps b (addRounds a0 a1 a2 a3) := by
  unfold addRounds
  try dsimp only
  with_reducible repeat' (first | assumption | apply onPilot_keeps | split)

theorem countPassed_keeps {a0 a1} (h0 : Keeps b a1) :
    Keeps b (countPassed a0 a1) := by
  unfold countPassed
  try dsimp only
  with_reducible repeat' (first | assumption | apply countP_keeps | split)

theorem choose_keeps {a0 a1 a2} (h0 : Keeps b a2) :
    KPair b (choose a0 a1 a2) := by
  unfold choose
  try dsimp only
  repeat' (first
    | with_reducible assumption
    | with_reducible apply countPassed_keeps
    | with_reducible apply addRounds_keeps
    | with_reducible apply onPilot_keeps
    | split
    | with_reducible apply KPair.mk)

theorem dispatch_keeps {a0 a1 a2} (h0 : Keeps b a2) :
    KPair b (dispatch a0 a1 a2) := by
  unfold dispatch
  try dsimp only
  repeat' (first
    | with_reducible assumption
    | with_reducible apply countP_keeps
    | with_reducible apply onT_keeps
    | with_reducible apply onPilot_keeps
    | with_reducible apply dropDelay_keeps
    | with_reducible apply KPair.mk)

theorem ranOn_keeps {a0 a1 a2} (h0 : Keeps b a2) :
    Keeps b (ranOn a0 a1 a2) := by
  unfold ranOn
  try dsimp only
  with_reducible repeat' (first | assumption | apply onT_keeps)

theorem takeBack_keeps {a0 a1 a2} (h0 : Keeps b a2) :
    Keeps b (takeBack a0 a1 a2) := by
  unfold takeBack
  try dsimp only
  with_reducible repeat' (first | assumption | apply onPilot_keeps | apply onT_keeps | apply countP_keeps | split)

theorem release_keeps {a0 a1 a2} (h0 : Keeps b a2) :
    Keeps b (release a0 a1 a2) := by
  unfold release
  try dsimp only
  with_reducible repeat' (first | assumption | apply onT_keeps | apply wake_keeps | apply enterDelay_keeps | split)

theorem finishItem_keeps {a0 a1 a2 a3} (h0 : Keeps b a3) :
    Keeps b (finishItem a0 a1 a2 a3) := by
  unfold finishItem
  try dsimp only
  with_reducible repeat' (first | assumption | apply onPilot_keeps | apply release_keeps | apply onCore_keeps)

theorem destroyTask_keeps {a0 a1} (h0 : Keeps b a1) :
    Keeps b (destroyTask a0 a1) := by
  unfold destroyTask
  try dsimp only
  with_reducible repeat' (first | assumption | apply onT_keeps | apply dropDelay_keeps | split | apply Keeps.fields)

theorem stopTasks_keeps {a0 a1} (h0 : Keeps b a1) :
    Keeps b (stopTasks a0 a1) := by
  unfold stopTasks
  try dsimp only
  with_reducible repeat' (first | assumption | apply pulse_keeps | apply foldl_keeps | intro _)

theorem destroyTasks_keeps {a0 a1} (h0 : Keeps b a1) :
    Keeps b (destroyTasks a0 a1) := by
  unfold destroyTasks
  try dsimp only
  repeat' (first
    | with_reducible assumption
    | with_reducible apply destroyTask_keeps
    | with_reducible apply onPilot_keeps
    | with_reducible apply foldl_keeps
    | intro _)

theorem recallSlot_keeps {a0 a1} (h0 : Keeps b a1) :
    Keeps b (recallSlot a0 a1) := by
  unfold recallSlot
  try dsimp only
  with_reducible repeat' (first | assumption | apply onCore_keeps | apply takeBack_keeps | split)

theorem recallCore_keeps {a0 a1 a2} (h0 : Keeps b a2) :
    Keeps b (recallCore a0 a1 a2) := by
  unfold recallCore
  try dsimp only
  with_reducible repeat' (first | assumption | apply takeBack_keeps | apply onCore_keeps | split)

theorem onR_keeps {a0 a1 a2} (h0 : Keeps b a2) :
    Keeps b (onR a0 a1 a2) := by
  unfold onR
  try dsimp only
  with_reducible repeat' (first | assumption | split | apply Keeps.fields)

theorem onI_keeps {a0 a1 a2 a3 a4} (h0 : Keeps b a4) :
    Keeps b (onI a0 a1 a2 a3 a4) := by
  unfold onI
  try dsimp only
  with_reducible repeat' (first | assumption | apply onR_keeps)

theorem layBatch_keeps {a0 a1 a2} (h0 : Keeps b a2) :
    KPair b (layBatch a0 a1 a2) := by
  unfold layBatch
  try dsimp only
  with_reducible repeat' (first | assumption | apply devWrite_keeps | split | apply KPair.snd | apply KPair.mk)

theorem scratchFails_keeps {a0 a1 a2} (h0 : Keeps b a2) :
    Keeps b (scratchFails a0 a1 a2) := by
  unfold scratchFails
  try dsimp only
  with_reducible repeat' (first | assumption | apply endFailed_keeps)

theorem starved_keeps {a0 a1 a2} (h0 : Keeps b a2) :
    Keeps b (starved a0 a1 a2) := by
  unfold starved
  try dsimp only
  with_reducible repeat' (first | assumption | apply scratchFails_keeps | split)

theorem pushBatch_keeps {a0 a1 a2 a3 a4 a5 a6} (h0 : Keeps b a6) :
    Keeps b (pushBatch a0 a1 a2 a3 a4 a5 a6) := by
  unfold pushBatch
  try dsimp only
  repeat' (first
    | with_reducible assumption
    | with_reducible apply layBatch_keeps
    | with_reducible apply starved_keeps
    | with_reducible apply onI_keeps
    | with_reducible apply KPair.snd)

theorem pushRows_keeps {a0 a1 a2 a3 a4 a5 a6 a7} (h0 : Keeps b a7) :
    Keeps b (pushRows a0 a1 a2 a3 a4 a5 a6 a7) := by
  unfold pushRows
  try dsimp only
  with_reducible repeat' (first | assumption | apply pushBatch_keeps | apply foldl_keeps | intro _)

theorem pushWhole_keeps {a0 a1 a2 a3 a4 a5 a6 a7} (h0 : Keeps b a7) :
    Keeps b (pushWhole a0 a1 a2 a3 a4 a5 a6 a7) := by
  unfold pushWhole
  try dsimp only
  with_reducible repeat' (first | assumption | apply pushBatch_keeps | apply pushRows_keeps | split)

theorem endInst_keeps {a0 a1 a2 a3} (h0 : Keeps b a3) :
    Keeps b (endInst a0 a1 a2 a3) := by
  unfold endInst
  try dsimp only
  repeat' (first
    | with_reducible assumption
    | with_reducible apply pushBatch_keeps
    | with_reducible apply onI_keeps
    | with_reducible apply foldl_keeps
    | split
    | intro _)



theorem launch_keeps {a0 a1 a2 a3} (h0 : Keeps b a3) :
    Keeps b (launch a0 a1 a2 a3) := by
  unfold launch
  try dsimp only
  with_reducible repeat' (first | assumption | apply onR_keeps)

theorem pulseInst_keeps {a0 a1 a2} (h0 : Keeps b a2) :
    Keeps b (pulseInst a0 a1 a2) := by
  unfold pulseInst
  try dsimp only
  with_reducible repeat' (first | assumption | apply pulse_keeps)

theorem withInst_keeps {a0 a1 a2 a3 a4} (h0 : Keeps b a3) (h1 : ∀ x0, ∀ x1, ∀ x2, ∀ x3, Keeps b (a4 x0 x1 x2 x3)) :
    Keeps b (withInst a0 a1 a2 a3 a4) := by
  unfold withInst
  try dsimp only
  with_reducible repeat' (first | assumption | apply h1 | split)

theorem readLongs_keeps {g : Option (Fin 512)} {l : List (Nat × Value × Nat)} : ∀ {s : State}, Keeps b s →
    KPair b (readLongs g l s) := by
  induction l with
  | nil => exact fun h => h
  | cons x t ih =>
    intro s h
    obtain ⟨p, v, k⟩ := x
    cases v with
    | long a n u =>
      simp only [readLongs]
      split
      · exact h
      · have h1 := devRead_keeps (t := g) (o := false) (a := a) (n := min n k) h
        split
        · exact ih (h1.of ‹_›)
        · exact KPair.mk (h1.of ‹_›)
        · exact KPair.mk (h1.of ‹_›)
    | null => exact ih h
    | num _ => exact ih h
    | str _ => exact ih h

theorem withIntake_keeps {a0 a1 a2 a3 a4} (h0 : Keeps b a3) (h1 : ∀ x0, ∀ x1, ∀ x2, ∀ x3, Keeps b (a4 x0 x1 x2 x3)) :
    Keeps b (withIntake a0 a1 a2 a3 a4) := by
  unfold withIntake
  try dsimp only
  with_reducible repeat' (first | assumption | apply h1 | apply withInst_keeps | split | intro _)

theorem takeBatch_keeps {a0 a1 a2 a3 a4 a5} (h0 : Keeps b a5) :
    Keeps b (takeBatch a0 a1 a2 a3 a4 a5) := by
  unfold takeBatch
  try dsimp only
  with_reducible repeat' (first | assumption | apply onI_keeps)



theorem finishBatch_keeps {a0 a1 a2 a3 a4} (h0 : Keeps b a4) :
    Keeps b (finishBatch a0 a1 a2 a3 a4) := by
  unfold finishBatch
  try dsimp only
  with_reducible repeat' (first | assumption | apply onI_keeps)

theorem layNext_keeps {a0 a1 a2 a3} (h0 : Keeps b a3) :
    Keeps b (layNext a0 a1 a2 a3) := by
  unfold layNext
  try dsimp only
  repeat' (first
    | with_reducible assumption
    | with_reducible apply layBatch_keeps
    | with_reducible apply starved_keeps
    | with_reducible apply onI_keeps
    | split
    | with_reducible apply KPair.snd)

theorem takeArea_keeps {a0 a1 a2 a3 a4} (h0 : Keeps b a4) :
    KOpt b (takeArea a0 a1 a2 a3 a4) := by
  unfold takeArea
  try dsimp only
  repeat' (first
    | with_reducible assumption
    | with_reducible apply onI_keeps
    | with_reducible apply devWrite_keeps
    | with_reducible apply KOpt.some
    | with_reducible apply KOpt.map
    | split
    | intro _
    | with_reducible apply KPair.snd)

theorem takeAreas_keeps {j st i : Nat} {l : List (Nat × Bytes)} : ∀ {s : State}, Keeps b s →
    KExc b (takeAreas j st i l s) := by
  induction l with
  | nil => exact fun h => h
  | cons x t ih =>
    intro s h
    have h1 := takeArea_keeps (a0 := j) (a1 := st) (a2 := i) (a3 := x) h
    simp only [takeAreas]
    split
    · exact ih (h1.of ‹_›)
    · exact KExc.error

theorem withAreas_keeps {a0 a1 a2 a3 a4 a5} (h0 : Keeps b a4) (h1 : ∀ x0, Keeps b x0 → Keeps b (a5 x0)) :
    Keeps b (withAreas a0 a1 a2 a3 a4 a5) := by
  unfold withAreas
  try dsimp only
  repeat' (first
    | with_reducible assumption
    | with_reducible apply h1
    | with_reducible apply takeAreas_keeps
    | with_reducible apply scratchFails_keeps
    | split
    | (with_reducible apply KExc.of; rotate_left; (with_reducible assumption)))

theorem dropAreas_keeps {a0 a1 a2 a3} (h0 : Keeps b a3) :
    Keeps b (dropAreas a0 a1 a2 a3) := by
  unfold dropAreas
  try dsimp only
  with_reducible repeat' (first | assumption | apply onI_keeps)

theorem layOuts_keeps {a0 a1 a2 a3} (h0 : Keeps b a3) :
    Keeps b (layOuts a0 a1 a2 a3) := by
  unfold layOuts
  try dsimp only
  with_reducible repeat' (first | assumption | apply onI_keeps | apply layNext_keeps | apply repeat_keeps)

theorem countQ_keeps {a0 a1 a2 a3} (h0 : Keeps b a3) :
    Keeps b (countQ a0 a1 a2 a3) := by
  unfold countQ
  try dsimp only
  with_reducible repeat' (first | assumption | apply count_keeps)

theorem countFault_keeps {a0 a1 a2} (h0 : Keeps b a2) :
    Keeps b (countFault a0 a1 a2) := by
  unfold countFault
  try dsimp only
  with_reducible repeat' (first | assumption | apply countQ_keeps)

theorem dataRecord_keeps {a0 a1 a2 a3} (h0 : Keeps b a3) :
    Keeps b (dataRecord a0 a1 a2 a3) := by
  unfold dataRecord
  try dsimp only
  with_reducible repeat' (first | assumption | apply logRecord_keeps)

theorem quayFault_keeps {a0 a1 a2 a3 a4} (h0 : Keeps b a4) :
    Keeps b (quayFault a0 a1 a2 a3 a4) := by
  unfold quayFault
  try dsimp only
  repeat' (first
    | with_reducible assumption
    | with_reducible apply countFault_keeps
    | with_reducible apply endFailed_keeps
    | with_reducible apply dataRecord_keeps
    | split)

theorem awayFault_keeps {a0 a1 a2 a3 a4} (h0 : Keeps b a4) :
    Keeps b (awayFault a0 a1 a2 a3 a4) := by
  unfold awayFault
  try dsimp only
  with_reducible repeat' (first | assumption | apply quayFault_keeps)

theorem withKeys_keeps {a0 a1 a2 a3 a4 a5} (h0 : Keeps b a4) (h1 : ∀ x0, Keeps b x0 → Keeps b (a5 x0)) :
    Keeps b (withKeys a0 a1 a2 a3 a4 a5) := by
  unfold withKeys
  try dsimp only
  repeat' (first
    | with_reducible assumption
    | with_reducible apply h1
    | with_reducible apply readLongs_keeps
    | with_reducible apply awayFault_keeps
    | with_reducible apply noteViolation_keeps
    | split
    | (with_reducible apply KPair.of; rotate_left; (with_reducible assumption)))

theorem withHostJob_keeps {a0 a1 a2 a3 a4} (h0 : Keeps b a3) (h1 : ∀ x0, ∀ x1, Keeps b x1 → Keeps b (a4 x0 x1)) :
    Keeps b (withHostJob a0 a1 a2 a3 a4) := by
  unfold withHostJob
  try dsimp only
  repeat' (first
    | with_reducible assumption
    | with_reducible apply h1
    | with_reducible apply withJob_keeps
    | with_reducible apply hostSync_keeps
    | split
    | intro _)

theorem measure_keeps {a0 a1 a2 a3 a4 a5} (h0 : Keeps b a5) :
    Keeps b (measure a0 a1 a2 a3 a4 a5) := by
  unfold measure
  try dsimp only
  with_reducible repeat' (first | assumption | apply onB_keeps)

theorem hostReadFailed_keeps {a0 a1 a2} (h0 : Keeps b a2) :
    Keeps b (hostReadFailed a0 a1 a2) := by
  unfold hostReadFailed
  try dsimp only
  with_reducible repeat' (first | assumption | apply endFailed_keeps)

theorem deviceFailed_keeps {a0 a1 a2 a3 a4 a5} (h0 : Keeps b a5) :
    Keeps b (deviceFailed a0 a1 a2 a3 a4 a5) := by
  unfold deviceFailed
  try dsimp only
  with_reducible repeat' (first | assumption | apply noteViolation_keeps | apply endFailed_keeps | split)

theorem loadImageRun_keeps {a0 a1 a2 a3} (h0 : Keeps b a3) :
    Keeps b (loadImageRun a0 a1 a2 a3) := by
  unfold loadImageRun
  try dsimp only
  repeat' (first
    | with_reducible assumption
    | with_reducible apply endFailed_keeps
    | with_reducible apply noteViolation_keeps
    | with_reducible apply hostRead_keeps
    | with_reducible apply beginJob_keeps
    | with_reducible apply hostReadFailed_keeps
    | with_reducible apply markDirty_keeps
    | with_reducible apply devPut_keeps
    | with_reducible apply onSlot_keeps
    | with_reducible apply imageGranules_keeps
    | with_reducible apply endDone_keeps
    | with_reducible apply measure_keeps
    | split
    | (with_reducible apply KPair.of; rotate_left; (with_reducible assumption)))

theorem execLoadImage_keeps {a0 a1 a2} (h0 : Keeps b a2) :
    ∀ t, execLoadImage a0 a1 a2 = .next t → Keeps b t := by
  intro t e
  simp only [execLoadImage, Host.Outcome.next.injEq] at e
  subst e
  try dsimp only
  repeat' (first
    | with_reducible assumption
    | with_reducible apply withHostJob_keeps
    | with_reducible apply endFailed_keeps
    | with_reducible apply loadImageRun_keeps
    | split
    | intro _)

theorem execUnloadImage_keeps {a0 a1} (h0 : Keeps b a1) :
    ∀ t, execUnloadImage a0 a1 = .next t → Keeps b t := by
  intro t e
  simp only [execUnloadImage, Host.Outcome.next.injEq] at e
  subst e
  try dsimp only
  repeat' (first
    | with_reducible assumption
    | with_reducible apply withJob_keeps
    | with_reducible apply endFailed_keeps
    | with_reducible apply beginJob_keeps
    | split
    | intro _)

theorem execSlotUnloadComplete_keeps {a0 a1 a2} (h0 : Keeps b a2) :
    ∀ t, execSlotUnloadComplete a0 a1 a2 = .next t → Keeps b t := by
  intro t e
  simp only [execSlotUnloadComplete, Host.Outcome.next.injEq] at e
  subst e
  try dsimp only
  with_reducible repeat' (first | assumption | apply emptySlot_keeps | apply endDone_keeps | split)

theorem startRead_keeps {a0 a1 a2 a3} (h0 : Keeps b a3) :
    KPair b (startRead a0 a1 a2 a3) := by
  unfold startRead
  try dsimp only
  repeat' (first
    | with_reducible assumption
    | with_reducible apply devRead_keeps
    | split
    | (with_reducible apply KPair.of; rotate_left; (with_reducible assumption))
    | with_reducible apply KPair.mk)

theorem dirFault_keeps {a0 a1 a2} (h0 : Keeps b a2) :
    KPair b (dirFault a0 a1 a2) := by
  unfold dirFault
  try dsimp only
  repeat' (first
    | with_reducible assumption
    | with_reducible apply countFault_keeps
    | with_reducible apply dataRecord_keeps
    | split
    | with_reducible apply KPair.mk)

theorem snapshot_keeps {a0 a1 a2} (h0 : Keeps b a2) :
    KPair b (snapshot a0 a1 a2) := by
  unfold snapshot
  try dsimp only
  repeat' (first
    | with_reducible assumption
    | with_reducible apply dirFault_keeps
    | with_reducible apply startRead_keeps
    | split
    | (with_reducible apply KPair.of; rotate_left; (with_reducible assumption))
    | with_reducible apply KPair.snd
    | with_reducible apply KPair.mk)

theorem snapshots_keeps {x : Fin 512} : ∀ {l : List (Option Nat × Nat × Nat × Nat)} {o : Option Nat} {s : State},
    Keeps b s → KPair b (snapshots x o l s) := by
  intro l
  induction l with
  | nil => exact fun h => h
  | cons w t ih =>
    intro o s h
    have h1 := snapshot_keeps (a0 := x) (a1 := w) h
    simp only [snapshots]
    split
    · exact KPair.mk (h1.of ‹_›)
    · next d s1 _ =>
      split
      · exact KPair.mk (h1.of ‹_›)
      · have h2 := ih (o := some d.totalRows) (h1.of ‹_›)
        split <;> exact KPair.mk (h2.of ‹_›)
theorem allSnapshots_keeps {x : Fin 512} {j : Job} : ∀ {l : List (Nat × Stage)} {s : State},
    Keeps b s → KPair b (allSnapshots x j l s) := by
  intro l
  induction l with
  | nil => exact fun h => h
  | cons w t ih =>
    intro s h
    have h1 := snapshots_keeps (x := x) (o := none) (l := dirWants j w.2) h
    simp only [allSnapshots]
    split
    · exact KPair.mk (h1.of ‹_›)
    · have h2 := ih (h1.of ‹_›)
      split <;> exact KPair.mk (h2.of ‹_›)
theorem readSets_keeps {x : Fin 512} {base : Nat} {head : Bytes} : ∀ {l : List (Nat × Schema)} {s : State},
    Keeps b s → KPair b (readSets x base head l s) := by
  intro l
  induction l with
  | nil => exact fun h => h
  | cons w t ih =>
    intro s h
    have h1 := hostRead_keeps (a0 := some x) (a1 := base + setOffset head w.1) (a2 := setBytes w.2) h
    simp only [readSets]
    split
    · exact KPair.mk (h1.of ‹_›)
    · split
      · exact KPair.mk (h1.of ‹_›)
      · have h2 := ih (h1.of ‹_›)
        split <;> exact KPair.mk (h2.of ‹_›)

theorem readDescriptor_keeps {a0 a1 a2 a3} (h0 : Keeps b a3) :
    KPair b (readDescriptor a0 a1 a2 a3) := by
  unfold readDescriptor
  try dsimp only
  repeat' (first
    | with_reducible assumption
    | with_reducible apply hostRead_keeps
    | with_reducible apply readSets_keeps
    | split
    | (with_reducible apply KPair.of; rotate_left; (with_reducible assumption))
    | with_reducible apply KPair.mk)

theorem startFailed_keeps {a0 a1 a2 a3} (h0 : Keeps b a3) :
    Keeps b (startFailed a0 a1 a2 a3) := by
  unfold startFailed
  try dsimp only
  with_reducible repeat' (first | assumption | apply noteViolation_keeps | apply endFailed_keeps | split)

theorem runStart_keeps {j : Nat} {x : Job} {t : Fin 512} {y : Slot} {d : Bytes} {im : Image} {s : State}
    (h : Keeps b s) : Keeps b (runStart j x t y d im s) := by
  unfold runStart
  dsimp only
  have h0 := (devWrite_keeps (a0 := some t) (a1 := false) (a2 := bodyField x 0x20 8) (a3 := constCopy x im d) h).snd
  split
  · exact noteViolation_keeps h
  · split
    · exact endFailed_keeps h0
    · have h1 := allSnapshots_keeps (x := t) (j := x) (l := numbered im.stages) h0
      split
      · exact startFailed_keeps (h1.of ‹_›)
      · split
        · exact endFailed_keeps (h1.of ‹_›)
        · have h2 := readDescriptor_keeps (a0 := t) (a1 := bodyField x 0x18 8) (a2 := im) (h1.of ‹_›)
          split
          · exact startFailed_keeps (h2.of ‹_›)
          · exact onSlot_keeps (Keeps.fields (h2.of ‹_›))

theorem execRun_keeps {a0 a1 a2} (h0 : Keeps b a2) :
    ∀ t, execRun a0 a1 a2 = .next t → Keeps b t := by
  intro t e
  simp only [execRun, Host.Outcome.next.injEq] at e
  subst e
  try dsimp only
  repeat' (first
    | with_reducible assumption
    | with_reducible apply withHostJob_keeps
    | with_reducible apply endFailed_keeps
    | with_reducible apply devRead_keeps
    | with_reducible apply runStart_keeps
    | split
    | (with_reducible apply KPair.of; rotate_left; (with_reducible assumption))
    | intro _)

theorem createTask_keeps {a0 a1 a2 a3 a4 a5} (h0 : Keeps b a5) :
    Keeps b (createTask a0 a1 a2 a3 a4 a5) := by
  unfold createTask
  try dsimp only
  with_reducible repeat' (first | assumption | apply wake_keeps | apply onT_keeps)

theorem createScans_keeps {a0 a1 a2 a3 a4} (h0 : Keeps b a4) :
    Keeps b (createScans a0 a1 a2 a3 a4) := by
  unfold createScans
  try dsimp only
  with_reducible repeat' (first | assumption | apply foldl_keeps | split | intro _ | apply Keeps.fields)

theorem firstOffsets_keeps {a0 a1 a2} (h0 : Keeps b a2) :
    Keeps b (firstOffsets a0 a1 a2) := by
  unfold firstOffsets
  try dsimp only
  with_reducible repeat' (first | assumption | apply hostWrite_keeps | apply foldl_keeps | split | intro _)

theorem placeRun_keeps {a0 a1 a2 a3} (h0 : Keeps b a3) :
    Keeps b (placeRun a0 a1 a2 a3) := by
  unfold placeRun
  try dsimp only
  repeat' (first
    | with_reducible assumption
    | with_reducible apply createTask_keeps
    | with_reducible apply onPilot_keeps
    | with_reducible apply onR_keeps
    | with_reducible apply createScans_keeps
    | with_reducible apply beginJob_keeps
    | with_reducible apply firstOffsets_keeps
    | with_reducible apply foldl_keeps
    | split
    | intro _)

theorem execRunPlacement_keeps {a0 a1} (h0 : Keeps b a1) :
    ∀ t, execRunPlacement a0 a1 = .next t → Keeps b t := by
  intro t e
  simp only [execRunPlacement, Host.Outcome.next.injEq] at e
  subst e
  try dsimp only
  repeat' (first
    | with_reducible assumption
    | with_reducible apply withJob_keeps
    | with_reducible apply endFailed_keeps
    | with_reducible apply placeRun_keeps
    | split
    | intro _)

theorem execCancel_keeps {a0 a1} (h0 : Keeps b a1) :
    ∀ t, execCancel a0 a1 = .next t → Keeps b t := by
  intro t e
  simp only [execCancel, Host.Outcome.next.injEq] at e
  subst e
  try dsimp only
  repeat' (first
    | with_reducible assumption
    | with_reducible apply withJob_keeps
    | with_reducible apply endFailed_keeps
    | with_reducible apply beginJob_keeps
    | with_reducible apply endDone_keeps
    | with_reducible apply stopTasks_keeps
    | with_reducible apply endCancelled_keeps
    | with_reducible apply onJ_keeps
    | split
    | intro _)

theorem execTimeLimitExpiry_keeps {a0 a1} (h0 : Keeps b a1) :
    ∀ t, execTimeLimitExpiry a0 a1 = .next t → Keeps b t := by
  intro t e
  simp only [execTimeLimitExpiry, Host.Outcome.next.injEq] at e
  subst e
  try dsimp only
  with_reducible repeat' (first | assumption | apply stopTasks_keeps | apply endFailed_keeps | split)

theorem onCanopy_keeps {a0 a1} (h0 : Keeps b a1) :
    Keeps b (onCanopy a0 a1) := by
  unfold onCanopy
  try dsimp only
  with_reducible repeat' (first | assumption | apply Keeps.fields)

theorem onBank_keeps {a0 a1 a2} (h0 : Keeps b a2) :
    Keeps b (onBank a0 a1 a2) := by
  unfold onBank
  try dsimp only
  with_reducible repeat' (first | assumption | apply onCanopy_keeps)

theorem onTable_keeps {a0 a1 a2} (h0 : Keeps b a2) :
    Keeps b (onTable a0 a1 a2) := by
  unfold onTable
  try dsimp only
  with_reducible repeat' (first | assumption | apply onCanopy_keeps | split)

theorem countC_keeps {a0 a1 a2 a3} (h0 : Keeps b a3) :
    Keeps b (countC a0 a1 a2 a3) := by
  unfold countC
  try dsimp only
  with_reducible repeat' (first | assumption | apply count_keeps)

theorem writeEntry_keeps {a0 a1 a2} (h0 : Keeps b a2) :
    Keeps b (writeEntry a0 a1 a2) := by
  unfold writeEntry
  try dsimp only
  with_reducible repeat' (first | assumption | apply onCanopy_keeps | apply devPut_keeps)

theorem reloadEntry_keeps {a0 a1} (h0 : Keeps b a1) :
    Keeps b (reloadEntry a0 a1) := by
  unfold reloadEntry
  try dsimp only
  with_reducible repeat' (first | assumption | apply onCanopy_keeps)

theorem clearRange_keeps {a0 a1 a2 a3} (h0 : Keeps b a3) :
    Keeps b (clearRange a0 a1 a2 a3) := by
  unfold clearRange
  try dsimp only
  with_reducible repeat' (first | assumption | apply writeEntry_keeps | apply foldl_keeps | intro _)

theorem moveCopy_keeps {a0 a1 a2 a3} (h0 : Keeps b a3) :
    Keeps b (moveCopy a0 a1 a2 a3) := by
  unfold moveCopy
  try dsimp only
  repeat' (first
    | with_reducible assumption
    | with_reducible apply clearRange_keeps
    | with_reducible apply writeEntry_keeps
    | with_reducible apply countC_keeps
    | with_reducible apply onTable_keeps
    | with_reducible apply foldl_keeps
    | split
    | intro _)

theorem compactBank_keeps {k : Nat} {s : State} (h : Keeps b s) : Keeps b (compactBank k s) := by
  unfold compactBank
  exact (foldl_snd_keeps (fun p c hp => by
    refine KPair.mk ?_
    split
    · exact hp.snd
    · exact moveCopy_keeps hp.snd) (KPair.mk h)).snd
theorem placeIn_keeps {c : Nat} {l : List Nat} {s t : State} {x : Nat} (h : Keeps b s)
    (e : placeIn c l s = some (x, t)) : Keeps b t := by
  unfold placeIn at e
  dsimp only at e
  split at e
  · rw [Option.map_eq_some_iff] at e
    obtain ⟨_, _, e⟩ := e
    cases e; exact h
  · split at e
    · cases e
    · rw [Option.map_eq_some_iff] at e
      obtain ⟨_, _, e⟩ := e
      cases e; exact compactBank_keeps h
theorem placeTable_keeps {c : Nat} {m : Bool} {s t : State} {x : Nat} {y : Option Nat} (h : Keeps b s)
    (e : placeTable c m s = some (x, y, t)) : Keeps b t := by
  unfold placeTable at e
  dsimp only at e
  split at e
  · cases e
  · next h1 s1 e1 =>
    have k1 := placeIn_keeps h e1
    split at e
    · cases e; exact k1
    · split at e
      · next e2 => cases e; exact placeIn_keeps k1 e2
      · cases e

theorem placeEntries_keeps {a0 a1 a2 a3 a4} (h0 : Keeps b a4) :
    Keeps b (placeEntries a0 a1 a2 a3 a4) := by
  unfold placeEntries
  try dsimp only
  repeat' (first
    | with_reducible assumption
    | with_reducible apply clearRange_keeps
    | with_reducible apply countC_keeps
    | with_reducible apply writeEntry_keeps
    | with_reducible apply foldl_keeps
    | intro _)

theorem clearCopies_keeps {a0 a1} (h0 : Keeps b a1) :
    Keeps b (clearCopies a0 a1) := by
  unfold clearCopies
  try dsimp only
  with_reducible repeat' (first | assumption | apply clearRange_keeps | apply foldl_keeps | intro _)

theorem freeTable_keeps {a0 a1} (h0 : Keeps b a1) :
    Keeps b (freeTable a0 a1) := by
  unfold freeTable
  try dsimp only
  with_reducible repeat' (first | assumption | apply onCanopy_keeps | apply clearCopies_keeps | split)

theorem issueSearch_keeps {a0 a1 a2} (h0 : Keeps b a2) :
    Keeps b (issueSearch a0 a1 a2) := by
  unfold issueSearch
  try dsimp only
  with_reducible repeat' (first | assumption | apply onBank_keeps)

theorem issueText_keeps {a0 a1 a2} (h0 : Keeps b a2) :
    Keeps b (issueText a0 a1 a2) := by
  unfold issueText
  try dsimp only
  with_reducible repeat' (first | assumption | apply onBank_keeps)

theorem sendAgain_keeps {a0 a1 a2} (h0 : Keeps b a2) :
    Keeps b (sendAgain a0 a1 a2) := by
  unfold sendAgain
  try dsimp only
  repeat' (first
    | with_reducible assumption
    | with_reducible apply onCanopy_keeps
    | with_reducible apply issueSearch_keeps
    | with_reducible apply issueText_keeps
    | with_reducible apply foldl_keeps
    | split
    | intro _)

theorem fillTable_keeps {a0 a1} (h0 : Keeps b a1) :
    Keeps b (fillTable a0 a1) := by
  unfold fillTable
  try dsimp only
  with_reducible repeat' (first | assumption | apply placeEntries_keeps | apply onCanopy_keeps)

theorem reserveTable_keeps {n t : CTable} {s u : State} (h : Keeps b s)
    (e : reserveTable n s = some (t, u)) : Keeps b u := by
  unfold reserveTable at e
  rw [Option.map_eq_some_iff] at e
  obtain ⟨⟨x, y, v⟩, e1, e2⟩ := e
  cases e2
  exact placeTable_keeps h e1
theorem withRoom_keeps {a0 a1 a2 a3} (h0 : Keeps b a2) (h1 : ∀ x0 x1, Keeps b x1 → Keeps b (a3 x0 x1)) :
    Keeps b (withRoom a0 a1 a2 a3) := by
  unfold withRoom
  split
  · exact endFailed_keeps h0
  · next e => exact h1 _ _ (reserveTable_keeps h0 e)
theorem installTable_keeps {n : NewTable} {s : State} (h : Keeps b s) : KOpt b (installTable n s) := by
  unfold installTable
  cases e : reserveTable n.table s with
  | none => trivial
  | some p => exact fillTable_keeps (reserveTable_keeps h e)

theorem createTable_keeps {a0 a1 a2} (h0 : Keeps b a2) :
    Keeps b (createTable a0 a1 a2) := by
  unfold createTable
  try dsimp only
  with_reducible repeat' (first | assumption | apply endDone_keeps | apply fillTable_keeps)

theorem replaceTable_keeps {a0 a1 a2 a3 a4} (h0 : Keeps b a4) :
    Keeps b (replaceTable a0 a1 a2 a3 a4) := by
  unfold replaceTable
  try dsimp only
  repeat' (first
    | with_reducible assumption
    | with_reducible apply placeEntries_keeps
    | with_reducible apply clearCopies_keeps
    | with_reducible apply endDone_keeps
    | with_reducible apply sendAgain_keeps
    | with_reducible apply onCanopy_keeps
    | split)

theorem withRecords_keeps {a0 a1 a2 a3 a4 a5 a6} (h0 : Keeps b a5) (h1 : ∀ x0, ∀ x1, Keeps b x1 → Keeps b (a6 x0 x1)) :
    Keeps b (withRecords a0 a1 a2 a3 a4 a5 a6) := by
  unfold withRecords
  try dsimp only
  repeat' (first
    | with_reducible assumption
    | with_reducible apply h1
    | with_reducible apply hostRead_keeps
    | with_reducible apply beginJob_keeps
    | with_reducible apply hostReadFailed_keeps
    | with_reducible apply advanceJob_keeps
    | with_reducible apply endFailed_keeps
    | split
    | (with_reducible apply KPair.of; rotate_left; (with_reducible assumption)))

theorem withTableJob_keeps {a0 a1 a2 a3 a4} (h0 : Keeps b a3) (h1 : ∀ x0, Keeps b (a4 x0)) :
    Keeps b (withTableJob a0 a1 a2 a3 a4) := by
  unfold withTableJob
  try dsimp only
  with_reducible repeat' (first | assumption | apply h1 | apply endFailed_keeps | split)

theorem execCanopyLoadCreate_keeps {a0 a1 a2} (h0 : Keeps b a2) :
    ∀ t, execCanopyLoadCreate a0 a1 a2 = .next t → Keeps b t := by
  intro t e
  simp only [execCanopyLoadCreate, Host.Outcome.next.injEq] at e
  subst e
  try dsimp only
  repeat' (first
    | with_reducible assumption
    | with_reducible apply withHostJob_keeps
    | with_reducible apply withTableJob_keeps
    | with_reducible apply endFailed_keeps
    | with_reducible apply withRoom_keeps
    | with_reducible apply withRecords_keeps
    | with_reducible apply createTable_keeps
    | split
    | intro _)

theorem execCanopyLoadReplace_keeps {a0 a1 a2} (h0 : Keeps b a2) :
    ∀ t, execCanopyLoadReplace a0 a1 a2 = .next t → Keeps b t := by
  intro t e
  simp only [execCanopyLoadReplace, Host.Outcome.next.injEq] at e
  subst e
  try dsimp only
  repeat' (first
    | with_reducible assumption
    | with_reducible apply withHostJob_keeps
    | with_reducible apply withTableJob_keeps
    | with_reducible apply endFailed_keeps
    | with_reducible apply withRoom_keeps
    | with_reducible apply withRecords_keeps
    | with_reducible apply replaceTable_keeps
    | split
    | intro _)

theorem execCanopyLoadDrop_keeps {a0 a1} (h0 : Keeps b a1) :
    ∀ t, execCanopyLoadDrop a0 a1 = .next t → Keeps b t := by
  intro t e
  simp only [execCanopyLoadDrop, Host.Outcome.next.injEq] at e
  subst e
  try dsimp only
  repeat' (first
    | with_reducible assumption
    | with_reducible apply withJob_keeps
    | with_reducible apply withTableJob_keeps
    | with_reducible apply endFailed_keeps
    | with_reducible apply onTable_keeps
    | with_reducible apply beginJob_keeps
    | with_reducible apply endDone_keeps
    | with_reducible apply freeTable_keeps
    | split
    | intro _)

theorem execTableDropComplete_keeps {a0 a1 a2} (h0 : Keeps b a2) :
    ∀ t, execTableDropComplete a0 a1 a2 = .next t → Keeps b t := by
  intro t e
  simp only [execTableDropComplete, Host.Outcome.next.injEq] at e
  subst e
  try dsimp only
  with_reducible repeat' (first | assumption | apply endDone_keeps | apply freeTable_keeps | split)

theorem execCanopyUpdate_keeps {a0 a1 a2} (h0 : Keeps b a2) :
    ∀ t, execCanopyUpdate a0 a1 a2 = .next t → Keeps b t := by
  intro t e
  simp only [execCanopyUpdate, Host.Outcome.next.injEq] at e
  subst e
  try dsimp only
  repeat' (first
    | with_reducible assumption
    | with_reducible apply withHostJob_keeps
    | with_reducible apply withTableJob_keeps
    | with_reducible apply endFailed_keeps
    | with_reducible apply hostRead_keeps
    | with_reducible apply beginJob_keeps
    | with_reducible apply hostReadFailed_keeps
    | with_reducible apply onTable_keeps
    | split
    | (with_reducible apply KPair.of; rotate_left; (with_reducible assumption))
    | intro _)

theorem withPattern_keeps {a0 a1 a2 a3 a4} (h0 : Keeps b a3) (h1 : ∀ x0, ∀ x1, Keeps b x1 → Keeps b (a4 x0 x1)) :
    Keeps b (withPattern a0 a1 a2 a3 a4) := by
  unfold withPattern
  try dsimp only
  repeat' (first
    | with_reducible assumption
    | with_reducible apply h1
    | with_reducible apply hostRead_keeps
    | with_reducible apply beginJob_keeps
    | with_reducible apply hostReadFailed_keeps
    | with_reducible apply endFailed_keeps
    | split
    | (with_reducible apply KPair.of; rotate_left; (with_reducible assumption)))

theorem measurePattern_keeps {a0 a1 a2} (h0 : Keeps b a2) :
    Keeps b (measurePattern a0 a1 a2) := by
  unfold measurePattern
  try dsimp only
  with_reducible repeat' (first | assumption | apply measure_keeps | split)

theorem execPatternLoadCreate_keeps {a0 a1 a2} (h0 : Keeps b a2) :
    ∀ t, execPatternLoadCreate a0 a1 a2 = .next t → Keeps b t := by
  intro t e
  simp only [execPatternLoadCreate, Host.Outcome.next.injEq] at e
  subst e
  try dsimp only
  repeat' (first
    | with_reducible assumption
    | with_reducible apply withHostJob_keeps
    | with_reducible apply withTableJob_keeps
    | with_reducible apply endFailed_keeps
    | with_reducible apply withPattern_keeps
    | with_reducible apply withRoom_keeps
    | with_reducible apply measurePattern_keeps
    | with_reducible apply createTable_keeps
    | split
    | intro _)

theorem execPatternLoadReplace_keeps {a0 a1 a2} (h0 : Keeps b a2) :
    ∀ t, execPatternLoadReplace a0 a1 a2 = .next t → Keeps b t := by
  intro t e
  simp only [execPatternLoadReplace, Host.Outcome.next.injEq] at e
  subst e
  try dsimp only
  repeat' (first
    | with_reducible assumption
    | with_reducible apply withHostJob_keeps
    | with_reducible apply withTableJob_keeps
    | with_reducible apply endFailed_keeps
    | with_reducible apply withPattern_keeps
    | with_reducible apply withRoom_keeps
    | with_reducible apply measurePattern_keeps
    | with_reducible apply replaceTable_keeps
    | split
    | intro _)

theorem doSlot_keeps {a0 a1 a2 a3 a4} (h0 : Keeps b a4) :
    Keeps b (doSlot a0 a1 a2 a3 a4) := by
  unfold doSlot
  try dsimp only
  repeat' (first
    | with_reducible assumption
    | with_reducible apply writeEntry_keeps
    | with_reducible apply countC_keeps
    | with_reducible apply onTable_keeps
    | split)

theorem recordDone_keeps {a0 a1} (h0 : Keeps b a1) :
    Keeps b (recordDone a0 a1) := by
  unfold recordDone
  try dsimp only
  repeat' (first
    | with_reducible assumption
    | with_reducible apply advanceJob_keeps
    | with_reducible apply endDone_keeps
    | with_reducible apply onTable_keeps
    | split)

theorem nextRecord_keeps {a0 a1 a2} (h0 : Keeps b a2) :
    Keeps b (nextRecord a0 a1 a2) := by
  unfold nextRecord
  try dsimp only
  with_reducible repeat' (first | assumption | apply onTable_keeps | apply endFailed_keeps | split)

theorem execUpdateSlotWrite_keeps {a0 a1 a2} (h0 : Keeps b a2) :
    ∀ t, execUpdateSlotWrite a0 a1 a2 = .next t → Keeps b t := by
  intro t e
  simp only [execUpdateSlotWrite, Host.Outcome.next.injEq] at e
  subst e
  try dsimp only
  repeat' (first
    | with_reducible assumption
    | with_reducible apply nextRecord_keeps
    | with_reducible apply recordDone_keeps
    | with_reducible apply countC_keeps
    | with_reducible apply doSlot_keeps
    | split)

theorem sendSearch_keeps {a0 a1} (h0 : Keeps b a1) :
    Keeps b (sendSearch a0 a1) := by
  unfold sendSearch
  try dsimp only
  with_reducible repeat' (first | assumption | apply endFailed_keeps | apply issueSearch_keeps | split)

theorem sendText_keeps {a0 a1} (h0 : Keeps b a1) :
    Keeps b (sendText a0 a1) := by
  unfold sendText
  try dsimp only
  with_reducible repeat' (first | assumption | apply endFailed_keeps | apply issueText_keeps | split)

theorem sendMore_keeps {a0 a1 a2 a3 a4} (h0 : Keeps b a4) :
    Keeps b (sendMore a0 a1 a2 a3 a4) := by
  unfold sendMore
  try dsimp only
  repeat' (first
    | with_reducible assumption
    | with_reducible apply onI_keeps
    | with_reducible apply sendText_keeps
    | with_reducible apply sendSearch_keeps
    | with_reducible apply foldl_keeps
    | split
    | intro _)

theorem deliverOutcome_keeps {a0 a1 a2 a3 a4 a5} (h0 : Keeps b a5) :
    Keeps b (deliverOutcome a0 a1 a2 a3 a4 a5) := by
  unfold deliverOutcome
  try dsimp only
  with_reducible repeat' (first | assumption | apply sendMore_keeps | apply onI_keeps | apply pulseInst_keeps | split)

theorem purgeInst_keeps {a0 a1 a2 a3} (h0 : Keeps b a3) :
    Keeps b (purgeInst a0 a1 a2 a3) := by
  unfold purgeInst
  try dsimp only
  with_reducible repeat' (first | assumption | apply onCanopy_keeps)

theorem takeSlot_keeps {a0 a1 a2 a3} (h0 : Keeps b a3) :
    Keeps b (takeSlot a0 a1 a2 a3) := by
  unfold takeSlot
  try dsimp only
  with_reducible repeat' (first | assumption | apply countC_keeps | apply onBank_keeps)

theorem execSearch_keeps {a0 a1 a2} (h0 : Keeps b a2) :
    ∀ t, execSearch a0 a1 a2 = .next t → Keeps b t := by
  intro t e
  simp only [execSearch, Host.Outcome.next.injEq] at e
  subst e
  try dsimp only
  repeat' (first
    | with_reducible assumption
    | with_reducible apply endFailed_keeps
    | with_reducible apply onBank_keeps
    | with_reducible apply takeSlot_keeps
    | with_reducible apply countC_keeps
    | split)

theorem execSearchComplete_keeps {a0 a1} (h0 : Keeps b a1) :
    ∀ t, execSearchComplete a0 a1 = .next t → Keeps b t := by
  intro t e
  simp only [execSearchComplete, Host.Outcome.next.injEq] at e
  subst e
  try dsimp only
  repeat' (first
    | with_reducible assumption
    | with_reducible apply onBank_keeps
    | with_reducible apply countC_keeps
    | with_reducible apply deliverOutcome_keeps
    | split)

theorem textDone_keeps {a0 a1 a2 a3 a4} (h0 : Keeps b a4) :
    Keeps b (textDone a0 a1 a2 a3 a4) := by
  unfold textDone
  try dsimp only
  with_reducible repeat' (first | assumption | apply deliverOutcome_keeps | apply onBank_keeps)

theorem textStays_keeps {a0 a1 a2 a3} (h0 : Keeps b a3) :
    Keeps b (textStays a0 a1 a2 a3) := by
  unfold textStays
  try dsimp only
  with_reducible repeat' (first | assumption | apply onBank_keeps)

theorem stepText_keeps {a0 a1 a2 a3 a4 a5 a6} (h0 : Keeps b a6) :
    Keeps b (stepText a0 a1 a2 a3 a4 a5 a6) := by
  unfold stepText
  try dsimp only
  repeat' (first
    | with_reducible assumption
    | with_reducible apply takeSlot_keeps
    | with_reducible apply onBank_keeps
    | with_reducible apply textDone_keeps
    | with_reducible apply countC_keeps
    | with_reducible apply textStays_keeps
    | with_reducible apply endFailed_keeps
    | split)

theorem execPatternStep_keeps {a0 a1 a2} (h0 : Keeps b a2) :
    ∀ t, execPatternStep a0 a1 a2 = .next t → Keeps b t := by
  intro t e
  simp only [execPatternStep, Host.Outcome.next.injEq] at e
  subst e
  try dsimp only
  with_reducible repeat' (first | assumption | apply stepText_keeps | split)

theorem execParityScanRead_keeps {a0 a1 a2 a3} (h0 : Keeps b a3) :
    ∀ t, execParityScanRead a0 a1 a2 a3 = .next t → Keeps b t := by
  intro t e
  simp only [execParityScanRead, Host.Outcome.next.injEq] at e
  subst e
  try dsimp only
  with_reducible repeat' (first | assumption | apply countC_keeps | apply onBank_keeps | split)

theorem execParityErrorReload_keeps {a0 a1} (h0 : Keeps b a1) :
    ∀ t, execParityErrorReload a0 a1 = .next t → Keeps b t := by
  intro t e
  simp only [execParityErrorReload, Host.Outcome.next.injEq] at e
  subst e
  try dsimp only
  repeat' (first
    | with_reducible assumption
    | with_reducible apply onBank_keeps
    | with_reducible apply reloadEntry_keeps
    | with_reducible apply countC_keeps
    | with_reducible apply logRecord_keeps
    | split)

theorem bankLost_keeps {a0 a1} (h0 : Keeps b a1) :
    Keeps b (bankLost a0 a1) := by
  unfold bankLost
  try dsimp only
  repeat' (first
    | with_reducible assumption
    | with_reducible apply onBank_keeps
    | with_reducible apply onCanopy_keeps
    | with_reducible apply recordDone_keeps
    | with_reducible apply sendAgain_keeps
    | with_reducible apply foldl_keeps
    | intro _)

theorem failSearches_keeps {a0 a1} (h0 : Keeps b a1) :
    Keeps b (failSearches a0 a1) := by
  unfold failSearches
  try dsimp only
  repeat' (first
    | with_reducible assumption
    | with_reducible apply endFailed_keeps
    | with_reducible apply onBank_keeps
    | with_reducible apply foldl_keeps
    | intro _)

theorem rehome_keeps {tag : Nat} {t : CTable} {s : State} (h : Keeps b s) :
    Keeps b (rehome tag t s) := by
  unfold rehome
  dsimp only
  split
  · exact h
  · have h1 := placeIn_keeps h ‹_›
    repeat' (first
      | with_reducible assumption
      | with_reducible apply logRecord_keeps
      | with_reducible apply sendAgain_keeps
      | with_reducible apply countC_keeps
      | with_reducible apply placeEntries_keeps
      | with_reducible apply onTable_keeps
      | with_reducible apply clearRange_keeps
      | split)
theorem remirror_keeps {tag : Nat} {t : CTable} {s : State} (h : Keeps b s) :
    Keeps b (remirror tag t s) := by
  unfold remirror
  dsimp only
  split
  · exact h
  · have h1 := placeIn_keeps h ‹_›
    split
    · exact h1
    · exact countC_keeps (foldl_keeps (fun _ _ => writeEntry_keeps) (clearRange_keeps (onTable_keeps h1)))

theorem strand_keeps {a0 a1 a2} (h0 : Keeps b a2) :
    Keeps b (strand a0 a1 a2) := by
  unfold strand
  try dsimp only
  with_reducible repeat' (first | assumption | apply failSearches_keeps | apply onTable_keeps | split)

theorem reloadNext_keeps {a0 a1} (h0 : Keeps b a1) :
    Keeps b (reloadNext a0 a1) := by
  unfold reloadNext
  try dsimp only
  repeat' (first
    | with_reducible assumption
    | with_reducible apply rehome_keeps
    | with_reducible apply strand_keeps
    | with_reducible apply failSearches_keeps
    | with_reducible apply foldl_keeps
    | split
    | intro _)

theorem tablesReturn_keeps {a0 a1} (h0 : Keeps b a1) :
    Keeps b (tablesReturn a0 a1) := by
  unfold tablesReturn
  try dsimp only
  repeat' (first
    | with_reducible assumption
    | with_reducible apply logRecord_keeps
    | with_reducible apply onTable_keeps
    | with_reducible apply foldl_keeps
    | intro _)

theorem execBankReload_keeps {a0 a1} (h0 : Keeps b a1) :
    ∀ t, execBankReload a0 a1 = .next t → Keeps b t := by
  intro t e
  simp only [execBankReload, Host.Outcome.next.injEq] at e
  subst e
  try dsimp only
  repeat' (first
    | with_reducible assumption
    | with_reducible apply reloadEntry_keeps
    | with_reducible apply tablesReturn_keeps
    | with_reducible apply onBank_keeps
    | with_reducible apply countC_keeps
    | with_reducible apply reloadNext_keeps
    | with_reducible apply remirror_keeps
    | with_reducible apply foldl_keeps
    | split
    | intro _)

end Sys2Proof.Machine
end

