-- ==== Sys2Proof/Laws/KeepsEngines.lean ====
section
/-! SUPPORT. One lemma per operation on the state: what the Cranes, the Quays and the engines keep. -/

namespace Sys2Proof.Machine

variable {b : State}

theorem finish_keeps {a0 a1 a2} (h0 : Keeps b a2) :
    Keeps b (finish a0 a1 a2) := by
  unfold finish
  try dsimp only
  with_reducible repeat' (first | assumption | apply onCore_keeps)

theorem boundNow_keeps {a0 a1 a2 a3} (h0 : Keeps b a3) :
    Keeps b (boundNow a0 a1 a2 a3) := by
  unfold boundNow
  try dsimp only
  with_reducible repeat' (first | assumption | apply onCore_keeps)

theorem partLeaves_keeps {c s} (h : Keeps b s) : Keeps b (partLeaves c s) := by
  unfold partLeaves
  split
  · exact h
  · next x t _ =>
    have h1 := devWriteBy_keeps (c := some c) (t := x.tag) (o := false) (a := x.addr) (d := x.data)
      (onCore_keeps (c := c) (f := fun k => { k with buffer := t }) h)
    dsimp only
    split
    · exact boundNow_keeps (h1.of ‹_›)
    · split
      · exact noteViolation_keeps (h1.of ‹_›)
      · exact h1.of ‹_›
    · exact onCore_keeps (h1.of ‹_›)

theorem storeLeaves_keeps {a0 a1} (h0 : Keeps b a1) :
    Keeps b (storeLeaves a0 a1) := by
  unfold storeLeaves
  try dsimp only
  with_reducible repeat' (first | assumption | apply partLeaves_keeps | apply repeat_keeps)

theorem drainTo_keeps {a0 a1 a2} (h0 : Keeps b a2) :
    Keeps b (drainTo a0 a1 a2) := by
  unfold drainTo
  try dsimp only
  with_reducible repeat' (first | assumption | apply storeLeaves_keeps | apply repeat_keeps | split | intro _)

theorem drain_keeps {a0 a1} (h0 : Keeps b a1) :
    Keeps b (drain a0 a1) := by
  unfold drain
  try dsimp only
  with_reducible repeat' (first | assumption | apply partLeaves_keeps | apply repeat_keeps)

theorem bufferStore_keeps {a0 a1 a2} (h0 : Keeps b a2) :
    Keeps b (bufferStore a0 a1 a2) := by
  unfold bufferStore
  try dsimp only
  with_reducible repeat' (first | assumption | apply storeLeaves_keeps | apply onCore_keeps | split)

theorem enter_keeps {a0 a1 a2 a3 a4} (h0 : Keeps b a4) :
    Keeps b (enter a0 a1 a2 a3 a4) := by
  unfold enter
  try dsimp only
  with_reducible repeat' (first | assumption | apply onCore_keeps | apply endFailed_keeps | split)

theorem pendingOr_keeps {a0 a1 a2} (h0 : Keeps b a1) (h1 : ∀ x0, Keeps b x0 → Keeps b (a2 x0)) :
    Keeps b (pendingOr a0 a1 a2) := by
  unfold pendingOr
  try dsimp only
  with_reducible repeat' (first | assumption | apply h1 | apply enter_keeps | apply onCore_keeps | split)

theorem raise_keeps {a0 a1 a2 a3 a4} (h0 : Keeps b a4) :
    Keeps b (raise a0 a1 a2 a3 a4) := by
  unfold raise
  try dsimp only
  with_reducible repeat' (first | assumption | apply pendingOr_keeps | apply drain_keeps | apply enter_keeps)

theorem illegal_keeps {a0 a1} (h0 : Keeps b a1) :
    Keeps b (illegal a0 a1) := by
  unfold illegal
  try dsimp only
  with_reducible repeat' (first | assumption | apply raise_keeps)

theorem fetched_keeps {a0 a1 a2} (h0 : Keeps b a1) (h1 : ∀ x0, Keeps b (a2 x0)) :
    Keeps b (fetched a0 a1 a2) := by
  unfold fetched
  try dsimp only
  with_reducible repeat' (first | assumption | apply h1 | apply raise_keeps | apply noteViolation_keeps | split)

theorem coreStep_keeps {a0 a1 a2} (h0 : Keeps b a1) (h1 : ∀ x0, Keeps b (a2 x0)) :
    Keeps b (coreStep a0 a1 a2) := by
  unfold coreStep
  try dsimp only
  with_reducible repeat' (first | assumption | apply fetched_keeps | split)

theorem atLevel_keeps {a0 a1 a2 a3} (h0 : Keeps b a2) (h1 : ∀ x0, Keeps b (a3 x0)) :
    Keeps b (atLevel a0 a1 a2 a3) := by
  unfold atLevel
  try dsimp only
  repeat' (first
    | with_reducible assumption
    | with_reducible apply h1
    | with_reducible apply coreStep_keeps
    | with_reducible apply illegal_keeps
    | split
    | intro _)

theorem onCh_keeps {a0 a1 a2} (h0 : Keeps b a2) :
    Keeps b (onCh a0 a1 a2) := by
  unfold onCh
  try dsimp only
  with_reducible repeat' (first | assumption | apply onEng_keeps)

theorem startChannel_keeps {a0 a1 a2} (h0 : Keeps b a2) :
    Keeps b (startChannel a0 a1 a2) := by
  unfold startChannel
  try dsimp only
  with_reducible repeat' (first | assumption | apply onCh_keeps | split)

theorem stopChannel_keeps {a0 a1} (h0 : Keeps b a1) :
    Keeps b (stopChannel a0 a1) := by
  unfold stopChannel
  try dsimp only
  with_reducible repeat' (first | assumption | apply onCh_keeps | split)

theorem writeRegion_keeps {a0 a1 a2 a3} (h0 : Keeps b a3) :
    Keeps b (writeRegion a0 a1 a2 a3) := by
  unfold writeRegion
  try dsimp only
  with_reducible repeat' (first | assumption | apply onCore_keeps | split)

theorem coreRegWrite_keeps {a0 a1 a2} (h0 : Keeps b a1) :
    Keeps b (coreRegWrite a0 a1 a2) := by
  unfold coreRegWrite
  try dsimp only
  repeat' (first
    | with_reducible assumption
    | with_reducible apply startChannel_keeps
    | with_reducible apply stopChannel_keeps
    | with_reducible apply onCore_keeps
    | with_reducible apply writeRegion_keeps
    | split)

theorem deviceLoad_keeps {a0 a1 a2 a3} (h0 : Keeps b a3) :
    KPair b (deviceLoad a0 a1 a2 a3) := by
  unfold deviceLoad
  try dsimp only
  with_reducible repeat' (first | assumption | apply devRead_keeps | split | apply KPair.mk)

theorem deviceStore_keeps {a0 a1 a2 a3} (h0 : Keeps b a3) :
    KPair b (deviceStore a0 a1 a2 a3) := by
  unfold deviceStore
  try dsimp only
  repeat' (first
    | with_reducible assumption
    | with_reducible apply coreRegWrite_keeps
    | with_reducible apply devWriteBy_keeps
    | split
    | with_reducible apply KPair.mk)

theorem memoryLoad_keeps {a0 a1 a2 a3 a4} (h0 : Keeps b a4) :
    KPair b (memoryLoad a0 a1 a2 a3 a4) := by
  unfold memoryLoad
  try dsimp only
  repeat' (first
    | with_reducible assumption
    | with_reducible apply devRead_keeps
    | with_reducible apply onCore_keeps
    | split
    | (with_reducible apply KPair.of; rotate_left; (with_reducible assumption))
    | with_reducible apply KPair.mk)

theorem normalLoad_keeps {a0 a1 a2 a3 a4} (h0 : Keeps b a4) :
    KPair b (normalLoad a0 a1 a2 a3 a4) := by
  unfold normalLoad
  try dsimp only
  with_reducible repeat' (first | assumption | apply memoryLoad_keeps | apply drainTo_keeps | split | apply KPair.mk)

theorem violate_keeps {a0 a1 a2 a3} (h0 : Keeps b a3) :
    Keeps b (violate a0 a1 a2 a3) := by
  unfold violate
  try dsimp only
  with_reducible repeat' (first | assumption | apply noteViolation_keeps | split)

theorem loadThen_keeps {a0 a1 a2 a3 a4 a5 a6} (h0 : Keeps b a5) (h1 : ∀ x0, ∀ x1, Keeps b x1 → Keeps b (a6 x0 x1)) :
    Keeps b (loadThen a0 a1 a2 a3 a4 a5 a6) := by
  unfold loadThen
  try dsimp only
  repeat' (first
    | with_reducible assumption
    | with_reducible apply h1
    | with_reducible apply raise_keeps
    | with_reducible apply pendingOr_keeps
    | with_reducible apply drain_keeps
    | with_reducible apply deviceLoad_keeps
    | with_reducible apply onCore_keeps
    | with_reducible apply violate_keeps
    | with_reducible apply normalLoad_keeps
    | split
    | (with_reducible apply KPair.of; rotate_left; (with_reducible assumption))
    | intro _)

theorem bufferPieces_keeps {a0 a1 a2 a3} (h0 : Keeps b a3) :
    Keeps b (bufferPieces a0 a1 a2 a3) := by
  unfold bufferPieces
  try dsimp only
  with_reducible repeat' (first | assumption | apply bufferStore_keeps | apply foldl_keeps | intro _)

theorem storeThen_keeps {a0 a1 a2 a3 a4 a5} (h0 : Keeps b a4) (h1 : ∀ x0, Keeps b x0 → Keeps b (a5 x0)) :
    Keeps b (storeThen a0 a1 a2 a3 a4 a5) := by
  unfold storeThen
  try dsimp only
  repeat' (first
    | with_reducible assumption
    | with_reducible apply h1
    | with_reducible apply raise_keeps
    | with_reducible apply pendingOr_keeps
    | with_reducible apply drain_keeps
    | with_reducible apply deviceStore_keeps
    | with_reducible apply onCore_keeps
    | with_reducible apply violate_keeps
    | with_reducible apply bufferPieces_keeps
    | split
    | (with_reducible apply KPair.of; rotate_left; (with_reducible assumption))
    | intro _)

theorem countCrane_keeps {a0 a1 a2} (h0 : Keeps b a2) :
    Keeps b (countCrane a0 a1 a2) := by
  unfold countCrane
  try dsimp only
  with_reducible repeat' (first | assumption | apply count_keeps)

theorem readSide_keeps {a0 a1 a2 a3} (h0 : Keeps b a3) :
    KPair b (readSide a0 a1 a2 a3) := by
  unfold readSide
  try dsimp only
  repeat' (first
    | with_reducible assumption
    | with_reducible apply devRead_keeps
    | with_reducible apply countCrane_keeps
    | with_reducible apply hostRead_keeps
    | split
    | (with_reducible apply KPair.of; rotate_left; (with_reducible assumption))
    | with_reducible apply KPair.mk)

theorem writeSide_keeps {a0 a1 a2 a3} (h0 : Keeps b a3) :
    KPair b (writeSide a0 a1 a2 a3) := by
  unfold writeSide
  try dsimp only
  repeat' (first
    | with_reducible assumption
    | with_reducible apply devWrite_keeps
    | with_reducible apply countCrane_keeps
    | with_reducible apply hostWrite_keeps
    | split
    | (with_reducible apply KPair.of; rotate_left; (with_reducible assumption))
    | with_reducible apply KPair.mk)

theorem moveAdvance_keeps {a0 a1 a2 a3} (h0 : Keeps b a3) :
    Keeps b (moveAdvance a0 a1 a2 a3) := by
  unfold moveAdvance
  try dsimp only
  with_reducible repeat' (first | assumption | apply advanceTo_keeps | split)

theorem moveLoop_keeps {j : Nat} {t : Option (Fin 512)}
    {src : Nat → Nat → State → Except MoveStop Bytes × State} {dst : Side} {total : Nat}
    (hs : ∀ d n s, Keeps b s → KPair b (src d n s)) :
    ∀ {fuel done s}, Keeps b s → KPair b (moveLoop j t src dst total fuel done s) := by
  intro fuel
  induction fuel with
  | zero => exact fun h => h
  | succ fuel ih =>
    intro done s h
    simp only [moveLoop]
    split
    · exact h
    · have h1 := hs done (min moveBurst (total - done)) s h
      split
      · exact KPair.mk (advanceTo_keeps (h1.of ‹_›))
      · next d s1 _ =>
        have h2 := writeSide_keeps (a0 := t) (a1 := dst.plus done) (a2 := d) (h1.of ‹_›)
        split
        · exact KPair.mk (advanceTo_keeps (h2.of ‹_›))
        · exact ih (moveAdvance_keeps (h2.of ‹_›))

theorem moveFailed_keeps {a0 a1 a2 a3} (h0 : Keeps b a3) :
    Keeps b (moveFailed a0 a1 a2 a3) := by
  unfold moveFailed
  try dsimp only
  repeat' (first
    | with_reducible assumption
    | with_reducible apply hostReadFailed_keeps
    | with_reducible apply deviceFailed_keeps
    | with_reducible apply endFailed_keeps
    | split)

theorem moveEnds_keeps {j : Nat} {t : Option (Fin 512)} {r : Option MoveStop × State} (h : KPair b r) :
    Keeps b (moveEnds j t r) := by
  unfold moveEnds
  split
  · exact moveFailed_keeps h
  · exact endDone_keeps h

theorem moveRun_keeps {a0 a1 a2} (h0 : Keeps b a2) :
    Keeps b (moveRun a0 a1 a2) := by
  unfold moveRun
  try dsimp only
  repeat' (first
    | with_reducible assumption
    | with_reducible apply moveEnds_keeps
    | with_reducible apply moveLoop_keeps
    | with_reducible apply readSide_keeps
    | with_reducible apply beginJob_keeps
    | intro _)

theorem execMove_keeps {a0 a1 a2} (h0 : Keeps b a2) :
    ∀ t, execMove a0 a1 a2 = .next t → Keeps b t := by
  intro t e
  simp only [execMove, Host.Outcome.next.injEq] at e
  subst e
  try dsimp only
  repeat' (first
    | with_reducible assumption
    | with_reducible apply withJob_keeps
    | with_reducible apply hostSync_keeps
    | with_reducible apply endFailed_keeps
    | with_reducible apply moveRun_keeps
    | split
    | intro _)

theorem execFill_keeps {a0 a1} (h0 : Keeps b a1) :
    ∀ t, execFill a0 a1 = .next t → Keeps b t := by
  intro t e
  simp only [execFill, Host.Outcome.next.injEq] at e
  subst e
  try dsimp only
  repeat' (first
    | with_reducible assumption
    | with_reducible apply withJob_keeps
    | with_reducible apply endFailed_keeps
    | with_reducible apply moveEnds_keeps
    | with_reducible apply moveLoop_keeps
    | with_reducible apply beginJob_keeps
    | split
    | intro _
    | with_reducible apply KPair.mk)

theorem channelEnds_keeps {a0 a1 a2 a3} (h0 : Keeps b a3) :
    Keeps b (channelEnds a0 a1 a2 a3) := by
  unfold channelEnds
  try dsimp only
  with_reducible repeat' (first | assumption | apply onCh_keeps)

theorem execChStart_keeps {a0 a1 a2 a3} (h0 : Keeps b a3) :
    ∀ t, execChStart a0 a1 a2 a3 = .next t → Keeps b t := by
  intro t e
  simp only [execChStart, Host.Outcome.next.injEq] at e
  subst e
  try dsimp only
  repeat' (first
    | with_reducible assumption
    | with_reducible apply coreStep_keeps
    | with_reducible apply storeThen_keeps
    | with_reducible apply finish_keeps
    | intro _)

theorem execStop_keeps {a0 a1 a2} (h0 : Keeps b a2) :
    ∀ t, execStop a0 a1 a2 = .next t → Keeps b t := by
  intro t e
  simp only [execStop, Host.Outcome.next.injEq] at e
  subst e
  try dsimp only
  repeat' (first
    | with_reducible assumption
    | with_reducible apply coreStep_keeps
    | with_reducible apply storeThen_keeps
    | with_reducible apply finish_keeps
    | intro _)

theorem execDescriptorFetch_keeps {a0 a1} (h0 : Keeps b a1) :
    ∀ t, execDescriptorFetch a0 a1 = .next t → Keeps b t := by
  intro t e
  simp only [execDescriptorFetch, Host.Outcome.next.injEq] at e
  subst e
  try dsimp only
  repeat' (first
    | with_reducible assumption
    | with_reducible apply devRead_keeps
    | with_reducible apply onCh_keeps
    | split
    | (with_reducible apply KPair.of; rotate_left; (with_reducible assumption)))

theorem channelStops_keeps {a0 a1 a2 a3} (h0 : Keeps b a3) :
    Keeps b (channelStops a0 a1 a2 a3) := by
  unfold channelStops
  try dsimp only
  with_reducible repeat' (first | assumption | apply onCh_keeps | apply noteViolation_keeps | split)

theorem channelMoved_keeps {a0 a1 a2 a3 a4} (h0 : Keeps b a4) :
    Keeps b (channelMoved a0 a1 a2 a3 a4) := by
  unfold channelMoved
  try dsimp only
  with_reducible repeat' (first | assumption | apply onCh_keeps)

theorem burstSource_keeps {a0 a1 a2 a3} (h0 : Keeps b a3) :
    KPair b (burstSource a0 a1 a2 a3) := by
  unfold burstSource
  try dsimp only
  with_reducible repeat' (first | assumption | apply readSide_keeps | split | apply KPair.mk)

theorem burstSink_keeps {a0 a1 a2 a3} (h0 : Keeps b a3) :
    KPair b (burstSink a0 a1 a2 a3) := by
  unfold burstSink
  try dsimp only
  with_reducible repeat' (first | assumption | apply writeSide_keeps | split | apply KPair.mk)

theorem moveOne_keeps {a0 a1 a2 a3} (h0 : Keeps b a3) :
    Keeps b (moveOne a0 a1 a2 a3) := by
  unfold moveOne
  try dsimp only
  repeat' (first
    | with_reducible assumption
    | with_reducible apply burstSource_keeps
    | with_reducible apply channelStops_keeps
    | with_reducible apply burstSink_keeps
    | with_reducible apply channelMoved_keeps
    | split
    | (with_reducible apply KPair.of; rotate_left; (with_reducible assumption)))

theorem execBurst_keeps {a0 a1 a2 a3 a4} (h0 : Keeps b a4) :
    ∀ t, execBurst a0 a1 a2 a3 a4 = .next t → Keeps b t := by
  intro t e
  simp only [execBurst, Host.Outcome.next.injEq] at e
  subst e
  try dsimp only
  repeat' (first
    | with_reducible assumption
    | with_reducible apply countCrane_keeps
    | with_reducible apply hostSync_keeps
    | with_reducible apply moveOne_keeps
    | with_reducible apply onEng_keeps
    | split)

theorem lineIn_keeps {a0 a1 a2 a3 a4 a5} (h0 : Keeps b a5) :
    Keeps b (lineIn a0 a1 a2 a3 a4 a5) := by
  unfold lineIn
  try dsimp only
  repeat' (first
    | with_reducible assumption
    | with_reducible apply burstSink_keeps
    | with_reducible apply channelStops_keeps
    | with_reducible apply channelMoved_keeps
    | split
    | (with_reducible apply KPair.of; rotate_left; (with_reducible assumption)))

theorem execLineRequest_keeps {a0 a1 a2 a3} (h0 : Keeps b a3) :
    ∀ t, execLineRequest a0 a1 a2 a3 = .next t → Keeps b t := by
  intro t e
  simp only [execLineRequest, Host.Outcome.next.injEq] at e
  subst e
  try dsimp only
  repeat' (first
    | with_reducible assumption
    | with_reducible apply hostSync_keeps
    | with_reducible apply lineIn_keeps
    | with_reducible apply moveOne_keeps
    | split)

theorem execLast_keeps {a0 a1 a2} (h0 : Keeps b a2) :
    ∀ t, execLast a0 a1 a2 = .next t → Keeps b t := by
  intro t e
  simp only [execLast, Host.Outcome.next.injEq] at e
  subst e
  try dsimp only
  with_reducible repeat' (first | assumption | apply channelEnds_keeps | apply lineIn_keeps | split)

theorem cranePulse_keeps {a0 a1} (h0 : Keeps b a1) :
    Keeps b (cranePulse a0 a1) := by
  unfold cranePulse
  try dsimp only
  with_reducible repeat' (first | assumption | apply pulse_keeps | apply countP_keeps | split)

theorem writeBack_keeps {a0 a1 a2 a3 a4} (h0 : Keeps b a4) :
    Keeps b (writeBack a0 a1 a2 a3 a4) := by
  unfold writeBack
  try dsimp only
  with_reducible repeat' (first | assumption | apply devPut_keeps | apply cranePulse_keeps | split)

theorem execDescriptorComplete_keeps {a0 a1} (h0 : Keeps b a1) :
    ∀ t, execDescriptorComplete a0 a1 = .next t → Keeps b t := by
  intro t e
  simp only [execDescriptorComplete, Host.Outcome.next.injEq] at e
  subst e
  try dsimp only
  repeat' (first
    | with_reducible assumption
    | with_reducible apply writeBack_keeps
    | with_reducible apply countCrane_keeps
    | with_reducible apply onCh_keeps
    | split)

theorem onScan_keeps {a0 a1 a2} (h0 : Keeps b a2) :
    Keeps b (onScan a0 a1 a2) := by
  unfold onScan
  try dsimp only
  with_reducible repeat' (first | assumption | split | apply Keeps.fields)

theorem pickReader_keeps {sub x : Nat} {s t : State} (h : Keeps b s) (e : pickReader s sub = some (x, t)) :
    Keeps b t := by
  unfold pickReader at e
  dsimp only at e
  split at e
  · cases e
  · cases e
    exact onScan_keeps (foldl_keeps (fun _ _ => onScan_keeps) h)

theorem onQuay_keeps {a0 a1 a2} (h0 : Keeps b a2) :
    Keeps b (onQuay a0 a1 a2) := by
  unfold onQuay
  try dsimp only
  with_reducible repeat' (first | assumption | apply Keeps.fields)

theorem quayFailed_keeps {a0 a1 a2 a3 a4} (h0 : Keeps b a4) :
    Keeps b (quayFailed a0 a1 a2 a3 a4) := by
  unfold quayFailed
  try dsimp only
  repeat' (first
    | with_reducible assumption
    | with_reducible apply quayFault_keeps
    | with_reducible apply noteViolation_keeps
    | with_reducible apply countQ_keeps
    | split)

theorem dataRead_keeps {a0 a1 a2 a3 a4} (h0 : Keeps b a4) :
    KPair b (dataRead a0 a1 a2 a3 a4) := by
  unfold dataRead
  try dsimp only
  repeat' (first
    | with_reducible assumption
    | with_reducible apply devRead_keeps
    | split
    | (with_reducible apply KPair.of; rotate_left; (with_reducible assumption))
    | with_reducible apply KPair.mk)

theorem readHeader_keeps {a0 a1 a2 a3 a4} (h0 : Keeps b a4) :
    KPair b (readHeader a0 a1 a2 a3 a4) := by
  unfold readHeader
  try dsimp only
  repeat' (first
    | with_reducible assumption
    | with_reducible apply dataRead_keeps
    | split
    | (with_reducible apply KPair.of; rotate_left; (with_reducible assumption))
    | with_reducible apply KPair.mk)

theorem readDict_keeps {a0 a1 a2 a3} (h0 : Keeps b a3) :
    KPair b (readDict a0 a1 a2 a3) := by
  unfold readDict
  try dsimp only
  repeat' (first
    | with_reducible assumption
    | with_reducible apply dataRead_keeps
    | split
    | (with_reducible apply KPair.of; rotate_left; (with_reducible assumption))
    | with_reducible apply KPair.mk)

theorem dictFor_keeps {a0 a1 a2 a3 a4 a5} (h0 : Keeps b a5) :
    KPair b (dictFor a0 a1 a2 a3 a4 a5) := by
  unfold dictFor
  try dsimp only
  repeat' (first
    | with_reducible assumption
    | with_reducible apply readDict_keeps
    | split
    | (with_reducible apply KPair.of; rotate_left; (with_reducible assumption))
    | with_reducible apply KPair.mk)

theorem decodeStored_keeps {a0 a1 a2 a3 a4 a5} (h0 : Keeps b a5) :
    KPair b (decodeStored a0 a1 a2 a3 a4 a5) := by
  unfold decodeStored
  try dsimp only
  repeat' (first
    | with_reducible assumption
    | with_reducible apply countQ_keeps
    | with_reducible apply dictFor_keeps
    | split
    | (with_reducible apply KPair.of; rotate_left; (with_reducible assumption))
    | with_reducible apply KPair.mk)

theorem rememberDict_keeps {a0 a1 a2} (h0 : Keeps b a2) :
    Keeps b (rememberDict a0 a1 a2) := by
  unfold rememberDict
  try dsimp only
  with_reducible repeat' (first | assumption | apply onR_keeps | split)

theorem withScan_keeps {a0 a1 a2} (h0 : Keeps b a1) (h1 : ∀ x0, ∀ x1, ∀ x2, ∀ x3, ∀ x4, Keeps b (a2 x0 x1 x2 x3 x4)) :
    Keeps b (withScan a0 a1 a2) := by
  unfold withScan
  try dsimp only
  with_reducible repeat' (first | assumption | apply h1 | split)

theorem onGroup_keeps {a0 a1 a2} (h0 : Keeps b a2) :
    Keeps b (onGroup a0 a1 a2) := by
  unfold onGroup
  try dsimp only
  with_reducible repeat' (first | assumption | apply onScan_keeps)

theorem execScanTaskHandoff_keeps {a0 a1} (h0 : Keeps b a1) :
    ∀ t, execScanTaskHandoff a0 a1 = .next t → Keeps b t := by
  intro t e
  simp only [execScanTaskHandoff, Host.Outcome.next.injEq] at e
  subst e
  try dsimp only
  with_reducible repeat' (first | assumption | apply onScan_keeps | split)





theorem pushScan_keeps {a0 a1 a2 a3 a4} (h0 : Keeps b a4) :
    Keeps b (pushScan a0 a1 a2 a3 a4) := by
  unfold pushScan
  try dsimp only
  repeat' (first
    | with_reducible assumption
    | with_reducible apply layBatch_keeps
    | with_reducible apply starved_keeps
    | with_reducible apply onScan_keeps
    | split
    | with_reducible apply KPair.snd)

theorem pushPieces_keeps {t st : Nat} {l : List (Nat × Nat)} : ∀ {bs s}, Keeps b s →
    Keeps b (pushPieces t st l bs s)
  | [], _, h => h
  | [_], _, h => pushScan_keeps h
  | _ :: _ :: _, _, h => by simp only [pushPieces]; exact pushPieces_keeps (pushScan_keeps h)

theorem buildLast_keeps {a0 a1 a2} (h0 : Keeps b a2) :
    Keeps b (buildLast a0 a1 a2) := by
  unfold buildLast
  try dsimp only
  with_reducible repeat' (first | assumption | apply onScan_keeps | apply pushScan_keeps | split)

theorem decodeKept_keeps {a0 a1 a2 a3} (h0 : Keeps b a3) :
    Keeps b (decodeKept a0 a1 a2 a3) := by
  unfold decodeKept
  try dsimp only
  with_reducible repeat' (first | assumption | apply countQ_keeps | apply onGroup_keeps | split)

theorem dropStripes_keeps {a0 a1 a2 a3 a4} (h0 : Keeps b a4) :
    Keeps b (dropStripes a0 a1 a2 a3 a4) := by
  unfold dropStripes
  try dsimp only
  with_reducible repeat' (first | assumption | apply countQ_keeps | apply onGroup_keeps | split)

theorem countStripe_keeps {a0 a1 a2 a3 a4} (h0 : Keeps b a4) :
    Keeps b (countStripe a0 a1 a2 a3 a4) := by
  unfold countStripe
  try dsimp only
  with_reducible repeat' (first | assumption | apply countQ_keeps | split)

theorem buildBatches_keeps {q t : Nat} {p : ScanPlan} {r : Run} :
    ∀ {fuel s}, Keeps b s → Keeps b (buildBatches q t p r fuel s) := by
  intro fuel
  induction fuel with
  | zero => exact fun h => h
  | succ fuel ih =>
    intro s h
    simp only [buildBatches]
    split
    · exact h
    · split
      · exact ih (pushPieces_keeps (onGroup_keeps (countStripe_keeps h)))
      · exact buildLast_keeps h

theorem settleScan_keeps {a0 a1 a2 a3 a4 a5} (h0 : Keeps b a5) :
    Keeps b (settleScan a0 a1 a2 a3 a4 a5) := by
  unfold settleScan
  try dsimp only
  repeat' (first
    | with_reducible assumption
    | with_reducible apply dropStripes_keeps
    | with_reducible apply decodeKept_keeps
    | with_reducible apply buildBatches_keeps
    | with_reducible apply onGroup_keeps
    | with_reducible apply countStripe_keeps
    | split)

theorem scanFailed_keeps {a0 a1 a2 a3 a4 a5} (h0 : Keeps b a5) :
    Keeps b (scanFailed a0 a1 a2 a3 a4 a5) := by
  unfold scanFailed
  try dsimp only
  repeat' (first
    | with_reducible assumption
    | with_reducible apply quayFailed_keeps
    | with_reducible apply onScan_keeps
    | split
    | with_reducible apply Keeps.fields)

theorem countRead_keeps {a0 a1 a2 a3} (h0 : Keeps b a3) :
    Keeps b (countRead a0 a1 a2 a3) := by
  unfold countRead
  try dsimp only
  with_reducible repeat' (first | assumption | apply countQ_keeps)

theorem readHeaders_keeps {q : Nat} {tag : Option (Fin 512)} {p : ScanPlan} :
    ∀ {l s}, Keeps b s → KPair b (readHeaders q tag p l s) := by
  intro l
  induction l with
  | nil => exact fun h => h
  | cons x t ih =>
    intro s h
    simp only [readHeaders]
    split
    · exact h
    · next e _ =>
      have h1 := readHeader_keeps (a0 := tag) (a1 := p.dir x.1) (a2 := x.2) (a3 := e) h
      split
      · exact KPair.mk (h1.of ‹_›)
      · have h2 := ih (countRead_keeps (a0 := q) (a1 := e.subchannel) (a2 := 64) (h1.of ‹_›))
        split <;> exact KPair.mk (h2.of ‹_›)

theorem execHeaderRead_keeps {a0 a1} (h0 : Keeps b a1) :
    ∀ t, execHeaderRead a0 a1 = .next t → Keeps b t := by
  intro t e
  simp only [execHeaderRead, Host.Outcome.next.injEq] at e
  subst e
  try dsimp only
  repeat' (first
    | with_reducible assumption
    | with_reducible apply withScan_keeps
    | with_reducible apply buildLast_keeps
    | with_reducible apply readHeaders_keeps
    | with_reducible apply scanFailed_keeps
    | with_reducible apply onScan_keeps
    | with_reducible apply countQ_keeps
    | with_reducible apply settleScan_keeps
    | split
    | (with_reducible apply KPair.of; rotate_left; (with_reducible assumption))
    | intro _)

theorem takeHeader_keeps {a0 a1 a2 a3 a4 a5 a6 a7} (h0 : Keeps b a7) :
    KPair b (takeHeader a0 a1 a2 a3 a4 a5 a6 a7) := by
  unfold takeHeader
  try dsimp only
  repeat' (first
    | with_reducible assumption
    | with_reducible apply readHeader_keeps
    | with_reducible apply countRead_keeps
    | split
    | (with_reducible apply KPair.of; rotate_left; (with_reducible assumption))
    | with_reducible apply KPair.mk)

theorem takeLane_keeps {a0 a1 a2 a3} (h0 : Keeps b a3) :
    Keeps b (takeLane a0 a1 a2 a3) := by
  unfold takeLane
  try dsimp only
  with_reducible repeat' (first | assumption | apply onQuay_keeps | split)

theorem readPayload_keeps {a0 a1 a2 a3 a4 a5 a6 a7 a8 a9} (h0 : Keeps b a9) :
    Keeps b (readPayload a0 a1 a2 a3 a4 a5 a6 a7 a8 a9) := by
  unfold readPayload
  try dsimp only
  repeat' (first
    | with_reducible assumption
    | with_reducible apply dataRead_keeps
    | with_reducible apply scanFailed_keeps
    | with_reducible apply countQ_keeps
    | with_reducible apply countRead_keeps
    | with_reducible apply takeLane_keeps
    | with_reducible apply onGroup_keeps
    | split
    | (with_reducible apply KPair.of; rotate_left; (with_reducible assumption)))

theorem readBlock_keeps {a0 a1 a2 a3 a4 a5 a6 a7 a8} (h0 : Keeps b a8) :
    Keeps b (readBlock a0 a1 a2 a3 a4 a5 a6 a7 a8) := by
  unfold readBlock
  try dsimp only
  repeat' (first
    | with_reducible assumption
    | with_reducible apply takeHeader_keeps
    | with_reducible apply scanFailed_keeps
    | with_reducible apply readPayload_keeps
    | split
    | (with_reducible apply KPair.of; rotate_left; (with_reducible assumption)))

theorem execBlockRead_keeps {q : Fin 32} {w : BitVec 32} {s : State} (h : Keeps b s) :
    ∀ t, execBlockRead q w s = .next t → Keeps b t := by
  intro t e
  simp only [execBlockRead, Host.Outcome.next.injEq] at e
  subst e
  split
  · exact h
  · split
    · exact h
    · next sub x s1 e =>
      obtain ⟨y, _, hy⟩ := List.exists_of_findSome?_eq_some e
      rw [Option.map_eq_some_iff] at hy
      obtain ⟨⟨x', s'⟩, hp, hq⟩ := hy
      cases hq
      have h1 := onQuay_keeps (a0 := q.val) (a1 := fun k => { k with turn := 1 - sub % 2 })
        (countQ_keeps (a0 := q.val) (a1 := 20) (a2 := w.toNat) (pickReader_keeps h hp))
      apply withScan_keeps h1
      intro x r p j q'
      split
      · split
        · exact readBlock_keeps h1
        · exact h1
      · exact h1

theorem inflateHand_keeps {a0 a1 a2 a3 a4 a5} (h0 : Keeps b a5) :
    Keeps b (inflateHand a0 a1 a2 a3 a4 a5) := by
  unfold inflateHand
  try dsimp only
  repeat' (first
    | with_reducible assumption
    | with_reducible apply onQuay_keeps
    | with_reducible apply scanFailed_keeps
    | with_reducible apply onGroup_keeps
    | split)

theorem execInflateComplete_keeps {a0 a1 a2} (h0 : Keeps b a2) :
    ∀ t, execInflateComplete a0 a1 a2 = .next t → Keeps b t := by
  intro t e
  simp only [execInflateComplete, Host.Outcome.next.injEq] at e
  subst e
  try dsimp only
  repeat' (first
    | with_reducible assumption
    | with_reducible apply withScan_keeps
    | with_reducible apply inflateHand_keeps
    | with_reducible apply countQ_keeps
    | split
    | intro _)

theorem evaluateHand_keeps {a0 a1 a2 a3 a4 a5 a6 a7 a8} (h0 : Keeps b a8) :
    Keeps b (evaluateHand a0 a1 a2 a3 a4 a5 a6 a7 a8) := by
  unfold evaluateHand
  try dsimp only
  repeat' (first
    | with_reducible assumption
    | with_reducible apply scanFailed_keeps
    | with_reducible apply countQ_keeps
    | with_reducible apply readPayload_keeps
    | with_reducible apply decodeStored_keeps
    | with_reducible apply settleScan_keeps
    | with_reducible apply onGroup_keeps
    | with_reducible apply rememberDict_keeps
    | split
    | (with_reducible apply KPair.of; rotate_left; (with_reducible assumption)))

theorem execBlockEvaluate_keeps {a0 a1 a2} (h0 : Keeps b a2) :
    ∀ t, execBlockEvaluate a0 a1 a2 = .next t → Keeps b t := by
  intro t e
  simp only [execBlockEvaluate, Host.Outcome.next.injEq] at e
  subst e
  try dsimp only
  repeat' (first
    | with_reducible assumption
    | with_reducible apply withScan_keeps
    | with_reducible apply evaluateHand_keeps
    | with_reducible apply countQ_keeps
    | split
    | intro _)

theorem readLong_keeps {a0 a1 a2 a3 a4 a5 a6 a7 a8 a9 a10} (h0 : Keeps b a10) :
    Keeps b (readLong a0 a1 a2 a3 a4 a5 a6 a7 a8 a9 a10) := by
  unfold readLong
  try dsimp only
  repeat' (first
    | with_reducible assumption
    | with_reducible apply scanFailed_keeps
    | with_reducible apply dataRead_keeps
    | with_reducible apply settleScan_keeps
    | with_reducible apply onGroup_keeps
    | with_reducible apply countQ_keeps
    | split
    | (with_reducible apply KPair.of; rotate_left; (with_reducible assumption)))

theorem execLongValueRead_keeps {a0 a1} (h0 : Keeps b a1) :
    ∀ t, execLongValueRead a0 a1 = .next t → Keeps b t := by
  intro t e
  simp only [execLongValueRead, Host.Outcome.next.injEq] at e
  subst e
  try dsimp only
  with_reducible repeat' (first | assumption | apply withScan_keeps | apply readLong_keeps | split | intro _)

theorem handStep_keeps {a0 a1 a2 a3 a4 a5 a6 a7} (h0 : Keeps b a7) :
    Keeps b (handStep a0 a1 a2 a3 a4 a5 a6 a7) := by
  unfold handStep
  try dsimp only
  repeat' (first
    | with_reducible assumption
    | with_reducible apply inflateHand_keeps
    | with_reducible apply evaluateHand_keeps
    | with_reducible apply readBlock_keeps
    | with_reducible apply readLong_keeps
    | with_reducible apply settleScan_keeps
    | split)

theorem finishHand_keeps {t : Nat} : ∀ {fuel s}, Keeps b s → Keeps b (finishHand t fuel s) := by
  intro fuel
  induction fuel with
  | zero => exact fun h => h
  | succ fuel ih =>
    intro s h
    simp only [finishHand]
    repeat' (first
      | with_reducible assumption
      | (with_reducible apply ih)
      | (with_reducible apply handStep_keeps)
      | split)

theorem layReady_keeps {a0 a1} (h0 : Keeps b a1) :
    Keeps b (layReady a0 a1) := by
  unfold layReady
  try dsimp only
  repeat' (first
    | with_reducible assumption
    | with_reducible apply layBatch_keeps
    | with_reducible apply starved_keeps
    | with_reducible apply onScan_keeps
    | split
    | with_reducible apply KPair.snd)

theorem scanSend_keeps {a0 a1 a2} (h0 : Keeps b a2) :
    Keeps b (scanSend a0 a1 a2) := by
  unfold scanSend
  try dsimp only
  repeat' (first
    | with_reducible assumption
    | with_reducible apply withScan_keeps
    | with_reducible apply countQ_keeps
    | with_reducible apply launch_keeps
    | with_reducible apply settleScan_keeps
    | with_reducible apply onScan_keeps
    | split
    | intro _
    | with_reducible apply Keeps.fields)

theorem scanEgress_keeps {a0 a1 a2} (h0 : Keeps b a2) :
    Keeps b (scanEgress a0 a1 a2) := by
  unfold scanEgress
  try dsimp only
  with_reducible repeat' (first | assumption | apply scanSend_keeps | apply layReady_keeps)

theorem unitSend_keeps {a0 a1 a2 a3} (h0 : Keeps b a3) :
    Keeps b (unitSend a0 a1 a2 a3) := by
  unfold unitSend
  try dsimp only
  with_reducible repeat' (first | assumption | apply launch_keeps | apply onI_keeps | split)

theorem execBatchEgress_keeps {a0 a1 a2} (h0 : Keeps b a2) :
    ∀ t, execBatchEgress a0 a1 a2 = .next t → Keeps b t := by
  intro t e
  simp only [execBatchEgress, Host.Outcome.next.injEq] at e
  subst e
  try dsimp only
  repeat' (first
    | with_reducible assumption
    | with_reducible apply scanEgress_keeps
    | with_reducible apply unitSend_keeps
    | with_reducible apply layOuts_keeps
    | split)

theorem gatherPayload_keeps {a0 a1 a2 a3 a4 a5} (h0 : Keeps b a5) :
    KPair b (gatherPayload a0 a1 a2 a3 a4 a5) := by
  unfold gatherPayload
  try dsimp only
  repeat' (first
    | with_reducible assumption
    | with_reducible apply dataRead_keeps
    | with_reducible apply countQ_keeps
    | with_reducible apply countRead_keeps
    | split
    | (with_reducible apply KPair.of; rotate_left; (with_reducible assumption))
    | with_reducible apply KPair.mk)

theorem gatherBlock_keeps {a0 a1 a2 a3 a4 a5 a6 a7 a8} (h0 : Keeps b a8) :
    KPair b (gatherBlock a0 a1 a2 a3 a4 a5 a6 a7 a8) := by
  unfold gatherBlock
  try dsimp only
  repeat' (first
    | with_reducible assumption
    | with_reducible apply readHeader_keeps
    | with_reducible apply gatherPayload_keeps
    | with_reducible apply countRead_keeps
    | with_reducible apply decodeStored_keeps
    | with_reducible apply countQ_keeps
    | with_reducible apply rememberDict_keeps
    | split
    | (with_reducible apply KPair.of; rotate_left; (with_reducible assumption))
    | with_reducible apply KPair.mk)

theorem gatherLane_keeps {q j : Nat} {t : Option (Fin 512)} {d : Directory} {il : Bool} {pos : Nat}
    {kept : List (Nat × List Value)} {s : State} (h : Keeps b s) : KPair b (gatherLane q j t d il pos kept s) := by
  unfold gatherLane
  split
  · exact h
  · have hk := gatherBlock_keeps (a0 := q) (a1 := j) (a2 := t) (a3 := d) (a4 := pos) (a5 := ‹_›) (a6 := ‹_›) (a7 := kept) h
    split
    · exact KPair.mk (hk.of ‹_›)
    · dsimp only
      split
      · next a n _ _ =>
        have h2 := dataRead_keeps (a0 := t) (a1 := a) (a2 := n) (a3 := pos) (hk.of ‹_›)
        split
        · exact KPair.mk (h2.of ‹_›)
        · exact KPair.mk (countQ_keeps (countQ_keeps (h2.of ‹_›)))
      · exact KPair.mk (hk.of ‹_›)
theorem gatherLanes_keeps {q j : Nat} {t : Option (Fin 512)} {d : Directory} {il : Bool} :
    ∀ {l : List (Nat × Nat)} {kept : List (Nat × List Value)} {s : State}, Keeps b s →
      Keeps b (gatherLanes q j t d il l kept s).2.2 := by
  intro l
  induction l with
  | nil => exact fun h => h
  | cons x l ih =>
    intro kept s h
    have h1 := gatherLane_keeps (q := q) (j := j) (t := t) (d := d) (il := il) (pos := x.2) (kept := kept) h
    simp only [gatherLanes]
    split
    · exact h1.of ‹_›
    · exact ih (h1.of ‹_›)

theorem pushFull_keeps {a0 a1 a2 a3 a4 a5 a6} (h0 : Keeps b a6) :
    Keeps b (pushFull a0 a1 a2 a3 a4 a5 a6) := by
  unfold pushFull
  try dsimp only
  with_reducible repeat' (first | assumption | apply pushWhole_keeps | split)

theorem fetchIntake_keeps {j st i : Nat} {g : Stage} {col t sc : Nat} :
    ∀ {fuel s}, Keeps b s → Keeps b (fetchIntake j st i g col t sc fuel s) := by
  intro fuel
  induction fuel with
  | zero => exact fun h => h
  | succ fuel ih =>
    intro s h
    simp only [fetchIntake]
    split
    · exact h
    · split
      · split
        · apply ih
          have h1 : Keeps b (fetchIntake.putWork0 j st i s) := by unfold fetchIntake.putWork0; exact onI_keeps h
          split
          · exact endInst_keeps (finishBatch_keeps (pushFull_keeps h1))
          · exact finishBatch_keeps (pushFull_keeps h1)
        · exact h
      · split
        · exact h
        · exact ih (onI_keeps (takeBatch_keeps h))
      · exact h

theorem execGatherGroup_keeps {j : Nat} {g : Fin 256} {i : Fin 16} {s : State} (h : Keeps b s) :
    ∀ t, execGatherGroup j g i s = .next t → Keeps b t := by
  intro t e
  simp only [execGatherGroup, Host.Outcome.next.injEq] at e
  subst e
  apply withInst_keeps h
  intro x r g n
  split
  · split
    · exact fetchIntake_keeps h
    · split
      · exact h
      · split
        · exact countQ_keeps (quayFault_keeps (pushFull_keeps (countQ_keeps (onI_keeps (gatherLanes_keeps h)))))
        · exact quayFailed_keeps (countQ_keeps (onI_keeps (gatherLanes_keeps h)))
        · split
          · exact fetchIntake_keeps (countQ_keeps (onI_keeps (gatherLanes_keeps h)))
          · exact countQ_keeps (onI_keeps (gatherLanes_keeps h))
  · exact h

theorem countZ_keeps {a0 a1 a2 a3} (h0 : Keeps b a3) :
    Keeps b (countZ a0 a1 a2 a3) := by
  unfold countZ
  try dsimp only
  with_reducible repeat' (first | assumption | apply count_keeps)

theorem onFrames_keeps {a0 a1 a2} (h0 : Keeps b a2) :
    Keeps b (onFrames a0 a1 a2) := by
  unfold onFrames
  try dsimp only
  with_reducible repeat' (first | assumption | apply onEng_keeps | split)

theorem startFrames_keeps {a0 a1 a2} (h0 : Keeps b a2) :
    Keeps b (startFrames a0 a1 a2) := by
  unfold startFrames
  try dsimp only
  with_reducible repeat' (first | assumption | apply onEng_keeps)

theorem frameStops_keeps {a0 a1 a2 a3} (h0 : Keeps b a3) :
    Keeps b (frameStops a0 a1 a2 a3) := by
  unfold frameStops
  try dsimp only
  with_reducible repeat' (first | assumption | apply moveFailed_keeps)

theorem indexHeader_keeps {a0 a1 a2} (h0 : Keeps b a2) :
    KPair b (indexHeader a0 a1 a2) := by
  unfold indexHeader
  try dsimp only
  with_reducible repeat' (first | assumption | apply writeSide_keeps | split | apply KPair.mk)

theorem framesEnd_keeps {a0 a1 a2 a3 a4} (h0 : Keeps b a4) :
    Keeps b (framesEnd a0 a1 a2 a3 a4) := by
  unfold framesEnd
  try dsimp only
  repeat' (first
    | with_reducible assumption
    | with_reducible apply indexHeader_keeps
    | with_reducible apply frameStops_keeps
    | with_reducible apply settle_keeps
    | split
    | (with_reducible apply KPair.of; rotate_left; (with_reducible assumption)))

theorem commitCompressed_keeps {a0 a1 a2 a3 a4} (h0 : Keeps b a4) :
    Keeps b (commitCompressed a0 a1 a2 a3 a4) := by
  unfold commitCompressed
  try dsimp only
  repeat' (first
    | with_reducible assumption
    | with_reducible apply framesEnd_keeps
    | with_reducible apply writeSide_keeps
    | with_reducible apply frameStops_keeps
    | with_reducible apply advanceTo_keeps
    | with_reducible apply onFrames_keeps
    | split
    | (with_reducible apply KPair.of; rotate_left; (with_reducible assumption))
    | with_reducible apply KPair.mk)

theorem commitDecoded_keeps {a0 a1 a2 a3 a4} (h0 : Keeps b a4) :
    Keeps b (commitDecoded a0 a1 a2 a3 a4) := by
  unfold commitDecoded
  try dsimp only
  repeat' (first
    | with_reducible assumption
    | with_reducible apply framesEnd_keeps
    | with_reducible apply writeSide_keeps
    | with_reducible apply frameStops_keeps
    | with_reducible apply advanceTo_keeps
    | with_reducible apply onFrames_keeps
    | split
    | (with_reducible apply KPair.of; rotate_left; (with_reducible assumption))
    | with_reducible apply KPair.mk)

theorem commitNext_keeps {a0 a1} (h0 : Keeps b a1) :
    Keeps b (commitNext a0 a1) := by
  unfold commitNext
  try dsimp only
  repeat' (first
    | with_reducible assumption
    | with_reducible apply framesEnd_keeps
    | with_reducible apply commitCompressed_keeps
    | with_reducible apply commitDecoded_keeps
    | split)

theorem commitFrames_keeps {a0 a1} (h0 : Keeps b a1) :
    Keeps b (commitFrames a0 a1) := by
  unfold commitFrames
  try dsimp only
  with_reducible repeat' (first | assumption | apply commitNext_keeps | apply repeat_keeps)

theorem withoutEngines_keeps {a0 a1} (h0 : Keeps b a1) :
    Keeps b (withoutEngines a0 a1) := by
  unfold withoutEngines
  try dsimp only
  with_reducible repeat' (first | assumption | apply endFailed_keeps)

theorem execCompress_keeps {a0 a1} (h0 : Keeps b a1) :
    ∀ t, execCompress a0 a1 = .next t → Keeps b t := by
  intro t e
  simp only [execCompress, Host.Outcome.next.injEq] at e
  subst e
  try dsimp only
  repeat' (first
    | with_reducible assumption
    | with_reducible apply withJob_keeps
    | with_reducible apply endFailed_keeps
    | with_reducible apply withoutEngines_keeps
    | with_reducible apply startFrames_keeps
    | with_reducible apply beginJob_keeps
    | split
    | intro _)

theorem engineDataError_keeps {a0 a1 a2 a3} (h0 : Keeps b a3) :
    Keeps b (engineDataError a0 a1 a2 a3) := by
  unfold engineDataError
  try dsimp only
  with_reducible repeat' (first | assumption | apply dataRecord_keeps | apply countZ_keeps | split)

theorem cutStream_keeps {x : Job} : ∀ {fuel o k w acc s}, Keeps b s → KPair b (cutStream x fuel o k w acc s) := by
  intro fuel
  induction fuel with
  | zero => exact fun h => h
  | succ fuel ih =>
    intro o k w acc s h
    simp only [cutStream]
    split
    · exact h
    · split
      · exact h
      · split
        · exact h
        · have h1 := readSide_keeps (a0 := x.berth) (a1 := (frameSrc x).plus o) (a2 := 16) h
          split
          · exact KPair.mk (h1.of ‹_›)
          · split
            · exact KPair.mk (h1.of ‹_›)
            · split
              · exact KPair.mk (h1.of ‹_›)
              · exact ih (h1.of ‹_›)
theorem findEntry_keeps {x : Job} {c w : Nat} : ∀ {fuel k best s}, Keeps b s →
    Keeps b (findEntry x c w fuel k best s).2 := by
  intro fuel
  induction fuel with
  | zero => exact fun h => h
  | succ fuel ih =>
    intro k best s h
    simp only [findEntry]
    split
    · exact h
    · have h1 := readSide_keeps (a0 := x.berth) (a1 := (frameIndex x).plus (16 + 16 * k)) (a2 := 16) h
      split
      · exact h1.of ‹_›
      · split
        · exact h1.of ‹_›
        · exact ih (h1.of ‹_›)
theorem indexStart_keeps {x : Job} {s : State} (h : Keeps b s) : KPair b (indexStart x s) := by
  unfold indexStart
  dsimp only
  have h1 := readSide_keeps (a0 := x.berth) (a1 := frameIndex x) (a2 := 16) h
  split
  · exact KPair.mk (h1.of ‹_›)
  · next hd s1 _ =>
    have k1 := h1.of ‹_›
    split
    · exact KPair.mk k1
    · split
      · exact KPair.mk k1
      · split
        · exact KPair.mk k1
        · have h2 : KPair b (findEntry x (field hd 4 4) (bodyField x 0x38 4) (field hd 4 4) 0 none s1) := findEntry_keeps k1
          split
          · exact KPair.mk (h2.of ‹_›)
          · exact KPair.mk (h2.of ‹_›)
          · split
            · exact KPair.mk (h2.of ‹_›)
            · exact KPair.mk (h2.of ‹_›)

theorem decodeFrom_keeps {a0 a1 a2 a3 a4 a5 a6} (h0 : Keeps b a6) :
    Keeps b (decodeFrom a0 a1 a2 a3 a4 a5 a6) := by
  unfold decodeFrom
  try dsimp only
  repeat' (first
    | with_reducible assumption
    | with_reducible apply cutStream_keeps
    | with_reducible apply frameStops_keeps
    | with_reducible apply commitFrames_keeps
    | with_reducible apply startFrames_keeps
    | with_reducible apply engineDataError_keeps
    | split
    | (with_reducible apply KPair.of; rotate_left; (with_reducible assumption)))

theorem decompressRun_keeps {j : Nat} {x : Job} {s : State} (h : Keeps b s) :
    Keeps b (decompressRun j x s) := by
  unfold decompressRun
  split
  · exact decodeFrom_keeps (beginJob_keeps h)
  · have h1 := indexStart_keeps (x := x) (beginJob_keeps (a0 := j) h)
    split
    · exact frameStops_keeps (h1.of ‹_›)
    · exact endFailed_keeps (h1.of ‹_›)
    · exact decodeFrom_keeps (h1.of ‹_›)

theorem execDecompress_keeps {a0 a1 a2} (h0 : Keeps b a2) :
    ∀ t, execDecompress a0 a1 a2 = .next t → Keeps b t := by
  intro t e
  simp only [execDecompress, Host.Outcome.next.injEq] at e
  subst e
  try dsimp only
  repeat' (first
    | with_reducible assumption
    | with_reducible apply withJob_keeps
    | with_reducible apply hostSync_keeps
    | with_reducible apply endFailed_keeps
    | with_reducible apply withoutEngines_keeps
    | with_reducible apply decompressRun_keeps
    | split
    | intro _)

theorem countFrame_keeps {a0 a1 a2 a3 a4 a5} (h0 : Keeps b a5) :
    Keeps b (countFrame a0 a1 a2 a3 a4 a5) := by
  unfold countFrame
  try dsimp only
  with_reducible repeat' (first | assumption | apply engineDataError_keeps | apply countZ_keeps | split)

theorem runFrame_keeps {a0 a1 a2 a3 a4 a5 a6} (h0 : Keeps b a6) :
    Keeps b (runFrame a0 a1 a2 a3 a4 a5 a6) := by
  unfold runFrame
  try dsimp only
  repeat' (first
    | with_reducible assumption
    | with_reducible apply readSide_keeps
    | with_reducible apply frameStops_keeps
    | with_reducible apply commitFrames_keeps
    | with_reducible apply onFrames_keeps
    | with_reducible apply countFrame_keeps
    | split
    | (with_reducible apply KPair.of; rotate_left; (with_reducible assumption)))

theorem execFrameComplete_keeps {a0 a1 a2 a3 a4 a5} (h0 : Keeps b a5) :
    ∀ t, execFrameComplete a0 a1 a2 a3 a4 a5 = .next t → Keeps b t := by
  intro t e
  simp only [execFrameComplete, Host.Outcome.next.injEq] at e
  subst e
  try dsimp only
  repeat' (first
    | with_reducible assumption
    | with_reducible apply countZ_keeps
    | with_reducible apply hostSync_keeps
    | with_reducible apply runFrame_keeps
    | split)

theorem countD_keeps {a0 a1 a2} (h0 : Keeps b a2) :
    Keeps b (countD a0 a1 a2) := by
  unfold countD
  try dsimp only
  with_reducible repeat' (first | assumption | apply count_keeps)

theorem setContext_keeps {a0 a1 a2 a3} (h0 : Keeps b a3) :
    Keeps b (setContext a0 a1 a2 a3) := by
  unfold setContext
  try dsimp only
  with_reducible repeat' (first | assumption | apply onEng_keeps)

theorem dropContext_keeps {a0 a1 a2} (h0 : Keeps b a2) :
    Keeps b (dropContext a0 a1 a2) := by
  unfold dropContext
  try dsimp only
  with_reducible repeat' (first | assumption | apply onEng_keeps)

theorem setDigestJob_keeps {a0 a1 a2} (h0 : Keeps b a2) :
    Keeps b (setDigestJob a0 a1 a2) := by
  unfold setDigestJob
  try dsimp only
  with_reducible repeat' (first | assumption | apply onEng_keeps)



theorem finalCounts_keeps {a0 a1} (h0 : Keeps b a1) :
    Keeps b (finalCounts a0 a1) := by
  unfold finalCounts
  try dsimp only
  with_reducible repeat' (first | assumption | apply statusWrite_keeps | split)

theorem digestEnds_keeps {a0 a1 a2 a3 a4} (h0 : Keeps b a4) :
    Keeps b (digestEnds a0 a1 a2 a3 a4) := by
  unfold digestEnds
  try dsimp only
  repeat' (first
    | with_reducible assumption
    | with_reducible apply endFailed_keeps
    | with_reducible apply hostWrite_keeps
    | with_reducible apply endDone_keeps
    | with_reducible apply finalCounts_keeps
    | with_reducible apply countD_keeps
    | with_reducible apply dropContext_keeps
    | split)

theorem readFragments_keeps {x : Job} {s : State} (h : Keeps b s) : KPair b (readFragments x s) := by
  unfold readFragments
  dsimp only
  split
  · exact h
  · generalize (if bitOf (bodyField x 0x2E 1) 0 = true then Side.device (bodyField x 0x18 8)
      else Side.host (bodyField x 0x18 8)) = l
    have h1 := readSide_keeps (a0 := x.berth) (a1 := l) (a2 := 16 * fragCount x) h
    split
    · exact KPair.mk (h1.of ‹_›)
    · split <;> exact KPair.mk (h1.of ‹_›)
theorem digestBegins_keeps {j : Nat} {n : Fin 512} {x : Job} {p : Nat} {s : State} (h : Keeps b s) :
    Keeps b (digestBegins j n x p s) := by
  unfold digestBegins
  split
  · exact endFailed_keeps h
  · next c _ =>
    dsimp only
    split
    · exact endDone_keeps (dropContext_keeps (setContext_keeps (beginJob_keeps h)))
    · have h1 := readFragments_keeps (x := x) (setContext_keeps (a0 := n.val) (a1 := p)
        (a2 := { c with job := some j }) (beginJob_keeps (a0 := j) h))
      split
      · exact moveFailed_keeps (setDigestJob_keeps (h1.of ‹_›))
      · split
        · exact digestEnds_keeps (setDigestJob_keeps (h1.of ‹_›))
        · exact setDigestJob_keeps (h1.of ‹_›)

theorem digestCompares_keeps {a0 a1 a2 a3 a4 a5 a6} (h0 : Keeps b a6) :
    Keeps b (digestCompares a0 a1 a2 a3 a4 a5 a6) := by
  unfold digestCompares
  try dsimp only
  repeat' (first
    | with_reducible assumption
    | with_reducible apply readSide_keeps
    | with_reducible apply moveFailed_keeps
    | with_reducible apply takeFresh_keeps
    | with_reducible apply hostWrite_keeps
    | with_reducible apply countD_keeps
    | with_reducible apply dropContext_keeps
    | with_reducible apply endDone_keeps
    | with_reducible apply finalCounts_keeps
    | with_reducible apply endFailed_keeps
    | with_reducible apply logRecord_keeps
    | split
    | (with_reducible apply KPair.of; rotate_left; (with_reducible assumption))
    | with_reducible apply KPair.snd)

theorem digestWaits_keeps {a0 a1} (h0 : Keeps b a1) :
    Keeps b (digestWaits a0 a1) := by
  unfold digestWaits
  try dsimp only
  with_reducible repeat' (first | assumption | apply countD_keeps | apply setDigestJob_keeps | split)

theorem digestStarts_keeps {a0 a1 a2} (h0 : Keeps b a2) :
    Keeps b (digestStarts a0 a1 a2) := by
  unfold digestStarts
  try dsimp only
  repeat' (first
    | with_reducible assumption
    | with_reducible apply endFailed_keeps
    | with_reducible apply digestWaits_keeps
    | with_reducible apply digestBegins_keeps
    | split)

theorem digestStep_keeps {a0 a1 a2 a3} (h0 : Keeps b a3) :
    Keeps b (digestStep a0 a1 a2 a3) := by
  unfold digestStep
  try dsimp only
  repeat' (first
    | with_reducible assumption
    | with_reducible apply withJob_keeps
    | with_reducible apply hostSync_keeps
    | with_reducible apply digestStarts_keeps
    | split
    | intro _)

theorem execDigestStart_keeps {a0 a1 a2} (h0 : Keeps b a2) :
    ∀ t, execDigestStart a0 a1 a2 = .next t → Keeps b t := by
  intro t e
  simp only [execDigestStart, Host.Outcome.next.injEq] at e
  subst e
  try dsimp only
  with_reducible repeat' (first | assumption | apply digestStep_keeps)

theorem execDigestContinue_keeps {a0 a1 a2} (h0 : Keeps b a2) :
    ∀ t, execDigestContinue a0 a1 a2 = .next t → Keeps b t := by
  intro t e
  simp only [execDigestContinue, Host.Outcome.next.injEq] at e
  subst e
  try dsimp only
  with_reducible repeat' (first | assumption | apply digestStep_keeps)

theorem execDigestFinish_keeps {a0 a1 a2} (h0 : Keeps b a2) :
    ∀ t, execDigestFinish a0 a1 a2 = .next t → Keeps b t := by
  intro t e
  simp only [execDigestFinish, Host.Outcome.next.injEq] at e
  subst e
  try dsimp only
  with_reducible repeat' (first | assumption | apply digestStep_keeps)

theorem execDigestOneshot_keeps {a0 a1 a2} (h0 : Keeps b a2) :
    ∀ t, execDigestOneshot a0 a1 a2 = .next t → Keeps b t := by
  intro t e
  simp only [execDigestOneshot, Host.Outcome.next.injEq] at e
  subst e
  try dsimp only
  with_reducible repeat' (first | assumption | apply digestStep_keeps)

theorem execDigestAbort_keeps {a0 a1} (h0 : Keeps b a1) :
    ∀ t, execDigestAbort a0 a1 = .next t → Keeps b t := by
  intro t e
  simp only [execDigestAbort, Host.Outcome.next.injEq] at e
  subst e
  try dsimp only
  with_reducible repeat' (first | assumption | apply digestStep_keeps)

theorem verifyIn_keeps {a0 a1 a2 a3} (h0 : Keeps b a3) :
    Keeps b (verifyIn a0 a1 a2 a3) := by
  unfold verifyIn
  try dsimp only
  with_reducible repeat' (first | assumption | apply digestCompares_keeps | split)

theorem execDigestVerify_keeps {a0 a1 a2 a3} (h0 : Keeps b a3) :
    ∀ t, execDigestVerify a0 a1 a2 a3 = .next t → Keeps b t := by
  intro t e
  simp only [execDigestVerify, Host.Outcome.next.injEq] at e
  subst e
  try dsimp only
  repeat' (first
    | with_reducible assumption
    | with_reducible apply withJob_keeps
    | with_reducible apply hostSync_keeps
    | with_reducible apply verifyIn_keeps
    | with_reducible apply digestStarts_keeps
    | split
    | intro _)

theorem hashFragment_keeps {a0 a1 a2 a3 a4} (h0 : Keeps b a4) :
    Keeps b (hashFragment a0 a1 a2 a3 a4) := by
  unfold hashFragment
  try dsimp only
  repeat' (first
    | with_reducible assumption
    | with_reducible apply readSide_keeps
    | with_reducible apply moveFailed_keeps
    | with_reducible apply setDigestJob_keeps
    | with_reducible apply setContext_keeps
    | with_reducible apply countD_keeps
    | with_reducible apply advanceJob_keeps
    | with_reducible apply digestEnds_keeps
    | split
    | (with_reducible apply KPair.of; rotate_left; (with_reducible assumption)))

theorem execFragmentComplete_keeps {a0 a1 a2 a3} (h0 : Keeps b a3) :
    ∀ t, execFragmentComplete a0 a1 a2 a3 = .next t → Keeps b t := by
  intro t e
  simp only [execFragmentComplete, Host.Outcome.next.injEq] at e
  subst e
  try dsimp only
  repeat' (first
    | with_reducible assumption
    | with_reducible apply countD_keeps
    | with_reducible apply hostSync_keeps
    | with_reducible apply hashFragment_keeps
    | with_reducible apply onEng_keeps
    | split)

theorem execSetKeyLoad_keeps {a0 a1 a2} (h0 : Keeps b a2) :
    ∀ t, execSetKeyLoad a0 a1 a2 = .next t → Keeps b t := by
  intro t e
  simp only [execSetKeyLoad, Host.Outcome.next.injEq] at e
  subst e
  try dsimp only
  repeat' (first
    | with_reducible assumption
    | with_reducible apply withJob_keeps
    | with_reducible apply hostSync_keeps
    | with_reducible apply endFailed_keeps
    | with_reducible apply hostRead_keeps
    | with_reducible apply beginJob_keeps
    | with_reducible apply hostReadFailed_keeps
    | with_reducible apply endDone_keeps
    | with_reducible apply onEng_keeps
    | with_reducible apply countCrane_keeps
    | split
    | (with_reducible apply KPair.of; rotate_left; (with_reducible assumption))
    | intro _)

theorem execSetKeyErase_keeps {a0 a1} (h0 : Keeps b a1) :
    ∀ t, execSetKeyErase a0 a1 = .next t → Keeps b t := by
  intro t e
  simp only [execSetKeyErase, Host.Outcome.next.injEq] at e
  subst e
  try dsimp only
  repeat' (first
    | with_reducible assumption
    | with_reducible apply withJob_keeps
    | with_reducible apply endFailed_keeps
    | with_reducible apply endDone_keeps
    | with_reducible apply onEng_keeps
    | with_reducible apply beginJob_keeps
    | split
    | intro _)

theorem digestLeaves_keeps {a0 a1 a2 a3} (h0 : Keeps b a3) :
    Keeps b (digestLeaves a0 a1 a2 a3) := by
  unfold digestLeaves
  try dsimp only
  repeat' (first
    | with_reducible assumption
    | with_reducible apply onEng_keeps
    | with_reducible apply setContext_keeps
    | with_reducible apply dropContext_keeps
    | split)

theorem cleanJob_keeps {a0 a1 a2 a3} (h0 : Keeps b a3) :
    Keeps b (cleanJob a0 a1 a2 a3) := by
  unfold cleanJob
  try dsimp only
  repeat' (first
    | with_reducible assumption
    | with_reducible apply digestLeaves_keeps
    | with_reducible apply destroyTasks_keeps
    | with_reducible apply leaveLoading_keeps
    | with_reducible apply onB_keeps
    | with_reducible apply onQ_keeps
    | split
    | with_reducible apply Keeps.fields)

theorem finalStatus_keeps {a0 a1 a2} (h0 : Keeps b a2) :
    Keeps b (finalStatus a0 a1 a2) := by
  unfold finalStatus
  try dsimp only
  with_reducible repeat' (first | assumption | apply statusWrite_keeps)

theorem finishJob_keeps {a0 a1 a2 a3} (h0 : Keeps b a3) :
    Keeps b (finishJob a0 a1 a2 a3) := by
  unfold finishJob
  try dsimp only
  repeat' (first
    | with_reducible assumption
    | with_reducible apply closeTag_keeps
    | with_reducible apply finalStatus_keeps
    | with_reducible apply onQ_keeps
    | with_reducible apply cleanJob_keeps
    | with_reducible apply settleQueue_keeps
    | with_reducible apply complete_keeps
    | split)

theorem execJobFinal_keeps {a0 a1} (h0 : Keeps b a1) :
    ∀ t, execJobFinal a0 a1 = .next t → Keeps b t := by
  intro t e
  simp only [execJobFinal, Host.Outcome.next.injEq] at e
  subst e
  try dsimp only
  with_reducible repeat' (first | assumption | apply finishJob_keeps | split)

end Sys2Proof.Machine
end

