-- ==== Sys2Proof/Laws/KeepsBerths.lean ====
section
/-! SUPPORT. One lemma per operation on the state: what the berths, the units and the Pilot keep. -/

namespace Sys2Proof.Machine

variable {b : State}

theorem setAnswer_keeps {a0 a1 a2} (h0 : Keeps b a2) :
    Keeps b (setAnswer a0 a1 a2) := by
  unfold setAnswer
  try dsimp only
  with_reducible repeat' (first | assumption | apply onDict_keeps)

theorem commandEnds_keeps {a0 a1 a2} (h0 : Keeps b a2) :
    Keeps b (commandEnds a0 a1 a2) := by
  unfold commandEnds
  try dsimp only
  with_reducible repeat' (first | assumption | apply raiseSource_keeps | apply onB_keeps)

theorem makeQueues_keeps {a0 a1} (h0 : Keeps b a1) :
    Keeps b (makeQueues a0 a1) := by
  unfold makeQueues
  try dsimp only
  with_reducible repeat' (first | assumption | apply foldl_keeps | intro _ | apply Keeps.fields)

theorem makeBerth_keeps {a0 a1} (h0 : Keeps b a1) :
    Keeps b (makeBerth a0 a1) := by
  unfold makeBerth
  try dsimp only
  repeat' (first
    | with_reducible assumption
    | with_reducible apply ownGranule_keeps
    | with_reducible apply makeQueues_keeps
    | with_reducible apply onB_keeps
    | with_reducible apply foldl_keeps
    | intro _)

theorem createBerth_keeps {a0 a1} (h0 : Keeps b a1) :
    Keeps b (createBerth a0 a1) := by
  unfold createBerth
  try dsimp only
  with_reducible repeat' (first | assumption | apply commandEnds_keeps | apply makeBerth_keeps | split)

theorem execCreate_keeps {a0 a1} (h0 : Keeps b a1) :
    ∀ t, execCreate a0 a1 = .next t → Keeps b t := by
  intro t e
  simp only [execCreate, Host.Outcome.next.injEq] at e
  subst e
  try dsimp only
  with_reducible repeat' (first | assumption | apply createBerth_keeps | split)

theorem migrateState_keeps {a0 a1 a2} (h0 : Keeps b a2) :
    Keeps b (migrateState a0 a1 a2) := by
  unfold migrateState
  try dsimp only
  with_reducible repeat' (first | assumption | apply endFailed_keeps)

theorem stopMigration_keeps {a0 a1 a2} (h0 : Keeps b a2) :
    Keeps b (stopMigration a0 a1 a2) := by
  unfold stopMigration
  try dsimp only
  with_reducible repeat' (first | assumption | apply migrateState_keeps | apply foldl_keeps | intro _)

theorem endFreeze_keeps {a0 a1} (h0 : Keeps b a1) :
    Keeps b (endFreeze a0 a1) := by
  unfold endFreeze
  try dsimp only
  with_reducible repeat' (first | assumption | apply migrateState_keeps | split)

theorem dropJobs_keeps {a0 a1} (h0 : Keeps b a1) :
    Keeps b (dropJobs a0 a1) := by
  unfold dropJobs
  try dsimp only
  with_reducible repeat' (first | assumption | apply cleanJob_keeps | apply foldl_keeps | intro _)

theorem dropHoldings_keeps {a0 a1} (h0 : Keeps b a1) :
    Keeps b (dropHoldings a0 a1) := by
  unfold dropHoldings
  try dsimp only
  repeat' (first
    | with_reducible assumption
    | with_reducible apply freeTable_keeps
    | with_reducible apply onEng_keeps
    | with_reducible apply foldl_keeps
    | intro _)

theorem dropWrites_keeps {a0 a1} (h0 : Keeps b a1) :
    Keeps b (dropWrites a0 a1) := by
  unfold dropWrites
  try dsimp only
  with_reducible repeat' (first | assumption | apply onPcie_keeps | apply Keeps.fields)

theorem freeGranules_keeps {a0 a1} (h0 : Keeps b a1) :
    Keeps b (freeGranules a0 a1) := by
  unfold freeGranules
  try dsimp only
  with_reducible repeat' (first | assumption | apply freeGranule_keeps | apply foldl_keeps | intro _)

theorem clearSources_keeps {a0 a1} (h0 : Keeps b a1) :
    Keeps b (clearSources a0 a1) := by
  unfold clearSources
  try dsimp only
  with_reducible repeat' (first | assumption | apply onPcie_keeps)

theorem dropQueues_keeps {a0 a1} (h0 : Keeps b a1) :
    Keeps b (dropQueues a0 a1) := by
  unfold dropQueues
  try dsimp only
  with_reducible repeat' (first | assumption | apply Keeps.fields)

theorem removeBerth_keeps {a0 a1} (h0 : Keeps b a1) :
    Keeps b (removeBerth a0 a1) := by
  unfold removeBerth
  try dsimp only
  repeat' (first
    | with_reducible assumption
    | with_reducible apply stopMigration_keeps
    | with_reducible apply dropWrites_keeps
    | with_reducible apply dropQueues_keeps
    | with_reducible apply dropHoldings_keeps
    | with_reducible apply dropJobs_keeps
    | with_reducible apply clearSources_keeps
    | with_reducible apply freeGranules_keeps
    | with_reducible apply onPilot_keeps
    | with_reducible apply onB_keeps)

theorem destroyBerth_keeps {a0 a1} (h0 : Keeps b a1) :
    Keeps b (destroyBerth a0 a1) := by
  unfold destroyBerth
  try dsimp only
  with_reducible repeat' (first | assumption | apply commandEnds_keeps | apply removeBerth_keeps | split)

theorem execDestroy_keeps {a0 a1} (h0 : Keeps b a1) :
    ∀ t, execDestroy a0 a1 = .next t → Keeps b t := by
  intro t e
  simp only [execDestroy, Host.Outcome.next.injEq] at e
  subst e
  try dsimp only
  with_reducible repeat' (first | assumption | apply destroyBerth_keeps | split)

theorem resumeBerth_keeps {a0 a1} (h0 : Keeps b a1) :
    Keeps b (resumeBerth a0 a1) := by
  unfold resumeBerth
  try dsimp only
  with_reducible repeat' (first | assumption | apply resumeQueue_keeps | apply foldl_keeps | intro _)

theorem clearFault_keeps {a0 a1} (h0 : Keeps b a1) :
    Keeps b (clearFault a0 a1) := by
  unfold clearFault
  try dsimp only
  repeat' (first
    | with_reducible assumption
    | with_reducible apply commandEnds_keeps
    | with_reducible apply resumeBerth_keeps
    | with_reducible apply onB_keeps
    | split)

theorem execClearFault_keeps {a0 a1} (h0 : Keeps b a1) :
    ∀ t, execClearFault a0 a1 = .next t → Keeps b t := by
  intro t e
  simp only [execClearFault, Host.Outcome.next.injEq] at e
  subst e
  try dsimp only
  with_reducible repeat' (first | assumption | apply clearFault_keeps | split)

theorem execGranuleExtentsWrite_keeps {a0 a1 a2 a3} (h0 : Keeps b a3) :
    ∀ t, execGranuleExtentsWrite a0 a1 a2 a3 = .next t → Keeps b t := by
  intro t e
  simp only [execGranuleExtentsWrite, Host.Outcome.next.injEq] at e
  subst e
  try dsimp only
  with_reducible repeat' (first | assumption | apply setAnswer_keeps | apply onB_keeps | split)

theorem addFaults_keeps {a0 a1 a2} (h0 : Keeps b a2) :
    Keeps b (addFaults a0 a1 a2) := by
  unfold addFaults
  try dsimp only
  with_reducible repeat' (first | assumption | apply onB_keeps)

theorem stopJobs_keeps {a0 a1 a2} (h0 : Keeps b a2) :
    Keeps b (stopJobs a0 a1 a2) := by
  unfold stopJobs
  try dsimp only
  repeat' (first
    | with_reducible assumption
    | with_reducible apply endFailed_keeps
    | with_reducible apply finishJob_keeps
    | with_reducible apply foldl_keeps
    | split
    | intro _)

theorem faultBerth_keeps {a0 a1 a2} (h0 : Keeps b a2) :
    Keeps b (faultBerth a0 a1 a2) := by
  unfold faultBerth
  try dsimp only
  repeat' (first
    | with_reducible assumption
    | with_reducible apply onB_keeps
    | with_reducible apply endFreeze_keeps
    | with_reducible apply addFaults_keeps
    | with_reducible apply stopJobs_keeps
    | with_reducible apply raiseSource_keeps
    | with_reducible apply logRecord_keeps)

theorem execBerthFault_keeps {a0 a1} (h0 : Keeps b a1) :
    ∀ t, execBerthFault a0 a1 = .next t → Keeps b t := by
  intro t e
  simp only [execBerthFault, Host.Outcome.next.injEq] at e
  subst e
  try dsimp only
  repeat' (first
    | with_reducible assumption
    | with_reducible apply faultBerth_keeps
    | with_reducible apply addFaults_keeps
    | split
    | with_reducible apply Keeps.fields)

theorem verifyBlock_keeps {a0 a1 a2 a3 a4} (h0 : Keeps b a4) :
    KPair b (verifyBlock a0 a1 a2 a3 a4) := by
  unfold verifyBlock
  try dsimp only
  repeat' (first
    | with_reducible assumption
    | with_reducible apply decodeStored_keeps
    | split
    | (with_reducible apply KPair.of; rotate_left; (with_reducible assumption))
    | with_reducible apply KPair.mk)

theorem blockWrite_keeps {a0 a1 a2 a3} (h0 : Keeps b a3) :
    KPair b (blockWrite a0 a1 a2 a3) := by
  unfold blockWrite
  try dsimp only
  repeat' (first
    | with_reducible assumption
    | with_reducible apply writeSide_keeps
    | split
    | (with_reducible apply KPair.of; rotate_left; (with_reducible assumption))
    | with_reducible apply KPair.mk)

theorem appendBlock_keeps {a0 a1 a2 a3 a4 a5 a6 a7} (h0 : Keeps b a7) :
    KPair b (appendBlock a0 a1 a2 a3 a4 a5 a6 a7) := by
  unfold appendBlock
  try dsimp only
  repeat' (first
    | with_reducible assumption
    | with_reducible apply blockWrite_keeps
    | split
    | (with_reducible apply KPair.of; rotate_left; (with_reducible assumption))
    | with_reducible apply KPair.mk)

theorem readAppend_keeps {n : Fin 512} {d : Nat} {s : State} (h : Keeps b s) : KPair b (readAppend n d s) := by
  unfold readAppend
  have h1 := readSide_keeps (a0 := some n) (a1 := .device d) (a2 := 64) h
  split
  · exact h
  · split
    · exact KPair.mk (h1.of ‹_›)
    · next hd s1 _ =>
      split
      · exact KPair.mk (h1.of ‹_›)
      · have h2 := readSide_keeps (a0 := some n) (a1 := .device (d + 64)) (a2 := 32 * field hd 4 4) (h1.of ‹_›)
        split <;> exact KPair.mk (h2.of ‹_›)
theorem placeBlock_keeps {n : Fin 512} {d a u : Nat} {hd : BlockHeader} {bs : Bytes} {s : State}
    (h : Keeps b s) : KPair b (placeBlock n d a u hd bs s) := by
  unfold placeBlock
  split
  · exact blockWrite_keeps h
  · have h1 := readAppend_keeps (n := n) (d := d) h
    split
    · exact KPair.mk (h1.of ‹_›)
    · split
      · exact KPair.mk (h1.of ‹_›)
      · have h2 := blockWrite_keeps (a0 := n) (a1 := a) (a2 := bs) (h1.of ‹_›)
        split
        · exact KPair.mk (h2.of ‹_›)
        · exact appendBlock_keeps (h2.of ‹_›)

theorem putLoop_keeps {j : Nat} {n : Fin 512} {x : Job} : ∀ {fuel o s}, Keeps b s →
    KPair b (putLoop j n x fuel o s) := by
  intro fuel
  induction fuel with
  | zero => exact fun h => h
  | succ fuel ih =>
    intro o s h
    simp only [putLoop]
    split
    · exact h
    · have h1 := readSide_keeps (a0 := some n) (a1 := .host (bodyField x 0x18 8 + o)) (a2 := 64) h
      split
      · exact KPair.mk (h1.of ‹_›)
      · next hb s1 _ =>
        split
        · exact KPair.mk (h1.of ‹_›)
        · split
          · exact KPair.mk (h1.of ‹_›)
          · split
            · exact KPair.mk (h1.of ‹_›)
            · have h2 := readSide_keeps (a0 := some n) (a1 := .host (bodyField x 0x18 8 + o))
                (a2 := BlockHeader.footprint (parseHeader hb)) (h1.of ‹_›)
              split
              · exact KPair.mk (h2.of ‹_›)
              · next bs s2 _ =>
                have k2 := h2.of ‹_›
                generalize hv : (if bitOf (bodyField x 0x25 1) 0 = true then verifyBlock (putSub x) n (parseHeader hb) bs s2
                  else (none, s2)) = v
                have h3 : KPair b v := by
                  subst hv
                  split
                  · exact verifyBlock_keeps k2
                  · exact k2
                split
                · exact KPair.mk h3
                · next s3 =>
                  have h4 := placeBlock_keeps (n := n) (d := bodyField x 0x30 8) (a := bodyField x 0x28 8 + o)
                    (u := putSub x) (hd := parseHeader hb) (bs := bs) (s := s3) h3
                  split
                  · exact KPair.mk (h4.of ‹_›)
                  · exact ih (advanceJob_keeps (addProgress_keeps (h4.of ‹_›)))

theorem verifyForGet_keeps {a0 a1 a2 a3 a4} (h0 : Keeps b a4) :
    KPair b (verifyForGet a0 a1 a2 a3 a4) := by
  unfold verifyForGet
  try dsimp only
  with_reducible repeat' (first | assumption | apply verifyBlock_keeps | split | apply KPair.snd | apply KPair.mk)

theorem getPiece_keeps {a0 a1 a2 a3 a4 a5} (h0 : Keeps b a5) :
    KPair b (getPiece a0 a1 a2 a3 a4 a5) := by
  unfold getPiece
  try dsimp only
  repeat' (first
    | with_reducible assumption
    | with_reducible apply readSide_keeps
    | with_reducible apply verifyForGet_keeps
    | with_reducible apply writeSide_keeps
    | split
    | (with_reducible apply KPair.of; rotate_left; (with_reducible assumption))
    | with_reducible apply KPair.mk)

theorem blockJobEnds_keeps {q j : Nat} {n : Fin 512} {r : Option BlockStop × State} (h : KPair b r) :
    Keeps b (blockJobEnds q j n r) := by
  unfold blockJobEnds
  split
  · exact endDone_keeps h
  · exact quayFailed_keeps h
  · exact moveFailed_keeps h
theorem getPlain_keeps {j : Nat} {n : Fin 512} {x : Job} : ∀ {fuel o s}, Keeps b s →
    KPair b (getPlain j n x fuel o s) := by
  intro fuel
  induction fuel with
  | zero => exact fun h => h
  | succ fuel ih =>
    intro o s h
    simp only [getPlain]
    split
    · exact h
    · have h1 := getPiece_keeps (a0 := n) (a1 := x) (a2 := none) (a3 := o)
        (a4 := min moveBurst (bodyField x 0x20 4 - o)) h
      split
      · exact KPair.mk (advanceTo_keeps (h1.of ‹_›))
      · exact ih (moveAdvance_keeps (h1.of ‹_›))
theorem getVerified_keeps {j : Nat} {n : Fin 512} {x : Job} : ∀ {fuel o s}, Keeps b s →
    KPair b (getVerified j n x fuel o s) := by
  intro fuel
  induction fuel with
  | zero => exact fun h => h
  | succ fuel ih =>
    intro o s h
    simp only [getVerified]
    split
    · exact h
    · have h1 := readSide_keeps (a0 := some n) (a1 := .device (bodyField x 0x18 8 + o)) (a2 := 64) h
      split
      · exact KPair.mk (h1.of ‹_›)
      · next hb s1 _ =>
        split
        · exact KPair.mk (h1.of ‹_›)
        · split
          · exact KPair.mk (h1.of ‹_›)
          · split
            · exact KPair.mk (h1.of ‹_›)
            · have h2 := getPiece_keeps (a0 := n) (a1 := x) (a2 := some (parseHeader hb)) (a3 := o)
                (a4 := BlockHeader.footprint (parseHeader hb)) (h1.of ‹_›)
              split
              · exact KPair.mk (h2.of ‹_›)
              · exact ih (advanceJob_keeps (h2.of ‹_›))

theorem execGetBlocks_keeps {a0 a1} (h0 : Keeps b a1) :
    ∀ t, execGetBlocks a0 a1 = .next t → Keeps b t := by
  intro t e
  simp only [execGetBlocks, Host.Outcome.next.injEq] at e
  subst e
  try dsimp only
  repeat' (first
    | with_reducible assumption
    | with_reducible apply withJob_keeps
    | with_reducible apply quayFailed_keeps
    | with_reducible apply getVerified_keeps
    | with_reducible apply getPlain_keeps
    | with_reducible apply blockJobEnds_keeps
    | with_reducible apply beginJob_keeps
    | split
    | intro _)

theorem execPutBlocks_keeps {j : Nat} {v : HostView} {s : State} (h : Keeps b s) :
    ∀ t, execPutBlocks j v s = .next t → Keeps b t := by
  intro t e
  simp only [execPutBlocks, Host.Outcome.next.injEq] at e
  subst e
  apply withJob_keeps h
  intro x
  have h1 := hostSync_keeps (v := v) h
  split
  · exact h1
  · exact quayFailed_keeps h1
  · split
    · exact h1
    · exact blockJobEnds_keeps (putLoop_keeps (beginJob_keeps h1))

theorem loadSettings_keeps {a0} (h0 : Keeps b a0) :
    Keeps b (loadSettings a0) := by
  unfold loadSettings
  try dsimp only
  repeat' (first
    | with_reducible assumption
    | with_reducible apply onDict_keeps
    | with_reducible apply emcyRaise_keeps
    | with_reducible apply logRecord_keeps
    | with_reducible apply foldl_keeps
    | split
    | intro _)

theorem startSave_keeps {a0 a1 a2} (h0 : Keeps b a2) :
    Keeps b (startSave a0 a1 a2) := by
  unfold startSave
  try dsimp only
  with_reducible repeat' (first | assumption | apply onDict_keeps)

theorem bankCommitted_keeps {a0 a1} (h0 : Keeps b a1) :
    Keeps b (bankCommitted a0 a1) := by
  unfold bankCommitted
  try dsimp only
  repeat' (first
    | with_reducible assumption
    | with_reducible apply onMram_keeps
    | with_reducible apply onDict_keeps
    | with_reducible apply extend_keeps
    | with_reducible apply logRecord_keeps)

theorem bankFailed_keeps {a0} (h0 : Keeps b a0) :
    Keeps b (bankFailed a0) := by
  unfold bankFailed
  try dsimp only
  with_reducible repeat' (first | assumption | apply onDict_keeps | apply onMram_keeps)

theorem lssStored_keeps {a0 a1} (h0 : Keeps b a1) :
    Keeps b (lssStored a0 a1) := by
  unfold lssStored
  try dsimp only
  with_reducible repeat' (first | assumption | apply canSend_keeps)

theorem execSettingsSaveComplete_keeps {a0 a1} (h0 : Keeps b a1) :
    ∀ t, execSettingsSaveComplete a0 a1 = .next t → Keeps b t := by
  intro t e
  simp only [execSettingsSaveComplete, Host.Outcome.next.injEq] at e
  subst e
  try dsimp only
  repeat' (first
    | with_reducible assumption
    | with_reducible apply bankCommitted_keeps
    | with_reducible apply bankFailed_keeps
    | with_reducible apply lssStored_keeps
    | with_reducible apply raiseSource_keeps
    | split)

theorem releaseSave_keeps {a0} (h0 : Keeps b a0) :
    Keeps b (releaseSave a0) := by
  unfold releaseSave
  try dsimp only
  with_reducible repeat' (first | assumption | apply onDict_keeps)

theorem mismatchChanged_keeps {a0} (h0 : Keeps b a0) :
    Keeps b (mismatchChanged a0) := by
  unfold mismatchChanged
  try dsimp only
  repeat' (first
    | with_reducible assumption
    | with_reducible apply emcyRaise_keeps
    | with_reducible apply logRecord_keeps
    | with_reducible apply emcyClear_keeps
    | split)

theorem groupUpdate_keeps {a0} (h0 : Keeps b a0) :
    Keeps b (groupUpdate a0) := by
  unfold groupUpdate
  try dsimp only
  repeat' (first
    | with_reducible assumption
    | with_reducible apply onDict_keeps
    | with_reducible apply raiseSource_keeps
    | with_reducible apply mismatchChanged_keeps
    | split)

theorem changeMode_keeps {a0 a1 a2} (h0 : Keeps b a2) :
    Keeps b (changeMode a0 a1 a2) := by
  unfold changeMode
  try dsimp only
  repeat' (first
    | with_reducible assumption
    | with_reducible apply groupUpdate_keeps
    | with_reducible apply setMode_keeps
    | with_reducible apply emcyRaise_keeps
    | with_reducible apply emcyClear_keeps
    | split)

theorem endModeRequest_keeps {a0 a1} (h0 : Keeps b a1) :
    Keeps b (endModeRequest a0 a1) := by
  unfold endModeRequest
  try dsimp only
  repeat' (first
    | with_reducible assumption
    | with_reducible apply raiseSource_keeps
    | with_reducible apply onSys_keeps
    | exact fun (_ : Sys) => Nat.le_refl _
    | split)

theorem setStruct_keeps {a0 a1} (h0 : Keeps b a1) :
    Keeps b (setStruct a0 a1) := by
  unfold setStruct
  try dsimp only
  with_reducible repeat' (first | assumption | apply onCore_keeps | apply foldl_keeps | intro _)

theorem enterHold_keeps {a0 a1 a2 a3 a4 a5} (h0 : Keeps b a5) :
    Keeps b (enterHold a0 a1 a2 a3 a4 a5) := by
  unfold enterHold
  try dsimp only
  repeat' (first
    | with_reducible assumption
    | with_reducible apply setStruct_keeps
    | with_reducible apply logRecord_keeps
    | with_reducible apply emcyRaise_keeps
    | with_reducible apply onSys_keeps
    | with_reducible apply groupUpdate_keeps
    | with_reducible apply setMode_keeps
    | with_reducible apply endModeRequest_keeps
    | exact fun (_ : Sys) => Nat.le_refl _
    | split)

theorem subchannelLost_keeps {a0 a1} (h0 : Keeps b a1) :
    Keeps b (subchannelLost a0 a1) := by
  unfold subchannelLost
  try dsimp only
  with_reducible repeat' (first | assumption | apply enterHold_keeps | apply markRetired_keeps | split)

theorem vitalFailed_keeps {a0 a1 a2 a3} (h0 : Keeps b a3) :
    Keeps b (vitalFailed a0 a1 a2 a3) := by
  unfold vitalFailed
  try dsimp only
  with_reducible repeat' (first | assumption | apply enterHold_keeps)

theorem retire_keeps {a0 a1 a2} (h0 : Keeps b a2) :
    Keeps b (retire a0 a1 a2) := by
  unfold retire
  try dsimp only
  repeat' (first
    | with_reducible assumption
    | with_reducible apply onBist_keeps
    | with_reducible apply onPresent_keeps
    | with_reducible apply onMram_keeps
    | with_reducible apply extend_keeps
    | with_reducible apply queueRecord_keeps
    | with_reducible apply copyRetired_keeps
    | with_reducible apply raiseSource_keeps
    | with_reducible apply changeMode_keeps
    | split)

theorem returnUnit_keeps {a0 a1} (h0 : Keeps b a1) :
    Keeps b (returnUnit a0 a1) := by
  unfold returnUnit
  try dsimp only
  repeat' (first
    | with_reducible assumption
    | with_reducible apply onPresent_keeps
    | with_reducible apply onMram_keeps
    | with_reducible apply copyRetired_keeps
    | with_reducible apply logRecord_keeps)

theorem handUnit_keeps {a0 a1 a2 a3} (h0 : Keeps b a3) :
    Keeps b (handUnit a0 a1 a2 a3) := by
  unfold handUnit
  try dsimp only
  with_reducible repeat' (first | assumption | apply onPilot_keeps | apply onI_keeps | split)

theorem withUnit_keeps {a0 a1 a2 a3 a4} (h0 : Keeps b a3) (h1 : ∀ x0, ∀ x1, ∀ x2, ∀ x3, ∀ x4, ∀ x5, Keeps b x5 → Keeps b (a4 x0 x1 x2 x3 x4 x5)) :
    Keeps b (withUnit a0 a1 a2 a3 a4) := by
  unfold withUnit
  try dsimp only
  repeat' (first
    | with_reducible assumption
    | with_reducible apply h1
    | with_reducible apply withInst_keeps
    | with_reducible apply takeBatch_keeps
    | with_reducible apply onI_keeps
    | split
    | intro _)

theorem putWork_keeps {a0 a1 a2 a3 a4} (h0 : Keeps b a4) :
    Keeps b (putWork a0 a1 a2 a3 a4) := by
  unfold putWork
  try dsimp only
  with_reducible repeat' (first | assumption | apply onI_keeps)

theorem emitPlain_keeps {a0 a1 a2 a3 a4 a5 a6} (h0 : Keeps b a6) :
    Keeps b (emitPlain a0 a1 a2 a3 a4 a5 a6) := by
  unfold emitPlain
  try dsimp only
  with_reducible repeat' (first | assumption | apply pushRows_keeps)

theorem buildBatch_keeps {a0 a1 a2 a3 a4 a5 a6 a7 a8 a9 a10} (h0 : Keeps b a10) :
    Keeps b (buildBatch a0 a1 a2 a3 a4 a5 a6 a7 a8 a9 a10) := by
  unfold buildBatch
  try dsimp only
  repeat' (first
    | with_reducible assumption
    | with_reducible apply withKeys_keeps
    | with_reducible apply endFailed_keeps
    | with_reducible apply withAreas_keeps
    | with_reducible apply dropAreas_keeps
    | with_reducible apply finishBatch_keeps
    | with_reducible apply putWork_keeps
    | with_reducible apply onI_keeps
    | split
    | intro _)

theorem probeBatch_keeps {a0 a1 a2 a3 a4 a5 a6 a7 a8 a9 a10} (h0 : Keeps b a10) :
    Keeps b (probeBatch a0 a1 a2 a3 a4 a5 a6 a7 a8 a9 a10) := by
  unfold probeBatch
  try dsimp only
  repeat' (first
    | with_reducible assumption
    | with_reducible apply withKeys_keeps
    | with_reducible apply putWork_keeps
    | with_reducible apply finishBatch_keeps
    | with_reducible apply emitPlain_keeps
    | with_reducible apply endInst_keeps
    | split
    | intro _)

theorem aggregateBatch_keeps {a0 a1 a2 a3 a4 a5 a6 a7 a8 a9 a10} (h0 : Keeps b a10) :
    Keeps b (aggregateBatch a0 a1 a2 a3 a4 a5 a6 a7 a8 a9 a10) := by
  unfold aggregateBatch
  try dsimp only
  repeat' (first
    | with_reducible assumption
    | with_reducible apply withKeys_keeps
    | with_reducible apply endFailed_keeps
    | with_reducible apply withAreas_keeps
    | with_reducible apply finishBatch_keeps
    | with_reducible apply endInst_keeps
    | with_reducible apply emitPlain_keeps
    | with_reducible apply dropAreas_keeps
    | with_reducible apply putWork_keeps
    | split
    | intro _)

theorem storePasses_keeps {j st i : Nat} {size : List KeyedRow → Nat} :
    ∀ {l : List (List (List KeyedRow))} {s : State} {go : State → State}, Keeps b s →
    (∀ s, Keeps b s → Keeps b (go s)) → Keeps b (storePasses j st i size l s go) := by
  intro l
  induction l with
  | nil => exact fun h hg => hg _ h
  | cons x t ih =>
    intro s go h hg
    exact withAreas_keeps h (fun u hu => ih (onI_keeps hu) hg)

theorem sortBatch_keeps {a0 a1 a2 a3 a4 a5 a6 a7 a8 a9} (h0 : Keeps b a9) :
    Keeps b (sortBatch a0 a1 a2 a3 a4 a5 a6 a7 a8 a9) := by
  unfold sortBatch
  try dsimp only
  repeat' (first
    | with_reducible assumption
    | with_reducible apply withKeys_keeps
    | with_reducible apply withAreas_keeps
    | with_reducible apply finishBatch_keeps
    | with_reducible apply storePasses_keeps
    | with_reducible apply endInst_keeps
    | with_reducible apply emitPlain_keeps
    | with_reducible apply dropAreas_keeps
    | with_reducible apply putWork_keeps
    | split
    | intro _)

theorem mergeBatch_keeps {a0 a1 a2 a3 a4 a5 a6 a7 a8 a9 a10} (h0 : Keeps b a10) :
    Keeps b (mergeBatch a0 a1 a2 a3 a4 a5 a6 a7 a8 a9 a10) := by
  unfold mergeBatch
  try dsimp only
  repeat' (first
    | with_reducible assumption
    | with_reducible apply finishBatch_keeps
    | with_reducible apply withKeys_keeps
    | with_reducible apply emitPlain_keeps
    | with_reducible apply putWork_keeps
    | with_reducible apply endInst_keeps
    | split
    | intro _)

theorem execFixedUnitBatch_keeps {a0 a1 a2 a3 a4} (h0 : Keeps b a4) :
    ∀ t, execFixedUnitBatch a0 a1 a2 a3 a4 = .next t → Keeps b t := by
  intro t e
  simp only [execFixedUnitBatch, Host.Outcome.next.injEq] at e
  subst e
  try dsimp only
  repeat' (first
    | with_reducible assumption
    | with_reducible apply withUnit_keeps
    | with_reducible apply pulseInst_keeps
    | with_reducible apply buildBatch_keeps
    | with_reducible apply probeBatch_keeps
    | with_reducible apply aggregateBatch_keeps
    | with_reducible apply sortBatch_keeps
    | with_reducible apply mergeBatch_keeps
    | split
    | intro _)

theorem exchangeEnds_keeps {a0 a1 a2 a3 a4} (h0 : Keeps b a4) :
    Keeps b (exchangeEnds a0 a1 a2 a3 a4) := by
  unfold exchangeEnds
  try dsimp only
  with_reducible repeat' (first | assumption | apply finishBatch_keeps | apply endInst_keeps | split)

theorem broadcastBatch_keeps {a0 a1 a2 a3 a4 a5} (h0 : Keeps b a5) :
    Keeps b (broadcastBatch a0 a1 a2 a3 a4 a5) := by
  unfold broadcastBatch
  try dsimp only
  with_reducible repeat' (first | assumption | apply exchangeEnds_keeps | apply pushBatch_keeps | split)

theorem partitionBatch_keeps {a0 a1 a2 a3 a4 a5 a6 a7 a8} (h0 : Keeps b a8) :
    Keeps b (partitionBatch a0 a1 a2 a3 a4 a5 a6 a7 a8) := by
  unfold partitionBatch
  try dsimp only
  repeat' (first
    | with_reducible assumption
    | with_reducible apply withKeys_keeps
    | with_reducible apply exchangeEnds_keeps
    | with_reducible apply pushRows_keeps
    | with_reducible apply foldl_keeps
    | intro _)

theorem execExchangeBatch_keeps {a0 a1 a2 a3} (h0 : Keeps b a3) :
    ∀ t, execExchangeBatch a0 a1 a2 a3 = .next t → Keeps b t := by
  intro t e
  simp only [execExchangeBatch, Host.Outcome.next.injEq] at e
  subst e
  try dsimp only
  repeat' (first
    | with_reducible assumption
    | with_reducible apply withIntake_keeps
    | with_reducible apply broadcastBatch_keeps
    | with_reducible apply takeBatch_keeps
    | with_reducible apply partitionBatch_keeps
    | with_reducible apply onI_keeps
    | split
    | intro _)

theorem enterExpr_keeps {c : Nat} {a0 a1 a2 a3 a4 a5 : Word} {s : State} (h : Keeps b s) :
    Keeps b (enterExpr c a0 a1 a2 a3 a4 a5 s) := by
  unfold enterExpr
  exact onCore_keeps (h.congr rfl (Nat.le_add_right _ _) rfl rfl rfl rfl rfl rfl)

theorem flushFor_keeps {a0 a1 a2 a3} (h0 : Keeps b a3) :
    Keeps b (flushFor a0 a1 a2 a3) := by
  unfold flushFor
  try dsimp only
  with_reducible repeat' (first | assumption | apply onCore_keeps | split)

theorem exprEnters_keeps {a0 a1 a2 a3 a4 a5 a6 a7 a8 a9 a10} (h0 : Keeps b a10) :
    Keeps b (exprEnters a0 a1 a2 a3 a4 a5 a6 a7 a8 a9 a10) := by
  unfold exprEnters
  try dsimp only
  repeat' (first
    | with_reducible assumption
    | with_reducible apply flushFor_keeps
    | with_reducible apply putWork_keeps
    | with_reducible apply takeBatch_keeps
    | with_reducible apply enterExpr_keeps)

theorem exprSends_keeps {a0 a1 a2 a3 a4 a5 a6 a7} (h0 : Keeps b a7) :
    Keeps b (exprSends a0 a1 a2 a3 a4 a5 a6 a7) := by
  unfold exprSends
  try dsimp only
  with_reducible repeat' (first | assumption | apply pushWhole_keeps | apply foldl_keeps | split | intro _)

theorem exprReturns_keeps {a0 a1 a2 a3 a4 a5 a6 a7 a8} (h0 : Keeps b a8) :
    Keeps b (exprReturns a0 a1 a2 a3 a4 a5 a6 a7 a8) := by
  unfold exprReturns
  try dsimp only
  repeat' (first
    | with_reducible assumption
    | with_reducible apply putWork_keeps
    | with_reducible apply onCore_keeps
    | with_reducible apply endFailed_keeps
    | with_reducible apply finishBatch_keeps
    | with_reducible apply exprSends_keeps
    | with_reducible apply endInst_keeps
    | split)

theorem execExprCall_keeps {a0 a1 a2 a3 a4 a5} (h0 : Keeps b a5) :
    ∀ t, execExprCall a0 a1 a2 a3 a4 a5 = .next t → Keeps b t := by
  intro t e
  simp only [execExprCall, Host.Outcome.next.injEq] at e
  subst e
  try dsimp only
  repeat' (first
    | with_reducible assumption
    | with_reducible apply withInst_keeps
    | with_reducible apply exprEnters_keeps
    | with_reducible apply onCore_keeps
    | with_reducible apply exprReturns_keeps
    | split
    | intro _)

theorem limitBatch_keeps {a0 a1 a2 a3 a4 a5 a6 a7 a8 a9 a10} (h0 : Keeps b a10) :
    Keeps b (limitBatch a0 a1 a2 a3 a4 a5 a6 a7 a8 a9 a10) := by
  unfold limitBatch
  try dsimp only
  repeat' (first
    | with_reducible assumption
    | with_reducible apply finishBatch_keeps
    | with_reducible apply putWork_keeps
    | with_reducible apply emitPlain_keeps
    | with_reducible apply takeBatch_keeps
    | with_reducible apply endInst_keeps
    | split)

theorem limitBatches_keeps {j st i o n : Nat} {g : Stage} : ∀ {fuel s}, Keeps b s →
    Keeps b (limitBatches j st i o n g fuel s) := by
  intro fuel
  induction fuel with
  | zero => exact fun h => h
  | succ fuel ih =>
    intro s h
    simp only [limitBatches]
    repeat' (first
      | with_reducible assumption
      | (with_reducible apply ih)
      | (with_reducible apply limitBatch_keeps)
      | split)

theorem execEdgeCreditReturn_keeps {a0 a1 a2 a3} (h0 : Keeps b a3) :
    ∀ t, execEdgeCreditReturn a0 a1 a2 a3 = .next t → Keeps b t := by
  intro t e
  simp only [execEdgeCreditReturn, Host.Outcome.next.injEq] at e
  subst e
  try dsimp only
  with_reducible repeat' (first | assumption | apply onI_keeps | apply onR_keeps | apply pulseInst_keeps | split)

theorem execBatchArrival_keeps {a0 a1 a2 a3 a4} (h0 : Keeps b a4) :
    ∀ t, execBatchArrival a0 a1 a2 a3 a4 = .next t → Keeps b t := by
  intro t e
  simp only [execBatchArrival, Host.Outcome.next.injEq] at e
  subst e
  try dsimp only
  with_reducible repeat' (first | assumption | apply onR_keeps | apply onI_keeps | apply pulseInst_keeps | split)

theorem execSetvl_keeps {a0 a1 a2 a3 a4 a5} (h0 : Keeps b a5) :
    ∀ t, execSetvl a0 a1 a2 a3 a4 a5 = .next t → Keeps b t := by
  intro t e
  simp only [execSetvl, Host.Outcome.next.injEq] at e
  subst e
  try dsimp only
  repeat' (first
    | with_reducible assumption
    | with_reducible apply atLevel_keeps
    | with_reducible apply illegal_keeps
    | with_reducible apply finish_keeps
    | split
    | intro _)

theorem execCsrr_keeps {a0 a1 a2 a3} (h0 : Keeps b a3) :
    ∀ t, execCsrr a0 a1 a2 a3 = .next t → Keeps b t := by
  intro t e
  simp only [execCsrr, Host.Outcome.next.injEq] at e
  subst e
  try dsimp only
  repeat' (first
    | with_reducible assumption
    | with_reducible apply coreStep_keeps
    | with_reducible apply finish_keeps
    | with_reducible apply illegal_keeps
    | split
    | intro _)

theorem execCsrw_keeps {a0 a1 a2 a3} (h0 : Keeps b a3) :
    ∀ t, execCsrw a0 a1 a2 a3 = .next t → Keeps b t := by
  intro t e
  simp only [execCsrw, Host.Outcome.next.injEq] at e
  subst e
  try dsimp only
  repeat' (first
    | with_reducible assumption
    | with_reducible apply coreStep_keeps
    | with_reducible apply illegal_keeps
    | with_reducible apply finish_keeps
    | split
    | intro _)

theorem execEcall_keeps {a0 a1} (h0 : Keeps b a1) :
    ∀ t, execEcall a0 a1 = .next t → Keeps b t := by
  intro t e
  simp only [execEcall, Host.Outcome.next.injEq] at e
  subst e
  try dsimp only
  repeat' (first
    | with_reducible assumption
    | with_reducible apply coreStep_keeps
    | with_reducible apply illegal_keeps
    | with_reducible apply raise_keeps
    | split
    | intro _)

theorem execEbreak_keeps {a0 a1} (h0 : Keeps b a1) :
    ∀ t, execEbreak a0 a1 = .next t → Keeps b t := by
  intro t e
  simp only [execEbreak, Host.Outcome.next.injEq] at e
  subst e
  try dsimp only
  with_reducible repeat' (first | assumption | apply coreStep_keeps | apply raise_keeps | intro _)

theorem execEret_keeps {a0 a1} (h0 : Keeps b a1) :
    ∀ t, execEret a0 a1 = .next t → Keeps b t := by
  intro t e
  simp only [execEret, Host.Outcome.next.injEq] at e
  subst e
  try dsimp only
  with_reducible repeat' (first | assumption | apply atLevel_keeps | apply onCore_keeps | intro _)

theorem execIflush_keeps {a0 a1} (h0 : Keeps b a1) :
    ∀ t, execIflush a0 a1 = .next t → Keeps b t := by
  intro t e
  simp only [execIflush, Host.Outcome.next.injEq] at e
  subst e
  try dsimp only
  with_reducible repeat' (first | assumption | apply atLevel_keeps | apply finish_keeps | intro _)

theorem execWfi_keeps {a0 a1} (h0 : Keeps b a1) :
    ∀ t, execWfi a0 a1 = .next t → Keeps b t := by
  intro t e
  simp only [execWfi, Host.Outcome.next.injEq] at e
  subst e
  try dsimp only
  with_reducible repeat' (first | assumption | apply atLevel_keeps | apply finish_keeps | intro _)

theorem recordInterrupt_keeps {a0 a1} (h0 : Keeps b a1) :
    Keeps b (recordInterrupt a0 a1) := by
  unfold recordInterrupt
  try dsimp only
  with_reducible repeat' (first | assumption | apply takeFresh_keeps | apply onCore_keeps | apply KPair.snd)

theorem takeInterrupt_keeps {a0 a1 a2} (h0 : ∀ x0, Keeps b x0 → Keeps b (a1 x0)) (h1 : Keeps b a2) :
    Keeps b (takeInterrupt a0 a1 a2) := by
  unfold takeInterrupt
  try dsimp only
  repeat' (first
    | with_reducible assumption
    | with_reducible apply h0
    | with_reducible apply drain_keeps
    | with_reducible apply enter_keeps
    | with_reducible apply onCore_keeps
    | with_reducible apply recordInterrupt_keeps
    | split)

theorem execRuntimeTick_keeps {a0 a1} (h0 : Keeps b a1) :
    ∀ t, execRuntimeTick a0 a1 = .next t → Keeps b t := by
  intro t e
  simp only [execRuntimeTick, Host.Outcome.next.injEq] at e
  subst e
  try dsimp only
  with_reducible repeat' (first | assumption | apply takeInterrupt_keeps | apply onCore_keeps | split | intro _)

theorem execCoreModeWrite_keeps {a0 a1 a2 a3} (h0 : Keeps b a3) :
    ∀ t, execCoreModeWrite a0 a1 a2 a3 = .next t → Keeps b t := by
  intro t e
  simp only [execCoreModeWrite, Host.Outcome.next.injEq] at e
  subst e
  try dsimp only
  repeat' (first
    | with_reducible assumption
    | with_reducible apply coreStep_keeps
    | with_reducible apply storeThen_keeps
    | with_reducible apply finish_keeps
    | intro _)

theorem longsFailed_keeps {a0 a1 a2 a3} (h0 : Keeps b a3) :
    Keeps b (longsFailed a0 a1 a2 a3) := by
  unfold longsFailed
  try dsimp only
  with_reducible repeat' (first | assumption | apply awayFault_keeps | apply noteViolation_keeps | split)

theorem lookupTake_keeps {a0 a1 a2 a3 a4 a5 a6 a7 a8} (h0 : Keeps b a8) :
    Keeps b (lookupTake a0 a1 a2 a3 a4 a5 a6 a7 a8) := by
  unfold lookupTake
  try dsimp only
  repeat' (first
    | with_reducible assumption
    | with_reducible apply endFailed_keeps
    | with_reducible apply readLongs_keeps
    | with_reducible apply sendMore_keeps
    | with_reducible apply onI_keeps
    | with_reducible apply longsFailed_keeps
    | split
    | (with_reducible apply KPair.of; rotate_left; (with_reducible assumption)))



theorem lookupPush_keeps {a0 a1 a2 a3 a4 a5 a6 a7 a8} (h0 : Keeps b a8) :
    Keeps b (lookupPush a0 a1 a2 a3 a4 a5 a6 a7 a8) := by
  unfold lookupPush
  try dsimp only
  with_reducible repeat' (first | assumption | apply pushRows_keeps | apply pushFull_keeps | split)

theorem patternTake_keeps {a0 a1 a2 a3 a4 a5 a6 a7 a8} (h0 : Keeps b a8) :
    Keeps b (patternTake a0 a1 a2 a3 a4 a5 a6 a7 a8) := by
  unfold patternTake
  try dsimp only
  repeat' (first
    | with_reducible assumption
    | with_reducible apply endFailed_keeps
    | with_reducible apply readLongs_keeps
    | with_reducible apply sendMore_keeps
    | with_reducible apply onI_keeps
    | with_reducible apply longsFailed_keeps
    | split
    | (with_reducible apply KPair.of; rotate_left; (with_reducible assumption)))

theorem patternPush_keeps {a0 a1 a2 a3 a4 a5 a6 a7 a8} (h0 : Keeps b a8) :
    Keeps b (patternPush a0 a1 a2 a3 a4 a5 a6 a7 a8) := by
  unfold patternPush
  try dsimp only
  with_reducible repeat' (first | assumption | apply pushFull_keeps | apply pushRows_keeps | split)

theorem searchIntake_keeps {j st i : Nat} {x : Job} {g : Stage} :
    ∀ {fuel s}, Keeps b s → Keeps b (searchIntake j st i x g fuel s) := by
  intro fuel
  induction fuel with
  | zero => exact fun h => h
  | succ fuel ih =>
    intro s h
    simp only [searchIntake]
    split
    · exact h
    · split
      · split
        · apply ih
          repeat' (first
            | with_reducible assumption
            | with_reducible apply endInst_keeps
            | with_reducible apply finishBatch_keeps
            | with_reducible apply lookupPush_keeps
            | with_reducible apply patternPush_keeps
            | with_reducible apply putWork_keeps
            | split)
        · exact h
      · split
        · exact h
        · apply ih
          split
          · exact lookupTake_keeps (takeBatch_keeps h)
          · exact patternTake_keeps (takeBatch_keeps h)
          · exact takeBatch_keeps h
      · exact h

theorem intake_keeps {a0 a1 a2 a3} (h0 : Keeps b a3) :
    Keeps b (intake a0 a1 a2 a3) := by
  unfold intake
  try dsimp only
  repeat' (first
    | with_reducible assumption
    | with_reducible apply withInst_keeps
    | with_reducible apply limitBatches_keeps
    | with_reducible apply fetchIntake_keeps
    | with_reducible apply searchIntake_keeps
    | split
    | intro _)

theorem itemBegins_keeps {a0 a1} (h0 : Keeps b a1) :
    Keeps b (itemBegins a0 a1) := by
  unfold itemBegins
  try dsimp only
  with_reducible repeat' (first | assumption | apply handUnit_keeps | apply intake_keeps | apply onI_keeps | split)

theorem itemEnds_keeps {a0 a1} (h0 : Keeps b a1) :
    Keeps b (itemEnds a0 a1) := by
  unfold itemEnds
  try dsimp only
  with_reducible repeat' (first | assumption | apply onI_keeps | split)

theorem itemLost_keeps {a0 a1} (h0 : Keeps b a1) :
    Keeps b (itemLost a0 a1) := by
  unfold itemLost
  try dsimp only
  with_reducible repeat' (first | assumption | apply onI_keeps | apply purgeInst_keeps | split)

theorem loseCore_keeps {a0 a1} (h0 : Keeps b a1) :
    Keeps b (loseCore a0 a1) := by
  unfold loseCore
  try dsimp only
  with_reducible repeat' (first | assumption | apply recallCore_keeps | apply itemLost_keeps | split)

theorem itemFor_keeps {a0 a1} (h0 : Keeps b a1) :
    KPair b (itemFor a0 a1) := by
  unfold itemFor
  try dsimp only
  repeat' (first
    | with_reducible assumption
    | with_reducible apply countP_keeps
    | with_reducible apply ranOn_keeps
    | with_reducible apply onT_keeps
    | with_reducible apply onCore_keeps
    | with_reducible apply choose_keeps
    | with_reducible apply dispatch_keeps
    | split
    | (with_reducible apply KPair.of; rotate_left; (with_reducible assumption))
    | with_reducible apply KPair.snd
    | with_reducible apply KPair.mk)

theorem serveGetw_keeps {a0 a1 a2} (h0 : Keeps b a2) :
    Keeps b (serveGetw a0 a1 a2) := by
  unfold serveGetw
  try dsimp only
  repeat' (first
    | with_reducible assumption
    | with_reducible apply itemFor_keeps
    | with_reducible apply onCore_keeps
    | with_reducible apply itemBegins_keeps
    | with_reducible apply finish_keeps
    | split
    | (with_reducible apply KPair.of; rotate_left; (with_reducible assumption)))

theorem execGetw_keeps {a0 a1 a2 a3 a4} (h0 : Keeps b a4) :
    ∀ t, execGetw a0 a1 a2 a3 a4 = .next t → Keeps b t := by
  intro t e
  simp only [execGetw, Host.Outcome.next.injEq] at e
  subst e
  try dsimp only
  repeat' (first
    | with_reducible assumption
    | with_reducible apply countP_keeps
    | with_reducible apply serveGetw_keeps
    | with_reducible apply atLevel_keeps
    | with_reducible apply finish_keeps
    | split
    | intro _)

theorem keepChosen_keeps {a0 a1} (h0 : Keeps b a1) :
    Keeps b (keepChosen a0 a1) := by
  unfold keepChosen
  try dsimp only
  repeat' (first
    | with_reducible assumption
    | with_reducible apply choose_keeps
    | with_reducible apply dispatch_keeps
    | with_reducible apply itemBegins_keeps
    | with_reducible apply onCore_keeps
    | with_reducible apply ranOn_keeps
    | split
    | (with_reducible apply KPair.of; rotate_left; (with_reducible assumption))
    | with_reducible apply KPair.snd)

theorem execInterrupt_keeps {a0 a1 a2} (h0 : Keeps b a2) :
    ∀ t, execInterrupt a0 a1 a2 = .next t → Keeps b t := by
  intro t e
  simp only [execInterrupt, Host.Outcome.next.injEq] at e
  subst e
  try dsimp only
  repeat' (first
    | with_reducible assumption
    | with_reducible apply takeInterrupt_keeps
    | with_reducible apply onCore_keeps
    | with_reducible apply keepChosen_keeps
    | split
    | intro _)

theorem afterStores_keeps {a0 a1 a2} (h0 : Keeps b a1) (h1 : ∀ x0, Keeps b x0 → Keeps b (a2 x0)) :
    Keeps b (afterStores a0 a1 a2) := by
  unfold afterStores
  try dsimp only
  with_reducible repeat' (first | assumption | apply pendingOr_keeps | apply drain_keeps)

theorem execDonew_keeps {a0 a1 a2 a3} (h0 : Keeps b a3) :
    ∀ t, execDonew a0 a1 a2 a3 = .next t → Keeps b t := by
  intro t e
  simp only [execDonew, Host.Outcome.next.injEq] at e
  subst e
  try dsimp only
  repeat' (first
    | with_reducible assumption
    | with_reducible apply atLevel_keeps
    | with_reducible apply afterStores_keeps
    | with_reducible apply finish_keeps
    | with_reducible apply finishItem_keeps
    | with_reducible apply itemEnds_keeps
    | with_reducible apply raise_keeps
    | split
    | intro _)

theorem softPulse_keeps {a0 a1 a2 a3} (h0 : Keeps b a3) :
    Keeps b (softPulse a0 a1 a2 a3) := by
  unfold softPulse
  try dsimp only
  with_reducible repeat' (first | assumption | apply pulse_keeps | split)

theorem execSetev_keeps {a0 a1 a2 a3} (h0 : Keeps b a3) :
    ∀ t, execSetev a0 a1 a2 a3 = .next t → Keeps b t := by
  intro t e
  simp only [execSetev, Host.Outcome.next.injEq] at e
  subst e
  try dsimp only
  repeat' (first
    | with_reducible assumption
    | with_reducible apply atLevel_keeps
    | with_reducible apply afterStores_keeps
    | with_reducible apply finish_keeps
    | with_reducible apply softPulse_keeps
    | intro _)

theorem commitWait_keeps {a0 a1 a2 a3} (h0 : Keeps b a3) :
    Keeps b (commitWait a0 a1 a2 a3) := by
  unfold commitWait
  try dsimp only
  with_reducible repeat' (first | assumption | apply countP_keeps | apply onCore_keeps | split)

theorem execWaitcAll_keeps {a0 a1 a2} (h0 : Keeps b a2) :
    ∀ t, execWaitcAll a0 a1 a2 = .next t → Keeps b t := by
  intro t e
  simp only [execWaitcAll, Host.Outcome.next.injEq] at e
  subst e
  try dsimp only
  repeat' (first
    | with_reducible assumption
    | with_reducible apply atLevel_keeps
    | with_reducible apply afterStores_keeps
    | with_reducible apply finish_keeps
    | with_reducible apply commitWait_keeps
    | intro _)

theorem execWaitcAny_keeps {a0 a1 a2} (h0 : Keeps b a2) :
    ∀ t, execWaitcAny a0 a1 a2 = .next t → Keeps b t := by
  intro t e
  simp only [execWaitcAny, Host.Outcome.next.injEq] at e
  subst e
  try dsimp only
  repeat' (first
    | with_reducible assumption
    | with_reducible apply atLevel_keeps
    | with_reducible apply afterStores_keeps
    | with_reducible apply finish_keeps
    | with_reducible apply commitWait_keeps
    | intro _)

theorem execEventPulse_keeps {a0 a1 a2 a3} (h0 : Keeps b a3) :
    ∀ t, execEventPulse a0 a1 a2 a3 = .next t → Keeps b t := by
  intro t e
  simp only [execEventPulse, Host.Outcome.next.injEq] at e
  subst e
  try dsimp only
  with_reducible repeat' (first | assumption | apply softPulse_keeps)

theorem execDelayExpiry_keeps {a0 a1} (h0 : Keeps b a1) :
    ∀ t, execDelayExpiry a0 a1 = .next t → Keeps b t := by
  intro t e
  simp only [execDelayExpiry, Host.Outcome.next.injEq] at e
  subst e
  try dsimp only
  repeat' (first
    | with_reducible assumption
    | with_reducible apply grantDelay_keeps
    | with_reducible apply pulse_keeps
    | with_reducible apply countP_keeps
    | with_reducible apply onT_keeps
    | split)

theorem execPrefetchFill_keeps {a0 a1} (h0 : Keeps b a1) :
    ∀ t, execPrefetchFill a0 a1 = .next t → Keeps b t := by
  intro t e
  simp only [execPrefetchFill, Host.Outcome.next.injEq] at e
  subst e
  try dsimp only
  repeat' (first
    | with_reducible assumption
    | with_reducible apply choose_keeps
    | with_reducible apply dispatch_keeps
    | with_reducible apply onCore_keeps
    | split
    | (with_reducible apply KPair.of; rotate_left; (with_reducible assumption))
    | with_reducible apply KPair.snd)

theorem execDispatchModeSwitch_keeps {a0 a1 a2} (h0 : Keeps b a2) :
    ∀ t, execDispatchModeSwitch a0 a1 a2 = .next t → Keeps b t := by
  intro t e
  simp only [execDispatchModeSwitch, Host.Outcome.next.injEq] at e
  subst e
  try dsimp only
  with_reducible repeat' (first | assumption | apply onPilot_keeps | split)

theorem selectTask_keeps {a0 a1} (h0 : Keeps b a1) :
    Keeps b (selectTask a0 a1) := by
  unfold selectTask
  try dsimp only
  with_reducible repeat' (first | assumption | apply onPilot_keeps)

theorem quayOut_keeps {a0 a1 a2} (h0 : Keeps b a2) :
    Keeps b (quayOut a0 a1 a2) := by
  unfold quayOut
  try dsimp only
  with_reducible repeat' (first | assumption | apply onQuay_keeps)

theorem execQuayFailure_keeps {a0 a1 a2} (h0 : Keeps b a2) :
    ∀ t, execQuayFailure a0 a1 a2 = .next t → Keeps b t := by
  intro t e
  simp only [execQuayFailure, Host.Outcome.next.injEq] at e
  subst e
  try dsimp only
  repeat' (first
    | with_reducible assumption
    | with_reducible apply subchannelLost_keeps
    | with_reducible apply markRetired_keeps
    | with_reducible apply logRecord_keeps
    | with_reducible apply quayOut_keeps
    | with_reducible apply retire_keeps
    | split)

theorem execBuddyTakeover_keeps {a0 a1} (h0 : Keeps b a1) :
    ∀ t, execBuddyTakeover a0 a1 = .next t → Keeps b t := by
  intro t e
  simp only [execBuddyTakeover, Host.Outcome.next.injEq] at e
  subst e
  try dsimp only
  with_reducible repeat' (first | assumption | apply onQuay_keeps | split | apply Keeps.fields)

theorem moveTask_keeps {a0 a1 a2} (h0 : Keeps b a2) :
    Keeps b (moveTask a0 a1 a2) := by
  unfold moveTask
  try dsimp only
  with_reducible repeat' (first | assumption | apply onT_keeps | apply onI_keeps | split)

theorem moveTasks_keeps {a0 a1} (h0 : Keeps b a1) :
    Keeps b (moveTasks a0 a1) := by
  unfold moveTasks
  try dsimp only
  with_reducible repeat' (first | assumption | apply moveTask_keeps | apply foldl_keeps | intro _)

theorem loseInstances_keeps {a0 a1} (h0 : Keeps b a1) :
    Keeps b (loseInstances a0 a1) := by
  unfold loseInstances
  try dsimp only
  repeat' (first
    | with_reducible assumption
    | with_reducible apply stopTasks_keeps
    | with_reducible apply endFailed_keeps
    | with_reducible apply foldl_keeps
    | split
    | intro _)

theorem isolateCore_keeps {a0 a1} (h0 : Keeps b a1) :
    Keeps b (isolateCore a0 a1) := by
  unfold isolateCore
  try dsimp only
  with_reducible repeat' (first | assumption | apply loseCore_keeps | apply onCore_keeps)

theorem groveOut_keeps {a0 a1} (h0 : Keeps b a1) :
    Keeps b (groveOut a0 a1) := by
  unfold groveOut
  try dsimp only
  repeat' (first
    | with_reducible assumption
    | with_reducible apply isolateCore_keeps
    | with_reducible apply moveTasks_keeps
    | with_reducible apply loseInstances_keeps
    | with_reducible apply foldl_keeps
    | intro _)

theorem retireGrove_keeps {a0 a1 a2} (h0 : Keeps b a2) :
    Keeps b (retireGrove a0 a1 a2) := by
  unfold retireGrove
  try dsimp only
  with_reducible repeat' (first | assumption | apply retire_keeps | apply groveOut_keeps)

theorem retireCore_keeps {a0 a1 a2} (h0 : Keeps b a2) :
    Keeps b (retireCore a0 a1 a2) := by
  unfold retireCore
  try dsimp only
  repeat' (first
    | with_reducible assumption
    | with_reducible apply retire_keeps
    | with_reducible apply isolateCore_keeps
    | with_reducible apply retireGrove_keeps
    | with_reducible apply vitalFailed_keeps
    | split)

theorem execCoreFailure_keeps {a0 a1 a2} (h0 : Keeps b a2) :
    ∀ t, execCoreFailure a0 a1 a2 = .next t → Keeps b t := by
  intro t e
  simp only [execCoreFailure, Host.Outcome.next.injEq] at e
  subst e
  try dsimp only
  with_reducible repeat' (first | assumption | apply retireCore_keeps | apply logRecord_keeps | split)

theorem execGroveFailure_keeps {a0 a1 a2} (h0 : Keeps b a2) :
    ∀ t, execGroveFailure a0 a1 a2 = .next t → Keeps b t := by
  intro t e
  simp only [execGroveFailure, Host.Outcome.next.injEq] at e
  subst e
  try dsimp only
  repeat' (first
    | with_reducible assumption
    | with_reducible apply retireGrove_keeps
    | with_reducible apply logRecord_keeps
    | with_reducible apply vitalFailed_keeps
    | split)

theorem engineOut_keeps {a0 a1} (h0 : Keeps b a1) :
    Keeps b (engineOut a0 a1) := by
  unfold engineOut
  try dsimp only
  repeat' (first
    | with_reducible assumption
    | with_reducible apply onEng_keeps
    | with_reducible apply logRecord_keeps
    | with_reducible apply withoutEngines_keeps
    | with_reducible apply foldl_keeps
    | split
    | intro _)

theorem channelOut_keeps {a0 a1} (h0 : Keeps b a1) :
    Keeps b (channelOut a0 a1) := by
  unfold channelOut
  try dsimp only
  with_reducible repeat' (first | assumption | apply onCh_keeps | split)

theorem retirePart_keeps {a0 a1 a2} (h0 : Keeps b a2) :
    Keeps b (retirePart a0 a1 a2) := by
  unfold retirePart
  try dsimp only
  repeat' (first
    | with_reducible assumption
    | with_reducible apply retire_keeps
    | with_reducible apply quayOut_keeps
    | with_reducible apply subchannelLost_keeps
    | with_reducible apply markRetired_keeps
    | with_reducible apply retireGrove_keeps
    | with_reducible apply vitalFailed_keeps
    | with_reducible apply bankLost_keeps
    | with_reducible apply engineOut_keeps
    | split)

theorem retireUnit_keeps {a0 a1 a2} (h0 : Keeps b a2) :
    Keeps b (retireUnit a0 a1 a2) := by
  unfold retireUnit
  try dsimp only
  repeat' (first
    | with_reducible assumption
    | with_reducible apply retirePart_keeps
    | with_reducible apply retireCore_keeps
    | with_reducible apply retire_keeps
    | with_reducible apply channelOut_keeps
    | with_reducible apply vitalFailed_keeps
    | with_reducible apply onSub_keeps
    | with_reducible apply markRetired_keeps
    | split)

theorem execUnitRetirement_keeps {a0 a1 a2} (h0 : Keeps b a2) :
    ∀ t, execUnitRetirement a0 a1 a2 = .next t → Keeps b t := by
  intro t e
  simp only [execUnitRetirement, Host.Outcome.next.injEq] at e
  subst e
  try dsimp only
  with_reducible repeat' (first | assumption | apply retireUnit_keeps | split)

theorem execUntoleratedFault_keeps {a0 a1} (h0 : Keeps b a1) :
    ∀ t, execUntoleratedFault a0 a1 = .next t → Keeps b t := by
  intro t e
  simp only [execUntoleratedFault, Host.Outcome.next.injEq] at e
  subst e
  try dsimp only
  repeat' (first
    | with_reducible assumption
    | with_reducible apply enterHold_keeps
    | with_reducible apply subchannelLost_keeps
    | with_reducible apply poisonLine_keeps
    | with_reducible apply countMem_keeps
    | with_reducible apply vitalFailed_keeps
    | split)

theorem execHarbourmasterLockstepMismatch_keeps {a0} (h0 : Keeps b a0) :
    ∀ t, execHarbourmasterLockstepMismatch a0 = .next t → Keeps b t := by
  intro t e
  simp only [execHarbourmasterLockstepMismatch, Host.Outcome.next.injEq] at e
  subst e
  try dsimp only
  repeat' (first
    | with_reducible assumption
    | with_reducible apply onSys_keeps
    | with_reducible apply enterHold_keeps
    | exact fun (_ : Sys) => Nat.le_refl _
    | split)

end Sys2Proof.Machine
end

