-- ==== Sys2Proof/Laws/KeepsModule.lean ====
section
/-! SUPPORT. One lemma per operation on the state: what the firmware, the modes, memory training, the self-tests and CAN keep. -/

namespace Sys2Proof.Machine

variable {b : State}

theorem noteLost_keeps {a0} (h0 : Keeps b a0) :
    Keeps b (noteLost a0) := by
  unfold noteLost
  try dsimp only
  with_reducible repeat' (first | assumption | apply logRecord_keeps | apply onLog_keeps | split)

theorem writeSlot_keeps {a0 a1} (h0 : Keeps b a1) :
    Keeps b (writeSlot a0 a1) := by
  unfold writeSlot
  try dsimp only
  with_reducible repeat' (first | assumption | apply onLog_keeps | apply onMram_keeps)

theorem logBecomesFull_keeps {a0} (h0 : Keeps b a0) :
    Keeps b (logBecomesFull a0) := by
  unfold logBecomesFull
  try dsimp only
  with_reducible repeat' (first | assumption | apply emcyRaise_keeps | apply raiseSource_keeps | apply onMram_keeps)

theorem execHeartwoodAppend_keeps {a0} (h0 : Keeps b a0) :
    ∀ t, execHeartwoodAppend a0 = .next t → Keeps b t := by
  intro t e
  simp only [execHeartwoodAppend, Host.Outcome.next.injEq] at e
  subst e
  try dsimp only
  repeat' (first
    | with_reducible assumption
    | with_reducible apply onLog_keeps
    | with_reducible apply onMram_keeps
    | with_reducible apply writeSlot_keeps
    | with_reducible apply noteLost_keeps
    | with_reducible apply logBecomesFull_keeps
    | split)

theorem clearLog_keeps {a0} (h0 : Keeps b a0) :
    Keeps b (clearLog a0) := by
  unfold clearLog
  try dsimp only
  repeat' (first
    | with_reducible assumption
    | with_reducible apply onMram_keeps
    | with_reducible apply writeSlot_keeps
    | with_reducible apply onLog_keeps
    | with_reducible apply raiseSource_keeps
    | with_reducible apply emcyClear_keeps)

theorem writeClear_keeps {a0 a1} (h0 : Keeps b a1) :
    KExc b (writeClear a0 a1) := by
  unfold writeClear
  try dsimp only
  with_reducible repeat' (first | assumption | apply clearLog_keeps | exact KExc.error | apply KExc.ok | split)

theorem noteBooted_keeps {a0 a1} (h0 : Keeps b a1) :
    Keeps b (noteBooted a0 a1) := by
  unfold noteBooted
  try dsimp only
  with_reducible repeat' (first | assumption | apply onFw_keeps)

theorem firmwareEnds_keeps {a0 a1} (h0 : Keeps b a1) :
    Keeps b (firmwareEnds a0 a1) := by
  unfold firmwareEnds
  try dsimp only
  with_reducible repeat' (first | assumption | apply raiseSource_keeps | apply onFw_keeps)

theorem flashBank_wf {f : Flash} (k : Fin 2) (ha : memWf 0xFF f.bankA) (hb : memWf 0xFF f.bankB) :
    memWf 0xFF (flashBank f k) := by
  unfold flashBank; split <;> assumption
theorem onInactive_keeps {b s : State} {g : List Host.Cell → List Host.Cell}
    (hg : ∀ m, memWf 0xFF m → memWf 0xFF (g m)) (h : Keeps b s) : Keeps b (onInactive g s) := by
  refine onFlash_keeps (fun f ha hb => ?_) h
  have := hg _ (flashBank_wf (inactiveBank s) ha hb)
  unfold setFlashBank
  split
  · exact ⟨this, hb⟩
  · exact ⟨ha, this⟩
theorem programPackage_keeps {b s : State} {o : Nat} {d : Bytes} {r : Bool} (h : Keeps b s) :
    Keeps b (programPackage o d r s) := by
  unfold programPackage
  dsimp only
  split
  · exact onFw_keeps (takeFresh_keeps h).snd
  · exact onInactive_keeps (fun _ hm => memWrite_wf _ _ hm) (onFw_keeps (takeFresh_keeps h).snd)
theorem startPackage_keeps {b s : State} (h : Keeps b s) : Keeps b (startPackage s) :=
  onInactive_keeps (fun _ _ => ⟨.nil, fun _ h => nomatch h⟩) (onFw_keeps h)
theorem committed_keeps {b s : State} {d : Bytes} (h : Keeps b s) : Keeps b (committed d s) := by
  unfold committed
  exact firmwareEnds_keeps (onFw_keeps (logRecord_keeps (onMram_keeps (extend_keeps
    (onInactive_keeps (fun _ hm => memWrite_wf _ _ hm) h)))))
theorem runCommit_keeps {b s : State} {r : Bool} (h : Keeps b s) : Keeps b (runCommit r s) := by
  unfold runCommit
  dsimp only
  split
  · exact firmwareEnds_keeps h
  · split
    · exact firmwareEnds_keeps h
    · split
      · exact firmwareEnds_keeps h
      · split
        · exact committed_keeps h
        · exact firmwareEnds_keeps (onInactive_keeps (fun _ hm => memWrite_wf _ _ hm) h)
theorem abortPackage_keeps {b s : State} (h : Keeps b s) : KExc b (abortPackage s) := by
  unfold abortPackage
  split
  · exact KExc.error
  · exact KExc.ok (onInactive_keeps (fun _ hm => memClear_wf _ _ hm) (onFw_keeps h))

theorem writePackage_keeps {a0 a1 a2 a3} (h0 : Keeps b a3) :
    KExc b (writePackage a0 a1 a2 a3) := by
  unfold writePackage
  try dsimp only
  repeat' (first
    | with_reducible assumption
    | with_reducible apply startPackage_keeps
    | with_reducible apply programPackage_keeps
    | with_reducible apply firmwareEnds_keeps
    | with_reducible apply onFw_keeps
    | with_reducible exact KExc.error
    | with_reducible apply KExc.ok
    | split)

theorem startCommit_keeps {a0 a1} (h0 : Keeps b a1) :
    KExc b (startCommit a0 a1) := by
  unfold startCommit
  try dsimp only
  repeat' (first
    | with_reducible assumption
    | with_reducible apply onFw_keeps
    | with_reducible apply runCommit_keeps
    | with_reducible exact KExc.error
    | with_reducible apply KExc.ok
    | split)

theorem releaseCommit_keeps {a0} (h0 : Keeps b a0) :
    Keeps b (releaseCommit a0) := by
  unfold releaseCommit
  try dsimp only
  with_reducible repeat' (first | assumption | apply runCommit_keeps | apply onFw_keeps | split)

theorem execGranuleFirstTouch_keeps {a0 a1 a2 a3} (h0 : Keeps b a3) :
    ∀ t, execGranuleFirstTouch a0 a1 a2 a3 = .next t → Keeps b t := by
  intro t e
  simp only [execGranuleFirstTouch, Host.Outcome.next.injEq] at e
  subst e
  try dsimp only
  with_reducible repeat' (first | assumption | apply setOwn_keeps | split)

theorem execZeroFillComplete_keeps {a0 a1} (h0 : Keeps b a1) :
    ∀ t, execZeroFillComplete a0 a1 = .next t → Keeps b t := by
  intro t e
  simp only [execZeroFillComplete, Host.Outcome.next.injEq] at e
  subst e
  try dsimp only
  with_reducible repeat' (first | assumption | apply fillGranule_keeps | split)

theorem writePart_keeps {a0 a1 a2} (h0 : Keeps b a2) :
    Keeps b (writePart a0 a1 a2) := by
  unfold writePart
  try dsimp only
  repeat' (first
    | with_reducible assumption
    | with_reducible apply fillGranule_keeps
    | with_reducible apply onDev_keeps
    | exact fun (_ : DevMem) h => h
    | split)

theorem execBackgroundInitialisation_keeps {a0 a1} (h0 : Keeps b a1) :
    ∀ t, execBackgroundInitialisation a0 a1 = .next t → Keeps b t := by
  intro t e
  simp only [execBackgroundInitialisation, Host.Outcome.next.injEq] at e
  subst e
  try dsimp only
  with_reducible repeat' (first | assumption | apply onSub_keeps | apply writePart_keeps | split)

theorem execOwnershipChange_keeps {a0 a1 a2 a3} (h0 : Keeps b a3) :
    ∀ t, execOwnershipChange a0 a1 a2 a3 = .next t → Keeps b t := by
  intro t e
  simp only [execOwnershipChange, Host.Outcome.next.injEq] at e
  subst e
  try dsimp only
  with_reducible repeat' (first | assumption | apply ownGranule_keeps | apply freeGranule_keeps | split)

theorem execRefresh_keeps {a0 a1 a2} (h0 : Keeps b a2) :
    ∀ t, execRefresh a0 a1 a2 = .next t → Keeps b t := by
  intro t e
  simp only [execRefresh, Host.Outcome.next.injEq] at e
  subst e
  try dsimp only
  with_reducible repeat' (first | assumption | apply onSub_keeps | split)

theorem execRefreshRateRead_keeps {a0 a1 a2} (h0 : Keeps b a2) :
    ∀ t, execRefreshRateRead a0 a1 a2 = .next t → Keeps b t := by
  intro t e
  simp only [execRefreshRateRead, Host.Outcome.next.injEq] at e
  subst e
  try dsimp only
  with_reducible repeat' (first | assumption | apply onSub_keeps | split)

theorem execTemperatureLimit_keeps {a0 a1 a2} (h0 : Keeps b a2) :
    ∀ t, execTemperatureLimit a0 a1 a2 = .next t → Keeps b t := by
  intro t e
  simp only [execTemperatureLimit, Host.Outcome.next.injEq] at e
  subst e
  try dsimp only
  repeat' (first
    | with_reducible assumption
    | with_reducible apply logRecord_keeps
    | with_reducible apply countMem_keeps
    | with_reducible apply onSub_keeps
    | split)

theorem execRowClose_keeps {a0 a1 a2} (h0 : Keeps b a2) :
    ∀ t, execRowClose a0 a1 a2 = .next t → Keeps b t := by
  intro t e
  simp only [execRowClose, Host.Outcome.next.injEq] at e
  subst e
  try dsimp only
  with_reducible repeat' (first | assumption | apply onSub_keeps | split)

theorem execWriteQueueDrain_keeps {a0 a1} (h0 : Keeps b a1) :
    ∀ t, execWriteQueueDrain a0 a1 = .next t → Keeps b t := by
  intro t e
  simp only [execWriteQueueDrain, Host.Outcome.next.injEq] at e
  subst e
  try dsimp only
  with_reducible repeat' (first | assumption | apply onSub_keeps | split)

theorem scrubLine_keeps {a0 a1 a2 a3} (h0 : Keeps b a3) :
    Keeps b (scrubLine a0 a1 a2 a3) := by
  unfold scrubLine
  try dsimp only
  repeat' (first
    | with_reducible assumption
    | with_reducible apply logRecord_keeps
    | with_reducible apply poisonLine_keeps
    | with_reducible apply countMem_keeps
    | with_reducible apply onDev_keeps
    | with_reducible apply noteCorrection_keeps
    | exact fun (_ : DevMem) h => h
    | split)

theorem execPatrolScrub_keeps {a0 a1 a2} (h0 : Keeps b a2) :
    ∀ t, execPatrolScrub a0 a1 a2 = .next t → Keeps b t := by
  intro t e
  simp only [execPatrolScrub, Host.Outcome.next.injEq] at e
  subst e
  try dsimp only
  repeat' (first
    | with_reducible assumption
    | with_reducible apply countMem_keeps
    | with_reducible apply onSub_keeps
    | with_reducible apply scrubLine_keeps
    | split)

theorem execCaParityAlert_keeps {a0 a1 a2} (h0 : Keeps b a2) :
    ∀ t, execCaParityAlert a0 a1 a2 = .next t → Keeps b t := by
  intro t e
  simp only [execCaParityAlert, Host.Outcome.next.injEq] at e
  subst e
  try dsimp only
  repeat' (first
    | with_reducible assumption
    | with_reducible apply countMem_keeps
    | with_reducible apply logRecord_keeps
    | with_reducible apply onSub_keeps
    | split)

theorem execCaRetraining_keeps {a0 a1 a2} (h0 : Keeps b a2) :
    ∀ t, execCaRetraining a0 a1 a2 = .next t → Keeps b t := by
  intro t e
  simp only [execCaRetraining, Host.Outcome.next.injEq] at e
  subst e
  try dsimp only
  repeat' (first
    | with_reducible assumption
    | with_reducible apply onSub_keeps
    | with_reducible apply countMem_keeps
    | with_reducible apply subchannelLost_keeps
    | split)

theorem execDqsTracking_keeps {a0 a1} (h0 : Keeps b a1) :
    ∀ t, execDqsTracking a0 a1 = .next t → Keeps b t := by
  intro t e
  simp only [execDqsTracking, Host.Outcome.next.injEq] at e
  subst e
  try dsimp only
  with_reducible repeat' (first | assumption | apply onSub_keeps | split)

theorem execZqCalibration_keeps {a0 a1} (h0 : Keeps b a1) :
    ∀ t, execZqCalibration a0 a1 = .next t → Keeps b t := by
  intro t e
  simp only [execZqCalibration, Host.Outcome.next.injEq] at e
  subst e
  try dsimp only
  with_reducible repeat' (first | assumption | apply onSub_keeps | split)

theorem enterReset_keeps {b s : State} {c : BitVec 8} (h : Keeps b s) : Keeps b (enterReset c s) :=
  syncPins_keeps ⟨fun hb => ⟨⟨⟨.nil, fun _ h => nomatch h⟩, fun _ h => nomatch h⟩, (h.1 hb).2⟩, h.2⟩
theorem toReset_keeps {b s : State} {c : BitVec 8} (h : Keeps b s) : Keeps b (toReset c s) := by
  unfold toReset
  split
  · exact syncPins_keeps h
  · exact enterReset_keeps h

theorem releaseReset_keeps {a0} (h0 : Keeps b a0) :
    Keeps b (releaseReset a0) := by
  unfold releaseReset
  try dsimp only
  repeat' (first
    | with_reducible assumption
    | with_reducible apply syncPins_keeps
    | with_reducible apply onPcie_keeps
    | with_reducible apply onSys_keeps
    | exact fun (_ : Sys) => Nat.le_refl _
    | split)

theorem execPowerInputRise_keeps {a0} (h0 : Keeps b a0) :
    ∀ t, execPowerInputRise a0 = .next t → Keeps b t := by
  intro t e
  simp only [execPowerInputRise, Host.Outcome.next.injEq] at e
  subst e
  try dsimp only
  repeat' (first
    | with_reducible assumption
    | with_reducible apply releaseReset_keeps
    | with_reducible apply onSys_keeps
    | exact fun (_ : Sys) => Nat.le_refl _
    | split)

theorem execPerstNHigh_keeps {a0} (h0 : Keeps b a0) :
    ∀ t, execPerstNHigh a0 = .next t → Keeps b t := by
  intro t e
  simp only [execPerstNHigh, Host.Outcome.next.injEq] at e
  subst e
  try dsimp only
  repeat' (first
    | with_reducible assumption
    | with_reducible apply releaseReset_keeps
    | with_reducible apply onSys_keeps
    | exact fun (_ : Sys) => Nat.le_refl _)

theorem execPerstNLow_keeps {a0} (h0 : Keeps b a0) :
    ∀ t, execPerstNLow a0 = .next t → Keeps b t := by
  intro t e
  simp only [execPerstNLow, Host.Outcome.next.injEq] at e
  subst e
  try dsimp only
  repeat' (first
    | with_reducible assumption
    | with_reducible apply toReset_keeps
    | with_reducible apply onSys_keeps
    | exact fun (_ : Sys) => Nat.le_refl _)

theorem execInputBelowReset_keeps {a0} (h0 : Keeps b a0) :
    ∀ t, execInputBelowReset a0 = .next t → Keeps b t := by
  intro t e
  simp only [execInputBelowReset, Host.Outcome.next.injEq] at e
  subst e
  try dsimp only
  repeat' (first
    | with_reducible assumption
    | with_reducible apply toReset_keeps
    | with_reducible apply onSys_keeps
    | with_reducible apply syncPins_keeps
    | exact fun (_ : Sys) => Nat.le_refl _)

theorem bootFrom_keeps {a0 a1} (h0 : Keeps b a1) :
    Keeps b (bootFrom a0 a1) := by
  unfold bootFrom
  try dsimp only
  with_reducible repeat' (first | assumption | apply extend_keeps | apply noteBooted_keeps | apply onFw_keeps)

theorem noteFallback_keeps {a0 a1} (h0 : Keeps b a1) :
    Keeps b (noteFallback a0 a1) := by
  unfold noteFallback
  try dsimp only
  with_reducible repeat' (first | assumption | apply logRecord_keeps | split)

theorem romHold_keeps {a0 a1} (h0 : Keeps b a1) :
    Keeps b (romHold a0 a1) := by
  unfold romHold
  try dsimp only
  repeat' (first
    | with_reducible assumption
    | with_reducible apply noteBooted_keeps
    | with_reducible apply onFw_keeps
    | with_reducible apply onSys_keeps
    | with_reducible apply enterHold_keeps
    | exact fun (_ : Sys) => Nat.le_refl _
    | split)

theorem selectBank_keeps {a0} (h0 : Keeps b a0) :
    Keeps b (selectBank a0) := by
  unfold selectBank
  try dsimp only
  repeat' (first
    | with_reducible assumption
    | with_reducible apply bootFrom_keeps
    | with_reducible apply noteFallback_keeps
    | with_reducible apply romHold_keeps
    | split)

theorem execRomBankSelect_keeps {a0 a1 a2} (h0 : Keeps b a2) :
    ∀ t, execRomBankSelect a0 a1 a2 = .next t → Keeps b t := by
  intro t e
  simp only [execRomBankSelect, Host.Outcome.next.injEq] at e
  subst e
  try dsimp only
  repeat' (first
    | with_reducible assumption
    | with_reducible apply enterHold_keeps
    | with_reducible apply selectBank_keeps
    | with_reducible apply vitalFailed_keeps
    | split)

theorem measureSection_keeps {a0 a1} (h0 : Keeps b a1) :
    Keeps b (measureSection a0 a1) := by
  unfold measureSection
  try dsimp only
  with_reducible repeat' (first | assumption | apply extend_keeps)

theorem readRetired_keeps {a0} (h0 : Keeps b a0) :
    Keeps b (readRetired a0) := by
  unfold readRetired
  try dsimp only
  with_reducible repeat' (first | assumption | apply onMram_keeps | split)

theorem applyRetired_keeps {a0} (h0 : Keeps b a0) :
    Keeps b (applyRetired a0) := by
  unfold applyRetired
  try dsimp only
  repeat' (first
    | with_reducible assumption
    | with_reducible apply onPresent_keeps
    | with_reducible apply onQuay_keeps
    | with_reducible apply onBank_keeps
    | with_reducible apply onEng_keeps
    | with_reducible apply onCore_keeps
    | with_reducible apply foldl_keeps
    | intro _)

theorem ownRegions_keeps {a0} (h0 : Keeps b a0) :
    Keeps b (ownRegions a0) := by
  unfold ownRegions
  try dsimp only
  with_reducible repeat' (first | assumption | apply onCore_keeps)

theorem canInit_keeps {a0} (h0 : Keeps b a0) :
    Keeps b (canInit a0) := by
  unfold canInit
  try dsimp only
  with_reducible repeat' (first | assumption | apply onCan_keeps)

theorem startTisum_keeps {a0} (h0 : Keeps b a0) :
    Keeps b (startTisum a0) := by
  unfold startTisum
  try dsimp only
  repeat' (first
    | with_reducible assumption
    | with_reducible apply onLog_keeps
    | with_reducible apply onSys_keeps
    | with_reducible apply logRecord_keeps
    | with_reducible apply loadSettings_keeps
    | with_reducible apply syncPins_keeps
    | with_reducible apply canInit_keeps
    | with_reducible apply onEng_keeps
    | with_reducible apply extend_keeps
    | with_reducible apply measureSection_keeps
    | with_reducible apply applyRetired_keeps
    | with_reducible apply readRetired_keeps
    | with_reducible apply ownRegions_keeps
    | with_reducible apply setStruct_keeps
    | exact fun (_ : Sys) => Nat.le_refl _
    | split)

theorem countBootFail_keeps {a0} (h0 : Keeps b a0) :
    Keeps b (countBootFail a0) := by
  unfold countBootFail
  try dsimp only
  with_reducible repeat' (first | assumption | apply onMram_keeps)

theorem execTisumStart_keeps {a0} (h0 : Keeps b a0) :
    ∀ t, execTisumStart a0 = .next t → Keeps b t := by
  intro t e
  simp only [execTisumStart, Host.Outcome.next.injEq] at e
  subst e
  try dsimp only
  repeat' (first
    | with_reducible assumption
    | with_reducible apply startTisum_keeps
    | with_reducible apply toReset_keeps
    | with_reducible apply countBootFail_keeps
    | split)

theorem execBootWatchdogExpiry_keeps {a0} (h0 : Keeps b a0) :
    ∀ t, execBootWatchdogExpiry a0 = .next t → Keeps b t := by
  intro t e
  simp only [execBootWatchdogExpiry, Host.Outcome.next.injEq] at e
  subst e
  try dsimp only
  with_reducible repeat' (first | assumption | apply toReset_keeps | apply countBootFail_keeps | split)

theorem retireAtBoot_keeps {a0 a1 a2} (h0 : Keeps b a2) :
    Keeps b (retireAtBoot a0 a1 a2) := by
  unfold retireAtBoot
  try dsimp only
  repeat' (first
    | with_reducible assumption
    | with_reducible apply onSub_keeps
    | with_reducible apply markRetired_keeps
    | with_reducible apply onQuay_keeps
    | with_reducible apply onPresent_keeps
    | with_reducible apply retire_keeps
    | with_reducible apply logRecord_keeps
    | split)

theorem noteTraining_keeps {a0 a1 a2} (h0 : Keeps b a1) :
    Keeps b (noteTraining a0 a1 a2) := by
  unfold noteTraining
  try dsimp only
  repeat' (first
    | with_reducible assumption
    | with_reducible apply onDev_keeps
    | with_reducible apply logRecord_keeps
    | exact fun (_ : DevMem) h => h
    | split)

theorem execDramTrainingComplete_keeps {a0 a1} (h0 : Keeps b a1) :
    ∀ t, execDramTrainingComplete a0 a1 = .next t → Keeps b t := by
  intro t e
  simp only [execDramTrainingComplete, Host.Outcome.next.injEq] at e
  subst e
  try dsimp only
  repeat' (first
    | with_reducible assumption
    | with_reducible apply noteTraining_keeps
    | with_reducible apply logRecord_keeps
    | with_reducible apply enterHold_keeps
    | with_reducible apply retireAtBoot_keeps
    | with_reducible apply onSys_keeps
    | with_reducible apply onDev_keeps
    | exact fun (_ : Sys) => Nat.le_refl _
    | exact fun (_ : DevMem) h => h
    | with_reducible apply foldl_keeps
    | split
    | intro _)

theorem partReturns_keeps {a0 a1} (h0 : Keeps b a1) :
    Keeps b (partReturns a0 a1) := by
  unfold partReturns
  try dsimp only
  repeat' (first
    | with_reducible assumption
    | with_reducible apply returnUnit_keeps
    | with_reducible apply onQuay_keeps
    | with_reducible apply onBank_keeps
    | with_reducible apply onEng_keeps
    | split)

theorem coreReturns_keeps {a0 a1} (h0 : Keeps b a1) :
    Keeps b (coreReturns a0 a1) := by
  unfold coreReturns
  try dsimp only
  with_reducible repeat' (first | assumption | apply onCore_keeps | apply returnUnit_keeps)

theorem returnPassed_keeps {a0 a1 a2} (h0 : Keeps b a2) :
    Keeps b (returnPassed a0 a1 a2) := by
  unfold returnPassed
  try dsimp only
  repeat' (first
    | with_reducible assumption
    | with_reducible apply coreReturns_keeps
    | with_reducible apply partReturns_keeps
    | with_reducible apply foldl_keeps
    | intro _)

theorem retireFailed_keeps {a0 a1 a2} (h0 : Keeps b a2) :
    Keeps b (retireFailed a0 a1 a2) := by
  unfold retireFailed
  try dsimp only
  with_reducible repeat' (first | assumption | apply retireUnit_keeps | apply foldl_keeps | split | intro _)

theorem writeTraining_keeps {a0} (h0 : Keeps b a0) :
    Keeps b (writeTraining a0) := by
  unfold writeTraining
  try dsimp only
  repeat' (first
    | with_reducible assumption
    | with_reducible apply onDev_keeps
    | with_reducible apply onFlash_keeps
    | exact fun (_ : DevMem) h => h
    | exact fun (_ : Flash) h k => ⟨h, k⟩
    | split)

theorem intoMaintenance_keeps {a0 a1} (h0 : Keeps b a1) :
    Keeps b (intoMaintenance a0 a1) := by
  unfold intoMaintenance
  try dsimp only
  with_reducible repeat' (first | assumption | apply setStruct_keeps | apply extend_keeps | apply changeMode_keeps)

theorem intoService_keeps {a0 a1} (h0 : Keeps b a1) :
    Keeps b (intoService a0 a1) := by
  unfold intoService
  try dsimp only
  repeat' (first
    | with_reducible assumption
    | with_reducible apply resumeQueues_keeps
    | with_reducible apply changeMode_keeps
    | with_reducible apply setStruct_keeps)

theorem bootEnds_keeps {a0 a1} (h0 : Keeps b a1) :
    Keeps b (bootEnds a0 a1) := by
  unfold bootEnds
  try dsimp only
  repeat' (first
    | with_reducible assumption
    | with_reducible apply onSys_keeps
    | with_reducible apply onMram_keeps
    | with_reducible apply resumeQueues_keeps
    | with_reducible apply intoMaintenance_keeps
    | with_reducible apply intoService_keeps
    | with_reducible apply writeTraining_keeps
    | with_reducible apply logRecord_keeps
    | exact fun (_ : Sys) => Nat.le_refl _
    | split)

theorem execServiceReady_keeps {a0 a1 a2 a3} (h0 : Keeps b a3) :
    ∀ t, execServiceReady a0 a1 a2 a3 = .next t → Keeps b t := by
  intro t e
  simp only [execServiceReady, Host.Outcome.next.injEq] at e
  subst e
  try dsimp only
  repeat' (first
    | with_reducible assumption
    | with_reducible apply returnPassed_keeps
    | with_reducible apply retireFailed_keeps
    | with_reducible apply bootEnds_keeps
    | split)

theorem startPass_keeps {a0 a1 a2 a3} (h0 : Keeps b a3) :
    Keeps b (startPass a0 a1 a2 a3) := by
  unfold startPass
  try dsimp only
  with_reducible repeat' (first | assumption | apply onBist_keeps | apply logRecord_keeps)

theorem endPass_keeps {a0 a1} (h0 : Keeps b a1) :
    Keeps b (endPass a0 a1) := by
  unfold endPass
  try dsimp only
  repeat' (first
    | with_reducible assumption
    | with_reducible apply raiseSource_keeps
    | with_reducible apply logRecord_keeps
    | with_reducible apply onBist_keeps
    | split)

theorem settlePass_keeps {a0} (h0 : Keeps b a0) :
    Keeps b (settlePass a0) := by
  unfold settlePass
  try dsimp only
  with_reducible repeat' (first | assumption | apply onBist_keeps | apply endPass_keeps | split)

theorem countSessions_keeps {a0 a1} (h0 : Keeps b a1) :
    Keeps b (countSessions a0 a1) := by
  unfold countSessions
  try dsimp only
  with_reducible repeat' (first | assumption | apply onBist_keeps)

theorem countMismatch_keeps {a0 a1 a2} (h0 : Keeps b a2) :
    Keeps b (countMismatch a0 a1 a2) := by
  unfold countMismatch
  try dsimp only
  with_reducible repeat' (first | assumption | apply onBist_keeps)

theorem handOver_keeps {a0 a1} (h0 : Keeps b a1) :
    Keeps b (handOver a0 a1) := by
  unfold handOver
  try dsimp only
  repeat' (first
    | with_reducible assumption
    | with_reducible apply finishHand_keeps
    | with_reducible apply foldl_keeps
    | intro _
    | with_reducible apply Keeps.fields)

theorem moveWork_keeps {a0 a1} (h0 : Keeps b a1) :
    Keeps b (moveWork a0 a1) := by
  unfold moveWork
  try dsimp only
  repeat' (first
    | with_reducible assumption
    | with_reducible apply handOver_keeps
    | with_reducible apply moveTasks_keeps
    | with_reducible apply recallSlot_keeps
    | with_reducible apply sendAgain_keeps
    | with_reducible apply onBank_keeps
    | with_reducible apply foldl_keeps
    | split
    | intro _)

theorem sessionReturns_keeps {a0 a1} (h0 : Keeps b a1) :
    Keeps b (sessionReturns a0 a1) := by
  unfold sessionReturns
  try dsimp only
  with_reducible repeat' (first | assumption | apply onBank_keeps | split)

theorem segmentsRun_keeps {a0 a1 a2} (h0 : Keeps b a2) :
    Keeps b (segmentsRun a0 a1 a2) := by
  unfold segmentsRun
  try dsimp only
  with_reducible repeat' (first | assumption | apply onBist_keeps)

theorem sessionFails_keeps {a0 a1} (h0 : Keeps b a1) :
    Keeps b (sessionFails a0 a1) := by
  unfold sessionFails
  try dsimp only
  with_reducible repeat' (first | assumption | apply onBist_keeps | apply retirePart_keeps)

theorem sessionOutcome_keeps {a0 a1 a2 a3 a4} (h0 : Keeps b a4) :
    Keeps b (sessionOutcome a0 a1 a2 a3 a4) := by
  unfold sessionOutcome
  try dsimp only
  repeat' (first
    | with_reducible assumption
    | with_reducible apply logRecord_keeps
    | with_reducible apply sessionReturns_keeps
    | with_reducible apply segmentsRun_keeps
    | with_reducible apply countSessions_keeps
    | with_reducible apply countMismatch_keeps
    | with_reducible apply sessionFails_keeps
    | split)

theorem sessionWaits_keeps {a0 a1} (h0 : Keeps b a1) :
    Keeps b (sessionWaits a0 a1) := by
  unfold sessionWaits
  try dsimp only
  with_reducible repeat' (first | assumption | apply onBist_keeps)

theorem passFor_keeps {a0} (h0 : Keeps b a0) :
    KOpt b (passFor a0) := by
  unfold passFor
  try dsimp only
  with_reducible repeat' (first | assumption | apply startPass_keeps | exact KOpt.none | apply KOpt.some | split)

theorem execSelfTestSession_keeps {a0 a1 a2 a3 a4} (h0 : Keeps b a4) :
    ∀ t, execSelfTestSession a0 a1 a2 a3 a4 = .next t → Keeps b t := by
  intro t e
  simp only [execSelfTestSession, Host.Outcome.next.injEq] at e
  subst e
  try dsimp only
  repeat' (first
    | with_reducible assumption
    | with_reducible apply passFor_keeps
    | with_reducible apply moveWork_keeps
    | with_reducible apply settlePass_keeps
    | with_reducible apply sessionOutcome_keeps
    | with_reducible apply sessionWaits_keeps
    | split
    | (with_reducible apply KOpt.of; rotate_left; (with_reducible assumption)))

theorem execSessionRetry_keeps {a0 a1} (h0 : Keeps b a1) :
    ∀ t, execSessionRetry a0 a1 = .next t → Keeps b t := by
  intro t e
  simp only [execSessionRetry, Host.Outcome.next.injEq] at e
  subst e
  try dsimp only
  with_reducible repeat' (first | assumption | apply onBist_keeps)

theorem execPassLate_keeps {a0} (h0 : Keeps b a0) :
    ∀ t, execPassLate a0 = .next t → Keeps b t := by
  intro t e
  simp only [execPassLate, Host.Outcome.next.injEq] at e
  subst e
  try dsimp only
  repeat' (first
    | with_reducible assumption
    | with_reducible apply logRecord_keeps
    | with_reducible apply settlePass_keeps
    | with_reducible apply onBist_keeps
    | split)

theorem recordMisses_keeps {a0 a1} (h0 : Keeps b a1) :
    Keeps b (recordMisses a0 a1) := by
  unfold recordMisses
  try dsimp only
  with_reducible repeat' (first | assumption | apply takeFresh_keeps | apply logRecord_keeps | apply KPair.snd)

theorem fullPart_keeps {a0 a1 a2} (h0 : Keeps b a1) :
    Keeps b (fullPart a0 a1 a2) := by
  unfold fullPart
  try dsimp only
  repeat' (first
    | with_reducible assumption
    | with_reducible apply countSessions_keeps
    | with_reducible apply onBist_keeps
    | with_reducible apply recordMisses_keeps
    | with_reducible apply countMismatch_keeps
    | with_reducible apply retirePart_keeps
    | split)

theorem subPasses_keeps {a0 a1 a2 a3} (h0 : Keeps b a2) :
    Keeps b (subPasses a0 a1 a2 a3) := by
  unfold subPasses
  try dsimp only
  repeat' (first
    | with_reducible assumption
    | with_reducible apply onMram_keeps
    | with_reducible apply copyRetired_keeps
    | with_reducible apply logRecord_keeps
    | split)

theorem fullPass_keeps {a0 a1 a2 a3} (h0 : Keeps b a3) :
    Keeps b (fullPass a0 a1 a2 a3) := by
  unfold fullPass
  try dsimp only
  repeat' (first
    | with_reducible assumption
    | with_reducible apply fullPart_keeps
    | with_reducible apply startPass_keeps
    | with_reducible apply retireUnit_keeps
    | with_reducible apply onBist_keeps
    | with_reducible apply subPasses_keeps
    | with_reducible apply endPass_keeps
    | with_reducible apply foldl_keeps
    | split
    | intro _)

theorem requestFull_keeps {a0 a1 a2 a3} (h0 : Keeps b a3) :
    KExc b (requestFull a0 a1 a2 a3) := by
  unfold requestFull
  try dsimp only
  with_reducible repeat' (first | assumption | apply fullPass_keeps | exact KExc.error | apply KExc.ok | split)

theorem requestPass_keeps {a0} (h0 : Keeps b a0) :
    KExc b (requestPass a0) := by
  unfold requestPass
  try dsimp only
  repeat' (first
    | with_reducible assumption
    | with_reducible apply settlePass_keeps
    | with_reducible apply startPass_keeps
    | with_reducible exact KExc.error
    | with_reducible apply KExc.ok
    | split)

theorem requestAbort_keeps {a0} (h0 : Keeps b a0) :
    KExc b (requestAbort a0) := by
  unfold requestAbort
  try dsimp only
  with_reducible repeat' (first | assumption | apply endPass_keeps | exact KExc.error | apply KExc.ok | split)

theorem requestMaintenance_keeps {a0} (h0 : Keeps b a0) :
    KExc b (requestMaintenance a0) := by
  unfold requestMaintenance
  try dsimp only
  repeat' (first
    | with_reducible assumption
    | with_reducible apply onSys_keeps
    | with_reducible apply discardPushed_keeps
    | exact fun (_ : Sys) => Nat.le_refl _
    | with_reducible apply foldl_keeps
    | with_reducible exact KExc.error
    | with_reducible apply KExc.ok
    | split
    | intro _)

theorem execMaintenanceEntry_keeps {a0} (h0 : Keeps b a0) :
    ∀ t, execMaintenanceEntry a0 = .next t → Keeps b t := by
  intro t e
  simp only [execMaintenanceEntry, Host.Outcome.next.injEq] at e
  subst e
  try dsimp only
  repeat' (first
    | with_reducible assumption
    | with_reducible apply endPass_keeps
    | with_reducible apply endModeRequest_keeps
    | with_reducible apply intoMaintenance_keeps
    | split)

theorem takePassed_keeps {a0} (h0 : Keeps b a0) :
    Keeps b (takePassed a0) := by
  unfold takePassed
  try dsimp only
  with_reducible repeat' (first | assumption | apply onBist_keeps | apply returnPassed_keeps)

theorem requestLeave_keeps {a0} (h0 : Keeps b a0) :
    KExc b (requestLeave a0) := by
  unfold requestLeave
  try dsimp only
  repeat' (first
    | with_reducible assumption
    | with_reducible apply endModeRequest_keeps
    | with_reducible apply intoService_keeps
    | with_reducible apply takePassed_keeps
    | with_reducible apply onSys_keeps
    | exact fun (_ : Sys) => Nat.le_refl _
    | with_reducible exact KExc.error
    | with_reducible apply KExc.ok
    | split)

theorem execInputBelowWarning_keeps {a0 a1} (h0 : Keeps b a1) :
    ∀ t, execInputBelowWarning a0 a1 = .next t → Keeps b t := by
  intro t e
  simp only [execInputBelowWarning, Host.Outcome.next.injEq] at e
  subst e
  try dsimp only
  repeat' (first
    | with_reducible assumption
    | with_reducible apply onSys_keeps
    | with_reducible apply emcyRaise_keeps
    | with_reducible apply raiseSource_keeps
    | with_reducible apply logRecord_keeps
    | exact fun (_ : Sys) => Nat.le_refl _
    | split)

theorem execWarningEpisodeEnd_keeps {a0 a1 a2} (h0 : Keeps b a2) :
    ∀ t, execWarningEpisodeEnd a0 a1 a2 = .next t → Keeps b t := by
  intro t e
  simp only [execWarningEpisodeEnd, Host.Outcome.next.injEq] at e
  subst e
  try dsimp only
  repeat' (first
    | with_reducible assumption
    | with_reducible apply logRecord_keeps
    | with_reducible apply emcyClear_keeps
    | with_reducible apply onSys_keeps
    | with_reducible apply releaseCommit_keeps
    | with_reducible apply releaseSave_keeps
    | with_reducible apply copyRetired_keeps
    | with_reducible apply writeTraining_keeps
    | exact fun (_ : Sys) => Nat.le_refl _
    | split)

theorem execThermalLevelChange_keeps {a0 a1 a2 a3} (h0 : Keeps b a3) :
    ∀ t, execThermalLevelChange a0 a1 a2 a3 = .next t → Keeps b t := by
  intro t e
  simp only [execThermalLevelChange, Host.Outcome.next.injEq] at e
  subst e
  try dsimp only
  repeat' (first
    | with_reducible assumption
    | with_reducible apply syncPins_keeps
    | with_reducible apply onSys_keeps
    | with_reducible apply raiseSource_keeps
    | with_reducible apply logRecord_keeps
    | with_reducible apply emcyRaise_keeps
    | with_reducible apply emcyClear_keeps
    | exact fun (_ : Sys) => Nat.le_refl _
    | split)

theorem execJtagAttach_keeps {a0 a1} (h0 : Keeps b a1) :
    ∀ t, execJtagAttach a0 a1 = .next t → Keeps b t := by
  intro t e
  simp only [execJtagAttach, Host.Outcome.next.injEq] at e
  subst e
  try dsimp only
  repeat' (first
    | with_reducible assumption
    | with_reducible apply logRecord_keeps
    | with_reducible apply extend_keeps
    | with_reducible apply onSys_keeps
    | exact fun (_ : Sys) => Nat.le_refl _
    | split)

theorem emcyRelease_keeps {a0} (h0 : Keeps b a0) :
    Keeps b (emcyRelease a0) := by
  unfold emcyRelease
  try dsimp only
  repeat' (first
    | with_reducible assumption
    | with_reducible apply onCan_keeps
    | with_reducible apply canSend_keeps
    | with_reducible apply foldl_keeps
    | split
    | intro _)

theorem execNmtStart_keeps {a0} (h0 : Keeps b a0) :
    ∀ t, execNmtStart a0 = .next t → Keeps b t := by
  intro t e
  simp only [execNmtStart, Host.Outcome.next.injEq] at e
  subst e
  try dsimp only
  with_reducible repeat' (first | assumption | apply onCan_keeps | split)

theorem execNmtStop_keeps {a0} (h0 : Keeps b a0) :
    ∀ t, execNmtStop a0 = .next t → Keeps b t := by
  intro t e
  simp only [execNmtStop, Host.Outcome.next.injEq] at e
  subst e
  try dsimp only
  with_reducible repeat' (first | assumption | apply onCan_keeps | split)

theorem execNmtEnterPreOperational_keeps {a0} (h0 : Keeps b a0) :
    ∀ t, execNmtEnterPreOperational a0 = .next t → Keeps b t := by
  intro t e
  simp only [execNmtEnterPreOperational, Host.Outcome.next.injEq] at e
  subst e
  try dsimp only
  with_reducible repeat' (first | assumption | apply onCan_keeps | split)

theorem communicationReset_keeps {a0} (h0 : Keeps b a0) :
    Keeps b (communicationReset a0) := by
  unfold communicationReset
  try dsimp only
  with_reducible repeat' (first | assumption | apply onDict_keeps)

theorem execNmtResetCommunication_keeps {a0} (h0 : Keeps b a0) :
    ∀ t, execNmtResetCommunication a0 = .next t → Keeps b t := by
  intro t e
  simp only [execNmtResetCommunication, Host.Outcome.next.injEq] at e
  subst e
  try dsimp only
  repeat' (first
    | with_reducible assumption
    | with_reducible apply groupUpdate_keeps
    | with_reducible apply canInit_keeps
    | with_reducible apply communicationReset_keeps
    | split)

theorem execNmtResetNode_keeps {a0} (h0 : Keeps b a0) :
    ∀ t, execNmtResetNode a0 = .next t → Keeps b t := by
  intro t e
  simp only [execNmtResetNode, Host.Outcome.next.injEq] at e
  subst e
  try dsimp only
  repeat' (first
    | with_reducible assumption
    | with_reducible apply onDict_keeps
    | with_reducible apply groupUpdate_keeps
    | with_reducible apply canInit_keeps
    | with_reducible apply communicationReset_keeps
    | split)

theorem execInitialisationDone_keeps {a0} (h0 : Keeps b a0) :
    ∀ t, execInitialisationDone a0 = .next t → Keeps b t := by
  intro t e
  simp only [execInitialisationDone, Host.Outcome.next.injEq] at e
  subst e
  try dsimp only
  repeat' (first
    | with_reducible assumption
    | with_reducible apply emcyRelease_keeps
    | with_reducible apply onCan_keeps
    | with_reducible apply canSend_keeps
    | split)

theorem execHeartbeat_keeps {a0} (h0 : Keeps b a0) :
    ∀ t, execHeartbeat a0 = .next t → Keeps b t := by
  intro t e
  simp only [execHeartbeat, Host.Outcome.next.injEq] at e
  subst e
  try dsimp only
  with_reducible repeat' (first | assumption | apply canSend_keeps | split)

theorem execGroupTpdoReceived_keeps {a0 a1 a2} (h0 : Keeps b a2) :
    ∀ t, execGroupTpdoReceived a0 a1 a2 = .next t → Keeps b t := by
  intro t e
  simp only [execGroupTpdoReceived, Host.Outcome.next.injEq] at e
  subst e
  try dsimp only
  with_reducible repeat' (first | assumption | apply groupUpdate_keeps | apply onDict_keeps | split)

theorem execPeerTimeout_keeps {a0 a1} (h0 : Keeps b a1) :
    ∀ t, execPeerTimeout a0 a1 = .next t → Keeps b t := by
  intro t e
  simp only [execPeerTimeout, Host.Outcome.next.injEq] at e
  subst e
  try dsimp only
  with_reducible repeat' (first | assumption | apply groupUpdate_keeps | apply onDict_keeps | split)

theorem setCalendar_keeps {a0 a1 a2} (h0 : Keeps b a2) :
    Keeps b (setCalendar a0 a1 a2) := by
  unfold setCalendar
  try dsimp only
  repeat' (first
    | with_reducible assumption
    | with_reducible apply logRecord_keeps
    | with_reducible apply onSys_keeps
    | exact fun (_ : Sys) => Nat.le_refl _)

theorem execTimeReceived_keeps {a0 a1 a2} (h0 : Keeps b a2) :
    ∀ t, execTimeReceived a0 a1 a2 = .next t → Keeps b t := by
  intro t e
  simp only [execTimeReceived, Host.Outcome.next.injEq] at e
  subst e
  try dsimp only
  with_reducible repeat' (first | assumption | apply setCalendar_keeps | split)

theorem execTimeProduce_keeps {a0} (h0 : Keeps b a0) :
    ∀ t, execTimeProduce a0 = .next t → Keeps b t := by
  intro t e
  simp only [execTimeProduce, Host.Outcome.next.injEq] at e
  subst e
  try dsimp only
  with_reducible repeat' (first | assumption | apply canSend_keeps | split)

theorem writeCalendar_keeps {a0 a1} (h0 : Keeps b a1) :
    KExc b (writeCalendar a0 a1) := by
  unfold writeCalendar
  try dsimp only
  with_reducible repeat' (first | assumption | apply setCalendar_keeps | exact KExc.error | apply KExc.ok | split)

theorem execSyncReceived_keeps {a0 a1} (h0 : Keeps b a1) :
    ∀ t, execSyncReceived a0 a1 = .next t → Keeps b t := by
  intro t e
  simp only [execSyncReceived, Host.Outcome.next.injEq] at e
  subst e
  try dsimp only
  with_reducible repeat' (first | assumption | apply logRecord_keeps | apply onDict_keeps | split)

theorem execCanErrorPassive_keeps {a0 a1} (h0 : Keeps b a1) :
    ∀ t, execCanErrorPassive a0 a1 = .next t → Keeps b t := by
  intro t e
  simp only [execCanErrorPassive, Host.Outcome.next.injEq] at e
  subst e
  try dsimp only
  repeat' (first
    | with_reducible assumption
    | with_reducible apply onCan_keeps
    | with_reducible apply emcyRaise_keeps
    | with_reducible apply emcyClear_keeps
    | split)

theorem execCanReceiveOverrun_keeps {a0} (h0 : Keeps b a0) :
    ∀ t, execCanReceiveOverrun a0 = .next t → Keeps b t := by
  intro t e
  simp only [execCanReceiveOverrun, Host.Outcome.next.injEq] at e
  subst e
  try dsimp only
  with_reducible repeat' (first | assumption | apply emcyOnce_keeps | split)

theorem execCanBusOff_keeps {a0} (h0 : Keeps b a0) :
    ∀ t, execCanBusOff a0 = .next t → Keeps b t := by
  intro t e
  simp only [execCanBusOff, Host.Outcome.next.injEq] at e
  subst e
  try dsimp only
  with_reducible repeat' (first | assumption | apply onCan_keeps | apply emcyClear_keeps | split)

theorem execBusOffRecovery_keeps {a0} (h0 : Keeps b a0) :
    ∀ t, execBusOffRecovery a0 = .next t → Keeps b t := by
  intro t e
  simp only [execBusOffRecovery, Host.Outcome.next.injEq] at e
  subst e
  try dsimp only
  repeat' (first
    | with_reducible assumption
    | with_reducible apply emcyOnce_keeps
    | with_reducible apply emcyRelease_keeps
    | with_reducible apply onCan_keeps
    | split)

theorem execEmcyInhibitExpiry_keeps {a0} (h0 : Keeps b a0) :
    ∀ t, execEmcyInhibitExpiry a0 = .next t → Keeps b t := by
  intro t e
  simp only [execEmcyInhibitExpiry, Host.Outcome.next.injEq] at e
  subst e
  try dsimp only
  with_reducible repeat' (first | assumption | apply emcyRelease_keeps | apply onCan_keeps)

theorem lssAnswer_keeps {a0 a1 a2} (h0 : Keeps b a2) :
    Keeps b (lssAnswer a0 a1 a2) := by
  unfold lssAnswer
  try dsimp only
  with_reducible repeat' (first | assumption | apply canSend_keeps)

theorem execSwitchStateGlobal_keeps {a0 a1} (h0 : Keeps b a1) :
    ∀ t, execSwitchStateGlobal a0 a1 = .next t → Keeps b t := by
  intro t e
  simp only [execSwitchStateGlobal, Host.Outcome.next.injEq] at e
  subst e
  try dsimp only
  with_reducible repeat' (first | assumption | apply onCan_keeps | split)

theorem execSwitchStateSelective_keeps {a0 a1 a2 a3 a4} (h0 : Keeps b a4) :
    ∀ t, execSwitchStateSelective a0 a1 a2 a3 a4 = .next t → Keeps b t := by
  intro t e
  simp only [execSwitchStateSelective, Host.Outcome.next.injEq] at e
  subst e
  try dsimp only
  with_reducible repeat' (first | assumption | apply lssAnswer_keeps | apply onCan_keeps | split)

theorem lssSet_keeps {a0 a1 a2} (h0 : Keeps b a2) :
    Keeps b (lssSet a0 a1 a2) := by
  unfold lssSet
  try dsimp only
  with_reducible repeat' (first | assumption | apply onDict_keeps)

theorem execConfigureNodeId_keeps {a0 a1} (h0 : Keeps b a1) :
    ∀ t, execConfigureNodeId a0 a1 = .next t → Keeps b t := by
  intro t e
  simp only [execConfigureNodeId, Host.Outcome.next.injEq] at e
  subst e
  try dsimp only
  with_reducible repeat' (first | assumption | apply lssAnswer_keeps | apply lssSet_keeps | split)

theorem execConfigureBitTiming_keeps {a0 a1 a2} (h0 : Keeps b a2) :
    ∀ t, execConfigureBitTiming a0 a1 a2 = .next t → Keeps b t := by
  intro t e
  simp only [execConfigureBitTiming, Host.Outcome.next.injEq] at e
  subst e
  try dsimp only
  with_reducible repeat' (first | assumption | apply lssAnswer_keeps | apply lssSet_keeps | split)

theorem execActivateBitTiming_keeps {a0 a1} (h0 : Keeps b a1) :
    ∀ t, execActivateBitTiming a0 a1 = .next t → Keeps b t := by
  intro t e
  simp only [execActivateBitTiming, Host.Outcome.next.injEq] at e
  subst e
  try dsimp only
  with_reducible repeat' (first | assumption)

theorem execStoreConfiguration_keeps {a0} (h0 : Keeps b a0) :
    ∀ t, execStoreConfiguration a0 = .next t → Keeps b t := by
  intro t e
  simp only [execStoreConfiguration, Host.Outcome.next.injEq] at e
  subst e
  try dsimp only
  with_reducible repeat' (first | assumption | apply lssAnswer_keeps | apply startSave_keeps | split)

theorem execInquireIdentity_keeps {a0 a1} (h0 : Keeps b a1) :
    ∀ t, execInquireIdentity a0 a1 = .next t → Keeps b t := by
  intro t e
  simp only [execInquireIdentity, Host.Outcome.next.injEq] at e
  subst e
  try dsimp only
  with_reducible repeat' (first | assumption | apply lssAnswer_keeps | split)

theorem respond_keeps {a0 a1} (h0 : Keeps b a1) :
    Keeps b (respond a0 a1) := by
  unfold respond
  try dsimp only
  with_reducible repeat' (first | assumption | apply onSpdm_keeps)

theorem spdmError_keeps {a0 a1 a2} (h0 : Keeps b a2) :
    Keeps b (spdmError a0 a1 a2) := by
  unfold spdmError
  try dsimp only
  with_reducible repeat' (first | assumption | apply onSpdm_keeps)

theorem execGetVersion_keeps {a0} (h0 : Keeps b a0) :
    ∀ t, execGetVersion a0 = .next t → Keeps b t := by
  intro t e
  simp only [execGetVersion, Host.Outcome.next.injEq] at e
  subst e
  try dsimp only
  with_reducible repeat' (first | assumption | apply respond_keeps | apply onSpdm_keeps | split)

theorem signResponse_keeps {a0 a1 a2} (h0 : Keeps b a2) :
    Keeps b (signResponse a0 a1 a2) := by
  unfold signResponse
  try dsimp only
  with_reducible repeat' (first | assumption | apply onSpdm_keeps)

theorem spdmAfter_keeps {r : Bool} {s : State} {go : State → State} (h : Keeps b s)
    (hg : ∀ s, Keeps b s → Keeps b (go s)) : ∀ t, spdmAfter r s go = .next t → Keeps b t := by
  intro t e
  simp only [spdmAfter, Host.Outcome.next.injEq] at e
  subst e
  split
  · exact h
  · split
    · exact hg s h
    · exact spdmError_keeps h
theorem execGetCapabilities_keeps {b s : State} (h : Keeps b s) : ∀ t, execGetCapabilities s = .next t → Keeps b t :=
  spdmAfter_keeps h fun _ h => respond_keeps (onSpdm_keeps h)
theorem execNegotiateAlgorithms_keeps {b s : State} {x y : Bool} (h : Keeps b s) :
    ∀ t, execNegotiateAlgorithms x y s = .next t → Keeps b t :=
  spdmAfter_keeps h fun _ h => respond_keeps (onSpdm_keeps h)
theorem execGetDigests_keeps {b s : State} (h : Keeps b s) : ∀ t, execGetDigests s = .next t → Keeps b t :=
  spdmAfter_keeps h fun _ h => respond_keeps h
theorem execGetCertificate_keeps {b s : State} {n : Fin 16} {o l : BitVec 16} (h : Keeps b s) :
    ∀ t, execGetCertificate n o l s = .next t → Keeps b t :=
  spdmAfter_keeps h fun _ h => by
    dsimp only
    split
    · exact spdmError_keeps h
    · exact respond_keeps h
theorem execChallenge_keeps {b s : State} {n : Fin 16} {u : BitVec 8} {c : BitVec 256} (h : Keeps b s) :
    ∀ t, execChallenge n u c s = .next t → Keeps b t :=
  spdmAfter_keeps h fun _ h => by
    dsimp only
    split
    · exact spdmError_keeps h
    · exact signResponse_keeps (takeFresh_keeps h).snd
theorem execGetMeasurements_keeps {b s : State} {i : BitVec 8} {g : Bool} {c : BitVec 256} (h : Keeps b s) :
    ∀ t, execGetMeasurements i g c s = .next t → Keeps b t :=
  spdmAfter_keeps h fun _ h => by
    dsimp only
    split
    · exact spdmError_keeps h
    · split
      · exact signResponse_keeps (takeFresh_keeps h).snd
      · exact respond_keeps (takeFresh_keeps h).snd

theorem execUnsupportedSpdmRequest_keeps {a0 a1} (h0 : Keeps b a1) :
    ∀ t, execUnsupportedSpdmRequest a0 a1 = .next t → Keeps b t := by
  intro t e
  simp only [execUnsupportedSpdmRequest, Host.Outcome.next.injEq] at e
  subst e
  try dsimp only
  with_reducible repeat' (first | assumption | apply spdmError_keeps | split)

end Sys2Proof.Machine
end

