-- ==== Sys2Proof/Laws/KeepsHost.lean ====
section
/-! SUPPORT. One lemma per operation on the state: what the registers, the dictionary, the link and migration keep. -/

namespace Sys2Proof.Machine

variable {b : State}

theorem clearOvf_keeps {a0 a1 a2} (h0 : Keeps b a2) :
    Keeps b (clearOvf a0 a1 a2) := by
  unfold clearOvf
  try dsimp only
  with_reducible repeat' (first | assumption | apply Keeps.fields)

theorem writeQueueBlock_keeps {a0 a1 a2 a3 a4} (h0 : Keeps b a4) :
    Keeps b (writeQueueBlock a0 a1 a2 a3 a4) := by
  unfold writeQueueBlock
  try dsimp only
  with_reducible repeat' (first | assumption | apply onQ_keeps | apply clearOvf_keeps | split)

theorem releaseVector_keeps {a0 a1} (h0 : Keeps b a1) :
    Keeps b (releaseVector a0 a1) := by
  unfold releaseVector
  try dsimp only
  with_reducible repeat' (first | assumption | apply signalVector_keeps | apply onPcie_keeps | split)

theorem releaseVectors_keeps {a0} (h0 : Keeps b a0) :
    Keeps b (releaseVectors a0) := by
  unfold releaseVectors
  try dsimp only
  with_reducible repeat' (first | assumption | apply releaseVector_keeps | apply foldl_keeps | intro _)

theorem writeMsix_keeps {a0 a1 a2 a3 a4} (h0 : Keeps b a4) :
    Keeps b (writeMsix a0 a1 a2 a3 a4) := by
  unfold writeMsix
  try dsimp only
  with_reducible repeat' (first | assumption | apply onPcie_keeps | apply releaseVector_keeps | split)

theorem execMsixUnmask_keeps {a0 a1} (h0 : Keeps b a1) :
    ∀ t, execMsixUnmask a0 a1 = .next t → Keeps b t := by
  intro t e
  simp only [execMsixUnmask, Host.Outcome.next.injEq] at e
  subst e
  try dsimp only
  with_reducible repeat' (first | assumption | apply releaseVector_keeps | apply onPcie_keeps | split)

theorem writeUnitBlock_keeps {a0 a1 a2 a3 a4} (h0 : Keeps b a4) :
    Keeps b (writeUnitBlock a0 a1 a2 a3 a4) := by
  unfold writeUnitBlock
  try dsimp only
  with_reducible repeat' (first | assumption | apply clearOvf_keeps | apply onPilot_keeps | split)

theorem mailboxRefuse_keeps {a0 a1} (h0 : Keeps b a1) :
    Keeps b (mailboxRefuse a0 a1) := by
  unfold mailboxRefuse
  try dsimp only
  with_reducible repeat' (first | assumption | apply raiseSource_keeps | apply onDict_keeps)

theorem writeMailbox_keeps {a0 a1 a2 a3} (h0 : Keeps b a3) :
    Keeps b (writeMailbox a0 a1 a2 a3) := by
  unfold writeMailbox
  try dsimp only
  with_reducible repeat' (first | assumption | apply onDict_keeps | apply mailboxRefuse_keeps | split)

theorem writeBar0_keeps {a0 a1 a2 a3} (h0 : Keeps b a3) :
    Keeps b (writeBar0 a0 a1 a2 a3) := by
  unfold writeBar0
  try dsimp only
  repeat' (first
    | with_reducible assumption
    | with_reducible apply writeMailbox_keeps
    | with_reducible apply onPcie_keeps
    | with_reducible apply writeQueueBlock_keeps
    | with_reducible apply writeMsix_keeps
    | with_reducible apply writeUnitBlock_keeps
    | split)

theorem writeBar2_keeps {a0 a1 a2 a3} (h0 : Keeps b a3) :
    Keeps b (writeBar2 a0 a1 a2 a3) := by
  unfold writeBar2
  try dsimp only
  with_reducible repeat' (first | assumption | apply onPcie_keeps | apply onB_keeps | split)

theorem writeDevice_keeps {a0 a1 a2 a3} (h0 : Keeps b a3) :
    Keeps b (writeDevice a0 a1 a2 a3) := by
  unfold writeDevice
  try dsimp only
  repeat' (first
    | with_reducible assumption
    | with_reducible apply raise_keeps
    | with_reducible apply pendingOr_keeps
    | with_reducible apply drain_keeps
    | with_reducible apply onCore_keeps
    | with_reducible apply coreRegWrite_keeps
    | split
    | intro _)

theorem execRegisterWrite_keeps {a0 a1 a2 a3 a4} (h0 : Keeps b a4) :
    ∀ t, execRegisterWrite a0 a1 a2 a3 a4 = .next t → Keeps b t := by
  intro t e
  simp only [execRegisterWrite, Host.Outcome.next.injEq] at e
  subst e
  try dsimp only
  repeat' (first
    | with_reducible assumption
    | with_reducible apply writeBar0_keeps
    | with_reducible apply writeBar2_keeps
    | with_reducible apply writeDevice_keeps
    | split)

theorem setLatch_keeps {a0 a1 a2} (h0 : Keeps b a2) :
    Keeps b (setLatch a0 a1 a2) := by
  unfold setLatch
  try dsimp only
  with_reducible repeat' (first | assumption | apply onPcie_keeps | split)

theorem answerRead_keeps {a0 a1} (h0 : Keeps b a1) :
    Keeps b (answerRead a0 a1) := by
  unfold answerRead
  try dsimp only
  with_reducible repeat' (first | assumption | apply onSys_keeps | (exact fun (_ : Sys) => Nat.le_refl _))

theorem execRslLowRead_keeps {a0 a1 a2} (h0 : Keeps b a2) :
    ∀ t, execRslLowRead a0 a1 a2 = .next t → Keeps b t := by
  intro t e
  simp only [execRslLowRead, Host.Outcome.next.injEq] at e
  subst e
  try dsimp only
  with_reducible repeat' (first | assumption | apply answerRead_keeps | apply setLatch_keeps | split)

theorem execLatchedHighRead_keeps {a0 a1 a2} (h0 : Keeps b a2) :
    ∀ t, execLatchedHighRead a0 a1 a2 = .next t → Keeps b t := by
  intro t e
  simp only [execLatchedHighRead, Host.Outcome.next.injEq] at e
  subst e
  try dsimp only
  with_reducible repeat' (first | assumption | apply answerRead_keeps | apply setLatch_keeps | split)

theorem execClearStats_keeps {a0 a1 a2} (h0 : Keeps b a2) :
    ∀ t, execClearStats a0 a1 a2 = .next t → Keeps b t := by
  intro t e
  simp only [execClearStats, Host.Outcome.next.injEq] at e
  subst e
  try dsimp only
  with_reducible repeat' (first | assumption | apply clearThen_keeps | split)

theorem execClearPerf_keeps {a0 a1 a2} (h0 : Keeps b a2) :
    ∀ t, execClearPerf a0 a1 a2 = .next t → Keeps b t := by
  intro t e
  simp only [execClearPerf, Host.Outcome.next.injEq] at e
  subst e
  try dsimp only
  with_reducible repeat' (first | assumption | apply clearThen_keeps | split)

theorem execEsPendingClear_keeps {a0 a1 a2 a3} (h0 : Keeps b a3) :
    ∀ t, execEsPendingClear a0 a1 a2 a3 = .next t → Keeps b t := by
  intro t e
  simp only [execEsPendingClear, Host.Outcome.next.injEq] at e
  subst e
  try dsimp only
  repeat' (first
    | with_reducible assumption
    | with_reducible apply onPcie_keeps
    | with_reducible apply raiseSource_keeps
    | with_reducible apply foldl_keeps
    | split
    | intro _)

theorem execEsSteerWrite_keeps {a0 a1 a2} (h0 : Keeps b a2) :
    ∀ t, execEsSteerWrite a0 a1 a2 = .next t → Keeps b t := by
  intro t e
  simp only [execEsSteerWrite, Host.Outcome.next.injEq] at e
  subst e
  try dsimp only
  with_reducible repeat' (first | assumption | apply onPcie_keeps | apply signalVector_keeps | split)

theorem execTaskSel_keeps {a0 a1} (h0 : Keeps b a1) :
    ∀ t, execTaskSel a0 a1 = .next t → Keeps b t := by
  intro t e
  simp only [execTaskSel, Host.Outcome.next.injEq] at e
  subst e
  try dsimp only
  with_reducible repeat' (first | assumption | apply selectTask_keeps | split)

theorem writeSetting_keeps {a0 a1 a2} (h0 : Keeps b a2) :
    KExc b (writeSetting a0 a1 a2) := by
  unfold writeSetting
  try dsimp only
  repeat' (first
    | with_reducible assumption
    | with_reducible apply groupUpdate_keeps
    | with_reducible apply onDict_keeps
    | with_reducible exact KExc.error
    | with_reducible apply KExc.ok
    | split)

theorem writeErrors_keeps {a0 a1} (h0 : Keeps b a1) :
    KExc b (writeErrors a0 a1) := by
  unfold writeErrors
  try dsimp only
  with_reducible repeat' (first | assumption | apply onDict_keeps | exact KExc.error | apply KExc.ok | split)

theorem writeStore_keeps {a0 a1 a2} (h0 : Keeps b a2) :
    KExc b (writeStore a0 a1 a2) := by
  unfold writeStore
  try dsimp only
  with_reducible repeat' (first | assumption | apply startSave_keeps | exact KExc.error | apply KExc.ok | split)

theorem writeCheckpoint_keeps {a0 a1} (h0 : Keeps b a1) :
    KExc b (writeCheckpoint a0 a1) := by
  unfold writeCheckpoint
  try dsimp only
  with_reducible repeat' (first | assumption | apply onDict_keeps | apply KExc.ok)

theorem berthCommand_keeps {a0 a1 a2} (h0 : Keeps b a2) :
    KExc b (berthCommand a0 a1 a2) := by
  unfold berthCommand
  try dsimp only
  repeat' (first
    | with_reducible assumption
    | with_reducible apply createBerth_keeps
    | with_reducible apply destroyBerth_keeps
    | with_reducible apply clearFault_keeps
    | with_reducible exact KExc.error
    | with_reducible apply KExc.ok
    | split)

theorem writeBerth_keeps {n : Fin 512} {u o : Nat} {d : Bytes} {s : State} (h : Keeps b s) :
    KExc b (writeBerth n u o d s) := by
  unfold writeBerth
  dsimp only
  split
  · exact berthCommand_keeps h
  · split
    · cases extentsWrite (getB s n.val) o d with
      | error e => exact KExc.error
      | ok l => exact KExc.ok (onB_keeps h)
    · split
      · exact KExc.error
      · exact KExc.ok (onB_keeps h)

theorem openBit_keeps {a0} (h0 : Keeps b a0) :
    KPair b (openBit a0) := by
  unfold openBit
  try dsimp only
  with_reducible repeat' (first | assumption | apply takeFresh_keeps | apply KPair.snd | apply KPair.mk)

theorem writePass_keeps {a0 a1} (h0 : Keeps b a1) :
    KExc b (writePass a0 a1) := by
  unfold writePass
  try dsimp only
  repeat' (first
    | with_reducible assumption
    | with_reducible apply takeFresh_keeps
    | with_reducible apply requestFull_keeps
    | with_reducible apply requestPass_keeps
    | with_reducible apply requestAbort_keeps
    | with_reducible exact KExc.error
    | split
    | with_reducible apply KPair.snd)

theorem writeMode_keeps {a0 a1} (h0 : Keeps b a1) :
    KExc b (writeMode a0 a1) := by
  unfold writeMode
  try dsimp only
  repeat' (first
    | with_reducible assumption
    | with_reducible apply requestMaintenance_keeps
    | with_reducible apply requestLeave_keeps
    | with_reducible exact KExc.error
    | split)

theorem writeFirmware_keeps {a0 a1} (h0 : Keeps b a1) :
    KExc b (writeFirmware a0 a1) := by
  unfold writeFirmware
  try dsimp only
  repeat' (first
    | with_reducible assumption
    | with_reducible apply openBit_keeps
    | with_reducible apply startCommit_keeps
    | with_reducible apply abortPackage_keeps
    | with_reducible exact KExc.error
    | split
    | with_reducible apply KPair.snd)

theorem writeValue_keeps {a0 a1 a2 a3 a4} (h0 : Keeps b a4) :
    KExc b (writeValue a0 a1 a2 a3 a4) := by
  unfold writeValue
  try dsimp only
  repeat' (first
    | with_reducible assumption
    | with_reducible apply writeSetting_keeps
    | with_reducible apply writeBerth_keeps
    | with_reducible apply writeErrors_keeps
    | with_reducible apply writeStore_keeps
    | with_reducible apply writeCalendar_keeps
    | with_reducible apply writeCheckpoint_keeps
    | with_reducible apply writePass_keeps
    | with_reducible apply writeClear_keeps
    | with_reducible apply openBit_keeps
    | with_reducible apply writePackage_keeps
    | with_reducible apply writeFirmware_keeps
    | with_reducible apply writeMode_keeps
    | with_reducible apply KExc.ok
    | split
    | with_reducible apply KPair.snd)

theorem dictSet_keeps {a0 a1 a2 a3 a4 a5} (h0 : Keeps b a5) :
    KExc b (dictSet a0 a1 a2 a3 a4 a5) := by
  unfold dictSet
  try dsimp only
  with_reducible repeat' (first | assumption | apply writeValue_keeps | exact KExc.error | split)

theorem mailboxEnds_keeps {a0 a1 a2 a3} (h0 : Keeps b a3) :
    Keeps b (mailboxEnds a0 a1 a2 a3) := by
  unfold mailboxEnds
  try dsimp only
  with_reducible repeat' (first | assumption | apply raiseSource_keeps | apply onDict_keeps)

theorem execMbRead_keeps {a0 a1} (h0 : Keeps b a1) :
    ∀ t, execMbRead a0 a1 = .next t → Keeps b t := by
  intro t e
  simp only [execMbRead, Host.Outcome.next.injEq] at e
  subst e
  try dsimp only
  with_reducible repeat' (first | assumption | apply mailboxEnds_keeps | split)

theorem execMbWrite_keeps {a0 a1} (h0 : Keeps b a1) :
    ∀ t, execMbWrite a0 a1 = .next t → Keeps b t := by
  intro t e
  simp only [execMbWrite, Host.Outcome.next.injEq] at e
  subst e
  try dsimp only
  repeat' (first
    | with_reducible assumption
    | with_reducible apply dictSet_keeps
    | with_reducible apply mailboxEnds_keeps
    | with_reducible exact KExc.error
    | split
    | (with_reducible apply KExc.of; rotate_left; (with_reducible assumption)))

theorem execDoeDictionaryRequest_keeps {a0 a1} (h0 : Keeps b a1) :
    ∀ t, execDoeDictionaryRequest a0 a1 = .next t → Keeps b t := by
  intro t e
  simp only [execDoeDictionaryRequest, Host.Outcome.next.injEq] at e
  subst e
  try dsimp only
  repeat' (first
    | with_reducible assumption
    | with_reducible apply onDict_keeps
    | with_reducible apply dictSet_keeps
    | split
    | (with_reducible apply KExc.of; rotate_left; (with_reducible assumption)))

theorem execUsdoRead_keeps {a0 a1 a2 a3 a4} (h0 : Keeps b a4) :
    ∀ t, execUsdoRead a0 a1 a2 a3 a4 = .next t → Keeps b t := by
  intro t e
  simp only [execUsdoRead, Host.Outcome.next.injEq] at e
  subst e
  try dsimp only
  with_reducible repeat' (first | assumption | apply setAnswer_keeps | split)

theorem execUsdoWrite_keeps {a0 a1 a2 a3 a4 a5} (h0 : Keeps b a5) :
    ∀ t, execUsdoWrite a0 a1 a2 a3 a4 a5 = .next t → Keeps b t := by
  intro t e
  simp only [execUsdoWrite, Host.Outcome.next.injEq] at e
  subst e
  try dsimp only
  repeat' (first
    | with_reducible assumption
    | with_reducible apply setAnswer_keeps
    | with_reducible apply dictSet_keeps
    | split
    | (with_reducible apply KExc.of; rotate_left; (with_reducible assumption)))

theorem answerWrite_keeps {a0 a1 a2} (h0 : Keeps b a2) :
    Keeps b (answerWrite a0 a1 a2) := by
  unfold answerWrite
  try dsimp only
  with_reducible repeat' (first | assumption | apply setAnswer_keeps | apply mailboxEnds_keeps | split)

theorem writeBy_keeps {p : DictPath} {i u : Nat} {go : State → Except (BitVec 32) State} {s : State}
    (h : Keeps b s) (hg : ∀ s, Keeps b s → KExc b (go s)) : ∀ t, writeBy p i u go s = .next t → Keeps b t := by
  intro t e
  simp only [writeBy, Host.Outcome.next.injEq] at e
  subst e
  split
  · exact h
  · split
    · exact answerWrite_keeps h
    · split
      · exact answerWrite_keeps ((hg s h).of ‹_›)
      · exact answerWrite_keeps h
theorem execSaveAll_keeps {p : DictPath} {v : BitVec 32} {s : State} (h : Keeps b s) :
    ∀ t, execSaveAll p v s = .next t → Keeps b t := writeBy_keeps h fun _ => writeStore_keeps
theorem execRestoreAll_keeps {p : DictPath} {v : BitVec 32} {s : State} (h : Keeps b s) :
    ∀ t, execRestoreAll p v s = .next t → Keeps b t := writeBy_keeps h fun _ => writeStore_keeps
theorem execErrorCountClear_keeps {p : DictPath} {v : BitVec 8} {s : State} (h : Keeps b s) :
    ∀ t, execErrorCountClear p v s = .next t → Keeps b t := writeBy_keeps h fun _ => writeErrors_keeps
theorem execCalendarTimeWrite_keeps {p : DictPath} {v : BitVec 64} {s : State} (h : Keeps b s) :
    ∀ t, execCalendarTimeWrite p v s = .next t → Keeps b t := writeBy_keeps h fun _ => writeCalendar_keeps
theorem execCheckpointIdWrite_keeps {p : DictPath} {v : BitVec 32} {s : State} (h : Keeps b s) :
    ∀ t, execCheckpointIdWrite p v s = .next t → Keeps b t := writeBy_keeps h fun _ => writeCheckpoint_keeps
theorem execModeRequestMaintenance_keeps {p : DictPath} {s : State} (h : Keeps b s) :
    ∀ t, execModeRequestMaintenance p s = .next t → Keeps b t := writeBy_keeps h fun _ => requestMaintenance_keeps
theorem execModeRequestLeave_keeps {p : DictPath} {s : State} (h : Keeps b s) :
    ∀ t, execModeRequestLeave p s = .next t → Keeps b t := writeBy_keeps h fun _ => requestLeave_keeps
theorem execPassRequestFull_keeps {p : DictPath} {f : BitVec 77} {c : BitVec 128} {q : BitVec 32} {s : State}
    (h : Keeps b s) : ∀ t, execPassRequestFull p f c q s = .next t → Keeps b t :=
  writeBy_keeps h fun _ => requestFull_keeps
theorem execPassRequestStart_keeps {p : DictPath} {s : State} (h : Keeps b s) :
    ∀ t, execPassRequestStart p s = .next t → Keeps b t := writeBy_keeps h fun _ => requestPass_keeps
theorem execPassRequestAbort_keeps {p : DictPath} {s : State} (h : Keeps b s) :
    ∀ t, execPassRequestAbort p s = .next t → Keeps b t := writeBy_keeps h fun _ => requestAbort_keeps
theorem execPackage_keeps {p : DictPath} {o : BitVec 32} {d : Bytes} {r : Bool} {s : State}
    (h : Keeps b s) : ∀ t, execPackage p o d r s = .next t → Keeps b t := writeBy_keeps h fun _ => writePackage_keeps
theorem execCommit_keeps {p : DictPath} {r : Bool} {s : State} (h : Keeps b s) :
    ∀ t, execCommit p r s = .next t → Keeps b t := writeBy_keeps h fun _ => startCommit_keeps
theorem execAbort_keeps {p : DictPath} {s : State} (h : Keeps b s) :
    ∀ t, execAbort p s = .next t → Keeps b t := writeBy_keeps h fun _ => abortPackage_keeps
theorem execClear_keeps {p : DictPath} {v : BitVec 32} {s : State} (h : Keeps b s) :
    ∀ t, execClear p v s = .next t → Keeps b t := writeBy_keeps h fun _ => writeClear_keeps

theorem commitTotals_keeps {a0 a1 a2 a3} (h0 : Keeps b a3) :
    Keeps b (commitTotals a0 a1 a2 a3) := by
  unfold commitTotals
  try dsimp only
  repeat' (first
    | with_reducible assumption
    | with_reducible apply statusWrite_keeps
    | with_reducible apply onJ_keeps
    | with_reducible apply setJobState_keeps
    | split)

theorem commitCounters_keeps {a0 a1 a2 a3 a4} (h0 : Keeps b a4) :
    Keeps b (commitCounters a0 a1 a2 a3 a4) := by
  unfold commitCounters
  try dsimp only
  with_reducible repeat' (first | assumption | apply commitTotals_keeps | apply hostWrite_keeps | split)

theorem commitRows_keeps {a0 a1 a2 a3 a4 a5 a6} (h0 : Keeps b a6) :
    Keeps b (commitRows a0 a1 a2 a3 a4 a5 a6) := by
  unfold commitRows
  try dsimp only
  repeat' (first
    | with_reducible assumption
    | with_reducible apply hostWrite_keeps
    | with_reducible apply commitCounters_keeps
    | with_reducible apply onR_keeps
    | with_reducible apply foldl_keeps
    | intro _)

theorem checkDone_keeps {a0 a1} (h0 : Keeps b a1) :
    Keeps b (checkDone a0 a1) := by
  unfold checkDone
  try dsimp only
  with_reducible repeat' (first | assumption | apply endDone_keeps | apply stopTasks_keeps | split)

theorem emitEnds_keeps {a0 a1 a2 a3} (h0 : Keeps b a3) :
    Keeps b (emitEnds a0 a1 a2 a3) := by
  unfold emitEnds
  try dsimp only
  repeat' (first
    | with_reducible assumption
    | with_reducible apply finishBatch_keeps
    | with_reducible apply checkDone_keeps
    | with_reducible apply onI_keeps
    | split)

theorem emitLimit_keeps {a0 a1 a2 a3 a4 a5} (h0 : Keeps b a5) :
    Keeps b (emitLimit a0 a1 a2 a3 a4 a5) := by
  unfold emitLimit
  try dsimp only
  with_reducible repeat' (first | assumption | apply onR_keeps | split)

theorem execEmitBatch_keeps {a0 a1 a2} (h0 : Keeps b a2) :
    ∀ t, execEmitBatch a0 a1 a2 = .next t → Keeps b t := by
  intro t e
  simp only [execEmitBatch, Host.Outcome.next.injEq] at e
  subst e
  try dsimp only
  repeat' (first
    | with_reducible assumption
    | with_reducible apply withInst_keeps
    | with_reducible apply takeBatch_keeps
    | with_reducible apply emitEnds_keeps
    | with_reducible apply commitCounters_keeps
    | with_reducible apply emitLimit_keeps
    | with_reducible apply onR_keeps
    | with_reducible apply endFailed_keeps
    | with_reducible apply readLongs_keeps
    | with_reducible apply awayFault_keeps
    | with_reducible apply noteViolation_keeps
    | with_reducible apply commitRows_keeps
    | split
    | (with_reducible apply KPair.of; rotate_left; (with_reducible assumption))
    | intro _)

theorem restoreTasks_keeps {a0 a1 a2 a3} (h0 : Keeps b a3) :
    Keeps b (restoreTasks a0 a1 a2 a3) := by
  unfold restoreTasks
  try dsimp only
  with_reducible repeat' (first | assumption | apply onPilot_keeps)

theorem restoreEngines_keeps {a0 a1 a2 a3} (h0 : Keeps b a3) :
    Keeps b (restoreEngines a0 a1 a2 a3) := by
  unfold restoreEngines
  try dsimp only
  with_reducible repeat' (first | assumption | apply onEng_keeps)

theorem restoreWork_keeps {a0 a1 a2 a3} (h0 : Keeps b a3) :
    Keeps b (restoreWork a0 a1 a2 a3) := by
  unfold restoreWork
  try dsimp only
  with_reducible repeat' (first | assumption | apply Keeps.fields)

theorem restoreRecord_keeps {a0 a1 a2 a3} (h0 : Keeps b a3) :
    Keeps b (restoreRecord a0 a1 a2 a3) := by
  unfold restoreRecord
  try dsimp only
  with_reducible repeat' (first | assumption | apply ownGranule_keeps | apply onB_keeps | apply foldl_keeps | intro _)

theorem placeTables_keeps {n : Fin 512} : ∀ {l : List (Nat × CTable × List (Nat × CEntry))} {m : Tbl Nat}
    {s : State} {x : Tbl Nat} {t : State}, Keeps b s → placeTables n l m s = some (x, t) → Keeps b t := by
  intro l
  induction l with
  | nil => intro m s x t h e; cases e; exact h
  | cons y l ih =>
    intro m s x t h e
    simp only [placeTables] at e
    split at e
    · cases e
    · exact ih ((installTable_keeps h).of ‹_›) e
theorem restoreBerth_keeps {n : Fin 512} {v : SavedBerth} {s : State} (h : Keeps b s) :
    KOpt b (restoreBerth n v s) := by
  unfold restoreBerth
  dsimp only
  split
  · exact KOpt.none
  · have h1 := placeTables_keeps h ‹_›
    exact KOpt.some (restoreRecord_keeps (restoreEngines_keeps (restoreTasks_keeps (restoreWork_keeps
      (foldl_keeps (fun _ _ => onTable_keeps) h1)))))

theorem cancelJob_keeps {a0 a1} (h0 : Keeps b a1) :
    Keeps b (cancelJob a0 a1) := by
  unfold cancelJob
  try dsimp only
  with_reducible repeat' (first | assumption | apply stopTasks_keeps | apply onJ_keeps)

theorem cancelJobs_keeps {a0} (h0 : Keeps b a0) :
    Keeps b (cancelJobs a0) := by
  unfold cancelJobs
  try dsimp only
  with_reducible repeat' (first | assumption | apply cancelJob_keeps | apply foldl_keeps | intro _)

theorem linkLost_keeps {a0 a1} (h0 : Keeps b a1) :
    Keeps b (linkLost a0 a1) := by
  unfold linkLost
  try dsimp only
  with_reducible repeat' (first | assumption | apply queueError_keeps | apply onQ_keeps | split)

theorem dropHeld_keeps {a0} (h0 : Keeps b a0) :
    Keeps b (dropHeld a0) := by
  unfold dropHeld
  try dsimp only
  with_reducible repeat' (first | assumption | apply onPcie_keeps | apply onB_keeps | apply foldl_keeps | intro _)

theorem execLinkDown_keeps {a0} (h0 : Keeps b a0) :
    ∀ t, execLinkDown a0 = .next t → Keeps b t := by
  intro t e
  simp only [execLinkDown, Host.Outcome.next.injEq] at e
  subst e
  try dsimp only
  repeat' (first
    | with_reducible assumption
    | with_reducible apply onPcie_keeps
    | with_reducible apply dropHeld_keeps
    | with_reducible apply syncPins_keeps
    | with_reducible apply cancelJobs_keeps
    | with_reducible apply linkLost_keeps
    | with_reducible apply foldl_keeps
    | split
    | intro _)

theorem execLinkUp_keeps {a0 a1 a2} (h0 : Keeps b a2) :
    ∀ t, execLinkUp a0 a1 a2 = .next t → Keeps b t := by
  intro t e
  simp only [execLinkUp, Host.Outcome.next.injEq] at e
  subst e
  try dsimp only
  repeat' (first
    | with_reducible assumption
    | with_reducible apply syncPins_keeps
    | with_reducible apply onPcie_keeps
    | with_reducible apply issueRead_keeps
    | with_reducible apply foldl_keeps
    | split
    | intro _)

theorem execLinkWidthChange_keeps {a0 a1} (h0 : Keeps b a1) :
    ∀ t, execLinkWidthChange a0 a1 = .next t → Keeps b t := by
  intro t e
  simp only [execLinkWidthChange, Host.Outcome.next.injEq] at e
  subst e
  try dsimp only
  with_reducible repeat' (first | assumption | apply onPresent_keeps | apply logRecord_keeps | split)

theorem execD3hotEntry_keeps {a0} (h0 : Keeps b a0) :
    ∀ t, execD3hotEntry a0 = .next t → Keeps b t := by
  intro t e
  simp only [execD3hotEntry, Host.Outcome.next.injEq] at e
  subst e
  try dsimp only
  with_reducible repeat' (first | assumption | apply onPcie_keeps | split)

theorem releaseOne_keeps {a0 a1} (h0 : Keeps b a1) :
    Keeps b (releaseOne a0 a1) := by
  unfold releaseOne
  try dsimp only
  repeat' (first
    | with_reducible assumption
    | with_reducible apply onB_keeps
    | with_reducible apply signalVector_keeps
    | with_reducible apply putHost_keeps
    | with_reducible apply dirtyRecord_keeps
    | with_reducible apply foldl_keeps
    | split
    | intro _)

theorem releaseHeld_keeps {a0 a1} (h0 : Keeps b a1) :
    Keeps b (releaseHeld a0 a1) := by
  unfold releaseHeld
  try dsimp only
  with_reducible repeat' (first | assumption | apply releaseOne_keeps | apply repeat_keeps)



theorem releaseWrite_keeps {a0 a1} (h0 : Keeps b a1) :
    Keeps b (releaseWrite a0 a1) := by
  unfold releaseWrite
  try dsimp only
  with_reducible repeat' (first | assumption | apply putHost_keeps | apply berthWrite_keeps | split)

theorem execD0Return_keeps {a0} (h0 : Keeps b a0) :
    ∀ t, execD0Return a0 = .next t → Keeps b t := by
  intro t e
  simp only [execD0Return, Host.Outcome.next.injEq] at e
  subst e
  try dsimp only
  repeat' (first
    | with_reducible assumption
    | with_reducible apply onPcie_keeps
    | with_reducible apply releaseHeld_keeps
    | with_reducible apply sendMsix_keeps
    | with_reducible apply releaseWrite_keeps
    | with_reducible apply foldl_keeps
    | split
    | intro _)

theorem configWrite_keeps {a0 a1 a2} (h0 : Keeps b a2) :
    Keeps b (configWrite a0 a1 a2) := by
  unfold configWrite
  try dsimp only
  with_reducible repeat' (first | assumption | apply onPcie_keeps | apply releaseVectors_keeps | split)

theorem execConfigurationRequest_keeps {a0 a1} (h0 : Keeps b a1) :
    ∀ t, execConfigurationRequest a0 a1 = .next t → Keeps b t := by
  intro t e
  simp only [execConfigurationRequest, Host.Outcome.next.injEq] at e
  subst e
  try dsimp only
  repeat' (first
    | with_reducible assumption
    | with_reducible apply onSys_keeps
    | with_reducible apply takeFresh_keeps
    | with_reducible apply answerRead_keeps
    | with_reducible apply configWrite_keeps
    | exact fun (_ : Sys) => Nat.le_refl _
    | split
    | with_reducible apply KPair.snd)

theorem noteRefused_keeps {a0} (h0 : Keeps b a0) :
    Keeps b (noteRefused a0) := by
  unfold noteRefused
  try dsimp only
  with_reducible repeat' (first | assumption | apply onPcie_keeps)

theorem answerBytes_keeps {a0 a1 a2} (h0 : Keeps b a2) :
    Keeps b (answerBytes a0 a1 a2) := by
  unfold answerBytes
  try dsimp only
  repeat' (first
    | with_reducible assumption
    | with_reducible apply onSys_keeps
    | with_reducible apply onDict_keeps
    | exact fun (_ : Sys) => Nat.le_refl _)

theorem execBar4Access_keeps {a0 a1 a2 a3} (h0 : Keeps b a3) :
    ∀ t, execBar4Access a0 a1 a2 a3 = .next t → Keeps b t := by
  intro t e
  simp only [execBar4Access, Host.Outcome.next.injEq] at e
  subst e
  try dsimp only
  repeat' (first
    | with_reducible assumption
    | with_reducible apply answerBytes_keeps
    | with_reducible apply noteRefused_keeps
    | with_reducible apply devWrite_keeps
    | with_reducible apply devRead_keeps
    | split
    | (with_reducible apply KPair.of; rotate_left; (with_reducible assumption))
    | with_reducible apply KPair.snd)

theorem migStarted_keeps {a0 a1 a2} (h0 : Keeps b a2) :
    Keeps b (migStarted a0 a1 a2) := by
  unfold migStarted
  try dsimp only
  with_reducible repeat' (first | assumption | apply onDict_keeps)

theorem migUnits_keeps {a0 a1} (h0 : Keeps b a1) :
    Keeps b (migUnits a0 a1) := by
  unfold migUnits
  try dsimp only
  with_reducible repeat' (first | assumption | apply onDict_keeps)

theorem withMigration_keeps {a0 a1 a2 a3 a4} (h0 : Keeps b a3) (h1 : ∀ x0, ∀ x1, Keeps b (a4 x0 x1)) :
    Keeps b (withMigration a0 a1 a2 a3 a4) := by
  unfold withMigration
  try dsimp only
  repeat' (first
    | with_reducible assumption
    | with_reducible apply h1
    | with_reducible apply withJob_keeps
    | with_reducible apply endFailed_keeps
    | split
    | intro _)

theorem freezeBerth_keeps {a0 a1 a2 a3} (h0 : Keeps b a3) :
    Keeps b (freezeBerth a0 a1 a2 a3) := by
  unfold freezeBerth
  try dsimp only
  repeat' (first
    | with_reducible assumption
    | with_reducible apply discardPushed_keeps
    | with_reducible apply migStarted_keeps
    | with_reducible apply beginJob_keeps
    | with_reducible apply onB_keeps
    | with_reducible apply stopTasks_keeps
    | with_reducible apply foldl_keeps
    | intro _)

theorem execBerthFreeze_keeps {a0 a1} (h0 : Keeps b a1) :
    ∀ t, execBerthFreeze a0 a1 = .next t → Keeps b t := by
  intro t e
  simp only [execBerthFreeze, Host.Outcome.next.injEq] at e
  subst e
  try dsimp only
  repeat' (first
    | with_reducible assumption
    | with_reducible apply withMigration_keeps
    | with_reducible apply migrateState_keeps
    | with_reducible apply freezeBerth_keeps
    | split
    | intro _)

theorem standStill_keeps {a0 a1 a2} (h0 : Keeps b a2) :
    Keeps b (standStill a0 a1 a2) := by
  unfold standStill
  try dsimp only
  with_reducible repeat' (first | assumption | apply onR_keeps | apply onJ_keeps | split | apply Keeps.fields)

theorem stopDelays_keeps {a0 a1} (h0 : Keeps b a1) :
    Keeps b (stopDelays a0 a1) := by
  unfold stopDelays
  try dsimp only
  with_reducible repeat' (first | assumption | apply onPilot_keeps)

theorem execFreezeComplete_keeps {a0 a1} (h0 : Keeps b a1) :
    ∀ t, execFreezeComplete a0 a1 = .next t → Keeps b t := by
  intro t e
  simp only [execFreezeComplete, Host.Outcome.next.injEq] at e
  subst e
  try dsimp only
  repeat' (first
    | with_reducible assumption
    | with_reducible apply standStill_keeps
    | with_reducible apply endDone_keeps
    | with_reducible apply onB_keeps
    | with_reducible apply stopDelays_keeps
    | with_reducible apply foldl_keeps
    | split
    | intro _)

theorem resumeTasks_keeps {a0 a1} (h0 : Keeps b a1) :
    Keeps b (resumeTasks a0 a1) := by
  unfold resumeTasks
  try dsimp only
  with_reducible repeat' (first | assumption | apply wake_keeps | apply onT_keeps | apply foldl_keeps | intro _)

theorem execFreezeTimeout_keeps {a0 a1} (h0 : Keeps b a1) :
    ∀ t, execFreezeTimeout a0 a1 = .next t → Keeps b t := by
  intro t e
  simp only [execFreezeTimeout, Host.Outcome.next.injEq] at e
  subst e
  try dsimp only
  repeat' (first
    | with_reducible assumption
    | with_reducible apply onB_keeps
    | with_reducible apply endFailed_keeps
    | with_reducible apply resumeBerth_keeps
    | with_reducible apply resumeTasks_keeps
    | split)

theorem restartTimes_keeps {a0 a1} (h0 : Keeps b a1) :
    Keeps b (restartTimes a0 a1) := by
  unfold restartTimes
  try dsimp only
  with_reducible repeat' (first | assumption | apply onR_keeps | apply foldl_keeps | intro _)

theorem retakeStreams_keeps {a0 a1} (h0 : Keeps b a1) :
    Keeps b (retakeStreams a0 a1) := by
  unfold retakeStreams
  try dsimp only
  with_reducible repeat' (first | assumption | apply onJ_keeps | apply foldl_keeps | split | intro _)

theorem thawQueues_keeps {a0 a1} (h0 : Keeps b a1) :
    Keeps b (thawQueues a0 a1) := by
  unfold thawQueues
  try dsimp only
  repeat' (first
    | with_reducible assumption
    | with_reducible apply resumeQueue_keeps
    | with_reducible apply onQ_keeps
    | with_reducible apply foldl_keeps
    | intro _)

theorem execBerthThaw_keeps {a0 a1} (h0 : Keeps b a1) :
    ∀ t, execBerthThaw a0 a1 = .next t → Keeps b t := by
  intro t e
  simp only [execBerthThaw, Host.Outcome.next.injEq] at e
  subst e
  try dsimp only
  repeat' (first
    | with_reducible assumption
    | with_reducible apply withMigration_keeps
    | with_reducible apply migrateState_keeps
    | with_reducible apply endFailed_keeps
    | with_reducible apply onB_keeps
    | with_reducible apply migStarted_keeps
    | with_reducible apply beginJob_keeps
    | with_reducible apply endDone_keeps
    | with_reducible apply thawQueues_keeps
    | with_reducible apply resumeTasks_keeps
    | with_reducible apply retakeStreams_keeps
    | with_reducible apply restartTimes_keeps
    | split
    | intro _)

theorem withPart_keeps {a0 a1 a2 a3 a4} (h0 : Keeps b a3) (h1 : ∀ x0, ∀ x1, Keeps b (a4 x0 x1)) :
    Keeps b (withPart a0 a1 a2 a3 a4) := by
  unfold withPart
  try dsimp only
  with_reducible repeat' (first | assumption | apply h1 | apply withMigration_keeps | split | intro _)

theorem execBerthSaveState_keeps {a0 a1} (h0 : Keeps b a1) :
    ∀ t, execBerthSaveState a0 a1 = .next t → Keeps b t := by
  intro t e
  simp only [execBerthSaveState, Host.Outcome.next.injEq] at e
  subst e
  try dsimp only
  repeat' (first
    | with_reducible assumption
    | with_reducible apply withPart_keeps
    | with_reducible apply migrateState_keeps
    | with_reducible apply migStarted_keeps
    | with_reducible apply beginJob_keeps
    | with_reducible apply endFailed_keeps
    | with_reducible apply endDone_keeps
    | with_reducible apply migUnits_keeps
    | with_reducible apply advanceJob_keeps
    | with_reducible apply hostWrite_keeps
    | split
    | intro _)

theorem readList_keeps {a0 a1} (h0 : Keeps b a1) :
    KPair b (readList a0 a1) := by
  unfold readList
  try dsimp only
  repeat' (first
    | with_reducible assumption
    | with_reducible apply hostRead_keeps
    | split
    | (with_reducible apply KPair.of; rotate_left; (with_reducible assumption))
    | with_reducible apply KPair.mk)

theorem saveGranule_keeps {a0 a1 a2 a3 a4} (h0 : Keeps b a4) :
    KPair b (saveGranule a0 a1 a2 a3 a4) := by
  unfold saveGranule
  try dsimp only
  repeat' (first
    | with_reducible assumption
    | with_reducible apply readSide_keeps
    | with_reducible apply migUnits_keeps
    | with_reducible apply advanceJob_keeps
    | with_reducible apply hostWrite_keeps
    | split
    | (with_reducible apply KPair.of; rotate_left; (with_reducible assumption))
    | with_reducible apply KPair.mk)

theorem restoreGranule_keeps {a0 a1 a2 a3 a4 a5} (h0 : Keeps b a5) :
    KPair b (restoreGranule a0 a1 a2 a3 a4 a5) := by
  unfold restoreGranule
  try dsimp only
  repeat' (first
    | with_reducible assumption
    | with_reducible apply readSide_keeps
    | with_reducible apply writeSide_keeps
    | with_reducible apply migUnits_keeps
    | with_reducible apply advanceJob_keeps
    | with_reducible apply markDirty_keeps
    | split
    | (with_reducible apply KPair.of; rotate_left; (with_reducible assumption))
    | with_reducible apply KPair.mk)

theorem eachGranule_keeps {j : Nat} {n : Fin 512} {m : Nat → Nat → State → Option MoveStop × State}
    (hm : ∀ g i s, Keeps b s → KPair b (m g i s)) :
    ∀ {l i s}, Keeps b s → Keeps b (eachGranule j n m l i s) := by
  intro l
  induction l with
  | nil => exact fun h => endDone_keeps h
  | cons g t ih =>
    intro i s h
    simp only [eachGranule]
    split
    · exact endFailed_keeps h
    · have h1 := hm g i s h
      split
      · exact moveFailed_keeps (h1.of ‹_›)
      · exact ih (h1.of ‹_›)

theorem granuleJob_keeps {a0 a1 a2 a3 a4} (h0 : ∀ x0, ∀ x1, ∀ x2, Keeps b x2 → KPair b (a3 x0 x1 x2)) (h1 : Keeps b a4) :
    Keeps b (granuleJob a0 a1 a2 a3 a4) := by
  unfold granuleJob
  try dsimp only
  repeat' (first
    | with_reducible assumption
    | with_reducible apply readList_keeps
    | with_reducible apply migStarted_keeps
    | with_reducible apply beginJob_keeps
    | with_reducible apply hostReadFailed_keeps
    | with_reducible apply eachGranule_keeps
    | split
    | (with_reducible apply KPair.of; rotate_left; (with_reducible assumption)))

theorem execBerthSaveGranules_keeps {a0 a1 a2} (h0 : Keeps b a2) :
    ∀ t, execBerthSaveGranules a0 a1 a2 = .next t → Keeps b t := by
  intro t e
  simp only [execBerthSaveGranules, Host.Outcome.next.injEq] at e
  subst e
  try dsimp only
  repeat' (first
    | with_reducible assumption
    | with_reducible apply hostSync_keeps
    | with_reducible apply withPart_keeps
    | with_reducible apply granuleJob_keeps
    | with_reducible apply saveGranule_keeps
    | with_reducible apply migrateState_keeps
    | split
    | intro _)

theorem execBerthRestoreGranules_keeps {a0 a1 a2} (h0 : Keeps b a2) :
    ∀ t, execBerthRestoreGranules a0 a1 a2 = .next t → Keeps b t := by
  intro t e
  simp only [execBerthRestoreGranules, Host.Outcome.next.injEq] at e
  subst e
  try dsimp only
  repeat' (first
    | with_reducible assumption
    | with_reducible apply hostSync_keeps
    | with_reducible apply withPart_keeps
    | with_reducible apply granuleJob_keeps
    | with_reducible apply restoreGranule_keeps
    | with_reducible apply migrateState_keeps
    | split
    | intro _)

theorem restoreImage_keeps {a0 a1 a2 a3 a4} (h0 : Keeps b a4) :
    Keeps b (restoreImage a0 a1 a2 a3 a4) := by
  unfold restoreImage
  try dsimp only
  repeat' (first
    | with_reducible assumption
    | with_reducible apply endFailed_keeps
    | with_reducible apply restoreBerth_keeps
    | with_reducible apply endDone_keeps
    | with_reducible apply migUnits_keeps
    | with_reducible apply advanceJob_keeps
    | split
    | (with_reducible apply KOpt.of; rotate_left; (with_reducible assumption)))

theorem execBerthRestoreState_keeps {a0 a1 a2} (h0 : Keeps b a2) :
    ∀ t, execBerthRestoreState a0 a1 a2 = .next t → Keeps b t := by
  intro t e
  simp only [execBerthRestoreState, Host.Outcome.next.injEq] at e
  subst e
  try dsimp only
  repeat' (first
    | with_reducible assumption
    | with_reducible apply hostSync_keeps
    | with_reducible apply withPart_keeps
    | with_reducible apply migrateState_keeps
    | with_reducible apply hostRead_keeps
    | with_reducible apply migStarted_keeps
    | with_reducible apply beginJob_keeps
    | with_reducible apply hostReadFailed_keeps
    | with_reducible apply restoreImage_keeps
    | split
    | (with_reducible apply KPair.of; rotate_left; (with_reducible assumption))
    | intro _)

theorem withDirty_keeps {a0 a1 a2 a3} (h0 : Keeps b a2) (h1 : ∀ x0, ∀ x1, Keeps b (a3 x0 x1)) :
    Keeps b (withDirty a0 a1 a2 a3) := by
  unfold withDirty
  try dsimp only
  repeat' (first
    | with_reducible assumption
    | with_reducible apply h1
    | with_reducible apply withMigration_keeps
    | with_reducible apply migrateState_keeps
    | with_reducible apply endFailed_keeps
    | split
    | intro _)

theorem rereadCons_keeps {n : Nat} {s : State} (h : Keeps b s) :
    KPair b (rereadCons n s) ∧ ∀ t u, rereadCons n s = (.ok t, u) → Keeps b t := by
  have h1 := hostRead_keeps (a0 := none) (a1 := (getB s n).dirty.indexAddr) (a2 := 4) h
  unfold rereadCons
  dsimp only
  constructor
  · split <;> exact KPair.mk (h1.of ‹_›)
  · intro t u e
    split at e
    · cases e
    · cases e
      exact releaseHeld_keeps (onB_keeps (h1.of ‹_›))
theorem execDirtyLogSync_keeps {j : Nat} {v : HostView} {s : State} (h : Keeps b s) :
    ∀ t, execDirtyLogSync j v s = .next t → Keeps b t := by
  intro t e
  simp only [execDirtyLogSync, Host.Outcome.next.injEq] at e
  subst e
  have h0 := hostSync_keeps (v := v) h
  apply withDirty_keeps h0
  intro x n
  split
  · exact h0
  · split
    · split
      · exact endDone_keeps h0
      · exact h0
    · have h1 := rereadCons_keeps (n := n.val) (migStarted_keeps (a0 := x) (a1 := 0) (beginJob_keeps (a0 := j) h0))
      split
      · exact hostReadFailed_keeps (h1.1.of ‹_›)
      · split
        · exact endDone_keeps (onB_keeps (h1.2 _ _ ‹_›))
        · exact onB_keeps (h1.2 _ _ ‹_›)
theorem execDirtyRingReread_keeps {n : Fin 512} {v : HostView} {s : State} (h : Keeps b s) :
    ∀ t, execDirtyRingReread n v s = .next t → Keeps b t := by
  intro t e
  simp only [execDirtyRingReread, Host.Outcome.next.injEq] at e
  subst e
  have h0 := hostSync_keeps (v := v) h
  split
  · exact h0
  · have h1 := rereadCons_keeps (n := n.val) h0
    split
    · exact h1.1.of ‹_›
    · exact h1.2 _ _ ‹_›

theorem execDirtyLogStart_keeps {a0 a1} (h0 : Keeps b a1) :
    ∀ t, execDirtyLogStart a0 a1 = .next t → Keeps b t := by
  intro t e
  simp only [execDirtyLogStart, Host.Outcome.next.injEq] at e
  subst e
  try dsimp only
  repeat' (first
    | with_reducible assumption
    | with_reducible apply withDirty_keeps
    | with_reducible apply endDone_keeps
    | with_reducible apply onB_keeps
    | with_reducible apply migStarted_keeps
    | with_reducible apply beginJob_keeps
    | intro _)

theorem execDirtyLogStop_keeps {a0 a1} (h0 : Keeps b a1) :
    ∀ t, execDirtyLogStop a0 a1 = .next t → Keeps b t := by
  intro t e
  simp only [execDirtyLogStop, Host.Outcome.next.injEq] at e
  subst e
  try dsimp only
  repeat' (first
    | with_reducible assumption
    | with_reducible apply withDirty_keeps
    | with_reducible apply endDone_keeps
    | with_reducible apply releaseHeld_keeps
    | with_reducible apply onB_keeps
    | with_reducible apply migStarted_keeps
    | with_reducible apply beginJob_keeps
    | intro _)

theorem execFetchBitmap_keeps {a0 a1} (h0 : Keeps b a1) :
    ∀ t, execFetchBitmap a0 a1 = .next t → Keeps b t := by
  intro t e
  simp only [execFetchBitmap, Host.Outcome.next.injEq] at e
  subst e
  try dsimp only
  repeat' (first
    | with_reducible assumption
    | with_reducible apply withDirty_keeps
    | with_reducible apply hostWrite_keeps
    | with_reducible apply migStarted_keeps
    | with_reducible apply beginJob_keeps
    | with_reducible apply endDone_keeps
    | with_reducible apply onB_keeps
    | intro _)

end Sys2Proof.Machine
end

