-- ==== Sys2Proof/Laws/KeepsCores.lean ====
section
/-! SUPPORT. One lemma per operation on the state: what the instructions of the cores and the clock keep. -/

namespace Sys2Proof.Machine

variable {b : State}

theorem execIntegerAlu_keeps {a0 a1 a2 a3 a4 a5 a6} (h0 : Keeps b a6) :
    ∀ t, execIntegerAlu a0 a1 a2 a3 a4 a5 a6 = .next t → Keeps b t := by
  intro t e
  simp only [execIntegerAlu, Host.Outcome.next.injEq] at e
  subst e
  try dsimp only
  with_reducible repeat' (first | assumption | apply coreStep_keeps | apply finish_keeps | intro _)

theorem execMultiplyDivide_keeps {a0 a1 a2 a3 a4 a5} (h0 : Keeps b a5) :
    ∀ t, execMultiplyDivide a0 a1 a2 a3 a4 a5 = .next t → Keeps b t := by
  intro t e
  simp only [execMultiplyDivide, Host.Outcome.next.injEq] at e
  subst e
  try dsimp only
  with_reducible repeat' (first | assumption | apply coreStep_keeps | apply finish_keeps | intro _)

theorem execBranch_keeps {a0 a1 a2} (h0 : Keeps b a2) :
    ∀ t, execBranch a0 a1 a2 = .next t → Keeps b t := by
  intro t e
  simp only [execBranch, Host.Outcome.next.injEq] at e
  subst e
  try dsimp only
  with_reducible repeat' (first | assumption | apply coreStep_keeps | apply onCore_keeps | intro _)

theorem execFloatingPoint_keeps {a0 a1 a2} (h0 : Keeps b a2) :
    ∀ t, execFloatingPoint a0 a1 a2 = .next t → Keeps b t := by
  intro t e
  simp only [execFloatingPoint, Host.Outcome.next.injEq] at e
  subst e
  try dsimp only
  with_reducible repeat' (first | assumption | apply coreStep_keeps | apply finish_keeps | intro _)

theorem execScalarLoad_keeps {a0 a1 a2 a3 a4 a5 a6 a7} (h0 : Keeps b a7) :
    ∀ t, execScalarLoad a0 a1 a2 a3 a4 a5 a6 a7 = .next t → Keeps b t := by
  intro t e
  simp only [execScalarLoad, Host.Outcome.next.injEq] at e
  subst e
  try dsimp only
  repeat' (first
    | with_reducible assumption
    | with_reducible apply coreStep_keeps
    | with_reducible apply loadThen_keeps
    | with_reducible apply finish_keeps
    | intro _)

theorem execScalarStore_keeps {a0 a1 a2 a3 a4 a5} (h0 : Keeps b a5) :
    ∀ t, execScalarStore a0 a1 a2 a3 a4 a5 = .next t → Keeps b t := by
  intro t e
  simp only [execScalarStore, Host.Outcome.next.injEq] at e
  subst e
  try dsimp only
  repeat' (first
    | with_reducible assumption
    | with_reducible apply coreStep_keeps
    | with_reducible apply storeThen_keeps
    | with_reducible apply finish_keeps
    | intro _)

theorem execStoreVisible_keeps {a0 a1} (h0 : Keeps b a1) :
    ∀ t, execStoreVisible a0 a1 = .next t → Keeps b t := by
  intro t e
  simp only [execStoreVisible, Host.Outcome.next.injEq] at e
  subst e
  try dsimp only
  with_reducible repeat' (first | assumption | apply storeLeaves_keeps)

theorem markTarget_keeps {a0 a1} (h0 : Keeps b a1) :
    Keeps b (markTarget a0 a1) := by
  unfold markTarget
  try dsimp only
  with_reducible repeat' (first | assumption | apply onDev_keeps | (exact fun (_ : DevMem) h => h) | split)

theorem execAccessTimeout_keeps {a0 a1 a2} (h0 : Keeps b a2) :
    ∀ t, execAccessTimeout a0 a1 a2 = .next t → Keeps b t := by
  intro t e
  simp only [execAccessTimeout, Host.Outcome.next.injEq] at e
  subst e
  try dsimp only
  repeat' (first
    | with_reducible assumption
    | with_reducible apply coreStep_keeps
    | with_reducible apply markTarget_keeps
    | with_reducible apply raise_keeps
    | with_reducible apply storeLeaves_keeps
    | split
    | intro _)

theorem execLdx_keeps {a0 a1 a2 a3 a4} (h0 : Keeps b a4) :
    ∀ t, execLdx a0 a1 a2 a3 a4 = .next t → Keeps b t := by
  intro t e
  simp only [execLdx, Host.Outcome.next.injEq] at e
  subst e
  try dsimp only
  repeat' (first
    | with_reducible assumption
    | with_reducible apply coreStep_keeps
    | with_reducible apply raise_keeps
    | with_reducible apply loadThen_keeps
    | with_reducible apply finish_keeps
    | split
    | intro _)

theorem execStx_keeps {a0 a1 a2 a3 a4 a5} (h0 : Keeps b a5) :
    ∀ t, execStx a0 a1 a2 a3 a4 a5 = .next t → Keeps b t := by
  intro t e
  simp only [execStx, Host.Outcome.next.injEq] at e
  subst e
  try dsimp only
  repeat' (first
    | with_reducible assumption
    | with_reducible apply coreStep_keeps
    | with_reducible apply finish_keeps
    | with_reducible apply raise_keeps
    | with_reducible apply storeThen_keeps
    | split
    | intro _)

theorem execFence_keeps {a0 a1} (h0 : Keeps b a1) :
    ∀ t, execFence a0 a1 = .next t → Keeps b t := by
  intro t e
  simp only [execFence, Host.Outcome.next.injEq] at e
  subst e
  try dsimp only
  repeat' (first
    | with_reducible assumption
    | with_reducible apply coreStep_keeps
    | with_reducible apply pendingOr_keeps
    | with_reducible apply drain_keeps
    | with_reducible apply finish_keeps
    | intro _)

theorem longVector_keeps {a0 a1 a2 a3} (h0 : Keeps b a1) :
    Keeps b (longVector a0 a1 a2 a3) := by
  unfold longVector
  try dsimp only
  repeat' (first
    | with_reducible assumption
    | with_reducible apply atLevel_keeps
    | with_reducible apply finish_keeps
    | with_reducible apply illegal_keeps
    | split
    | intro _)

theorem vectorLanes_keeps {a0 a1 a2 a3 a4 a5 a6} (h0 : Keeps b a6) :
    Keeps b (vectorLanes a0 a1 a2 a3 a4 a5 a6) := by
  unfold vectorLanes
  try dsimp only
  with_reducible repeat' (first | assumption | apply longVector_keeps)

theorem vectorCompare_keeps {a0 a1 a2 a3} (h0 : Keeps b a3) :
    Keeps b (vectorCompare a0 a1 a2 a3) := by
  unfold vectorCompare
  try dsimp only
  with_reducible repeat' (first | assumption | apply longVector_keeps)

theorem vectorFCompare_keeps {a0 a1 a2 a3} (h0 : Keeps b a3) :
    Keeps b (vectorFCompare a0 a1 a2 a3) := by
  unfold vectorFCompare
  try dsimp only
  with_reducible repeat' (first | assumption | apply longVector_keeps)

theorem vectorWide_keeps {a0 a1 a2 a3 a4 a5} (h0 : Keeps b a5) :
    Keeps b (vectorWide a0 a1 a2 a3 a4 a5) := by
  unfold vectorWide
  try dsimp only
  with_reducible repeat' (first | assumption | apply longVector_keeps)

theorem vectorReduce_keeps {a0 a1 a2 a3 a4 a5} (h0 : Keeps b a5) :
    Keeps b (vectorReduce a0 a1 a2 a3 a4 a5) := by
  unfold vectorReduce
  try dsimp only
  with_reducible repeat' (first | assumption | apply longVector_keeps)

theorem elemLoad_keeps {a0 a1 a2 a3 a4} (h0 : Keeps b a4) :
    KPair b (elemLoad a0 a1 a2 a3 a4) := by
  unfold elemLoad
  try dsimp only
  with_reducible repeat' (first | assumption | apply normalLoad_keeps | split | apply KPair.mk)

theorem elemLoads_keeps {c : Fin 129} {n seen : Nat} :
    ∀ {l got s}, Keeps b s → KPair b (elemLoads c n seen l got s) := by
  intro l
  induction l with
  | nil => exact fun h => h
  | cons x t ih =>
    intro got s h
    have h1 := elemLoad_keeps (a0 := c) (a1 := x.2.2) (a2 := n) (a3 := seen) h
    simp only [elemLoads]
    split
    · exact ih (h1.of ‹_›)
    · exact KPair.mk (h1.of ‹_›)

theorem elemFail_keeps {a0 a1 a2} (h0 : Keeps b a2) :
    Keeps b (elemFail a0 a1 a2) := by
  unfold elemFail
  try dsimp only
  with_reducible repeat' (first | assumption | apply violate_keeps | apply raise_keeps | split)

theorem vectorLoad_keeps {a0 a1 a2 a3 a4} (h0 : Keeps b a4) :
    Keeps b (vectorLoad a0 a1 a2 a3 a4) := by
  unfold vectorLoad
  try dsimp only
  repeat' (first
    | with_reducible assumption
    | with_reducible apply atLevel_keeps
    | with_reducible apply illegal_keeps
    | with_reducible apply elemLoads_keeps
    | with_reducible apply elemFail_keeps
    | with_reducible apply finish_keeps
    | split
    | (with_reducible apply KPair.of; rotate_left; (with_reducible assumption))
    | intro _)

theorem execVld_keeps {a0 a1 a2 a3} (h0 : Keeps b a3) :
    ∀ t, execVld a0 a1 a2 a3 = .next t → Keeps b t := by
  intro t e
  simp only [execVld, Host.Outcome.next.injEq] at e
  subst e
  try dsimp only
  with_reducible repeat' (first | assumption | apply vectorLoad_keeps)

theorem execVdeal2_keeps {a0 a1 a2 a3} (h0 : Keeps b a3) :
    ∀ t, execVdeal2 a0 a1 a2 a3 = .next t → Keeps b t := by
  intro t e
  simp only [execVdeal2, Host.Outcome.next.injEq] at e
  subst e
  try dsimp only
  with_reducible repeat' (first | assumption | apply vectorLoad_keeps)

theorem execVdeal3_keeps {a0 a1 a2 a3} (h0 : Keeps b a3) :
    ∀ t, execVdeal3 a0 a1 a2 a3 = .next t → Keeps b t := by
  intro t e
  simp only [execVdeal3, Host.Outcome.next.injEq] at e
  subst e
  try dsimp only
  with_reducible repeat' (first | assumption | apply vectorLoad_keeps)

theorem execVdeal4_keeps {a0 a1 a2 a3} (h0 : Keeps b a3) :
    ∀ t, execVdeal4 a0 a1 a2 a3 = .next t → Keeps b t := by
  intro t e
  simp only [execVdeal4, Host.Outcome.next.injEq] at e
  subst e
  try dsimp only
  with_reducible repeat' (first | assumption | apply vectorLoad_keeps)

theorem execVst_keeps {a0 a1 a2 a3} (h0 : Keeps b a3) :
    ∀ t, execVst a0 a1 a2 a3 = .next t → Keeps b t := by
  intro t e
  simp only [execVst, Host.Outcome.next.injEq] at e
  subst e
  try dsimp only
  repeat' (first
    | with_reducible assumption
    | with_reducible apply atLevel_keeps
    | with_reducible apply illegal_keeps
    | with_reducible apply elemFail_keeps
    | with_reducible apply finish_keeps
    | with_reducible apply bufferStore_keeps
    | with_reducible apply foldl_keeps
    | split
    | intro _)

theorem predOp_keeps {a0 a1 a2 a3} (h0 : Keeps b a3) :
    Keeps b (predOp a0 a1 a2 a3) := by
  unfold predOp
  try dsimp only
  repeat' (first
    | with_reducible assumption
    | with_reducible apply atLevel_keeps
    | with_reducible apply illegal_keeps
    | with_reducible apply finish_keeps
    | split
    | intro _)

theorem execPand_keeps {a0 a1 a2 a3 a4} (h0 : Keeps b a4) :
    ∀ t, execPand a0 a1 a2 a3 a4 = .next t → Keeps b t := by
  intro t e
  simp only [execPand, Host.Outcome.next.injEq] at e
  subst e
  try dsimp only
  with_reducible repeat' (first | assumption | apply predOp_keeps)

theorem execPor_keeps {a0 a1 a2 a3 a4} (h0 : Keeps b a4) :
    ∀ t, execPor a0 a1 a2 a3 a4 = .next t → Keeps b t := by
  intro t e
  simp only [execPor, Host.Outcome.next.injEq] at e
  subst e
  try dsimp only
  with_reducible repeat' (first | assumption | apply predOp_keeps)

theorem execPxor_keeps {a0 a1 a2 a3 a4} (h0 : Keeps b a4) :
    ∀ t, execPxor a0 a1 a2 a3 a4 = .next t → Keeps b t := by
  intro t e
  simp only [execPxor, Host.Outcome.next.injEq] at e
  subst e
  try dsimp only
  with_reducible repeat' (first | assumption | apply predOp_keeps)

theorem execPandn_keeps {a0 a1 a2 a3 a4} (h0 : Keeps b a4) :
    ∀ t, execPandn a0 a1 a2 a3 a4 = .next t → Keeps b t := by
  intro t e
  simp only [execPandn, Host.Outcome.next.injEq] at e
  subst e
  try dsimp only
  with_reducible repeat' (first | assumption | apply predOp_keeps)

theorem execPnot_keeps {a0 a1 a2 a3} (h0 : Keeps b a3) :
    ∀ t, execPnot a0 a1 a2 a3 = .next t → Keeps b t := by
  intro t e
  simp only [execPnot, Host.Outcome.next.injEq] at e
  subst e
  try dsimp only
  with_reducible repeat' (first | assumption | apply predOp_keeps)

theorem execPcnt_keeps {a0 a1 a2 a3} (h0 : Keeps b a3) :
    ∀ t, execPcnt a0 a1 a2 a3 = .next t → Keeps b t := by
  intro t e
  simp only [execPcnt, Host.Outcome.next.injEq] at e
  subst e
  try dsimp only
  with_reducible repeat' (first | assumption | apply atLevel_keeps | apply finish_keeps | intro _)

theorem execPfirst_keeps {a0 a1 a2 a3} (h0 : Keeps b a3) :
    ∀ t, execPfirst a0 a1 a2 a3 = .next t → Keeps b t := by
  intro t e
  simp only [execPfirst, Host.Outcome.next.injEq] at e
  subst e
  try dsimp only
  with_reducible repeat' (first | assumption | apply atLevel_keeps | apply finish_keeps | intro _)

theorem execPwhile_keeps {a0 a1 a2 a3} (h0 : Keeps b a3) :
    ∀ t, execPwhile a0 a1 a2 a3 = .next t → Keeps b t := by
  intro t e
  simp only [execPwhile, Host.Outcome.next.injEq] at e
  subst e
  try dsimp only
  with_reducible repeat' (first | assumption | apply predOp_keeps)

theorem predLoad_keeps {a0 a1 a2 a3 a4 a5} (h0 : Keeps b a5) :
    Keeps b (predLoad a0 a1 a2 a3 a4 a5) := by
  unfold predLoad
  try dsimp only
  repeat' (first
    | with_reducible assumption
    | with_reducible apply atLevel_keeps
    | with_reducible apply illegal_keeps
    | with_reducible apply finish_keeps
    | with_reducible apply loadThen_keeps
    | split
    | intro _)

theorem predStore_keeps {a0 a1 a2 a3 a4} (h0 : Keeps b a4) :
    Keeps b (predStore a0 a1 a2 a3 a4) := by
  unfold predStore
  try dsimp only
  repeat' (first
    | with_reducible assumption
    | with_reducible apply atLevel_keeps
    | with_reducible apply finish_keeps
    | with_reducible apply storeThen_keeps
    | split
    | intro _)

theorem execPld_keeps {a0 a1 a2 a3 a4} (h0 : Keeps b a4) :
    ∀ t, execPld a0 a1 a2 a3 a4 = .next t → Keeps b t := by
  intro t e
  simp only [execPld, Host.Outcome.next.injEq] at e
  subst e
  try dsimp only
  with_reducible repeat' (first | assumption | apply predLoad_keeps)

theorem execPldAdv_keeps {a0 a1 a2 a3 a4} (h0 : Keeps b a4) :
    ∀ t, execPldAdv a0 a1 a2 a3 a4 = .next t → Keeps b t := by
  intro t e
  simp only [execPldAdv, Host.Outcome.next.injEq] at e
  subst e
  try dsimp only
  with_reducible repeat' (first | assumption | apply predLoad_keeps)

theorem execPst_keeps {a0 a1 a2 a3} (h0 : Keeps b a3) :
    ∀ t, execPst a0 a1 a2 a3 = .next t → Keeps b t := by
  intro t e
  simp only [execPst, Host.Outcome.next.injEq] at e
  subst e
  try dsimp only
  with_reducible repeat' (first | assumption | apply predStore_keeps)

theorem execPstAdv_keeps {a0 a1 a2 a3} (h0 : Keeps b a3) :
    ∀ t, execPstAdv a0 a1 a2 a3 = .next t → Keeps b t := by
  intro t e
  simp only [execPstAdv, Host.Outcome.next.injEq] at e
  subst e
  try dsimp only
  with_reducible repeat' (first | assumption | apply predStore_keeps)

theorem execSvOperation_keeps {a0 a1 a2 a3 a4 a5 a6} (h0 : Keeps b a6) :
    ∀ t, execSvOperation a0 a1 a2 a3 a4 a5 a6 = .next t → Keeps b t := by
  intro t e
  simp only [execSvOperation, Host.Outcome.next.injEq] at e
  subst e
  try dsimp only
  repeat' (first
    | with_reducible assumption
    | with_reducible apply coreStep_keeps
    | with_reducible apply finish_keeps
    | with_reducible apply illegal_keeps
    | split
    | intro _)

theorem execScmp_keeps {a0 a1 a2 a3 a4 a5 a6} (h0 : Keeps b a6) :
    ∀ t, execScmp a0 a1 a2 a3 a4 a5 a6 = .next t → Keeps b t := by
  intro t e
  simp only [execScmp, Host.Outcome.next.injEq] at e
  subst e
  try dsimp only
  with_reducible repeat' (first | assumption | apply coreStep_keeps | apply finish_keeps | intro _)

theorem execSfcmp_keeps {a0 a1 a2 a3 a4 a5 a6} (h0 : Keeps b a6) :
    ∀ t, execSfcmp a0 a1 a2 a3 a4 a5 a6 = .next t → Keeps b t := by
  intro t e
  simp only [execSfcmp, Host.Outcome.next.injEq] at e
  subst e
  try dsimp only
  repeat' (first
    | with_reducible assumption
    | with_reducible apply coreStep_keeps
    | with_reducible apply illegal_keeps
    | with_reducible apply finish_keeps
    | split
    | intro _)

theorem execSshuf_keeps {a0 a1 a2 a3 a4 a5} (h0 : Keeps b a5) :
    ∀ t, execSshuf a0 a1 a2 a3 a4 a5 = .next t → Keeps b t := by
  intro t e
  simp only [execSshuf, Host.Outcome.next.injEq] at e
  subst e
  try dsimp only
  with_reducible repeat' (first | assumption | apply coreStep_keeps | apply finish_keeps | intro _)

theorem execSsel_keeps {a0 a1 a2 a3 a4 a5} (h0 : Keeps b a5) :
    ∀ t, execSsel a0 a1 a2 a3 a4 a5 = .next t → Keeps b t := by
  intro t e
  simp only [execSsel, Host.Outcome.next.injEq] at e
  subst e
  try dsimp only
  with_reducible repeat' (first | assumption | apply coreStep_keeps | apply finish_keeps | intro _)

theorem execSld_keeps {a0 a1 a2 a3 a4 a5} (h0 : Keeps b a5) :
    ∀ t, execSld a0 a1 a2 a3 a4 a5 = .next t → Keeps b t := by
  intro t e
  simp only [execSld, Host.Outcome.next.injEq] at e
  subst e
  try dsimp only
  repeat' (first
    | with_reducible assumption
    | with_reducible apply coreStep_keeps
    | with_reducible apply loadThen_keeps
    | with_reducible apply finish_keeps
    | intro _)

theorem execSst_keeps {a0 a1 a2 a3 a4} (h0 : Keeps b a4) :
    ∀ t, execSst a0 a1 a2 a3 a4 = .next t → Keeps b t := by
  intro t e
  simp only [execSst, Host.Outcome.next.injEq] at e
  subst e
  try dsimp only
  repeat' (first
    | with_reducible assumption
    | with_reducible apply coreStep_keeps
    | with_reducible apply storeThen_keeps
    | with_reducible apply finish_keeps
    | intro _)

theorem execVadd_keeps {a0 a1 a2} (h0 : Keeps b a2) :
    ∀ t, execVadd a0 a1 a2 = .next t → Keeps b t := by
  intro t e
  simp only [execVadd, Host.Outcome.next.injEq] at e
  subst e
  try dsimp only
  with_reducible repeat' (first | assumption | apply vectorLanes_keeps)

theorem execVsub_keeps {a0 a1 a2} (h0 : Keeps b a2) :
    ∀ t, execVsub a0 a1 a2 = .next t → Keeps b t := by
  intro t e
  simp only [execVsub, Host.Outcome.next.injEq] at e
  subst e
  try dsimp only
  with_reducible repeat' (first | assumption | apply vectorLanes_keeps)

theorem execVmin_keeps {a0 a1 a2} (h0 : Keeps b a2) :
    ∀ t, execVmin a0 a1 a2 = .next t → Keeps b t := by
  intro t e
  simp only [execVmin, Host.Outcome.next.injEq] at e
  subst e
  try dsimp only
  with_reducible repeat' (first | assumption | apply vectorLanes_keeps)

theorem execVmax_keeps {a0 a1 a2} (h0 : Keeps b a2) :
    ∀ t, execVmax a0 a1 a2 = .next t → Keeps b t := by
  intro t e
  simp only [execVmax, Host.Outcome.next.injEq] at e
  subst e
  try dsimp only
  with_reducible repeat' (first | assumption | apply vectorLanes_keeps)

theorem execVminu_keeps {a0 a1 a2} (h0 : Keeps b a2) :
    ∀ t, execVminu a0 a1 a2 = .next t → Keeps b t := by
  intro t e
  simp only [execVminu, Host.Outcome.next.injEq] at e
  subst e
  try dsimp only
  with_reducible repeat' (first | assumption | apply vectorLanes_keeps)

theorem execVmaxu_keeps {a0 a1 a2} (h0 : Keeps b a2) :
    ∀ t, execVmaxu a0 a1 a2 = .next t → Keeps b t := by
  intro t e
  simp only [execVmaxu, Host.Outcome.next.injEq] at e
  subst e
  try dsimp only
  with_reducible repeat' (first | assumption | apply vectorLanes_keeps)

theorem execVmul_keeps {a0 a1 a2} (h0 : Keeps b a2) :
    ∀ t, execVmul a0 a1 a2 = .next t → Keeps b t := by
  intro t e
  simp only [execVmul, Host.Outcome.next.injEq] at e
  subst e
  try dsimp only
  with_reducible repeat' (first | assumption | apply vectorLanes_keeps)

theorem execVmulh_keeps {a0 a1 a2} (h0 : Keeps b a2) :
    ∀ t, execVmulh a0 a1 a2 = .next t → Keeps b t := by
  intro t e
  simp only [execVmulh, Host.Outcome.next.injEq] at e
  subst e
  try dsimp only
  with_reducible repeat' (first | assumption | apply vectorLanes_keeps)

theorem execVmacc_keeps {a0 a1 a2} (h0 : Keeps b a2) :
    ∀ t, execVmacc a0 a1 a2 = .next t → Keeps b t := by
  intro t e
  simp only [execVmacc, Host.Outcome.next.injEq] at e
  subst e
  try dsimp only
  with_reducible repeat' (first | assumption | apply vectorLanes_keeps)

theorem execVand_keeps {a0 a1 a2} (h0 : Keeps b a2) :
    ∀ t, execVand a0 a1 a2 = .next t → Keeps b t := by
  intro t e
  simp only [execVand, Host.Outcome.next.injEq] at e
  subst e
  try dsimp only
  with_reducible repeat' (first | assumption | apply vectorLanes_keeps)

theorem execVor_keeps {a0 a1 a2} (h0 : Keeps b a2) :
    ∀ t, execVor a0 a1 a2 = .next t → Keeps b t := by
  intro t e
  simp only [execVor, Host.Outcome.next.injEq] at e
  subst e
  try dsimp only
  with_reducible repeat' (first | assumption | apply vectorLanes_keeps)

theorem execVxor_keeps {a0 a1 a2} (h0 : Keeps b a2) :
    ∀ t, execVxor a0 a1 a2 = .next t → Keeps b t := by
  intro t e
  simp only [execVxor, Host.Outcome.next.injEq] at e
  subst e
  try dsimp only
  with_reducible repeat' (first | assumption | apply vectorLanes_keeps)

theorem execVsll_keeps {a0 a1 a2} (h0 : Keeps b a2) :
    ∀ t, execVsll a0 a1 a2 = .next t → Keeps b t := by
  intro t e
  simp only [execVsll, Host.Outcome.next.injEq] at e
  subst e
  try dsimp only
  with_reducible repeat' (first | assumption | apply vectorLanes_keeps)

theorem execVsrl_keeps {a0 a1 a2} (h0 : Keeps b a2) :
    ∀ t, execVsrl a0 a1 a2 = .next t → Keeps b t := by
  intro t e
  simp only [execVsrl, Host.Outcome.next.injEq] at e
  subst e
  try dsimp only
  with_reducible repeat' (first | assumption | apply vectorLanes_keeps)

theorem execVsra_keeps {a0 a1 a2} (h0 : Keeps b a2) :
    ∀ t, execVsra a0 a1 a2 = .next t → Keeps b t := by
  intro t e
  simp only [execVsra, Host.Outcome.next.injEq] at e
  subst e
  try dsimp only
  with_reducible repeat' (first | assumption | apply vectorLanes_keeps)

theorem execVwmul_keeps {a0 a1 a2} (h0 : Keeps b a2) :
    ∀ t, execVwmul a0 a1 a2 = .next t → Keeps b t := by
  intro t e
  simp only [execVwmul, Host.Outcome.next.injEq] at e
  subst e
  try dsimp only
  with_reducible repeat' (first | assumption | apply vectorWide_keeps)

theorem execVwmulu_keeps {a0 a1 a2} (h0 : Keeps b a2) :
    ∀ t, execVwmulu a0 a1 a2 = .next t → Keeps b t := by
  intro t e
  simp only [execVwmulu, Host.Outcome.next.injEq] at e
  subst e
  try dsimp only
  with_reducible repeat' (first | assumption | apply vectorWide_keeps)

theorem execVwmacc_keeps {a0 a1 a2} (h0 : Keeps b a2) :
    ∀ t, execVwmacc a0 a1 a2 = .next t → Keeps b t := by
  intro t e
  simp only [execVwmacc, Host.Outcome.next.injEq] at e
  subst e
  try dsimp only
  with_reducible repeat' (first | assumption | apply vectorWide_keeps)

theorem execVwmaccu_keeps {a0 a1 a2} (h0 : Keeps b a2) :
    ∀ t, execVwmaccu a0 a1 a2 = .next t → Keeps b t := by
  intro t e
  simp only [execVwmaccu, Host.Outcome.next.injEq] at e
  subst e
  try dsimp only
  with_reducible repeat' (first | assumption | apply vectorWide_keeps)

theorem execVwacc_keeps {a0 a1 a2} (h0 : Keeps b a2) :
    ∀ t, execVwacc a0 a1 a2 = .next t → Keeps b t := by
  intro t e
  simp only [execVwacc, Host.Outcome.next.injEq] at e
  subst e
  try dsimp only
  with_reducible repeat' (first | assumption | apply vectorWide_keeps)

theorem execDot4_keeps {a0 a1 a2} (h0 : Keeps b a2) :
    ∀ t, execDot4 a0 a1 a2 = .next t → Keeps b t := by
  intro t e
  simp only [execDot4, Host.Outcome.next.injEq] at e
  subst e
  try dsimp only
  with_reducible repeat' (first | assumption | apply longVector_keeps)

theorem execDot2_keeps {a0 a1 a2} (h0 : Keeps b a2) :
    ∀ t, execDot2 a0 a1 a2 = .next t → Keeps b t := by
  intro t e
  simp only [execDot2, Host.Outcome.next.injEq] at e
  subst e
  try dsimp only
  with_reducible repeat' (first | assumption | apply longVector_keeps)

theorem execDotd_keeps {a0 a1 a2} (h0 : Keeps b a2) :
    ∀ t, execDotd a0 a1 a2 = .next t → Keeps b t := by
  intro t e
  simp only [execDotd, Host.Outcome.next.injEq] at e
  subst e
  try dsimp only
  with_reducible repeat' (first | assumption | apply longVector_keeps)

theorem execVcmpeq_keeps {a0 a1 a2} (h0 : Keeps b a2) :
    ∀ t, execVcmpeq a0 a1 a2 = .next t → Keeps b t := by
  intro t e
  simp only [execVcmpeq, Host.Outcome.next.injEq] at e
  subst e
  try dsimp only
  with_reducible repeat' (first | assumption | apply vectorCompare_keeps)

theorem execVcmpne_keeps {a0 a1 a2} (h0 : Keeps b a2) :
    ∀ t, execVcmpne a0 a1 a2 = .next t → Keeps b t := by
  intro t e
  simp only [execVcmpne, Host.Outcome.next.injEq] at e
  subst e
  try dsimp only
  with_reducible repeat' (first | assumption | apply vectorCompare_keeps)

theorem execVcmplt_keeps {a0 a1 a2} (h0 : Keeps b a2) :
    ∀ t, execVcmplt a0 a1 a2 = .next t → Keeps b t := by
  intro t e
  simp only [execVcmplt, Host.Outcome.next.injEq] at e
  subst e
  try dsimp only
  with_reducible repeat' (first | assumption | apply vectorCompare_keeps)

theorem execVcmple_keeps {a0 a1 a2} (h0 : Keeps b a2) :
    ∀ t, execVcmple a0 a1 a2 = .next t → Keeps b t := by
  intro t e
  simp only [execVcmple, Host.Outcome.next.injEq] at e
  subst e
  try dsimp only
  with_reducible repeat' (first | assumption | apply vectorCompare_keeps)

theorem execVcmpltu_keeps {a0 a1 a2} (h0 : Keeps b a2) :
    ∀ t, execVcmpltu a0 a1 a2 = .next t → Keeps b t := by
  intro t e
  simp only [execVcmpltu, Host.Outcome.next.injEq] at e
  subst e
  try dsimp only
  with_reducible repeat' (first | assumption | apply vectorCompare_keeps)

theorem execVcmpleu_keeps {a0 a1 a2} (h0 : Keeps b a2) :
    ∀ t, execVcmpleu a0 a1 a2 = .next t → Keeps b t := by
  intro t e
  simp only [execVcmpleu, Host.Outcome.next.injEq] at e
  subst e
  try dsimp only
  with_reducible repeat' (first | assumption | apply vectorCompare_keeps)

theorem execVcmpgt_keeps {a0 a1 a2} (h0 : Keeps b a2) :
    ∀ t, execVcmpgt a0 a1 a2 = .next t → Keeps b t := by
  intro t e
  simp only [execVcmpgt, Host.Outcome.next.injEq] at e
  subst e
  try dsimp only
  with_reducible repeat' (first | assumption | apply vectorCompare_keeps)

theorem execVcmpge_keeps {a0 a1 a2} (h0 : Keeps b a2) :
    ∀ t, execVcmpge a0 a1 a2 = .next t → Keeps b t := by
  intro t e
  simp only [execVcmpge, Host.Outcome.next.injEq] at e
  subst e
  try dsimp only
  with_reducible repeat' (first | assumption | apply vectorCompare_keeps)

theorem execVcmpgtu_keeps {a0 a1 a2} (h0 : Keeps b a2) :
    ∀ t, execVcmpgtu a0 a1 a2 = .next t → Keeps b t := by
  intro t e
  simp only [execVcmpgtu, Host.Outcome.next.injEq] at e
  subst e
  try dsimp only
  with_reducible repeat' (first | assumption | apply vectorCompare_keeps)

theorem execVcmpgeu_keeps {a0 a1 a2} (h0 : Keeps b a2) :
    ∀ t, execVcmpgeu a0 a1 a2 = .next t → Keeps b t := by
  intro t e
  simp only [execVcmpgeu, Host.Outcome.next.injEq] at e
  subst e
  try dsimp only
  with_reducible repeat' (first | assumption | apply vectorCompare_keeps)

theorem execVfadd_keeps {a0 a1 a2} (h0 : Keeps b a2) :
    ∀ t, execVfadd a0 a1 a2 = .next t → Keeps b t := by
  intro t e
  simp only [execVfadd, Host.Outcome.next.injEq] at e
  subst e
  try dsimp only
  with_reducible repeat' (first | assumption | apply vectorLanes_keeps)

theorem execVfsub_keeps {a0 a1 a2} (h0 : Keeps b a2) :
    ∀ t, execVfsub a0 a1 a2 = .next t → Keeps b t := by
  intro t e
  simp only [execVfsub, Host.Outcome.next.injEq] at e
  subst e
  try dsimp only
  with_reducible repeat' (first | assumption | apply vectorLanes_keeps)

theorem execVfmul_keeps {a0 a1 a2} (h0 : Keeps b a2) :
    ∀ t, execVfmul a0 a1 a2 = .next t → Keeps b t := by
  intro t e
  simp only [execVfmul, Host.Outcome.next.injEq] at e
  subst e
  try dsimp only
  with_reducible repeat' (first | assumption | apply vectorLanes_keeps)

theorem execVfdiv_keeps {a0 a1 a2} (h0 : Keeps b a2) :
    ∀ t, execVfdiv a0 a1 a2 = .next t → Keeps b t := by
  intro t e
  simp only [execVfdiv, Host.Outcome.next.injEq] at e
  subst e
  try dsimp only
  with_reducible repeat' (first | assumption | apply vectorLanes_keeps)

theorem execVfma_keeps {a0 a1 a2} (h0 : Keeps b a2) :
    ∀ t, execVfma a0 a1 a2 = .next t → Keeps b t := by
  intro t e
  simp only [execVfma, Host.Outcome.next.injEq] at e
  subst e
  try dsimp only
  with_reducible repeat' (first | assumption | apply vectorLanes_keeps)

theorem execVfmin_keeps {a0 a1 a2} (h0 : Keeps b a2) :
    ∀ t, execVfmin a0 a1 a2 = .next t → Keeps b t := by
  intro t e
  simp only [execVfmin, Host.Outcome.next.injEq] at e
  subst e
  try dsimp only
  with_reducible repeat' (first | assumption | apply vectorLanes_keeps)

theorem execVfmax_keeps {a0 a1 a2} (h0 : Keeps b a2) :
    ∀ t, execVfmax a0 a1 a2 = .next t → Keeps b t := by
  intro t e
  simp only [execVfmax, Host.Outcome.next.injEq] at e
  subst e
  try dsimp only
  with_reducible repeat' (first | assumption | apply vectorLanes_keeps)

theorem execVfcmpeq_keeps {a0 a1 a2} (h0 : Keeps b a2) :
    ∀ t, execVfcmpeq a0 a1 a2 = .next t → Keeps b t := by
  intro t e
  simp only [execVfcmpeq, Host.Outcome.next.injEq] at e
  subst e
  try dsimp only
  with_reducible repeat' (first | assumption | apply vectorFCompare_keeps)

theorem execVfcmplt_keeps {a0 a1 a2} (h0 : Keeps b a2) :
    ∀ t, execVfcmplt a0 a1 a2 = .next t → Keeps b t := by
  intro t e
  simp only [execVfcmplt, Host.Outcome.next.injEq] at e
  subst e
  try dsimp only
  with_reducible repeat' (first | assumption | apply vectorFCompare_keeps)

theorem execVfcmple_keeps {a0 a1 a2} (h0 : Keeps b a2) :
    ∀ t, execVfcmple a0 a1 a2 = .next t → Keeps b t := by
  intro t e
  simp only [execVfcmple, Host.Outcome.next.injEq] at e
  subst e
  try dsimp only
  with_reducible repeat' (first | assumption | apply vectorFCompare_keeps)

theorem vectorOne_keeps {a0 a1 a2 a3 a4 a5} (h0 : Keeps b a5) :
    Keeps b (vectorOne a0 a1 a2 a3 a4 a5) := by
  unfold vectorOne
  try dsimp only
  with_reducible repeat' (first | assumption | apply longVector_keeps)

theorem execVfcvtfi_keeps {a0 a1 a2} (h0 : Keeps b a2) :
    ∀ t, execVfcvtfi a0 a1 a2 = .next t → Keeps b t := by
  intro t e
  simp only [execVfcvtfi, Host.Outcome.next.injEq] at e
  subst e
  try dsimp only
  with_reducible repeat' (first | assumption | apply vectorOne_keeps)

theorem execVfcvtif_keeps {a0 a1 a2} (h0 : Keeps b a2) :
    ∀ t, execVfcvtif a0 a1 a2 = .next t → Keeps b t := by
  intro t e
  simp only [execVfcvtif, Host.Outcome.next.injEq] at e
  subst e
  try dsimp only
  with_reducible repeat' (first | assumption | apply vectorOne_keeps)

theorem execVmv_keeps {a0 a1 a2} (h0 : Keeps b a2) :
    ∀ t, execVmv a0 a1 a2 = .next t → Keeps b t := by
  intro t e
  simp only [execVmv, Host.Outcome.next.injEq] at e
  subst e
  try dsimp only
  with_reducible repeat' (first | assumption | apply longVector_keeps)

theorem execVmerge_keeps {a0 a1 a2} (h0 : Keeps b a2) :
    ∀ t, execVmerge a0 a1 a2 = .next t → Keeps b t := by
  intro t e
  simp only [execVmerge, Host.Outcome.next.injEq] at e
  subst e
  try dsimp only
  with_reducible repeat' (first | assumption | apply longVector_keeps)

theorem execVslidedn_keeps {a0 a1 a2} (h0 : Keeps b a2) :
    ∀ t, execVslidedn a0 a1 a2 = .next t → Keeps b t := by
  intro t e
  simp only [execVslidedn, Host.Outcome.next.injEq] at e
  subst e
  try dsimp only
  with_reducible repeat' (first | assumption | apply longVector_keeps)

theorem execVslideup_keeps {a0 a1 a2} (h0 : Keeps b a2) :
    ∀ t, execVslideup a0 a1 a2 = .next t → Keeps b t := by
  intro t e
  simp only [execVslideup, Host.Outcome.next.injEq] at e
  subst e
  try dsimp only
  with_reducible repeat' (first | assumption | apply longVector_keeps)

theorem execVcompress_keeps {a0 a1 a2} (h0 : Keeps b a2) :
    ∀ t, execVcompress a0 a1 a2 = .next t → Keeps b t := by
  intro t e
  simp only [execVcompress, Host.Outcome.next.injEq] at e
  subst e
  try dsimp only
  with_reducible repeat' (first | assumption | apply longVector_keeps)

theorem execVext_keeps {a0 a1 a2} (h0 : Keeps b a2) :
    ∀ t, execVext a0 a1 a2 = .next t → Keeps b t := by
  intro t e
  simp only [execVext, Host.Outcome.next.injEq] at e
  subst e
  try dsimp only
  with_reducible repeat' (first | assumption | apply longVector_keeps)

theorem execVredsum_keeps {a0 a1 a2} (h0 : Keeps b a2) :
    ∀ t, execVredsum a0 a1 a2 = .next t → Keeps b t := by
  intro t e
  simp only [execVredsum, Host.Outcome.next.injEq] at e
  subst e
  try dsimp only
  with_reducible repeat' (first | assumption | apply longVector_keeps)

theorem execVredmin_keeps {a0 a1 a2} (h0 : Keeps b a2) :
    ∀ t, execVredmin a0 a1 a2 = .next t → Keeps b t := by
  intro t e
  simp only [execVredmin, Host.Outcome.next.injEq] at e
  subst e
  try dsimp only
  with_reducible repeat' (first | assumption | apply vectorReduce_keeps)

theorem execVredmax_keeps {a0 a1 a2} (h0 : Keeps b a2) :
    ∀ t, execVredmax a0 a1 a2 = .next t → Keeps b t := by
  intro t e
  simp only [execVredmax, Host.Outcome.next.injEq] at e
  subst e
  try dsimp only
  with_reducible repeat' (first | assumption | apply vectorReduce_keeps)

theorem execVredminu_keeps {a0 a1 a2} (h0 : Keeps b a2) :
    ∀ t, execVredminu a0 a1 a2 = .next t → Keeps b t := by
  intro t e
  simp only [execVredminu, Host.Outcome.next.injEq] at e
  subst e
  try dsimp only
  with_reducible repeat' (first | assumption | apply vectorReduce_keeps)

theorem execVredmaxu_keeps {a0 a1 a2} (h0 : Keeps b a2) :
    ∀ t, execVredmaxu a0 a1 a2 = .next t → Keeps b t := by
  intro t e
  simp only [execVredmaxu, Host.Outcome.next.injEq] at e
  subst e
  try dsimp only
  with_reducible repeat' (first | assumption | apply vectorReduce_keeps)

theorem execVfredosum_keeps {a0 a1 a2} (h0 : Keeps b a2) :
    ∀ t, execVfredosum a0 a1 a2 = .next t → Keeps b t := by
  intro t e
  simp only [execVfredosum, Host.Outcome.next.injEq] at e
  subst e
  try dsimp only
  with_reducible repeat' (first | assumption | apply vectorReduce_keeps)

theorem tick_keeps {a0} (h0 : Keeps b a0) :
    Keeps b (tick a0) := by
  unfold tick
  try dsimp only
  repeat' (first
    | with_reducible assumption
    | with_reducible apply onSys_keeps
    | exact fun (_ : Sys) => Nat.le_refl _
    | with_reducible apply Keeps.fields)

theorem resetTick_keeps {a0} (h0 : Keeps b a0) :
    Keeps b (resetTick a0) := by
  unfold resetTick
  try dsimp only
  repeat' (first
    | with_reducible assumption
    | with_reducible apply releaseReset_keeps
    | with_reducible apply onSys_keeps
    | exact fun (_ : Sys) => Nat.le_refl _
    | split)

theorem idle_keeps {a0} (h0 : Keeps b a0) :
    Keeps b (idle a0) := by
  unfold idle
  try dsimp only
  with_reducible repeat' (first | assumption | apply resetTick_keeps | apply tick_keeps | split)

end Sys2Proof.Machine
end

