-- ==== Sys2Proof/Laws/Pilot.lean ====
section
/-! SUPPORT. Tasks: what a pulse, a wake-up and a delay place change of their records. -/

namespace Sys2Proof.Machine

variable {s : State} {c : Fin 129}

theorem wakes_iff (x : Task) : (waitHolds x = true ∨ x.flags.getLsbD 30 = true) ↔ wakes x := by
  unfold wakes waitTrue waitHolds
  cases x.any <;> simp

theorem holds_iff (x : Task) : waitHolds x = true ↔ waitTrue x := by
  unfold waitTrue waitHolds
  cases x.any <;> simp

theorem setBit_eq (v : BitVec 32) (i : Nat) : setBit v i true = v ||| (1#32 <<< i) := by
  unfold setBit; rw [if_pos rfl]

theorem wake_no {t : Nat} (h : (getT s t).state ≠ .waiting ∨ ¬ wakes (getT s t)) : wake t s = s := by
  unfold wake
  rw [if_neg]
  rintro ⟨h1, h2⟩
  rcases h with h | h
  · exact h h1
  · exact h ((wakes_iff _).1 h2)

theorem wake_yes {t : Nat} (h1 : (getT s t).state = .waiting) (h2 : wakes (getT s t)) :
    wake t s = onPilot (fun p => { p with order := p.order + 1 })
      (onT t (fun x => { x with state := .ready, readyAt := s.sys.time, readyOrder := s.pilot.order }) s) := by
  unfold wake
  rw [if_pos ⟨h1, (wakes_iff _).2 h2⟩]

theorem pulse_set {t flag : Nat} {src : Option (Fin 512)} (h1 : (getT s t).state ≠ .free) (h2 : src = none ∨ src = (getT s t).berth)
    (h3 : (getT s t).flags.getLsbD flag = false) :
    pulse t flag src s = wake t (withTask t { getT s t with flags := (getT s t).flags ||| (1#32 <<< flag) } (count .pilot 1 1 s)) := by
  unfold pulse
  simp only
  rw [if_neg, if_neg]
  · congr 1
    show onT t _ (count .pilot 1 1 s) = _
    unfold onT onPilot withTask tblMod
    have : (tblGet {} (count .pilot 1 1 s).pilot.tasks t : Task) = getT s t := by rw [count_pilot]; rfl
    simp only [this, setBit_eq]
  · rw [h3]; simp
  · rintro (h | ⟨h, h'⟩)
    · exact h1 h
    · rcases h2 with h2 | h2
      · rw [h2] at h; simp at h
      · exact h' h2

theorem tblGet_mem {α : Type} (d : α) (t : Tbl α) (k : Nat) : tblGet d t k = d ∨ (k, tblGet d t k) ∈ t := by
  induction t with
  | nil => exact .inl rfl
  | cons e t ih =>
    obtain ⟨j, v⟩ := e
    unfold tblGet
    split
    · next h => subst h; exact .inr (List.mem_cons_self ..)
    · rcases ih with h | h
      · exact .inl h
      · exact .inr (List.mem_cons_of_mem _ h)

def noWaits (s : State) : Prop := ∀ e ∈ s.pilot.tasks, e.2.delayWaits = none

theorem noWaits.get (h : noWaits s) (t : Nat) : (getT s t).delayWaits = none := by
  rcases tblGet_mem ({} : Task) s.pilot.tasks t with e | e
  · unfold getT; rw [e]
  · exact h _ e

theorem noWaits.setT (h : noWaits s) {t : Nat} {f : Task → Task} (hf : ∀ x, x.delayWaits = none → (f x).delayWaits = none) :
    noWaits (onT t f s) := by
  intro e he
  rcases mem_tblSet he with rfl | he
  · exact hf _ (h.get t)
  · exact h e he

theorem noWaits.congr {u : State} (h : noWaits s) (e : u.pilot.tasks = s.pilot.tasks) : noWaits u := by
  unfold noWaits; rw [e]; exact h

theorem noWaits.wake {t : Nat} (h : noWaits s) : noWaits (wake t s) := by
  unfold Sys2Proof.Machine.wake; simp only
  split
  · exact fun e he => noWaits.setT h (t := t) (f := fun x => { x with state := .ready, readyAt := s.sys.time, readyOrder := s.pilot.order }) (fun _ h => h) e he
  · exact h

theorem noWaits.pulse {t f : Nat} {x : Option (Fin 512)} (h : noWaits s) : noWaits (pulse t f x s) := by
  unfold Sys2Proof.Machine.pulse countP; simp only
  split
  · exact h.congr (by simp)
  · split
    · exact h.congr (by simp)
    · refine noWaits.wake ?_
      refine noWaits.setT (s := count .pilot 1 1 s) (h.congr (by simp)) ?_
      exact fun _ h => h

theorem noWaits.grant {b : Option (Fin 512)} (h : noWaits s) : grantDelay b s = s := by
  unfold grantDelay
  cases e : s.pilot.tasks.find? (fun e => decide (e.2.berth = b) && e.2.delayWaits.isSome) with
  | none => rfl
  | some x =>
    exfalso
    have h1 := h x (List.mem_of_find?_eq_some e)
    have h2 := List.find?_some e
    simp [h1] at h2

theorem enterDelay_flags (t : Nat) (d : BitVec 24) (n : Nat) : (getT (enterDelay t d s) n).flags = (getT s n).flags := by
  have key : ∀ f : Task → Task, (∀ x, (f x).flags = x.flags) → (getT (onT t f s) n).flags = (getT s n).flags := by
    intro f hf
    by_cases h : n = t
    · subst h; rw [onT_self, hf]
    · rw [onT_ne _ _ h]
  unfold enterDelay countP
  split
  · rfl
  · split
    · rw [count_getT]; refine key _ ?_; exact fun _ => rfl
    · rw [count_getT]; refine key _ ?_; exact fun _ => rfl

theorem grantDelay_flags (b : Option (Fin 512)) (n : Nat) : (getT (grantDelay b s) n).flags = (getT s n).flags := by
  unfold grantDelay
  split
  · rfl
  · rw [enterDelay_flags]
    next e _ =>
    by_cases h : n = e.1
    · subst h; rw [onT_self]
    · rw [onT_ne _ _ h]

theorem wake_flags (t n : Nat) : (getT (wake t s) n).flags = (getT s n).flags := by
  unfold wake; simp only
  split
  · rw [onPilot_getT _ (by rfl)]
    by_cases h : n = t
    · subst h; rw [onT_self]
    · rw [onT_ne _ _ h]
  · rfl

theorem wake_ne (t n : Nat) (h : n ≠ t) : getT (wake t s) n = getT s n := by
  unfold wake; simp only
  split
  · rw [onPilot_getT _ (by rfl), onT_ne _ _ h]
  · rfl

theorem wake_expiry (t n : Nat) : (getT (wake t s) n).expiry = (getT s n).expiry := by
  unfold wake; simp only
  split
  · rw [onPilot_getT _ (by rfl)]
    by_cases h : n = t
    · subst h; rw [onT_self]
    · rw [onT_ne _ _ h]
  · rfl

/-! ## Delays dropped -/

theorem enterDelay_frame (t : Nat) (d : BitVec 24) (s : State) : enterDelay t d s = { s with
    pilot := (enterDelay t d s).pilot, counters := (enterDelay t d s).counters, pcie := (enterDelay t d s).pcie } := by
  unfold enterDelay countP
  split
  · rfl
  · split
    · rw [count_frame]; rfl
    · rw [count_frame]; rfl

theorem grantDelay_frame (b : Option (Fin 512)) (s : State) : grantDelay b s = { s with
    pilot := (grantDelay b s).pilot, counters := (grantDelay b s).counters, pcie := (grantDelay b s).pcie } := by
  unfold grantDelay
  split
  · rfl
  · rw [enterDelay_frame]; rfl

theorem dropDelay_frame (t : Nat) (s : State) : dropDelay t s = { s with
    pilot := (dropDelay t s).pilot, counters := (dropDelay t s).counters, pcie := (dropDelay t s).pcie } := by
  unfold dropDelay; simp only
  split
  · rw [grantDelay_frame]; rfl
  · rfl

theorem enterDelay_state (t : Nat) (d : BitVec 24) (n : Nat) : (getT (enterDelay t d s) n).state = (getT s n).state := by
  have key : ∀ f : Task → Task, (∀ x, (f x).state = x.state) → (getT (onT t f s) n).state = (getT s n).state := by
    intro f hf
    by_cases h : n = t
    · subst h; rw [onT_self, hf]
    · rw [onT_ne _ _ h]
  unfold enterDelay countP
  split
  · rfl
  · split
    · rw [count_getT]; refine key _ ?_; exact fun _ => rfl
    · rw [count_getT]; refine key _ ?_; exact fun _ => rfl

theorem grantDelay_state (b : Option (Fin 512)) (n : Nat) : (getT (grantDelay b s) n).state = (getT s n).state := by
  unfold grantDelay
  split
  · rfl
  · rw [enterDelay_state]
    next e _ =>
    by_cases h : n = e.1
    · subst h; rw [onT_self]
    · rw [onT_ne _ _ h]

theorem dropDelay_state (t n : Nat) : (getT (dropDelay t s) n).state = (getT s n).state := by
  have key : (getT (onT t (fun x => { x with expiry := none, delayWaits := none, frozenDelay := none }) s) n).state = (getT s n).state := by
    by_cases h : n = t
    · subst h; rw [onT_self]
    · rw [onT_ne _ _ h]
  unfold dropDelay; simp only
  split
  · rw [grantDelay_state]; exact key
  · exact key

theorem dropDelay_flags (t n : Nat) : (getT (dropDelay t s) n).flags = (getT s n).flags := by
  have key : (getT (onT t (fun x => { x with expiry := none, delayWaits := none, frozenDelay := none }) s) n).flags = (getT s n).flags := by
    by_cases h : n = t
    · subst h; rw [onT_self]
    · rw [onT_ne _ _ h]
  unfold dropDelay; simp only
  split
  · rw [grantDelay_flags]; exact key
  · exact key

/-- A delay dropped where no task waits for its place. -/
theorem dropDelay_eq {t : Nat} (h : noWaits s ∨ holdsPlace (getT s t) = false) :
    dropDelay t s = onT t (fun x => { x with expiry := none, delayWaits := none, frozenDelay := none }) s := by
  unfold dropDelay; simp only
  rcases h with h | h
  · have : noWaits (onT t (fun x => { x with expiry := none, delayWaits := none, frozenDelay := none }) s) := by
      refine noWaits.setT h ?_; exact fun _ _ => rfl
    rw [this.grant]; split <;> rfl
  · rw [h]; rfl

/-! ## Releases -/

theorem itemEnds_cores (i : Item) : (itemEnds i s).cores = s.cores := by
  unfold itemEnds; simp only
  split
  · rfl
  · split
    · rfl
    · exact onR_cores ..

/-- A release: the record as released, with its delay where the condition is false, then the wake-up. -/
theorem release_eq {j : Nat} {w : Option WaitCommit} (h : (getT s j).doomed = false) :
    release j w s = (let x := releasedTask (getT s j) w
      if waitHolds x then wake j (withTask j x s)
      else wake j (enterDelay j ((w.map (·.delay)).getD 0) (withTask j x s))) := by
  have e (x : Task) : waitHolds (getT (withTask j x s) j) = waitHolds x := by
    rw [show getT (withTask j x s) j = x from tblGet_tblSet_self ..]
  unfold release
  rw [h]
  simp only [Bool.false_eq_true, if_false]
  cases w with
  | none =>
    rw [show onT j (fun x => { x with state := .waiting }) s = withTask j (releasedTask (getT s j) none) s from rfl, e]
  | some w =>
    rw [show onT j (fun x => { x with state := .waiting, mask := w.mask, any := w.any }) s =
      withTask j (releasedTask (getT s j) (some w)) s from rfl, e]

theorem withTask_get {j : Nat} {x : Task} : getT (withTask j x s) j = x := tblGet_tblSet_self ..
theorem withTask_ne {j n : Nat} {x : Task} (h : n ≠ j) : getT (withTask j x s) n = getT s n := tblGet_tblSet_of_ne _ _ _ h

/-- What entering a delay leaves of the records. -/
theorem enterDelay_withTask {j : Nat} {x : Task} (d : BitVec 24) :
    getT (enterDelay j d (withTask j x s)) j = delayedTask s j x d ∧
    (∀ n, n ≠ j → getT (enterDelay j d (withTask j x s)) n = getT s n) ∧
    (enterDelay j d (withTask j x s)).sys = s.sys ∧ (enterDelay j d (withTask j x s)).pilot.order = s.pilot.order := by
  have all : delayAllowance (withTask j x s) x.berth = delayAllowance s x.berth := rfl
  unfold enterDelay delayedTask
  rw [withTask_get, all]
  split
  · exact ⟨withTask_get, fun n hn => withTask_ne hn, rfl, rfl⟩
  · split
    · refine ⟨?_, fun n hn => ?_, ?_, ?_⟩
      · rw [countP, count_getT, onT_self, withTask_get]; rfl
      · rw [countP, count_getT, onT_ne _ _ hn, withTask_ne hn]
      · rw [countP, count_frame]; rfl
      · rw [countP, count_pilot]; rfl
    · refine ⟨?_, fun n hn => ?_, ?_, ?_⟩
      · rw [countP, count_getT, onT_self, withTask_get]
      · rw [countP, count_getT, onT_ne _ _ hn, withTask_ne hn]
      · rw [countP, count_frame]; rfl
      · rw [countP, count_pilot]; rfl

/-- What a release leaves. -/
theorem release_spec {j : Nat} {w : Option WaitCommit} (h : (getT s j).doomed = false) :
    let x := releasedTask (getT s j) w
    let y := delayedTask s j x ((w.map (·.delay)).getD 0)
    (waitTrue x → getT (release j w s) j = readied s x) ∧
    (¬ waitTrue x → x.flags.getLsbD 30 = true → getT (release j w s) j = readied s y) ∧
    (¬ wakes x → getT (release j w s) j = y) ∧
    (∀ n, n ≠ j → getT (release j w s) n = getT s n) := by
  intro x y
  rw [release_eq h]
  obtain ⟨e1, e2, e3, e4⟩ := enterDelay_withTask (s := s) (j := j) (x := x) ((w.map (·.delay)).getD 0)
  have ys : y.state = .waiting := by show (delayedTask s j x _).state = _; unfold delayedTask; split; · rfl
                                     split <;> rfl
  have yf : y.flags = x.flags := by show (delayedTask s j x _).flags = _; unfold delayedTask; split; · rfl
                                    split <;> rfl
  have yw : wakes y ↔ wakes x := by
    have : y.any = x.any ∧ y.mask = x.mask := by
      show (delayedTask s j x _).any = _ ∧ (delayedTask s j x _).mask = _; unfold delayedTask; split; · exact ⟨rfl, rfl⟩
      split <;> exact ⟨rfl, rfl⟩
    unfold wakes waitTrue; rw [yf, this.1, this.2]
  refine ⟨fun hy => ?_, fun hn hs => ?_, fun hn => ?_, fun n hj => ?_⟩
  · show getT (if waitHolds x = true then _ else _) j = _
    rw [if_pos ((holds_iff x).2 hy), wake_yes (by rw [withTask_get]; rfl) (by rw [withTask_get]; exact .inl hy),
      onPilot_getT _ (by rfl), onT_self, withTask_get]; rfl
  · show getT (if waitHolds x = true then _ else _) j = _
    rw [if_neg (fun e => hn ((holds_iff x).1 e)), wake_yes (by rw [e1]; exact ys) (by rw [e1]; exact yw.2 (.inr hs)),
      onPilot_getT _ (by rfl), onT_self, e1, e3, e4]; rfl
  · show getT (if waitHolds x = true then _ else _) j = _
    rw [if_neg (fun e => hn (.inl ((holds_iff x).1 e))), wake_no (.inr (by rw [e1]; exact fun e => hn (yw.1 e))), e1]
  · show getT (if waitHolds x = true then _ else _) n = _
    split
    · rw [wake_ne _ _ hj, withTask_ne hj]
    · rw [wake_ne _ _ hj, e2 n hj]

theorem release_frame (j : Nat) (w : Option WaitCommit) (s : State) : release j w s = { s with
    pilot := (release j w s).pilot, counters := (release j w s).counters, pcie := (release j w s).pcie } := by
  by_cases h : (getT s j).doomed = true
  · unfold release; rw [h]; rfl
  · rw [release_eq (by simpa using h)]
    simp only
    split
    · rw [wake_frame]; rfl
    · rw [wake_frame, enterDelay_frame]; rfl

theorem release_balance (j : Nat) (w : Option WaitCommit) (s : State) : (release j w s).pilot.balance = s.pilot.balance := by
  have ed (t d) (s : State) : (enterDelay t d s).pilot.balance = s.pilot.balance := by
    unfold enterDelay countP
    split
    · rfl
    · split
      · rw [count_pilot]; rfl
      · rw [count_pilot]; rfl
  have wk (t) (s : State) : (wake t s).pilot.balance = s.pilot.balance := by
    unfold wake; simp only; split <;> rfl
  by_cases h : (getT s j).doomed = true
  · unfold release; rw [h]; rfl
  · rw [release_eq (by simpa using h)]
    simp only
    split
    · rw [wk]; rfl
    · rw [wk, ed]; rfl

/-! ## Dispatch -/

theorem handle_eq (t : Nat) (x : Task) (fired : BitVec 32) (ht : t < 65536) : handleOf t x fired = handleBits t x fired := by
  apply BitVec.eq_of_toNat_eq
  have hp := x.priority.isLt
  have hf := fired.isLt
  unfold handleOf handleBits
  simp only [app_toNat, BitVec.toNat_ofNat]
  cases e : x.flow with
  | none => simp; omega
  | some f => have := f.isLt; simp; omega

theorem dispatch_spec (t : Nat) (st : TState) (u : State) (ht : t < 65536) :
    let x := getT u t
    let fired := x.flags &&& (x.mask ||| 0x40000000)
    (dispatch t st u).1 = ⟨BitVec.ofNat 16 t, handleBits t x fired⟩ ∧
    (getT (dispatch t st u).2 t).state = st ∧ (getT (dispatch t st u).2 t).flags = x.flags &&& ~~~fired ∧
    ((∀ e ∈ u.pilot.tasks, e.2.delayWaits = none) ∨ holdsPlace x = false →
      getT (dispatch t st u).2 t = { x with
        state := st, flags := x.flags &&& ~~~fired, expiry := none, delayWaits := none, frozenDelay := none } ∧
      ∀ j, j ≠ t → getT (dispatch t st u).2 j = getT u j) ∧
    (dispatch t st u).2 = { u with
      pilot := (dispatch t st u).2.pilot, counters := (dispatch t st u).2.counters,
      pcie := (dispatch t st u).2.pcie } := by
  intro x fired
  have hd : (dispatch t st u).1 = ⟨BitVec.ofNat 16 t, handleBits t x fired⟩ := by
    show Item.mk _ (handleOf t x fired) = _
    rw [handle_eq _ _ _ ht]
  have key : ∃ w : State, (dispatch t st u).2 = dropDelay t w ∧
      getT w t = { x with state := st, flags := x.flags &&& ~~~fired } ∧
      (∀ j, j ≠ t → getT w j = getT u j) ∧
      w = { u with pilot := w.pilot, counters := w.counters, pcie := w.pcie } ∧
      ((∀ e ∈ u.pilot.tasks, e.2.delayWaits = none) → noWaits w) := by
    refine ⟨_, rfl, ?_, fun j hj => ?_, ?_, fun h => ?_⟩
    · rw [onPilot_getT _ (by rfl), countP, count_getT, onT_self]; rfl
    · rw [onPilot_getT _ (by rfl), countP, count_getT, onT_ne _ _ hj]
    · unfold onPilot countP; rw [count_frame]; rfl
    · refine noWaits.congr (s := onT t (fun x => { x with state := st, flags := x.flags &&& ~~~fired }) u) ?_ ?_
      · refine noWaits.setT h ?_
        exact fun _ h => h
      · show (countP 0 1 (onT t _ u)).pilot.tasks = _
        rw [countP, count_pilot]; rfl
  obtain ⟨w, e1, e2, e3, e4, e7⟩ := key
  refine ⟨hd, ?_, ?_, fun h => ?_, ?_⟩
  · rw [e1, dropDelay_state, e2]
  · rw [e1, dropDelay_flags, e2]
  · have h' : noWaits w ∨ holdsPlace (getT w t) = false := by
      rcases h with h | h
      · exact .inl (e7 h)
      · right; rw [e2]; exact h
    rw [e1, dropDelay_eq h']
    refine ⟨?_, fun j hj => ?_⟩
    · rw [onT_self, e2]
    · rw [onT_ne _ _ hj, e3 j hj]
  · rw [e1, dropDelay_frame, e4]

/-! ## The dispatch choice -/

theorem findMin_spec {α : Type} (key : α → Nat) (l : List α) (x : α) (h : findMin key l = some x) :
    x ∈ l ∧ ∀ y ∈ l, key x ≤ key y := by
  have go : ∀ (l : List α) (b : α), ∃ r, l.foldl (fun best x => match best with
      | none => some x
      | some b => if key x < key b then some x else some b) (some b) = some r ∧ (r = b ∨ r ∈ l) ∧ key r ≤ key b ∧ ∀ y ∈ l, key r ≤ key y := by
    intro l
    induction l with
    | nil => exact fun b => ⟨b, rfl, .inl rfl, Nat.le_refl _, by simp⟩
    | cons a l ih =>
      intro b
      simp only [List.foldl_cons]
      by_cases hk : key a < key b
      · rw [if_pos hk]
        obtain ⟨r, h1, h2, h3, h4⟩ := ih a
        refine ⟨r, h1, .inr ?_, by omega, ?_⟩
        · rcases h2 with h2 | h2
          · rw [h2]; exact List.mem_cons_self ..
          · exact List.mem_cons_of_mem _ h2
        · intro y hy
          rcases List.mem_cons.1 hy with hy | hy
          · rw [hy]; exact h3
          · exact h4 y hy
      · rw [if_neg hk]
        obtain ⟨r, h1, h2, h3, h4⟩ := ih b
        refine ⟨r, h1, ?_, h3, ?_⟩
        · rcases h2 with h2 | h2
          · exact .inl h2
          · exact .inr (List.mem_cons_of_mem _ h2)
        · intro y hy
          rcases List.mem_cons.1 hy with hy | hy
          · rw [hy]; omega
          · exact h4 y hy
  cases l with
  | nil => simp [findMin] at h
  | cons a l =>
    obtain ⟨r, h1, h2, h3, h4⟩ := go l a
    have : findMin key (a :: l) = some r := h1
    rw [this] at h
    injection h with h
    subst h
    refine ⟨?_, ?_⟩
    · rcases h2 with h2 | h2
      · rw [h2]; exact List.mem_cons_self ..
      · exact List.mem_cons_of_mem _ h2
    · intro y hy
      rcases List.mem_cons.1 hy with hy | hy
      · rw [hy]; exact h3
      · exact h4 y hy

theorem top_max (l : List (Nat × Task)) (e : Nat × Task) (h : e ∈ topPriority l) :
    e ∈ l ∧ ∀ o ∈ l, o.2.priority.val ≤ e.2.priority.val := by
  have mono : ∀ (l : List (Nat × Task)) (m : Nat), m ≤ l.foldl (fun m e => max m e.2.priority.val) m ∧
      ∀ o ∈ l, o.2.priority.val ≤ l.foldl (fun m e => max m e.2.priority.val) m := by
    intro l
    induction l with
    | nil => intro m; simp
    | cons a l ih =>
      intro m
      simp only [List.foldl_cons]
      obtain ⟨h1, h2⟩ := ih (max m a.2.priority.val)
      refine ⟨by omega, ?_⟩
      intro o ho
      rcases List.mem_cons.1 ho with ho | ho
      · rw [ho]; omega
      · exact h2 o ho
  unfold topPriority at h
  simp only [List.mem_filter, decide_eq_true_eq] at h
  refine ⟨h.1, fun o ho => ?_⟩
  rw [h.2]
  exact (mono l 0).2 o ho

theorem ready_mem {s : State} {g : Nat} {o : Nat × Task} : o ∈ readyTasks s g ↔
    o ∈ s.pilot.tasks ∧ o.2.state = .ready ∧ o.2.grove.val = g ∧ mayDispatch s o.2 = true := by
  unfold readyTasks
  rw [List.mem_filter]
  simp [and_assoc]

/-- A task whose flow is open: no task of that flow is RUNNING or PREFETCHED. -/
theorem flowOpen_spec {s : State} {e : Nat × Task} (h : flowOpen s e = true) (f) (hf : e.2.flow = some f) :
    ∀ o ∈ s.pilot.tasks, o.2.flow = some f → o.2.state ≠ .running ∧ o.2.state ≠ .prefetched := by
  intro o ho hof
  unfold flowOpen at h
  rw [hf] at h
  simp only [Bool.not_eq_true'] at h
  unfold flowHeld at h
  rw [List.any_eq_false] at h
  have h2 := h o ho
  simpa only [hof, decide_true, Bool.true_and, Bool.or_eq_true, beq_iff_eq, not_or] using h2

/-- A task whose flow goes to it is the oldest of its flow among those considered. -/
theorem flowFirst_spec {l : List (Nat × Task)} {e : Nat × Task} (h : flowFirst l e = true) (f) (hf : e.2.flow = some f) :
    ∀ o ∈ l, o.2.flow = some f → e.2.readyOrder ≤ o.2.readyOrder := by
  intro o ho hof
  unfold flowFirst at h
  rw [hf] at h
  simp only [Option.isNone_some, Bool.false_or, List.all_eq_true, Bool.or_eq_true, decide_eq_true_eq] at h
  rcases h o ho with h3 | h3
  · exact absurd hof h3
  · exact h3

/-- A task without a flow is never kept back by one. -/
theorem flowOpen_none {s : State} {e : Nat × Task} (h : e.2.flow = none) : flowOpen s e = true := by
  unfold flowOpen; rw [h]

theorem chooseIn_mem {s : State} {core : Nat} {l : List (Nat × Task)} {e : Nat × Task} (h : chooseIn s core l = some e) : e ∈ l := by
  unfold chooseIn at h
  split at h
  · exact (findMin_spec _ _ _ h).1
  · split at h
    · next e' h' =>
      injection h with h; subst h
      exact (List.mem_filter.1 (findMin_spec _ _ _ h').1).1
    · exact (findMin_spec _ _ _ h).1

theorem findMin_none {α : Type} (key : α → Nat) (l : List α) (h : findMin key l = none) : l = [] := by
  have go : ∀ (l : List α) (b : α), (l.foldl (fun best x => match best with
      | none => some x
      | some b => if key x < key b then some x else some b) (some b)) ≠ none := by
    intro l
    induction l with
    | nil => intro b; simp
    | cons a l ih =>
      intro b
      simp only [List.foldl_cons]
      by_cases hk : key a < key b
      · rw [if_pos hk]; exact ih a
      · rw [if_neg hk]; exact ih b
  cases l with
  | nil => rfl
  | cons a l => exact absurd h (go l a)

theorem top_none {l : List (Nat × Task)} (h : topPriority l = []) : l = [] := by
  have mx : ∀ (l : List (Nat × Task)) (m : Nat), l.foldl (fun m e => max m e.2.priority.val) m = m ∨
      ∃ e ∈ l, e.2.priority.val = l.foldl (fun m e => max m e.2.priority.val) m := by
    intro l
    induction l with
    | nil => intro m; exact .inl rfl
    | cons a l ih =>
      intro m
      simp only [List.foldl_cons]
      rcases ih (max m a.2.priority.val) with h | ⟨e, he, h⟩
      · rw [h]
        by_cases hm : m ≤ a.2.priority.val
        · exact .inr ⟨a, List.mem_cons_self .., by omega⟩
        · exact .inl (by omega)
      · exact .inr ⟨e, List.mem_cons_of_mem _ he, h⟩
  cases l with
  | nil => rfl
  | cons a l =>
    exfalso
    have e1 : ∃ e ∈ a :: l, e.2.priority.val = (a :: l).foldl (fun m e => max m e.2.priority.val) 0 := by
      rcases mx (a :: l) 0 with h | h
      · have := (show ∀ (l : List (Nat × Task)) (m : Nat), m ≤ l.foldl (fun m e => max m e.2.priority.val) m by
          intro l; induction l with
          | nil => intro m; exact Nat.le_refl _
          | cons a l ih => intro m; exact Nat.le_trans (Nat.le_max_left ..) (ih _)) l (max 0 a.2.priority.val)
        refine ⟨a, List.mem_cons_self .., ?_⟩
        rw [h]
        rw [List.foldl_cons] at h
        omega
      · exact h
    obtain ⟨e, he, hp⟩ := e1
    have : e ∈ topPriority (a :: l) := by
      unfold topPriority
      rw [List.mem_filter]
      exact ⟨he, decide_eq_true hp⟩
    rw [h] at this
    simp at this

theorem oldest_none {l : List (Nat × Task)} (h : oldest (topPriority l) = none) : l = [] :=
  top_none (findMin_none _ _ h)

end Sys2Proof.Machine
end

