-- ==== Sys2Proof/Tests/Slice0.lean ====
section
/-! SUPPORT. Tests: for each statement a state and operands that meet the hypotheses of its clauses, ill-formed commands
that are refused as ill-formed, and worked values of the spec. Names of witnesses say which statement they are for. -/

namespace Sys2Proof.Tests
set_option Elab.async false
open Sys2Proof Sys2Proof.Machine

/-! ## States -/

/-- The module in SERVICE, its link up and memory laid out. -/
def up : State := { State.reset with
  sys := { mode := .service, tisum := true, laidOut := true }
  pcie := { linkUp := true } }

/-- A region of normal memory from 0 to 1 MiB, all allowed at every level; and the device registers. -/
def plain : Tbl Region := [(0, { base := 0x7FD, limit := 0xFF000 }), (1, { base := 0x200000000FF, limit := 0x200FFFFF000 })]

/-- A core at runtime level with a few registers set, in that map. -/
def core0 : Core := {
  pc := 0x1000, regions := plain, vl := 4, g := [(1, 0x2000), (2, 7), (3, 0x2001), (4, 0x20000100000)]
  p := [(0, 0xFFFF), (1, 5)] }

/-- That core as core 0 of the module. -/
def with0 (k : Core) : State := { up with cores := [(0, k)] }

/-- Core 0 waits with a work item of task 5 of berth 3. -/
def item5 : Item := ⟨5, 5⟩
def task5 : Task := { state := .running, berth := some 3, flags := 3, mask := 1, job := some 1 }
def held5 : State := { with0 { core0 with item := some item5, g := [(1, 5), (2, 0x0100000000000000)] } with
  pilot := { tasks := [(5, task5)], balance := [(3, 100)] } }

/-! ## Cores -/

theorem test_core_ready (k : Core) (hk : k = core0) : coreReady (with0 k) 0 := by
  subst hk; exact ⟨by decide +kernel, by decide +kernel, _, rfl, by decide +kernel, by decide +kernel, by decide +kernel⟩

theorem test_vector_ready : vectorReady (with0 core0) 0 ∧ runtimeReady (with0 core0) 0 ∧ coreQuiet (with0 core0) 0 :=
  ⟨⟨test_core_ready _ rfl, by decide +kernel⟩, ⟨test_core_ready _ rfl, rfl⟩, rfl, rfl⟩

/-- Operand fields that are legal for each group of long vector instructions, at the ends of their widths. -/
theorem test_witness_long_vectors :
    let k (e : BitVec 3) : Core := { core0 with ew := e }
    (∀ e ∈ [0, 3, 4], lanewiseOk [.r, .x, .i] 0 4 ⟨.r, 1, 2, 3, 0⟩ (k e) = true) ∧
    (∀ e ∈ [0, 4], lanewiseOk [.r, .x] 0 4 ⟨.x, 1, 2, 3, 1⟩ (k e) = true) ∧
    (∀ e ∈ [2, 3], lanewiseOk [.r, .x] 2 3 ⟨.r, 31, 2, 3, 0⟩ (k e) = true ∧ oneSourceOk 2 3 ⟨.r, 1, 2, 0, 0⟩ (k e) = true) ∧
    (∀ e ∈ [0, 3], apartOk [.r, .x] 0 3 (wideRegs (k e)) true ⟨.r, 2, 4, 6, 0⟩ (k e) = true ∧
      apartOk [.r] 0 3 (wideRegs (k e)) false ⟨.r, 2, 4, 0, 0⟩ (k e) = true) ∧
    apartOk [.r] 0 0 (groupRegs (k 0)) true ⟨.r, 1, 2, 3, 0⟩ (k 0) = true ∧
    apartOk [.r] 1 1 (wideRegs (k 1)) true ⟨.r, 2, 4, 6, 0⟩ (k 1) = true ∧
    apartOk [.r] 3 3 (wideRegs (k 3)) true ⟨.r, 2, 4, 6, 0⟩ (k 3) = true ∧
    (∀ e ∈ [0, 4], compareOk [.r, .x, .i] 0 4 ⟨.i, 7, 2, 31, 0⟩ (k e) = true) ∧
    compareOk [.r, .x] 2 3 ⟨.x, 1, 2, 3, 0⟩ (k 2) = true ∧
    (∀ e ∈ [0, 4], reduceOk 0 4 ⟨.r, 1, 2, 3, 0⟩ (k e) = true) ∧ reduceOk 2 3 ⟨.r, 1, 2, 3, 0⟩ (k 3) = true ∧
    formIn [.x] ⟨.x, 1, 2, 3, 0⟩ = true ∧ aligned 2 (groupRegs (k 4)) = true := by decide +kernel

/-- 8 bits: 255 + 1 wraps, −128 is the least, and an arithmetic shift keeps the sign (07, R305, R311). -/
theorem test_lane_values :
    (laneResult .add 8 255 1 0).value % 2 ^ 8 = 0 ∧ (laneResult .min 8 0x80 0x7F 0).value % 2 ^ 8 = 0x80 ∧
    (laneResult .sra 8 0x80 1 0).value % 2 ^ 8 = 0xC0 ∧ (laneResult .mulh 8 0xFF 0xFF 0).value % 2 ^ 8 = 0 := by decide +kernel

theorem test_witness_scalar : coreReady (with0 core0) 0 ∧ (srcValue core0 (.reg 2)).toNat < 32 ∧
    getG core0 5 = 0 ∧ getG core0 2 ≠ 0 ∧ relHolds .ltu 64 (getG core0 2).toNat (getG core0 1).toNat = true ∧
    relHolds .eq 64 (getG core0 2).toNat (getG core0 1).toNat = false ∧
    (core0.pc + (0x100 : BitVec 23).signExtend 64).toNat % 4 = 0 ∧ (getG core0 1 + (4 : BitVec 64)).toNat % 4 = 0 :=
  ⟨test_core_ready _ rfl, by decide +kernel, rfl, by decide +kernel, by decide +kernel, by decide +kernel, by decide +kernel,
   by decide +kernel⟩

/-- 1.0 + 1.0 = 2.0 and 1.0 / 0.0 is an infinity with the division flag, in binary32. -/
theorem test_float_values : (fadd .b32 .nearest 0 0x3F800000 0x3F800000 false).1 = 0x40000000 ∧
    (fmul .b64 .nearest 0x4000000000000000 0x4008000000000000).1 = 0x4018000000000000 ∧
    (fdiv .b32 .nearest 0x3F800000 0).1 = 0x7F800000 := by decide +kernel

/-- A store of the core itself covers a load; with none the bytes come from memory; a store of berth 3 is accepted. -/
theorem test_witness_memory :
    let s := with0 { core0 with buffer := [⟨0x2000, [1, 2, 3, 4, 5, 6, 7, 8], none, false⟩] }
    (normalLoad 0 0x2004 4 0 s).1.toOption = some [5, 6, 7, 8] ∧ (normalLoad 0 0x3000 4 0 s).1.toOption = some [0, 0, 0, 0] ∧
    overlapping (getCore s 0) 0x3000 4 = [] ∧ accessType core0 false false 0x2000 8 = .ok false ∧
    accessType core0 false false 0x20000100000 8 = .ok true ∧ accessType core0 false false 0x20000100001 8 = .error 2 ∧
    accessType core0 true true 0x200000 8 = .error 3 ∧ accessType core0 true true 0x2000 8 = .ok false ∧
    (getG core0 3).toNat % 4 ≠ 0 ∧ hasRoom core0 32 ∧ (entryCount core0.buffer + 33 ≤ 32 → False) := by
  and_intros <;> first | decide +kernel | rfl | (unfold hasRoom; decide +kernel)

theorem test_witness_writes :
    let s := { up with dev := { up.dev with own := [(0, { owner := .berth 3, init := true, image := false, filling := false })] } }
    ∃ r t, devWriteBy none (some 3) false 0x100 [1, 2] s = (r, t) ∧ r = .ok [] ∧ memGet 0 t.dev.mem 0x101 = 2 ∧
      memGet 0 t.dev.mem 0x102 = 0 := by
  refine ⟨_, _, (Prod.eta _).symm, ?_, ?_, ?_⟩ <;> decide +kernel

theorem test_witness_stores :
    let k : Core := { core0 with reservation := some 0x80 }
    (getG k 1).toNat % 8 = 0 ∧ k.reservation = some ((getG k 1).toNat / 64) ∧ core0.reservation ≠ some ((getG k 1).toNat / 64) ∧
    (buffered (with0 k) 0 0x2006 (natLe 8 7)).length = 2 ∧ entryCount k.buffer + 2 ≤ 32 ∧
    inDevice k 0x2000 8 = false ∧ inDevice k 0x20000100000 8 = true ∧ deviceLoad 0 0x20000100000 8 (with0 k) = (.ok (List.replicate 8 0), with0 k) := by
  decide +kernel

theorem test_witness_vector_memory :
    let a : VMem := ⟨4, 1, 0, 0, true⟩
    let k : Core := { core0 with structEn := true, ew := 2 }
    aligned a.vd (groupRegs k) = true ∧ a.vd.val + 4 * groupRegs k ≤ 32 ∧ (28 + 4 * groupRegs k ≤ 32 ∧ ¬ 29 + 4 * groupRegs k ≤ 32) ∧
    (elemLoads 0 4 0 (dealList k a 2) [] (with0 k)).1.toOption = some ((dealList k a 2).map (fun e => (e.1, e.2.1, 0))) ∧
    storeFault k a = none ∧ (storeFault k ⟨4, 4, 0, 0, false⟩).isSome = true ∧
    aligned (1 : Fin 32) (groupRegs { k with vg := 1 }) = false := by decide +kernel

theorem test_witness_predicates : getCore (with0 { core0 with vl := 0 }) 0 = { core0 with vl := 0 } ∧ core0.vl ≠ 0 ∧
    accessType core0 false true 0x2000 1 = .ok false ∧ (normalLoad 0 0x2000 1 0 (with0 core0)).1.toOption = some [0] := by
  and_intros <;> first | decide +kernel | rfl

theorem test_witness_short : shortOk .add 0 = true ∧ shortOk .fadd 2 = true ∧ shortOk .fadd 1 = false ∧
    accessType core0 false true 0x2000 16 = .ok false := by
  and_intros <;> first | decide +kernel | rfl

theorem test_witness_exceptions :
    (∀ r, regionFor { core0 with pc := 0x200000 } 0x200000 4 = some r → regionDevice r = true ∨ regionExec r 2 = false) ∧
    (∀ r, regionFor { core0 with pc := 0x20000100000 } 0x20000100000 4 = some r → regionDevice r = true ∨ regionExec r 2 = false) ∧
    coreReady (with0 { core0 with level := 0 }) 0 ∧ coreReady (with0 { core0 with level := 1 }) 0 ∧
    (3 : Fin 32).val % 2 ^ ({ core0 with vg := 1 } : Core).vg.toNat ≠ 0 ∧ ((0x002 : BitVec 12).toNat ∉ [0x000, 0x001]) ∧
    4 < (5 : Nat) % 8 ∧ 512 * 2 ^ 0 / (8 * 2 ^ 0) < (65 * 32) / 32 % 1024 ∧ ¬ 512 * 2 ^ 0 / (8 * 2 ^ 0) < (64 * 32) / 32 % 1024 := by
  refine ⟨?_, ?_, ⟨by decide +kernel, by decide +kernel, _, rfl, by decide +kernel, by decide +kernel, by decide +kernel⟩,
    ⟨by decide +kernel, by decide +kernel, _, rfl, by decide +kernel, by decide +kernel, by decide +kernel⟩, by decide +kernel, by decide +kernel,
    by decide +kernel, by decide +kernel, by decide +kernel⟩
  · have h : regionFor { core0 with pc := 0x200000 } 0x200000 4 = none := by decide +kernel
    rw [h]; simp
  · intro r h
    have h1 : regionFor { core0 with pc := 0x20000100000 } 0x20000100000 4 = some { base := 0x200000000FF, limit := 0x200FFFFF000 } := by decide +kernel
    rw [h1] at h; cases h; exact .inl (by decide +kernel)

theorem test_witness_system :
    let s : State := { up with cores := [(128, { core0 with regions := plain })] }
    runtimeReady s 128 ∧ coreQuiet s 128 ∧ coreReady (with0 core0) 0 ∧ (0x2000 : Nat) < installedBytes (with0 core0) ∧
    coreReady { with0 core0 with dev := { (with0 core0).dev with failed := setBit 0 5 true } } 0 ∧
    refusal (with0 core0) none true 0x2000 8 = none := by
  refine ⟨⟨⟨by decide +kernel, by decide +kernel, _, rfl, by decide +kernel, by decide +kernel, by decide +kernel⟩, rfl⟩, ⟨rfl, rfl⟩,
    test_core_ready _ rfl, by decide +kernel, ⟨by decide +kernel, by decide +kernel, _, rfl, by decide +kernel, by decide +kernel, by decide +kernel⟩,
    by decide +kernel⟩

/-- GETW with an item held, one in the slot, nothing to give, and a READY task; DONEW of the item; a pulse each way. -/
theorem test_witness_work :
    let ready : Task := { task5 with state := .ready, berth := none }
    let s : State := { with0 core0 with pilot := { tasks := [(5, ready)] } }
    (getCore held5 0).item = some item5 ∧ (getCore (with0 core0) 0).slot = none ∧ (choose 0 0 (with0 core0)).1 = none ∧
    (choose 0 0 s).1 = some 5 ∧ item5.handle = getG (getCore held5 0) 1 ∧ (getG (getCore held5 0) 2).toNat / 2 ^ 56 ≠ 0 ∧
    wakes (releasedTask task5 none) ∧ ¬ wakes (releasedTask { task5 with flags := 0 } none) ∧
    (releasedTask { task5 with flags := 0 } (some ⟨4, true, 9⟩)).mask = 4 := by
  refine ⟨?_, ?_, ?_, ?_, ?_, ?_, ?_, ?_, ?_⟩ <;> first | decide +kernel | (unfold wakes waitTrue; decide +kernel)

theorem test_witness_events :
    let x : Task := { state := .waiting, berth := some 3, mask := 8 }
    x.flags.getLsbD 3 = false ∧ wakes { x with flags := x.flags ||| (1#32 <<< (3 : Nat)) } ∧
    ¬ wakes { x with flags := x.flags ||| (1#32 <<< (2 : Nat)) } ∧
    (0x80000000 - 0 : BitVec 32).toNat = 2 ^ 31 ∧ (5 - 4 : BitVec 32).toNat < 2 ^ 31 ∧ 0 < (5 - 4 : BitVec 32).toNat := by
  refine ⟨?_, ?_, ?_, ?_, ?_, ?_⟩ <;> first | decide +kernel | (unfold wakes waitTrue; decide +kernel)

theorem test_witness_prefetch :
    let s : State := { up with
      cores := [(0, core0)], pilot := { force := 2, tasks := [(5, { task5 with state := .ready, berth := none })], windows := [(0, List.replicate 256 (0, some 4)), (1, List.replicate 255 (0, none))] } }
    coreRuns s 0 = true ∧ (choose 0 0 s).1 = some 5 ∧ (tblGet [] s.pilot.windows 0).length = 256 ∧
    (tblGet [] s.pilot.windows 1).length = 255 ∧ 256 * 4 + 0 < s.pilot.tune.toNat / 2 ^ 8 % 256 * 256 * 256 ∧ 0 < s.pilot.tune.toNat / 2 ^ 8 % 256 := by decide +kernel

/-! ## Registers, queues and jobs -/

/-- A queue entry of one granule: OPCODE, LEN_GRANULES 1, STATUS_ADDR 0x1000 and fields as offset, length, value. -/
def entryOf (op : Nat) (fs : List (Nat × Nat × Nat)) : Bytes :=
  fs.foldl (fun b f => overlay b f.1 (natLe f.2.1 f.2.2)) (natLe 1 op ++ [1, 0, 0, 0, 0, 0, 0] ++ natLe 8 9 ++ natLe 8 0x1000 ++ List.replicate 40 0)

/-- Job 1 of berth 3. -/
def jobOf (op : Nat) (fs : List (Nat × Nat × Nat)) : Job := {
  queue := 24, berth := some 3, tag := 9, statusAddr := 0x1000, entry := entryOf op fs, opcode := op, sqIndex := 0, notify := false }

/-- An ACTIVE berth with PASID 2 and one vector. -/
def berth3 : Berth := { state := .active, pasid := 2, queueCount := 1, vectorBase := 0, vectorCount := 1, taskQuota := 64 }

/-- A queue of berth 3 with rings of 16 granules. -/
def queue24 (q : QState) : Queue := { state := q, sqBase := 0x10000, cqBase := 0x20000, indexAddr := 0x30000, sqOrder := 4, cqOrder := 4 }

/-- The module with berth 3, its queue, and job 1. -/
def busy (k : Queue) (x : Job) : State := { up with berths := [(3, berth3)], queues := [(24, k)], jobs := [(1, x)], nextJob := 2 }

theorem test_witness_counters :
    barOpen up = true ∧ barOpen State.reset = false ∧ (blockShape .pilot).1 ≤ (blockShape .pilot).1 + (blockShape .pilot).2.1 ∧
    (let s := count .pilot 0 (2 ^ 64 - 1) up; counterVal s .pilot 0 = 2 ^ 64 - 1 ∧ counterVal (count .pilot 0 1 s) .pilot 0 = 2 ^ 64 - 1 ∧
      (tblGet {} (count .pilot 0 1 s).counters (blockKey .pilot)).ovf.getLsbD 0 = true) := by decide +kernel

theorem test_witness_registers :
    pathOpen up .pcie = true ∧ pathOpen up .harbourmaster = true ∧ rslWide .deviceTime = true ∧ rslWide (.counter .pilot 0) = true ∧
    ((queue24 .active).state ≠ .disabled ∧ (queue24 .disabled).state = .disabled) ∧ (getB (busy (queue24 .active) (jobOf 1 [])) 3).state ≠ .absent := by
  decide +kernel

theorem test_witness_event_sources :
    let s := { up with pcie := { up.pcie with
      msixEnable := true, esPending := [(5, true)], esSteer := [(5, 0x8001), (6, 0x0001)], msixPending := [(1, true)] } }
    barOpen s = true ∧ tblGet false s.pcie.esPending 5 = true ∧ tblGet false s.pcie.esPending 6 = false ∧
    (tblGet 0 s.pcie.esSteer 5).getLsbD 15 = true ∧ (tblGet 0 s.pcie.esSteer 6).getLsbD 15 = false ∧
    tblGet false s.pcie.msixPending 1 = true ∧ (afterMessage 1 s).msixPending = [(1, true)] := by decide +kernel

/-- Each cause of CFG_CAUSE alone; every state that a command of a queue looks at; both limits of an index. -/
theorem test_witness_queues :
    let s := busy (queue24 .disabled) (jobOf 1 [])
    let cause (k : Queue) : Option (BitVec 4 × QState) := match execEnable 24 (busy k (jobOf 1 [])) with
      | .next t => some ((getQ t 24).cfgCause, (getQ t 24).state)
      | _ => none
    queueBerth 24 = some 3 ∧ queueBerth 4096 = none ∧ mayTake s 24 = true ∧ hostBlocked s = false ∧
    cause (queue24 .disabled) = some (0, .active) ∧ cause { queue24 .disabled with sqBase := 0 } = some (1, .disabled) ∧
    cause { queue24 .disabled with sqOrder := 3 } = some (2, .disabled) ∧ cause { queue24 .disabled with cqOrder := 17 } = some (2, .disabled) ∧
    cause { queue24 .disabled with vector := 1 } = some (3, .disabled) ∧
    QState.active.live = true ∧ QState.error.live = true ∧ QState.disabled.live = false ∧
    ((16 : BitVec 32) - 0).toNat ≤ 2 ^ (4 : BitVec 8).toNat ∧ 2 ^ (4 : BitVec 8).toNat < ((17 : BitVec 32) - 0).toNat := by
  decide +kernel

/-- A pushed granule of each cause 0 to 4, an entry at hand that is new, repeated or badly placed. -/
theorem test_witness_entries :
    let q (b : Bytes) : Queue := { queue24 .active with
      pushValid := true, pushed := (List.range 64).zipWith (fun i v => (i, v)) b, pushBase := 0 }
    let code (b : Bytes) : BitVec 4 := match execEntryTake 24 ⟨[], []⟩ (busy (q b) (jobOf 1 [])) with
      | .next t => (getQ t 24).errCause
      | _ => 15
    code (entryOf 1 []) = 0 ∧ code (entryOf 0x40 []) = 1 ∧ code (entryOf 1 [(1, 1, 0)]) = 2 ∧ code (entryOf 1 [(1, 1, 17)]) = 2 ∧
    code (entryOf 1 [(2, 2, 2)]) = 3 ∧ code (entryOf 1 [(1, 1, 2)]) = 4 ∧
    (let k : Queue := { queue24 .active with taken := some ⟨entryOf 1 [], 0⟩ }
     (busy k (jobOf 1 [])).jobs.length < 256 ∧ field (entryOf 1 []) 16 8 % 64 = 0 ∧ field (entryOf 1 [(16, 8, 32)]) 16 8 % 64 ≠ 0 ∧
     postable (busy { k with cqProd := 16, cqConsSeen := 0 } (jobOf 1 [])) 24 = false) := by decide +kernel

theorem test_witness_jobs :
    let s := busy (queue24 .active) (jobOf 1 [])
    let zeros (e : Bytes) (m : Nat) : Bool := ((e.drop 0x18).take (m - 0x18)).all (· == 0)
    (getJ s 1 = some (jobOf 1 [])) ∧ workable s (jobOf 1 []) = true ∧ zeros (jobOf 1 []).entry 0x40 = true ∧
    (jobOf 1 [(0x3F, 1, 1)]).entry.getD 0x3F 0 ≠ 0 ∧ zeros (jobOf 1 [(0x3F, 1, 1)]).entry 0x3F = true ∧
    field (jobOf 2 [(0x18, 1, 1)]).entry 0x18 1 = 1 ∧ postable s 24 = true ∧
    (match execQueueFence 1 (busy { queue24 .active with fence := some 1 } (jobOf 2 [(0x18, 1, 1)])) with
      | .next t => (getJ t 1).map (fun y => (y.begun, y.state, y.result)) | _ => none) = some (true, 2, none) ∧
    (match execJobFinal 1 (busy (queue24 .active) { jobOf 1 [] with result := some ⟨4, 0, 0⟩ }) with
      | .next t => some (getJ t 1, (getQ t 24).cqProd, hostBytes t 3 0x1000 8) | _ => none) = some (none, 1, [4, 1, 0, 0, 0, 0, 0, 0]) := by
  decide +kernel

theorem test_witness_link :
    let d3 (f : Pcie → Pcie) : State := { up with pcie := f { up.pcie with d3hot := true } }
    up.pcie.linkUp = true ∧ State.reset.pcie.linkUp = false ∧ (8 : BitVec 8).toNat < up.present.linkWidth.toNat ∧
    (d3 (fun p => { p with held := [⟨0, 4, [1]⟩] })).pcie.held = [⟨0, 4, [1]⟩] ∧ (d3 (fun p => { p with msixHeld := [1] })).pcie.msixHeld = [1] ∧
    hostActive (d3 id) = true ∧ (d3 id).berths = [] ∧ hostActive { d3 id with sys := { up.sys with mode := .hold } } = false := by decide +kernel

theorem test_witness_aperture :
    let s := { up with dev := { up.dev with own := [(0, { owner := .berth 3, init := true }), (1, { owner := .berth 3, init := true, image := true })] } }
    barOpen s = true ∧ refusal s none false 0 64 = none ∧ deadAt s 0 64 = none ∧ (ownOf s 0).init = true ∧ (ownOf s 0).owner ≠ .device ∧
    (ownOf s 1).image = true ∧ 0 ∈ granulesOf 0 64 ∧ 1 ∈ granulesOf (2 ^ 21 - 1) 2 ∧ s.pcie.bar4Size = 0x10000000 ∧
    installedBytes s < (2 ^ 40 - 63) + 64 ∧ (16 * 2 ^ 8) / 2 ^ 8 % 64 = 16 ∧
    (let b : State := { State.reset with sys := { mode := .boot }, pcie := { linkUp := true } }; b.sys.mode = .boot ∧ b.sys.tisum = false) := by
  decide +kernel

theorem test_witness_failures :
    let s := { with0 core0 with log := {} }
    s.sys.tisum = true ∧ s.present.cores.getLsbD 1 = true ∧ (getCore s 0).isolated = false ∧ setBit s.present.groves 0 false ≠ 0 ∧
    (getQuay s 1).state = 0 ∧ s.present.quays.getLsbD (0 ^^^ 1) = true ∧ 8 ≤ popCount (setBit s.present.channels 0 false) ∧
    (match execQuayFailure 0 7 { s with quays := [(1, { state := 2 })] } with | .next t => t.sys.holdCause | _ => 0) = 0x2021 ∧
    (match execQuayFailure 0 7 s with
      | .next t => some ((getQuay t 0).handing, (getQuay t 1).state, t.sys.mode) | _ => none) = some (true, 1, .degraded) ∧
    s.mram.retired.parts.getLsbD 68 = false ∧ s.sys.mismatches = 0 := by decide +kernel

/-! ## Words and register reads -/

/-- Words written out from the formats of 07 (R300, R304, R312, R321, R323 to R325) and 08 (R344, R348). -/
theorem test_words :
    wordInstr 0 {} 0xC1021900 = some (.vadd 0 ⟨.r, 8, 2, 3, 1⟩) ∧ wordInstr 0 {} 0xCC221800 = some (.setvl 0 1 2 0 3) ∧
    wordInstr 0 {} 0xD08100A0 = some (.vdeal3 0 ⟨4, 1, 0, 0, true⟩ 0) ∧ wordInstr 0 {} 0xD8A60000 = some (.pand 0 1 2 3) ∧
    wordInstr 0 {} 0xE048C050 = some (.sshuf 0 0 1 2 3) ∧ wordInstr 0 {} 0xE487FFE0 = some (.sld 0 2 3 0xFFF 0) ∧
    wordInstr 0 {} 0xF0A00001 = some (.getw 0 5 0 0) ∧ wordInstr 0 {} 0x50221803 = some (.stx 0 1 2 3 true) ∧
    wordInstr 0 {} 0x54000000 = some (.fence 0) := by and_intros <;> decide +kernel

theorem test_words_reserved :
    ([0, 0x80000000, 0xCC221801, 0xC102190F, 0xD08100A1, 0xD8A60100, 0xE048C150, 0xE487FFE1, 0xF0A00101, 0xF0A10001, 0x50221807, 0x54000001] :
      List (BitVec 32)).all (fun w => (wordInstr 0 {} w).isNone) = true := by decide +kernel

theorem test_witness_register_reads :
    let s := busy { queue24 .active with sqHead := 7 } (jobOf 1 [])
    barOpen s = true ∧ s.sys.holdDead = false ∧ readBar0 s 0 = some 3 ∧ readBar0 s 0x101820 = some 7 ∧ readBar0 s 0x101830 = some 0 ∧
    readBar0 s 0x101900 = some 0 ∧ readBar2 s 0x30000 = some 0x301 ∧ readBar2 s 0x30004 = some 1 ∧ readBar2 s 0x3800C = some 7 ∧
    readBar2 s 0x40000 = some 0 ∧ readBar0 State.reset 0 = none := by and_intros <;> decide +kernel

/-- A write of ones to the W1C register QUEUE_ERRORS of berth 3 clears what they name; AER answers a refused access. -/
theorem test_witness_registers_clear :
    let s : State := { busy (queue24 .active) (jobOf 1 []) with berths := [(3, { berth3 with queueErrors := 5 })] }
    (match execRegisterWrite .bar2 0x3000C 4 15 s with | .next t => readBar2 t 0x3000C | _ => none) = some 1 ∧
    (match execBar4Access 0 64 none { s with pcie := { s.pcie with apertureBase := 0x10000000000 } } with
      | .next t => some (t.sys.readRefused, t.pcie.aerUncorrectable, t.pcie.aerCorrectable) | _ => none) = some (true, 0x100000, 0x2000) := by
  and_intros <;> decide +kernel

/-! ## Images, runs, batches -/

/-- Fields laid over zeros: offset, length, value. -/
def layBytes (n : Nat) (fs : List (Nat × Nat × Nat)) : Bytes :=
  fs.foldl (fun b f => overlay b f.1 (natLe f.2.1 f.2.2)) (List.replicate n 0)

/-- An image of 384 bytes: a SCAN of one INT64 column, its EMIT, one edge; the check field as given. -/
def imageWith (check : Bytes) : Bytes :=
  [16, 1, 0, 0, 128, 1, 0, 0] ++ check ++ [2, 0, 1, 0, 64, 0, 0, 0, 184] ++ List.replicate 4 0 ++ [1, 0, 0, 64, 1, 0, 0, 16, 0, 0, 0, 128, 1] ++
  List.replicate 6 0 ++ [128, 1] ++ List.replicate 10 0 ++ [77] ++ List.replicate 7 0 ++ [1, 0, 0, 0, 1, 0, 0, 0, 128, 0, 0, 0, 48] ++
  List.replicate 51 0 ++ [13, 1, 0, 1] ++ List.replicate 4 0 ++ [176, 0, 0, 0, 8] ++ List.replicate 51 0 ++ [1] ++ List.replicate 32 0 ++ [64] ++
  List.replicate 7 0 ++ [1, 4] ++ List.replicate 25 0 ++ [1, 0, 2] ++ List.replicate 57 0 ++ [1] ++ List.replicate 7 0 ++ [4] ++ List.replicate 55 0

/-- The check covers the image with the check field zero (04, R145; 01, R22); computed by hand outside the model. -/
def imageBytes : Bytes := imageWith [51, 191, 92, 95]

def crcTo (c : BitVec 32) (b : Bytes) : BitVec 32 := b.foldl (crcByte 32 0x82F63B78) c
def part (k : Nat) : Bytes := slice (imageWith [0, 0, 0, 0]) (64 * k) 64

theorem crc_parts : crcTo 0xFFFFFFFF (part 0) = 0x64c91652 ∧ crcTo 0x64c91652 (part 1) = 0xcf85fe59 ∧ crcTo 0xcf85fe59 (part 2) = 0xbdb134cf ∧
    crcTo 0xbdb134cf (part 3) = 0x2d238538 ∧ crcTo 0x2d238538 (part 4) = 0x9b3e7b23 ∧ crcTo 0x9b3e7b23 (part 5) = 0xa0a340cc := by
  and_intros <;> decide +kernel

theorem image_crc : crc32c (imageWith [0, 0, 0, 0]) = 0x5f5cbf33 := by
  have h : imageWith [0, 0, 0, 0] = part 0 ++ (part 1 ++ (part 2 ++ (part 3 ++ (part 4 ++ part 5)))) := by decide +kernel
  obtain ⟨a, b, c, d, e, f⟩ := crc_parts
  unfold crcTo at a b c d e f
  rw [h, crc32c]
  simp only [List.foldl_append, a, b, c, d, e, f]
  decide

theorem test_check_of_digits : crc32c [0x31, 0x32, 0x33, 0x34, 0x35, 0x36, 0x37, 0x38, 0x39] = 0xE3069283 := by decide +kernel

/-- What follows the header and the check. -/
def imageRest (b : Bytes) (h : ImageHead) : Except FaultAt Image := do
  let (ps, autos) ← checkConsts b h
  let stages ← (List.range h.stageCount).mapM (checkStage b h autos)
  demand imageGraph (graphTests b h stages)
  pure { length := h.length, stages := stages, edges := edgesOf b h, autos := autos, params := ps,
         constAt := h.constAt, constLength := h.constLength, codeAt := h.codeAt, codeLength := h.codeLength,
         runtimeMin := h.runtimeMin, imageId := h.imageId }

def theHead : ImageHead := parseHead imageBytes

/-- The image as read. -/
def theImage : Image := {
  length := 384
  stages := [
    { kind := 1, instances := 0, priority := 0, inPorts := 0, outPorts := 1, schemas := [[(4, 0)]], entry := 0, groveStore := 0, bodyAt := 192
      body := .scan [⟨0x4000, 0, true, false, 4, 0⟩] [] false false 0 0 0 (List.replicate 16 0) },
    { kind := 0x0D, instances := 1, priority := 0, inPorts := 1, outPorts := 0, schemas := [], entry := 0, groveStore := 0, bodyAt := 240
      body := .emit 0 }]
  edges := [⟨0, 0, 1, 0, 2, [(4, 0)]⟩], autos := [], params := [], constAt := 320, constLength := 16, codeAt := 384, codeLength := 0
  runtimeMin := 0, imageId := 77 }

theorem ok_of_toOption {α ε : Type} {e : Except ε α} {a : α} (h : e.toOption = some a) : e = .ok a := by
  cases e with
  | ok i => simpa [Except.toOption] using h
  | error e => simp [Except.toOption] at h

theorem checkImage_rest (b : Bytes) (n r : Nat) (h : ImageHead) (h1 : checkHead b n = .ok h)
    (h2 : (crc32c (overlay (b.take h.length) 8 [0, 0, 0, 0])).toNat = field b 8 4) (h3 : h.runtimeMin ≤ r) :
    checkImage b n r = imageRest b h := by
  unfold checkImage imageRest
  rw [h1]
  simp only [bind, Except.bind]
  rw [h2]
  simp only [demand, h3, decide_true, List.find?, Bool.not_true]

theorem test_image_accepted : checkImage imageBytes 384 0 = .ok theImage := by
  rw [checkImage_rest imageBytes 384 0 theHead (ok_of_toOption (by decide +kernel))
    (by rw [show overlay (imageBytes.take theHead.length) 8 [0, 0, 0, 0] = imageWith [0, 0, 0, 0] by decide +kernel, image_crc]; decide +kernel)
    (by decide +kernel)]
  exact ok_of_toOption (by decide +kernel)

/-- Memory cells of bytes at an address. -/
def cells (a : Nat) (b : Bytes) : List Host.Cell := ((List.range b.length).zip b).filterMap (fun e => if e.2 = 0 then none else some (a + e.1, e.2))

/-- Berth 3 with its queue, granules 0, 2 and 3 its own, granule 1 an image of it in slot 5; an empty directory at 0x4000. -/
def loaded (x : Job) : State := { busy (queue24 .active) x with
  berths := [(3, { berth3 with slots := [(5, { state := .loaded, addr := 0x200000, length := 384, imageId := 77, granules := [1] }), (6, {})] })]
  dev := { up.dev with
    mem := cells 0x4000 (layBytes 64 [(0, 1, 3), (1, 1, 4), (8, 4, 16)]) ++ cells 0x200000 imageBytes
    own := [(0, { owner := .berth 3, init := true }), (1, { owner := .berth 3, init := true, image := true }),
            (2, { owner := .berth 3, init := true }), (3, { owner := .berth 3, init := true })] } }

/-- LOAD_IMAGE into slot 6 at granule 2, and RUN of slot 5 with its scratch in granule 3. -/
def loadJob : Job := jobOf 0x10 [(1, 1, 1), (0x18, 8, 0x5000), (0x20, 4, 384), (0x24, 1, 6), (0x28, 8, 0x400000)]
def runJob : Job := jobOf 0x12 [(1, 1, 1), (0x18, 8, 0x6000), (0x20, 8, 0x600000), (0x28, 4, 1), (0x2C, 1, 5), (0x30, 8, 10), (0x38, 4, 2)]
def viewOf (a : Nat) (b : Bytes) : HostView := ⟨[(3, a, b)], []⟩

/-- The result descriptor of one set of one column. -/
def descriptor : Bytes := layBytes 160 [(0, 1, 7), (1, 1, 1), (8, 4, 64), (64, 1, 1), (72, 8, 100), (128, 8, 0x8000), (136, 8, 0x9000)]

theorem test_witness_load :
    let x := loadJob
    let s := loaded x
    let s0 := hostSync (viewOf 0x5000 imageBytes) s
    workable s x = true ∧ hostBlocked s0 = false ∧ s0.host.faults = [] ∧ (getSlot s 3 6).state = .empty ∧
    granulesOf 0x400000 384 = [2] ∧ (ownOf s 2).owner = .berth 3 ∧ (ownOf s 2).image = false ∧ s.dev.failed = 0 ∧ s.dev.poison = [] ∧
    0x400000 + 384 ≤ installedBytes s ∧ 0x400000 + max (granuleBytes * ceilDiv 384 granuleBytes) 1 ≤ interBytes s ∧
    hostBytes (beginJob 1 s0) (hostKey s (some 3)) 0x5000 384 = imageBytes ∧ x.berth = some 3 ∧ field x.entry 0x24 1 = 6 ∧
    (x.entry.drop 0x30).take 16 = List.replicate 16 0 ∧ field (jobOf 0x10 [(0x24, 1, 64)]).entry 0x24 1 = 64 := by
  and_intros <;> decide +kernel

theorem test_witness_run_start :
    let x := runJob
    let s := loaded x
    let s0 := hostSync (viewOf 0x6000 descriptor) s
    let s1 := (devRead none false 0x200000 384 s0).2
    let s2 := (allSnapshots 3 x (numbered theImage.stages) (devWrite (some 3) false 0x600000 (constCopy x theImage imageBytes) s1).2)
    workable s x = true ∧ hostBlocked s0 = false ∧ getR s 1 = none ∧ (getSlot s 3 5).state = .loaded ∧
    (devRead none false 0x200000 384 s0).1 = .ok imageBytes ∧ paramFault x theImage = none ∧ tableWaits s1 3 1 theImage = false ∧
    granulesOf 0x600000 granuleBytes = [3] ∧ (s2.1.toOption.map (fun d => d.map (fun e => (e.1, e.2.map (·.totalRows))))) = some [(0, [0])] ∧
    (bindTables s2.2 3 1 theImage).toOption = some [] ∧ ((readDescriptor 3 0x6000 theImage s2.2).1.toOption.map (·.map (·.1))) = some [0] := by
  and_intros <;> decide +kernel

/-- The run as it stands after its start, and placed. -/
def theRun : Run := {
  slot := 5, image := theImage, codeBase := 0x200180, resultAddr := 0x6000, scratchAddr := 0x600000,
  scratchLength := 0x200000, rowLimit := 10, timeLimit := 2 }
def started (placed : Bool) : State := { loaded runJob with runs := [(1, { theRun with placed := placed })] }

theorem test_witness_placement :
    let s := started false
    (instList s theImage).length ≤ 64 ∧ canPlace s 3 theImage = true ∧ (getB s 3).state ≠ .freezing ∧
    (let t := { s with berths := [(3, { berth3 with taskQuota := 0 })] }
     (getB t 3).taskQuota.toNat < (instList t theImage).length) := by
  and_intros <;> decide +kernel

theorem test_witness_run_ends :
    let u := jobOf 0x11 [(0x18, 1, 5)]
    let c := jobOf 0x13 [(0x18, 8, 9)]
    let s := { loaded u with jobs := [(1, u), (2, { c with tag := 10 })], berths := [(3, { berth3 with slots := [(5,
      { state := .unloading, addr := 0x200000, granules := [1], unloadJob := some 1 })] })] }
    let b := { loaded c with jobs := [(1, c), (2, { runJob with state := 2 })] }
    let b := { b with runs := [(2, { theRun with placed := true })], pilot := { b.pilot with tasks := [(5, { task5 with job := some 2 })] } }
    workable (loaded u) u = true ∧ (getSlot (loaded u) 3 5).state = .loaded ∧ (getSlot (loaded u) 3 6).state ≠ .loaded ∧
    (match execSlotUnloadComplete 3 5 s with
      | .next t => some (getSlot t 3 5, (getJ t 1).map (·.result), (ownOf t 1).image) | _ => none) =
      some ({}, some (some ⟨4, 0, 0⟩), false) ∧
    paramFault (jobOf 0x12 [(0x2D, 1, 1)]) theImage = some 0 ∧
    (match execCancel 1 b with
      | .next t => some ((getJ t 1).map (·.result), (getJ t 2).map (·.result), (getT t 5).flags.getLsbD 30) | _ => none) =
      some (some (some ⟨4, 0, 0⟩), some (some ⟨6, 0, 0⟩), true) ∧
    (match execCancel 1 { b with jobs := [(1, c)] } with | .next t => (getJ t 1).map (·.result) | _ => none) = some (some ⟨5, 0x0312, 0⟩) ∧
    (match execTimeLimitExpiry 2 { b with sys := { b.sys with time := 2000 } } with | .next t => (getJ t 2).map (·.result) | _ => none) =
      some (some ⟨5, 0x030F, 2⟩) ∧
    (match execTimeLimitExpiry 2 { b with sys := { b.sys with time := 1999 } } with | .next t => (getJ t 2).map (·.result) | _ => none) = some none := by
  and_intros <;> decide +kernel

/-- A batch of rows of one INT64 column, and a run whose stage 1 has a body and an instance with that batch in its queue. -/
def batchOf (last : Bool) (vs : List Value) : Batch := ⟨0, 0, 0, last, 0, vs.length, none, none, [⟨4, 0, vs⟩], none⟩
def stageOf (kind outs : Nat) (b : StageBody) : Stage := ⟨kind, 1, 0, 1, outs, List.replicate outs [(4, 0)], 0, 0, 0, b⟩
def batchRun (g : Stage) (vs : List Value) : Run := { theRun with
  image := { theImage with stages := [(theImage.stages.headD g), g, stageOf 0x0D 0 (.emit 1)], edges := [⟨0, 0, 1, 0, 2, [(4, 0)]⟩, ⟨1, 0, 2, 0, 2, [(4, 0)]⟩] }
  placed := true, counts := [1, 1, 1]
  insts := [(32, { task := 5, queue := [⟨0, 0, batchOf false vs⟩], turn := some 0 })]
  sets := [(0, { record := 0x6040, capacity := 2, columns := [⟨0, 0x8000, 0, 0, 0, 0, 0⟩] })] }
def stageState (g : Stage) (vs : List Value) : State := { busy (queue24 .active) { runJob with state := 2 } with
  runs := [(1, batchRun g vs)], cores := [(0, { core0 with item := some item5 })], pilot := { up.pilot with tasks := [(5, task5)] } }

/-- The outcome of job 1 after a command, the rows counted, and what its instance of stage 1 holds. -/
def ended (o : Host.Outcome State Fault Refusal) : Option (Option JobEnd × Nat × Nat × Nat × Nat) := match o with
  | .next t => match getJ t 1, getR t 1 with
    | some x, some r => some (x.result, x.rows, (getI r 1 0).queue.length, (getI r 1 0).finished.length, (getI r 1 0).out.length)
    | _, _ => none
  | _ => none

theorem test_witness_batches_expr :
    let g := stageOf 3 1 (.expr [16])
    let s := stageState g [.num 7]
    let inside (k : Core) : State := { s with
      cores := [(0, { k with item := some item5 })]
      runs := [(1, { batchRun g [] with insts := [(32, { task := 5, work := .inHand ⟨0, 0, batchOf false [.num 7]⟩ [] })] })] }
    let back (fault : BitVec 64) := execExprCall 1 1 0 0 (.returned [⟨0, 1, none, none, [[.num 8]]⟩]) (inside { core0 with
      level := 1, g := [(10, fault), (11, 1)] })
    let core c := match c with | Host.Outcome.next (t : State) => some ((getCore t 0).level, (getCore t 0).pc, tblGet 0 (getCore t 0).g 10) | _ => none
    let called (level : BitVec 2) := inside { core0 with excCause := 6, excLevel := level, user := some ⟨[], [], 0x9000, 3⟩, g := [(10, 5)] }
    holderOf s 5 = some 0 ∧ inputEnded (batchRun g [.num 7]) 1 0 = false ∧ outCovered (batchRun g [.num 7]) (getI (batchRun g [.num 7]) 1 0) = true ∧
    ended (execExprCall 1 1 0 0 .enter s) = some (none, 0, 0, 0, 0) ∧ core (execExprCall 1 1 0 0 .enter s) = some (1, 0x200180, 0) ∧
    core (execExprCall 1 1 0 0 (.call 0 3) (called 1)) = some (0, 0x200190, 5) ∧
    core (execExprCall 1 1 0 0 .back (called 0)) = some (1, 0x9000, 5) ∧
    ended (back 9) = some (some ⟨5, 0x0310, 9⟩, 0, 0, 0, 0) ∧ ended (back 0) = some (none, 0, 0, 1, 1) := by and_intros <;> decide +kernel

theorem test_witness_batches_units :
    ended (execExchangeBatch 1 1 0 (stageState (stageOf 4 1 (.exchange false [0])) [.num 7])) = some (none, 0, 0, 1, 1) ∧
    ended (execExchangeBatch 1 1 0 (stageState (stageOf 4 1 (.exchange true [0])) [.num 7])) = some (none, 0, 0, 1, 1) ∧
    (let g := stageOf 5 0 (.hashBuild [0] 0 0)
     unitTurn (stageState g [.num 7]) 1 1 0 g (getI (batchRun g [.num 7]) 1 0) = true) ∧
    ended (execFixedUnitBatch 1 1 0 [] (stageState { stageOf 8 1 (.sort [⟨0, false, false, 0⟩]) with groveStore := 4096 } [.num 7])) =
      some (none, 0, 0, 1, 0) := by
  and_intros <;> decide +kernel

theorem test_witness_batches_emit :
    let g := stageOf 0x0D 0 (.emit 0)
    ended (execEmitBatch 1 1 (stageState g [.num 7, .num 8])) = some (none, 2, 0, 1, 0) ∧
    ended (execEmitBatch 1 1 (stageState g [.num 7, .num 8, .num 9])) = some (some ⟨5, 0x030B, 0⟩, 0, 0, 0, 0) ∧
    ended (execEmitBatch 1 1 (stageState g [.num 7, .null])) = some (some ⟨5, 0x030C, 1⟩, 0, 0, 0, 0) := by and_intros <;> decide +kernel

theorem test_witness_credit_and_arrival :
    let g := stageOf 3 1 (.expr [])
    let s := stageState g [.num 7]
    let r := { batchRun g [.num 7] with mesh := [⟨0, 0, 2, batchOf false []⟩], used := [(0, 1)], insts := [(32, { task := 5, finished := [0] })] }
    let t := { s with runs := [(1, r)] }
    (getI r 1 0).heldFin ≤ 0 ∧ ended (execEdgeCreditReturn 1 1 0 t) = some (none, 0, 0, 0, 0) ∧
    ended (execBatchArrival 1 0 0 2 t) = some (none, 0, 1, 1, 0) := by and_intros <;> decide +kernel

/-! ## Bytes and blocks -/

/-- One PLAIN block of one INT64 row, the value 7 (02, R37, R38, R44); its check worked out outside the model. -/
def blockBytes : Bytes :=
  [1, 4] ++ List.replicate 6 0 ++ [1, 0, 0, 0, 8, 0, 0, 0, 8, 0, 0, 0, 0x8E, 0xB7, 0x71, 0x76] ++ List.replicate 40 0 ++ [7] ++ List.replicate 63 0

/-- That block begins subchannel 0's local window, which berth 3 owns; granule 0 of memory holds 5 at 0x100. -/
def windowAt : Nat := 0x4000000000
def stored (x : Job) : State := { busy (queue24 .active) x with dev := { up.dev with
  mem := cells 0x100 [5] ++ cells windowAt blockBytes
  own := [(0, { owner := .berth 3, init := true }), (windowAt / granuleBytes, { owner := .berth 3, init := true })] } }

/-- Outcome and bytes of job 1 with a byte of device memory and one of berth 3's host memory. -/
def moved (o : Host.Outcome State Fault Refusal) (d h : Nat) : Option (Option JobEnd × Nat × Byte × Byte) := match o with
  | .next t => (getJ t 1).map (fun x => (x.result, x.bytes, memGet 0 t.dev.mem d, hostByte t 3 h))
  | _ => none

theorem test_witness_moves :
    let put := jobOf 0x20 [(0x18, 8, 0x5000), (0x20, 4, 128), (0x28, 8, windowAt)]
    let get := jobOf 0x21 [(0x18, 8, 0x100 - 0x100), (0x20, 4, 512), (0x28, 8, 0x7000)]
    let move (dir src dst : Nat) := jobOf 0x22 [(0x18, 8, src), (0x20, 8, dst), (0x28, 8, 4), (0x30, 1, dir)]
    let fill (dir a : Nat) := jobOf 0x23 [(0x18, 8, a), (0x20, 8, 4), (0x28, 8, 0x0102), (0x30, 1, dir)]
    let done n (d h : Byte) := some (some (⟨4, 0, 0⟩ : JobEnd), n, d, h)
    let view := viewOf 0x5000 blockBytes
    localBase (stored put) 0 = windowAt ∧ headerOk (parseHeader blockBytes) true = true ∧
    moved (execPutBlocks 1 view { stored put with dev := { (stored put).dev with mem := [] } }) (windowAt + 64) 0x5040 = done 128 7 7 ∧
    moved (execGetBlocks 1 (stored get)) 0x100 0x7100 = done 512 5 5 ∧
    moved (execMove 1 view (stored (move 0 0x5040 0x200))) 0x200 0x5040 = done 4 7 7 ∧
    moved (execMove 1 view (stored (move 1 0x100 0x7000))) 0x100 0x7000 = done 4 5 5 ∧
    moved (execMove 1 view (stored (move 2 0x100 0x104))) 0x104 0 = done 4 5 0 ∧
    (moved (execMove 1 view (stored (move 2 0x100 0x103))) 0 0).map (·.1) = some (some ⟨5, 0x0802, 0x18⟩) ∧
    moved (execMove 1 view (stored (move 3 0x5040 0x7000))) 0 0x7000 = done 4 0 7 ∧
    moved (execFill 1 (stored (fill 0 0x100))) 0x101 0 = done 4 1 0 ∧ moved (execFill 1 (stored (fill 1 0x7000))) 0 0x7000 = done 4 0 2 := by
  and_intros <;> decide +kernel

theorem test_witness_moves_apart : writesPass (stored (jobOf 0x21 [])) (some 3) := by
  refine ⟨by decide +kernel, by decide +kernel, by decide +kernel, ?_⟩
  intro x hx; cases hx; decide +kernel

/-- A scan of that column with one slot: value equal to `n`; its task, and its job's run. -/
def blockDir : Directory := ⟨0x4000, 4, 0, [⟨windowAt, 0, 1, 128, 0⟩], 1⟩
def scanStage (n : Nat) : Stage := {
  kind := 1, instances := 0, priority := 0, inPorts := 0, outPorts := 1, schemas := [[(4, 0)]], entry := 0, groveStore := 0, bodyAt := 192
  body := .scan [⟨0x4000, 0, true, true, 4, 0⟩] [⟨0, 1, 0, false, 0, 0, natLe 16 n, natLe 16 0, false⟩] false false 0 0 1 [] }
def scanRun (n : Nat) : Run := { theRun with
  image := { theImage with stages := [scanStage n, stageOf 0x0D 0 (.emit 0)] }, placed := true, counts := [1, 1], dirs := [(0, [blockDir])]
  insts := [(32, { task := 5 })] }
def scanTask : ScanTask := { job := 1, stage := 0, sub := 0, active := true, stripes := [0] }
def scanState (n : Nat) (x : ScanTask) : State := { stored { runJob with state := 2 } with
  runs := [(1, scanRun n)], scans := [(4, x)], pilot := { up.pilot with tasks := [(5, task5)] } }

/-- Result of job 1, whether the task is still there, its stripes left, blocks read, batches ready, a block in hand. -/
def scanned (o : Host.Outcome State Fault Refusal) : Option (Option JobEnd × Option (Nat × Nat × Nat × Bool)) := match o with
  | .next t => (getJ t 1).map (fun x => (x.result, (getScan t 4).map (fun z => (z.stripes.length,
      ((z.group.map (fun g => g.values.length)).getD 0), z.ready.length, (z.group.bind (·.hand)).isSome))))
  | _ => none

/-- The group with its header read; with the block in hand; and the same block as a stored DEFLATE stream. -/
def headGroup : ScanGroup := { stripes := [0], cands := [0], headers := [(0, 0, blockBytes.take 64)] }
def handGroup (b : Bytes) (packed : Bool) : ScanTask := { scanTask with stripes := [], group := some { headGroup with hand := some { column := 0, index := 0, stored := b, inflating := packed } } }
def laned (x : ScanTask) : State := { scanState 7 x with quays := [(0, { lanes := [4] })] }
def packedBytes8 (end_ : Byte) : Bytes :=
  [1, 4, 0, 1] ++ List.replicate 4 0 ++ [1, 0, 0, 0, 8, 0, 0, 0, 13, 0, 0, 0, 0x8E, 0xB7, 0x71, 0x76] ++ List.replicate 40 0 ++ [end_, 8, 0, 0xF7, 0xFF, 7] ++ List.replicate 58 0

theorem test_witness_scans :
    scanned (execScanTaskHandoff 0 (scanState 7 { scanTask with active := false })) = some (none, some (1, 0, 0, false)) ∧
    scanned (execHeaderRead 4 (scanState 7 { scanTask with stripes := [] })) = some (none, some (0, 0, 1, false)) ∧
    scanned (execHeaderRead 4 (scanState 7 scanTask)) = some (none, some (0, 0, 0, false)) ∧
    scanned (execHeaderRead 4 { scanState 7 scanTask with runs := [(1, { scanRun 7 with dirs := [(0, [{ blockDir with type := 3 }])] })] }) =
      some (some ⟨5, 0x0208, 0⟩, some (0, 0, 0, false)) ∧
    scanned (execBlockRead 0 0 (scanState 7 { scanTask with stripes := [], group := some headGroup })) = some (none, some (0, 0, 0, true)) ∧
    scanned (execBlockEvaluate 4 0 (scanState 7 (handGroup blockBytes false))) = some (none, some (0, 1, 2, false)) ∧
    scanned (execBlockEvaluate 4 0 (scanState 8 (handGroup blockBytes false))) = some (none, some (0, 1, 1, false)) ∧
    scanned (execBlockEvaluate 4 0 (scanState 7 (handGroup (blockBytes.set 64 9) false))) = some (some ⟨5, 0x0204, 0⟩, some (0, 0, 0, false)) ∧
    scanned (execInflateComplete 4 0 (laned (handGroup (packedBytes8 1) true))) = some (none, some (0, 0, 0, true)) ∧
    scanned (execInflateComplete 4 0 (laned (handGroup (packedBytes8 7) true))) = some (some ⟨5, 0x0205, 0⟩, some (0, 0, 0, false)) := by
  and_intros <;> decide +kernel

theorem test_witness_scan_long_values :
    let task (n : Nat) : ScanTask := { scanTask with stripes := [], group := some { headGroup with values := [{ column := 0, index := 0, header := blockBytes.take 64, values := [.long 0x100 n 5] }] } }
    let s (n : Nat) : State := { scanState 7 (task n) with runs := [(1, { scanRun 7 with
      image := { theImage with stages := [{ scanStage 7 with body := .scan [⟨0x4000, 0, true, true, 4, 0⟩] [] false false 0 0 1 [] }, stageOf 0x0D 0 (.emit 0)] } })] }
    ((planOf (s 1025) (task 1025)).map (fun p => scanNeed p.2 (task 1025))) = some (.long 0x100 1025 0) ∧
    scanned (execLongValueRead 4 (s 1025)) = some (none, some (0, 1, 2, false)) ∧
    scanned (execLongValueRead 4 (s 1024)) = some (some ⟨5, 0x0206, 0⟩, some (0, 0, 0, false)) := by and_intros <;> decide +kernel

theorem test_witness_egress :
    let o (last : Bool) : Option Nat × Outgoing := (some 0, ⟨[(0, 0)], batchOf last [.num 7]⟩)
    let s (last : Bool) (used : Nat) : State := { scanState 7 { scanTask with stripes := [], ready := [o last] } with
      runs := [(1, { scanRun 7 with used := [(0, used)], insts := [(32, { task := 5, out := [(o last).2], heldOut := 0 })] })] }
    let sent c := match c with | Host.Outcome.next (t : State) => (getR t 1).map (fun r => (r.mesh.length, t.scans.length)) | _ => none
    sent (execBatchEgress (.scan 4) 5 (s false 2)) = some (0, 1) ∧ sent (execBatchEgress (.scan 4) 5 (s false 1)) = some (1, 1) ∧
    sent (execBatchEgress (.scan 4) 5 (s true 1)) = some (1, 0) ∧ sent (execBatchEgress (.unit 1 1 0) 5 (s true 1)) = some (1, 1) := by
  and_intros <;> decide +kernel

theorem test_witness_gather :
    let g := stageOf 2 1 (.fetch 0x4000 0 0 4 0 false)
    let run (d : Directory) (p : Nat) : State := { stored { runJob with state := 2 } with
      runs := [(1, { batchRun g [] with
        dirs := [(1, [d])]
        insts := [(32, { task := 5, work := .inHand ⟨0, 0, batchOf false (List.replicate 17 (.num p))⟩ (List.replicate 17 none) })] })]
      pilot := { up.pilot with tasks := [(5, task5)] } }
    let out c := match c with
      | Host.Outcome.next (t : State) => match getJ t 1, getR t 1 with
        | some x, some r => match (getI r 1 0).work with
          | .inHand _ o => some (x.result, (o.filter (fun v => v = some (.num 7))).length)
          | _ => none
        | _, _ => none
      | _ => none
    out (execGatherGroup 1 1 0 (run blockDir 0)) = some (none, 16) ∧ out (execGatherGroup 1 1 0 (run blockDir 5)) = some (some ⟨5, 0x0210, 5⟩, 0) ∧
    out (execGatherGroup 1 1 0 (run { blockDir with type := 3 } 0)) = some (some ⟨5, 0x0208, 0⟩, 0) := by
  and_intros <;> decide +kernel

/-! ## Canopy -/

/-- A load record: FORM 1, an operation, RESULT 5, the INT64 key and a full mask; and a pattern image of one transition. -/
def record (op key : Nat) : Bytes := [1, BitVec.ofNat 8 op, 0, 0, 0, 0, 0, 0, 5] ++ List.replicate 14 0 ++ [BitVec.ofNat 8 key] ++ List.replicate 12 0 ++
  List.replicate 8 0xFF ++ List.replicate 20 0
def patternBytes (b : Byte) : Bytes := [17, 1, 0, 0, 128, 0, 0, 0, 85, 53, 49, 93, 1, 0, 0, 0, 1, 0, 0, 0, 0, 0, 1, 0, 9] ++
  List.replicate 43 0 ++ [b, 255, 2] ++ List.replicate 57 0

/-- Table 7 of berth 3 as it stands: four places at 0 with key 7 in the second; a pattern table in its stead. -/
def lookup7 : CTable := { berth := 3, id := 7, pattern := false, capacity := 4, fields := [(4, 8)] }
def pattern7 : CTable := { berth := 3, id := 7, pattern := true, capacity := 1, states := 1 }
def entry7 (pos : Nat) : CEntry := { value := 7 * 2 ^ 96, mask := (2 ^ 64 - 1) * 2 ^ 96, result := pos + 5, tag := 1, valid := true }
def canopyState (x : Job) (ts : Tbl CTable) : State := { busy (queue24 .active) x with
  berths := [(3, { berth3 with canopyEntries := 16, patternStates := 16 })]
  canopy := { tables := ts, entries := [(0, { tag := 1 }), (1, entry7 1), (2, { tag := 1 }), (3, { tag := 1 })] } }
def tableJob (op work n : Nat) : Job := jobOf op ([(0x18, 8, if work = 3 ∧ op = 0x38 then 0 else 0x5000), (0x20, 4, n), (0x24, 1, 7), (0x25, 1, work)] ++
  (if op = 0x38 ∧ work ≠ 3 then [(0x28, 4, 4), (0x2C, 1, 1), (0x30, 1, 4), (0x31, 1, 8)] else []))

/-- Result and rows of job 1; state, capacity and updates of the first table; the keys of places 0 and 1. -/
structure Kept where
  result : Option JobEnd
  rows : Nat
  table : Option (CState × Nat × Nat)
  key0 : Nat
  key1 : Nat
  deriving DecidableEq

def kept (o : Host.Outcome State Fault Refusal) : Option Kept := match o with
  | .next t => (getJ t 1).map (fun x => ⟨x.result, x.rows, t.canopy.tables.head?.map (fun e => (e.2.state, e.2.capacity, e.2.updates.length)),
      (entryAt t 0).value / 2 ^ 96, (entryAt t 1).value / 2 ^ 96⟩)
  | _ => none

theorem test_witness_canopy_loads :
    let s (op work n : Nat) (ts : Tbl CTable) : State := canopyState (tableJob op work n) ts
    let v : HostView := viewOf 0x5000 (record 1 9)
    kept (execCanopyLoadCreate 1 v (s 0x38 1 1 [])) = some ⟨some ⟨4, 0, 0⟩, 1, some (.ready, 4, 0), 9, 0⟩ ∧
    kept (execCanopyLoadCreate 1 (viewOf 0x5000 (record 2 9)) (s 0x38 1 1 [])) = some ⟨some ⟨5, 0x0502, 0⟩, 0, none, 0, 7⟩ ∧
    kept (execCanopyLoadCreate 1 v (s 0x38 1 1 [(1, lookup7)])) = some ⟨some ⟨5, 0x0506, 7⟩, 0, some (.ready, 4, 0), 0, 7⟩ ∧
    kept (execCanopyLoadReplace 1 v (s 0x38 2 1 [(1, lookup7)])) = some ⟨some ⟨4, 0, 0⟩, 1, some (.ready, 4, 0), 0, 0⟩ ∧
    kept (execCanopyLoadReplace 1 v (s 0x38 2 1 [])) = some ⟨some ⟨5, 0x0505, 7⟩, 0, none, 0, 7⟩ ∧
    kept (execCanopyLoadReplace 1 v (s 0x38 2 1 [(1, pattern7)])) = some ⟨some ⟨5, 0x0507, 7⟩, 0, some (.ready, 1, 0), 0, 7⟩ := by
  and_intros <;> decide +kernel

theorem test_witness_canopy_changes :
    let s (op work n : Nat) (ts : Tbl CTable) : State := canopyState (tableJob op work n) ts
    let v : HostView := viewOf 0x5000 (record 1 9)
    kept (execCanopyLoadDrop 1 (s 0x38 3 0 [(1, lookup7)])) = some ⟨none, 0, some (.dropping, 4, 0), 0, 7⟩ ∧
    kept (execCanopyLoadDrop 1 (s 0x38 3 0 [])) = some ⟨some ⟨5, 0x0505, 7⟩, 0, none, 0, 7⟩ ∧
    kept (execCanopyLoadDrop 1 (s 0x38 3 0 [(1, { lookup7 with state := .unavailable })])) = some ⟨some ⟨4, 0, 0⟩, 0, none, 0, 0⟩ ∧
    kept (execTableDropComplete 3 7 (s 0x38 3 0 [(1, { lookup7 with state := .dropping, dropJob := some 1 })])) = some ⟨some ⟨4, 0, 0⟩, 0, none, 0, 0⟩ ∧
    kept (execCanopyUpdate 1 v (s 0x39 0 1 [(1, lookup7)])) = some ⟨none, 0, some (.ready, 4, 1), 0, 7⟩ ∧
    kept (execCanopyUpdate 1 v (s 0x39 0 1 [])) = some ⟨some ⟨5, 0x0505, 7⟩, 0, none, 0, 7⟩ ∧
    kept (execCanopyUpdate 1 v (s 0x39 0 1 [(1, pattern7)])) = some ⟨some ⟨5, 0x0507, 7⟩, 0, some (.ready, 1, 0), 0, 7⟩ ∧
    kept (execCanopyUpdate 1 v (s 0x39 0 1 [(1, { lookup7 with state := .loading })])) = some ⟨some ⟨5, 0x0505, 7⟩, 0, some (.loading, 4, 0), 0, 7⟩ := by
  and_intros <;> decide +kernel

theorem pattern_crc : crcTo 0xFFFFFFFF ((overlay (patternBytes 0x41) 8 [0, 0, 0, 0]).take 64) = 0x2badca99 ∧
    crcTo 0x2badca99 ((patternBytes 0x41).drop 64) = 0xa2cecaaa ∧ crcTo 0x2badca99 ((patternBytes 0x42).drop 64) = 0x3c022647 := by
  and_intros <;> decide +kernel

theorem pattern_check (v : Byte) (c d : BitVec 32)
    (h1 : overlay ((patternBytes v).take 128) 8 [0, 0, 0, 0] = (overlay (patternBytes 0x41) 8 [0, 0, 0, 0]).take 64 ++ (patternBytes v).drop 64)
    (h2 : crcTo 0x2badca99 ((patternBytes v).drop 64) = c) (h3 : c ^^^ 0xFFFFFFFF = d) :
    crc32c (overlay ((patternBytes v).take 128) 8 [0, 0, 0, 0]) = d := by
  obtain ⟨a, -, -⟩ := pattern_crc
  unfold crcTo at a h2
  rw [h1, crc32c]
  simp only [List.foldl_append, a, h2, h3]

theorem test_witness_pattern_images :
    (∀ t ∈ patternTests (patternBytes 0x41) 128, t.1 = true) ∧
    (patternTests (patternBytes 0x42) 128).find? (fun t => !t.1) = some (false, 8) := by
  obtain ⟨-, b, c⟩ := pattern_crc
  constructor
  · unfold patternTests
    rw [pattern_check 0x41 _ 0x5D313555 (by decide +kernel) b (by decide)]
    decide +kernel
  · unfold patternTests
    rw [pattern_check 0x42 _ 0xc3fdd9b8 (by decide +kernel) c (by decide)]
    decide +kernel

theorem test_witness_pattern_loads :
    let s (work : Nat) (ts : Tbl CTable) : State := canopyState (tableJob 0x3A work 128) ts
    let s1 := s 1 []
    let v := viewOf 0x5000 (patternBytes 0x41)
    patternLoadFault (tableJob 0x3A 1 128) = none ∧ createFault s1 3 7 0 0 = none ∧
    hostBytes (hostSync v s1) 3 0x5000 128 = patternBytes 0x41 ∧
    ((insertAll 1 [] (patternEntries (patternBytes 0x41) 1)).map (fun p => p.2.length)) = some 1 ∧ quotaFault s1 3 1 1 = none ∧
    ((placeTable 1 false s1).map (·.2.1)) = some none ∧ tableOf (s 2 [(1, pattern7)]) 3 7 = some (1, pattern7) ∧
    (kept (execPatternLoadReplace 1 v (s 2 []))).map (·.result) = some (some ⟨5, 0x0505, 7⟩) ∧
    (kept (execPatternLoadReplace 1 v (s 2 [(1, lookup7)]))).map (·.result) = some (some ⟨5, 0x0507, 7⟩) := by
  and_intros <;> decide +kernel

/-- A bank with one command to do: what becomes of it. -/
theorem test_witness_banks :
    let q : Search := ⟨1, 1, 0, 0, 7 * 2 ^ 96, 1⟩
    let s (k : Bank) (t : CTable) : State := { canopyState (tableJob 0x39 0 1) [(1, t)] with
      canopy := { (canopyState (tableJob 0x39 0 1) [(1, t)]).canopy with banks := [(0, k)] },
      runs := [(1, { batchRun (stageOf 0x0A 1 (.lookup 0 [0] false)) [] with insts := [(32, { task := 5, work := .inHand ⟨0, 0, batchOf false [.num 7]⟩ [none] })] })] }
    let bank (o : Host.Outcome State Fault Refusal) (f : Bank → Nat) : Option Nat := match o with | .next t => some (f (getBank t 0)) | _ => none
    let first (o : Host.Outcome State Fault Refusal) : Option (Option Value) := match o with
      | .next t => ((getR t 1).map (fun r => match (getI r 1 0).work with | .inHand _ (v :: _) => v | _ => none))
      | _ => none
    let text (c : Bytes) : Text := ⟨1, 1, 0, 0, 1, c, 0, false⟩
    let pat (flags : Nat) (k : Bank) : State := { s k pattern7 with canopy := { (s k pattern7).canopy with
      entries := [(0, { value := 0x41 * 2 ^ 136, mask := 0xFFFFFF * 2 ^ 136, result := flags * 2 ^ 16, tag := 1, valid := true })] } }
    (bank (execSearch 0 true (s { waiting := [q] } lookup7)) (fun k => (k.flying.map (fun f => f.result)).sum)) = some 6 ∧
    (bank (execSearch 0 true (s { waiting := [{ q with key := 0 }] } lookup7)) (fun k => (k.flying.filter (fun f => f.hit)).length)) = some 0 ∧
    (bank (execSearch 0 false (s { waiting := [q] } lookup7)) (fun k => k.bad.getD 99)) = some 1 ∧
    first (execSearchComplete 0 (s { flying := [⟨q, true, false, 6⟩] } lookup7)) = some (some (.num 6)) ∧
    first (execPatternStep 0 true (pat 0 { texts := [text [0x42]] })) = some (some (.num 0)) ∧
    first (execPatternStep 0 true (pat 2 { texts := [text [0x41, 1]] })) = some (some (.num 1)) ∧
    first (execPatternStep 0 true (pat 1 { texts := [text [0x41]] })) = some (some (.num 1)) ∧
    (bank (execPatternStep 0 true (pat 1 { texts := [text [0x41, 1]] })) (fun k => (k.texts.map (fun x => x.rest.length)).sum)) = some 1 ∧
    (bank (execParityScanRead 0 true false (s { scan := 32767 } lookup7)) (fun k => k.scan)) = some 0 ∧
    (bank (execParityScanRead 0 false false (s { scan := 1 } lookup7)) (fun k => k.bad.getD 99)) = some 1 ∧
    (bank (execParityErrorReload 0 (s { bad := some 1 } lookup7)) (fun k => k.bad.getD 99)) = some 99 ∧
    (s { state := 2 } lookup7).present.banks.getLsbD 0 = true := by
  and_intros <;> decide +kernel

theorem test_witness_bank_updates :
    let s (t : CTable) : State := canopyState { tableJob 0x39 0 1 with begun := true } [(1, t)]
    let ops (o : Host.Outcome State Fault Refusal) : Option ((Option JobEnd × Nat) × (Nat × Nat) × (Nat × Option (Bool × Nat))) := match o with
      | .next u => ((getJ u 1).bind (fun x => (tblFind u.canopy.tables 1).map (fun t =>
          ((x.result, x.rows), (t.ops.length, t.updates.length), ((entryAt u 2).result, t.excluded)))))
      | _ => none
    let up : List (Nat × Nat × List Bytes) := [(1, 0, [record 1 9])]
    let t := { lookup7 with updates := up }
    ops (execUpdateSlotWrite 0 false (s { t with ops := [(false, .copy 1 2), (false, .delete 0)] })) = some ((none, 0), (1, 1), (6, some (false, 2))) ∧
    ops (execUpdateSlotWrite 0 false (s { t with ops := [(false, .write 2 (entry7 9)), (false, .delete 0)] })) = some ((none, 0), (1, 1), (14, none)) ∧
    ops (execUpdateSlotWrite 0 false (s { t with ops := [(false, .setResult 2 8)] })) = some ((some ⟨4, 0, 0⟩, 1), (0, 0), (8, none)) ∧
    ops (execUpdateSlotWrite 0 false (s { lookup7 with updates := [(1, 0, [record 2 9])] })) = some ((some ⟨5, 0x050A, 0⟩, 0), (0, 0), (0, none)) := by
  and_intros <;> decide +kernel

/-! ## Berths -/

/-- Berth 3 in a state, with job 1 of it; berth 4 beside it; and a job of the module itself on berth 3. -/
def berthState (b : Berth) : State := { stored (jobOf 1 []) with berths := [(3, b), (4, { berth3 with pasid := 9, vectorBase := 1 })] }
def migJob (op : Nat) (fs : List (Nat × Nat × Nat)) : Job := { jobOf op ((0x18, 2, 3) :: fs) with berth := none }
def migState (x : Job) (b : Berth) : State := { berthState b with jobs := [(1, x)] }
def berthAfter (o : Host.Outcome State Fault Refusal) : Option (Nat × BState × BitVec 16) := match o with
  | .next t => some (t.jobs.length, (getB t 3).state, (getB t 3).commandStatus)
  | _ => none
def migrated (o : Host.Outcome State Fault Refusal) : Option (Option (Option JobEnd × Nat) × BState × Bool) := match o with
  | .next t => some ((getJ t 1).map (fun x => (x.result, x.bytes)), (getB t 3).state, (getB t 3).dirty.running)
  | _ => none

/-- An absent berth whose parameters are those of one extent of granules 8 to 11. -/
def absent3 : Berth := { berth3 with state := .absent, extents := natLe 4 8 ++ natLe 4 4 }

theorem test_witness_berths :
    createCode (berthState absent3) 3 = none ∧ berthAfter (execCreate 3 (berthState absent3)) = some (1, .active, 2) ∧
    berthAfter (execCreate 3 (berthState berth3)) = some (1, .active, 0x8001) ∧
    berthAfter (execCreate 3 (berthState { absent3 with pasid := 9 })) = some (1, .absent, 0x8003) ∧
    berthAfter (execCreate 3 (berthState { absent3 with pasid := 0 })) = some (1, .absent, 0x8003) ∧
    berthAfter (execCreate 3 { berthState absent3 with sys := { up.sys with mode := .boot } }) = some (1, .absent, 0x8002) ∧
    berthAfter (execDestroy 3 (berthState absent3)) = some (1, .absent, 0x8001) ∧
    commandMode (berthState berth3) = true ∧ berthAfter (execClearFault 3 (berthState berth3)) = some (1, .active, 0x8001) ∧
    berthAfter (execClearFault 3 (berthState { berth3 with state := .faulted })) = some (1, .active, 2) := by
  and_intros <;> decide +kernel

theorem test_witness_berth_faults :
    let s (st : BState) (j : Option Nat) : State := { berthState { berth3 with state := st } with violations := [⟨3, 0x200000, j⟩] }
    let tags (o : Host.Outcome State Fault Refusal) := match o with | .next t => (getB t 3).faultCode | _ => 0
    berthAfter (execBerthFault false (s .active (some 1))) = some (0, .faulted, 0) ∧ tags (execBerthFault false (s .active none)) = 0x0701 ∧
    berthAfter (execBerthFault false (s .frozen none)) = some (1, .frozen, 0) ∧ (jobsOf (s .active none) 3).length = 1 ∧
    isMigration (jobOf 1 []) = false ∧ (absent3.extents.length = 8 ∧ (natLe 8 0).length % 8 = 0 ∧ (natLe 7 0).length % 8 ≠ 0) := by
  and_intros <;> decide +kernel

theorem test_witness_migration :
    let frozen : Berth := { berth3 with state := .frozen }
    let freezing : Berth := { berth3 with state := .freezing, freeze := some ⟨1, 5, 0⟩ }
    let live : Berth := { berth3 with migrationMode := 1, dirty := { running := true, ringAddr := 0x9000, ringOrder := 10, indexAddr := 0xA000 } }
    let fr := migJob 0x40 []
    let gs (op : Nat) := migJob op [(0x1A, 1, 1), (0x1C, 4, 1), (0x20, 8, 0x1000000), (0x28, 8, granuleBytes), (0x30, 8, 0xB000)]
    let list : HostView := ⟨[(0, 0xB000, [1, 0, 0, 0])], []⟩
    let dl (op : Nat) (fs : List (Nat × Nat × Nat)) := migJob 0x44 ((0x1A, 1, op) :: fs)
    let ok := some (some (⟨4, 0, 0⟩ : JobEnd), 0)
    migrated (execBerthFreeze 1 (migState fr berth3)) = some (some (none, 0), .freezing, false) ∧
    migrated (execBerthFreeze 1 (migState fr frozen)) = some (some (some ⟨5, 0x0710, 4⟩, 0), .frozen, false) ∧
    quiet { migState fr freezing with queues := [] } 3 = true ∧
    migrated (execFreezeComplete 3 { migState fr freezing with queues := [] }) = some (ok, .frozen, false) ∧
    migrated (execFreezeTimeout 3 { migState fr freezing with sys := { up.sys with time := 5 } }) = some (some (some ⟨5, 0x0712, 0⟩, 0), .active, false) ∧
    migrated (execBerthThaw 1 (migState (migJob 0x43 []) frozen)) = some (ok, .active, false) ∧
    migrated (execBerthThaw 1 { migState (migJob 0x43 []) frozen with sys := { up.sys with mode := .maintenance } }) =
      some (some (some ⟨5, 0x0711, 2⟩, 0), .frozen, false) ∧
    migrated (execBerthSaveState 1 (migState (migJob 0x41 [(0x20, 8, 0x9000), (0x28, 8, 0)]) frozen)) ≠ some (ok, .frozen, false) ∧
    hostBytes (hostSync list (migState (gs 0x41) frozen)) 0 0xB000 4 = [1, 0, 0, 0] ∧
    migrated (execBerthSaveGranules 1 list (migState (gs 0x41) frozen)) = some (some (some ⟨5, 0x0716, 0⟩, 0), .frozen, false) ∧
    migrated (execBerthSaveGranules 1 list (migState (gs 0x41) berth3)) = some (some (some ⟨5, 0x0710, 1⟩, 0), .active, false) ∧
    migrated (execBerthRestoreGranules 1 list (migState (gs 0x42) frozen)) = some (some (some ⟨5, 0x0716, 0⟩, 0), .frozen, false) ∧
    migrated (execDirtyLogStart 1 (migState (dl 1 [(0x1B, 1, 10), (0x20, 8, 0x9000), (0x28, 8, 0xA000)]) { berth3 with migrationMode := 1 })) =
      some (ok, .active, true) ∧
    migrated (execDirtyLogStart 1 (migState (dl 1 [(0x1B, 1, 20), (0x20, 8, 0x9000), (0x28, 8, 0xA000)]) live)) =
      some (some (some ⟨5, 0x0710, 1⟩, 0), .active, true) ∧
    migrated (execDirtyLogStop 1 (migState (dl 2 []) live)) = some (ok, .active, false) ∧
    migrated (execDirtyLogStop 1 (migState (dl 2 []) { live with dirty := {} })) = some (some (some ⟨5, 0x0710, 1⟩, 0), .active, false) ∧
    migrated (execDirtyLogSync 1 list (migState (dl 3 []) live)) = some (ok, .active, true) := by
  and_intros <;> decide +kernel

/-- The granule of a SAVE or a RESTORE is the berth's own; a FETCH_BITMAP may write; a RESTORE may begin. -/
theorem test_witness_migration_data :
    let frozen : Berth := { berth3 with state := .frozen }
    let s := migState (migJob 0x42 []) frozen
    (ownOf s 0).owner = .berth 3 ∧ s.dev.failed = 0 ∧ s.dev.poison = [] ∧ refusal s none true 0 granuleBytes = none ∧ mayRestore s 3 = false ∧
    mayRestore { migState (migJob 0x42 []) berth3 with queues := [(24, queue24 .disabled)] } 3 = true ∧ (∀ x, (none : Option (Fin 512)) = some x → (getB s x.val).dirty.running = false) ∧
    imageFault [] 0 = some 0 := by
  refine ⟨by decide +kernel, by decide +kernel, by decide +kernel, by decide +kernel, by decide +kernel, by decide +kernel, ?_, by decide +kernel⟩
  intro x hx; cases hx

/-! ## Memory controllers, engines, cranes -/

/-- A controller with its state, and the finding about it after a command. -/
def withSub (c : Subchannel) : State := { stored (jobOf 1 []) with dev := { (stored (jobOf 1 [])).dev with subs := [(2, c)] } }
def subAfter {α : Type} (f : State → Subchannel → α) (o : Host.Outcome State Fault Refusal) : Option α := match o with
  | .next t => some (f t (getSub t 2))
  | _ => none

theorem test_witness_memory_controllers :
    let s := withSub {}
    memoryUp s = true ∧ subUp s 2 = true ∧ granuleExists s 9 = true ∧ (ownOf s 9).init = false ∧ tagPasses none false (ownOf s 9) = true ∧
    tagPasses (some 3) false (ownOf s 9) = false ∧ granuleBytes * 9 < reserveBase s ∧ interBytes s ≤ granuleBytes * (2 ^ 19 - 1) ∧
    subAfter (fun t _ => (ownOf t 9).filling) (execGranuleFirstTouch 9 none false s) = some true ∧
    (granuleSubs s 9).contains 2 = true ∧ (tblGet 0 s.dev.parts 9).getLsbD 2 = false ∧
    subAfter (fun _ c => c.tempBand) (execTemperatureLimit 2 95 s) = some 2 ∧
    subAfter (fun _ c => c.tempBand) (execTemperatureLimit 2 89 (withSub { tempBand := 2 })) = some 1 ∧
    subAfter (fun _ c => c.tempBand) (execTemperatureLimit 2 84 (withSub { tempBand := 2 })) = some 0 ∧
    subAfter (fun _ c => c.tempBand) (execTemperatureLimit 2 90 (withSub { tempBand := 2 })) = some 2 ∧
    subAfter (fun _ c => c.alerts) (execCaParityAlert 2 false (withSub { alerts := 2 })) = some 3 ∧
    subAfter (fun _ c => c.state) (execCaParityAlert 2 true (withSub { alerts := 3 })) = some 1 ∧
    subAfter (fun _ c => c.failedRetrains) (execCaRetraining 2 false (withSub { alerts := 4, failedRetrains := 1 })) = some 2 ∧
    subAfter (fun t _ => t.sys.holdCause) (execCaRetraining 2 false (withSub { alerts := 4, failedRetrains := 2 })) = some 0x2021 ∧
    subAfter (fun _ c => c.alerts) (execCaRetraining 2 true (withSub { alerts := 4 })) = some 0 := by and_intros <;> decide +kernel

theorem test_witness_scrub :
    let line := lineAt (withSub {}) 2 0
    let s := { withSub {} with dev := { (withSub {}).dev with own := [(line / 32768, { init := true })] } }
    line ∉ s.dev.poison ∧ tblFind s.dev.flaws line = none ∧ (ownOf s (line / 32768)).init = true ∧
    subAfter (fun t c => (c.scrubLine, t.dev.poison)) (execPatrolScrub 2 .uncorrectable s) = some (1, [line]) ∧
    subAfter (fun t c => (c.scrubLine, t.dev.poison)) (execPatrolScrub 2 .clean s) = some (1, []) ∧
    subAfter (fun t c => (c.scrubLine, t.dev.poison)) (execPatrolScrub 2 .clean { s with dev := { s.dev with flaws := [(line, none)] } }) =
      some (1, [line]) := by and_intros <;> decide +kernel

theorem test_witness_training :
    let s : State := { up with sys := { mode := .boot, tisum := true, laidOut := false } }
    let failed (n : Nat) : List TrainOutcome := List.replicate n .failed ++ List.replicate (32 - n) .stored
    (List.range 32).all (fun h => !(wouldRetire s (failed 0) h)) = true ∧ layoutRefused s [] = false ∧
    wouldRetire s (failed 1) 0 = true ∧ (List.range 32).all (fun h => decide (h = 0) || !(wouldRetire s (failed 1) h)) = true ∧
    layoutRefused s [0] = false ∧ wouldRetire s (failed 2) 1 = true := by and_intros <;> decide +kernel

/-- SHA-256 of the empty message begins e3b0c442 (FIPS 180-4). -/
theorem test_sha_empty : (shaFinal .sha256 (shaInit .sha256)).take 4 = [0xe3, 0xb0, 0xc4, 0x42] := by decide +kernel

/-- Frames of a COMPRESS and a DECOMPRESS of three bytes, and digests at place 0 of a berth with one place and one key slot. -/
def engineState (x : Job) (e : Engines) : State := { stored x with
  berths := [(3, { berth3 with digestContexts := 1, keySlots := 1 })], eng := e }
def packJob : Job := jobOf 0x30 [(0x18, 8, 0x5000), (0x20, 8, 0x7000), (0x30, 4, 3), (0x34, 4, 1024), (0x38, 1, 4), (0x39, 1, 1)]
def unpackJob : Job := jobOf 0x31 [(0x18, 8, 0x5000), (0x20, 8, 0x7000), (0x30, 4, 24), (0x34, 4, 1024)]
def engineAfter (o : Host.Outcome State Fault Refusal) : Option (Option (Option JobEnd × Nat) × Bool) := match o with
  | .next t => some ((getJ t 1).map (fun x => (x.result, x.bytes)), (getFrames t 1).isSome)
  | _ => none

theorem test_witness_frames :
    let view (b : Bytes) : HostView := viewOf 0x5000 b
    let one (c : Bool) (n : Nat) : Engines := { frameJobs := [(1, { compress := c, frames := [(0, n)] })] }
    let frame : Bytes := [3, 0, 0, 0, 3, 0, 0, 0, 30, 242, 48, 241, 3, 4, 0, 0, 1, 2, 3, 0, 0, 0, 0, 0]
    compressFault packJob = none ∧ (engineState packJob {}).present.compression ≠ 0 ∧
    engineAfter (execCompress 1 (engineState packJob {})) = some (some (none, 0), true) ∧
    engineAfter (execCompress 1 (engineState (jobOf 0x30 [(0x30, 4, 3), (0x38, 1, 3), (0x39, 1, 1)]) {})) = some (some (some ⟨5, 0x0801, 0x38⟩, 0), false) ∧
    engineAfter (execCompress 1 { engineState packJob {} with present := { up.present with compression := 0 } }) =
      some (some (some ⟨5, 0x0901, 64⟩, 0), false) ∧
    engineServes (engineState packJob (one true 3)) 0 = true ∧ hostBytes (hostSync (view [1, 2, 3]) (engineState packJob {})) 3 0x5000 3 = [1, 2, 3] ∧
    engineAfter (execDecompress 1 (view frame) (engineState unpackJob {})) = some (some (none, 0), true) ∧
    engineAfter (execFrameComplete 1 0 0 0 (view frame) (engineState unpackJob (one false 24))) = some (some (some ⟨4, 0, 0⟩, 3), true) ∧
    engineAfter (execFrameComplete 1 0 0 0 (view (frame.set 8 0)) (engineState unpackJob (one false 24))) =
      some (some (some ⟨5, 0x0204, 0⟩, 0), true) := by and_intros <;> decide +kernel

def message : Context := { alg := 1, state := shaInit .sha256 }
def digestJob (op ph : Nat) (fs : List (Nat × Nat × Nat)) : Job := jobOf op ([(0x2A, 1, 1), (0x2B, 1, ph)] ++ fs)
def hasContext (o : Host.Outcome State Fault Refusal) : Option (Option (Option JobEnd) × Bool) := match o with
  | .next t => some ((getJ t 1).map (·.result), (getContext t 3 0).isSome)
  | _ => none

theorem test_witness_digests :
    let open_ : Engines := { contexts := [(contextKey 3 0, message)] }
    let h : HostView := viewOf 0x5000 [1]
    let done := some (some (⟨4, 0, 0⟩ : JobEnd))
    let start := digestJob 0x32 1 []
    let keyed := jobOf 0x32 [(0x2A, 1, 0x11), (0x2B, 1, 1)]
    let key : Engines := { keys := [(slotKey 3 0, ⟨0x11, shaInit .sha256, shaInit .sha256⟩)] }
    digestFault start = none ∧ placeQueue (engineState start {}) 3 1 0 = [] ∧ takesKey start = false ∧ takesKey keyed = true ∧
    hasContext (execDigestStart 1 h (engineState start {})) = some (done, true) ∧
    hasContext (execDigestStart 1 h (engineState start open_)) = some (some none, true) ∧
    hasContext (execDigestStart 1 h (engineState keyed key)) = some (done, true) ∧
    hasContext (execDigestStart 1 h (engineState keyed {})) = some (some (some ⟨5, 0x0811, 0⟩), false) ∧
    hasContext (execDigestContinue 1 h (engineState (digestJob 0x32 0 []) open_)) = some (done, true) ∧
    hasContext (execDigestContinue 1 h (engineState (digestJob 0x32 0 []) {})) = some (some (some ⟨5, 0x0810, 0⟩), false) ∧
    hasContext (execDigestFinish 1 h (engineState (digestJob 0x32 2 [(0x20, 8, 0x7000)]) open_)) = some (done, false) ∧
    hasContext (execDigestOneshot 1 h (engineState (digestJob 0x32 3 [(0x20, 8, 0x7000)]) {})) = some (done, false) ∧
    hasContext (execDigestAbort 1 (engineState (digestJob 0x32 4 []) open_)) = some (done, false) := by and_intros <;> decide +kernel

theorem test_witness_digest_checks :
    let open_ : Engines := { contexts := [(contextKey 3 0, message)] }
    let h : HostView := viewOf 0x5000 [1]
    let v := digestJob 0x33 2 [(0x20, 8, 0x7000), (0x30, 8, 0x5000), (0x38, 1, 16)]
    let f := engineState (digestJob 0x32 0 [(0x28, 2, 1)]) { open_ with digestJobs := [(1, ⟨0, [(0x5000, 16385, 0)], none, 0, false⟩)] }
    let load (len : Nat) := jobOf 0x34 [(0x18, 8, 0x5000), (0x20, 2, len), (0x23, 1, 1), (0x24, 1, 0x11)]
    let erase := jobOf 0x34 [(0x23, 1, 2)]
    digestFault v = none ∧
    hasContext (execDigestVerify 1 h true (engineState v open_)) = some (some (some ⟨4, 0, 0⟩), false) ∧
    hasContext (execDigestVerify 1 h false (engineState v open_)) = some (some (some ⟨5, 0x0814, 0⟩), false) ∧
    (fragmentWaiters f).map (fun w => (w.1, w.2.1, w.2.2.2)) = [(1, 3, 16384)] ∧ (getDigestJob f 1).isSome = true ∧
    keyFault (engineState (load 1) {}) 3 (load 1) = none ∧ keyFault (engineState (load 257) {}) 3 (load 257) = some (0x0801, 0x20) ∧
    keyFault (engineState erase {}) 3 erase = none ∧ hasContext (execSetKeyErase 1 (engineState erase {})) = some (some (some ⟨4, 0, 0⟩), false) := by
  and_intros <;> decide +kernel

/-- Channel 2 with a COPY or a FILL of 64 bytes from 0x100 to 0x200, and what becomes of it. -/
def copy64 (op : Nat) (tag : Nat) : Descriptor := { op := op, src := if op = 1 then 0x100 else 0, dst := 0x200, length := 64, berth := tag, pulseFlag := 10 }
def crane (k : Channel) : State := { stored (jobOf 1 []) with cores := [(0, core0)], eng := { channels := [(2, k)] } }
def running (d : Descriptor) : Channel := { state := .running, desc := some d }
def craneAfter (o : Host.Outcome State Fault Refusal) : Option (ChState × Option (Nat × Bool) × Nat) := match o with
  | .next t => some ((getCh t 2).state, (getCh t 2).ending, (getCh t 2).done.toNat)
  | _ => none

theorem test_witness_cranes :
    let h : HostView := viewOf 0x5000 []
    let line (d : Descriptor) : Descriptor := { d with srcKind := 2, src := 0 }
    let b64 : Bytes := List.replicate 64 1
    cranesRun (crane {}) = true ∧ (crane {}).present.channels.getLsbD 2 = true ∧
    craneAfter (execChStart 0 2 0x1000 (crane {})) = some (.running, none, 0) ∧
    craneAfter (execChStart 0 2 0x1000 (crane { state := .halted })) = some (.running, none, 0) ∧
    craneAfter (execStop 0 2 (crane (running (copy64 1 3)))) = some (.stopping, some (3, false), 0) ∧
    craneAfter (execStop 0 2 (crane { (running (copy64 1 3)) with fetch := true })) = some (.stopping, none, 0) ∧
    craneAfter (execDescriptorFetch 2 (crane { state := .running, fetch := true, current := 0x1000 })) = some (.running, some (7, false), 0) ∧
    craneAfter (execDescriptorFetch 2 (crane { state := .running, fetch := true, current := 0xF0000000000 })) = some (.running, some (5, false), 0) ∧
    descriptorOk ([1] ++ List.replicate 23 0 ++ [64, 0, 0, 0, 0xFF, 0xFF] ++ List.replicate 34 0) = true ∧
    craneAfter (execBurst 0 0 0 h (crane (running (copy64 1 3)))) = some (.running, some (1, false), 64) ∧
    craneAfter (execBurst 0 0 0 h (crane (running (copy64 2 3)))) = some (.running, some (1, false), 64) ∧
    craneAfter (execBurst 0 0 0 h (crane (running (copy64 1 4)))) = some (.running, some (6, false), 0) ∧
    craneAfter (execLineRequest 2 b64 h (crane (running (line (copy64 1 3))))) = some (.running, some (1, true), 64) ∧
    craneAfter (execLineRequest 2 [] h (crane (running (line (copy64 1 3))))) = some (.running, none, 0) ∧
    craneAfter (execLineRequest 2 [] h (crane (running { copy64 1 3 with dstKind := 2, dst := 0 }))) = some (.running, some (1, false), 64) ∧
    craneAfter (execLast 2 (b64.take 63) (crane (running (line (copy64 1 3))))) = some (.running, some (2, false), 63) := by and_intros <;> decide +kernel

theorem test_witness_crane_ends :
    let ending (c : Nat) (n : Nat) (st : ChState) : State := crane { (running { copy64 1 0xFFFF with next := n }) with ending := some (c, true), current := 0x100, state := st }
    refusal (ending 1 0 .running) none true (0x100 + 0x38) 8 = none ∧
    craneAfter (execDescriptorComplete 2 (ending 1 0 .running)) = some (.idle, none, 0) ∧
    craneAfter (execDescriptorComplete 2 (ending 1 64 .running)) = some (.running, none, 0) ∧
    craneAfter (execDescriptorComplete 2 (ending 4 0 .running)) = some (.halted, none, 0) ∧
    craneAfter (execDescriptorComplete 2 (ending 1 0 .stopping)) = some (.idle, none, 0) := by and_intros <;> decide +kernel

/-! ## Dictionary, CAN -/

def mailboxAt (index sub : Nat) (n : Nat) (d : Bytes) : Mailbox := {
  index := BitVec.ofNat 16 index, sub := BitVec.ofNat 8 sub, length := BitVec.ofNat 32 n, data := (List.range d.length).zip d }
def dictState (m : Mailbox) (ss : Tbl Nat) (c : CanNode) : State := { up with dict := { up.dict with mailbox := m, settings := ss }, can := c }
def fld : Tbl Nat := [(entryKey 0x2010 0, 1)]
def node : CanNode := { nmt := .preOperational }
def abortOf (o : Host.Outcome State Fault Refusal) : Option (Nat × Nat × Nat) := match o with
  | .next t => some (t.dict.mailbox.state.toNat, t.dict.mailbox.abort.toNat, t.dict.mailbox.length.toNat)
  | _ => none
def answerOf (o : Host.Outcome State Fault Refusal) : Option (Bytes × Nat) := match o with
  | .next t => some (t.dict.answer.data, t.dict.answer.abort.toNat)
  | _ => none

theorem test_witness_mailbox :
    let read (i j : Nat) := abortOf (execMbRead 1 (dictState (mailboxAt i j 0 []) [] {}))
    let write (i j n : Nat) (d : Bytes) := abortOf (execMbWrite 1 (dictState (mailboxAt i j n d) [] {}))
    mailboxOpen (dictState {} [] {}) = true ∧ read 0x2001 0 = some (2, 0, 1) ∧ read 0x1008 0 = some (2, 0, 6) ∧ read 0x1003 0 = some (2, 0, 1) ∧
    read 0x1004 0 = some (3, 0x06020000, 0) ∧ read 0x6000 255 = some (3, 0x06020000, 0) ∧ read 0x2001 1 = some (3, 0x06090011, 0) ∧
    read 0x3000 2 = some (3, 0x06010001, 0) ∧ write 0x1008 0 1 [0] = some (3, 0x06010002, 1) ∧ write 0x1017 0 1 [0] = some (3, 0x06070010, 1) ∧
    write 0x1017 0 2 [5, 0] = some (2, 0, 2) ∧ write 0x2010 0 1 [9] = some (3, 0x06090030, 1) ∧
    (settingAt 0x1017 0).isSome = true ∧ (settingAt 0x2010 0).isSome = true ∧ (dictState { state := 1 } [] {}).dict.mailbox.state = 1 := by
  and_intros <;> decide +kernel

theorem test_witness_usdo :
    let s (ss : Tbl Nat) (n : Nat) : State := dictState {} ss { node with sessions := (List.range n).map (fun i => BitVec.ofNat 8 (i + 5)) }
    canActive (s [] 0) = true ∧ (dictGet (s [] 0) .obs 0x1008 0 0).toOption = some (asciiBytes "GH9400") ∧
    answerOf (execUsdoRead 1 false 0x1008 0 (s [] 3)) = some (asciiBytes "GH9400", 0) ∧ answerOf (execUsdoRead 1 false 0x1004 0 (s [] 0)) = some ([], 0x06020000) ∧
    answerOf (execUsdoWrite 1 false 0x1017 0 [5, 0] (s fld 0)) = some ([], 0) ∧ answerOf (execUsdoWrite 1 false 0x1017 0 [5, 0] (s [] 0)) = some ([], 0x06010000) ∧
    (settingAt 0x5280 3).isSome = true ∧ (settingAt 0x4100 3).isSome = true ∧
    answerOf (execUsdoWrite 1 false 0x2010 0 [0] (s fld 0)) = some ([], 0x06010000) ∧ answerOf (execUsdoRead 1 false 0x5310 1 (s fld 0)) = some ([], 0x06010000) ∧
    answerOf (execUsdoRead 1 false 0x1008 0 (s [] 4)) = some ([], 0x08000022) := by
  and_intros <;> decide +kernel

theorem test_witness_doe :
    let r (o : Host.Outcome State Fault Refusal) := match o with | .next t => some (field t.dict.doeResponse 0 1, field t.dict.doeResponse 12 4) | _ => none
    let req (op i n : Nat) (d : Bytes) : Bytes := natLe 1 op ++ [0] ++ natLe 2 i ++ natLe 4 0 ++ natLe 4 n ++ natLe 4 0 ++ d
    doeOpen up = true ∧ r (execDoeDictionaryRequest (req 1 0x1008 6 []) up) = some (0x81, 0) ∧ r (execDoeDictionaryRequest (req 1 0x1004 6 []) up) = some (0x81, 0x06020000) ∧
    r (execDoeDictionaryRequest (req 2 0x1017 2 [5, 0, 0, 0]) up) = some (0x82, 0) ∧
    (r (execDoeDictionaryRequest [1] up)).map (·.2) = some 0x08000020 := by and_intros <;> decide +kernel

theorem test_witness_saves :
    let s (p : DictPath) (ss : Tbl Nat) : State := match p with | .usdo => dictState {} ss node | _ => dictState {} ss {}
    let v : Save := { kind := 1, body := [], fingerprint := List.replicate 32 0, writing := true, lss := false }
    pathServes (s .mailbox []) .mailbox = true ∧ pathServes (s .doe []) .doe = true ∧ pathServes (s .usdo fld) .usdo = true ∧
    pathServes (s .doe []) .usdo = false ∧ roleOf (s .usdo []) .usdo = .obs ∧ roleOf (s .usdo fld) .usdo ≠ .obs ∧
    answerOf (execSaveAll .doe 0x65766173 (s .doe [])) = some ([], 0) ∧ answerOf (execSaveAll .doe 0 (s .doe [])) = some ([], 0x08000020) ∧
    answerOf (execRestoreAll .doe 0x64616F6C { up with dict := { up.dict with storeStatus := 1 } }) = some ([], 0x08000022) ∧
    answerOf (execErrorCountClear .mailbox 0 up) = some ([], 0) ∧ answerOf (execErrorCountClear .mailbox 1 up) = some ([], 0x06090030) ∧
    answerOf (execCalendarTimeWrite .usdo 5 (s .usdo fld)) = some ([], 0x06010000) ∧
    bitOf (settingVal (s .doe [(entryKey 0x1012 0, 2 ^ 31)]) 0x1012 0) 31 = true ∧ answerOf (execCalendarTimeWrite .doe 5 (s .doe [(entryKey 0x1012 0, 0x100)])) = some ([], 0) ∧
    v.body.length ≤ 65504 ∧ v.writing = true ∧ up.mram.logFull = false := by
  and_intros <;> decide +kernel

def nmtAfter (o : Host.Outcome State Fault Refusal) : Option (Nmt × List Nat × Nat × Bool) := match o with
  | .next t => some (t.can.nmt, t.can.sent.map (·.cobId), t.can.emcyHeld.length, t.can.inhibited)
  | _ => none

theorem test_witness_can_node :
    let s (c : CanNode) : State := dictState {} [] c
    let timed (c : CanNode) : State := dictState {} [(entryKey 0x1017 0, 5), (entryKey 0x2100 1, 1)] c
    let held : CanNode := { node with nmt := .initialisation, emcyHeld := [⟨0xC0, [1]⟩, ⟨0xC0, [2]⟩] }
    canOn (s node) = true ∧ nmtAfter (execNmtStart (s node)) = some (.operational, [], 0, false) ∧
    nmtAfter (execNmtStart (s held)) = some (.initialisation, [], 2, false) ∧ nmtAfter (execNmtStop (s node)) = some (.stopped, [], 0, false) ∧
    nmtAfter (execNmtEnterPreOperational (s { node with nmt := .stopped })) = some (.preOperational, [], 0, false) ∧
    nmtAfter (execNmtResetCommunication (s node)) = some (.initialisation, [], 0, false) ∧
    nmtAfter (execInitialisationDone (s { node with nmt := .initialisation })) = some (.preOperational, [0x740], 0, false) ∧
    nmtAfter (execInitialisationDone (s held)) = some (.preOperational, [0xC0, 0x740], 1, true) ∧
    nmtAfter (execInitialisationDone (dictState {} [(entryKey 0x1015 0, 0)] held)) = some (.preOperational, [0xC0, 0xC0, 0x740], 0, false) ∧
    nmtAfter (execEmcyInhibitExpiry (s { held with nmt := .operational, inhibited := true })) = some (.operational, [0xC0], 1, true) ∧
    nmtAfter (execHeartbeat (timed node)) = some (.preOperational, [0x740], 0, false) ∧ heartbeatTime (dictState {} [(entryKey 0x1017 0, 0)] node) = 0 ∧
    heartbeatTime (timed node) = 5 ∧ groupId (timed node) = 1 ∧
    nmtAfter (execCanErrorPassive true (s node)) = some (.preOperational, [0xC0], 0, true) ∧
    nmtAfter (execCanErrorPassive true (s { node with inhibited := true })) = some (.preOperational, [], 1, true) ∧
    nmtAfter (execCanErrorPassive false (s { node with passive := true, conditions := [0x8120], errorRegister := 0x10 })) = some (.preOperational, [0xC0], 0, true) ∧
    nmtAfter (execCanReceiveOverrun (s node)) = some (.preOperational, [0xC0], 0, true) ∧
    nmtAfter (execCanBusOff (s { node with passive := true, conditions := [0x8120] })) = some (.preOperational, [], 1, false) ∧
    nmtAfter (execBusOffRecovery (s { node with busOff := true })) = some (.preOperational, [0xC0], 0, true) := by
  and_intros <;> decide +kernel

def canAfter (o : Host.Outcome State Fault Refusal) : Option (List (Nat × Bytes) × Bool × Option Nat) := match o with
  | .next t => some (t.can.sent.map (fun f => (f.cobId, f.data)), t.can.lssConfiguring, t.sys.calendar)
  | _ => none

theorem test_witness_lss :
    let s (c : Bool) : State := dictState {} [] { node with lssConfiguring := c }
    let a (b c : Byte) : List (Nat × Bytes) := [(0x7E4, [b, c, 0, 0, 0, 0, 0, 0])]
    canAfter (execSwitchStateGlobal true (s false)) = some ([], true, none) ∧
    canAfter (execConfigureNodeId 127 (s true)) = some (a 0x11 0, true, none) ∧ canAfter (execConfigureNodeId 128 (s true)) = some (a 0x11 1, true, none) ∧
    canAfter (execConfigureNodeId 1 (s false)) = some ([], false, none) ∧
    canAfter (execConfigureBitTiming 0x80 1 (s true)) = some (a 0x13 0, true, none) ∧ canAfter (execConfigureBitTiming 0x80 2 (s true)) = some (a 0x13 1, true, none) ∧
    canAfter (execInquireIdentity 0x5E (s true)) = some (a 0x5E 0x40, true, none) ∧
    (∃ t, exec .storeConfiguration (s true) = .next t ∧ t.dict.storeStatus = 1) ∧
    (∃ v p r n : BitVec 32, [Config.vendorId, 0x9400, (s false).fw.version, Config.serial] = [v, p, r, n]) ∧ [Config.vendorId, 0x9400, up.fw.version, Config.serial] ≠ [Config.vendorId, 1, up.fw.version, Config.serial] := by
  refine ⟨?_, ?_, ?_, ?_, ?_, ?_, ?_, ⟨_, rfl, by decide +kernel⟩, ⟨_, _, _, _, rfl⟩, by simp⟩ <;> decide +kernel

/-- TIME 00 97 49 01 55 43 sets the calendar to 1,489,298,400,000 ms (14, R608). -/
theorem test_witness_time_and_sync :
    let s (cob : Nat) (n : Nmt) (k : BitVec 32) : State := { dictState {} [(entryKey 0x1012 0, cob)] { node with nmt := n } with
      dict := { (dictState {} [(entryKey 0x1012 0, cob)] node).dict with checkpoint := k }, sys := { up.sys with calendar := some 86400005000 } }
    canAfter (execTimeReceived 0x01499700 0x4355 (s 0x80000100 .preOperational 0)) = some ([], false, some 1489298400000000) ∧
    canAfter (execTimeReceived 0x01499700 0x4355 (s 0x100 .preOperational 0)) = some ([], false, some 86400005000) ∧
    canAfter (execTimeProduce (s 0x40000100 .operational 0)) = some ([(0x100, [5, 0, 0, 0, 1, 0])], false, some 86400005000) ∧
    (∃ t, exec (.syncReceived (some 3)) (s 0x100 .preOperational 7) = .next t ∧ t.dict.checkpoint = 0) := by
  refine ⟨?_, ?_, ?_, ⟨_, rfl, ?_⟩⟩ <;> decide +kernel

theorem test_witness_group :
    let s : State := dictState {} [(entryKey 0x2100 1, 5), (entryKey 0x2101 3, 0x41)] { node with nmt := .operational }
    let f : Bytes := [1, 5, 2, 3] ++ natLe 4 9 ++ List.replicate 8 7 ++ natLe 8 11
    groupId s = 5 ∧ settingVal s 0x2101 3 = 0x41 ∧ f.length = 24 ∧
    (∃ t, exec (.groupTpdoReceived 0x41 f) s = .next t ∧ tblFind t.dict.peers 2 = some ⟨3, 9, List.replicate 8 7, none⟩) ∧
    (tblFind { s.dict with peers := [(2, ⟨3, 9, List.replicate 8 7, none⟩)] }.peers 2 ≠ none) ∧ (f.take 23).length ≠ 24 := by
  refine ⟨?_, ?_, ?_, ⟨_, rfl, ?_⟩, ?_, ?_⟩ <;> decide +kernel

/-! ## Boot and modes -/

/-- Four sections of one byte and their header (15, R622), its checks worked out outside the model; `c` is HEADER_CHECK. -/
def headBytes : Bytes := [48, 0, 0, 0, 19, 0, 0, 0, 17, 0, 3, 2, 7, 0, 0, 0, 0, 16, 0, 0, 1, 0, 0, 0, 82, 208, 22, 160, 0, 0, 0, 0, 0, 32, 0, 0, 1, 0, 0, 0] ++
  [166, 35, 70, 179, 0, 0, 0, 0, 0, 48, 0, 0, 1, 0, 0, 0, 165, 160, 45, 65, 0, 0, 0, 0, 0, 64, 0, 0, 1, 0, 0, 0, 78, 196, 231, 149, 0, 0, 0, 0]
def bankCells (c : Bytes) : List Host.Cell :=
  (List.range 128).zip (headBytes ++ c ++ List.replicate 43 0 ++ [0x5A]) ++ [(0x1000, 1), (0x2000, 2), (0x3000, 3), (0x4000, 4)]
def bank : List Host.Cell := bankCells [0x67, 0xb3, 0x06, 0x70]

theorem test_bank_valid : firmwareValid bank = true ∧ firmwareValid (bankCells [0, 0, 0, 0]) = false ∧ firmwareSequence bank = 19 := by
  have h1 : crcTo 0xFFFFFFFF (headBytes.take 40) = 0xef0c3c37 ∧ crcTo 0xef0c3c37 (headBytes.drop 40) = 0x8ff94c98 := by
    constructor <;> decide +kernel
  have h2 : crc32c headBytes = 0x7006b367 := by
    obtain ⟨a, b⟩ := h1
    unfold crcTo at a b
    rw [show headBytes = headBytes.take 40 ++ headBytes.drop 40 from (List.take_append_drop 40 headBytes).symm, crc32c]
    simp only [List.foldl_append, a, b]
    decide
  have h3 (c : Bytes) (hc : (headerBytes (bankCells c)).take 0x50 = headBytes) : crc32c ((headerBytes (bankCells c)).take 0x50) = 0x7006b367 := by
    rw [hc, h2]
  refine ⟨?_, ?_, by decide +kernel⟩
  · unfold firmwareValid bank
    simp only [h3 [0x67, 0xb3, 0x06, 0x70] (by decide +kernel)]
    decide +kernel
  · unfold firmwareValid
    simp only [h3 [0, 0, 0, 0] (by decide +kernel)]
    decide +kernel

def modeAfter (o : Host.Outcome State Fault Refusal) : Option (Mode × Nat × Bool × Bool) := match o with
  | .next t => some (t.sys.mode, t.sys.holdCause.toNat, t.sys.tisum, t.fw.selected)
  | _ => none

theorem test_witness_reset :
    let off : State := { State.reset with sys := { inputInRange := false, perstHigh := true } }
    modeAfter (execPerstNLow up) = some (.reset, 0, false, false) ∧ modeAfter (execInputBelowReset up) = some (.reset, 0, false, false) ∧
    modeAfter (execPowerInputRise off) = some (.boot, 0, false, false) ∧
    modeAfter (execPowerInputRise { off with sys := { inputInRange := false, perstHigh := false } }) = some (.reset, 0, false, false) ∧
    modeAfter (execPerstNHigh { State.reset with sys := { perstHigh := false } }) = some (.boot, 0, false, false) := by and_intros <;> decide +kernel

/-- Both banks valid, one valid, three failures, none: what the ROM chooses. -/
theorem test_witness_rom :
    let s (f : Flash) (a b : BitVec 8) : State := { State.reset with sys := { mode := .boot }, flash := f, mram := { bootFailsA := a, bootFailsB := b } }
    chooseFirmware (s { bankA := bank, bankB := bank } 0 2) = .boot 0 ∧ chooseFirmware (s { bankB := bank } 0 0) = .boot 1 ∧
    chooseFirmware (s { bankA := bank, bankB := bank } 3 0) = .boot 1 ∧ chooseFirmware (s { bankA := bank } 3 0) = .bootFailed ∧
    chooseFirmware (s {} 0 0) = .noFirmware ∧ modeAfter (execRomBankSelect true true (s {} 0 0)) = some (.hold, 4, false, false) ∧
    modeAfter (execRomBankSelect false true (s {} 0 0)) = some (.hold, 0x3010, false, false) ∧
    modeAfter (execRomBankSelect true false (s {} 0 0)) = some (.hold, 0x3012, false, false) := by
  obtain ⟨h, -, -⟩ := test_bank_valid
  have e : firmwareValid [] = false := by decide +kernel
  have choose (f : Flash) (va vb : Bool) (ha : firmwareValid f.bankA = va) (hb : firmwareValid f.bankB = vb) (a b : BitVec 8) :
      chooseFirmware { State.reset with sys := { mode := .boot }, flash := f, mram := { bootFailsA := a, bootFailsB := b } } =
        (match va && decide (a.toNat < 3), vb && decide (b.toNat < 3) with
          | true, true => .boot (laterBank f) | true, false => .boot 0 | false, true => .boot 1
          | false, false => if va || vb then .bootFailed else .noFirmware) := by
    subst ha hb; rfl
  refine ⟨?_, ?_, ?_, ?_, ?_, by decide +kernel, by decide +kernel, by decide +kernel⟩
  · exact (choose { bankA := bank, bankB := bank } true true h h 0 2).trans (by decide +kernel)
  · exact (choose { bankB := bank } false true e h 0 0).trans (by decide +kernel)
  · exact (choose { bankA := bank, bankB := bank } true true h h 3 0).trans (by decide +kernel)
  · exact (choose { bankA := bank } true false h e 3 0).trans (by decide +kernel)
  · exact (choose {} false false e e 0 0).trans (by decide +kernel)

theorem test_witness_tisum :
    let s (m : Mode) (b : List Host.Cell) : State := { State.reset with sys := { mode := m }, flash := { bankA := b }, fw := { selected := true } }
    let agrees (b : List Host.Cell) (k : Nat) : Bool := decide ((crc32c (sectionBytes b (headerBytes b) k)).toNat = sectionCheck (headerBytes b) k)
    (agrees bank 1 && agrees bank 2 && agrees bank 3) = true ∧ agrees (memWrite 0xFF bank 0x3000 [9]) 2 = false ∧
    (s .boot bank).fw.booted = 0 ∧ (s .hold bank).sys.holdRom = false ∧ (s .boot bank).mram.retiredOk = true := by and_intros <;> decide +kernel

theorem test_witness_service :
    let s (ss : Tbl Nat) : State := { dictState {} ss {} with sys := { mode := .boot, tisum := true, laidOut := true, watchdog := true } }
    (s []).mram.retired.parts = 0 ∧ settingVal (s []) 0x5280 3 ≠ 1 ∧ settingVal (s [(entryKey 0x5280 3, 1)]) 0x5280 3 = 1 ∧
    modeAfter (execServiceReady 0 0 5 (s [])) = some (.service, 0, true, false) ∧
    modeAfter (execServiceReady 0 0 5 (s [(entryKey 0x5280 3, 1)])) = some (.maintenance, 0, true, false) ∧
    modeAfter (execServiceReady (BitVec.twoPow 78 67) 0 5 (s [])) = some (.degraded, 0, true, false) ∧
    modeAfter (execServiceReady (BitVec.twoPow 78 77) 0 5 (s [])) = some (.hold, 0x3012, true, false) ∧
    (modeAfter (execBootWatchdogExpiry (s []))).map (·.1) = some .reset := by and_intros <;> decide +kernel

def askedAfter (o : Host.Outcome State Fault Refusal) : Option (Nat × Mode × Nat × Bool) := match o with
  | .next t => some (t.dict.answer.abort.toNat, t.sys.mode, t.sys.modeStatus.toNat, t.sys.draining)
  | _ => none

theorem test_witness_modes :
    let s (y : Sys) : State := { up with sys := y }
    let m : Sys := { up.sys with mode := .maintenance }
    let drain : Sys := { up.sys with modeStatus := 1, draining := true }
    let r : Retired := { parts := BitVec.twoPow 80 66 }
    askedAfter (execModeRequestMaintenance .doe up) = some (0, .service, 1, true) ∧
    askedAfter (execModeRequestMaintenance .doe (s m)) = some (0x08000022, .maintenance, 0, false) ∧
    askedAfter (execModeRequestMaintenance .doe (s drain)) = some (0x08000022, .service, 1, true) ∧
    askedAfter (execModeRequestMaintenance .usdo (dictState {} fld node)) = some (0x06010000, .service, 0, false) ∧
    startedJobs (s drain) = [] ∧ startedJobs (busy (queue24 .active) (jobOf 1 [])) ≠ [] ∧
    askedAfter (execMaintenanceEntry (s drain)) = some (0, .maintenance, 2, false) ∧
    askedAfter (execModeRequestLeave .doe (s m)) = some (0, .service, 2, false) ∧
    askedAfter (execModeRequestLeave .doe up) = some (0x08000022, .service, 0, false) ∧
    askedAfter (execModeRequestLeave .doe { s m with mram := { up.mram with retired := r }, bist := { up.bist with passed := { parts := BitVec.twoPow 80 66 } } }) =
      some (0, .service, 2, false) := by and_intros <;> decide +kernel

theorem test_witness_supply :
    let s (e : Option Episode) (l : Fin 4) : State := { dictState {} [] node with sys := { up.sys with episode := e, thermal := l } }
    let level (o : Host.Outcome State Fault Refusal) : Option (Option Episode × Nat × Nat × Nat) := match o with
      | .next t => some (t.sys.episode, t.sys.thermal.val, t.can.errorRegister.toNat, t.sys.attaches)
      | _ => none
    level (execInputBelowWarning 10500 (s none 0)) = some (some ⟨10500, 1⟩, 0, 4, 0) ∧
    level (execInputBelowWarning 10400 (s (some ⟨10500, 1⟩) 0)) = some (some ⟨10400, 2⟩, 0, 0, 0) ∧
    level (execWarningEpisodeEnd 10300 50 (s (some ⟨10500, 1⟩) 0)) = some (none, 0, 0, 0) ∧ (s none 0).fw.commitWaits = none ∧
    level (execThermalLevelChange 105 2 0 (s none 0)) = some (none, 2, 8, 0) ∧ level (execThermalLevelChange 104 2 0 (s none 0)) = some (none, 0, 0, 0) ∧
    level (execThermalLevelChange 94 0 0 (s none 1)) = some (none, 0, 0, 0) ∧ level (execThermalLevelChange 104 2 0 (s none 3)) = some (none, 2, 0, 0) ∧
    level (execJtagAttach 5 (s none 0)) = some (none, 0, 0, 1) := by and_intros <;> decide +kernel

/-- What a self-test command leaves: the answer's abort code, the pass, STATUS, PROGRESS, and the result of a partition. -/
def testAfter (p : Nat) (o : Host.Outcome State Fault Refusal) : Option (List Nat) := match o with
  | .next t => some [t.dict.answer.abort.toNat, t.bist.pass.val, t.bist.status.toNat, t.bist.progress.toNat, (resultOf t p).1, (resultOf t p).2.1, (resultOf t p).2.2]
  | _ => none

def unitAfter (o : Host.Outcome State Fault Refusal) : Option (Mode × Bool × Bool × List Nat × Nat) := match o with
  | .next t => some (t.sys.mode, t.mram.retired.parts.getLsbD 64, t.bist.late, t.bist.waiting, t.log.queue.length)
  | _ => none

theorem test_witness_pass :
    let s (b : SelfTest) : State := { up with bist := b }
    let m (b : SelfTest) : State := { s b with sys := { up.sys with mode := .maintenance } }
    let ran : SelfTest := { pass := 2, status := 1, asked := true, results := [(3, (4, 5, 7))] }
    (serviceParts up).length = 68 ∧ up.sys.holdRom = false ∧ roleOf up .doe ≠ .obs ∧ pathServes up .doe = true ∧
    testAfter 3 (execPassRequestStart .doe (s { ran with status := 2 })) = some [0, 2, 1, 0, 0, 0, 7] ∧
    testAfter 3 (execPassRequestStart .doe (s ran)) = some [0x08000022, 2, 1, 0, 4, 5, 7] ∧
    testAfter 3 (execPassRequestAbort .doe (s ran)) = some [0, 0, 0x8001, 0, 4, 5, 7] ∧
    testAfter 3 (execPassRequestAbort .doe up) = some [0x08000022, 0, up.bist.status.toNat, up.bist.progress.toNat, 0, 0, 0] ∧
    testAfter 3 (execPassRequestFull .doe 0 0 0 (s {})) = some [0x08000022, 0, 0, 0, 0, 0, 0] ∧
    testAfter 3 (execPassRequestFull .doe 0 0 0 (m {})) = some [0, 0, 2, 77, 1, 32, 0] ∧
    (unitAfter (execPassRequestFull .doe (BitVec.twoPow 77 76) 0 0 (m {}))).map (·.1) = some .hold ∧
    up.mram.retired.parts.getLsbD 76 = false := by and_intros <;> decide +kernel

/-- The sessions of compression engine 0, six segments in all: in part, whole, failing once, failing twice. -/
theorem test_witness_session :
    let s (b : SelfTest) : State := { up with bist := b }
    let ran : SelfTest := { pass := 2, status := 1 }
    sessionReady (moveWork 64 (s ran)) 64 = true ∧ partPresent (s ran) 64 = true ∧ resultOf (s ran) 64 = (0, 0, 0) ∧
    testAfter 64 (execSelfTestSession 64 0 5 .pass (s ran)) = some [0, 2, 1, 0, 4, 5, 0] ∧
    testAfter 64 (execSelfTestSession 64 5 1 .pass (s { ran with results := [(64, (4, 5, 0))] })) = some [0, 2, 1, 1, 1, 6, 0] ∧
    testAfter 64 (execSelfTestSession 64 0 6 .failOnce (s ran)) = some [0, 2, 1, 1, 1, 6, 1] ∧
    testAfter 64 (execSelfTestSession 64 0 6 .failTwice (s ran)) = some [0, 2, 1, 1, 2, 6, 2] ∧
    (unitAfter (execSelfTestSession 64 0 6 .failTwice (s ran))).map (·.1) = some .degraded ∧
    settingVal up 0x4100 4 = 1 := by and_intros <;> decide +kernel

theorem test_witness_session_waits :
    let ran : SelfTest := { pass := 2, status := 1 }
    let s : State := { up with bist := ran, eng := { up.eng with compState := [(0, 1)] } }
    sessionReady (moveWork 64 s) 64 = false ∧
    unitAfter (execSelfTestSession 64 0 6 .pass s) = some (.service, false, false, [64], 0) ∧
    unitAfter (execSessionRetry 64 { s with bist := { ran with waiting := [64, 3] } }) = some (.service, false, false, [3], 0) ∧
    unfinished s ≠ [] ∧ unitAfter (execPassLate s) = some (.service, false, true, [], 1) ∧
    resultOf { s with bist := { ran with waiting := [33] } } 33 = (0, 0, 0) ∧
    testAfter 33 (execPassLate { s with bist := { ran with waiting := [33] } }) = some [0, 2, 1, 1, 3, 0, 0] ∧
    settingVal (dictState {} [(entryKey 0x4100 4, 0)] {}) 0x4100 4 = 0 := by and_intros <;> decide +kernel

/-- Sessions of a quay with a scan task on it, of a Canopy bank, of a grove; a PASS_LATE outside SERVICE. -/
theorem test_witness_session_units :
    let ran : SelfTest := { pass := 2, status := 1 }
    let quay : State := { scanState 7 { scanTask with group := some headGroup, stripes := [] } with bist := ran }
    let s : State := { with0 { core0 with slot := some item5 } with bist := ran }
    sessionReady (moveWork 0 quay) 0 = true ∧ testAfter 0 (execSelfTestSession 0 0 1 .pass quay) = some [0, 2, 1, 0, 4, 1, 0] ∧
    (match execSelfTestSession 0 0 1 .pass quay with | .next t => (getScan t 4).map (fun (x : ScanTask) => (x.group.isSome, x.stripes)) | _ => none) = some (false, [0]) ∧
    sessionReady (moveWork 50 s) 50 = true ∧ (match execSelfTestSession 50 0 1 .abandoned s with | .next t => (getBank t 2).state | _ => 0) = 2 ∧
    sessionReady (moveWork 32 s) 32 = true ∧
    (match execSelfTestSession 32 0 1 .pass s with | .next t => some (getCore t 0).slot | _ => none) = some none ∧
    execPassLate { s with sys := { s.sys with mode := .hold } } = .next { s with sys := { s.sys with mode := .hold } } := by
  refine ⟨?_, ?_, ?_, ?_, ?_, ?_, ?_, rfl⟩ <;> decide +kernel

/-- A delay of 40 ticks stops at 15 left, 0 where it has passed; a waiting GETW takes an item under an interrupt; and the ROM's
dictionary in HOLD. -/
theorem test_witness_stops :
    let delayed (e : BitVec 32) : Task := { task5 with state := .waiting, expiry := some e, job := none }
    let s (e : BitVec 32) : State := { migState (migJob 0x40 []) { berth3 with state := .freezing, freeze := some ⟨1, 5, 0⟩ } with
      queues := [], pilot := { tick := 25, tasks := [(5, delayed e)] } }
    let frozen (e : BitVec 32) := match execFreezeComplete 3 (s e) with | .next t => some ((getT t 5).expiry, (getT t 5).frozenDelay) | _ => none
    let waits : State := { with0 { core0 with waiting := .getw } with pilot := { tasks := [(5, { task5 with state := .ready, berth := none })] } }
    let rom (i j : Nat) : State := { dictState (mailboxAt i j 0 []) [] {} with sys := { mode := .hold, holdRom := true } }
    let read (i j : Nat) := match execMbRead 7 (rom i j) with | .next t => some t.dict.mailbox.abort.toNat | _ => none
    frozen 40 = some (none, some 15) ∧ frozen 20 = some (none, some 0) ∧ coreRuns waits 0 = true ∧ (choose 0 0 waits).1 = some 5 ∧
    (match execInterrupt 0 true waits with | .next t => some ((getT t 5).state, (getCore t 0).item.isSome) | _ => none) = some (.running, true) ∧
    mailboxOpen (rom 0x2001 1) = true ∧ read 0x2001 1 = some 0x06090011 ∧ read 0x1008 0 = some 0x06020000 ∧ read 0x2001 0 = some 0 := by
  and_intros <;> decide +kernel

/-! ## Firmware and the log -/

/-- What a firmware command leaves: the answer's abort code, STATUS, INACTIVE_STATE, how many bytes are held and came. -/
def fwAfter (o : Host.Outcome State Fault Refusal) : Option (List Nat) := match o with
  | .next t => some [t.dict.answer.abort.toNat, t.fw.status.toNat, t.fw.inactiveState.toNat, t.fw.held.length, t.fw.bytesWritten.toNat]
  | _ => none

theorem test_witness_package :
    let s (f : Firmware) : State := { up with fw := f }
    fwAfter (execPackage .doe 0 [1, 2, 3] true up) = some [0, 2, 3, 3, 3] ∧ fwAfter (execPackage .doe 0 [1] false up) = some [0, 0x8003, 3, 1, 1] ∧
    fwAfter (execPackage .doe 0x2000 [7] true (s { started := true, bytesWritten := 0x2000, held := [9] })) = some [0, 2, 0, 1, 0x2001] ∧
    fwAfter (execPackage .doe 0x2000 [7] true up) = some [0x08000020, 0, 0, 0, 0] ∧
    fwAfter (execPackage .doe 0x4000000 [7] true (s { started := true, bytesWritten := 0x4000000 })) = some [0x06070010, 0, 0, 0, 0x4000000] ∧
    fwAfter (execPackage .doe 0 [7] true (s { status := 1 })) = some [0x08000022, 1, 0, 0, 0] ∧
    fwAfter (execCommit .doe true (s { status := 1 })) = some [0x08000022, 1, 0, 0, 0] ∧ fwAfter (execAbort .doe (s { status := 1 })) = some [0x08000022, 1, 0, 0, 0] ∧
    fwAfter (execPackage .usdo 0 [7] true (dictState {} fld node)) = some [0x06010000, 0, 0, 0, 0] ∧ pathServes (dictState {} fld node) .usdo = true := by
  and_intros <;> decide +kernel

theorem test_witness_commit :
    let held : Bytes := headBytes ++ [0, 0, 0, 0] ++ List.replicate 43 0 ++ [0xFF]
    let body : List Host.Cell := [(0x1000, 1), (0x2000, 2), (0x3000, 3), (0x4000, 4)]
    let s (f : Firmware) (b : List Host.Cell) : State := { up with fw := f, flash := { bankB := b } }
    headerRules held = true ∧ sectionsAgree body held = true ∧ sectionsAgree [] held = false ∧ headerRules [] = false ∧
    flashBank (s {} body).flash (otherBank 0) = body ∧ up.sys.episode = none ∧
    fwAfter (execCommit .doe true (s {} body)) = some [0, 0x8004, 0, 0, 0] ∧
    fwAfter (execCommit .doe true (s { started := true } body)) = some [0, 0x8001, 0, 0, 0] ∧
    fwAfter (execCommit .doe true (s { started := true, held := held } [])) = some [0, 0x8002, 0, 128, 0] ∧
    fwAfter (execCommit .doe false (s { started := true, held := held } body)) = some [0, 0x8003, 0, 128, 0] ∧
    fwAfter (execCommit .doe true { s { started := true } body with sys := { up.sys with episode := some ⟨10500, 1⟩ } }) = some [0, 1, 0, 0, 0] ∧
    fwAfter (execAbort .doe (s { started := true } bank)) = some [0, 0, 0, 0, 0] := by and_intros <;> decide +kernel

def logAfter (o : Host.Outcome State Fault Refusal) : Option (List Nat) := match o with
  | .next t => some [t.dict.answer.abort.toNat, t.log.next, t.log.queue.length, t.log.lost, t.mram.dropped.toNat, if t.mram.logFull then 1 else 0]
  | _ => none

theorem test_witness_log :
    let r : HwRecord := ⟨5, 0x6011, 0, 1, 2, 0⟩
    let s (l : LogQueue) (full : Bool) : State := { up with log := l, mram := { up.mram with logFull := full } }
    logAfter (execClear .doe 1 (s { next := 9 } false)) = some [0x08000020, 9, 0, 0, 0, 0] ∧
    logAfter (execClear .doe 0x65706977 (s { next := 9, clearStatus := 1 } false)) = some [0x08000022, 9, 0, 0, 0, 0] ∧
    logAfter (execClear .doe 0x65706977 (s { next := 3 } true)) = some [0, 1, 0, 0, 0, 0] ∧
    logAfter (execHeartwoodAppend (s { next := 3, queue := [r] } false)) = some [0, 4, 0, 0, 0, 0] ∧
    logAfter (execHeartwoodAppend (s { next := 131071, queue := [r] } false)) = some [0, 131072, 0, 0, 0, 1] ∧
    logAfter (execHeartwoodAppend (s { next := 3, queue := [r], lost := 2 } false)) = some [0, 4, 1, 0, 0, 0] ∧
    logAfter (execHeartwoodAppend (s { next := 3, queue := [r] } true)) = some [0, 3, 0, 0, 1, 1] ∧ tisumServes up = true ∧
    up.log.queue = [] := by and_intros <;> decide +kernel

/-! ## SPDM -/

/-- The first two bytes of the response and the code of an error. -/
def spdmAfter (o : Host.Outcome State Fault Refusal) : Option Bytes := match o with
  | .next t => some (t.spdm.response.take 3)
  | _ => none

theorem test_witness_spdm :
    let s (p : Spdm) : State := { up with spdm := p, flash := { certChain := [1, 2, 3] } }
    let r : Spdm := { version := true, capabilities := true, algorithms := true }
    doeOpen up = true ∧ doeOpen State.reset = false ∧ spdmAfter (execGetVersion (s {})) = some [0x10, 0x04, 0] ∧
    spdmAfter (execGetCapabilities (s { version := true })) = some [0x13, 0x61, 0] ∧
    spdmAfter (execNegotiateAlgorithms true true (s { version := true, capabilities := true })) = some [0x13, 0x63, 0] ∧
    spdmAfter (execGetDigests (s r)) = some [0x13, 0x01, 1] ∧ spdmAfter (execGetCertificate 0 1 2 (s r)) = some [0x13, 0x02, 0] ∧
    spdmAfter (execGetCertificate 0 3 2 (s r)) = some [0x13, 0x7F, 0x01] ∧ spdmAfter (execChallenge 0 0 7 (s r)) = some [0x13, 0x03, 0] ∧
    spdmAfter (execChallenge 0 2 7 (s r)) = some [0x13, 0x7F, 0x01] ∧ spdmAfter (execGetMeasurements 0x12 false 7 (s r)) = some [0x13, 0x60, 0] ∧
    spdmAfter (execGetMeasurements 0x14 false 7 (s r)) = some [0x13, 0x7F, 0x01] ∧ spdmAfter (execGetDigests (s {})) = some [0x13, 0x7F, 0x04] ∧
    spdmAfter (execGetCapabilities (s {})) = some [0x13, 0x7F, 0x04] ∧ spdmAfter (execUnsupportedSpdmRequest 0xE9 (s {})) = some [0x13, 0x7F, 0x07] := by
  and_intros <;> decide +kernel

/-! ## The machine -/

theorem test_witness_step :
    let s : State := { up with pending := [.sessionRetry 3, .passLate] }
    s.pending = .sessionRetry 3 :: [.passLate] ∧ (∃ t, step s = .next t ∧ t.pending = [.passLate]) ∧
    up.pending = [] ∧ up.sys.mode ≠ .reset ∧ (∃ t, step up = .next t ∧ t.sys.time = up.sys.time + 1) := by
  refine ⟨rfl, ⟨_, rfl, by decide +kernel⟩, ?_, ?_, ⟨_, rfl, ?_⟩⟩ <;> decide +kernel

theorem test_witness_idle_in_reset :
    let s (a b : Bool) : State := { State.reset with sys := { inputInRange := a, perstHigh := b } }
    let idle (s : State) : Option (Mode × Nat) := match step s with | .next t => some (t.sys.mode, t.sys.upUs) | _ => none
    idle (s false true) = some (.reset, 0) ∧ idle (s true false) = some (.reset, 1) ∧ idle (s true true) = some (.boot, 1) := by
  and_intros <;> decide +kernel

theorem test_witness_memories : memoriesWf State.reset ∧ ∃ t, step up = .next t ∧ memoriesWf t := by
  refine ⟨by decide +kernel, ⟨_, rfl, by decide +kernel⟩⟩

/-! ## Ill-formed commands -/

/-- One ill-formed command for each check, and its well-formed neighbour. -/
theorem test_ill_formed_device :
    (Instr.dramTrainingComplete (List.replicate 33 .stored)).wf = false ∧ (Instr.dramTrainingComplete (List.replicate 32 .stored)).wf = true ∧
    (Instr.linkWidthChange 2).wf = false ∧ (Instr.linkWidthChange 4).wf = true ∧
    (Instr.bar4Access 0 4 (some [1, 2, 3])).wf = false ∧ (Instr.bar4Access 0 3 (some [1, 2, 3])).wf = true ∧
    (Instr.registerWrite .bar0 2 0 15).wf = false ∧ (Instr.registerWrite .bar0 4 0 15).wf = true ∧
    (Instr.pushData 1 0 []).wf = false ∧ (Instr.pushData 1 255 [1, 2]).wf = false ∧ (Instr.pushData 1 255 [1]).wf = true ∧
    (Instr.entryTake 1 ⟨[], [⟨0, 5, 5, .timeout, 1⟩]⟩).wf = false ∧ (Instr.entryTake 1 ⟨[], [⟨0, 5, 6, .timeout, 0⟩]⟩).wf = false ∧
    (Instr.entryTake 1 ⟨[], [⟨0, 5, 6, .timeout, 1⟩]⟩).wf = true ∧
    (Instr.last 0 [7]).wf = true := by and_intros <;> decide +kernel

theorem test_ill_formed_core :
    (Instr.exprCall 1 0 0 0 (.returned [⟨0, 2, none, none, [[]]⟩])).wf = false ∧ (Instr.exprCall 1 0 0 0 (.returned [⟨0, 2, none, none, []⟩])).wf = true ∧
    (Instr.scalarLoad 0 (.f 1) .b1 false 1 0 0).wf = false ∧ (Instr.scalarLoad 0 (.f 1) .b4 true 1 0 0).wf = false ∧
    (Instr.scalarLoad 0 (.f 1) .b4 false 1 0 0).wf = true ∧ (Instr.scalarStore 0 (.f 1) .b2 1 0).wf = false ∧ (Instr.scalarStore 0 (.g 1) .b2 1 0).wf = true ∧
    (Instr.floatingPoint 0 (.convert .b64 .b64 1 2)).wf = false ∧ (Instr.floatingPoint 0 (.convert .b32 .b64 1 2)).wf = true := by and_intros <;> decide +kernel

theorem test_ill_formed_management :
    (Instr.usdoRead 0 false 0 0).wf = false ∧ (Instr.usdoRead 128 false 0 0).wf = false ∧ (Instr.usdoRead 127 false 0 0).wf = true ∧
    (Instr.usdoWrite 0 false 0 0 []).wf = false ∧ (Instr.selfTestSession 3 0 0 .pass).wf = false ∧ (Instr.selfTestSession 3 0 1 .pass).wf = true ∧
    (∀ d : Bytes, 4096 < d.length → (Instr.last 0 d).wf = false ∧ (Instr.lineRequest 0 d ⟨[], []⟩).wf = false) ∧
    (∀ d : Bytes, 65472 < d.length → (Instr.package .doe 0 d true).wf = false ∧ (Instr.granuleExtentsWrite 0 0 d).wf = false) ∧
    (Instr.timeReceived 0x10000000 0).wf = false ∧ (Instr.timeReceived 0x0FFFFFFF 0).wf = true ∧
    (Instr.groupTpdoReceived 0 []).wf = false ∧ (Instr.groupTpdoReceived 1 (List.replicate 65 0)).wf = false ∧ (Instr.groupTpdoReceived 1 []).wf = true := by
  refine ⟨?_, ?_, ?_, ?_, ?_, ?_, ?_, ?_, ?_, ?_, ?_, ?_, ?_⟩
  case refine_7 =>
    intro d h
    have e : decide (d.length ≤ 4096) = false := decide_eq_false (by omega)
    refine ⟨e, ?_⟩
    show (decide (d.length ≤ 4096) && _) = false
    rw [e]
    rfl
  case refine_8 => exact fun d h => ⟨decide_eq_false (by omega), decide_eq_false (by omega)⟩
  all_goals decide +kernel

end Sys2Proof.Tests
end

section
/-! PROOFS. Chapter 00: counters at their largest value and their clears (R13 to R17), and the high-word latches of the
two access paths (R19, R20) with the snapshot that TASK_SEL takes (09, R390). -/

namespace Sys2Proof.Machine

/-! ### Counts -/

section
variable {s : State}

theorem counterMax_pos (b : CounterBlock) (i : Nat) : 0 < counterMax b i := by
  unfold counterMax
  split
  · decide
  · split <;> decide

theorem isEvent_iff {b : CounterBlock} {i : Nat} : isEvent b i = true ↔ (blockShape b).1 + (blockShape b).2.1 ≤ i :=
  decide_eq_true_iff

theorem not_isEvent_iff {b : CounterBlock} {i : Nat} :
    (!isEvent b i) = true ↔ i < (blockShape b).1 + (blockShape b).2.1 := by
  rw [Bool.not_eq_true', ← Bool.not_eq_true, isEvent_iff, Nat.not_le]

theorem count_val_of_le {b : CounterBlock} {i n : Nat} (hn : 0 < n) (h : counterVal s b i + n ≤ counterMax b i) :
    counterVal (count b i n s) b i = counterVal s b i + n ∧
    (tblGet {} (count b i n s).counters (blockKey b)).ovf = (tblGet {} s.counters (blockKey b)).ovf := by
  have hc := (count_spec hn).1 h
  unfold counterVal at *
  rw [hc]
  exact ⟨tblGet_tblSet_self .., rfl⟩

/-- R13: the largest value of a SATURATE counter, and the wrap of an EVENT counter. -/
theorem count_val_of_lt {b : CounterBlock} {i n : Nat} (hn : 0 < n) (h : counterMax b i < counterVal s b i + n) :
    (i < 32 → (tblGet {} (count b i n s).counters (blockKey b)).ovf.getLsbD i = true) ∧
    counterVal (count b i n s) b i =
      if i < (blockShape b).1 + (blockShape b).2.1 then counterMax b i
      else (counterVal s b i + n) % (counterMax b i + 1) := by
  have hc := (count_spec hn).2.1 h
  constructor
  · intro hi
    rw [hc, setBit_getLsbD, if_pos ⟨rfl, hi⟩]
  · have hv : counterVal (count b i n s) b i =
        if isEvent b i then (counterVal s b i + n) % (counterMax b i + 1) else counterMax b i := by
      conv => lhs; unfold counterVal
      rw [hc]
      exact tblGet_tblSet_self ..
    by_cases hi : i < (blockShape b).1 + (blockShape b).2.1
    · rw [hv, if_pos hi, if_neg (fun e => absurd (isEvent_iff.1 e) (Nat.not_le.2 hi))]
    · rw [hv, if_neg hi, if_pos (isEvent_iff.2 (Nat.not_lt.1 hi))]

theorem count_val_of_ne {b : CounterBlock} {i j n : Nat} (hn : 0 < n) (h : j ≠ i) :
    counterVal (count b i n s) b j = counterVal s b j := by
  obtain ⟨hle, hlt, -⟩ := count_spec (s := s) (b := b) (i := i) hn
  unfold counterVal at *
  rcases Nat.lt_or_ge (counterMax b i) (tblGet 0 (tblGet {} s.counters (blockKey b)).vals i + n) with hm | hm
  · rw [hlt hm]
    exact tblGet_tblSet_of_ne _ _ _ h
  · rw [hle hm]
    exact tblGet_tblSet_of_ne _ _ _ h

/-! ### Clears -/

theorem clearCounters_of_mem {b : CounterBlock} {p : Nat → Bool} {j : Nat} (h : p j = true) :
    counterVal (clearCounters b p s) b j = 0 ∧
    (tblGet {} (clearCounters b p s).counters (blockKey b)).ovf.getLsbD j = false := by
  obtain ⟨hv, ho, -⟩ := clear_spec s b p j
  exact ⟨hv.trans (if_pos h), ho.trans (if_pos h)⟩

theorem clearCounters_of_not_mem {b : CounterBlock} {p : Nat → Bool} {j : Nat} (h : ¬ p j = true) :
    counterVal (clearCounters b p s) b j = counterVal s b j ∧
    (tblGet {} (clearCounters b p s).counters (blockKey b)).ovf.getLsbD j =
      (tblGet {} s.counters (blockKey b)).ovf.getLsbD j := by
  obtain ⟨hv, ho, -⟩ := clear_spec s b p j
  exact ⟨hv.trans (if_neg h), ho.trans (if_neg h)⟩

/-- R16: the clear goes first, so the counter reads 1 and its OVF bit 0. -/
theorem clearThen_counted {b : CounterBlock} {p : Nat → Bool} {i : Nat} (h : p i = true) :
    counterVal (clearThen b p (some i) s) b i = 1 ∧
    (tblGet {} (clearThen b p (some i) s).counters (blockKey b)).ovf.getLsbD i = false := by
  obtain ⟨hv, ho⟩ := clearCounters_of_mem (s := s) (b := b) h
  have hmax : counterVal (clearCounters b p s) b i + 1 ≤ counterMax b i := by
    rw [hv]
    exact counterMax_pos b i
  obtain ⟨hv1, ho1⟩ := count_val_of_le Nat.one_pos hmax
  exact ⟨hv1.trans (by rw [hv]), by rw [← ho, ← ho1]; rfl⟩

theorem exec_clearStats (b : CounterBlock) (c : Option (Fin 32)) : exec (.clearStats b c) s =
    .next (if barOpen s then clearThen b (fun i => !(isEvent b i)) (c.map Fin.val) s else s) := rfl

theorem exec_clearPerf (b : CounterBlock) (c : Option (Fin 32)) : exec (.clearPerf b c) s =
    .next (if barOpen s then clearThen b (fun i => isEvent b i) (c.map Fin.val) s else s) := rfl

theorem exec_queueClearStats (q : Fin 4097) (c : Option (Fin 7)) : exec (.queueClearStats q c) s =
    .next (if barOpen s then clearThen (.queue q) (fun _ => true) (c.map Fin.val) s else s) := rfl

end

/-- Settles O31: counts by `count_spec`, clears by `clear_spec`, and a count after a clear from both. -/
theorem countersOverflowAndClear : Obligations.CountersOverflowAndClear := by
  unfold Obligations.CountersOverflowAndClear
  intro s t b q i j n r r7 level top v ovf cleared counted
  have hclear : ∀ (c : Instr) (b : CounterBlock) (which : Nat → Prop) (p : Nat → Bool),
      exec c s = .next (clearThen b p none s) → (∀ j, which j ↔ p j = true) → cleared c b which := by
    intro c b which p he hp
    obtain ⟨-, -, hframe, hother⟩ := clear_spec s b p 0
    exact ⟨_, he,
      fun j => ⟨fun h => (clearCounters_of_mem ((hp j).1 h)).1, fun h => (clearCounters_of_not_mem (mt (hp j).2 h)).1⟩,
      fun j => ⟨fun h => (clearCounters_of_mem ((hp j).1 h)).2, fun h => (clearCounters_of_not_mem (mt (hp j).2 h)).2⟩,
      hframe, hother⟩
  have hcount : ∀ (c : Instr) (b : CounterBlock) (i : Nat) (p : Nat → Bool),
      exec c s = .next (clearThen b p (some i) s) → p i = true → counted c b i :=
    fun c b i p he hp => ⟨_, he, clearThen_counted hp⟩
  refine ⟨?_, fun hopen => ?_, fun hshut c hc => ?_⟩
  · rintro hn rfl
    refine ⟨fun h => ?_, fun h hi => ?_, fun h hi => ?_, count_val_of_ne hn⟩
    · obtain ⟨hv, ho⟩ := count_val_of_le hn h
      exact ⟨hv, congrArg (·.getLsbD i) ho⟩
    · obtain ⟨ho, hv⟩ := count_val_of_lt hn h
      exact ⟨ho hi, hv⟩
    · exact (count_spec hn).2.2 h (isEvent_iff.2 hi)
  · have hstats (c) := (exec_clearStats (s := s) b c).trans (congrArg _ (if_pos hopen))
    have hperf (c) := (exec_clearPerf (s := s) b c).trans (congrArg _ (if_pos hopen))
    have hqueue (c) := (exec_queueClearStats (s := s) q c).trans (congrArg _ (if_pos hopen))
    exact ⟨hclear _ _ _ _ (hstats none) (fun _ => not_isEvent_iff.symm),
      hclear _ _ _ _ (hperf none) (fun _ => isEvent_iff.symm),
      hclear _ _ _ _ (hqueue none) (fun _ => ⟨fun _ => rfl, fun _ => trivial⟩),
      fun h => hcount _ _ _ _ (hstats (some r)) (not_isEvent_iff.2 h),
      fun h => hcount _ _ _ _ (hperf (some r)) (isEvent_iff.2 h),
      hcount _ _ _ _ (hqueue (some r7)) rfl⟩
  · have hno : ¬ barOpen s = true := by simp [hshut]
    rcases List.mem_cons.1 hc with rfl | hc
    · rw [exec_clearStats, if_neg hno]
    rcases List.mem_cons.1 hc with rfl | hc
    · rw [exec_clearPerf, if_neg hno]
    obtain rfl := List.mem_singleton.1 hc
    rw [exec_queueClearStats, if_neg hno]

/-! ### High-word latches -/

section
variable {s : State}

/-- A read of a latched pair answers and sets the latch of its own path; the rest of the state stays. -/
theorem answerRead_setLatch (path : AccessPath) (l : Option (RslRegister × BitVec 32)) (w : BitVec 64) :
    let t := answerRead w (setLatch path l s)
    t.sys.readAnswer = w ∧ t.sys.readRefused = false ∧ t.sys.retryStatus = false ∧ latchOf t path = l ∧
    (∀ p, p ≠ path → latchOf t p = latchOf s p) ∧
    { t with
      sys := { t.sys with readAnswer := s.sys.readAnswer, readRefused := s.sys.readRefused, retryStatus := s.sys.retryStatus },
      pcie := { t.pcie with latchPcie := s.pcie.latchPcie, latchHarbour := s.pcie.latchHarbour } } = s := by
  cases path
  case pcie =>
    refine ⟨rfl, rfl, rfl, rfl, fun p hp => ?_, rfl⟩
    cases p with
    | pcie => exact absurd rfl hp
    | harbourmaster => rfl
  case harbourmaster =>
    refine ⟨rfl, rfl, rfl, rfl, fun p hp => ?_, rfl⟩
    cases p with
    | pcie => rfl
    | harbourmaster => exact absurd rfl hp

theorem setLatch_latchOf (path : AccessPath) : setLatch path (latchOf s path) s = s := by
  cases path <;> rfl

section
variable {path : AccessPath} {r : RslRegister} (hopen : pathOpen s path = true) (hwide : rslWide r = true)
include hopen hwide

theorem exec_rslLowRead : exec (.rslLowRead path r) s =
    .next (answerRead (BitVec.ofNat 64 (rslValue s r % 2 ^ 32)) (setLatch path (some (r, wordOf (rslValue s r) 1)) s)) :=
  congrArg _ (if_pos ⟨hopen, hwide⟩)

theorem exec_latchedHighRead_noted {v : BitVec 32} (h : latchOf s path = some (r, v)) :
    exec (.latchedHighRead path r) s = .next (answerRead (v.zeroExtend 64) (setLatch path none s)) := by
  show execLatchedHighRead path r s = _
  unfold execLatchedHighRead
  simp only [hopen, hwide, and_self, if_true, h]

theorem exec_latchedHighRead_live (h : ∀ v, latchOf s path ≠ some (r, v)) :
    exec (.latchedHighRead path r) s =
      .next (answerRead ((wordOf (rslValue s r) 1).zeroExtend 64) (setLatch path (latchOf s path) s)) := by
  rw [setLatch_latchOf]
  show execLatchedHighRead path r s = _
  unfold execLatchedHighRead
  simp only [hopen, hwide, and_self, if_true]
  split
  next k v hk =>
    have hne : k ≠ r := fun e => h v (e ▸ hk)
    rw [if_neg hne]
  next => rfl

end

theorem wordOf_one_zeroExtend (x : Nat) :
    (wordOf x 1).zeroExtend 64 = BitVec.ofNat 64 (x / 2 ^ 32 % 2 ^ 32) := by
  rw [← BitVec.toNat_ofNat (x / 2 ^ 32) 32, BitVec.ofNat_toNat]
  rfl

theorem exec_taskSel (value : BitVec 32) (h : barOpen s = true) : exec (.taskSel value) s =
    .next { s with pilot := { s.pilot with
      select := value.extractLsb' 0 16, record := taskRecord (getT s (value.toNat % 2 ^ 16)) } } := by
  have hsel : BitVec.ofNat 16 value.toNat = value.extractLsb' 0 16 := by
    apply BitVec.eq_of_toNat_eq
    simp
  have hrun : exec (.taskSel value) s = .next (selectTask (BitVec.ofNat 16 value.toNat) s) := congrArg _ (if_pos h)
  rw [hrun, selectTask, BitVec.toNat_ofNat, hsel]
  rfl

end

/-- Settles O33: each read is `answerRead` after `setLatch`, with the latch that its case leaves. -/
theorem lowReadsLatchHighWords : Obligations.LowReadsLatchHighWords := by
  unfold Obligations.LowReadsLatchHighWords
  intro s path r o v value held live answers
  have hheld (t : State) (p : AccessPath) : held t p = latchOf t p := by cases p <;> rfl
  have hlive : live = rslValue s r := by cases r <;> rfl
  have hanswers : ∀ (c : Instr) (x : Nat) (l : Option (RslRegister × BitVec 32)) (w : BitVec 64),
      exec c s = .next (answerRead w (setLatch path l s)) → w = BitVec.ofNat 64 x → answers c x l := by
    rintro c x l w he rfl
    obtain ⟨ha, hr, hs, hl, hp, hf⟩ := answerRead_setLatch (s := s) path l (BitVec.ofNat 64 x)
    refine ⟨_, he, ha, hr, hs, (hheld _ _).trans hl, fun p h => ?_, hf⟩
    rw [hheld, hheld, hp p h]
  refine ⟨fun hopen hwide => ?_, exec_taskSel value⟩
  rw [hlive, hheld]
  have hhigh (h : ∀ v, latchOf s path ≠ some (r, v)) :
      answers (.latchedHighRead path r) (rslValue s r / 2 ^ 32 % 2 ^ 32) (latchOf s path) :=
    hanswers _ _ _ _ (exec_latchedHighRead_live hopen hwide h) (wordOf_one_zeroExtend _)
  refine ⟨hanswers _ _ _ _ (exec_rslLowRead hopen hwide) rfl,
    fun h => hanswers _ _ _ _ (exec_latchedHighRead_noted hopen hwide h) (BitVec.ofNat_toNat ..).symm,
    fun h => ?_, fun hne h => ?_⟩
  · exact h ▸ hhigh (by simp [h])
  · exact h ▸ hhigh (by simp [h, hne])

end Sys2Proof.Machine
end

section
/-! PROOFS. Chapter 07, the scalar base: what the integer instructions leave in their destination (R292, R293). -/

namespace Sys2Proof.Machine

variable {s : State} {c : Fin 129}

/-! ### The two classes -/

theorem exec_integerAlu (h : coreReady s c) (op : AluOp) (word : Bool) (d a : Fin 32) (src : Src) :
    exec (.integerAlu c op word d a src) s = .next (withCore c (next (setG d
      (aluResult op word (getG (getCore s c.val) a) (srcValue (getCore s c.val) src)) (getCore s c.val))) s) :=
  step_of h rfl (finish_eq _)

theorem exec_multiplyDivide (h : coreReady s c) (op : MulOp) (d a b : Fin 32) :
    exec (.multiplyDivide c op d a b) s = .next (withCore c (next (setG d
      (mulResult op (getG (getCore s c.val) a) (getG (getCore s c.val) b)) (getCore s c.val))) s) :=
  step_of h rfl (finish_eq _)

/-! ### Shifts by less than the width -/

section
variable {x y : Word}

theorem alu64_shift (h : y.toNat < 64) :
    alu64 .shl x y = x <<< y ∧ alu64 .shr x y = x >>> y ∧ alu64 .sar x y = x.sshiftRight' y :=
  ⟨if_pos h, if_pos h, if_pos h⟩

theorem alu32_shift (h : y.toNat < 32) :
    alu32 .shl x y = (x.setWidth 32 <<< y).signExtend 64 ∧ alu32 .shr x y = (x.setWidth 32 >>> y).signExtend 64 ∧
    alu32 .sar x y = ((x.setWidth 32).sshiftRight' y).signExtend 64 := by
  have narrow (op : AluOp) (v : BitVec 32) : (shiftBy op 32 x y (v.setWidth 64)).setWidth 32 = v := by
    rw [shiftBy, if_pos h, BitVec.setWidth_setWidth_of_le _ (by decide), BitVec.setWidth_eq]
  simp only [alu32, narrow, BitVec.shiftLeft_eq', BitVec.ushiftRight_eq', BitVec.sshiftRight', and_self]

/-! ### Products, quotients and remainders -/

theorem mulResult_highSigned (x z : Word) : mulResult .highSigned x z =
    ((x.signExtend 128 * z.signExtend 128) >>> 64).setWidth 64 := by
  have hprod : x.signExtend 128 * z.signExtend 128 = BitVec.ofInt 128 (x.toInt * z.toInt) := (BitVec.ofInt_mul ..).symm
  apply BitVec.eq_of_toNat_eq
  rw [hprod, BitVec.toNat_setWidth, BitVec.toNat_ushiftRight, Nat.shiftRight_eq_div_pow, BitVec.toNat_ofInt, mulResult,
    BitVec.toNat_ofInt]
  omega

theorem mulResult_highUnsigned (x z : Word) : mulResult .highUnsigned x z =
    ((x.setWidth 128 * z.setWidth 128) >>> 64).setWidth 64 := by
  have hprod : x.setWidth 128 * z.setWidth 128 = BitVec.ofNat 128 (x.toNat * z.toNat) := by
    rw [BitVec.ofNat_mul, BitVec.ofNat_toNat, BitVec.ofNat_toNat]
  apply BitVec.eq_of_toNat_eq
  rw [hprod, BitVec.toNat_setWidth, BitVec.toNat_ushiftRight, Nat.shiftRight_eq_div_pow, BitVec.toNat_ofNat, mulResult,
    BitVec.toNat_ofNat]
  omega

theorem mulResult_by_zero (x : Word) :
    mulResult .quotSigned x 0 = BitVec.allOnes 64 ∧ mulResult .quotUnsigned x 0 = BitVec.allOnes 64 ∧
    mulResult .remSigned x 0 = x ∧ mulResult .remUnsigned x 0 = x := ⟨rfl, rfl, rfl, rfl⟩

theorem mulResult_by_nonzero {z : Word} (h : z ≠ 0) :
    mulResult .quotSigned x z = x.sdiv z ∧ mulResult .quotUnsigned x z = x / z ∧
    mulResult .remSigned x z = x.srem z ∧ mulResult .remUnsigned x z = x % z := by
  refine ⟨(if_neg h).trans ?_, (if_neg h).trans ?_, (if_neg h).trans ?_, (if_neg h).trans ?_⟩
  · exact BitVec.eq_of_toInt_eq (by rw [BitVec.toInt_ofInt, BitVec.toInt_sdiv])
  · exact BitVec.udiv_def.symm
  · rw [← BitVec.toInt_srem, BitVec.ofInt_toInt]
  · exact BitVec.umod_def.symm

end

/-- Settles O7: one equation for each class, then the results of `aluResult` and `mulResult`. -/
theorem scalarIntegerResults : Obligations.ScalarIntegerResults := by
  unfold Obligations.ScalarIntegerResults
  intro s c d a b src k x y z x32 y32 alu mul h
  have halu {op : AluOp} {word : Bool} {r : Word} (e : aluResult op word x y = r) : alu op word r :=
    e ▸ exec_integerAlu h op word d a src
  have hmul {op : MulOp} {r : Word} (e : mulResult op x z = r) : mul op r := e ▸ exec_multiplyDivide h op d a b
  refine ⟨rfl, rfl, halu rfl, halu rfl, halu rfl, halu rfl, halu rfl, fun hy => ?_, fun hy => ?_, halu rfl, halu rfl,
    fun r => ⟨halu rfl, halu rfl⟩, fun op word => ⟨_, halu rfl⟩, hmul rfl, hmul (mulResult_highSigned x z),
    hmul (mulResult_highUnsigned x z), fun hz => ?_, fun hz => ?_⟩
  · obtain ⟨hl, hr, ha⟩ := alu64_shift (x := x) hy
    exact ⟨halu hl, halu hr, halu ha⟩
  · obtain ⟨hl, hr, ha⟩ := alu32_shift (x := x) hy
    exact ⟨halu hl, halu hr, halu ha⟩
  · obtain ⟨hq, hu, hr, hm⟩ := mulResult_by_zero x
    exact ⟨hmul (hz ▸ hq), hmul (hz ▸ hu), hmul (hz ▸ hr), hmul (hz ▸ hm)⟩
  · obtain ⟨hq, hu, hr, hm⟩ := mulResult_by_nonzero (x := x) hz
    exact ⟨hmul hq, hmul hu, hmul hr, hmul hm⟩

end Sys2Proof.Machine
end

section
/-! PROOFS. Chapter 07: the instruction that a word spells (R292, R300, R304, R312, R321 to R325; 08, R344, R348), what
raises an exception, and what taking it leaves (R289, R299, R328, R329). -/

namespace Sys2Proof.Machine

/-! ### The fields of a word -/

section
variable {n lo : Nat}

theorem reg5_eq {d : Fin 32} (h : n / 2 ^ lo % 32 = d.val) : reg5 n lo = d :=
  Fin.ext (by rw [← h, ← Nat.shiftRight_eq_div_pow]; rfl)

theorem reg4_eq {d : Fin 16} (h : n / 2 ^ lo % 16 = d.val) : reg4 n lo = d :=
  Fin.ext (by rw [← h, ← Nat.shiftRight_eq_div_pow]; rfl)

theorem pred3_eq {d : Fin 8} (h : n / 2 ^ lo % 8 = d.val) : pred3 n lo = d :=
  Fin.ext (by rw [← h, ← Nat.shiftRight_eq_div_pow]; rfl)

theorem code2_eq {d : Fin 4} (h : n / 2 ^ lo % 4 = d.val) : Fin.ofNat 4 (n >>> lo) = d :=
  Fin.ext (by rw [← h, ← Nat.shiftRight_eq_div_pow]; rfl)

theorem bitsOf_eq {w v : Nat} (h : n / 2 ^ lo % 2 ^ w = v) : bitsOf n lo w = v := by
  rw [bitsOf, Nat.shiftRight_eq_div_pow, h]

theorem bitsOf_ne {w v : Nat} (h : n / 2 ^ lo % 2 ^ w ≠ v) : bitsOf n lo w ≠ v := by
  rwa [bitsOf, Nat.shiftRight_eq_div_pow]

theorem bitOf_eq {b : Bool} (h : n / 2 ^ lo % 2 = b2n b) : bitOf n lo = b := by
  rw [bitOf, Nat.testBit_eq_decide_div_mod_eq, h]
  cases b <;> rfl

theorem b2n_le (b : Bool) : b2n b ≤ 1 := by cases b <;> decide

end

/-- The number that fields, each a value and the bit where it begins, spell under a MAJOR. -/
def spelt (major : Nat) (l : List (Nat × Nat)) : Nat := major * 2 ^ 26 + (l.map (fun z => z.1 * 2 ^ z.2)).sum

theorem spelt_nil (major : Nat) : spelt major [] = major * 2 ^ 26 := by
  rw [spelt, List.map_nil, List.sum_nil, Nat.add_zero]

theorem spelt_cons (major v lo : Nat) (l : List (Nat × Nat)) :
    spelt major ((v, lo) :: l) = v * 2 ^ lo + spelt major l := by
  rw [spelt, List.map_cons, List.sum_cons, Nat.add_left_comm, spelt]

/-! ### The format that MAJOR selects -/

section
variable (c : Fin 129) (u : Measured)

/-- The formats that are stated, by their MAJOR, but for FENCE (R292; 08, R348). -/
def formats : List (Nat × (Nat → Option Instr)) :=
  [(0x14, exclusiveWord c), (0x30, vectorWord c .r), (0x31, vectorWord c .x), (0x32, vectorWord c .i),
   (0x33, setvlWord c), (0x34, loadWord c u), (0x35, storeWord c), (0x36, predWord c u), (0x38, shortWord c),
   (0x39, shortMemory c u), (0x3C, pilotWord c u)]

variable {c u} {n major : Nat}

theorem word_of_major (hm : n / 2 ^ 26 = major) (h : 0 < major) (h6 : major < 64) :
    (BitVec.ofNat 32 n).toNat = n ∧ bitsOf n 26 6 = major ∧ n ≠ 0 :=
  ⟨Nat.mod_eq_of_lt (by omega), bitsOf_eq (by omega), by omega⟩

theorem wordInstr_format : ∀ e ∈ formats c u, n / 2 ^ 26 = e.1 → wordInstr c u (BitVec.ofNat 32 n) = e.2 n := by
  unfold formats
  simp only [List.forall_mem_cons, List.not_mem_nil, false_implies, implies_true, and_true]
  and_intros
  all_goals
    intro hm
    obtain ⟨hw, hmajor, h0⟩ := word_of_major hm (by decide) (by decide)
    rw [wordInstr, hw, hmajor, if_neg h0]
    rfl

theorem wordInstr_reserved (hm : n / 2 ^ 26 = major) (h : 0x20 ≤ major) (h6 : major < 64)
    (hf : ∀ e ∈ formats c u, e.1 ≠ major) : wordInstr c u (BitVec.ofNat 32 n) = none := by
  obtain ⟨hw, hmajor, h0⟩ := word_of_major hm (by omega) h6
  simp only [formats, List.forall_mem_cons] at hf
  simp only [wordInstr, hw, hmajor, h0, if_false]
  rw [if_neg (by omega), if_neg (by omega), if_neg (by omega)]
  split <;> simp_all

/-! ### The words of a format -/

/-- VR, VX and VI (R304). -/
theorem vectorWord_eq (form : VForm) (a : VArgs) (funct : Nat) (hf : funct < 256 := by decide)
    (hn : n % 2 ^ 26 = a.vd.val * 2 ^ 21 + a.vs1.val * 2 ^ 16 + a.src.val * 2 ^ 11 + a.pg.val * 2 ^ 8 + funct := by
      omega) :
    vectorWord c form n = if funct < 0x30 then integerFunct c { a with form := form } funct
      else otherFunct c { a with form := form } funct := by
  have hfields : vectorFields form n = { a with form := form } := by
    simp only [vectorFields, VArgs.mk.injEq, true_and]
    exact ⟨reg5_eq (by omega), reg5_eq (by omega), reg5_eq (by omega), pred3_eq (by omega)⟩
  rw [vectorWord, hfields, bitsOf_eq (v := funct) (by omega)]

/-- SETVL (R300). -/
theorem setvlWord_eq (g h : Fin 32) (ew : Fin 8) (vg : Fin 4)
    (hn : n % 2 ^ 26 = g.val * 2 ^ 21 + h.val * 2 ^ 16 + ew.val * 2 ^ 13 + vg.val * 2 ^ 11 := by omega) :
    setvlWord c n = some (.setvl c g h ew vg) := by
  rw [setvlWord, if_pos (bitsOf_eq (by omega)), reg5_eq (d := g) (by omega), reg5_eq (d := h) (by omega),
    pred3_eq (d := ew) (by omega), code2_eq (d := vg) (by omega)]

section
variable {m : VMem} {nf : Fin 4} (hn : n % 2 ^ 26 = m.vd.val * 2 ^ 21 + m.gs.val * 2 ^ 16 + m.gi.val * 2 ^ 11 +
    m.pg.val * 2 ^ 8 + nf.val * 2 ^ 6 + b2n m.adv * 2 ^ 5 := by omega)
include hn

/-- VM (R312). -/
theorem memoryFields_eq : memoryFields n = m := by
  have hadv := b2n_le m.adv
  rw [memoryFields, reg5_eq (d := m.vd) (by omega), reg5_eq (d := m.gs) (by omega), reg5_eq (d := m.gi) (by omega),
    pred3_eq (d := m.pg) (by omega), bitOf_eq (b := m.adv) (by omega)]

theorem loadWord_eq : loadWord c u n =
    [Instr.vld c m u.seen, .vdeal2 c m u.seen, .vdeal3 c m u.seen, .vdeal4 c m u.seen][nf.val]? := by
  have hadv := b2n_le m.adv
  rw [loadWord, memoryFields_eq hn, bitsOf_eq (v := 0) (by omega), bitsOf_eq (v := nf.val) (by omega)]
  clear hn
  match nf with
  | 0 | 1 | 2 | 3 => rfl

theorem storeWord_eq : storeWord c n = some (.vst c m nf) := by
  have hadv := b2n_le m.adv
  rw [storeWord, memoryFields_eq hn, if_pos (bitsOf_eq (by omega)), code2_eq (d := nf) (by omega)]

end

/-- The predicate format (R321). -/
theorem predWord_eq (p q r : Fin 8) (g : Fin 32) (funct : Nat) {i : Instr} (hi : (funct, i) ∈ [
      (0x00, Instr.pand c p q r), (0x01, .por c p q r), (0x02, .pxor c p q r), (0x03, .pandn c p q r),
      (0x04, .pnot c p q), (0x08, .pcnt c g q), (0x09, .pfirst c g q), (0x0A, .pwhile c p g),
      (0x10, .pld c p g u.seen), (0x11, .pldAdv c p g u.seen), (0x12, .pst c p g), (0x13, .pstAdv c p g)] := by simp)
    (hf : funct < 256 := by decide)
    (hn : n % 2 ^ 26 = p.val * 2 ^ 23 + q.val * 2 ^ 20 + r.val * 2 ^ 17 + g.val * 2 ^ 12 + funct := by omega) :
    predWord c u n = some i := by
  rw [predWord, bitsOf_eq (v := 0) (by omega), bitsOf_eq (v := funct) (by omega), pred3_eq (d := p) (by omega),
    pred3_eq (d := q) (by omega), pred3_eq (d := r) (by omega), reg5_eq (d := g) (by omega)]
  simp only [List.mem_cons, Prod.mk.injEq, List.not_mem_nil, or_false] at hi
  rcases hi with ⟨rfl, rfl⟩ | ⟨rfl, rfl⟩ | ⟨rfl, rfl⟩ | ⟨rfl, rfl⟩ | ⟨rfl, rfl⟩ | ⟨rfl, rfl⟩ | ⟨rfl, rfl⟩ | ⟨rfl, rfl⟩ |
    ⟨rfl, rfl⟩ | ⟨rfl, rfl⟩ | ⟨rfl, rfl⟩ | ⟨rfl, rfl⟩
  all_goals rfl

theorem predWord_reserved (h : bitsOf n 0 8 = 0x14) : predWord c u n = none := by simp [predWord, h]

/-- The format of the short vectors (R323). -/
theorem shortWord_eq (d e f : Fin 16) (sew : Fin 4) (funct : Nat) (hf : funct < 256 := by decide)
    (hn : n % 2 ^ 26 = d.val * 2 ^ 22 + e.val * 2 ^ 18 + f.val * 2 ^ 14 + sew.val * 2 ^ 12 + funct := by omega) :
    shortWord c n =
      if funct = 0x50 then some (.sshuf c sew d e f)
      else if funct = 0x51 then some (.ssel c sew d e f)
      else if 0x20 ≤ funct ∧ funct < 0x2A then (relOf (funct - 0x20)).map (fun r => .scmp c r sew d e f)
      else if 0x37 ≤ funct ∧ funct < 0x3A then [FRel.eq, .lt, .le][funct - 0x37]?.map (fun r => .sfcmp c r sew d e f)
      else (shortOp funct).map (fun op => .svOperation c op sew d e f) := by
  rw [shortWord, bitsOf_eq (v := 0) (by omega), bitsOf_eq (v := funct) (by omega), reg4_eq (d := d) (by omega),
    reg4_eq (d := e) (by omega), reg4_eq (d := f) (by omega), code2_eq (d := sew) (by omega)]
  rfl

/-- The loads and stores of short vectors (R324). -/
theorem shortMemory_eq (d : Fin 16) (g : Fin 32) (off : BitVec 12) (store : Bool)
    (hn : n % 2 ^ 26 = d.val * 2 ^ 22 + g.val * 2 ^ 17 + off.toNat * 2 ^ 5 + b2n store * 2 ^ 4 := by omega) :
    shortMemory c u n = if store then some (.sst c d g off) else some (.sld c d g off u.seen) := by
  have hstore := b2n_le store
  have hoff : BitVec.ofNat 12 (n >>> 5) = off := by
    apply BitVec.eq_of_toNat_eq
    rw [BitVec.toNat_ofNat, Nat.shiftRight_eq_div_pow]
    omega
  rw [shortMemory, if_neg (not_not_intro (bitsOf_eq (by omega))), bitOf_eq (b := store) (by omega),
    reg4_eq (d := d) (by omega), reg5_eq (d := g) (by omega), hoff]

/-- The Pilot format (R325): a field that the instruction does not use is zero. -/
theorem pilotWord_getw (d : Fin 32) (hn : n % 2 ^ 26 = d.val * 2 ^ 21 + 1 := by omega) :
    pilotWord c u n = some (.getw c d u.held u.readyWait) := by
  rw [pilotWord, bitsOf_eq (v := 0) (by omega), bitsOf_eq (v := 1) (by omega), reg5_eq (lo := 21) (d := d) (by omega),
    reg5_eq (lo := 16) (d := 0) (by omega), reg5_eq (lo := 11) (d := 0) (by omega)]
  rfl

theorem pilotWord_donew (g h : Fin 32) (hn : n % 2 ^ 26 = g.val * 2 ^ 16 + h.val * 2 ^ 11 + 2 := by omega) :
    pilotWord c u n = if h = 0 then some (.donew c g u.cycles) else none := by
  rw [pilotWord, bitsOf_eq (v := 0) (by omega), bitsOf_eq (v := 2) (by omega), reg5_eq (lo := 21) (d := 0) (by omega),
    reg5_eq (lo := 16) (d := g) (by omega), reg5_eq (lo := 11) (d := h) (by omega)]
  simp

theorem pilotWord_setev (g h : Fin 32) (hn : n % 2 ^ 26 = g.val * 2 ^ 16 + h.val * 2 ^ 11 + 3 := by omega) :
    pilotWord c u n = some (.setev c g h) := by
  rw [pilotWord, bitsOf_eq (v := 0) (by omega), bitsOf_eq (v := 3) (by omega), reg5_eq (lo := 21) (d := 0) (by omega),
    reg5_eq (lo := 16) (d := g) (by omega), reg5_eq (lo := 11) (d := h) (by omega)]
  rfl

theorem pilotWord_reserved (h : bitsOf n 0 8 = 0) : pilotWord c u n = none := by simp [pilotWord, h]

/-- LDX and STX (08, R344). -/
theorem exclusiveWord_eq (d g h : Fin 32) (wide store : Bool)
    (hn : n % 2 ^ 26 = d.val * 2 ^ 21 + g.val * 2 ^ 16 + h.val * 2 ^ 11 + b2n wide * 2 ^ 1 + b2n store := by omega) :
    exclusiveWord c n = if store then some (.stx c d g h wide)
      else if h.val = 0 then some (.ldx c d g wide) else none := by
  have hwide := b2n_le wide
  have hstore := b2n_le store
  rw [exclusiveWord, if_neg (not_not_intro (bitsOf_eq (by omega))), bitOf_eq (b := store) (by omega),
    bitOf_eq (b := wide) (by omega), bitsOf_eq (v := h.val) (by omega), reg5_eq (d := d) (by omega),
    reg5_eq (d := g) (by omega), reg5_eq (d := h) (by omega)]

end

/-! ### A word runs -/

section
variable {s : State} {c : Fin 129} {u : Measured} {n : Nat}

theorem runWord_of {w : BitVec 32} {i : Instr} (h : wordInstr c u w = some i) : runWord c u w s = exec i s := by
  rw [runWord, h]

theorem runWord_reserved {w : BitVec 32} (hr : coreReady s c) (h : wordInstr c u w = none) :
    runWord c u w s = .next (raise c 1 0 0 s) := by
  rw [runWord, h]
  exact congrArg _ (coreStep_of_ready hr)

section
variable (major : Nat) (f : Nat → Option Instr)

theorem runWord_format {i : Instr} (hi : f n = some i) (hf : (major, f) ∈ formats c u := by simp [formats])
    (hm : n / 2 ^ 26 = major := by omega) : runWord c u (BitVec.ofNat 32 n) s = exec i s :=
  runWord_of ((wordInstr_format (major, f) hf hm).trans hi)

theorem runWord_illegal (hr : coreReady s c) (hi : f n = none) (hf : (major, f) ∈ formats c u := by simp [formats])
    (hm : n / 2 ^ 26 = major := by omega) : runWord c u (BitVec.ofNat 32 n) s = .next (raise c 1 0 0 s) :=
  runWord_reserved hr ((wordInstr_format (major, f) hf hm).trans hi)

theorem runWord_no_format (hr : coreReady s c) (h : 0x20 ≤ major ∧ major < 64 := by decide)
    (hf : ∀ e ∈ formats c u, e.1 ≠ major := by simp [formats]) (hm : n / 2 ^ 26 = major := by omega) :
    runWord c u (BitVec.ofNat 32 n) s = .next (raise c 1 0 0 s) :=
  runWord_reserved hr (wordInstr_reserved hm h.1 h.2 hf)

end

end

/-! ### What raises an exception -/

section
variable {s : State} {c : Fin 129} {a : VArgs}

/-- An instruction of a level (R289). -/
def needsLevel (least : Nat) (c : Fin 129) (s : State) (i : Instr) : Prop :=
  ∃ body, exec i s = .next (atLevel least c s body)

theorem takes_below {i : Instr} {least : Nat} (hr : coreReady s c) (hl : (getCore s c.val).level.toNat < least)
    (hi : needsLevel least c s i) : takesException s c i 1 0 := by
  obtain ⟨body, e⟩ := hi
  exact takes_low hr hl e

theorem takes_setvl {g h : Fin 32} {ew : Fin 8} {vg : Fin 4} (hr : coreReady s c) (hew : 5 ≤ ew.val) :
    takesException s c (.setvl c g h ew vg) 1 0 := by
  refine takes_step hr rfl ?_
  split <;> rfl

theorem longVectorInstrs_level : ∀ i ∈ longVectorInstrs c a, needsLevel 1 c s i := by
  unfold longVectorInstrs
  simp only [List.forall_mem_cons, List.not_mem_nil, false_implies, implies_true, and_true]
  and_intros
  all_goals exact ⟨_, rfl⟩

/-- SETVL, the loads and stores of long vectors and the operations on predicates. -/
theorem vectorSupport_level {g h : Fin 32} {ew : Fin 8} {vg : Fin 4} {m : VMem} {seen : Nat} :
    ∀ i ∈ [Instr.setvl c g h ew vg, .vld c m seen, .vdeal2 c m seen, .vdeal3 c m seen, .vdeal4 c m seen, .vst c m 0,
      .pand c 1 2 3, .por c 1 2 3, .pxor c 1 2 3, .pandn c 1 2 3, .pnot c 1 2, .pcnt c g 1, .pfirst c g 1, .pwhile c 1 g,
      .pld c 1 g seen, .pldAdv c 1 g seen, .pst c 1 g, .pstAdv c 1 g], needsLevel 1 c s i := by
  simp only [List.forall_mem_cons, List.not_mem_nil, false_implies, implies_true, and_true]
  and_intros
  all_goals exact ⟨_, rfl⟩

/-- What only runtime-level code may execute (R289). -/
theorem runtimeInstrs_level {g h : Fin 32} {x y : BitVec 32} (hr : coreReady s c) :
    ∀ i ∈ [Instr.eret c, .iflush c, .wfi c, .getw c g x y, .donew c g x, .setev c g h, .waitcAll c g, .waitcAny c g],
      needsLevel 2 c s i := by
  obtain ⟨-, hwait, -⟩ := hr
  have hgetw : needsLevel 2 c s (.getw c g x y) := ⟨_, congrArg _ (if_neg (fun h => by simp [hwait] at h))⟩
  simp only [List.forall_mem_cons, List.not_mem_nil, false_implies, implies_true, and_true]
  exact ⟨⟨_, rfl⟩, ⟨_, rfl⟩, ⟨_, rfl⟩, hgetw, ⟨_, rfl⟩, ⟨_, rfl⟩, ⟨_, rfl⟩, ⟨_, rfl⟩⟩

/-- An instruction on long vectors that is legal only where `ok` holds (R289, R305). -/
def needsLegal (ok : Core → Bool) (c : Fin 129) (s : State) (i : Instr) : Prop :=
  ∃ body, exec i s = .next (longVector c s ok body)

theorem takes_illegal {i : Instr} {ok : Core → Bool} (hr : coreReady s c) (ho : ok (getCore s c.val) = false)
    (hi : needsLegal ok c s i) : takesException s c i 1 0 := by
  obtain ⟨body, e⟩ := hi
  exact takes_bad hr e ho

theorem lanewiseOk_misaligned {fs : List VForm} {lo hi : Nat} {k : Core} (h : a.vd.val % 2 ^ k.vg.toNat ≠ 0) :
    lanewiseOk fs lo hi a k = false := by
  simp [lanewiseOk, aligned, groupRegs, h]

theorem laneInstrs_legal :
    ∀ i ∈ [Instr.vadd c a, .vsub c a, .vmin c a, .vmax c a, .vmul c a, .vmacc c a, .vand c a, .vsll c a, .vfadd c a,
      .vfma c a, .vmerge c a, .vslideup c a], ∃ fs lo hi, needsLegal (lanewiseOk fs lo hi a) c s i := by
  simp only [List.forall_mem_cons, List.not_mem_nil, false_implies, implies_true, and_true]
  and_intros
  all_goals exact ⟨_, _, _, _, rfl⟩

theorem compareInstrs_legal :
    ∀ i ∈ [Instr.vcmpeq c a, .vcmpne c a, .vcmplt c a, .vcmple c a, .vcmpltu c a, .vcmpleu c a, .vcmpgt c a, .vcmpge c a,
      .vcmpgtu c a, .vcmpgeu c a, .vfcmpeq c a, .vfcmplt c a, .vfcmple c a],
      ∃ fs lo hi, needsLegal (compareOk fs lo hi a) c s i := by
  simp only [List.forall_mem_cons, List.not_mem_nil, false_implies, implies_true, and_true]
  and_intros
  all_goals exact ⟨_, _, _, _, rfl⟩

/-- p0 is no destination (R302). -/
theorem compareOk_zero {fs : List VForm} {lo hi : Nat} {k : Core} (h : a.vd = 0) : compareOk fs lo hi a k = false := by
  simp [compareOk, h]

/-- The fetch from a region that is a device's or not executable (08, R334, R336), or from none. -/
theorem coreStep_no_fetch {body : Core → State} (hc : coreRuns s c = true) (hw : (getCore s c.val).waiting = .none)
    (h : ∀ r, regionFor (getCore s c.val) (getCore s c.val).pc.toNat 4 = some r →
      regionDevice r = true ∨ regionExec r (getCore s c.val).level.toNat = false) :
    coreStep c s body = raise c 3 0 0 s := by
  rw [coreStep, if_pos ⟨hc, hw⟩, fetched]
  split
  · rfl
  · next r hreg =>
    rcases h r hreg with hd | he
    · simp [hd]
    · simp [he]

theorem takes_sysRead_none {g : Fin 32} {n : BitVec 12} (hr : coreReady s c)
    (e : sysRead s.sys.cycle c (getCore s c.val).level.toNat n.toNat (getCore s c.val) = none) :
    takesException s c (.csrr c g n) 1 0 ∧ takesException s c (.csrw c n g) 1 0 :=
  ⟨takes_step hr rfl (by rw [e]; rfl), takes_step hr rfl (by rw [e]; rfl)⟩

theorem takes_csrw_unwritable {g : Fin 32} {n : BitVec 12} (hr : coreReady s c)
    (e : sysWrite n.toNat (getG (getCore s c.val) g) (getCore s c.val) = none) : takesException s c (.csrw c n g) 1 0 := by
  refine takes_step hr rfl ?_
  split
  · rfl
  · rw [e]; rfl

/-- A value with a reserved EW or a VL above the VLMAX (R299). -/
theorem vcfgOk_false {v : Word} (h : 4 < v.toNat % 8 ∨
      512 * 2 ^ (v.toNat / 8 % 4) / (8 * 2 ^ (v.toNat % 8)) < v.toNat / 32 % 1024) : vcfgOk v = false := by
  have hew : bitsOf v.toNat 0 3 = v.toNat % 8 := bitsOf_eq (by omega)
  have hvg : bitsOf v.toNat 3 2 = v.toNat / 8 % 4 := bitsOf_eq (by omega)
  have hvl : bitsOf v.toNat 5 10 = v.toNat / 32 % 1024 := bitsOf_eq (by omega)
  rw [vcfgOk, hew, hvg, hvl, vlmax, widthOf, Bool.and_eq_false_iff, decide_eq_false_iff_not, decide_eq_false_iff_not,
    Nat.not_le, Nat.not_le]
  exact h

theorem sysRead_none {cycle : Word} {level n : Nat} {k : Core}
    (h : n ∉ [0x000, 0x001, 0x010, 0x011, 0x100, 0x101, 0x102, 0x110]) : sysRead cycle c level n k = none := by
  unfold sysRead
  split <;> simp_all

section
variable {addr : Word} {n cause : Nat} {vec : Bool}

theorem loadThen_error {seen : Nat} {go : Bytes → State → State}
    (h : accessType (getCore s c.val) false vec addr.toNat n = .error cause) :
    loadThen c addr.toNat n seen vec s go = raise c cause 0 addr s := by
  simp only [loadThen, h, BitVec.ofNat_toNat, BitVec.setWidth_eq]

theorem storeThen_error {data : Bytes} {go : State → State} (hn : data.length = n)
    (h : accessType (getCore s c.val) true vec addr.toNat n = .error cause) :
    storeThen c addr.toNat data vec s go = raise c cause 0 addr s := by
  simp only [storeThen, hn, h, BitVec.ofNat_toNat, BitVec.setWidth_eq]

end

end

/-- Settles O17: the words by `runWord_format`, with the equation of each format; the exceptions by `takes_of_raise`,
with the level, the legality or the access that each instruction looks at first. -/
theorem exceptionsEnterTheRuntime : Obligations.ExceptionsEnterTheRuntime := by
  unfold Obligations.ExceptionsEnterTheRuntime
  intro s c a m g h r size sg wide offset seen cause number ew p q vg x y u d e f off k at_ ex word lanes memory
  have spell (major : Nat) (l : List (Nat × Nat)) : word major l = BitVec.ofNat 32 (spelt major l) := rfl
  -- What `omega` needs of the fields of one bit.
  have hadv := b2n_le m.adv
  have hwide := b2n_le wide
  have hfalse : b2n false = 0 := rfl
  have htrue : b2n true = 1 := rfl
  refine ⟨?_, fun hr => ?_, fun hc hw hregion => ?_, fun hr => ⟨?_, ?_, fun hl => ?_, fun hl => ?_, fun hv => ?_,
    fun hv => ?_, takes_setvl hr, fun hn => ?_, fun n hn hl => ?_, fun n hn hl => ?_, fun hv => ?_, fun he => ?_,
    fun he => ?_, fun he => ?_⟩⟩
  · simp only [spell, lanes, memory, spelt_cons, spelt_nil, List.forall_mem_cons, List.not_mem_nil, false_implies,
      implies_true, and_true]
    and_intros
    · exact runWord_format 0x30 (vectorWord c .r) (vectorWord_eq .r a 0x00)
    · exact runWord_format 0x31 (vectorWord c .x) (vectorWord_eq .x a 0x25)
    · exact runWord_format 0x32 (vectorWord c .i) (vectorWord_eq .i a 0x09)
    · exact runWord_format 0x30 (vectorWord c .r) (vectorWord_eq .r a 0x4D)
    · exact runWord_format 0x33 (setvlWord c) (setvlWord_eq g h ew vg)
    · exact runWord_format 0x34 (loadWord c u) (loadWord_eq (m := m) (nf := 0))
    · exact runWord_format 0x34 (loadWord c u) (loadWord_eq (m := m) (nf := 2))
    · exact runWord_format 0x35 (storeWord c) (storeWord_eq (m := m) (nf := 0))
    · exact runWord_format 0x36 (predWord c u) (predWord_eq p q 3 0 0x03)
    · exact runWord_format 0x36 (predWord c u) (predWord_eq p 0 0 g 0x11)
    · exact runWord_format 0x38 (shortWord c) (shortWord_eq d e f vg 0x50)
    · exact runWord_format 0x38 (shortWord c) (shortWord_eq d e f vg 0x24)
    · exact runWord_format 0x39 (shortMemory c u) (shortMemory_eq d g off false)
    · exact runWord_format 0x39 (shortMemory c u) (shortMemory_eq d g off true)
    · exact runWord_format 0x3C (pilotWord c u) (pilotWord_getw g)
    · exact runWord_format 0x3C (pilotWord c u) (pilotWord_donew g 0)
    · exact runWord_format 0x3C (pilotWord c u) (pilotWord_setev g h)
    · exact runWord_format 0x14 (exclusiveWord c) (exclusiveWord_eq h g 0 wide false)
    · exact runWord_format 0x14 (exclusiveWord c) (exclusiveWord_eq h g h wide true)
    · exact runWord_of (by rfl)
  · simp only [spell, lanes, memory, spelt_cons, spelt_nil, List.forall_mem_cons, List.not_mem_nil, false_implies,
      implies_true, and_true]
    and_intros
    · exact runWord_reserved hr (by rfl)
    · exact runWord_no_format 0x20 hr
    · exact runWord_no_format 0x2F hr
    · exact runWord_no_format 0x37 hr
    · exact runWord_no_format 0x3A hr
    · exact runWord_no_format 0x3F hr
    · exact runWord_illegal 0x30 (vectorWord c .r) hr (vectorWord_eq .r a 0x0F)
    · exact runWord_illegal 0x31 (vectorWord c .x) hr (vectorWord_eq .x a 0x50)
    · exact runWord_illegal 0x33 (setvlWord c) hr (if_neg (bitsOf_ne (by omega)))
    · exact runWord_illegal 0x34 (loadWord c u) hr (if_pos (bitsOf_ne (by omega)))
    · exact runWord_illegal 0x35 (storeWord c) hr (if_neg (bitsOf_ne (by omega)))
    · exact runWord_illegal 0x36 (predWord c u) hr (if_pos (bitsOf_ne (by omega)))
    · exact runWord_illegal 0x36 (predWord c u) hr (predWord_reserved (bitsOf_eq (by omega)))
    · exact runWord_illegal 0x38 (shortWord c) hr (if_pos (bitsOf_ne (by omega)))
    · exact runWord_illegal 0x38 (shortWord c) hr (shortWord_eq d 0 0 0 0x10)
    · exact runWord_illegal 0x39 (shortMemory c u) hr (if_pos (bitsOf_ne (by omega)))
    · exact runWord_illegal 0x3C (pilotWord c u) hr (pilotWord_reserved (bitsOf_eq (by omega)))
    · exact runWord_illegal 0x3C (pilotWord c u) hr (pilotWord_donew g 1)
    · exact runWord_illegal 0x14 (exclusiveWord c) hr (if_pos (bitsOf_ne (by omega)))
    · exact runWord_illegal 0x14 (exclusiveWord c) hr (exclusiveWord_eq h 0 1 false false)
    · exact runWord_reserved hr (by rfl)
  · have hstep (body) := coreStep_no_fetch (body := body) hc hw hregion
    simp only [List.forall_mem_cons, List.not_mem_nil, false_implies, implies_true, and_true]
    and_intros
    all_goals exact takes_of_raise (congrArg _ (hstep _))
  · exact takes_step hr rfl rfl
  · refine takes_step hr rfl ?_
    split <;> rfl
  · exact fun i hi => takes_below hr hl (runtimeInstrs_level hr i hi)
  · have h0 : k.level.toNat < 1 := by rw [hl]; decide
    intro i hi
    refine takes_below hr h0 ?_
    rcases List.mem_append.1 hi with hi | hi
    · exact longVectorInstrs_level i hi
    · exact vectorSupport_level i hi
  · intro i hi
    obtain ⟨_, _, _, hlegal⟩ := laneInstrs_legal i hi
    exact takes_illegal hr (lanewiseOk_misaligned hv) hlegal
  · intro i hi
    obtain ⟨_, _, _, hlegal⟩ := compareInstrs_legal i hi
    exact takes_illegal hr (compareOk_zero hv) hlegal
  · exact takes_sysRead_none hr (sysRead_none hn)
  · refine takes_sysRead_none hr ?_
    simp only [List.mem_cons, List.not_mem_nil, or_false] at hn
    rcases hn with rfl | rfl | rfl | rfl
    all_goals exact if_neg (Nat.not_le.2 hl)
  · refine takes_sysRead_none hr ?_
    have h0 : ¬ 1 ≤ k.level.toNat := by rw [hl]; decide
    simp only [List.mem_cons, List.not_mem_nil, or_false] at hn
    rcases hn with rfl | rfl
    all_goals exact if_neg h0
  · refine takes_csrw_unwritable hr ?_
    show (if vcfgOk ex then _ else none) = none
    rw [vcfgOk_false hv]
    rfl
  · exact takes_step hr rfl (loadThen_error he)
  · exact takes_step hr rfl (storeThen_error (natLe_length ..) he)
  · have haddr : raise c 2 0 (BitVec.ofNat 64 ex.toNat) s = raise c 2 0 ex s := by
      rw [BitVec.ofNat_toNat, BitVec.setWidth_eq]
    exact ⟨takes_step hr rfl ((if_pos he).trans haddr), takes_step hr rfl ((if_pos he).trans haddr)⟩

end Sys2Proof.Machine
end

section
/-! PROOFS. Chapter 09: pulses of events and the flags they set (R361, R366 to R369), and the timer's pulse at the expiry
of a delay (R377, R378, R380). -/

namespace Sys2Proof.Machine

/-! ### Pulses -/

section
variable {s : State} {t n flag : Nat} {src : Option (Fin 512)}

/-- The record of a task with a flag set. -/
def withFlag (x : Task) (flag : Nat) : Task := { x with flags := x.flags ||| (1#32 <<< flag) }

/-- A pulse of that source reaches a task with record `x` (R368): the task is not FREE, and the pulse comes from the
device or from the task's berth. -/
def hears (x : Task) (src : Option (Fin 512)) : Prop := x.state ≠ .free ∧ (src = none ∨ src = x.berth)

theorem not_hears {x : Task} (h : x.state = .free ∨ ∃ b, src = some b ∧ x.berth ≠ some b) : ¬ hears x src := by
  rintro ⟨hlive, hfrom⟩
  rcases h with hfree | ⟨b, rfl, hb⟩
  · exact hlive hfree
  · rcases hfrom with h | h
    · simp at h
    · exact hb h.symm

/-- R368. -/
theorem pulse_of_not_hears (h : ¬ hears (getT s t) src) : pulse t flag src s = count .pilot 6 1 s := by
  refine if_pos ?_
  by_cases hfree : (getT s t).state = .free
  · exact .inl hfree
  · have hother : ¬ (src = none ∨ src = (getT s t).berth) := fun hfrom => h ⟨hfree, hfrom⟩
    obtain ⟨hsome, hberth⟩ := not_or.1 hother
    exact .inr ⟨Option.isSome_iff_ne_none.2 hsome, hberth⟩

/-- R361: a flag is one bit. -/
theorem pulse_of_flag_set (h : hears (getT s t) src) (hf : (getT s t).flags.getLsbD flag = true) :
    pulse t flag src s = count .pilot 2 1 s := by
  obtain ⟨hlive, hfrom⟩ := h
  refine (if_neg ?_).trans (if_pos hf)
  rintro (hfree | ⟨hsome, hother⟩)
  · exact hlive hfree
  · rcases hfrom with rfl | hsame
    · simp at hsome
    · exact hother hsame

theorem pulse_of_flag_clear (h : hears (getT s t) src) (hf : (getT s t).flags.getLsbD flag = false) :
    pulse t flag src s = wake t (withTask t (withFlag (getT s t) flag) (count .pilot 1 1 s)) :=
  pulse_set h.1 h.2 hf

/-- All that a pulse can do: it is rejected, or it finds its flag set, or it sets the flag. -/
theorem pulse_cases (t flag : Nat) (src : Option (Fin 512)) (s : State) :
    (¬ hears (getT s t) src ∧ pulse t flag src s = count .pilot 6 1 s) ∨
    (hears (getT s t) src ∧ (getT s t).flags.getLsbD flag = true ∧ pulse t flag src s = count .pilot 2 1 s) ∨
    (hears (getT s t) src ∧ (getT s t).flags.getLsbD flag = false ∧
      pulse t flag src s = wake t (withTask t (withFlag (getT s t) flag) (count .pilot 1 1 s))) := by
  by_cases h : hears (getT s t) src
  · cases hf : (getT s t).flags.getLsbD flag with
    | true => exact .inr (.inl ⟨h, rfl, pulse_of_flag_set h hf⟩)
    | false => exact .inr (.inr ⟨h, rfl, pulse_of_flag_clear h hf⟩)
  · exact .inl ⟨h, pulse_of_not_hears h⟩

theorem pulse_of_not_wakes (h : hears (getT s t) src) (hf : (getT s t).flags.getLsbD flag = false)
    (hw : (getT s t).state ≠ .waiting ∨ ¬ wakes (withFlag (getT s t) flag)) :
    pulse t flag src s = withTask t (withFlag (getT s t) flag) (count .pilot 1 1 s) := by
  rw [pulse_of_flag_clear h hf]
  refine wake_no ?_
  rw [withTask_get]
  exact hw

/-- R360, R366. -/
theorem wake_of_wakes (hs : (getT s t).state = .waiting) (hw : wakes (getT s t)) :
    getT (wake t s) t = readied s (getT s t) := by
  rw [wake_yes hs hw, onPilot_getT _ (by rfl), onT_self]
  rfl

theorem pulse_of_wakes (h : hears (getT s t) src) (hf : (getT s t).flags.getLsbD flag = false)
    (hs : (getT s t).state = .waiting) (hw : wakes (withFlag (getT s t) flag)) :
    getT (pulse t flag src s) t = readied s (withFlag (getT s t) flag) := by
  rw [pulse_of_flag_clear h hf, wake_of_wakes (by rw [withTask_get]; exact hs) (by rw [withTask_get]; exact hw), withTask_get]
  simp only [readied, withTask, count_sys, count_pilot]

theorem pulse_ne (h : n ≠ t) : getT (pulse t flag src s) n = getT s n := by
  rcases pulse_cases t flag src s with ⟨-, e⟩ | ⟨-, -, e⟩ | ⟨-, -, e⟩
  · rw [e, count_getT]
  · rw [e, count_getT]
  · rw [e, wake_ne _ _ h, withTask_ne h, count_getT]

theorem pulse_expiry : (getT (pulse t flag src s) t).expiry = (getT s t).expiry := by
  rcases pulse_cases t flag src s with ⟨-, e⟩ | ⟨-, -, e⟩ | ⟨-, -, e⟩
  · rw [e, count_getT]
  · rw [e, count_getT]
  · rw [e, wake_expiry, withTask_get]
    rfl

theorem or_bit_of_getLsbD {w i : Nat} {v : BitVec w} (h : v.getLsbD i = true) : v ||| (1#w <<< i) = v := by
  ext j hj
  rw [BitVec.getElem_or, Bool.or_eq_left_iff_imp]
  intro hbit
  have hij : j = i := by
    simp at hbit
    omega
  rw [← BitVec.getLsbD_eq_getElem, hij, h]

/-- R367, R368: no pulse that reaches its task is lost. -/
theorem pulse_flags (h : hears (getT s t) src) :
    (getT (pulse t flag src s) t).flags = (getT s t).flags ||| (1#32 <<< flag) := by
  rcases pulse_cases t flag src s with ⟨hno, -⟩ | ⟨-, hf, e⟩ | ⟨-, -, e⟩
  · exact absurd h hno
  · rw [e, count_getT, or_bit_of_getLsbD hf]
  · rw [e, wake_flags, withTask_get]
    rfl

end

/-! ### Pulses of software -/

section
variable {s : State} {c : Fin 129} {task : BitVec 16} {flag : Fin 32} {src : Option (Fin 512)}

theorem exec_eventPulse_timer (h : flag.val = 31) : exec (.eventPulse task flag src) s = .next s :=
  congrArg _ (if_pos h)

theorem exec_eventPulse_of_ne (h : flag.val ≠ 31) :
    exec (.eventPulse task flag src) s = .next (pulse task.toNat flag.val src s) := congrArg _ (if_neg h)

/-- R369: a SETEV is the pulse of the berth whose item the core holds. -/
theorem exec_setev_of_ready {g h : Fin 32} (hr : runtimeReady s c) (hq : coreQuiet s c)
    (hg : (getG (getCore s c.val) g).toNat % 2 ^ 16 = task.toNat) (hh : (getG (getCore s c.val) h).toNat % 32 = flag.val) :
    exec (.setev c g h) s =
      .next (finish c id (softPulse task.toNat flag.val (itemBerth s (getCore s c.val)) s)) := by
  obtain ⟨hready, hlevel⟩ := hr
  rw [← hg, ← hh]
  refine congrArg Host.Outcome.next ((atLevel_of_ready hready ?_).trans (pendingOr_quiet hq))
  rw [hlevel]
  decide

end

/-! ### Expiries -/

section
variable {s : State} {task : BitVec 16} {e : BitVec 32}

/-- R14. -/
theorem wrapLater_iff {n : Nat} (a b : BitVec n) :
    wrapLater n a.toNat b.toNat = true ↔ 0 < (a - b).toNat ∧ (a - b).toNat < 2 ^ (n - 1) := by
  have hd : (a.toNat + (2 ^ n - b.toNat % 2 ^ n)) % 2 ^ n = (a - b).toNat := by
    rw [BitVec.toNat_sub, Nat.mod_eq_of_lt b.isLt, Nat.add_comm]
  simp only [wrapLater, hd, Bool.and_eq_true, decide_eq_true_eq]

theorem not_wrapLater_of_reached {a b : BitVec 32} (h : (b - a).toNat < 2 ^ 31) : ¬ wrapLater 32 a.toNat b.toNat = true := by
  rw [wrapLater_iff]
  rintro ⟨hpos, hlt⟩
  bv_omega

theorem earlierExpiry_iff {g : Fin 16} : earlierExpiry s g e = true ↔
    ∃ o ∈ s.pilot.tasks, o.2.grove = g ∧ ∃ d, o.2.expiry = some d ∧ wrapLater 32 e.toNat d.toNat = true := by
  simp only [earlierExpiry, List.any_eq_true, Bool.and_eq_true, decide_eq_true_eq, Option.any_eq_true]

/-- An expiry is not served yet: PTICK has not reached it, or an earlier one stands in its grove's list (R377, R378). -/
def expiryStands (s : State) (g : Fin 16) (e : BitVec 32) : Prop :=
  wrapLater 32 e.toNat s.pilot.tick.toNat = true ∨ earlierExpiry s g e = true

/-- The state once an expired delay place has been given up and before the timer's pulse. -/
def placeGivenUp (t : Nat) (s : State) : State := countP 5 1 (onT t (fun x => { x with expiry := none }) s)

theorem exec_delayExpiry_none (h : (getT s task.toNat).expiry = none) : exec (.delayExpiry task) s = .next s := by
  show execDelayExpiry task s = _
  simp only [execDelayExpiry, h]

theorem exec_delayExpiry_some (h : (getT s task.toNat).expiry = some e) : exec (.delayExpiry task) s =
    .next (if wrapLater 32 e.toNat s.pilot.tick.toNat || earlierExpiry s (getT s task.toNat).grove e then s
      else grantDelay (getT s task.toNat).berth (pulse task.toNat 31 none (placeGivenUp task.toNat s))) := by
  show execDelayExpiry task s = _
  simp only [execDelayExpiry, h, placeGivenUp]

theorem exec_delayExpiry_of_stands (h : (getT s task.toNat).expiry = some e)
    (hd : expiryStands s (getT s task.toNat).grove e) : exec (.delayExpiry task) s = .next s := by
  rw [exec_delayExpiry_some h, if_pos (Bool.or_eq_true_iff.2 hd)]

theorem exec_delayExpiry_of_due (h : (getT s task.toNat).expiry = some e)
    (hd : ¬ expiryStands s (getT s task.toNat).grove e) : exec (.delayExpiry task) s =
      .next (grantDelay (getT s task.toNat).berth (pulse task.toNat 31 none (placeGivenUp task.toNat s))) := by
  rw [exec_delayExpiry_some h, if_neg (mt Bool.or_eq_true_iff.1 hd)]

theorem placeGivenUp_self (t : Nat) : getT (placeGivenUp t s) t = { getT s t with expiry := none } := by
  rw [placeGivenUp, countP, count_getT, onT_self]

theorem placeGivenUp_ne {t n : Nat} (h : n ≠ t) : getT (placeGivenUp t s) n = getT s n := by
  rw [placeGivenUp, countP, count_getT, onT_ne _ _ h]

theorem noWaits.placeGivenUp {t : Nat} (h : noWaits s) : noWaits (placeGivenUp t s) :=
  (h.setT (t := t) (f := fun x => { x with expiry := none }) fun _ hx => hx).congr (congrArg _ (count_pilot ..))

/-- R377: the timer's pulse sets flag 31 of any task that is not FREE. -/
theorem timer_sets_flag {t : Nat} {b : Option (Fin 512)} (hs : (getT s t).state ≠ .free) :
    (getT (grantDelay b (pulse t 31 none (placeGivenUp t s))) t).flags = (getT s t).flags ||| (1#32 <<< 31) := by
  have hself := placeGivenUp_self (s := s) t
  have hears_device : hears (getT (placeGivenUp t s) t) none := ⟨by rw [hself]; exact hs, .inl rfl⟩
  rw [grantDelay_flags, pulse_flags hears_device, hself]

/-- R380: with no task waiting for the place, only the expired task's record changes. -/
theorem timer_frame {t : Nat} {b : Option (Fin 512)} (h : noWaits s) :
    (getT (grantDelay b (pulse t 31 none (placeGivenUp t s))) t).expiry = none ∧
    ∀ n, n ≠ t → getT (grantDelay b (pulse t 31 none (placeGivenUp t s))) n = getT s n := by
  have hwaits : noWaits (pulse t 31 none (placeGivenUp t s)) := h.placeGivenUp.pulse
  rw [hwaits.grant]
  refine ⟨?_, fun n hn => ?_⟩
  · rw [pulse_expiry, placeGivenUp_self]
  · rw [pulse_ne hn, placeGivenUp_ne hn]

end

/-- Settles O22: the pulse by the cases of `pulse_cases`, a SETEV as the pulse of its item's berth, and the timer as the
device's pulse of flag 31 once its expiry stands no longer. -/
theorem eventsSetFlags : Obligations.EventsSetFlags := by
  unfold Obligations.EventsSetFlags
  intro s t c g h task flag source k x set pulsed
  have reaches {u : State} (e : exec (.eventPulse task flag source) s = .next u) : pulsed ↔ t = u := by
    show exec (.eventPulse task flag source) s = .next t ↔ t = u
    rw [e, Host.Outcome.next.injEq, eq_comm]
  refine ⟨fun hf => reaches (exec_eventPulse_timer hf), fun hf hno => ?_, fun hf hlive hfrom => ?_,
    fun hr hq hg hh hsource => ?_, exec_delayExpiry_none, fun e he hpos hlt => ?_, fun e o d he ho hgrove hd hpos hlt => ?_,
    fun e he hreached hlive hfirst => ?_⟩
  · exact reaches ((exec_eventPulse_of_ne hf).trans (congrArg _ (pulse_of_not_hears (not_hears hno))))
  · have heard : hears x source := ⟨hlive, hfrom⟩
    have hexec := exec_eventPulse_of_ne (s := s) (task := task) (src := source) hf
    refine ⟨fun hset => ?_, fun hclear hsleeps => ?_, fun hclear hwaiting hwakes => ⟨_, hexec, ?_, fun n hn => pulse_ne hn, ?_⟩⟩
    · exact reaches (hexec.trans (congrArg _ (pulse_of_flag_set heard hset)))
    · exact reaches (hexec.trans (congrArg _ (pulse_of_not_wakes heard hclear hsleeps)))
    · exact pulse_of_wakes heard hclear hwaiting hwakes
    · exact pulse_cores ..
  · subst hsource
    exact ⟨_, rfl, exec_setev_of_ready hr hq hg hh⟩
  · exact exec_delayExpiry_of_stands he (.inl ((wrapLater_iff e _).2 ⟨hpos, hlt⟩))
  · have hearlier : earlierExpiry s x.grove e = true :=
      earlierExpiry_iff.2 ⟨o, ho, hgrove, d, hd, (wrapLater_iff e d).2 ⟨hpos, hlt⟩⟩
    exact exec_delayExpiry_of_stands he (.inr hearlier)
  · have hdue : ¬ expiryStands s x.grove e := by
      rintro (hlater | hearlier)
      · exact not_wrapLater_of_reached hreached hlater
      · obtain ⟨o, ho, hgrove, d, hd, hlater⟩ := earlierExpiry_iff.1 hearlier
        obtain ⟨hpos, hlt⟩ := (wrapLater_iff e d).1 hlater
        rcases hfirst o ho d hgrove hd with rfl | hfar
        · simp at hpos
        · exact Nat.not_le.2 hlt hfar
    exact ⟨_, exec_delayExpiry_of_due he hdue, timer_sets_flag hlive, timer_frame⟩

end Sys2Proof.Machine
end

section
/-! PROOFS. What commands report beside their own effect: records of the Heartwood log (16, R677), event sources (10, R450)
and EMCY messages (14, R605). -/

namespace Sys2Proof.Machine

variable {s t u : State}

/-! ### Records and sources -/

/-- The log takes a record: it is not full, and its queue is not (R677, R680). -/
def logTakes (s : State) : Prop := s.mram.logFull = false ∧ s.log.queue.length < 1000

theorem queueRecord_log (r : HwRecord) (h : logTakes s) :
    (queueRecord r s).log = { s.log with queue := s.log.queue ++ [r] } := by
  obtain ⟨hfull, hlen⟩ := h
  have hroom : ¬ 1024 ≤ s.log.queue.length := by omega
  unfold queueRecord
  rw [if_neg (by simp [hfull]), if_neg hroom]
  rfl

theorem logRecord_queue (code source p0 p1 p2 : Nat) (h : logTakes s) :
    (logRecord code source p0 p1 p2 s).log.queue = s.log.queue ++ [makeRecord code source p0 p1 p2 s] :=
  congrArg LogQueue.queue (queueRecord_log _ h)

/-- The records queued before stay queued. -/
theorem queueRecord_prefix (r : HwRecord) : s.log.queue <+: (queueRecord r s).log.queue := by
  unfold queueRecord
  split
  · exact List.prefix_refl _
  · split
    · exact List.prefix_refl _
    · exact List.prefix_append ..

theorem queueRecord_retired (r : HwRecord) : (queueRecord r s).mram.retired = s.mram.retired := by
  unfold queueRecord
  split
  · rfl
  · split <;> rfl

@[simp] theorem logRecord_retired (code source p0 p1 p2 : Nat) :
    (logRecord code source p0 p1 p2 s).mram.retired = s.mram.retired := queueRecord_retired _

theorem signalVector_esPending (v : Nat) : (signalVector v s).pcie.esPending = s.pcie.esPending := by
  unfold signalVector
  split
  · rfl
  · split
    · rfl
    · unfold sendMsix
      dsimp only
      split
      · rfl
      · split <;> rfl

theorem raiseSource_esPending (n : Nat) : (raiseSource n s).pcie.esPending = tblSet s.pcie.esPending n true := by
  unfold raiseSource
  dsimp only
  split
  · rw [signalVector_esPending]
    rfl
  · rfl

/-- An event source is pending. -/
def pends (s : State) (n : Nat) : Prop := tblGet false s.pcie.esPending n = true

theorem raiseSource_pends (n : Nat) : pends (raiseSource n s) n := by
  rw [pends, raiseSource_esPending, tblGet_tblSet_self]

theorem pends.raiseSource {n : Nat} (k : Nat) (h : pends s n) : pends (raiseSource k s) n := by
  rw [pends, raiseSource_esPending, tblGet_tblSet]
  split
  · rfl
  · exact h

/-! ### EMCY messages -/

/-- The node's part of the state and the error field change alone. -/
def EmcyOnly (s t : State) : Prop := t = { s with can := t.can, dict := { s.dict with errors := t.dict.errors } }

theorem EmcyOnly.refl (s : State) : EmcyOnly s s := rfl

theorem EmcyOnly.trans (h1 : EmcyOnly s t) (h2 : EmcyOnly t u) : EmcyOnly s u := by
  unfold EmcyOnly at *
  rw [h2, h1]

theorem EmcyOnly.onCan (f : CanNode → CanNode) : EmcyOnly s (onCan f s) := rfl

theorem emcySend_only (code hwCode source : Nat) : EmcyOnly s (emcySend code hwCode source s) := by
  unfold emcySend EmcyOnly
  dsimp only
  rw [emcyFrame_frame]
  split <;> rfl

theorem emcyRaise_only (code hwCode source : Nat) : EmcyOnly s (emcyRaise code hwCode source s) :=
  (EmcyOnly.onCan _).trans (emcySend_only ..)

theorem emcyClear_only (code hwCode source : Nat) : EmcyOnly s (emcyClear code hwCode source s) := by
  unfold emcyClear
  split
  · dsimp only
    split
    · exact EmcyOnly.onCan _
    · exact ((EmcyOnly.onCan _).trans (EmcyOnly.onCan _)).trans (emcySend_only ..)
  · exact EmcyOnly.refl s

/-- The node sends an EMCY message at once (R602, R605). -/
def sendsNow (n : CanNode) : Prop :=
  (n.nmt = .preOperational ∨ n.nmt = .operational) ∧ n.inhibited = false ∧ n.busOff = false

theorem sendsNow_of_active (h : canActive s = true) (hi : s.can.inhibited = false) : sendsNow s.can := by
  simp only [canActive, canOn, Bool.and_eq_true, Bool.not_eq_true', Bool.or_eq_true, beq_iff_eq] at h
  obtain ⟨⟨⟨⟨-, hoff⟩, -⟩, -⟩, hnmt⟩ := h
  exact ⟨hnmt, hi, hoff⟩

theorem emcyFrame_sent (f : CanFrame) (h : sendsNow s.can) : (emcyFrame f s).can.sent = f :: s.can.sent := by
  obtain ⟨hnmt, hi, hoff⟩ := h
  unfold emcyFrame
  rw [if_pos hnmt, if_neg (by simp [hi, hoff])]
  rfl

theorem emcyFrame_conditions (f : CanFrame) : (emcyFrame f s).can.conditions = s.can.conditions ∧
    (emcyFrame f s).can.errorRegister = s.can.errorRegister := by
  unfold emcyFrame
  split
  · split <;> exact ⟨rfl, rfl⟩
  · split <;> exact ⟨rfl, rfl⟩

theorem emcySend_conditions (code hwCode source : Nat) :
    (emcySend code hwCode source s).can.conditions = s.can.conditions ∧
    (emcySend code hwCode source s).can.errorRegister = s.can.errorRegister := by
  unfold emcySend
  dsimp only
  rw [(emcyFrame_conditions _).1, (emcyFrame_conditions _).2]
  split <;> exact ⟨rfl, rfl⟩

theorem emcySend_sent (code hwCode source : Nat) (h : sendsNow s.can) : (emcySend code hwCode source s).can.sent =
    ⟨0x80 + s.can.nodeId.toNat, emcyBytes s code hwCode source⟩ :: s.can.sent := by
  unfold emcySend
  dsimp only
  split
  · exact emcyFrame_sent _ h
  · exact emcyFrame_sent _ h

theorem emcySend_errors {code : Nat} (hwCode source : Nat) (h : code ≠ 0) : (emcySend code hwCode source s).dict.errors =
    (BitVec.ofNat 32 (code + hwCode * 65536) :: s.dict.errors).take 8 := by
  unfold emcySend
  rw [if_neg h, emcyFrame_dict]
  rfl

/-- With code 0 nothing enters the error field. -/
theorem emcyClear_dict (code hwCode source : Nat) : (emcyClear code hwCode source s).dict = s.dict := by
  have hsend (v : State) : (emcySend 0 hwCode source v).dict = v.dict := emcyFrame_dict ..
  unfold emcyClear
  split
  · dsimp only
    split
    · rfl
    · rw [hsend]
      rfl
  · rfl

section
variable {code : Nat} (hwCode source : Nat)

/-- The error register with the bit of a code set or clear (R605). -/
def registerWith (n : CanNode) (code : Nat) (b : Bool) : BitVec 8 := setBit n.errorRegister (emcyBit code) b

theorem emcyRaise_errorRegister :
    (emcyRaise code hwCode source s).can.errorRegister = registerWith s.can code true :=
  (emcySend_conditions ..).2

theorem emcyRaise_condition : BitVec.ofNat 16 code ∈ (emcyRaise code hwCode source s).can.conditions := by
  unfold emcyRaise
  rw [(emcySend_conditions ..).1, onCan_can]
  dsimp only
  split
  next h => exact List.contains_iff_mem.1 h
  next => exact List.mem_cons_self ..

theorem emcyRaise_errors (h : code ≠ 0) : (emcyRaise code hwCode source s).dict.errors =
    (BitVec.ofNat 32 (code + hwCode * 65536) :: s.dict.errors).take 8 := emcySend_errors hwCode source h

/-- The frame of an EMCY message, once the error register reads `reg` (R605). -/
def emcyOf (s : State) (reg : BitVec 8) (code hwCode source : Nat) : CanFrame :=
  ⟨0x80 + s.can.nodeId.toNat, natLe 2 code ++ natLe 1 reg.toNat ++ natLe 2 hwCode ++ natLe 2 source ++
    natLe 1 s.sys.mode.code⟩

theorem emcyRaise_sent (h : sendsNow s.can) : (emcyRaise code hwCode source s).can.sent =
    emcyOf s (registerWith s.can code true) code hwCode source :: s.can.sent := emcySend_sent _ _ _ h

theorem emcyClear_condition : BitVec.ofNat 16 code ∉ (emcyClear code hwCode source s).can.conditions := by
  have hrest : BitVec.ofNat 16 code ∉ s.can.conditions.filter (fun c => !(c == BitVec.ofNat 16 code)) := by
    simp [List.mem_filter]
  unfold emcyClear
  split
  · dsimp only
    split
    · exact hrest
    · rw [(emcySend_conditions ..).1]
      exact hrest
  next h => exact mt List.contains_iff_mem.2 h

/-- The node once the condition of a code, its only one, has ended. -/
def lastCleared (code : Nat) (n : CanNode) : CanNode :=
  { n with conditions := [], errorRegister := registerWith n code false }

theorem emcyClear_of_only (h : s.can.conditions = [BitVec.ofNat 16 code]) :
    emcyClear code hwCode source s = emcySend 0 hwCode source (onCan (lastCleared code) s) := by
  unfold emcyClear
  simp only [h, List.contains_cons, BEq.rfl, Bool.true_or, if_true, List.filter_cons, Bool.not_true, Bool.false_eq_true,
    if_false, List.filter_nil, List.any_nil]
  rfl

theorem emcyClear_errorRegister (h : s.can.conditions = [BitVec.ofNat 16 code]) :
    (emcyClear code hwCode source s).can.errorRegister = registerWith s.can code false := by
  rw [emcyClear_of_only hwCode source h, (emcySend_conditions ..).2]
  rfl

theorem emcyClear_sent (h : s.can.conditions = [BitVec.ofNat 16 code]) (hn : sendsNow s.can) :
    (emcyClear code hwCode source s).can.sent =
      emcyOf s (registerWith s.can code false) 0 hwCode source :: s.can.sent := by
  rw [emcyClear_of_only hwCode source h, emcySend_sent]
  · rfl
  · exact hn

end

/-! ### Both together -/

/-- `t` follows `s` with a mode, pins, measurements, queues and STRUCT_EN of its own; the units, jobs and berths stay,
records only join the log, and pending sources stay pending. -/
structure Reports (s t : State) : Prop where
  frame : t = { s with
    sys := t.sys, mram := t.mram, log := t.log, manifest := t.manifest, pcie := t.pcie, dict := t.dict, can := t.can,
    queues := t.queues, cores := t.cores }
  retired : t.mram.retired = s.mram.retired
  queue : s.log.queue <+: t.log.queue
  pending : ∀ n, pends s n → pends t n

theorem Reports.refl (s : State) : Reports s s := ⟨rfl, rfl, List.prefix_refl _, fun _ => id⟩

theorem Reports.trans (h1 : Reports s t) (h2 : Reports t u) : Reports s u where
  frame := h2.frame.trans (congrArg (fun x : State => { x with
    sys := u.sys, mram := u.mram, log := u.log, manifest := u.manifest, pcie := u.pcie, dict := u.dict, can := u.can,
    queues := u.queues, cores := u.cores }) h1.frame)
  retired := h2.retired.trans h1.retired
  queue := h1.queue.trans h2.queue
  pending n h := h2.pending n (h1.pending n h)

theorem Reports.jobs (h : Reports s t) : t.jobs = s.jobs := by rw [h.frame]
theorem Reports.berths (h : Reports s t) : t.berths = s.berths := by rw [h.frame]
theorem Reports.bist (h : Reports s t) : t.bist = s.bist := by rw [h.frame]
theorem Reports.present (h : Reports s t) : t.present = s.present := by rw [h.frame]
theorem Reports.eng (h : Reports s t) : t.eng = s.eng := by rw [h.frame]

/-- An update that leaves the MRAM, the log and the sources alone. -/
theorem Reports.of_frame (h : t = { s with
    sys := t.sys, manifest := t.manifest, dict := t.dict, can := t.can, queues := t.queues, cores := t.cores }) :
    Reports s t where
  frame := by rw [h]
  retired := by rw [h]
  queue := by
    have hlog : t.log.queue = s.log.queue := by rw [h]
    exact hlog ▸ List.prefix_refl _
  pending n hn := by rwa [h]

theorem EmcyOnly.reports (h : EmcyOnly s t) : Reports s t := .of_frame (by rw [h])

theorem logRecord_reports (code source p0 p1 p2 : Nat) : Reports s (logRecord code source p0 p1 p2 s) where
  frame := by rw [logRecord_frame]
  retired := logRecord_retired ..
  queue := queueRecord_prefix _
  pending n h := by rwa [pends, logRecord_pcie]

theorem raiseSource_reports (n : Nat) : Reports s (raiseSource n s) where
  frame := by rw [raiseSource_frame]
  retired := by rw [raiseSource_mram]
  queue := by
    have hlog : (raiseSource n s).log.queue = s.log.queue := by rw [raiseSource_log]
    exact hlog ▸ List.prefix_refl _
  pending _ h := h.raiseSource n

theorem onSys_reports (f : Sys → Sys) : Reports s (onSys f s) := .of_frame rfl

theorem extend_reports (k : Nat) (d : Bytes) (code : BitVec 16) : Reports s (extend k d code s) := .of_frame rfl

end Sys2Proof.Machine
end

section
/-! PROOFS. A change of mode and the end of a MODE_REQUEST (15, R637 to R642; 07, R317): what intoMaintenance and
intoService leave. -/

namespace Sys2Proof.Machine

variable {s t u : State}

/-! ### A change of mode -/

theorem mismatchChanged_reports : Reports s (mismatchChanged s) := by
  unfold mismatchChanged
  dsimp only
  split
  · exact (logRecord_reports ..).trans (emcyRaise_only ..).reports
  · exact (logRecord_reports ..).trans (emcyClear_only ..).reports

theorem groupUpdate_reports : Reports s (groupUpdate s) := by
  have hstatus : Reports s (onDict (fun d => { d with groupStatus := groupBits s }) s) := .of_frame rfl
  unfold groupUpdate
  dsimp only
  split
  · exact .refl s
  · split
    · exact hstatus.trans (raiseSource_reports 1649)
    · exact (hstatus.trans mismatchChanged_reports).trans (raiseSource_reports 1649)

theorem changeMode_emcy (m : Mode) (cause : Nat) :
    EmcyOnly (groupUpdate (setMode m cause s)) (changeMode m cause s) := by
  unfold changeMode
  dsimp only
  split
  · exact emcyRaise_only ..
  · exact emcyClear_only ..

theorem mismatchChanged_kept : (mismatchChanged s).sys = s.sys ∧ (mismatchChanged s).manifest = s.manifest ∧
    (mismatchChanged s).cores = s.cores := by
  unfold mismatchChanged
  dsimp only
  split <;> simp

theorem groupUpdate_kept : (groupUpdate s).sys = s.sys ∧ (groupUpdate s).manifest = s.manifest ∧
    (groupUpdate s).cores = s.cores := by
  obtain ⟨hsys, hman, hcores⟩ := mismatchChanged_kept (s := onDict (fun d => { d with groupStatus := groupBits s }) s)
  unfold groupUpdate
  dsimp only
  split
  · exact ⟨rfl, rfl, rfl⟩
  · split <;> simp [hsys, hman, hcores]

/-- Only the mode and the pins of the module's own fields change; measurements and cores stay. -/
theorem changeMode_kept (m : Mode) (cause : Nat) :
    (changeMode m cause s).sys = { s.sys with mode := m, pins := (setMode m cause s).sys.pins } ∧
    (changeMode m cause s).manifest = s.manifest ∧ (changeMode m cause s).cores = s.cores := by
  have hset : (setMode m cause s).sys = { s.sys with mode := m, pins := (setMode m cause s).sys.pins } := by
    simp [setMode, syncPins]
  obtain ⟨hsys, hman, hcores⟩ := groupUpdate_kept (s := setMode m cause s)
  have he := changeMode_emcy (s := s) m cause
  refine ⟨?_, ?_, ?_⟩
  · rw [he, ← hset]
    exact hsys
  · rw [he]
    exact hman.trans (by rw [setMode_frame])
  · rw [he]
    exact hcores.trans (by rw [setMode_frame])

theorem setMode_reports (m : Mode) (cause : Nat) :
    Reports (logRecord 0x0001 0 s.sys.mode.code m.code cause s) (setMode m cause s) :=
  ((onSys_reports _).trans (onSys_reports _)).trans (raiseSource_reports 1651)

theorem changeMode_reports_record (m : Mode) (cause : Nat) :
    Reports (logRecord 0x0001 0 s.sys.mode.code m.code cause s) (changeMode m cause s) :=
  ((setMode_reports m cause).trans groupUpdate_reports).trans (changeMode_emcy m cause).reports

theorem changeMode_reports (m : Mode) (cause : Nat) : Reports s (changeMode m cause s) :=
  (logRecord_reports ..).trans (changeMode_reports_record m cause)

theorem changeMode_pends (m : Mode) (cause : Nat) : pends (changeMode m cause s) 1651 :=
  (groupUpdate_reports.trans (changeMode_emcy m cause).reports).pending 1651 (raiseSource_pends 1651)

/-- The record of the change comes before all others that the change brings. -/
theorem changeMode_first (m : Mode) (cause : Nat) (h : logTakes s) :
    s.log.queue ++ [makeRecord 0x0001 0 s.sys.mode.code m.code cause s] <+: (changeMode m cause s).log.queue := by
  rw [← logRecord_queue _ _ _ _ _ h]
  exact (changeMode_reports_record m cause).queue

/-! ### STRUCT_EN, queues, and the request's end -/

theorem setStruct_frame (b : Bool) : setStruct b s = { s with cores := (setStruct b s).cores } := by
  unfold setStruct
  generalize List.range 129 = cs
  induction cs generalizing s with
  | nil => rfl
  | cons c cs ih => exact ih

theorem setStruct_reports (b : Bool) : Reports s (setStruct b s) := .of_frame (by rw [setStruct_frame])

/-- R317. -/
theorem setStruct_structEn (b : Bool) (c : Fin 129) : (getCore (setStruct b s) c.val).structEn = b := by
  have key (cs : List Nat) (i : Nat) (s : State) (h : i ∈ cs ∨ (getCore s i).structEn = b) :
      (getCore (cs.foldl (fun s c => onCore c (fun k => { k with structEn := b }) s) s) i).structEn = b := by
    induction cs generalizing s with
    | nil => exact h.resolve_left List.not_mem_nil
    | cons j cs ih =>
      refine ih _ ?_
      by_cases hij : i = j
      · refine .inr ?_
        rw [hij, get_onCore]
      · rw [get_onCore_ne _ _ hij]
        exact h.imp_left fun hi => (List.mem_cons.1 hi).resolve_left hij
  exact key _ _ s (.inl (List.mem_range.2 c.isLt))

theorem resumeQueue_frame (q : Nat) : resumeQueue q s = { s with queues := (resumeQueue q s).queues } := by
  unfold resumeQueue issueRead
  dsimp only
  split <;> rfl

theorem resumeQueues_frame : resumeQueues s = { s with queues := (resumeQueues s).queues } := by
  unfold resumeQueues
  generalize s.queues = l
  induction l generalizing s with
  | nil => rfl
  | cons e l ih =>
    rw [List.foldl_cons, ih, resumeQueue_frame]

theorem endModeRequest_of_open {code : BitVec 16} (h : s.sys.modeStatus = 1) : endModeRequest code s =
    raiseSource 1650 (onSys (fun y => { y with modeStatus := code, draining := false }) s) := if_pos h

theorem endModeRequest_reports (h : s.sys.modeStatus = 1) (code : BitVec 16) : Reports s (endModeRequest code s) := by
  rw [endModeRequest_of_open h]
  exact (onSys_reports _).trans (raiseSource_reports 1650)

/-! ### Into MAINTENANCE and out of it -/

/-- The record of a change of mode by request (R642, cause 1). -/
def modeRecord (s : State) (m : Mode) : HwRecord := makeRecord 0x0001 0 s.sys.mode.code m.code 1 s

/-- A MODE_REQUEST has been carried out: the mode is `m`, STRUCT_EN is `b` on every core, the request is over, its sources
are pending, and the record of the change comes first in the log (R640, R642). -/
structure ModeTaken (m : Mode) (b : Bool) (s t : State) : Prop where
  mode : t.sys.mode = m
  status : t.sys.modeStatus = 2
  draining : t.sys.draining = false
  structEn : ∀ c : Fin 129, (getCore t c.val).structEn = b
  requestEnded : pends t 1650
  modeChanged : pends t 1651
  reports : Reports s t
  first : logTakes s → s.log.queue ++ [modeRecord s m] <+: t.log.queue

/-- The end of a request whose change of mode has led to `u`. -/
theorem ModeTaken.of_change {m : Mode} {b : Bool} (hmode : u.sys.mode = m) (hopen : u.sys.modeStatus = 1)
    (hstruct : ∀ c : Fin 129, (getCore u c.val).structEn = b) (hpend : pends u 1651) (hrep : Reports s u)
    (hfirst : logTakes s → s.log.queue ++ [modeRecord s m] <+: u.log.queue) :
    ModeTaken m b s (endModeRequest 2 u) := by
  have hend := endModeRequest_of_open (code := 2) hopen
  have hrep2 := endModeRequest_reports hopen 2
  have hsys : (endModeRequest 2 u).sys = { u.sys with modeStatus := 2, draining := false } := by
    rw [hend, raiseSource_sys]
    rfl
  have hcore (c : Nat) : getCore (endModeRequest 2 u) c = getCore u c := by
    rw [hend, getCore, raiseSource_cores]
    rfl
  refine ⟨?_, ?_, ?_, fun c => ?_, ?_, hrep2.pending _ hpend, hrep.trans hrep2, fun h => (hfirst h).trans hrep2.queue⟩
  · rw [hsys, ← hmode]
  · rw [hsys]
  · rw [hsys]
  · rw [hcore, hstruct]
  · rw [hend]
    exact raiseSource_pends 1650

/-- The digest that a change into MAINTENANCE extends M11 with (R631, R642). -/
def maintenanceDigest (s : State) : Bytes := sha384 (recordBytes (nextSequence s) (modeRecord s .maintenance))

theorem intoMaintenance_eq : intoMaintenance 1 s =
    setStruct true (extend 11 (maintenanceDigest s) 0x0001 (changeMode .maintenance 1 s)) := rfl

theorem intoMaintenance_sys : (intoMaintenance 1 s).sys = (changeMode .maintenance 1 s).sys := by
  rw [intoMaintenance_eq, setStruct_frame]
  rfl

theorem intoMaintenance_taken (h : s.sys.modeStatus = 1) :
    ModeTaken .maintenance true s (endModeRequest 2 (intoMaintenance 1 s)) := by
  obtain ⟨hsys, -, -⟩ := changeMode_kept (s := s) .maintenance 1
  have hrep : Reports (changeMode .maintenance 1 s) (intoMaintenance 1 s) :=
    (extend_reports ..).trans (setStruct_reports true)
  refine .of_change ?_ ?_ (fun c => ?_) (hrep.pending _ (changeMode_pends _ _)) ((changeMode_reports _ _).trans hrep)
    (fun hroom => (changeMode_first _ _ hroom).trans hrep.queue)
  · rw [intoMaintenance_sys, hsys]
  · rw [intoMaintenance_sys, hsys]
    exact h
  · rw [intoMaintenance_eq]
    exact setStruct_structEn true c

theorem manifestReg_extend_self (k : Nat) (d : Bytes) (code : BitVec 16) :
    manifestReg (extend k d code s) k = sha384 (manifestReg s k ++ d) := by
  unfold extend manifestReg
  rw [onManifest_manifest]
  split <;> exact tblGet_tblSet_self ..

theorem intoMaintenance_measured (h : s.sys.modeStatus = 1) :
    manifestReg (endModeRequest 2 (intoMaintenance 1 s)) 11 = sha384 (manifestReg s 11 ++ maintenanceDigest s) := by
  obtain ⟨hsys, hman, -⟩ := changeMode_kept (s := s) .maintenance 1
  have hopen : (intoMaintenance 1 s).sys.modeStatus = 1 := by
    rw [intoMaintenance_sys, hsys]
    exact h
  have hreg : manifestReg (changeMode .maintenance 1 s) 11 = manifestReg s 11 := by rw [manifestReg, hman, manifestReg]
  rw [endModeRequest_of_open hopen, manifestReg, raiseSource_manifest, onSys_manifest, intoMaintenance_eq,
    setStruct_frame, ← hreg]
  exact manifestReg_extend_self ..

/-- The mode that MAINTENANCE is left for (R639). -/
def serviceMode (s : State) : Mode := if someRetired s then .degraded else .service

theorem intoService_eq : intoService 1 s = resumeQueues (changeMode (serviceMode s) 1 (setStruct false s)) := rfl

theorem intoService_taken (h : s.sys.modeStatus = 1) :
    ModeTaken (serviceMode s) false s (endModeRequest 2 (intoService 1 s)) := by
  generalize hv : setStruct false s = v
  have hstruct (c : Fin 129) : (getCore v c.val).structEn = false := hv ▸ setStruct_structEn false c
  have hframe : v = { s with cores := v.cores } := hv ▸ setStruct_frame false
  obtain ⟨hsys, -, hcores⟩ := changeMode_kept (s := v) (serviceMode s) 1
  have hrep : Reports (changeMode (serviceMode s) 1 v) (intoService 1 s) := by
    rw [intoService_eq, hv]
    exact .of_frame (by rw [resumeQueues_frame])
  have hrep0 : Reports s v := .of_frame (by rw [hframe])
  have hu : intoService 1 s = { changeMode (serviceMode s) 1 v with queues := (intoService 1 s).queues } := by
    rw [intoService_eq, hv]
    exact resumeQueues_frame
  refine .of_change ?_ ?_ (fun c => ?_) (hrep.pending _ (changeMode_pends _ _))
    ((hrep0.trans (changeMode_reports _ _)).trans hrep) (fun hroom => ?_)
  · rw [hu, hsys]
  · rw [hu, hsys, hframe]
    exact h
  · rw [← hstruct c, hu, getCore, hcores, getCore]
  · have hroom0 : logTakes v := by
      rw [hframe]
      exact hroom
    have hfirst := (changeMode_first (serviceMode s) 1 hroom0).trans hrep.queue
    rw [hframe] at hfirst
    exact hfirst

end Sys2Proof.Machine
end

section
/-! PROOFS. MODE_REQUEST as a write of the dictionary (14, R582, R585, R599; 15, R637, R638, R641): how it answers, what a
drain leaves of the berth queues (01, R29), and the units that return (16, R657). -/

namespace Sys2Proof.Machine

variable {s t u : State}

/-! ### Writes by a path -/

/-- A write has been answered with an abort code; on the mailbox its request has ended. -/
def answered (p : DictPath) (a : BitVec 32) (t : State) : Prop :=
  t.dict.answer = ⟨[], a⟩ ∧ (p = .mailbox →
    t.dict.mailbox.state = (if a = 0 then 2 else 3) ∧ t.dict.mailbox.abort = a ∧ pends t 1648)

theorem answerWrite_frame (p : DictPath) (a : BitVec 32) : answerWrite p a s = { s with
    pcie := (answerWrite p a s).pcie
    dict := { s.dict with mailbox := (answerWrite p a s).dict.mailbox, answer := (answerWrite p a s).dict.answer } } := by
  unfold answerWrite mailboxEnds
  dsimp only
  split
  · rw [raiseSource_frame]
    rfl
  · rfl

theorem answerWrite_answered (p : DictPath) (a : BitVec 32) : answered p a (answerWrite p a s) := by
  unfold answerWrite mailboxEnds
  dsimp only
  split
  · refine ⟨?_, fun _ => ⟨?_, ?_, raiseSource_pends 1648⟩⟩
    · rw [raiseSource_dict]
      rfl
    · rw [raiseSource_dict]
      rfl
    · rw [raiseSource_dict]
      rfl
  next h => exact ⟨rfl, fun hp => absurd hp h⟩

theorem answerWrite_reports (p : DictPath) (a : BitVec 32) : Reports s (answerWrite p a s) := by
  unfold answerWrite mailboxEnds
  dsimp only
  split
  · exact Reports.trans (.of_frame rfl) (raiseSource_reports 1648)
  · exact .of_frame rfl

section
variable {p : DictPath} {go : State → Except (BitVec 32) State} {index sub : Nat} {c : BitVec 32}

theorem writeBy_of_ok {e : DictEntry} (hp : pathServes s p = true)
    (he : entryFor s (roleOf s p) true index sub = .ok e) (hgo : go s = .ok t) :
    writeBy p index sub go s = .next (answerWrite p 0 t) := by
  unfold writeBy
  rw [hp, he, hgo]
  rfl

theorem writeBy_of_error {e : DictEntry} (hp : pathServes s p = true)
    (he : entryFor s (roleOf s p) true index sub = .ok e) (hgo : go s = .error c) :
    writeBy p index sub go s = .next (answerWrite p c s) := by
  unfold writeBy
  rw [hp, he, hgo]
  rfl

theorem writeBy_of_no_entry (hp : pathServes s p = true) (he : entryFor s (roleOf s p) true index sub = .error c) :
    writeBy p index sub go s = .next (answerWrite p c s) := by
  unfold writeBy
  rw [hp, he]
  rfl

/-- MODE_REQUEST as an entry (R637). -/
def modeRequestEntry : DictEntry := numEntry .wo 1 0

theorem entryFor_modeRequest (r : Role) (h : s.sys.holdRom = false) : entryFor s r true 0x5280 1 =
    if roleAllows r true 0x5280 modeRequestEntry then .ok modeRequestEntry else .error 0x06010000 := by
  have hfind : (objectAt s 0x5280).find? (fun x => decide (x.1 = 1) && subServed s 0x5280 1) =
      some (1, modeRequestEntry) := by
    have hsub : subServed s 0x5280 1 = true := by simp [subServed, h]
    rw [hsub]
    rfl
  have hobject : (objectAt s 0x5280).isEmpty = false := rfl
  simp only [entryFor, hfind, hobject, h, Option.map_some]
  cases hr : roleAllows r true 0x5280 modeRequestEntry <;> simp [modeRequestEntry, numEntry]

theorem entryFor_modeRequest_manager (h : s.sys.holdRom = false) (hm : p ≠ .usdo) :
    entryFor s (roleOf s p) true 0x5280 1 = .ok modeRequestEntry := by
  rw [roleOf, if_neg hm, entryFor_modeRequest _ h]
  rfl

/-- On the CAN bus no role may write MODE_REQUEST (R585). -/
theorem writeBy_modeRequest_usdo (hp : pathServes s .usdo = true) (h : s.sys.holdRom = false) :
    writeBy .usdo 0x5280 1 go s = .next (answerWrite .usdo 0x06010000 s) := by
  refine writeBy_of_no_entry hp ?_
  rw [entryFor_modeRequest _ h, roleOf, if_pos rfl]
  split <;> rfl

end

/-! ### The drain of R29 -/

theorem tblFind_tblSet {α : Type} (l : Tbl α) (k j : Nat) (v : α) :
    tblFind (tblSet l k v) j = if j = k then some v else tblFind l j := by
  induction l with
  | nil => simp [tblSet, tblFind]
  | cons e l ih =>
    obtain ⟨i, w⟩ := e
    simp only [tblSet]
    split
    next hk =>
      subst hk
      simp only [tblFind]
      split <;> rfl
    next hk =>
      split
      · simp only [tblFind]
      · simp only [tblFind, ih]
        split
        next hj => rw [if_neg (by omega)]
        next hj => rfl

theorem tblGet_of_tblFind {α : Type} {d v : α} {l : Tbl α} {k : Nat} (h : tblFind l k = some v) : tblGet d l k = v := by
  induction l with
  | nil => simp [tblFind] at h
  | cons e l ih =>
    simp only [tblFind, tblGet] at h ⊢
    split at h
    next hk => rw [if_pos hk]; exact Option.some.inj h
    next hk => rw [if_neg hk]; exact ih h

theorem mem_keys_of_tblFind {α : Type} {v : α} {l : Tbl α} {k : Nat} (h : tblFind l k = some v) : k ∈ l.map (·.1) := by
  induction l with
  | nil => simp [tblFind] at h
  | cons e l ih =>
    simp only [tblFind] at h
    rw [List.map_cons, List.mem_cons]
    split at h
    next hk => exact .inl hk
    next hk => exact .inr (ih h)

/-- A queue without what it has fetched and not started, and with its push buffer empty (R441). -/
def emptied (k : Queue) : Queue :=
  { k with taken := none, fetchIndex := k.sqHead, stall := false, pushed := [], pushValid := false }

theorem discardPushed_eq (q : Nat) :
    discardPushed q s = { s with queues := tblSet s.queues q (emptied (getQ s q)) } := by
  simp only [discardPushed, discardTaken, onQ, tblMod, tblGet_tblSet_self, tblSet_tblSet]
  rfl

/-- Every queue of a list is emptied, the others stay; twice is as once. -/
theorem discardPushed_foldl (qs : List Nat) (q : Nat) :
    tblFind (qs.foldl (fun s q => discardPushed q s) s).queues q =
      if q ∈ qs then some (emptied (getQ s q)) else tblFind s.queues q := by
  induction qs generalizing s with
  | nil => rfl
  | cons x qs ih =>
    rw [List.foldl_cons, ih, discardPushed_eq]
    by_cases hx : q = x
    · subst hx
      simp [getQ, tblFind_tblSet, emptied]
    · simp [hx, getQ, tblFind_tblSet, tblGet_tblSet]

theorem discardPushed_foldl_frame (qs : List Nat) : qs.foldl (fun s q => discardPushed q s) s =
    { s with queues := (qs.foldl (fun s q => discardPushed q s) s).queues } := by
  induction qs generalizing s with
  | nil => rfl
  | cons x qs ih => rw [List.foldl_cons, ih, discardPushed_eq]

/-- The drain is under way: MODE_REQUEST 0x02 has been taken (R29, R640). -/
def drainStarted (s : State) : State :=
  onSys (fun y => { y with modeStatus := 1, draining := true })
    ((berthQueueNumbers s).foldl (fun s q => discardPushed q s) s)

theorem requestMaintenance_ok (h : serving s = true) (hm : s.sys.modeStatus ≠ 1) :
    requestMaintenance s = .ok (drainStarted s) := if_neg (not_or.2 ⟨by simp [h], hm⟩)

theorem requestMaintenance_error (h : serving s = false ∨ s.sys.modeStatus = 1) :
    requestMaintenance s = .error 0x08000022 := if_pos (by simpa using h)

theorem drainStarted_frame : drainStarted s = { s with
    sys := { s.sys with modeStatus := 1, draining := true }, queues := (drainStarted s).queues } := by
  rw [drainStarted, discardPushed_foldl_frame]
  rfl

theorem drainStarted_berthQueue {q : Nat} {k : Queue} (hq : q < 4096) (hk : tblFind s.queues q = some k) :
    tblFind (drainStarted s).queues q = some (emptied k) := by
  have hmem : q ∈ berthQueueNumbers s := List.mem_filter.2 ⟨mem_keys_of_tblFind hk, decide_eq_true hq⟩
  rw [drainStarted, onSys_queues, discardPushed_foldl, if_pos hmem, getQ, tblGet_of_tblFind hk]

theorem drainStarted_managerQueue {q : Nat} (hq : 4096 ≤ q) :
    tblFind (drainStarted s).queues q = tblFind s.queues q := by
  have hmem : q ∉ berthQueueNumbers s := fun h => absurd (of_decide_eq_true (List.mem_filter.1 h).2) (Nat.not_lt.2 hq)
  rw [drainStarted, onSys_queues, discardPushed_foldl, if_neg hmem]

/-! ### The in-service pass ends -/

theorem endPass_kept (code : BitVec 16) : (endPass code s).bist.pass = 0 ∧ (endPass code s).bist.status = code ∧
    (endPass code s).sys = s.sys ∧ (endPass code s).jobs = s.jobs ∧ (endPass code s).berths = s.berths := by
  unfold endPass
  dsimp only
  split <;> simp

/-- What MAINTENANCE_ENTRY finds once the pass in hand has ended. -/
def passEnded (s : State) : State := if s.bist.pass = 0 then s else endPass 0x8001 s

theorem passEnded_kept : (passEnded s).bist.pass = 0 ∧ (passEnded s).sys = s.sys ∧ (passEnded s).jobs = s.jobs ∧
    (passEnded s).berths = s.berths := by
  unfold passEnded
  split
  next h => exact ⟨h, rfl, rfl, rfl⟩
  next =>
    obtain ⟨hpass, -, hkept⟩ := endPass_kept (s := s) 0x8001
    exact ⟨hpass, hkept⟩

theorem exec_maintenanceEntry (hd : s.sys.draining = true) (hs : serving s = true) (hj : startedJobs s = []) :
    exec .maintenanceEntry s = .next (endModeRequest 2 (intoMaintenance 1 (passEnded s))) :=
  congrArg Host.Outcome.next (if_neg (by simp [hd, hs, hj]))

theorem exec_maintenanceEntry_of_started (hj : startedJobs s ≠ []) : exec .maintenanceEntry s = .next s :=
  congrArg Host.Outcome.next (if_pos (.inr (.inr hj)))

/-! ### Leaving MAINTENANCE -/

/-- MODE_REQUEST 0x03 is in progress. -/
def leaveAsked (s : State) : State := onSys (fun y => { y with modeStatus := 1 }) s

theorem requestLeave_ok (h : s.sys.mode = .maintenance) (hm : s.sys.modeStatus ≠ 1) :
    requestLeave s = .ok (endModeRequest 2 (intoService 1 (takePassed (leaveAsked s)))) :=
  if_neg (not_or.2 ⟨not_not_intro h, hm⟩)

theorem requestLeave_error (h : s.sys.mode ≠ .maintenance ∨ s.sys.modeStatus = 1) :
    requestLeave s = .error 0x08000022 := if_pos h

theorem whichBelow_eq_nil {n : Nat} {f : Nat → Bool} (h : ∀ i, f i = false) : whichBelow n f = [] :=
  List.filter_eq_nil_iff.2 fun i _ => by simp [h i]

theorem whichBelow_of_iff_eq {k : Nat} {f : Nat → Bool} (h : ∀ i, f i = true ↔ i = k) (n : Nat) :
    whichBelow n f = if k < n then [k] else [] := by
  unfold whichBelow
  induction n with
  | zero => rfl
  | succ n ih =>
    rw [List.range_succ, List.filter_append, ih]
    by_cases hk : n = k
    · have hf : [n].filter f = [n] := List.filter_cons_of_pos ((h n).2 hk)
      rw [hf, if_neg (by omega), if_pos (by omega), hk, List.nil_append]
    · have hf : [n].filter f = [] := List.filter_cons_of_neg fun hn => hk ((h n).1 hn)
      rw [hf, List.append_nil]
      by_cases hlt : k < n
      · rw [if_pos hlt, if_pos (by omega)]
      · rw [if_neg hlt, if_neg (by omega)]

theorem whichBelow_eq_singleton {n k : Nat} {f : Nat → Bool} (hk : k < n) (h : ∀ i, f i = true ↔ i = k) :
    whichBelow n f = [k] := (whichBelow_of_iff_eq h n).trans (if_pos hk)

/-- With no partition and no core retired, none returns. -/
theorem returnPassed_none {parts : BitVec 80} {cores : BitVec 128} (hp : s.mram.retired.parts = 0)
    (hc : s.mram.retired.cores = 0) : returnPassed parts cores s = s := by
  unfold returnPassed
  rw [whichBelow_eq_nil fun i => by simp [hp], whichBelow_eq_nil fun i => by simp [hc]]
  rfl

/-- One compression engine is retired and has passed: it alone returns. -/
theorem returnPassed_engine {parts : BitVec 80} {cores : BitVec 128} (n : Fin 4)
    (hp : s.mram.retired.parts = BitVec.twoPow 80 (64 + n.val)) (hc : s.mram.retired.cores = 0)
    (hn : parts.getLsbD (64 + n.val) = true) : returnPassed parts cores s = partReturns (64 + n.val) s := by
  unfold returnPassed
  rw [whichBelow_eq_singleton (k := 64 + n.val) (by omega) fun i => ?_, whichBelow_eq_nil fun i => by simp [hc]]
  · rfl
  · rw [hp]
    simp only [BitVec.getLsbD_twoPow, Bool.and_eq_true, decide_eq_true_eq, Bool.not_eq_true', heldBySub]
    constructor
    · rintro ⟨⟨⟨-, h⟩, -⟩, -⟩
      exact h.symm
    · rintro rfl
      exact ⟨⟨⟨by omega, rfl⟩, hn⟩, Bool.and_eq_false_iff.2 (.inl (decide_eq_false (by omega)))⟩

/-- A retired compression engine returns (R649). -/
theorem partReturns_engine (n : Fin 4) :
    (partReturns (64 + n.val) s).sys = s.sys ∧
    (partReturns (64 + n.val) s).mram.retired =
      { s.mram.retired with parts := setBit s.mram.retired.parts (64 + n.val) false } ∧
    (partReturns (64 + n.val) s).present =
      { s.present with compression := setBit s.present.compression n.val true } ∧
    tblGet 0 (partReturns (64 + n.val) s).eng.compState n.val = 0 := by
  have hval : (Fin.ofNat 78 (64 + n.val)).val = 64 + n.val := Nat.mod_eq_of_lt (by omega)
  have hcopy (v : State) : (copyRetired v).sys = v.sys ∧ (copyRetired v).mram = v.mram ∧
      (copyRetired v).present = v.present := by
    unfold copyRetired
    split <;> exact ⟨rfl, rfl, rfl⟩
  unfold partReturns returnUnit
  dsimp only
  rw [if_neg (by omega), if_neg (by omega), if_neg (by omega), Nat.add_sub_cancel_left]
  refine ⟨?_, ?_, ?_, tblGet_tblSet_self ..⟩
  · rw [onEng_sys, (hcopy _).1, logRecord_sys]
    rfl
  · rw [onEng_mram, (hcopy _).2.1, logRecord_retired, onPresent_mram, onMram_mram, retiredSet, hval]
  · rw [onEng_present, (hcopy _).2.2, logRecord_present, onPresent_present, presentSet, hval, if_neg (by omega),
      if_neg (by omega), if_neg (by omega), if_pos (by omega), Nat.add_sub_cancel_left]
    rfl

theorem ModeTaken.answered {m : Mode} {b : Bool} (h : ModeTaken m b s t) (p : DictPath) (a : BitVec 32) :
    ModeTaken m b s (answerWrite p a t) := by
  have hrep := answerWrite_reports (s := t) p a
  have hsys : (answerWrite p a t).sys = t.sys := by rw [answerWrite_frame]
  have hcore : (answerWrite p a t).cores = t.cores := by rw [answerWrite_frame]
  refine ⟨hsys ▸ h.mode, hsys ▸ h.status, hsys ▸ h.draining, fun c => ?_, hrep.pending _ h.requestEnded,
    hrep.pending _ h.modeChanged, h.reports.trans hrep, fun hroom => (h.first hroom).trans hrep.queue⟩
  rw [getCore, hcore]
  exact h.structEn c

theorem setBit_twoPow {w : Nat} (k : Nat) : setBit (BitVec.twoPow w k) k false = 0 := by
  refine BitVec.eq_of_getLsbD_eq fun i hi => ?_
  rw [setBit_getLsbD, BitVec.getLsbD_twoPow]
  split
  · exact BitVec.getLsbD_zero.symm
  next h =>
    have hno : ¬ (decide (k < w) && decide (k = i)) = true := by
      rw [Bool.and_eq_true, decide_eq_true_iff, decide_eq_true_iff]
      exact fun ⟨hk, hi⟩ => h ⟨hi.symm, hk⟩
    exact (Bool.eq_false_iff.2 hno).trans BitVec.getLsbD_zero.symm

/-- With every other unit in use, the mode is SERVICE again once the only retired engine has returned (R639). -/
theorem serviceMode_engine (n : Fin 4) (hp : s.mram.retired.parts = BitVec.twoPow 80 (64 + n.val))
    (hc : s.mram.retired.cores = 0) (hch : s.mram.retired.channels = 0)
    (hsub : s.present.subchannels = BitVec.allOnes 32) (hq : s.present.quays = BitVec.allOnes 32) :
    (partReturns (64 + n.val) s).mram.retired.parts = 0 ∧ serviceMode (partReturns (64 + n.val) s) = .service := by
  obtain ⟨-, hret, hpresent, -⟩ := partReturns_engine (s := s) n
  have hparts : (partReturns (64 + n.val) s).mram.retired.parts = 0 := by
    rw [hret, hp]
    exact setBit_twoPow _
  refine ⟨hparts, if_neg ?_⟩
  rw [someRetired, hparts, hret, hpresent, hc, hch, hsub, hq]
  decide

/-- What the full pass has found good is used up by the next MODE_REQUEST 0x03 (16, R657). -/
def passedUsed (s : State) : State := onBist (fun b => { b with passed := {} }) s

theorem takePassed_none (hp : s.mram.retired.parts = 0) (hc : s.mram.retired.cores = 0) :
    takePassed s = passedUsed s := congrArg passedUsed (returnPassed_none hp hc)

theorem takePassed_engine (n : Fin 4) (hp : s.mram.retired.parts = BitVec.twoPow 80 (64 + n.val))
    (hc : s.mram.retired.cores = 0) (hn : s.bist.passed.parts.getLsbD (64 + n.val) = true) :
    takePassed s = passedUsed (partReturns (64 + n.val) s) := congrArg passedUsed (returnPassed_engine n hp hc hn)

/-- The only retired engine has passed its self-test: MODE_REQUEST 0x03 brings it back, and SERVICE with it (16, R657). -/
theorem leave_engine_returns (p : DictPath) (n : Fin 4) (hp : s.mram.retired.parts = BitVec.twoPow 80 (64 + n.val))
    (hc : s.mram.retired.cores = 0) (hch : s.mram.retired.channels = 0)
    (hsub : s.present.subchannels = BitVec.allOnes 32) (hq : s.present.quays = BitVec.allOnes 32)
    (hn : s.bist.passed.parts.getLsbD (64 + n.val) = true) :
    let t := answerWrite p 0 (endModeRequest 2 (intoService 1 (takePassed (leaveAsked s))))
    t.sys.mode = .service ∧ t.mram.retired.parts = 0 ∧ t.present.compression.getLsbD n.val = true ∧
    tblGet 0 t.eng.compState n.val = 0 := by
  intro t
  obtain ⟨hsys, -, hpresent, hcomp⟩ := partReturns_engine (s := leaveAsked s) n
  obtain ⟨hretired, hmode⟩ := serviceMode_engine (s := leaveAsked s) n hp hc hch hsub hq
  have htake : takePassed (leaveAsked s) = passedUsed (partReturns (64 + n.val) (leaveAsked s)) :=
    takePassed_engine n hp hc hn
  have hopen : (takePassed (leaveAsked s)).sys.modeStatus = 1 := by
    rw [htake]
    exact congrArg Sys.modeStatus hsys
  have ht : ModeTaken (serviceMode (takePassed (leaveAsked s))) false (takePassed (leaveAsked s)) t :=
    (intoService_taken hopen).answered p 0
  rw [htake] at ht
  refine ⟨ht.mode.trans hmode, ?_, ?_, ?_⟩
  · rw [ht.reports.retired]
    exact hretired
  · rw [ht.reports.present, passedUsed, onBist_present, hpresent, setBit_getLsbD, if_pos ⟨rfl, n.isLt⟩]
  · rw [ht.reports.eng]
    exact hcomp

end Sys2Proof.Machine
end

section
/-! PROOFS. Supply episodes (16, R686 to R688; 17, R692), thermal levels (17, R710, R711) and JTAG attaches (17, R707). -/

namespace Sys2Proof.Machine

variable {s t : State}

theorem exists_of_append_prefix {α : Type} {q l : List α} {r : α} (h : q ++ [r] <+: l) : ∃ k, l = q ++ r :: k := by
  obtain ⟨k, rfl⟩ := h
  exact ⟨k, by rw [List.append_assoc, List.singleton_append]⟩

/-! ### Supply episodes -/

/-- The first fall of an episode is noted (R686). -/
def dipNoted (mv : BitVec 32) (s : State) : State :=
  raiseSource 1655 (logRecord 0x1001 0x0E00 mv.toNat 0 0
    (onSys (fun y => { y with episode := some { lowestMv := mv.toNat, falls := 1 } }) s))

/-- The module notes what its sensors report: it is not in RESET and its HOLD is not dead. -/
def awake (s : State) : Prop := s.sys.mode ≠ .reset ∧ s.sys.holdDead = false

theorem not_asleep (h : awake s) : ¬ (s.sys.mode = .reset ∨ s.sys.holdDead = true) := by
  obtain ⟨hmode, hdead⟩ := h
  exact not_or.2 ⟨hmode, by simp [hdead]⟩

section
variable {mv : BitVec 32} {e : Episode}

theorem exec_inputBelowWarning_of_none (h : awake s) (he : s.sys.episode = none) :
    exec (.inputBelowWarning mv) s = .next (emcyRaise 0x3100 0x1001 0x0E00 (dipNoted mv s)) := by
  show execInputBelowWarning mv s = _
  unfold execInputBelowWarning
  rw [if_neg (not_asleep h), he]
  rfl

theorem exec_inputBelowWarning_of_some (h : awake s) (he : s.sys.episode = some e) :
    exec (.inputBelowWarning mv) s = .next { s with
      sys := { s.sys with episode := some ⟨min e.lowestMv mv.toNat, e.falls + 1⟩ } } := by
  show execInputBelowWarning mv s = _
  unfold execInputBelowWarning
  rw [if_neg (not_asleep h), he]
  rfl

theorem dipNoted_sys : (dipNoted mv s).sys = { s.sys with episode := some ⟨mv.toNat, 1⟩ } := by
  rw [dipNoted, raiseSource_sys, logRecord_sys]
  rfl

theorem dipNoted_can : (dipNoted mv s).can = s.can := by
  rw [dipNoted, raiseSource_can, logRecord_can]
  rfl

theorem dipNoted_queue (h : logTakes s) :
    (dipNoted mv s).log.queue = s.log.queue ++ [⟨calendarNow s, 0x1001, 0x0E00, mv, 0, 0⟩] := by
  rw [dipNoted, raiseSource_log, logRecord_queue]
  · simp [makeRecord, calendarNow]
  · exact h

end

section
variable {lowest below : BitVec 32} {e : Episode}

/-- The end of an episode is recorded, its EMCY condition is over, and a save that waited begins to write (R687, R688). -/
def dipEnded (lowest below : BitVec 32) (e : Episode) (s : State) : State :=
  releaseSave (emcyClear 0x3100 0x1002 0x0E00 (onSys (fun y => { y with episode := none })
    (logRecord 0x1002 0x0E00 (min e.lowestMv lowest.toNat) below.toNat e.falls s)))

/-- What the flash was owed while the supply was low is written (R687). -/
def flashCaughtUp (s : State) : State :=
  let s1 := if s.sys.tisum then copyRetired s else s
  if serving s1 ∨ s1.sys.mode = .maintenance then writeTraining s1 else s1

theorem exec_warningEpisodeEnd_none (h : s.sys.episode = none) : exec (.warningEpisodeEnd lowest below) s = .next s := by
  show execWarningEpisodeEnd lowest below s = _
  unfold execWarningEpisodeEnd
  rw [h]

theorem dipEnded_frame : dipEnded lowest below e s = { s with
    sys := { s.sys with episode := none }
    dict := { s.dict with save := s.dict.save.map (fun v => { v with writing := true }) }
    can := (dipEnded lowest below e s).can, log := (dipEnded lowest below e s).log
    mram := (dipEnded lowest below e s).mram } := by
  unfold dipEnded releaseSave onDict
  rw [emcyClear_dict, emcyClear_frame, logRecord_frame]
  rfl

theorem dipEnded_retired : (dipEnded lowest below e s).mram.retired = s.mram.retired := by simp [dipEnded, releaseSave]

theorem dipEnded_queue (h : logTakes s) : (dipEnded lowest below e s).log.queue = s.log.queue ++
    [⟨calendarNow s, 0x1002, 0x0E00, BitVec.ofNat 32 (min e.lowestMv lowest.toNat), below, BitVec.ofNat 32 e.falls⟩] := by
  rw [dipEnded, releaseSave, onDict_log, emcyClear_log, onSys_log, logRecord_queue _ _ _ _ _ h]
  simp [makeRecord]

theorem dipEnded_condition : 0x3100 ∉ (dipEnded lowest below e s).can.conditions := emcyClear_condition 0x1002 0x0E00

theorem exec_warningEpisodeEnd_some (h : s.sys.episode = some e) (hw : s.fw.commitWaits = none) :
    exec (.warningEpisodeEnd lowest below) s = .next (flashCaughtUp (dipEnded lowest below e s)) := by
  have hrelease : releaseCommit (dipEnded lowest below e s) = dipEnded lowest below e s := by
    have hfw : (dipEnded lowest below e s).fw.commitWaits = none := by
      rw [dipEnded_frame]
      exact hw
    rw [releaseCommit, hfw]
  show execWarningEpisodeEnd lowest below s = _
  unfold execWarningEpisodeEnd
  rw [h]
  show Host.Outcome.next (flashCaughtUp (releaseCommit (dipEnded lowest below e s))) = _
  rw [hrelease]

theorem copyRetired_of_calm (h : s.sys.episode = none) :
    copyRetired s = onFlash (fun f => { f with retired := s.mram.retired, retiredOk := true }) s :=
  if_neg (by simp [h])

theorem writeTraining_of_calm (h : s.sys.episode = none) : writeTraining s =
    onDev (fun d => { d with retrained := 0 })
      (onFlash (fun f => { f with trained := f.trained ||| s.dev.retrained }) s) :=
  if_neg (by simp [h])

theorem copyRetired_frame : copyRetired s = { s with flash := (copyRetired s).flash } := by
  unfold copyRetired
  split <;> rfl

theorem writeTraining_frame :
    writeTraining s = { s with flash := (writeTraining s).flash, dev := (writeTraining s).dev } := by
  unfold writeTraining
  split <;> rfl

theorem flashCaughtUp_frame :
    flashCaughtUp s = { s with flash := (flashCaughtUp s).flash, dev := (flashCaughtUp s).dev } := by
  have hcopied : ∀ v, v = (if s.sys.tisum then copyRetired s else s) → v = { s with flash := v.flash } := by
    rintro v rfl
    split
    · exact copyRetired_frame
    · rfl
  unfold flashCaughtUp
  generalize hv : (if s.sys.tisum then copyRetired s else s) = v
  dsimp only
  split
  · rw [writeTraining_frame, hcopied v hv.symm]
  · rw [hcopied v hv.symm]

/-- With the supply good, the copy of the retirement entries and the new training records are in the flash (R687). -/
theorem flashCaughtUp_flash (h : s.sys.episode = none) :
    (s.sys.tisum = true → (flashCaughtUp s).flash.retired = s.mram.retired) ∧
    (serving s = true → (flashCaughtUp s).flash.trained = s.flash.trained ||| s.dev.retrained) := by
  have hmram : (copyRetired s).flash.retired = s.mram.retired := by
    rw [copyRetired_of_calm h]
    rfl
  have hkept : (writeTraining (copyRetired s)).flash.retired = s.mram.retired := by
    rw [writeTraining_of_calm (by rw [copyRetired_frame]; exact h)]
    exact hmram
  have htrained : (writeTraining s).flash.trained = s.flash.trained ||| s.dev.retrained := by
    rw [writeTraining_of_calm h]
    rfl
  have hboth : (writeTraining (copyRetired s)).flash.trained = s.flash.trained ||| s.dev.retrained := by
    rw [writeTraining_of_calm (by rw [copyRetired_frame]; exact h), copyRetired_of_calm h]
    rfl
  unfold flashCaughtUp
  dsimp only
  refine ⟨fun ht => ?_, fun hs => ?_⟩
  · rw [if_pos ht]
    split
    · exact hkept
    · exact hmram
  · split
    · have hs1 : serving (copyRetired s) = true := by
        rw [copyRetired_frame]
        exact hs
      rw [if_pos (.inl hs1)]
      exact hboth
    · rw [if_pos (.inl hs)]
      exact htrained

end

/-! ### Thermal levels -/

section
variable {celsius sensor : BitVec 32} {level : Fin 4}

/-- A change of level is in force, recorded and signalled (R710, R711). -/
def levelNoted (celsius : BitVec 32) (level : Fin 4) (sensor : BitVec 32) (s : State) : State :=
  raiseSource 1656 (logRecord 0x1010 0x0E00 celsius.toNat level.val sensor.toNat
    (syncPins (onSys (fun y => { y with thermal := level }) s)))

/-- The EMCY message of a change from level `old` (14, R605). -/
def levelEmcy (old level : Fin 4) (s : State) : State :=
  if old = 0 then emcyRaise 0x4200 0x1010 0x0E00 s
  else if level = 0 then emcyClear 0x4200 0x1010 0x0E00 s
  else s

theorem levelEmcy_only (old : Fin 4) : EmcyOnly s (levelEmcy old level s) := by
  unfold levelEmcy
  split
  · exact emcyRaise_only ..
  · split
    · exact emcyClear_only ..
    · exact EmcyOnly.refl s

theorem exec_thermalLevelChange (h : awake s) (hf : levelFits s.sys.thermal.val level.val celsius.toInt = true) :
    exec (.thermalLevelChange celsius level sensor) s =
      .next (levelEmcy s.sys.thermal level (levelNoted celsius level sensor s)) := by
  have hgo : ¬ (s.sys.mode = .reset ∨ s.sys.holdDead = true ∨
      (!levelFits s.sys.thermal.val level.val celsius.toInt) = true) := by
    rw [← or_assoc]
    exact not_or.2 ⟨not_asleep h, by simp [hf]⟩
  exact congrArg Host.Outcome.next (if_neg hgo)

theorem levelFits_of_reached {old : Fin 4} {x : Int} (h : (old < level ∧ (95 + 5 * level.val : Int) ≤ x) ∨
    (level < old ∧ x < (95 + 5 * level.val : Int))) : levelFits old.val level.val x = true := by
  refine Bool.or_eq_true_iff.2 ?_
  rcases h with ⟨hlt, hx⟩ | ⟨hlt, hx⟩
  · exact .inl (Bool.and_eq_true_iff.2 ⟨decide_eq_true hlt, decide_eq_true hx⟩)
  · refine .inr (Bool.and_eq_true_iff.2 ⟨decide_eq_true hlt, decide_eq_true ?_⟩)
    rw [levelLifts]
    omega

theorem levelNoted_frame : levelNoted celsius level sensor s = { s with
    sys := { s.sys with thermal := level, pins := (levelNoted celsius level sensor s).sys.pins }
    log := (levelNoted celsius level sensor s).log, mram := (levelNoted celsius level sensor s).mram
    pcie := (levelNoted celsius level sensor s).pcie } := by
  unfold levelNoted
  rw [raiseSource_frame, logRecord_frame]
  rfl

/-- THERM_N is low while a level is in force (17, R703). -/
theorem levelNoted_thermN (h : s.sys.mode ≠ .reset) :
    (levelNoted celsius level sensor s).sys.pins.thermN = .low ↔ level ≠ 0 := by
  rw [levelNoted, raiseSource_sys, logRecord_sys]
  simp [syncPins, h]

theorem levelNoted_queue (h : logTakes s) : (levelNoted celsius level sensor s).log.queue =
    s.log.queue ++ [⟨calendarNow s, 0x1010, 0x0E00, celsius, BitVec.ofNat 32 level.val, sensor⟩] := by
  rw [levelNoted, raiseSource_log, logRecord_queue]
  · simp [makeRecord, calendarNow, syncPins]
  · exact h

end

section
variable {old level : Fin 4}

theorem levelEmcy_of_none (h : old = 0) : levelEmcy old level s = emcyRaise 0x4200 0x1010 0x0E00 s := if_pos h

theorem levelEmcy_of_lifted (h : old ≠ 0) (hl : level = 0) :
    levelEmcy old level s = emcyClear 0x4200 0x1010 0x0E00 s := (if_neg h).trans (if_pos hl)

theorem levelEmcy_of_other (h : old ≠ 0) (hl : level ≠ 0) : levelEmcy old level s = s := (if_neg h).trans (if_neg hl)

end

/-- The EMCY message of a change of level (14, R605). -/
def levelFrame (s : State) (code : Nat) (reg : BitVec 8) : CanFrame := emcyOf s reg code 0x1010 0x0E00

section
variable {celsius sensor : BitVec 32} {level : Fin 4}

theorem levelNoted_can : (levelNoted celsius level sensor s).can = s.can := by rw [levelNoted_frame]

theorem levelNoted_emcyOf (reg : BitVec 8) (code : Nat) :
    emcyOf (levelNoted celsius level sensor s) reg code 0x1010 0x0E00 = levelFrame s code reg := by
  rw [levelNoted_frame]
  rfl

/-- The first level entered raises EMCY 0x4200. -/
theorem levelEmcy_entered : let t := levelEmcy 0 level (levelNoted celsius level sensor s)
    0x4200 ∈ t.can.conditions ∧ t.can.errorRegister = s.can.errorRegister ||| 0x08 ∧
    t.dict.errors = (0x10104200 :: s.dict.errors).take 8 ∧
    (sendsNow s.can → t.can.sent = levelFrame s 0x4200 (s.can.errorRegister ||| 0x08) :: s.can.sent) := by
  intro t
  have ht : t = emcyRaise 0x4200 0x1010 0x0E00 (levelNoted celsius level sensor s) := levelEmcy_of_none rfl
  have hreg : registerWith s.can 0x4200 true = s.can.errorRegister ||| 0x08 := rfl
  rw [ht]
  refine ⟨emcyRaise_condition .., ?_, ?_, fun hs => ?_⟩
  · rw [emcyRaise_errorRegister, levelNoted_can, hreg]
  · rw [emcyRaise_errors _ _ (by decide), levelNoted_frame]
    rfl
  · rw [← levelNoted_can (celsius := celsius) (level := level) (sensor := sensor)] at hs
    rw [emcyRaise_sent _ _ hs, levelNoted_emcyOf, levelNoted_can, hreg]

/-- The last level lifted ends its condition. -/
theorem levelEmcy_lifted {old : Fin 4} (h : old ≠ 0) : let t := levelEmcy old 0 (levelNoted celsius 0 sensor s)
    0x4200 ∉ t.can.conditions ∧ (s.can.conditions = [0x4200] → t.can.errorRegister = s.can.errorRegister &&& 0xF7 ∧
      (sendsNow s.can → t.can.sent = levelFrame s 0 (s.can.errorRegister &&& 0xF7) :: s.can.sent)) := by
  intro t
  have ht : t = emcyClear 0x4200 0x1010 0x0E00 (levelNoted celsius 0 sensor s) := levelEmcy_of_lifted h rfl
  have hreg : registerWith s.can 0x4200 false = s.can.errorRegister &&& 0xF7 := rfl
  rw [ht]
  refine ⟨emcyClear_condition 0x1010 0x0E00, fun hc => ?_⟩
  rw [← levelNoted_can (celsius := celsius) (level := 0) (sensor := sensor)] at hc
  refine ⟨?_, fun hs => ?_⟩
  · rw [emcyClear_errorRegister _ _ hc, levelNoted_can, hreg]
  · rw [← levelNoted_can (celsius := celsius) (level := 0) (sensor := sensor)] at hs
    rw [emcyClear_sent _ _ hc hs, levelNoted_emcyOf, levelNoted_can, hreg]

end

/-! ### JTAG -/

/-- The attach record is measured into M10 (R707). -/
def attachMeasured (r : BitVec 128) (s : State) : State :=
  extend 10 (sha384 (natLe 16 r.toNat)) 0x7003 (onSys (fun y => { y with attaches := s.sys.attaches + 1 }) s)

theorem exec_jtagAttach (r : BitVec 128) (h : s.sys.mode ≠ .reset) : exec (.jtagAttach r) s =
    .next (logRecord 0x7003 0 (s.sys.attaches + 1) 0 0 (attachMeasured r s)) := congrArg Host.Outcome.next (if_neg h)

theorem extend_eventCount {k : Nat} (d : Bytes) (code : BitVec 16) (h : k ≠ 0) :
    (extend k d code s).manifest.eventCount = s.manifest.eventCount + 1 := by
  unfold extend
  rw [onManifest_manifest]
  split
  next h0 => exact absurd h0 h
  next => rfl

end Sys2Proof.Machine
end

section
/-! PROOFS. Mode requests, supply episodes, thermal levels and JTAG attaches together (01, R29; 15, R637 to R642; 16, R686
to R688; 17, R707, R710, R711). -/

namespace Sys2Proof.Machine

/-- Settles O57: each command's resulting state by its `exec_` equation, then its fields by the lemmas on that state;
the changes of mode by `intoMaintenance_taken` and `intoService_taken`. -/
theorem modesFollowRequestsAndSupply : Obligations.ModesFollowRequestsAndSupply := by
  unfold Obligations.ModesFollowRequestsAndSupply
  intro s p q k e v mv lowest below celsius sensor level r n c y now live told refuses pending room first after record1
    none_ whole leaves noting old sends emcy
  have hrefuses (i : Instr) (a : BitVec 32) (h : exec i s = .next (answerWrite p a s)) : refuses i a :=
    ⟨_, h, answerWrite_answered p a, by rw [answerWrite_frame]⟩
  have hwrites {go : State → Except (BitVec 32) State} {t : State} (hl : live) (hm : p ≠ .usdo) (hgo : go s = .ok t) :
      writeBy p 0x5280 1 go s = .next (answerWrite p 0 t) :=
    writeBy_of_ok hl.1 (entryFor_modeRequest_manager hl.2 hm) hgo
  have hfails {go : State → Except (BitVec 32) State} {a : BitVec 32} (hl : live) (hm : p ≠ .usdo)
      (hgo : go s = .error a) : writeBy p 0x5280 1 go s = .next (answerWrite p a s) :=
    writeBy_of_error hl.1 (entryFor_modeRequest_manager hl.2 hm) hgo
  refine ⟨fun hl hm hs hst => ?_, fun hl hm h => hrefuses _ _ (hfails hl hm (requestMaintenance_error h)),
    fun hl hm h => hrefuses _ _ (hfails hl hm (requestLeave_error h)), fun hl hm => ?_, fun hd hst hs hj => ?_,
    exec_maintenanceEntry_of_started, fun hl hm hmode hst hnone => ?_, fun hl hm hmode hst hwhole hparts hpassed => ?_,
    fun ha he => ?_, exec_inputBelowWarning_of_some, fun he hw => ?_, exec_warningEpisodeEnd_none,
    fun ha hlevel => ?_, fun hmode => ?_⟩
  · refine ⟨_, hwrites hl hm (requestMaintenance_ok hs hst), answerWrite_answered p 0, ?_, ?_,
      fun hq hk => ?_, fun hq => ?_⟩
    · rw [answerWrite_frame, drainStarted_frame]
    · rw [answerWrite_frame, drainStarted_frame]
    · rw [answerWrite_frame]
      exact drainStarted_berthQueue hq hk
    · rw [answerWrite_frame]
      exact drainStarted_managerQueue hq
  · subst hm
    exact ⟨hrefuses _ _ (writeBy_modeRequest_usdo hl.1 hl.2), hrefuses _ _ (writeBy_modeRequest_usdo hl.1 hl.2)⟩
  · obtain ⟨hpass, hsys, hjobs, hberths⟩ := passEnded_kept (s := s)
    have hopen : (passEnded s).sys.modeStatus = 1 := by rw [hsys]; exact hst
    have ht := intoMaintenance_taken hopen
    refine ⟨_, exec_maintenanceEntry hd hs hj, ht.mode, ht.status, ht.draining, ht.structEn c, ht.requestEnded,
      ht.modeChanged, ?_, ht.reports.jobs.trans hjobs, ht.reports.berths.trans hberths, fun hp => ?_, fun hp => ?_⟩
    · rw [ht.reports.bist, hpass]
    · rw [ht.reports.bist, passEnded, if_neg hp]
      exact (endPass_kept 0x8001).2.1
    · have hs1 : passEnded s = s := if_pos hp
      rw [hs1] at ht hopen ⊢
      exact ⟨fun hroom => exists_of_append_prefix (ht.first hroom), intoMaintenance_measured hopen⟩
  · obtain ⟨hparts, hcores⟩ := hnone
    have hgo := requestLeave_ok hmode hst
    rw [takePassed_none (s := leaveAsked s) hparts hcores] at hgo
    have ht := (intoService_taken (s := passedUsed (leaveAsked s)) rfl).answered p 0
    refine ⟨_, hwrites hl hm hgo, ht.mode, ht.status, ht.structEn c, ht.requestEnded, ht.modeChanged,
      answerWrite_answered p 0, ht.reports.jobs, ht.reports.berths, fun hroom => ?_, trivial⟩
    have hfrom : BitVec.ofNat 32 y.mode.code = 2 := congrArg (fun m : Mode => BitVec.ofNat 32 m.code) hmode
    rw [← hfrom]
    exact exists_of_append_prefix (ht.first hroom)
  · obtain ⟨hcores, hchannels, -, hsubs, hquays⟩ := hwhole
    exact ⟨_, hwrites hl hm (requestLeave_ok hmode hst),
      leave_engine_returns p n hparts hcores hchannels hsubs hquays hpassed⟩
  · have hreg : registerWith s.can 0x3100 true = s.can.errorRegister ||| 0x04 := rfl
    have hemcy := emcyRaise_only (s := dipNoted mv s) 0x3100 0x1001 0x0E00
    refine ⟨_, exec_inputBelowWarning_of_none ha he, ?_, ?_, emcyRaise_condition .., ?_, fun hroom => ⟨[], ?_⟩⟩
    · rw [hemcy]
      exact dipNoted_sys
    · rw [hemcy]
      exact raiseSource_pends 1655
    · rw [emcyRaise_errorRegister, dipNoted_can, hreg]
    · rw [hemcy]
      exact dipNoted_queue hroom
  · obtain ⟨hretired, htrained⟩ := flashCaughtUp_flash (s := dipEnded lowest below e s) (by rw [dipEnded_frame])
    have howed : (dipEnded lowest below e s).flash.trained ||| (dipEnded lowest below e s).dev.retrained =
        s.flash.trained ||| s.dev.retrained := by rw [dipEnded_frame]
    refine ⟨_, exec_warningEpisodeEnd_some he hw, ?_, ?_, fun hroom => ⟨[], ?_⟩, fun hsave => ?_, fun hsave => ?_,
      fun ht => ?_, fun hs => ?_⟩
    · rw [flashCaughtUp_frame, dipEnded_frame]
    · rw [flashCaughtUp_frame]
      exact dipEnded_condition
    · rw [flashCaughtUp_frame]
      exact dipEnded_queue hroom
    · rw [flashCaughtUp_frame, dipEnded_frame, hsave]
      rfl
    · rw [flashCaughtUp_frame, dipEnded_frame, hsave]
      rfl
    · exact (hretired (by rw [dipEnded_frame]; exact ht)).trans dipEnded_retired
    · exact (htrained (by rw [dipEnded_frame]; exact hs)).trans howed
  · have honly := levelEmcy_only (s := levelNoted celsius level sensor s) (level := level) old
    refine ⟨_, exec_thermalLevelChange ha (levelFits_of_reached hlevel), ?_, ?_, ?_, fun hroom => ⟨[], ?_⟩, ?_,
      fun h0 => ?_, fun h0 => ?_, fun h0 h1 => ?_⟩
    · rw [honly, levelNoted_frame]
    · rw [honly]
      exact levelNoted_thermN ha.1
    · rw [honly]
      exact raiseSource_pends 1656
    · rw [honly]
      exact levelNoted_queue hroom
    · rw [honly, levelNoted_frame]
    · obtain ⟨hcond, hreg, herrors, hsent⟩ :=
          levelEmcy_entered (s := s) (celsius := celsius) (level := level) (sensor := sensor)
      rw [← h0] at hcond hreg herrors hsent
      exact ⟨hcond, hreg, herrors, fun hs => hsent (sendsNow_of_active hs.1 hs.2)⟩
    · subst h0
      have hold : old ≠ 0 := by
        intro hz
        rcases hlevel with ⟨hlt, -⟩ | ⟨hlt, -⟩
        · exact Fin.not_lt_zero _ hlt
        · exact Fin.not_lt_zero _ (hz ▸ hlt)
      obtain ⟨hcond, hlast⟩ := levelEmcy_lifted (s := s) (celsius := celsius) (sensor := sensor) hold
      exact ⟨hcond, fun hc => ⟨(hlast hc).1, fun hs => (hlast hc).2 (sendsNow_of_active hs.1 hs.2)⟩⟩
    · rw [levelEmcy_of_other h0 h1, levelNoted_can]
  · have hcount : (attachMeasured r s).manifest.eventCount = s.manifest.eventCount + 1 :=
      extend_eventCount _ _ (by decide)
    have hreg : manifestReg (attachMeasured r s) 10 = sha384 (manifestReg s 10 ++ sha384 (natLe 16 r.toNat)) :=
      manifestReg_extend_self ..
    refine ⟨_, exec_jtagAttach r hmode, ?_, ?_, ?_, fun hroom => ⟨[], ?_⟩, ?_⟩
    · rw [logRecord_sys]
      rfl
    · rw [manifestReg, logRecord_manifest, ← manifestReg, hreg]
    · rw [logRecord_manifest, hcount]
    · exact logRecord_queue _ _ _ _ _ hroom
    · rw [logRecord_frame]
      rfl

end Sys2Proof.Machine
end
